-- ==== Sys2Proof/Word.lean ====
section
/-! DEFINITION. Word types and their plainest arithmetic. -/

namespace Sys2Proof

/-- One byte of memory. -/
abbrev Byte := BitVec 8
/-- A 64-bit word: a scalar register, a token, a local register (R12, R23, R80). -/
abbrev Word := BitVec 64
/-- A 32-bit parcel of a cue instruction (R60). -/
abbrev Parcel := BitVec 32
/-- A scalar register number, s0 to s31 (R61). -/
abbrev Reg := BitVec 5
/-- A handle number, h0 to h15 (R62). -/
abbrev HReg := BitVec 4
/-- A predicate number, p0 to p7 (R65). -/
abbrev PReg := BitVec 3

end Sys2Proof
end

