-- ==== Sys2Proof/Config.lean ====
section
/-! DEFINITION. What the spec leaves open: free values. Each constant has no body, so no proof can rest on its value.
Each is applied to a number that the step supplies from the field `fresh` of the state and then advances (DESIGN CHOICE,
log 2, 7, 10, 12). -/

namespace Sys2Proof.Config

/-- A value that the spec calls unpredictable (R15, R114, R116, R139, R161, R215), or leaves to the device. -/
opaque freeWord : Nat → BitVec 64
/-- A choice that the spec leaves to an agent of the device (frames, windows, order: R164, R317, R320, R362; log 7). -/
opaque freeChoice : Nat → Nat
/-- The dynamic energy of a take on a cluster in one window, in units of 2^−32 nJ (R378 gives no tables; log 10). -/
opaque windowEnergy : Nat → Nat
/-- The static power of a cluster in mW, by cluster and cycle (R378; log 10). -/
opaque staticPower : Nat → Nat → Nat
/-- The current of a stratum at the end of an arbiter window (R310 gives no currents; log 10). -/
opaque stratumCurrent : Nat → Nat
/-- The package power in W averaged over the last 2^20 cycles (R377). -/
opaque packagePower : Nat → Nat
/-- How many cycles more than the least of R374 the rail of a pair, by number and cycle, needs to settle. -/
opaque railExtra : Nat → Nat → Nat
/-- Whether the RSA-3072 signature of an image verifies under a key set (R383). -/
opaque rsaVerifies : List (BitVec 8) → List (BitVec 8) → Bool
/-- Whether the SLH-DSA-SHA2-192s signature of an image verifies under a key set (R383). -/
opaque slhVerifies : List (BitVec 8) → List (BitVec 8) → Bool
/-- Whether an image is well formed (R385 FCAUSE 4 names malformed images; the spec gives no image layout). -/
opaque imageWellFormed : List (BitVec 8) → Bool
/-- Whether the key that signed an image is in the key set (R385 FCAUSE 5). -/
opaque keyInSet : List (BitVec 8) → List (BitVec 8) → Bool
/-- Byte `i` of the signature part of a quote over the given text (R384). -/
opaque signatureByte : List (BitVec 8) → Nat → BitVec 8
/-- Byte `i` of the 16-byte header of a quote, which holds version 1 and the package number (R384 gives no layout). -/
opaque quoteHeader : BitVec 12 → Nat → BitVec 8

end Sys2Proof.Config
end

