-- ==== Sys2Proof/Syntax.lean ====
section
/-! DEFINITION. The instructions: one constructor of `Instr` for each row of spec/opcode_table.json.
Cue instructions carry their decoded operands (R60 to R69), element entries carry the fields of R47, and the rows that
are steps of the device carry the data of the event. -/

namespace Sys2Proof

/-! ### Codes of the cue instructions -/

/-- Conditions of PCMP (R65, R168). -/
inductive PCond | eq | ne | lt | ge | ltu | geu
  deriving DecidableEq, Repr
/-- Conditions of PCMPI (R65, R168). -/
inductive PICond | eq | ne | lt | ge
  deriving DecidableEq, Repr
/-- Functions of PLOG (R65, R168). -/
inductive PlogOp | and | or | xor | andn | not | mov | set | clr
  deriving DecidableEq, Repr
/-- Kinds of FENCE (R65, R177). -/
inductive FenceKind | ar | acq | rel
  deriving DecidableEq, Repr
/-- Paths of DRAIN: V vaults, H HBM, P peer packages, X host (R65, R180). -/
inductive Path | v | h | p | x
  deriving DecidableEq, Repr
/-- ORD codes (R68). -/
inductive Ord | plain | acq | rel | ar
  deriving DecidableEq, Repr
/-- SZ codes: 8, 16, 32, 64 bits (R68). -/
inductive Size | b | h | w | d
  deriving DecidableEq, Repr
/-- AOP codes (R68, R174). -/
inductive AmoOp | add | and | or | xor | min | max | minu | maxu | swap | cas | faddF32 | faddF16 | faddBf16 | faddT16
  deriving DecidableEq, Repr
/-- SCOPE codes .EL to .SY (R68, R277). -/
inductive Scope | el | rg | cl | qd | di | pk | pr | dm | ho | io | sy
  deriving DecidableEq, Repr
/-- Node kinds of a stream (R62, R275, R276). -/
inductive Node | stream | random | ordered
  deriving DecidableEq, Repr

/-- The tensor access of C64M: handle, number of coordinates less one, coordinate registers (R62, R172). -/
structure MemOp where
  h  : HReg
  nc : BitVec 2
  c0 : Reg
  c1 : Reg
  c2 : Reg
  c3 : Reg
  deriving DecidableEq, Repr

/-- The tile-step row of MX.STEP, MX.STEPS and MX.READ (R62 C64T, R211). `rows` is ROWS − 1 and `rpt` is RPT. -/
structure TileRow where
  h    : HReg
  b    : Reg
  rows : BitVec 8
  rpt  : BitVec 9
  selc : BitVec 4
  sela : BitVec 4
  sub  : BitVec 3
  afmt : BitVec 4
  bank : BitVec 8
  deriving DecidableEq, Repr

/-- An element entry without its OP field (R47): the constructor of `Instr` is the opcode. For HDR the constructor also
fixes MOD (R51), and `md` repeats it. -/
structure Entry where
  stamp : BitVec 12
  hold  : Bool
  chain : Bool
  fmt   : BitVec 4
  sa    : BitVec 4
  sb    : BitVec 4
  wl    : BitVec 3
  route : BitVec 6
  ps    : BitVec 3
  md    : BitVec 4
  imm   : BitVec 16
  deriving DecidableEq, Repr

/-! ### Data of the device's steps -/

/-- The sender of a reservation or landing: package, cluster and function tag (R38, R246). -/
structure Sender where
  pkg : Nat
  cl  : Nat
  fn  : Nat
  deriving DecidableEq, Repr

/-- How a landing ended at its target (R240, R250). -/
inductive LandResult | done | overrun | refused | link | abort
  deriving DecidableEq, Repr

/-- The requesters of memory (R279, R265). -/
inductive Requester
  | cueLoad (cl k : Nat)
  | cueStore (cl k tid : Nat)
  | elemReply (cl rid : Nat)
  | inPort (cl p : Nat)
  | outPort (cl p : Nat)
  | matrix (cl tid : Nat)
  | mxReadWrite (cl k tid : Nat) (path : Path)
  | copyEntry (cl take e : Nat)
  | overlay (cl k n : Nat)
  deriving DecidableEq, Repr

/-- One element of a tile for a peer (R276): its lease and offset, the unit of `n` bytes, and `w` bits from bit `lo` of it
that take a value, or an update. -/
structure TileElem where
  lease : Nat
  off : Nat
  n : Nat
  lo : Nat
  w : Nat
  v : Nat
  upd : Option (AmoOp × Size)
  deriving DecidableEq, Repr

/-- A request of the MEM class for a peer plot (R352, R175). `bits` replaces `w` bits from bit `lo` of a unit of `n`
bytes; `tile` is a tile, performed whole or not at all (R265). -/
inductive MemReq
  | read (n : Nat)
  | write (bytes : List Byte)
  | bits (n lo w v : Nat)
  | amo (op : AmoOp) (sz : Size) (v w : Word)
  | tile (l : List TileElem)
  deriving DecidableEq, Repr

/-- The completion of a MEM request (R265, R324). -/
inductive MemRep
  | data (bytes : List Byte)
  | ack
  | abort
  deriving DecidableEq, Repr

/-- Messages between packages (R352). -/
inductive LinkMsg
  | rsv (cl z : Nat) (snd : Sender) (k : Nat)
  | rsvReply (cl k : Nat) (code : Int) (size : Nat)
  | rel (cl z slot : Nat) (snd : Sender)
  | land (cl z slot : Nat) (snd : Sender) (take e off : Nat) (bytes : List Byte) (last : Bool)
  | landAck (cl take e : Nat) (r : LandResult)
  | mem (rq : Requester) (lease off : Nat) (req : MemReq)
  | memReply (rq : Requester) (rep : MemRep) (ue : Option (BitVec 64))   -- and what an uncorrectable error was (R331)
  | leaseAsk (take tid fn off first count : Nat)
  | leaseGrant (take tid lease first : Nat) (frames : List Nat)
  | leaseRefuse (take tid : Nat)
  | leaseRenew (lease : Nat)
  | recall (take tid plot : Nat)
  | recallAck (lease plot : Nat)
  | mgmt (bytes : List Byte)
  | fnReset (fn : Nat)      -- R258: a function of the sending package has been reset
  deriving DecidableEq, Repr

/-- What a register write carries (R332, R386): its size in bytes and its value. -/
structure RegData where
  n : Nat
  v : Word
  deriving DecidableEq, Repr

/-- The payload of a flit (R352): part `part` of a message that takes `parts` flits. -/
structure Payload where
  msg : LinkMsg
  part : Nat
  parts : Nat
  deriving DecidableEq, Repr

/-- What the board's management controller supplies (R383), and the digest that a stage manager supplies for a
measurement register (R384). -/
inductive Supply
  | keySet (bytes : List Byte)
  | image (bytes : List Byte)
  | digest (i : Nat) (d : BitVec 384)
  deriving DecidableEq, Repr

/-- One constructor per row of spec/opcode_table.json. -/
inductive Instr
  -- ALU major (R66, R166)
  | add (d a b : Reg) | sub (d a b : Reg) | mul (d a b : Reg) | mulh (d a b : Reg) | mulhu (d a b : Reg)
  | div (d a b : Reg) | divu (d a b : Reg) | rem (d a b : Reg) | remu (d a b : Reg)
  | and (d a b : Reg) | or (d a b : Reg) | xor (d a b : Reg) | andn (d a b : Reg)
  | shl (d a b : Reg) | shr (d a b : Reg) | sar (d a b : Reg) | rot (d a b : Reg)
  | min (d a b : Reg) | max (d a b : Reg) | minu (d a b : Reg) | maxu (d a b : Reg)
  | seq (d a b : Reg) | sne (d a b : Reg) | slt (d a b : Reg) | sltu (d a b : Reg)
  | clz (d a : Reg) | ctz (d a : Reg) | popc (d a : Reg) | brev (d a : Reg)
  -- immediate forms (R65, R167)
  | addi (d a : Reg) (imm : BitVec 14) | muli (d a : Reg) (imm : BitVec 14) | andi (d a : Reg) (imm : BitVec 14)
  | ori (d a : Reg) (imm : BitVec 14) | xori (d a : Reg) (imm : BitVec 14) | slti (d a : Reg) (imm : BitVec 14)
  | sltui (d a : Reg) (imm : BitVec 14) | seqi (d a : Reg) (imm : BitVec 14)
  | shli (d a : Reg) (n : BitVec 6) | shri (d a : Reg) (n : BitVec 6)
  | sari (d a : Reg) (n : BitVec 6) | roti (d a : Reg) (n : BitVec 6)
  | addl (d a : Reg) (k : Word) | andl (d a : Reg) (k : Word) | orl (d a : Reg) (k : Word) | xorl (d a : Reg) (k : Word)
  -- predicates (R168)
  | pcmp (c : PCond) (pd : PReg) (a b : Reg) | pcmpi (c : PICond) (pd : PReg) (a : Reg) (imm : BitVec 14)
  | plog (op : PlogOp) (pd pa pb : PReg) | selp (d a b : Reg) (p : PReg) | pget (d : Reg) | pput (a : Reg)
  | nop
  -- branches (R169 to R171)
  | beq (a b : Reg) (off : BitVec 14) | bne (a b : Reg) (off : BitVec 14) | blt (a b : Reg) (off : BitVec 14)
  | bge (a b : Reg) (off : BitVec 14) | bltu (a b : Reg) (off : BitVec 14) | bgeu (a b : Reg) (off : BitVec 14)
  | bp (p : PReg) (off : BitVec 14) | bnp (p : PReg) (off : BitVec 14)
  | loop (a : Reg) (off : BitVec 14) | jal (a : Reg) (off : BitVec 14) | jr (d a : Reg)
  -- ordering, waiting, system (R177 to R180, R192 to R195)
  | fence (k : FenceKind) (sc : Scope) (a : Reg) | mwait (d : Reg) (acq : Bool) (sc : Scope) (a : Reg)
  | drain (path : Path) | rstp (n : BitVec 14) | trap (n : BitVec 14) | brk (n : BitVec 14) | eret | exit (a : Reg)
  -- streams, scenes, overlays (R181 to R188)
  | unbind (h : HReg) | portWait (out : Bool) (p : BitVec 4) | barrier (out : Bool) (p : BitVec 4)
  | sceneGo (n : BitVec 14) | regionHalt (i : BitVec 6) | splice | ovlFetch (n : BitVec 14) | ovlWait (n : BitVec 14)
  -- accumulators, spawn (R189 to R191)
  | accTake (d : Reg) (n : BitVec 14) | accFree (a : Reg) (n : BitVec 14) | takeSpawn (d : Reg) (h : HReg) (b : Reg)
  -- matrix engine, 32-bit (R207, R210, R219, R222)
  | mxSwap | mxZero (a : Reg) (n : BitVec 14) | mxMode (a : Reg) | mxWait
  -- copy engine and zones, 32-bit (R238 to R256)
  | cpAdv (n : BitVec 14) | cpStat (d : Reg) (e : BitVec 14) | cpRedop (op : BitVec 4)
  | zoneArm (z : BitVec 3) (a : Reg) | zoneStat (d : Reg) (z : BitVec 14) | zoneSweep (z : BitVec 14)
  | zoneClose (z : BitVec 14) | sysRd (d : Reg) (r : BitVec 12) | sysWr (r : BitVec 12) (a : Reg)
  -- tensor access, 64 and 96 bits (R172 to R178)
  | ld (d : Reg) (m : MemOp) (ord : Ord) (u : Bool) (sz : Size) (sc : Scope)
  | ld96 (d : Reg) (m : MemOp) (ord : Ord) (u : Bool) (sz : Size) (sc : Scope) (lit : Parcel)
  | st (m : MemOp) (v : Reg) (ord : Ord) (sz : Size) (sc : Scope)
  | st96 (m : MemOp) (v : Reg) (ord : Ord) (sz : Size) (sc : Scope) (lit : Parcel)
  | amo (d : Reg) (m : MemOp) (v w : Reg) (ord : Ord) (sz : Size) (op : AmoOp) (sc : Scope)
  | amo96 (d : Reg) (m : MemOp) (v w : Reg) (ord : Ord) (sz : Size) (op : AmoOp) (sc : Scope) (lit : Parcel)
  | marm (m : MemOp) (sz : Size)
  | marm96 (m : MemOp) (sz : Size) (lit : Parcel)
  | bind (a b : Reg) (pat : BitVec 6) (hd hs : HReg) (node : Node) (out : Bool) (port : BitVec 4)
  | mxPin (m : MemOp) (fmt : BitVec 4) (sub : BitVec 3) | mxScale (isB : Bool) (m : MemOp)
  | mxStep (src : Bool) (t : TileRow) | mxSteps (src : Bool) (t : TileRow) | mxRead (t : TileRow)
  | zoneOpen (d a b : Reg) (nslot : BitVec 6) (z : BitVec 3)
  | zoneRsv (d : Reg) (pkg : BitVec 12) (cl : BitVec 8) (z : BitVec 3)
  | zoneRel (pkg : BitVec 12) (cl : BitVec 8) (slot : BitVec 6) (z : BitVec 3)
  -- element entries (R47 to R56, R118 to R141)
  | entryMov (e : Entry) | entryPass (e : Entry) | entryDrop (e : Entry) | entrySel (e : Entry) | entryCswp (e : Entry)
  | entrySend (e : Entry) | entryHdrLoad (e : Entry) | entryHdrBuild (e : Entry)
  | entryAdd (e : Entry) | entrySub (e : Entry) | entryMul (e : Entry) | entryMulh (e : Entry) | entryMac (e : Entry)
  | entryMsb (e : Entry) | entryMin (e : Entry) | entryMax (e : Entry) | entryAbs (e : Entry) | entryNeg (e : Entry)
  | entrySat (e : Entry) | entryCmp (e : Entry) | entryTest (e : Entry) | entryMaxi (e : Entry) | entryMini (e : Entry)
  | entryAnd (e : Entry) | entryOr (e : Entry) | entryXor (e : Entry) | entryAndn (e : Entry) | entryNot (e : Entry)
  | entryExt (e : Entry) | entryIns (e : Entry) | entryShl (e : Entry) | entryShr (e : Entry) | entrySar (e : Entry)
  | entryRot (e : Entry) | entryClz (e : Entry) | entryCtz (e : Entry) | entryPopc (e : Entry) | entryBrev (e : Entry)
  | entryCvt (e : Entry) | entryDec (e : Entry) | entryEnc (e : Entry) | entryPack (e : Entry) | entryUnpk (e : Entry)
  | entryRnd (e : Entry) | entryRcp (e : Entry) | entryRsq (e : Entry) | entryExp2 (e : Entry) | entryLog2 (e : Entry)
  | entryDiv (e : Entry) | entrySqrt (e : Entry) | entryLut (e : Entry) | entryCnt (e : Entry) | entryHash (e : Entry)
  | entryStat (e : Entry)
  -- steps of the fabric
  | playedCycle (cl rid : Nat) | delayEnd (cl rid : Nat) | pendDelivery (cl rid el : Nat)
  | emaskApply (cl rid : Nat) | startTokenDelivery (cl rid : Nat) | replayResume (cl rid : Nat)
  | overrunHoldEnd (pair : Nat) | trapTake (cl k : Nat)
  -- steps of the power, sampling and scheduling agents
  | arbiterWindow (pair : Nat) | droopHoldEnd (pair : Nat) | backstopWindow | energyWindow (cl : Nat)
  | pcSample (cl k : Nat) | priorityAgeing (take : Nat) | timeSliceEnd (take : Nat) | recordAccept (fn : Nat)
  | leaseGrant (take : Nat) | dispatch (take : Nat) | freeze (take : Nat) | restore (take : Nat)
  | move (take lc dst : Nat) | takeEnd (take : Nat) | leaseRecall (take tid plot : Nat)
  | remoteLeaseRequest (src take tid fn off first count : Nat) | remoteLeaseRenewal (pkg lease : Nat)
  | remoteLeaseLapse (lease : Nat) | remoteRecall (take tid plot : Nat) | recallAck (lease plot : Nat)
  -- completions and arrivals
  | loadReply (cl k : Nat) (bytes : List Byte) | abortCompletion (r : Requester) | inputTokenArrival (cl p : Nat)
  | tileCommit (cl p : Nat) | bindTakeEffect (cl : Nat) (out : Bool) (p : Nat)
  | unbindComplete (cl : Nat) (out : Bool) (p : Nat) | barrierComplete (cl : Nat) (out : Bool) (p : Nat)
  | portWaitWake (cl k : Nat) | mwaitWake (cl k : Nat) | mxWaitWake (cl k : Nat)
  | ovlFetchEnd (cl k n : Nat) (ok : Bool) | ovlWaitWake (cl k : Nat) | drainComplete (cl k : Nat)
  | accFreeComplete (cl k : Nat) | spliceComplete (take : Nat) | exitComplete (cl k : Nat) | spawnReply (cl k : Nat)
  | mxPinExecute (cl : Nat) | mxQueuedExecute (cl : Nat) | mxInterval (cl : Nat) | mxReadInterval (cl : Nat)
  | copySector (cl take e : Nat) | landEntryStart (cl take e : Nat) | copyEntryDone (cl take e : Nat)
  | reservationRequest (cl z : Nat) (snd : Sender) (k : Nat) | reservationReply (cl k : Nat) (code : Int) (size : Nat)
  | releaseMessage (cl z slot : Nat) (snd : Sender)
  | landingArrival (cl z slot : Nat) (snd : Sender) (take e off : Nat) (bytes : List Byte) (last : Bool)
  | landingAck (cl take e : Nat) (r : LandResult) | zoneCloseComplete (cl z : Nat)
  -- links
  -- registers, host, boot
  | patrolScrub (cl stripe : Nat) | clockSourceChange (die : Nat) | readplot (die : Nat) | setfn (die : Nat)
  | recall (die : Nat) | takest (die : Nat) | loadimg | quote | extend | unassignedInstruction (p0 p1 : Parcel)
  | inputPortRead (cl p : Nat) | remoteAccessRequest (src : Nat) (rq : Requester) (lease off : Nat) (req : MemReq)
  | remoteLeaseGrant (take tid lease first : Nat) (frames : List Nat) | railSettled (pair mv : Nat)
  -- acts of the outside world
  | registerWrite (fn off : Nat) (d : RegData) (fw : Bool) | windowWrite (fn off : Nat) (bytes : List Byte)
  | windowRead (fn off n : Nat) | barAtomicop (fn bar off : Nat) | msixUnmask (fn vec : Nat)
  | functionLevelReset (fn : Nat) | powerOn | selftestDone (die : Nat) (ok : Bool) | hbmTrained (die : Nat)
  | svctlEn (p : Nat) (en : Bool) | svctlDown (p : Nat) | svrtWrite (i : Nat) (mask : Word) | svdomWrite (v : Word)
  | vbfailWrite (cl : Nat) (v : Word) | verrClear (cl : Nat) (v : Word) | peakClear
  | vreqWrite (pair : Nat) (v : Word) | imageSupply (s : Supply)
  | flitReceive (port spkg cls seq ack : Nat) (ok : Bool) (m : Payload) | resendRequest (port dpkg cls seq : Nat)
  | portDown (p : Nat) | portUp (p lanes ppkg pport : Nat) | cancel (fn take : Nat) | takectlResume (fn take : Nat)
  | takectlAbort (fn take : Nat) | frel (fn take : Nat) | droop (pair : Nat) | launch (fn : Nat) (ref : Word)
  deriving DecidableEq, Repr

end Sys2Proof
end

