-- ==== Sys2Proof/Machine/State.lean ====
section
/-! DEFINITION. The state of the machine: everything the spec gives the Abagra 9256, as plain data, and its value after
power-on reset (R46). Tables are lists of numbered entries in one canonical form: numbers strictly rising, and no entry
equal to the default, which is the value at reset. The default of each field is its reset value: the one R46 and the
tables give, or where they give none the one that log 5 and 6 name (DESIGN CHOICE, PRESUMED). -/

namespace Sys2Proof.Machine

/-- A sparse family of values: (number, value) pairs, numbers strictly rising, no value equal to the default. -/
abbrev Table (α : Type) := List (Nat × α)

/-! ### Cue contexts (R23, R25, R26) -/

/-- The run state of a cue context (R23). -/
inductive KState | idle | run | wait | trap | exited | saved
  deriving DecidableEq, Repr

/-- A handle (R25): empty, a tensor, or a bound stream with its direction, NODE, PORT and TID. -/
inductive Handle
  | empty
  | tensor (tid : BitVec 12)
  | stream (out : Bool) (node : Node) (port : BitVec 4) (tid : BitVec 12)
  deriving DecidableEq, Repr

/-- What a context in WAIT waits for (R179, R184, R188, R222). -/
inductive Wait
  | mwait (d : Reg) (acq : Bool) (sc : Scope)
  | portWait (out : Bool) (p : BitVec 4) (ahead : Nat)
  | ovlWait (n : Nat)
  | mxWait
  deriving DecidableEq, Repr

/-- What a context that is stalled in RUN waits for (R162, R173, R180, R187, R190, R191, R195, R247, R255). -/
inductive Stall
  | load (n : Nat) (d : Reg) (sz : Size) (u : Bool) (tid : BitVec 12) (amo : Option (AmoOp × Word)) (off : Nat)
  | store (n : Nat) (v : Word) (sz : Size) (tid : BitVec 12) (off base len : Nat)   -- ST reads what it covers in part (R271)
  | drain (path : Path) (ents : List Nat) (ports : List (Nat × Nat))
  | accFree (first n : Nat)
  | rsv (d : Reg) (pkg : BitVec 12) (cl : BitVec 8) (z : BitVec 3)
  | spawn (d : Reg)
  | splice
  | exit (status : BitVec 32) (ents : Option (List Nat))
  | zoneClose (z : BitVec 3)
  deriving DecidableEq, Repr

/-- What has become of the fetches of an overlay (R188). -/
inductive OvlSt | never | fetching | ok | failed
  deriving DecidableEq, Repr

/-- A trap or an escalation as R165 gives it: number (R325), EINFO, EINFO2. -/
structure Pend where
  code  : Nat
  info  : Word
  info2 : Word
  deriving DecidableEq, Repr

/-- A reported abort of a posted write (R173, R221): the tensor, and the path of an MX.READ write. -/
structure WrAbort where
  tid : BitVec 12
  mx  : Option Path
  deriving DecidableEq, Repr

/-- A posted write to a peer that is not acknowledged: a ST, or a write of MX.READ with its path. -/
structure Posted where
  pkg   : Nat
  tid   : Nat
  lease : Nat
  mx    : Option Path
  so    : Bool := false            -- to a plot of kind SO (R280)
  deriving DecidableEq, Repr

/-- The restart mark RMARK (R194). -/
structure RMark where
  n     : BitVec 14
  pc    : BitVec 16
  steps : BitVec 48
  stage : BitVec 8
  deriving DecidableEq, Repr

/-- The monitor (R178): the memory key of its first byte, its size, and whether it has fired. -/
structure Mon where
  key   : Nat
  size  : Nat
  fired : Bool
  deriving DecidableEq, Repr

/-- A cue context (R23, R26, R164, R165, R194). Fields of R26 that are computed from other state (CTXID, XFSUM, HVIEW,
ACCMAP, RGSTAT, PORTIN, PORTOUT) or that the copy engine holds (CPSTAGE) stand there and not here. -/
structure CueCtx where
  take   : Nat := 0                 -- TAKEID
  s      : Vector Word 32 := Vector.replicate 32 0
  p      : BitVec 8 := 0            -- bit n is pn; bit 0 is not used
  h      : Vector Handle 16 := Vector.replicate 16 .empty
  pc     : BitVec 16 := 0
  kstate : KState := .idle
  mon    : Option Mon := none
  prio   : BitVec 2 := 0
  aor    : Word := 0           -- set when a take is launched (R26, R388)
  vbin   : BitVec 2 := 0
  cyc    : Word := 0                -- CYCLE
  ecnt   : BitVec 48 := 0
  esat   : Bool := false
  efrac  : Nat := 0                 -- the estimator's fraction in units of 2^-32 nJ (R378)
  mw     : BitVec 32 := 0           -- power in mW over the last window (R379)
  tvec   : Word := 0
  epc    : Word := 0
  ecause : Word := 0
  einfo  : Word := 0
  einfo2 : Word := 0
  esave  : Word := 0
  fstat  : BitVec 3 := 0
  steps  : BitVec 48 := 0           -- MXSTEPS
  wbase  : BitVec 16 := 0           -- the window in the scratchpad (R164)
  wsize  : Nat := 0
  rmark  : Option RMark := none
  pend   : List Pend := []          -- traps held pending, oldest first (R165, R328)
  wait   : Option Wait := none
  handler : Bool := false           -- the wait was entered from TRAP
  stall  : Option Stall := none
  retry  : Bool := false           -- an instruction that has issued stalls in RUN and is issued again (R165)
  aborts : List WrAbort := []       -- store aborts not yet reported (R173, R221)
  posted : List Posted := []       -- oldest first
  ovl    : Table OvlSt := []      -- by overlay number (R188)
  ovlAgain : List Nat := []         -- fetches that start again when the earlier one ends (R188)
  deriving DecidableEq, Repr

/-! ### Fabric (R12, R17, R153, R334) -/

/-- The overrun of a multi-cycle entry, held with its result until the delivery cycle (R155): a late source, or a run of
the given length beyond its bound. -/
inductive Overrun
  | timing
  | bound (len : Nat)
  deriving DecidableEq, Repr

/-- A pending multi-cycle result (R153): the result, where it goes, its flags and events, and the played cycles left. -/
structure PendRes where
  result : Word
  wl     : BitVec 3
  route  : BitVec 6
  chain  : Bool
  flag   : Option Bool
  xf     : BitVec 4
  tokc   : BitVec 4
  ovr   : Option Overrun -- reported in the delivery cycle (R155)
  bnd    : BitVec 4
  stamp  : BitVec 12
  count  : BitVec 4
  deriving DecidableEq, Repr

/-- An element context bank (R12) with its slate settings (R13, R14). -/
structure Bank where
  l0 : Word := 0
  l1 : Word := 0
  l2 : Word := 0
  l3 : Word := 0
  f  : Bool := false
  a  : List Word := []            -- oldest first; its length is the 5-bit count
  b  : List Word := []
  adep  : BitVec 5 := 0
  bdep  : BitVec 5 := 0
  afill : BitVec 9 := 0           -- the fill source code of R391
  bfill : BitVec 9 := 0
  ol   : Word := 0
  xf   : BitVec 4 := 0
  tokc : BitVec 64 := 0
  ents : List Word := []          -- the entries that are not VOID (R47)
  dhdr : Word := 0                -- tile header (R140)
  dv   : Bool := false
  pend : Option PendRes := none
  live : Bool := false            -- in the readout mask (R391)
  bad  : Bool := false            -- its store or a buffer holds an uncorrectable word (R331)
  deriving DecidableEq, Repr

/-- RSTATE (R19). -/
inductive RState | idle | armed | delay | run | frozen | halted | replay
  deriving DecidableEq, Repr

/-- A region (R17, R21, R22, R334): registers, place, duty slots, masks and checkpoint. -/
structure Region where
  take   : Nat := 0
  lc     : Nat := 0               -- logical cluster
  rix    : Nat := 0               -- index of its record in the resident slate
  copy   : BitVec 5 := 0
  ctx    : BitVec 2 := 0          -- physical context
  x0 : Nat := 0
  y0 : Nat := 0
  w  : Nat := 0                   -- columns of pages
  h  : Nat := 0
  ii     : BitVec 13 := 0
  cnt    : BitVec 12 := 0
  iter   : BitVec 48 := 0
  ioff   : BitVec 32 := 0
  width  : BitVec 6 := 0          -- W
  soff   : BitVec 12 := 0
  soffLeft : BitVec 12 := 0
  rstamp : BitVec 12 := 0
  riter  : BitVec 48 := 0
  rstate : RState := .idle
  was    : Option RState := none  -- while a freeze has stopped it, FROZEN: the state it goes back to (R19, R44)
  slots  : BitVec 16 := 0         -- the slots of its pages that carry its context (R21)
  emask  : BitVec 16 := 0         -- EMASK in force
  arb    : BitVec 16 := 0         -- the ARB mask as the arbiter last set it (R310)
  restarts : List (BitVec 12) := []   -- restart stamps (R390); none means stamp 0
  held   : Bool := false          -- its last played cycle was a hold (R20, R44, R186)
  halting : Bool := false         -- REGION.HALT, SPLICE or EXIT halts it at the next cycle boundary (R186)
  moved  : Bool := false          -- CNT reached its value by the advance of the last played cycle (R334)
  fresh  : Bool := true           -- no played cycle in RUN since its start token or its restore (R334, R342)
  suspended : Bool := false       -- continues across a splice, plays nothing until SCENE.GO (R187)
  overAgain : Bool := false       -- a TIMING overrun since the last restart point (R157)
  lostOnce  : Bool := false       -- a DATA replay since the last restart point (R331)
  shadow : Table Bank := []       -- restart shadows by element (R334), entries left out
  settleFor : Bool := false       -- REPLAY waits for the rail (R157)
  wild   : Bool := false          -- its output tokens are unpredictable after a buffer overflow (R15)
  token  : Bool := false          -- a start token is held until the rail has settled (R146)
  railWait : Bool := false        -- its load raised the floor and the rail has not settled since (R146)
  deriving DecidableEq, Repr

/-! ### Ports (R30, R32, R75, R181, R276, R336) -/

/-- An address pattern (R75), as its two words. -/
structure Pattern where
  w0 : Word
  w1 : Word
  deriving DecidableEq, Repr

/-- A binding: the tensor stream that BIND set up (R181), and the context that issued it. -/
structure Binding where
  take : Nat
  k    : Nat
  node : Node
  tid  : BitVec 12
  pat  : Pattern
  pix  : Nat                       -- the pattern's index in the slate
  o0   : BitVec 32
  limit : BitVec 32
  deriving DecidableEq, Repr

/-- A queued stream command (R32). -/
inductive PortCmd
  | bind (b : Binding)
  | unbind
  | barrier
  deriving DecidableEq, Repr

/-- The window of one consuming region on an input port: read pointer, RPTR (buffer positions), LOST (R30, R336). -/
structure Consumer where
  rid  : Nat
  rd   : Nat
  rptr : Nat
  lost : Bool
  deriving DecidableEq, Repr

/-- An input port (R30). Positions count tokens from the first after the BIND; `buf` holds those from `base` on. -/
structure InPort where
  bound : Option Binding := none
  phase : BitVec 8 := 0
  got   : Nat := 0                -- tokens received from memory since the BIND; NSEQ is this modulo 2^16
  pos   : Nat := 0                -- tokens delivered for the first time, to buffers or to the matrix engine
  base  : Nat := 0
  buf   : List Word := []
  cons  : List Consumer := []
  cmds  : List PortCmd := []
  part  : List Nat := []          -- elements of the next token that a peer has returned
  asked : Nat := 0                -- reads of peer elements outstanding (R275)
  old   : List (Nat × Byte) := [] -- bytes of the tensor that its context has stored to since, as its reads give them (R275)
  pulled : Bool := false          -- a matrix step has read the port (R215)
  mxAsk : Bool := false           -- a matrix step has asked for the reads outstanding
  began : Option Nat := none      -- the cycle from which a STREAM port's reads count as issued (R275)
  deriving DecidableEq, Repr

/-- A token that an output port has accepted and not committed (R276, R336). -/
structure OutTok where
  val  : Word
  last : Bool
  rid  : Option Nat               -- the region that sent it while it is not committable
  elem : Nat                      -- its place among the tokens accepted since the BIND
  lane : Option Nat := none       -- the lane it entered by, none for the matrix engine
  cyc  : Nat := 0                 -- the cycle in which it was accepted (R139)
  deriving DecidableEq, Repr

/-- An output port (R30, R273, R276). -/
structure OutPort where
  bound : Option Binding := none
  phase : BitVec 8 := 0
  cseq  : BitVec 16 := 0
  held  : List OutTok := []
  nacc  : Nat := 0                -- tokens accepted since the BIND
  stop  : Bool := false
  closing : Bool := false         -- UNBIND, SPLICE or EXIT ends the final tile (R276)
  cmds  : List PortCmd := []
  wait  : List (Option (AmoOp × Word)) := []   -- peer writes of the tile being committed, oldest first; an update with its operand
  tile  : Nat := 0                -- tokens of the tile being committed to a peer
  deriving DecidableEq, Repr

/-! ### Matrix engine (R35, R204 to R226) -/

/-- A weight plane (R35). `cells` is numbered 256 k + n. -/
structure Plane where
  pfmt  : BitVec 5 := 0
  pk    : Nat := 0
  pn    : Nat := 0
  pv    : Bool := false
  cells : Table Word := []
  deriving DecidableEq, Repr

/-- A scale pointer record (R35, R208). -/
structure ScaleRec where
  tid : BitVec 12
  c0  : BitVec 32
  c1  : BitVec 32
  c2  : BitVec 32
  c3  : BitVec 32
  deriving DecidableEq, Repr

/-- A queued matrix instruction with the operands read at issue (R204). -/
inductive MxOp
  | pin (fmt : BitVec 4) (sub : BitVec 3) (tid : BitVec 12) (c0 c1 c2 c3 : BitVec 32)
  | swap
  | scale (isB : Bool) (r : ScaleRec)
  | mode (w : BitVec 32)
  | step (sparse src : Bool) (t : TileRow) (hd : Handle) (row0 k0 : BitVec 32)
  | zero (first n : Nat)
  | read (t : TileRow) (hd : Handle) (row0 k0 : BitVec 32)
  deriving DecidableEq, Repr

/-- A read of peer data that an interval has asked for: the tensor, the row that it is for, and the data once it has come
back. -/
structure MxRead where
  tid : Nat
  row : Nat
  val : Option Nat := none
  deriving DecidableEq, Repr

structure MxItem where
  op   : MxOp
  pc   : BitVec 16
  k    : Nat                       -- the issuing context
  next : Nat := 0                  -- the next interval
  reads : List MxRead := []        -- reads of peer data asked for in the interval, in order
  deriving DecidableEq, Repr

structure Mx where
  holder : Option Nat := none      -- the take that holds the engine (R203)
  live   : Plane := {}
  shadow : Plane := {}
  mode   : BitVec 32 := 0
  sca    : Option ScaleRec := none
  scb    : Option ScaleRec := none
  queue  : List MxItem := []
  deriving DecidableEq, Repr

/-! ### Copy engine and zones (R37 to R40, R239 to R250) -/

inductive EState | pending | active | done | error
  deriving DecidableEq, Repr

/-- The state of one schedule entry (R37, R239). -/
structure CopyEnt where
  st    : EState := .pending
  ecode : BitVec 4 := 0
  sat   : Bool := false
  inv   : Bool := false
  doneb : BitVec 48 := 0
  opr   : BitVec 4 := 0            -- the operator in force when it became ACTIVE (R243)
  slots : List (BitVec 6) := []    -- the slots a SLOTS source reads, in order (R234)
  zat   : Nat := 0                 -- where those slots' zone began when it became ACTIVE, the bytes of a slot, and the cycle
  zstep : Nat := 0                 -- in which the zone was opened
  zborn : Nat := 0
  rows  : List (Option Int) := []  -- the rows of a GATHER destination, as read when it became ACTIVE (R244)
  land  : Option (BitVec 6) := none          -- the slot taken (R248)
  pos   : Nat := 0                 -- elements moved
  sent  : Nat := 0                 -- bytes sent to the slot
  obits : Nat := 0                 -- bits that wait to be sent: how many, and their value
  obuf  : Nat := 0
  asked : Nat := 0                 -- reads of peer data outstanding for the next element
  vals  : List Nat := []           -- peer data that has come back for it
  posted : List Nat := []          -- writes and arrivals not acknowledged: package
  stamp : Option Nat := none       -- a sequence stamp not acknowledged: package (R241)
  fin   : Option (BitVec 4) := none          -- it has met its end: ECODE, 0 for DONE
  deriving DecidableEq, Repr

/-- A reservation in the queue (R247, R248). -/
structure Rsv where
  pkg  : BitVec 12
  cl   : BitVec 8
  z    : BitVec 3
  slot : BitVec 6
  size : Nat
  lost : Bool := false            -- its route has failed while its take is saved (R253)
  deriving DecidableEq, Repr

/-- The copy engine's state for one take on one cluster (R37). -/
structure CopyEng where
  stage : BitVec 8 := 0
  sseq  : Word := 0
  redop : BitVec 4 := 0
  ents  : Table CopyEnt := []
  rsvs  : List Rsv := []           -- unconsumed, oldest first
  deriving DecidableEq, Repr

inductive SlotState | free | held | filling | landed | orphaned
  deriving DecidableEq, Repr

/-- A slot (R38). -/
structure Slot where
  st   : SlotState := .free
  spkg : BitVec 12 := 0
  scl  : BitVec 8 := 0
  sfn  : BitVec 6 := 0
  sfill : BitVec 21 := 0
  scnt : BitVec 21 := 0
  cut  : Bool := false
  deriving DecidableEq, Repr

/-- A zone (R38, R39, R245). `word` is the zone's own copy of its status word (R252). -/
structure Zone where
  open_ : Bool := false
  closing : Bool := false          -- ZONE.CLOSE has stopped it accepting (R255)
  zbase : BitVec 17 := 0
  ssize : BitVec 13 := 0
  nslot : BitVec 7 := 0
  owner : Nat := 0
  born  : Nat := 0                 -- the cycle in which it was opened
  zsw   : BitVec 25 := 0           -- vault address
  zarm  : BitVec 48 := 0
  zgot  : BitVec 48 := 0
  word  : Word := 0
  slots : Table Slot := []
  deriving DecidableEq, Repr

/-! ### Clusters -/

/-- The state of a line of the instruction scratchpad (R164, R337). -/
inductive LineSt | valid | invalid | filling
  deriving DecidableEq, Repr

structure Cluster where
  ctx     : Table CueCtx := []          -- K0 to K3
  scratch : List Host.Cell := []        -- 64 KiB, by byte offset
  lines   : Table LineSt := []          -- lines of 64 bytes
  regions : Table Region := []          -- by RID
  banks   : Table Bank := []            -- number 256 × context + 16 × page + element
  inp     : Table InPort := []          -- physical in0 to in15
  outp    : Table OutPort := []
  acc     : Table (BitVec 32) := []     -- word number 512 × bank + word
  accBad  : List Nat := []              -- words with an uncorrectable error (R331)
  accOwn  : Table (Option (Nat × Nat)) := []   -- HELD and OWNER by bank: take, context
  mx      : Mx := {}
  copy    : Table (Option CopyEng) := []       -- by take identifier
  zones   : Table Zone := []
  hzctl   : BitVec 4 := 0
  hzrec   : Word := 0
  verr    : Word := 0
  vbfail  : BitVec 36 := 0
  deriving DecidableEq, Repr

/-! ### Takes (R292 to R309, R313 to R316, R338, R388 to R391) -/

/-- A tensor descriptor (R313) with the plot table the stage manager keeps for it (R316). -/
structure Tensor where
  w0 : Word
  w1 : Word
  w2 : Word
  low : Word
  high : Word
  w5 : Word
  w6 : Word
  rloc : Word
  plots : Table Word := []       -- plot number, plot entry; an unlisted entry is 0
  deriving DecidableEq, Repr

/-- A copy schedule entry (R232), as its eight words. -/
structure Sched where
  w0 : Word
  w1 : Word
  s0 : Word
  s1 : Word
  s2 : Word
  d0 : Word
  d1 : Word
  d2 : Word
  deriving DecidableEq, Repr

/-- An element record (R391). -/
structure ElemRec where
  x : Nat
  y : Nat
  adep : BitVec 5
  bdep : BitVec 5
  afill : BitVec 9
  bfill : BitVec 9
  live : Bool
  l0 : Word
  l1 : Word
  l2 : Word
  l3 : Word
  ents : List Word
  deriving DecidableEq, Repr

/-- A region record (R390). `duty` is the duty word's slot codes, 3 bits each. -/
structure RegionRec where
  cont : Bool
  prev : Nat
  soffk : Nat
  restarts : List (BitVec 12)
  copies : Nat
  ii : Nat
  ctx : BitVec 2
  psi : Nat
  duty : BitVec 48
  elems : List ElemRec
  deriving DecidableEq, Repr

structure PageSet where
  w : Nat
  h : Nat
  lc : Nat
  deriving DecidableEq, Repr

/-- A slate record (R389). -/
structure Slate where
  vbin : BitVec 2
  pats : List Pattern
  zones : List (BitVec 3)
  psets : List PageSet
  regions : List RegionRec
  deriving DecidableEq, Repr

structure Scene where
  slate : Slate
  entry : BitVec 16
  cueOff : Nat
  cueLen : Nat
  deriving DecidableEq, Repr

structure Overlay where
  n : Nat
  woff : Nat
  off : Nat
  len : Nat
  deriving DecidableEq, Repr

/-- A reel image (R388), with the reference of the launch record (R292) that names it. -/
structure Reel where
  ref : Word
  savesz : Nat
  scenes : List Scene
  ovls : List Overlay
  deriving DecidableEq, Repr

/-- The states of a take (R297). -/
inductive TState | queued | ready | running | frozen | saved | ending
  deriving DecidableEq, Repr

/-- Where one copy of a region of a scene is placed (R299, R300): page position, physical context, rotation. -/
structure Spot where
  scene : Nat
  rix : Nat
  copy : Nat
  x0 : Nat
  y0 : Nat
  ctx : BitVec 2
  rot : Nat
  deriving DecidableEq, Repr

/-- Where one logical cluster is placed (R298 to R301). -/
structure Place where
  lc : Nat
  cl : Nat
  k  : Nat
  spots : List Spot
  inMap : List (BitVec 4 × BitVec 4)     -- logical port, physical port
  outMap : List (BitVec 4 × BitVec 4)
  deriving DecidableEq, Repr

/-- Why a take is asked to freeze (R302, R304, R308, R327, R329). -/
inductive Why
  | preempt
  | stop (code cl k : Nat) (epc : BitVec 16) (info info2 : Word) (noResume : Bool)
  | abort (code : Nat)               -- completion CODE of R296
  | move (lc dst : Nat)
  deriving DecidableEq, Repr

/-- The part of the fault record that grows while the take runs (R338). -/
structure FaultRec where
  fcode : BitVec 8 := 0
  nlease : BitVec 16 := 0
  replays : BitVec 32 := 0
  ldet0 : Word := 0
  ldet1 : Word := 0
  odet0 : Word := 0
  odet1 : Word := 0
  bcount : BitVec 32 := 0
  btid : BitVec 12 := 0
  bc0 : BitVec 32 := 0
  bc1 : BitVec 32 := 0
  bc2 : BitVec 32 := 0
  bc3 : BitVec 32 := 0
  tcode : BitVec 8 := 0
  tcl : BitVec 8 := 0
  tk : BitVec 2 := 0
  tepc : BitVec 16 := 0
  tinfo : Word := 0
  tinfo2 : Word := 0
  leak : Bool := false
  lbanks : BitVec 9 := 0
  x : Word := 0                    -- XCODE, XCL, XRID, XPORT
  deriving DecidableEq, Repr

/-- The share of one logical cluster in a save image (R45, R305, R306). -/
structure Share where
  lc : Nat
  ctx : CueCtx
  regions : List (Nat × Region × List (Nat × Bank))   -- RID, region, (page-set element number, bank)
  inp : List (BitVec 4 × InPort)                      -- logical port
  outp : List (BitVec 4 × OutPort)
  acc : List (Nat × List (BitVec 32))                 -- bank number, words
  mx : Option Mx
  copy : CopyEng
  lands : Bool                                        -- reservations or landing entries outstanding (R307 FEAT 4)
  cl : Nat                                            -- the cluster it was saved from
  deriving DecidableEq, Repr

/-- The fixed part of the launch record (R292). -/
structure Launch where
  prio : BitVec 2 := 0
  debug : Bool := false
  mxeng : Bool := false
  wsz : BitVec 4 := 0
  entry : BitVec 16 := 0
  ncl : BitVec 8 := 0
  vec : BitVec 16 := 0
  reel : Word := 0
  tlist : Word := 0
  csched : Word := 0
  plist : Word := 0
  ttab : Word := 0
  cmpl : Word := 0
  ntens : Nat := 0
  nsched : Nat := 0
  args : List Word := []
  hbind : List Word := []
  deriving DecidableEq, Repr

structure Take where
  id : Nat
  fn : Nat                        -- function tag (R364)
  hdr : Launch
  tensors : List (Nat × Tensor)   -- by TID, in list order
  sched : List Sched
  traps : List (BitVec 2)         -- ACT of trap numbers 0 to 63 (R327)
  fix : List (Option (BitVec 8))  -- placement list: the fixed cluster (R293)
  reel : Reel
  st : TState := .queued
  stopped : Bool := false
  noResume : Bool := false        -- stopped by DOUBLE-TRAP (R330)
  why : List Why := []            -- freeze requests, oldest first
  stops : Bool := false           -- a freeze has taken effect at a cycle boundary (R44)
  prio : BitVec 2                 -- after ageing (R303)
  since : Nat := 0                -- cycle of its last entry into READY or SAVED, or promotion (R303)
  order : Nat := 0                -- cycle of its entry into READY or SAVED (R303)
  ran : Nat := 0                  -- cycle of its dispatch or restore (R304)
  samp : Nat := 0                 -- cycles run since dispatch, continued across restore (R379)
  places : List Place := []
  scene : Nat := 0
  exits : List (Nat × BitVec 32) := []   -- cluster, exit status (R195)
  unwound : Bool := false                -- its end has begun with its copy entries (R309)
  trapped : List (Nat × Nat) := []       -- cluster and RID of the regions whose traps stopped it (R329)
  want : List (Nat × Nat) := []          -- plots of peer tensors at which an access stalls for a new grant (R324)
  code : BitVec 8 := 0            -- CODE of R296 once it is aborted
  fr : FaultRec := {}
  frec : Nat := 0                 -- memory key of its fault record
  frecRef : Word := 0             -- the same as a reference (R292)
  save : Nat := 0                 -- memory key of its save area; 0 before dispatch
  saveFrames : Nat := 0
  image : Option (List Share) := none
  xabort : Bool := false          -- ended by a fault in this cycle: later OUT-OF-LEASE faults are counted (R319)
  xcycle : Nat := 0
  deriving DecidableEq, Repr

/-- A fault record kept after its take (R338): its function, take, memory key and size. -/
structure FRec where
  fn : Nat
  take : Nat
  key : Nat
  size : Nat
  deriving DecidableEq, Repr

/-! ### Functions, dies, pairs, package -/

/-- A submitted record (R294, R191): the reference or memory key, and the spawning context with its priority cap. -/
structure Submit where
  ref : Word
  key : Option Nat := none
  spawn : Option (Nat × Nat) := none
  cap : BitVec 2 := 3
  full : Bool := false            -- QDEPTH was 64 when it arrived (R295 code 8)
  deriving DecidableEq, Repr

/-- A function's blocks (R294, R321, R332, R363, R365). -/
structure Fn where
  ctake : BitVec 32 := 0
  cres : BitVec 2 := 0
  badw : Bool := false
  queue : List Submit := []       -- submitted, not yet accepted or refused
  lslim : BitVec 32 := 0
  lsuse : BitVec 32 := 0
  lsrmt : BitVec 32 := 0
  evbase : Word := 0
  esz : BitVec 4 := 0
  evvec : BitVec 16 := 0
  evhead : BitVec 32 := 0
  evtail : BitVec 32 := 0
  lost : Bool := false
  lcnt : BitVec 32 := 0
  clset : BitVec 256 := 0
  psz : BitVec 8 := 0
  pbase : List (BitVec 20) := []
  msixAddr : Table Word := []
  msixData : Table (BitVec 32) := []
  msixMask : BitVec 64 := BitVec.allOnes 64
  msixPend : BitVec 64 := 0
  psbase : Word := 0              -- sampling entry (R380)
  psen : Bool := false
  psz2 : BitVec 4 := 0
  pshead : BitVec 32 := 0
  pstail : BitVec 32 := 0
  pslost : BitVec 32 := 0
  bars : Table (BitVec 32) := []  -- BAR0 to BAR3 as the host has written them (R361)
  flr : Bool := false             -- a function-level reset has stopped the function and drains (R340)
  deriving DecidableEq, Repr

/-- A mailbox (R382). -/
structure Mailbox where
  args : Vector Word 8 := Vector.replicate 8 0
  busy : Bool := false
  res  : BitVec 8 := 0
  lcmd : BitVec 8 := 0
  cmd  : BitVec 8 := 0            -- the command under way
  fn   : Nat := 0                 -- the function whose write submitted it
  deriving DecidableEq, Repr

/-- DSTATE (R381). -/
inductive DState | reset | selftest | reduced | full | failed
  deriving DecidableEq, Repr

structure Die where
  st : DState := .reset
  elogbase : Word := 0
  eloghead : BitVec 32 := 0
  box : Mailbox := {}
  fast : Bool := false            -- the clock runs at 600 MHz (R381)
  deferred : Bool := false        -- a clock-source change waits for DRP (R311)
  deriving DecidableEq, Repr

/-- A pair (R311, R312, R374 to R376). -/
structure Pair where
  vreq : BitVec 10 := 800
  vnow : BitVec 10 := 800
  pwrmask : BitVec 16 := 0
  aim : BitVec 10 := 800          -- the voltage that the rail is set to
  settled : Bool := true          -- SETTLED (R374, R376)
  since : Option Nat := some 0    -- the cycle since which the rail has been within 2 mV of its target (R374)
  rampAt : Nat := 0               -- cycle before which the rail may not move again (R374)
  hold : Bool := false
  holdV : BitVec 10 := 0
  holdEnd : Option Nat := none    -- cycle at which a hold ends, once the rail has settled at its voltage (R157)
  drp : Bool := false
  drpEnd : Nat := 0
  drpClear : Bool := false        -- DRP clears at the next wrap (R311)
  drpcnt : BitVec 32 := 0
  heavy : Bool := false
  imbal : BitVec 8 := 0
  deriving DecidableEq, Repr

/-- A flit that waits for its port: package, class, number, payload. -/
structure QFlit where
  pkg : Nat
  cls : Nat
  seq : Nat
  load : Payload
  deriving DecidableEq, Repr

inductive PortSt | disabled | down | training | up
  deriving DecidableEq, Repr

/-- A Silvis port (R355, R356). -/
structure SvPort where
  st : PortSt := .disabled
  lanes : BitVec 3 := 0
  ppkg : BitVec 12 := 0
  pport : BitVec 6 := 0
  rsnd : BitVec 16 := 0
  downs : BitVec 16 := 0
  en : Bool := false
  fails : Table Nat := []         -- by direction, package, class and number of a flit: its checks failed in a row (R357)
  sendq : List QFlit := []        -- flits that wait for the port, oldest first (R352)
  lastMem : Bool := false         -- of LAND and MEM, the class that the port sent last (R352)
  deriving DecidableEq, Repr

/-- The traffic between this package and another in one class (R353, R354, R358). -/
structure Pin where
  port : Option Nat := none
  snd  : Nat := 0                 -- flits queued
  out  : Nat := 0                 -- flits that have been sent at least once: those below this number
  rcv  : Nat := 0                 -- flits accepted in order
  retry : List (Nat × Payload) := []   -- unacknowledged flits, oldest first
  deriving DecidableEq, Repr

/-- A remote lease another package holds on a pool of this package (R323, R324). -/
structure RLease where
  src : Nat
  take : Nat
  tid : Nat
  fn : Nat
  frames : List Nat               -- stack in [22:20], frame of the stack in [19:0] (R316)
  until_ : Nat                    -- cycle at which its term ends
  first : Nat                     -- the first leased plot of the source's tensor
  asked : List Nat := []          -- plots whose recall has been sent
  recalled : List Nat := []       -- plots whose recall the source has acknowledged
  deriving DecidableEq, Repr

/-- The frame of a plot that a tensor of another package has been granted under a named plot of a function's pool: a new grant
of the same plots gives it, wherever a recall has moved it (R323, R324). -/
structure RPlot where
  src : Nat
  take : Nat
  tid : Nat
  fn : Nat
  pool : Nat                      -- the plot of the pool that the request has named
  plot : Nat
  frame : Nat
  deriving DecidableEq, Repr

/-- A request for a remote lease that waits at the target (R323). -/
structure RWait where
  src : Nat
  take : Nat
  tid : Nat
  fn : Nat
  off : Nat                       -- the first plot of the range in the pool
  first : Nat
  count : Nat
  deriving DecidableEq, Repr

/-- A lease that this package has asked for or holds on another package's pool (R323), over leased plots `first` to
`first + count − 1` of a tensor. -/
structure PLease where
  pkg : Nat
  take : Nat
  tid : Nat
  first : Nat
  count : Nat
  granted : Bool := false
  lease : Nat := 0
  until_ : Nat := 0               -- cycle at which the term ends
  deriving DecidableEq, Repr

/-- A request to another package that has no completion yet, with the tag of its function (R364); the completion of a
stale one is discarded (R335, R340). -/
structure Req where
  pkg   : Nat
  rq    : Requester
  fn    : Nat
  plots : List (Nat × Nat) := []  -- the plots that it names, each with its remote lease
  wr    : Bool := false           -- a write
  stale : Bool := false
  deriving DecidableEq, Repr

/-- The boot steward (R382 to R385). -/
structure Steward where
  phase : BitVec 4 := 0
  fcause : BitVec 4 := 0
  rev : BitVec 8 := 0             -- silicon revision of DEVID
  mreg : Vector (BitVec 384) 8 := Vector.replicate 8 0
  keys : List Byte := []
  box : Mailbox := {}
  deriving DecidableEq, Repr

/-- What leaves the package, newest last (DESIGN CHOICE, log 3). -/
inductive OutMsg
  | flit (port dpkg spkg cls seq ack : Nat) (m : Payload)
  | resend (port dpkg cls seq : Nat)
  | msix (fn vec : Nat)
  | readData (fn : Nat) (bytes : List Byte)
  | readAbort (fn : Nat)
  | unsupported (fn : Nat)
  | errorIrq (die : Nat)
  | resetLog (fn take : Nat)
  deriving DecidableEq, Repr

/-- The next act of an agent: a context issues an instruction, an element's one entry fires, or a device step (DESIGN CHOICE,
log 1). -/
inductive Turn
  | issue (cl k : Nat)
  | fire (cl rid el : Nat)
  | dev (i : Instr)
  deriving DecidableEq, Repr

/-- The SECDED condition of a 64-bit word of memory (R262, R266). -/
inductive WordErr | none | single | double
  deriving DecidableEq, Repr

/-- The machine. `agenda`, `curCl`, `curK`, `curRid`, `curEl`, `fresh`, `outbox` and `cycle` are the model's own (DESIGN
CHOICE, log 1 to 3); `mem` lists the bytes of vaults, HBM and hosts that are not 0 (log 4). -/
structure State where
  agenda  : List Turn := []
  curCl   : Nat := 0
  curK    : Nat := 0
  curRid  : Nat := 0
  curEl   : Nat := 0
  fresh   : Nat := 0
  outbox  : List OutMsg := []
  cycle   : Nat := 0
  slot    : BitVec 4 := 0
  mem     : List Host.Cell := []
  errs    : Table WordErr := []
  hid     : Table (Option Byte) := []   -- what reads do not give where a bank and the stripe's code differ (R262, R263)
  clusters : Table Cluster := []
  takes   : List Take := []
  frecs   : List FRec := []
  fns     : Table Fn := []
  dies    : Table Die := []
  pairs   : Table Pair := []
  pkgId   : BitVec 12 := 0
  svLock  : Bool := false
  svports : Table SvPort := []
  routes  : Table (BitVec 48) := []
  pins    : Table Pin := []             -- number 4 × package + class
  reach   : List Nat := []              -- packages reachable now (R354)
  svevt   : Word := 0
  svvec   : BitVec 16 := 0
  rleases : Table (Option RLease) := []
  rplots  : List RPlot := []
  rwaits  : List RWait := []
  pleases : List PLease := []
  reqs    : List Req := []              -- oldest first
  pkglim  : BitVec 16 := 1800
  pkgpwr  : BitVec 16 := 0
  peak    : BitVec 16 := 0
  bkmask  : BitVec 16 := 0
  bkwin   : BitVec 8 := 0
  steward : Steward := {}
  deriving DecidableEq, Repr

/-- Reasons the machine stops with a fault. -/
inductive Fault
  /-- Raised by `step` on an agenda turn that presents a cue instruction or an element entry as a step of a device
  agent: no agent of the spec does that. Safe: the machine stops (DESIGN CHOICE, log 31). -/
  | notADeviceStep
  deriving DecidableEq, Repr

/-- Reasons an instruction is refused. -/
inductive Refusal
  /-- Raised by `exec` on an instruction that has no meaning yet. Safe: the machine stops. -/
  | notModelled (mnemonic : String)
  deriving DecidableEq, Repr

/-- The machine after power-on reset (R46, R355, R376, R377); the values no rule gives are log 4 to 6. -/
def State.reset : State := {}

end Sys2Proof.Machine
end

