-- ==== Sys2Proof/Machine/Ops.lean ====
section
/-! DEFINITION. Named operations over the state: tables, registers, memory, messages, and taking and leaving a trap. -/

namespace Sys2Proof.Machine

/-- The outcome of a step of this machine. -/
abbrev Out := Host.Outcome State Fault Refusal

/-! ### Tables -/

section
variable {α : Type}

/-- The value of entry `k`, or the default. -/
def tget (d : α) : Table α → Nat → α
  | [], _ => d
  | (j, v) :: t, k => if j = k then v else tget d t k

/-- Remove entry `k`. -/
def tdel (k : Nat) : Table α → Table α
  | [] => []
  | (j, v) :: t => if j = k then tdel k t else (j, v) :: tdel k t

/-- Insert an entry before the first larger number. -/
def tins (k : Nat) (v : α) : Table α → Table α
  | [] => [(k, v)]
  | (j, w) :: t => if k < j then (k, v) :: (j, w) :: t else (j, w) :: tins k v t

/-- Set entry `k`, keeping the canonical form: a default value is not listed. -/
def tput [DecidableEq α] (d : α) (t : Table α) (k : Nat) (v : α) : Table α :=
  if v = d then tdel k t else tins k v (tdel k t)

def tupd [DecidableEq α] (d : α) (t : Table α) (k : Nat) (f : α → α) : Table α := tput d t k (f (tget d t k))

/-- Change every listed value. -/
def tmap [DecidableEq α] (d : α) (f : Nat → α → α) : Table α → Table α
  | [] => []
  | (j, v) :: t => if f j v = d then tdel j (tmap d f t) else (j, f j v) :: tmap d f t

/-- Is every number strictly larger than the one before it, and no value the default? -/
def Table.wf [DecidableEq α] (d : α) : Table α → Bool
  | [] => true
  | [(_, v)] => v != d
  | (j, v) :: (k, w) :: t => v != d && j < k && Table.wf d ((k, w) :: t)

end

/-- The canonical form of memory (no byte equal to what an unlisted address reads as, which is 0: R46 for the vaults,
DESIGN CHOICE for HBM and hosts, log 4). -/
def Memory.wf (m : List Host.Cell) : Bool := Table.wf 0 m

/-! ### Bits -/

/-- Bits `[hi:lo]` of a word as a number. -/
def bits (w : Word) (hi lo : Nat) : Nat := w.toNat / 2 ^ lo % 2 ^ (hi - lo + 1)
def bit (w : Word) (i : Nat) : Bool := w.getLsbD i
/-- A number placed at bit `lo`. -/
def at_ (n lo : Nat) : Word := BitVec.ofNat 64 (n <<< lo)
def b2n (b : Bool) : Nat := if b then 1 else 0
def flag (b : Bool) (lo : Nat) : Word := if b then BitVec.ofNat 64 (1 <<< lo) else 0
/-- The number that `n` bytes hold, least significant first (DEDUCED, log 8). -/
def ofBytes : List Byte → Nat
  | [] => 0
  | b :: t => b.toNat + 256 * ofBytes t
/-- The `n` low bytes of a number, least significant first. -/
def toBytes : Nat → Nat → List Byte
  | 0, _ => []
  | n + 1, v => BitVec.ofNat 8 v :: toBytes n (v / 256)
def wordBytes (w : Word) : List Byte := toBytes 8 w.toNat
/-- Sign extension of the low `w` bits. -/
def sextN (w v : Nat) : Int := if v % 2 ^ w < 2 ^ (w - 1) then (v % 2 ^ w : Nat) else (v % 2 ^ w : Nat) - (2 ^ w : Nat)
def ofInt (i : Int) : Word := BitVec.ofInt 64 i
/-- A count that stops at its maximum. -/
def satInc {w : Nat} (x : BitVec w) : BitVec w := if x = BitVec.allOnes w then x else x + 1
def cdiv (a b : Nat) : Nat := (a + b - 1) / b
/-- Sizes in bytes of the SZ codes (R68). -/
def sizeBytes : Size → Nat
  | .b => 1 | .h => 2 | .w => 4 | .d => 8
/-- Bits of a mask from 0 up. -/
def maskBit {w : Nat} (m : BitVec w) (i : Nat) : Bool := m.getLsbD i
def setBit {w : Nat} (m : BitVec w) (i : Nat) (b : Bool) : BitVec w :=
  if b then m ||| (BitVec.twoPow w i) else m &&& ~~~ (BitVec.twoPow w i)
def popcount {w : Nat} (m : BitVec w) : Nat := ((List.range w).filter (fun i => m.getLsbD i)).length
/-- The lowest and highest numbers below `n` with the property. -/
def lowest (n : Nat) (p : Nat → Bool) : Option Nat := (List.range n).find? p
def highest (n : Nat) (p : Nat → Bool) : Option Nat := (List.range n).reverse.find? p

/-! ### Clusters, contexts, regions, ports, takes -/

def State.cluster (s : State) (cl : Nat) : Cluster := tget {} s.clusters cl
def State.updCluster (s : State) (cl : Nat) (f : Cluster → Cluster) : State :=
  { s with clusters := tupd {} s.clusters cl f }

def State.ctx (s : State) (cl k : Nat) : CueCtx := tget {} (s.cluster cl).ctx k
def State.updCtx (s : State) (cl k : Nat) (f : CueCtx → CueCtx) : State :=
  s.updCluster cl fun c => { c with ctx := tupd {} c.ctx k f }

def State.region (s : State) (cl rid : Nat) : Region := tget {} (s.cluster cl).regions rid
def State.updRegion (s : State) (cl rid : Nat) (f : Region → Region) : State :=
  s.updCluster cl fun c => { c with regions := tupd {} c.regions rid f }

def State.bank (s : State) (cl n : Nat) : Bank := tget {} (s.cluster cl).banks n
def State.updBank (s : State) (cl n : Nat) (f : Bank → Bank) : State :=
  s.updCluster cl fun c => { c with banks := tupd {} c.banks n f }

def State.inPort (s : State) (cl p : Nat) : InPort := tget {} (s.cluster cl).inp p
def State.updIn (s : State) (cl p : Nat) (f : InPort → InPort) : State :=
  s.updCluster cl fun c => { c with inp := tupd {} c.inp p f }

def State.outPort (s : State) (cl p : Nat) : OutPort := tget {} (s.cluster cl).outp p
def State.updOut (s : State) (cl p : Nat) (f : OutPort → OutPort) : State :=
  s.updCluster cl fun c => { c with outp := tupd {} c.outp p f }

def State.zone (s : State) (cl z : Nat) : Zone := tget {} (s.cluster cl).zones z
def State.updZone (s : State) (cl z : Nat) (f : Zone → Zone) : State :=
  s.updCluster cl fun c => { c with zones := tupd {} c.zones z f }

def State.mxOf (s : State) (cl : Nat) : Mx := (s.cluster cl).mx
def State.updMx (s : State) (cl : Nat) (f : Mx → Mx) : State := s.updCluster cl fun c => { c with mx := f c.mx }

/-- The copy engine's state for a take on a cluster (R37); a take that has none there reads the launch values. -/
def State.copyOf (s : State) (cl take : Nat) : CopyEng := (tget none (s.cluster cl).copy take).getD {}
def State.updCopy (s : State) (cl take : Nat) (f : CopyEng → CopyEng) : State :=
  s.updCluster cl fun c => { c with copy := tput none c.copy take (some (f ((tget none c.copy take).getD {}))) }
def State.updEnt (s : State) (cl take e : Nat) (f : CopyEnt → CopyEnt) : State :=
  s.updCopy cl take fun c => { c with ents := tupd {} c.ents e f }

def State.fn (s : State) (f : Nat) : Fn := tget {} s.fns f
def State.updFn (s : State) (f : Nat) (g : Fn → Fn) : State := { s with fns := tupd {} s.fns f g }
def State.die (s : State) (d : Nat) : Die := tget {} s.dies d
def State.updDie (s : State) (d : Nat) (g : Die → Die) : State := { s with dies := tupd {} s.dies d g }
def State.pair (s : State) (p : Nat) : Pair := tget {} s.pairs p
def State.updPair (s : State) (p : Nat) (g : Pair → Pair) : State := { s with pairs := tupd {} s.pairs p g }
def State.svport (s : State) (p : Nat) : SvPort := tget {} s.svports p
def State.updPort (s : State) (p : Nat) (g : SvPort → SvPort) : State := { s with svports := tupd {} s.svports p g }
def State.pin (s : State) (n : Nat) : Pin := tget {} s.pins n
def State.updPin (s : State) (n : Nat) (g : Pin → Pin) : State := { s with pins := tupd {} s.pins n g }

def State.take? (s : State) (id : Nat) : Option Take := s.takes.find? fun t => t.id == id
def State.updTake (s : State) (id : Nat) (f : Take → Take) : State :=
  { s with takes := s.takes.map fun t => if t.id = id then f t else t }

/-- The die of a cluster (R4). -/
def dieOf (cl : Nat) : Nat := cl / 64
/-- The pair of a cluster (R4). -/
def pairOf (cl : Nat) : Nat := cl / 2

/-- Where a take's logical cluster is, and which one is on a cluster. -/
def Take.placeOf (t : Take) (cl : Nat) : Option Place := t.places.find? fun p => p.cl == cl
def Take.placeLc (t : Take) (lc : Nat) : Option Place := t.places.find? fun p => p.lc == lc
def mapPort (m : List (BitVec 4 × BitVec 4)) (p : BitVec 4) : Option (BitVec 4) := (m.find? fun x => x.1 == p).map (·.2)
def unmapPort (m : List (BitVec 4 × BitVec 4)) (p : Nat) : BitVec 4 :=
  match m.find? fun x => x.2.toNat == p with
  | some x => x.1
  | none => 0

/-- May the agents of a take act (R297, R319)? Of a take that is asked to freeze they act to the end of the cycle (R44). -/
def Take.active (t : Take) : Bool := t.st == .running && !t.stops
/-- Has a freeze of a take begun, and is it not at rest yet (R297: RUNNING, then FROZEN)? -/
def Take.freezing (t : Take) : Bool := t.st == .frozen || t.st == .running && t.stops
/-- Has no request to freeze reached a running take? -/
def Take.unasked (t : Take) : Bool := t.active && t.why.isEmpty
/-- Has a take been asked to freeze that has not been saved or ended yet? -/
def Take.leaving (t : Take) : Bool := t.freezing || t.active && !t.why.isEmpty
/-- OUT-OF-LEASE of an earlier cycle: no access of the take is issued (R319). -/
def Take.barred (t : Take) (now : Nat) : Bool := t.xabort && t.xcycle ≠ now
def State.active (s : State) (id : Nat) : Bool :=
  match s.take? id with
  | some t => t.active
  | none => false

/-- R19, R305: a freeze stops a region that has not halted, FROZEN; its ARB bits are dropped (R310). That ARMED and DELAY become
FROZEN too, to be what they were after thaw or restore, is DEDUCED, log 49. -/
def Region.freeze (g : Region) : Region :=
  match g.rstate with
  | .armed | .delay | .run => { g with rstate := .frozen, was := some g.rstate, arb := 0 }
  | _ => { g with arb := 0 }
/-- A region that a freeze has stopped goes on in the state it had (R44). One that a trap has stopped stays FROZEN (R328). -/
def Region.thaw (g : Region) : Region :=
  match g.rstate, g.was with
  | .frozen, some r => { g with rstate := r, was := none }
  | _, _ => g
/-- The state of a region, a freeze apart. -/
def Region.running (g : Region) : RState := g.thaw.rstate

/-- Change the regions of a take on its clusters. -/
def State.mapRegions (s : State) (t : Take) (f : Region → Region) : State :=
  t.places.foldl (fun s p => s.updCluster p.cl fun c => { c with
    regions := tmap {} (fun _ (g : Region) => if g.take == t.id && g.rstate != .idle then f g else g) c.regions }) s

/-- The cue context of a take on a cluster (R43). -/
def State.ctxOf (s : State) (cl take : Nat) : Option Nat :=
  (List.range 4).find? fun k => (s.ctx cl k).take == take && (s.ctx cl k).kstate != .idle

/-! ### The current context -/

def State.me (s : State) : CueCtx := s.ctx s.curCl s.curK
def State.onMe (s : State) (f : CueCtx → CueCtx) : State := s.updCtx s.curCl s.curK f
def State.myTake (s : State) : Option Take := s.take? s.me.take

/-- S[r]: s0 reads 0 (R23). -/
def CueCtx.reg (c : CueCtx) (r : Reg) : Word := if r = 0 then 0 else c.s[r.toNat]
/-- Write S[r]: a write to s0 is discarded (R23). -/
def CueCtx.setReg (c : CueCtx) (r : Reg) (v : Word) : CueCtx :=
  if r = 0 then c else { c with s := c.s.set r.toNat v }
/-- P[n]: p0 reads 1 (R23). -/
def CueCtx.prd (c : CueCtx) (n : PReg) : Bool := n == 0 || c.p.getLsbD n.toNat
/-- Write P[n]: a write to p0 is discarded (R23). -/
def CueCtx.setPrd (c : CueCtx) (n : PReg) (v : Bool) : CueCtx :=
  if n = 0 then c else { c with p := setBit c.p n.toNat v }

def State.reg (s : State) (r : Reg) : Word := s.me.reg r
def State.prd (s : State) (n : PReg) : Bool := s.me.prd n
def State.handle (s : State) (h : HReg) : Handle := s.me.h[h.toNat]
def CueCtx.setHandle (c : CueCtx) (h : HReg) (v : Handle) : CueCtx := { c with h := c.h.set h.toNat v }

/-- R162: PC moves past an instruction of `n` parcels. -/
def CueCtx.advance (c : CueCtx) (n : Nat) : CueCtx := { c with pc := c.pc + BitVec.ofNat 16 (4 * n) }

/-- An instruction of `n` parcels that writes S[d] and goes on. -/
def State.result (s : State) (n : Nat) (d : Reg) (v : Word) : State := s.onMe fun c => (c.setReg d v).advance n
/-- An instruction of `n` parcels that goes on. -/
def State.goOn (s : State) (n : Nat) : State := s.onMe fun c => c.advance n

/-- The value of a handle (R25). -/
def Handle.bits : Handle → Word
  | .empty => 0
  | .tensor tid => at_ 1 60 ||| at_ tid.toNat 0
  | .stream out node port tid =>
    at_ (if out then 3 else 2) 60 ||| at_ (match node with | .stream => 0 | .random => 1 | .ordered => 2) 44
      ||| at_ port.toNat 40 ||| at_ tid.toNat 0
def Handle.kind : Handle → Nat
  | .empty => 0
  | .tensor _ => 1
  | .stream out _ _ _ => if out then 3 else 2

/-! ### Messages, turns, free values -/

def State.post (s : State) (t : Turn) : State := { s with agenda := s.agenda ++ [t] }
def State.postDev (s : State) (i : Instr) : State := s.post (.dev i)
/-- A turn placed before the first one that it precedes in its cycle, or last (R247, R250, R274). -/
def insertTurn (later : Turn → Bool) (x : Turn) : List Turn → List Turn
  | [] => [x]
  | y :: t => if later y then x :: y :: t else y :: insertTurn later x t
def State.postBefore (s : State) (later : Turn → Bool) (i : Instr) : State := { s with agenda := insertTurn later (.dev i) s.agenda }
def State.emit (s : State) (m : OutMsg) : State := { s with outbox := s.outbox ++ [m] }
/-- A free value, and the state with the counter advanced (DESIGN CHOICE, log 2). -/
def State.freeVal (s : State) : Word × State := (Config.freeWord s.fresh, { s with fresh := s.fresh + 1 })
def State.freePick (s : State) : Nat × State := (Config.freeChoice s.fresh, { s with fresh := s.fresh + 1 })

/-- The error interrupt of a die's stage manager (R265, R331). -/
def State.errorIrq (s : State) (die : Nat) : State := s.emit (.errorIrq die)

/-- Is a function being reset, or will it be in this cycle: a reset decides a meeting in its favour (R340, R341)? -/
def State.resets (s : State) (f : Nat) : Bool :=
  (s.fn f).flr || s.agenda.any fun t => match t with
    | .dev (.functionLevelReset g) => g == f || g % 32 == 0 && g / 32 == f / 32 && !(s.fn g).flr
    | _ => false

/-- Signal an MSI-X vector of a function (R365): none through its reset (R340); beyond 63 nothing is sent; a masked vector becomes pending. That vectors
are masked at reset is PRESUMED, log 6. -/
def State.msix (s : State) (f vec : Nat) : State :=
  if 64 ≤ vec || s.resets f then s
  else if maskBit (s.fn f).msixMask vec then s.updFn f fun n => { n with msixPend := setBit n.msixPend vec true }
  else s.emit (.msix f vec)

/-! ### Memory places (R259, R266, R292, R316, R362) -/

def vaultKey (cl addr : Nat) : Nat := cl * 2 ^ 25 + addr
def hbmKey (stack off : Nat) : Nat := 2 ^ 33 + stack * 2 ^ 36 + off
def hostKey (fn addr : Nat) : Nat := 2 ^ 64 * (64 + fn) + addr % 2 ^ 64
def isVault (key : Nat) : Bool := key < 2 ^ 33
def isHost (key : Nat) : Bool := 2 ^ 64 ≤ key
def vaultCl (key : Nat) : Nat := key / 2 ^ 25
def vaultAddr (key : Nat) : Nat := key % 2 ^ 25
def hbmStack (key : Nat) : Nat := (key - 2 ^ 33) / 2 ^ 36
def hbmOff (key : Nat) : Nat := (key - 2 ^ 33) % 2 ^ 36

/-- The memory key of a byte of a function's pool (R362). -/
def Fn.poolKey (f : Fn) (o : Nat) : Option Nat :=
  if f.psz.toNat < 3 || 2 ^ f.psz.toNat ≤ o then none
  else
    let p := 2 ^ (f.psz.toNat - 3)
    match f.pbase[o / p]? with
    | some b => some (hbmKey (o / p) (65536 * b.toNat + o % p))
    | none => none

/-- The memory key that a reference of a function names (R292); none for a reserved space or nonzero bits [7:2]. -/
def State.refKey (s : State) (f : Nat) (r : Word) : Option Nat :=
  if bits r 7 2 ≠ 0 then none
  else if bits r 1 0 = 0 then some (hostKey f (bits r 63 8 * 256))
  else if bits r 1 0 = 1 then (s.fn f).poolKey (bits r 63 8 * 256)
  else none

/-- The runs of memory keys that `n` bytes of a pool from offset `o` occupy; each part lies in its own stack (R362). -/
def Fn.poolRuns (f : Fn) (o n : Nat) : Nat → List (Nat × Nat)
  | 0 => []
  | k + 1 =>
    let p := 2 ^ (f.psz.toNat - 3)
    let m := min n (p - o % p)
    match f.poolKey o with
    | some a => if m < n then (a, m) :: f.poolRuns (o + m) (n - m) k else [(a, n)]
    | none => []

/-- The runs of keys of `n` bytes at offset `off` of the object that a reference names (R292). -/
def State.refRuns (s : State) (f : Nat) (r : Word) (off n : Nat) : List (Nat × Nat) :=
  if bits r 1 0 = 0 then [(hostKey f (bits r 63 8 * 256 + off), n)]
  else (s.fn f).poolRuns (bits r 63 8 * 256 + off) n 8

/-! ### Bytes -/

def State.byte (s : State) (a : Nat) : Byte := tget 0 s.mem a
def State.putByte (s : State) (a : Nat) (v : Byte) : State := { s with mem := tput 0 s.mem a v }

/-! ### Erasures (R262, R263)

Where what a bank holds differs from what the codes of its stripe give (bytes that a write skipped in a bank marked failed,
and errors that SECDED does not see), `mem` holds the one that a read gives, and `hid` the other: for an erasure what the
bank holds, otherwise what the codes give. For the words of check slices `hid` marks those that differ. -/

/-- The number under which the error condition of the word that holds key `a` stands. -/
def errIdx (a : Nat) : Nat := a / 8
/-- The same for word `w` of check slice `j` of a stripe of a vault. -/
def chkIdx (cl stripe j w : Nat) : Nat := 2 ^ 80 + ((cl * 2 ^ 17 + stripe) * 2 + j) * 2 + w

def State.err (s : State) (i : Nat) : WordErr := tget .none s.errs i

/-- The bank of slice `j` of a stripe, the check slices being 16 and 17 (R260, R263). -/
def sliceBank (stripe j : Nat) : Nat := if j < 16 then 16 * (stripe % 2) + j else 32 + 2 * (stripe % 2) + (j - 16)

/-- Is the bank of slice `j` of a stripe marked failed (R263)? -/
def State.bankFailed (s : State) (cl stripe j : Nat) : Bool := maskBit (s.cluster cl).vbfail (sliceBank stripe j)

/-- The number of the error condition of word `w` of slice `j`. -/
def sliceIdx (cl stripe j w : Nat) : Nat :=
  if j < 16 then errIdx (vaultKey cl (256 * stripe + 16 * j + 8 * w)) else chkIdx cl stripe (j - 16) w

/-- Is a word of slice `j` of a stripe an erasure (R262 step 2)? -/
def State.erased (s : State) (cl stripe j w : Nat) : Bool :=
  s.bankFailed cl stripe j || s.err (sliceIdx cl stripe j w) == .double

/-- The same for the word that holds a key. -/
def State.erasedAt (s : State) (a : Nat) : Bool :=
  isVault a && s.erased (vaultCl a) (vaultAddr a / 256) (vaultAddr a % 256 / 16) (vaultAddr a % 16 / 8)
/-- Is a key's byte in a bank marked failed? -/
def State.skipped (s : State) (a : Nat) : Bool :=
  isVault a && s.bankFailed (vaultCl a) (vaultAddr a / 256) (vaultAddr a % 256 / 16)

/-- The `n` bytes from key `a`, as memory holds them. -/
def State.peek (s : State) (a : Nat) : Nat → List Byte
  | 0 => []
  | n + 1 => s.byte a :: s.peek (a + 1) n

/-- Store bytes from key `a`. -/
def State.poke (s : State) (a : Nat) : List Byte → State
  | [] => s
  | b :: t => (s.putByte a b).poke (a + 1) t

/-- The bytes from `a` on, `n` of them, hold the byte `k`. -/
def inRange (a n k : Nat) : Bool := a ≤ k && k < a + n
def overlaps (a n b m : Nat) : Bool := a < b + m && b < a + n

/-- R178: the monitor of a context after a write of `n` bytes from key `a`. -/
def CueCtx.fireMon (x : CueCtx) (a n : Nat) : CueCtx :=
  { x with mon := x.mon.map fun m => if overlaps m.key m.size a n then { m with fired := true } else m }

/-- R178: a write to monitored bytes makes the monitors on them fire. -/
def State.fireMons (s : State) (a n : Nat) : State :=
  { s with clusters := tmap {} (fun _ c => { c with ctx := tmap {} (fun _ x => x.fireMon a n) c.ctx }) s.clusters }

/-! ### The symbol code and SECDED (R262 to R266) -/

/-- Does a word of slice `j` of a stripe hold a symbol error that SECDED does not see (R262 step 4)? -/
def State.symErr (s : State) (cl stripe j w : Nat) : Bool :=
  !s.erased cl stripe j w &&
    if j < 16 then (List.range 8).any fun b => (tget none s.hid (vaultKey cl (256 * stripe + 16 * j + 8 * w + b))).isSome
    else (tget none s.hid (chkIdx cl stripe (j - 16) w)).isSome

/-- Can the stripe be read (R262)? Without an erasure it is delivered; otherwise no codeword holds more than two, or one
with a further symbol error. -/
def State.rebuilds (s : State) (cl stripe : Nat) : Bool :=
  let gone (w : Nat) : Nat := ((List.range 18).filter fun j => s.erased cl stripe j w).length
  (gone 0 == 0 && gone 1 == 0) ||
    (List.range 2).all fun w => gone w ≤ 2 && (gone w == 0 || !(List.range 18).any fun j => s.symErr cl stripe j w)

/-- Does a stripe of a vault hold a word that cannot be corrected (R264)? -/
def State.stripeBad (s : State) (cl stripe : Nat) : Bool := !s.rebuilds cl stripe

/-- The stripes (256 bytes) or words (8 bytes) that a range of keys touches. -/
def unitsOf (u a n : Nat) : List Nat := if n = 0 then [] else (List.range ((a + n - 1) / u - a / u + 1)).map fun i => a / u + i

/-- Is a read of the range uncorrectable (R262, R266)? In a vault: a stripe of it cannot be read. In HBM: a word with a double-bit error. In host memory: a word that the host completes with an error (R333). -/
def State.readBad (s : State) (a n : Nat) : Bool :=
  if isVault a then (unitsOf 256 a n).any fun i => s.stripeBad (vaultCl a) (vaultAddr (256 * i) / 256)
  else (unitsOf 8 a n).any fun i => s.err i == .double

/-- The slices of a stripe that hold an erasure, check slices among them (R262 step 2). -/
def State.goneSlices (s : State) (cl stripe : Nat) : List Nat :=
  (List.range 18).filter fun j => s.erased cl stripe j 0 || s.erased cl stripe j 1

/-- Does a read of the range correct something? A word of it with a single-bit error (R262 step 1), or an erasure anywhere in
a stripe that it touches, which is then read whole (step 4). -/
def State.readCorrects (s : State) (a n : Nat) : Bool :=
  !isHost a && ((unitsOf 8 a n).any (fun i => s.err i == .single)
    || isVault a && (unitsOf 256 a n).any fun i => s.goneSlices (vaultCl a) (vaultAddr (256 * i) / 256) != [])

/-- Is a write of the range refused (R264)? A unit that holds an uncorrectable word and is written in part. -/
def State.writeBad (s : State) (a n : Nat) : Bool :=
  if isHost a then false
  else if isVault a then
    (unitsOf 256 a n).any fun i => s.stripeBad (vaultCl a) (vaultAddr (256 * i) / 256) && !(a ≤ 256 * i && 256 * i + 256 ≤ a + n)
  else (unitsOf 8 a n).any fun i => s.err i == .double && !(a ≤ 8 * i && 8 * i + 8 ≤ a + n)

/-- R263: the bank and the stripe that VERR names for an error met in a range of a vault. A corrected error is that of the
first word of the range with one, or else of the first stripe with an erasure; an uncorrectable one that of the first stripe
that cannot be read and is not written whole. In a stripe it is the first slice with an erasure. Which of several bad banks
is named the spec does not say (DESIGN CHOICE, log 50). -/
def State.badPlace (s : State) (ue : Bool) (a n : Nat) : Nat × Nat :=
  let cl := vaultCl a
  let stripe (i : Nat) : Nat := vaultAddr (256 * i) / 256
  let word := if ue then none else (unitsOf 8 a n).find? fun i => s.err i == .single || s.erasedAt (8 * i)
  match word with
  | some i => (sliceBank (vaultAddr (8 * i) / 256) (vaultAddr (8 * i) % 256 / 16), vaultAddr (8 * i) / 256)
  | none =>
    let hit := (unitsOf 256 a n).filter fun i => if ue then s.stripeBad cl (stripe i) else s.goneSlices cl (stripe i) != []
    let i := ((hit.find? fun i => !(a ≤ 256 * i && 256 * i + 256 ≤ a + n)).or hit.head?).getD (a / 256)
    (sliceBank (stripe i) ((s.goneSlices cl (stripe i)).headD (vaultAddr a % 256 / 16)), stripe i)

/-- R263: record an error of a vault in VERR. -/
def verrRecord (v : Word) (ue : Bool) (bank stripe : Nat) : Word :=
  let ce := bits v 31 16
  let un := bits v 15 0
  flag (ue || bit v 63) 63 ||| flag (!ue || bit v 62) 62 ||| at_ (bank % 64) 56 ||| at_ (stripe % 2 ^ 19) 32
    ||| at_ (if ue then ce else if ce < 0xFFFF then ce + 1 else ce) 16
    ||| at_ (if ue then (if un < 0xFFFF then un + 1 else un) else un) 0

def State.noteErr (s : State) (ue : Bool) (a n : Nat) : State :=
  if isVault a then
    let p := s.badPlace ue a n
    s.updCluster (vaultCl a) fun c => { c with verr := verrRecord c.verr ue p.1 p.2 }
  else s

/-- The die whose stage manager takes the error interrupt of a place. -/
def errDie (a : Nat) : Nat := if isVault a then dieOf (vaultCl a) else if isHost a then 0 else hbmStack a / 2

/-- The INFO word of a UE entry (R333). -/
def ueInfo (s : State) (a n : Nat) : Word :=
  if isVault a then at_ 0 62 ||| at_ (s.badPlace true a n).1 56 ||| at_ (vaultAddr a) 0
  else if isHost a then at_ 2 62
  else at_ 1 62 ||| at_ (hbmStack a) 56 ||| at_ (hbmOff a) 0

/-- Fresh codes for the words of a range (R264); a write skips a bank marked failed (R263). -/
def State.clearErrs (s : State) (a n : Nat) : State :=
  { s with errs := (unitsOf 8 a n).foldl (fun e i => if s.skipped (8 * i) then e else tput .none e i .none) s.errs }

/-- The words of the check slices that a write of a range updates: all those of its stripes (R262), as stripe, check slice
and word. -/
def chkWords (a n : Nat) : List (Nat × Nat × Nat) :=
  (unitsOf 256 a n).flatMap fun i => (List.range 4).map fun j => (vaultAddr (256 * i) / 256, j / 2, j % 2)

/-- Those words are fresh (R262, R264), but in a check bank marked failed (R263). -/
def State.clearChk (s : State) (a n : Nat) : State :=
  if isVault a then
    let cl := vaultCl a
    { s with errs := (chkWords a n).foldl (fun e x =>
        if s.bankFailed cl x.1 (16 + x.2.1) then e else tput .none e (chkIdx cl x.1 x.2.1 x.2.2) .none) s.errs }
  else s

/-- What the codes of its stripe give for a byte of a vault: memory's byte for an erasure, otherwise the hidden one. -/
def State.codeByte (s : State) (k : Nat) : Byte := if s.erasedAt k then s.byte k else (tget none s.hid k).getD (s.byte k)

/-- Does a write change what the check slices of a stripe hold in word `w`? It does where the bytes of those codewords that
the banks then give differ from those that the old codes give. -/
def State.recodes (s : State) (a : Nat) (bytes : List Byte) (cl stripe w : Nat) : Bool :=
  (List.range 128).any fun i =>
    let k := vaultKey cl (256 * stripe + 16 * (i / 8) + 8 * w + i % 8)
    (if inRange a bytes.length k then bytes.getD (k - a) 0 else s.byte k) != s.codeByte k

/-- What a write of a range leaves hidden (R262, R263): in the stripes that it touches, a bank marked failed keeps what it
holds, and the code of the stripe is made from what the other banks hold. A check bank marked failed then differs from the
code where the code has changed; that another value of the data never gives the same check bytes is DEDUCED (log 50). -/
def State.hide (s : State) (a : Nat) (bytes : List Byte) : State :=
  let n := bytes.length
  if isVault a && (!s.hid.isEmpty || (s.cluster (vaultCl a)).vbfail != 0) then
    let cl := vaultCl a
    let stays (x : Nat × Option Byte) : Bool :=
      !overlaps (256 * (a / 256)) (256 * ((a + n - 1) / 256 - a / 256 + 1)) x.1 1 || s.skipped x.1
        || s.erasedAt x.1 && !overlaps a n (8 * (x.1 / 8)) 8
    let h := bytes.zipIdx.foldl (fun h (x : Byte × Nat) =>
      let k := a + x.2
      let held := (tget none s.hid k).getD (s.byte k)
      if s.skipped k then tput none h k (if held = x.1 then none else some held) else h) (s.hid.filter stays)
    { s with hid := (chkWords a n).foldl (fun h x =>
        let i := chkIdx cl x.1 x.2.1 x.2.2
        if !s.bankFailed cl x.1 (16 + x.2.1) then tput none h i none
        else if s.recodes a bytes cl x.1 x.2.2 then tput none h i (some 0) else h) h }
  else s

/-- The words that a write of a range of a vault reads: of a stripe that it covers in part, those that it does not cover
(R262). -/
def writeReads (a n : Nat) : List Nat :=
  (unitsOf 256 a n).flatMap fun i =>
    if a ≤ 256 * i && 256 * i + 256 ≤ a + n then []
    else ((List.range 32).map (32 * i + ·)).filter fun w => !(a ≤ 8 * w && 8 * w + 8 ≤ a + n)

/-- R262, R263: a write records an error that it corrects in what it reads, that of the first such word (DESIGN CHOICE,
log 50). -/
def State.noteWrite (s : State) (a n : Nat) : State :=
  if isVault a && (!s.errs.isEmpty || (s.cluster (vaultCl a)).vbfail != 0) then
    match (writeReads a n).find? fun i => s.err i == .single || s.erasedAt (8 * i) with
    | some i => s.noteErr false (8 * i) 8
    | none => s
  else s

/-- A write of memory performed at its place, with its monitors (R178). -/
def State.write (s : State) (a : Nat) (bytes : List Byte) : State :=
  (((((s.noteWrite a bytes.length).hide a bytes).poke a bytes).clearErrs a bytes.length).clearChk a bytes.length).fireMons a bytes.length

/-- Bytes written over runs of keys, in order. -/
def State.pokeRuns (s : State) : List (Nat × Nat) → List Byte → State
  | [], _ => s
  | (a, n) :: rest, b => (s.write a (b.take n)).pokeRuns rest (b.drop n)

/-- Bytes written at offset `off` of the object that a reference of a function names (R292, R362). -/
def State.refWrite (s : State) (f : Nat) (r : Word) (off : Nat) (bytes : List Byte) : State :=
  s.pokeRuns (s.refRuns f r off bytes.length) bytes

/-- R333: write an event entry into a function's ring, or count it lost (R332); none through the function's reset (R340). -/
def State.event (s : State) (f : Nat) (w0 w1 w2 : Word) : State :=
  let n := s.fn f
  let size := 16 * 2 ^ n.esz.toNat
  if s.resets f then s
  else if n.evbase = 0 || (n.evhead - n.evtail).toNat = size then
    s.updFn f fun n => { n with lost := true, lcnt := satInc n.lcnt }
  else
    match s.refKey f n.evbase with
    | none => s.updFn f fun n => { n with lost := true, lcnt := satInc n.lcnt }
    | some _ =>
      let s := s.refWrite f n.evbase (32 * (n.evhead.toNat % size)) (wordBytes w0 ++ wordBytes w1 ++ wordBytes w2 ++ wordBytes 0)
      let s := s.updFn f fun n => { n with evhead := n.evhead + 1 }
      s.msix f n.evvec.toNat

/-- R331, R385: an entry of the die's error log, in the UE layout. The ring's size is not stated, so the index is used
as it stands (DESIGN CHOICE, log 29). -/
def State.elog (s : State) (die cl take : Nat) (info : Word) : State :=
  let d := s.die die
  if d.elogbase = 0 then s
  else
    match s.refKey 31 d.elogbase with
    | none => s
    | some _ =>
      let w0 := at_ 1 56 ||| at_ (cl % 256) 40 ||| at_ (take % 2 ^ 32) 0
      (s.refWrite 31 d.elogbase (32 * d.eloghead.toNat) (wordBytes w0 ++ wordBytes info ++ wordBytes 0 ++ wordBytes 0)).updDie die
        fun d => { d with eloghead := d.eloghead + 1 }

/-- R331, R333: the event of kind UE in the ring of the function of a take whose access from a cluster met the error. -/
def State.ueEvent (s : State) (cl take : Nat) (info : Word) : State :=
  match s.take? take with
  | some t => s.event t.fn (at_ 1 56 ||| at_ (cl % 256) 40 ||| at_ (take % 2 ^ 32) 0) info 0
  | none => s

/-- R331: the detection of an uncorrectable error by an access of a take (0 for none) from a cluster: the error interrupt
of a die, its log, and the event of kind UE. -/
def State.detectUe (s : State) (die cl take : Nat) (info : Word) : State :=
  ((s.errorIrq die).elog die cl take info).ueEvent cl take info

/-- The same for an error found in memory (R265). -/
def State.uncorrectable (s : State) (a n cl take : Nat) : State :=
  (s.noteErr true a n).detectUe (errDie a) cl take (ueInfo s a n)

/-- INFO of an error on a link or in an on-chip array (R333): the unit; its other bits have no meaning there and are 0
(DESIGN CHOICE, log 37). -/
def linkInfo : Word := at_ 2 62
def chipInfo : Word := at_ 3 62

/-- A read that delivers records what it corrected (R262, R263). -/
def State.noteRead (s : State) (a n : Nat) : State := if s.readCorrects a n then s.noteErr false a n else s

/-- A read of memory: the bytes, or none for an abort completion (R265). -/
def State.read (s : State) (a n cl take : Nat) : State × Option (List Byte) :=
  if s.readBad a n then (s.uncorrectable a n cl take, none) else (s.noteRead a n, some (s.peek a n))

/-- A read of runs of memory: all of their bytes, or none for an abort completion. -/
def State.readRuns (s : State) (l : List (Nat × Nat)) (cl take : Nat) : State × Option (List Byte) :=
  match l.find? fun x => s.readBad x.1 x.2 with
  | some x => (s.uncorrectable x.1 x.2 cl take, none)
  | none => (l.foldl (fun s x => s.noteRead x.1 x.2) s, some (l.flatMap fun x => s.peek x.1 x.2))

/-- The bytes of an object that a reference names, as memory holds them. -/
def State.refPeek (s : State) (f : Nat) (r : Word) (off n : Nat) : List Byte :=
  (s.refRuns f r off n).flatMap fun x => s.peek x.1 x.2

/-- A read of an object that a reference names: its bytes, or none for an abort completion. -/
def State.refRead (s : State) (f : Nat) (r : Word) (off n cl take : Nat) : State × Option (List Byte) :=
  s.readRuns (s.refRuns f r off n) cl take

/-! ### Reads of the stage manager (R265, R295, R307, R320, R322) -/

/-- A range of keys cut at the borders of its stripes or words. -/
def piecesOf (a n : Nat) : List (Nat × Nat) :=
  let u := if isVault a then 256 else 8
  if isHost a then [(a, n)] else (unitsOf u a n).map fun i => (max a (u * i), min (a + n) (u * i + u) - max a (u * i))

/-- `n` bytes of free values. -/
def State.freeBytes (s : State) (n : Nat) : State × List Byte :=
  ({ s with fresh := s.fresh + (n + 7) / 8 },
   ((List.range ((n + 7) / 8)).flatMap fun i => wordBytes (Config.freeWord (s.fresh + i))).take n)

/-- The bytes that the stage manager reads from pieces of memory. What is uncorrectable raises the error interrupt and is
withheld (R265); what is written for it the spec does not state, and it is free (DESIGN CHOICE, log 40). -/
def State.copyOut (s : State) (cl take : Nat) : List (Nat × Nat) → State × List Byte
  | [] => (s, [])
  | x :: rest =>
    let r := if s.readBad x.1 x.2 then (s.uncorrectable x.1 x.2 cl take).freeBytes x.2
      else (s.noteRead x.1 x.2, s.peek x.1 x.2)
    let q := r.1.copyOut cl take rest
    (q.1, r.2 ++ q.2)

/-- The same for reads whose bytes the stage manager uses and does not copy: the machine after them, and `v` with what they
give, where data that is withheld is free. -/
def State.seen (s : State) (cl take : Nat) (v : State) : List (Nat × Nat) → State × State
  | [] => (s, v)
  | x :: rest =>
    if s.readBad x.1 x.2 then
      let r := (s.uncorrectable x.1 x.2 cl take).freeBytes x.2
      r.1.seen cl take (v.poke x.1 r.2) rest
    else (s.noteRead x.1 x.2).seen cl take v rest

/-! ### Writes -/

/-- A write, or none with the state kept for an abort completion (R264). -/
def State.tryWrite (s : State) (a : Nat) (bytes : List Byte) : Option State :=
  if s.writeBad a bytes.length then none else some (s.write a bytes)

/-- Firmware's own writes of 64-bit words (R296, R306, R338). -/
def State.writeWords (s : State) (a : Nat) (ws : List Word) : State := s.write a (ws.flatMap wordBytes)
def State.readWord (s : State) (a : Nat) : Word := BitVec.ofNat 64 (ofBytes (s.peek a 8))
def State.readWords (s : State) (a : Nat) : Nat → List Word
  | 0 => []
  | n + 1 => s.readWord a :: s.readWords (a + 8) n

/-! ### Freeze requests, traps and their return (R165, R193, R319, R325 to R330) -/

/-- Trap and fault numbers (R325). -/
def codeIllegalInstr : Nat := 1
def codeSysregAccess : Nat := 2
def codeBadTarget : Nat := 3
def codeIfetchInvalid : Nat := 4
def codeHandleKind : Nat := 5
def codeTensorRange : Nat := 6
def codeMisaligned : Nat := 7
def codeBoundTrap : Nat := 8
def codeDataAbort : Nat := 9
def codeAmoUnsupported : Nat := 10
def codeMonResidence : Nat := 11
def codePortBusy : Nat := 12
def codePatternAbsent : Nat := 13
def codeSceneMismatch : Nat := 14
def codeRegionAbsent : Nat := 15
def codeSpliceLast : Nat := 16
def codeOvlAbsent : Nat := 17
def codeOvlAbort : Nat := 18
def codeAccForeign : Nat := 19
def codeSoftTrap : Nat := 20
def codeBreak : Nat := 21
def codeCpStageLimit : Nat := 22
def codeZoneState : Nat := 23
def codeZonePlace : Nat := 24
def codePortBound : Nat := 25
def codeMxNoengine : Nat := 26
def codeMxFormat : Nat := 27
def codeMxConfig : Nat := 28
def codeMxNoplane : Nat := 29
def codeMxPairing : Nat := 30
def codeMxNoscale : Nat := 31
def codeMxRange : Nat := 32
def codeMxUnderrun : Nat := 33
def codeIllegalMeta : Nat := 34
def codeMxAbort : Nat := 35
def codeMxBound : Nat := 36
def codePortUnbound : Nat := 37
def codeHdrMalformed : Nat := 38
def codeChainOverrun : Nat := 39
def codeSchedHazard : Nat := 40
def codeDoubleTrap : Nat := 41
def codeOutOfLease : Nat := 48
def codeReplayLost : Nat := 50
def codeDataLost : Nat := 51
def codeFeatureAbsent : Nat := 52

/-- Ask a running take to freeze, or give the freeze under way one more reason. -/
def State.askFreeze (s : State) (take : Nat) (w : Why) : State :=
  s.updTake take fun t => if t.st = .running || t.st = .frozen then { t with why := t.why ++ [w] } else t

/-- What the trap table does with a trap (R327): 1 CUE, 2 STOP, 3 ABORT. -/
def Take.act (t : Take) (code : Nat) : Nat :=
  let dflt := if t.hdr.debug then 2 else 3
  if code = codeBreak || code = codeDoubleTrap then dflt
  else
    match (t.traps[code]?.getD 0).toNat with
    | 0 => if code = codeSoftTrap then 1 else dflt
    | n => n

/-- Is a take being ended by a trap or a fault already? Its fault record names that one (R338). -/
def Take.dying (t : Take) : Bool := t.xabort || t.why.contains (.abort 2)
/-- Is a take being stopped by a trap (R329)? Where an abort comes before it is, the record names what ends the take. -/
def Take.stopping (t : Take) : Bool :=
  t.why.any fun w => match w with
    | .stop _ _ _ _ _ _ _ => true
    | _ => false

/-- escalate (R165, R327, R329, R330): the take is stopped or aborted, and its fault record names the trap (R338). -/
def State.escalate (s : State) (take cl k code : Nat) (epc : BitVec 16) (info info2 : Word) (act : Nat) : State :=
  let s := s.updTake take fun t =>
    { t with
      fr := { (if t.dying || (act = 2 && t.stopping) then t.fr else { t.fr with
          fcode := BitVec.ofNat 8 code, tcode := BitVec.ofNat 8 code, tcl := BitVec.ofNat 8 cl, tk := BitVec.ofNat 2 k
          tepc := epc, tinfo := info, tinfo2 := info2 }) with
        -- the first escalated CHAIN-OVERRUN (R156)
        odet0 := if code = codeChainOverrun && t.fr.odet0 = 0 && t.fr.odet1 = 0 then info else t.fr.odet0
        odet1 := if code = codeChainOverrun && t.fr.odet0 = 0 && t.fr.odet1 = 0 then info2 else t.fr.odet1 }
      trapped := if codePortUnbound ≤ code && code ≤ codeSchedHazard then t.trapped ++ [(cl, bits info 59 54)] else t.trapped }
  s.askFreeze take (if act = 2 then .stop code cl k epc info info2 (code == codeDoubleTrap) else .abort 2)

/-- takeTrap (R165): taking a trap in a cue context. EINFO2 is written with EINFO (R326). -/
def State.takeTrap (s : State) (cl k code : Nat) (info info2 : Word) (epc : BitVec 16) : State :=
  let c := s.ctx cl k
  match s.take? c.take with
  | none => s
  | some t =>
    if c.kstate = .trap || c.handler then
      s.escalate t.id cl k codeDoubleTrap epc info info2 (t.act codeDoubleTrap)
    else if t.act code = 1 then
      s.updCtx cl k fun c => { c with
        epc := epc.setWidth 64, ecause := BitVec.ofNat 64 code, einfo := info, einfo2 := info2
        kstate := .trap, pc := c.tvec.setWidth 16, wait := none, stall := none }
    else
      -- SOFT-TRAP and BREAK continue at EPC when the take is resumed (R329)
      let s := if code = codeSoftTrap || code = codeBreak then s.updCtx cl k fun c => { c with pc := epc } else s
      s.escalate t.id cl k code epc info info2 (t.act code)

/-- A trap of the instruction that the current context executes: precise, EPC is its address (R165). -/
def State.trap (s : State) (code : Nat) (info : Word) : State := s.takeTrap s.curCl s.curK code info 0 s.me.pc

/-- ERET (R193): back to EPC, in RUN. -/
def CueCtx.eret (c : CueCtx) : CueCtx :=
  { c with pc := (c.epc.setWidth 16) &&& 0xFFFC, kstate := .run }

/-- A trap from the fabric or the engines (R165, R328): held for the take's context on the cluster; when that context
is EXITED or the take holds none there, it is escalated (R327). -/
def State.fabricTrap (s : State) (cl take : Nat) (p : Pend) : State :=
  match s.take? take with
  | none => s
  | some t =>
    match s.ctxOf cl take with
    | some k =>
      if (s.ctx cl k).kstate = .exited then
        s.escalate take cl k p.code (s.ctx cl k).pc p.info p.info2
          (if t.act p.code = 1 then (if t.hdr.debug then 2 else 3) else t.act p.code)
      else s.updCtx cl k fun c => { c with pend := c.pend ++ [p] }
    | none =>
      s.escalate take cl 0 p.code 0 p.info p.info2
        (if t.act p.code = 1 then (if t.hdr.debug then 2 else 3) else t.act p.code)

/-- The order of requesters that fault in one cycle (R319): cluster, source, unit. -/
def leaseKey (w : Word) : Nat := bits w 55 48 * 2 ^ 11 + bits w 63 61 * 2 ^ 8 + bits w 47 40

/-- OUT-OF-LEASE (R319): not a trap. The take's fault record receives the detail of the lowest requester that faults in the
cycle, and the others are counted; the accesses of that one cycle are not later ones, and the next cycle ends the take. -/
def State.outOfLease (s : State) (take src cause cl unit tid off : Nat) : State :=
  let w := at_ src 61 ||| at_ cause 59 ||| at_ cl 48 ||| at_ unit 40 ||| at_ tid 0
  match s.take? take with
  | none => s
  | some t =>
    if !t.xabort then
      s.updTake take fun t => { t with
        xabort := true, xcycle := s.cycle
        fr := { t.fr with
          fcode := if t.dying then t.fr.fcode else BitVec.ofNat 8 codeOutOfLease, ldet0 := w, ldet1 := BitVec.ofNat 64 off } }
    else if t.xcycle = s.cycle then
      s.updTake take fun t => { t with fr := { t.fr with
        nlease := satInc t.fr.nlease
        ldet0 := if leaseKey w < leaseKey t.fr.ldet0 then w else t.fr.ldet0
        ldet1 := if leaseKey w < leaseKey t.fr.ldet0 then BitVec.ofNat 64 off else t.fr.ldet1 } }
    else s

end Sys2Proof.Machine
end

