-- ==== Sys2Proof/Machine/Flags.lean ====
section
/-! DEFINITION. Conditions and bit counts (R123, R125, R166, R168), and the sticky status of the cue contexts (R26 FSTAT). -/

namespace Sys2Proof.Machine

/-- Trailing zeros of the low `w` bits; `w` when they are all 0. -/
def ctzN : Nat → Nat → Nat
  | 0, _ => 0
  | w + 1, v => if v % 2 = 1 then 0 else 1 + ctzN w (v / 2)
/-- Leading zeros within `w` bits; `w` when they are all 0. -/
def clzN : Nat → Nat → Nat
  | 0, _ => 0
  | w + 1, v => if v / 2 ^ w % 2 = 1 then 0 else 1 + clzN w v
/-- Ones among the low `w` bits. -/
def popN : Nat → Nat → Nat
  | 0, _ => 0
  | w + 1, v => v % 2 + popN w (v / 2)
/-- The low `w` bits reversed. -/
def brevN : Nat → Nat → Nat
  | 0, _ => 0
  | w + 1, v => v % 2 * 2 ^ w + brevN w (v / 2)

/-- The conditions of PCMP on two words (R168). -/
def PCond.holds (c : PCond) (a b : Word) : Bool :=
  match c with
  | .eq => a == b
  | .ne => a != b
  | .lt => a.slt b
  | .ge => !a.slt b
  | .ltu => a.ult b
  | .geu => !a.ult b

/-- The conditions of PCMPI (R168). -/
def PICond.holds (c : PICond) (a b : Word) : Bool :=
  match c with
  | .eq => a == b
  | .ne => a != b
  | .lt => a.slt b
  | .ge => !a.slt b

/-- The functions of PLOG (R168). -/
def PlogOp.result (op : PlogOp) (a b : Bool) : Bool :=
  match op with
  | .and => a && b
  | .or => a || b
  | .xor => a != b
  | .andn => a && !b
  | .not => !a
  | .mov => a
  | .set => true
  | .clr => false

/-- 1 for true, 0 for false, as a word. -/
def boolWord (b : Bool) : Word := if b then 1 else 0

/-- FSTAT bits (R26): 0 INTSAT, 1 INVALID, 2 ATOMNAN. -/
def CueCtx.setFstat (c : CueCtx) (i : Nat) : CueCtx := { c with fstat := setBit c.fstat i true }
def State.setFstat (s : State) (cl k i : Nat) (on : Bool) : State :=
  if on then s.updCtx cl k fun c => c.setFstat i else s

end Sys2Proof.Machine
end

