-- ==== Sys2Proof/Machine/Numfmt.lean ====
section
/-! DEFINITION. Number formats (R50, R80 to R99): decoding to exact values, exact arithmetic, and encoding under a
rounding mode with the events it raises. -/

namespace Sys2Proof.Machine

/-- A format (R50, R81 to R91): integer, IEEE (width, exponent bits, fraction bits), OCP MX narrow, LG6, tapered. -/
inductive Fmt
  | int (signed : Bool) (w : Nat)
  | ieee (w eb fb : Nat)
  | mx (w eb fb maxCode : Nat)
  | lg6
  | tap (n es : Nat)
  deriving DecidableEq, Repr

def f16 : Fmt := .ieee 16 5 10
def bf16 : Fmt := .ieee 16 8 7
def f32 : Fmt := .ieee 32 8 23
def f64 : Fmt := .ieee 64 11 52
def e4m3 : Fmt := .mx 8 4 3 0x7E
def e5m2 : Fmt := .mx 8 5 2 0x7B
def e3m2 : Fmt := .mx 6 3 2 0x1F
def e2m3 : Fmt := .mx 6 2 3 0x1F
def e2m1 : Fmt := .mx 4 2 1 0x7
def t8 : Fmt := .tap 8 1
def t16 : Fmt := .tap 16 1
def t32 : Fmt := .tap 32 2

/-- The format of an FMT code and, for NARROW, a subtype (R50). A reserved subtype reads as LG6. -/
def fmtOf (code : BitVec 4) (sub : BitVec 3) : Fmt :=
  match code.toNat with
  | 0 => .int true 8 | 1 => .int true 16 | 2 => .int true 32 | 3 => .int true 64
  | 4 => .int false 8 | 5 => .int false 16 | 6 => .int false 32 | 7 => .int false 64
  | 8 => f16 | 9 => bf16 | 10 => f32 | 11 => f64
  | 12 => t8 | 13 => t16 | 14 => t32
  | _ =>
    match sub.toNat with
    | 0 => e4m3 | 1 => e5m2 | 2 => e3m2 | 3 => e2m3 | 4 => e2m1 | _ => .lg6

def Fmt.width : Fmt → Nat
  | .int _ w => w
  | .ieee w _ _ => w
  | .mx w _ _ _ => w
  | .lg6 => 6
  | .tap n _ => n

/-- Elements per 64-bit token (R102). -/
def Fmt.perToken (f : Fmt) : Nat := if f.width = 6 then 10 else 64 / f.width
/-- Has the format a whole-byte size (R270)? -/
def Fmt.whole (f : Fmt) : Bool := f.width % 8 == 0
def Fmt.isInt : Fmt → Bool
  | .int _ _ => true
  | _ => false
def Fmt.isTap : Fmt → Bool
  | .tap _ _ => true
  | _ => false
def Fmt.isIeee : Fmt → Bool
  | .ieee _ _ _ => true
  | _ => false

/-! ### Values -/

/-- A value: NaN (signalling or quiet, with its sign), NaR, an infinity, or sign and magnitude m × 2^e; `st` says that
the magnitude is larger by less than 2^e (a result known to more digits than m holds). -/
inductive Val
  | nan (signalling neg : Bool)
  | nar
  | inf (neg : Bool)
  | fin (neg : Bool) (m : Nat) (e : Int) (st : Bool)
  deriving DecidableEq, Repr

def Val.zero : Val := .fin false 0 0 false
def Val.isNan : Val → Bool
  | .nan _ _ | .nar => true
  | _ => false
def Val.isSnan : Val → Bool
  | .nan s _ => s
  | _ => false
def Val.isZero : Val → Bool
  | .fin _ m _ st => m == 0 && !st
  | _ => false
def Val.isInf : Val → Bool
  | .inf _ => true
  | _ => false
def Val.neg? : Val → Bool
  | .nan _ n => n
  | .nar => false
  | .inf n => n
  | .fin n _ _ _ => n
def Val.ofInt (i : Int) : Val := .fin (i < 0) i.natAbs 0 false

/-- m × 2^k as a natural number, for k a difference of exponents that is not negative. -/
def shl (m : Nat) (k : Int) : Nat := m * 2 ^ k.toNat

/-! ### Decoding (R81, R82, R84, R86, R90) -/

/-- A binary floating code without its special codes: sign, exponent, fraction. -/
def decodeBin (w eb fb : Nat) (x : Nat) : Val :=
  let neg := x / 2 ^ (w - 1) % 2 == 1
  let ex := x / 2 ^ fb % 2 ^ eb
  let fr := x % 2 ^ fb
  let bias : Int := 2 ^ (eb - 1) - 1
  if ex = 0 then .fin neg fr (1 - bias - fb) false else .fin neg (fr + 2 ^ fb) (ex - bias - fb) false

/-- R88: the fraction table of LG6. -/
def lgFrac (j : Nat) : Nat :=
  match j with
  | 0 => 0x0000 | 1 => 0x3070 | 2 => 0x6A0A | _ => 0xAE8A

/-- R86: the decoded value of log code `L` (not 0): magnitude and exponent. -/
def lgMag (L : Nat) : Nat × Int :=
  let q : Int := L - 16
  let j := (q % 4).toNat
  (65536 + lgFrac j, (q - j) / 4 - 16)

/-- The run of bits equal to bit `i`, from bit `i` downward. -/
def runLen (x : Nat) (r : Nat) : Nat → Nat
  | 0 => if x % 2 = r then 1 else 0
  | i + 1 => if x / 2 ^ (i + 1) % 2 = r then 1 + runLen x r i else 0

/-- R90: the regime run length m of a tapered code; 0 for zero and NaR (R134 gives them none). -/
def tapRun (n x : Nat) : Nat :=
  if x % 2 ^ n = 0 || x % 2 ^ n = 2 ^ (n - 1) then 0
  else
    let y := if x / 2 ^ (n - 1) % 2 = 1 then (2 ^ n - x % 2 ^ n) % 2 ^ n else x % 2 ^ n
    runLen y (y / 2 ^ (n - 2) % 2) (n - 2)

/-- R90: a positive tapered pattern. -/
def tapMag (n es x : Nat) : Nat × Int :=
  let r := x / 2 ^ (n - 2) % 2
  let m := runLen x r (n - 2)
  let k : Int := if r = 1 then (m : Int) - 1 else - (m : Int)
  let nr := n - 2 - m                       -- bits below the terminating bit (0 when the run reaches bit 0)
  let rest := x % 2 ^ nr
  let ne := if nr < es then nr else es
  let e := rest / 2 ^ (nr - ne) * 2 ^ (es - ne)
  let nf := nr - ne
  (2 ^ nf + rest % 2 ^ nf, k * 2 ^ es + e - nf)

def decodeTap (n es x : Nat) : Val :=
  let y := x % 2 ^ n
  if y = 0 then .zero
  else if y = 2 ^ (n - 1) then .nar
  else
    let neg := y / 2 ^ (n - 1) == 1
    let p := tapMag n es (if neg then 2 ^ n - y else y)
    .fin neg p.1 p.2 false

/-- The value of a code of a format. -/
def decodeVal (f : Fmt) (x : Nat) : Val :=
  match f with
  | .int true w =>
    let v := x % 2 ^ w
    if v < 2 ^ (w - 1) then .fin false v 0 false else .fin true (2 ^ w - v) 0 false
  | .int false w => .fin false (x % 2 ^ w) 0 false
  | .ieee w eb fb =>
    let ex := x / 2 ^ fb % 2 ^ eb
    let neg := x / 2 ^ (w - 1) % 2 == 1
    if ex = 2 ^ eb - 1 then
      if x % 2 ^ fb = 0 then .inf neg else .nan (x / 2 ^ (fb - 1) % 2 == 0) neg
    else decodeBin w eb fb x
  | .mx w eb fb mc =>
    let neg := x / 2 ^ (w - 1) % 2 == 1
    let y := x % 2 ^ (w - 1)
    if w = 8 && eb = 4 && y = 0x7F then .nan false neg
    else if w = 8 && eb = 5 && y = mc + 1 then .inf neg
    else if w = 8 && eb = 5 && mc + 1 < y then .nan false neg
    else decodeBin w eb fb x
  | .lg6 =>
    let L := x % 32
    if L = 0 then .zero else .fin (x / 32 % 2 == 1) (lgMag L).1 (lgMag L).2 false
  | .tap n es => decodeTap n es x

/-! ### Exact arithmetic -/

/-- Signed integer of a finite value in units of 2^e, for e at most its exponent. -/
def Val.scaled (neg : Bool) (m : Nat) (e e0 : Int) : Int := if neg then - (shl m (e - e0) : Int) else shl m (e - e0)

/-- The exact sum of two finite values; `rdn` gives an exact zero of mixed signs the sign of RDN (IEEE 754). -/
def addFin (n1 : Bool) (m1 : Nat) (e1 : Int) (n2 : Bool) (m2 : Nat) (e2 : Int) (rdn : Bool) : Val :=
  if m1 = 0 && m2 = 0 then .fin (if n1 == n2 then n1 else rdn) 0 0 false
  else if m1 = 0 then .fin n2 m2 e2 false
  else if m2 = 0 then .fin n1 m1 e1 false
  else
    let e := if e1 < e2 then e1 else e2
    let t := Val.scaled n1 m1 e1 e + Val.scaled n2 m2 e2 e
    if t = 0 then .fin rdn 0 0 false else .fin (t < 0) t.natAbs e false

/-- a + b on exact values: NaR and NaN first, then infinities; ∞ − ∞ is a NaN. -/
def addVal (a b : Val) (rdn : Bool) : Val :=
  match a, b with
  | .nar, _ | _, .nar => .nar
  | .nan _ _, _ | _, .nan _ _ => .nan false false
  | .inf x, .inf y => if x == y then .inf x else .nan false false
  | .inf x, _ => .inf x
  | _, .inf y => .inf y
  | .fin n1 m1 e1 _, .fin n2 m2 e2 _ => addFin n1 m1 e1 n2 m2 e2 rdn

def negVal : Val → Val
  | .nan s n => .nan s n
  | .nar => .nar
  | .inf n => .inf (!n)
  | .fin n m e st => .fin (!n) m e st

/-- a × b on exact values; 0 × ∞ is a NaN. -/
def mulVal (a b : Val) : Val :=
  match a, b with
  | .nar, _ | _, .nar => .nar
  | .nan _ _, _ | _, .nan _ _ => .nan false false
  | .inf x, .inf y => .inf (x != y)
  | .inf x, .fin y m _ _ => if m = 0 then .nan false false else .inf (x != y)
  | .fin y m _ _, .inf x => if m = 0 then .nan false false else .inf (x != y)
  | .fin n1 m1 e1 _, .fin n2 m2 e2 _ => .fin (n1 != n2) (m1 * m2) (e1 + e2) false

/-- a ÷ b on finite values, b not zero, to more than 128 digits and whether digits are left. -/
def divFin (n1 : Bool) (m1 : Nat) (e1 : Int) (n2 : Bool) (m2 : Nat) (e2 : Int) : Val :=
  let sh := 130 + m2.log2
  let n := m1 * 2 ^ sh
  .fin (n1 != n2) (n / m2) (e1 - e2 - sh) (n % m2 != 0)

/-- The integer square root by digits: the largest r with r² ≤ n, tried from bit `b` down. -/
def isqrtFrom (n : Nat) : Nat → Nat → Nat
  | 0, r => r
  | b + 1, r => if (r + 2 ^ b) * (r + 2 ^ b) ≤ n then isqrtFrom n b (r + 2 ^ b) else isqrtFrom n b r
def isqrt (n : Nat) : Nat := isqrtFrom n (n.log2 / 2 + 1) 0

/-- The square root of a positive finite magnitude, to more than 128 digits. -/
def sqrtFin (m : Nat) (e : Int) : Val :=
  let sh : Nat := 260 + (if (e % 2 = 0) then 0 else 1)
  let n := m * 2 ^ sh
  let r := isqrt n
  .fin false r ((e - sh) / 2) (r * r != n)

/-- The order of two finite values. -/
def ltFin (n1 : Bool) (m1 : Nat) (e1 : Int) (n2 : Bool) (m2 : Nat) (e2 : Int) : Bool :=
  let e := if e1 < e2 then e1 else e2
  Val.scaled n1 m1 e1 e < Val.scaled n2 m2 e2 e
/-- a < b for values that are no NaN (−0 equals +0). -/
def ltVal (a b : Val) : Bool :=
  match a, b with
  | .inf true, .inf true => false
  | .inf true, _ => true
  | _, .inf true => false
  | .inf false, _ => false
  | _, .inf false => true
  | .fin n1 m1 e1 _, .fin n2 m2 e2 _ => ltFin n1 m1 e1 n2 m2 e2
  | _, _ => false

/-! ### Rounding (R97, R98) -/

/-- A rounding mode; SR carries its 32 random bits. -/
inductive Rm | rne | rtz | rup | rdn | sr (r : Nat)
  deriving DecidableEq, Repr

def Rm.ofNat (n : Nat) : Rm :=
  match n with
  | 0 => .rne | 1 => .rtz | 2 => .rup | _ => .rdn

/-- Round a magnitude (m + [st]) ÷ 2^sh to an integer. -/
def roundMag (rm : Rm) (neg : Bool) (m sh : Nat) (st : Bool) : Nat :=
  let q := m / 2 ^ sh
  let r := m % 2 ^ sh
  if r = 0 && !st then q
  else
    let up : Bool :=
      match rm with
      | .rne => if sh = 0 then false else
          (2 ^ sh < 2 * r) || (2 * r == 2 ^ sh && (st || q % 2 == 1))
      | .rtz => false
      | .rup => !neg
      | .rdn => neg
      | .sr x => 2 ^ 32 ≤ r * 2 ^ 32 / 2 ^ sh + x % 2 ^ 32
    if up then q + 1 else q

/-- Round m × 2^e to a multiple of 2^q, in units of 2^q. -/
def roundAt (rm : Rm) (neg : Bool) (m : Nat) (e q : Int) (st : Bool) : Nat :=
  if q ≤ e then roundMag rm neg (shl m (e - q)) 0 st else roundMag rm neg m (q - e).toNat st

/-! ### Encoding -/

/-- A code with the events of R100 that its encoding raises. -/
structure Enc where
  code : Nat
  sat : Bool := false
  clamp : Bool := false
  inv : Bool := false
  deriving DecidableEq, Repr

/-- The binary floating code of a nonzero magnitude with the exponent range unbounded above: the fields of exponent
and fraction as one number. -/
def binCode (eb fb : Nat) (rm : Rm) (neg : Bool) (m : Nat) (e : Int) (st : Bool) : Nat :=
  let bias : Int := 2 ^ (eb - 1) - 1
  let emin : Int := 1 - bias
  let E : Int := (m.log2 : Int) + e
  let q : Int := (if m = 0 || E < emin then emin else E) - fb
  (q - (emin - fb)).toNat * 2 ^ fb + roundAt rm neg m e q st

/-- IEEE 754 (R82, R83, R98): overflow by the mode, or the largest finite value and SAT with the S modifier or SR. -/
def encodeIeee (w eb fb : Nat) (rm : Rm) (smod : Bool) (v : Val) : Enc :=
  let infc := (2 ^ eb - 1) * 2 ^ fb
  let sgn (n : Bool) : Nat := if n then 2 ^ (w - 1) else 0
  match v with
  | .nan _ _ | .nar => { code := infc + 2 ^ (fb - 1) }
  | .inf n => { code := sgn n + infc }
  | .fin n m e st =>
    if m = 0 && !st then { code := sgn n }
    else
      let c := binCode eb fb rm n m e st
      if c < infc then { code := sgn n + c }
      else
        match rm with
        | .sr _ => { code := sgn n + (infc - 1), sat := true }
        | _ =>
          let toInf : Bool := match rm with | .rne => true | .rtz => false | .rup => !n | .rdn => n | .sr _ => false
          if toInf then
            if smod then { code := sgn n + (infc - 1), sat := true } else { code := sgn n + infc }
          else { code := sgn n + (infc - 1) }

/-- The narrow E formats (R84, R95): the largest finite value with SAT above range. -/
def encodeMx (w eb fb mc : Nat) (rm : Rm) (v : Val) : Enc :=
  let sgn (n : Bool) : Nat := if n then 2 ^ (w - 1) else 0
  match v with
  | .nan _ _ | .nar =>
    if w = 8 && eb = 4 then { code := 0x7F } else if w = 8 then { code := 0x7E } else { code := mc, inv := true }
  | .inf n =>
    if w = 8 && eb = 4 then { code := sgn n + 0x7F }
    else if w = 8 then { code := sgn n + mc + 1 }
    else { code := sgn n + mc, sat := true }
  | .fin n m e st =>
    if m = 0 && !st then { code := sgn n }
    else
      let c := binCode eb fb rm n m e st
      if mc < c then { code := sgn n + mc, sat := true } else { code := sgn n + c }

/-- Integers (R81, R95). -/
def encodeInt (signed : Bool) (w : Nat) (rm : Rm) (v : Val) : Enc :=
  let top := if signed then 2 ^ (w - 1) - 1 else 2 ^ w - 1
  let low := if signed then 2 ^ (w - 1) else 0     -- the code of the most negative value
  match v with
  | .nan _ _ | .nar => { code := low, inv := true }
  | .inf n => { code := if n then low else top, sat := true }
  | .fin n m e st =>
    if m = 0 && !st then { code := 0 }
    else
      let g := roundAt rm n m e 0 st
      if n then
        if signed then
          if 2 ^ (w - 1) < g then { code := low, sat := true } else { code := (2 ^ w - g) % 2 ^ w }
        else { code := 0, sat := true }
      else if top < g then { code := top, sat := true } else { code := g }

/-- 2^(j/4) × 2^256, rounded down (R86). -/
def lgRoot (j : Nat) : Nat :=
  match j with
  | 0 => 115792089237316195423570985008687907853269984665640564039457584007913129639936
  | 1 => 137700776382046421102614501729416801735363308636553702263551777766226934068959
  | 2 => 163754743014928255235102403085959256615014864942486474123643707201513509564970
  | _ => 194738305508794819921170457563529585880437651416238825829300834394740511147315
/-- The nominal magnitude of log code `L` in units of 2^−260 (L from 1 up), rounded down; 0 for code 0. -/
def lgNom (L : Nat) : Nat := if L = 0 then 0 else lgRoot (L % 4) * 2 ^ (L / 4)
/-- The largest log code below 40 whose nominal magnitude is at most `x` (units of 2^−260); from 39 down. -/
def lgFloor (x : Nat) : Nat → Nat
  | 0 => 0
  | L + 1 => if lgNom (L + 1) ≤ x then L + 1 else lgFloor x L

/-- R87, R86, R95, R98: LG6. A value that some code decodes to encodes to that code. -/
def encodeLg6 (rm : Rm) (v : Val) : Enc :=
  match v with
  | .nan _ _ | .nar => { code := 31, inv := true }
  | .inf n => { code := (if n then 32 else 0) + 31, sat := true }
  | .fin n m e st =>
    if m = 0 && !st then { code := 0 }
    else
      match (List.range 31).find? fun i => !st && (let p := lgMag (i + 1)
          let e0 := if e < p.2 then e else p.2
          shl m (e - e0) == shl p.1 (p.2 - e0)) with
      | some i => { code := (if n then 32 else 0) + (i + 1) }
      | none =>
        -- the value in units of 2^−260; nominal magnitudes are irrational, so digits below are not needed
        let x := if -260 ≤ e then shl m (e + 260) else m / 2 ^ (-260 - e).toNat
        let lo := lgFloor x 39
        let L :=
          match rm with
          | .rne => if lgNom lo + lgNom (lo + 1) < 2 * x then lo + 1 else lo
          | .rtz => lo
          | .rup => if n then lo else lo + 1
          | .rdn => if n then lo + 1 else lo
          | .sr r => if 2 ^ 32 ≤ (x - lgNom lo) * 2 ^ 32 / (lgNom (lo + 1) - lgNom lo) + r % 2 ^ 32 then lo + 1 else lo
        if L = 0 then { code := 0 }
        else if 32 ≤ L then { code := (if n then 32 else 0) + 31, sat := true }
        else { code := (if n then 32 else 0) + L }

/-- R91: the exact pattern of a positive magnitude, as a number and its count of digits after the sign. -/
def tapPattern (es m : Nat) (e : Int) : Nat × Nat :=
  let bl := m.log2
  let E : Int := (bl : Int) + e
  let k : Int := E / (2 ^ es : Nat)
  let ee := (E % (2 ^ es : Nat)).toNat
  let rl := if 0 ≤ k then k.toNat + 2 else (-k).toNat + 1
  let reg := if 0 ≤ k then 2 ^ rl - 2 else 1
  ((reg * 2 ^ es + ee) * 2 ^ bl + (m - 2 ^ bl), rl + es + bl)

/-- Is m × 2^e (+ [st]) above, or below, n × 2^f? -/
def magGt (m : Nat) (e : Int) (st : Bool) (m2 : Nat) (e2 : Int) : Bool :=
  let e0 := if e < e2 then e else e2
  shl m2 (e2 - e0) < shl m (e - e0) || (st && shl m2 (e2 - e0) == shl m (e - e0))
def magLt (m : Nat) (e : Int) (m2 : Nat) (e2 : Int) : Bool :=
  let e0 := if e < e2 then e else e2
  shl m (e - e0) < shl m2 (e2 - e0)

/-- R91, R95, R98: the tapered formats. A nonzero magnitude below minpos or above maxpos clamps. -/
def encodeTap (n es : Nat) (rm : Rm) (v : Val) : Enc :=
  match v with
  | .nan _ _ | .nar | .inf _ => { code := 2 ^ (n - 1) }
  | .fin neg m e st =>
    if m = 0 && !st then { code := 0 }
    else
      let sg (c : Nat) : Nat := if neg then 2 ^ n - c else c
      let top : Int := ((n : Int) - 2) * (2 ^ es : Nat)
      if magGt m e st 1 top then { code := sg (2 ^ (n - 1) - 1), clamp := true }
      else if m = 0 || magLt m e 1 (-top) then { code := sg 1, clamp := true }
      else
        let p := tapPattern es m e
        let c :=
          if p.2 ≤ n - 1 then roundMag rm neg (p.1 * 2 ^ (n - 1 - p.2)) 0 st
          else
            match rm with
            | .sr r =>
              -- neighbours in pattern order, the fraction in value (R98)
              let lo := p.1 / 2 ^ (p.2 - (n - 1))
              if p.1 % 2 ^ (p.2 - (n - 1)) = 0 then lo
              else
                let a := tapMag n es lo
                let b := tapMag n es (lo + 1)
                let e0 := if e < a.2 then (if e < b.2 then e else b.2) else (if a.2 < b.2 then a.2 else b.2)
                let xa := shl a.1 (a.2 - e0)
                let g := (shl m (e - e0) - xa) * 2 ^ 32 / (shl b.1 (b.2 - e0) - xa)
                if 2 ^ 32 ≤ g + r % 2 ^ 32 then lo + 1 else lo
            | _ => roundMag rm neg p.1 (p.2 - (n - 1)) st
        { code := sg c }

/-- Encode a value into a format (R95). `smod` is the S modifier of R83. -/
def encodeVal (f : Fmt) (rm : Rm) (smod : Bool) (v : Val) : Enc :=
  match f with
  | .int sg w => encodeInt sg w rm v
  | .ieee w eb fb => encodeIeee w eb fb rm smod v
  | .mx w eb fb mc => encodeMx w eb fb mc rm v
  | .lg6 => encodeLg6 rm v
  | .tap n es => encodeTap n es rm v

/-- R80: a code as a result word: copies of the top bit above for the I formats, 0 for the others. -/
def widen (f : Fmt) (c : Nat) : Word :=
  match f with
  | .int true w => if c / 2 ^ (w - 1) % 2 = 1 then BitVec.ofInt 64 ((c % 2 ^ w : Nat) - (2 ^ w : Nat)) else BitVec.ofNat 64 (c % 2 ^ w)
  | _ => BitVec.ofNat 64 (c % 2 ^ f.width)

/-- The code of a source word: its low w bits (R80). -/
def narrow (f : Fmt) (w : Word) : Nat := w.toNat % 2 ^ f.width

/-! ### IEEE additions and comparisons used by memories and engines -/

/-- Does an addition of these operands set INVALID (R83): a signalling NaN, or ∞ − ∞? -/
def addInvalid (a b : Val) : Bool :=
  a.isSnan || b.isSnan || (match a, b with | .inf x, .inf y => x != y | _, _ => false)

/-- fma(a, b, c) on exact values. -/
def fmaVal (a b c : Val) (rdn : Bool) : Val := addVal (mulVal a b) c rdn

/-- The order of a format in bound checks and MIN and MAX (R93, R271): an integer key for T, the value otherwise. -/
def tapKey (n x : Nat) : Int := if x % 2 ^ n < 2 ^ (n - 1) then ((x % 2 ^ n : Nat) : Int) else (x % 2 ^ n : Nat) - (2 ^ n : Nat)

/-- The order of two codes of a format (R93, R271). -/
def ltCode (f : Fmt) (a b : Nat) : Bool :=
  match f with
  | .tap n _ => tapKey n a < tapKey n b
  | .int true w => tapKey w a < tapKey w b
  | .int false w => a % 2 ^ w < b % 2 ^ w
  | _ => ltVal (decodeVal f a) (decodeVal f b)

end Sys2Proof.Machine
end

