-- ==== Sys2Proof/Machine/Operands.lean ====
section
/-! DEFINITION. Tensor operands: the descriptor's fields (R313), the layout unit (R269, R270), address formation (R172),
bound checks (R271, R272), translation (R316, R318), and the link operations that reach a peer plot (R352 to R354). -/

namespace Sys2Proof.Machine

/-! ### The tensor descriptor (R313) -/

def Tensor.tid (t : Tensor) : BitVec 12 := t.w0.extractLsb' 0 12
def Tensor.fmt (t : Tensor) : BitVec 4 := t.w0.extractLsb' 12 4
def Tensor.sub (t : Tensor) : BitVec 3 := t.w0.extractLsb' 16 3
def Tensor.layout (t : Tensor) : Nat := bits t.w0 23 20
def Tensor.lpar (t : Tensor) : Nat := bits t.w0 26 24
def Tensor.narok (t : Tensor) : Bool := bit t.w0 29
def Tensor.act (t : Tensor) : Nat := bits t.w0 31 30
def Tensor.ext (t : Tensor) (i : Nat) : Nat :=
  match i with
  | 0 => bits t.w1 31 0 | 1 => bits t.w1 63 32 | 2 => bits t.w2 31 0 | _ => bits t.w2 63 32
def Tensor.res (t : Tensor) : Nat := bits t.w5 50 49
def Tensor.kind (t : Tensor) : Nat := bits t.w5 52 51
def Tensor.permAtomic (t : Tensor) : Bool := bit t.w5 53
def Tensor.permWrite (t : Tensor) : Bool := bit t.w5 54
def Tensor.permRead (t : Tensor) : Bool := bit t.w5 55
def Tensor.hcl (t : Tensor) : Nat := bits t.w5 63 56
def Tensor.lfirst (t : Tensor) : Nat := bits t.w6 31 0
def Tensor.lcount (t : Tensor) : Nat := bits t.w6 63 32
def Tensor.elemFmt (t : Tensor) : Fmt := fmtOf t.fmt t.sub

def Tensor.none_ : Tensor :=
  { w0 := 0, w1 := 0, w2 := 0, low := 0, high := 0, w5 := 0, w6 := 0, rloc := 0 }

/-- The tensor of a take that a number names; a number the take does not declare has no extent. -/
def Take.tensor (t : Take) (tid : Nat) : Tensor :=
  match t.tensors.find? fun x => x.1 == tid with
  | some x => x.2
  | none => Tensor.none_
def Take.updTensor (t : Take) (tid : Nat) (f : Tensor → Tensor) : Take :=
  { t with tensors := t.tensors.map fun x => if x.1 = tid then (x.1, f x.2) else x }

/-! ### The layout unit (R269, R270) -/

/-- Coordinates c0 to c3. -/
structure Coord where
  c0 : Nat
  c1 : Nat
  c2 : Nat
  c3 : Nat
  deriving DecidableEq, Repr

def Coord.get (c : Coord) (i : Nat) : Nat :=
  match i with
  | 0 => c.c0 | 1 => c.c1 | 2 => c.c2 | _ => c.c3

def Tensor.inExtents (t : Tensor) (c : Coord) : Bool :=
  c.c0 < t.ext 0 && c.c1 < t.ext 1 && c.c2 < t.ext 2 && c.c3 < t.ext 3

/-- Bytes of an element of a whole-byte format, or of a token of the others. -/
def Tensor.unit (t : Tensor) : Nat := if t.elemFmt.whole then t.elemFmt.width / 8 else 8

/-- The byte offset of an element (R269); for the packed formats that of its token (R270). -/
def Tensor.offset (t : Tensor) (c : Coord) : Nat :=
  let p := t.elemFmt.perToken
  let s := t.elemFmt.width / 8
  match t.layout with
  | 0 =>
    let rp := 8 * cdiv (t.ext 0) p
    ((c.c3 * t.ext 2 + c.c2) * t.ext 1 + c.c1) * rp + (if t.elemFmt.whole then c.c0 * s else 8 * (c.c0 / p))
  | 1 =>
    let cp := 8 * cdiv (t.ext 1) p
    ((c.c3 * t.ext 2 + c.c2) * t.ext 0 + c.c0) * cp + c.c1 * s
  | 2 =>
    let b := 2 ^ t.lpar
    let nb0 := cdiv (t.ext 0) b
    let nb1 := cdiv (t.ext 1) b
    ((c.c3 * t.ext 2 + c.c2) * nb1 * nb0 + c.c1 / b * nb0 + c.c0 / b) * (b * b * s) + (c.c1 % b * b + c.c0 % b) * s
  | _ =>
    let g := 2 ^ t.lpar
    let ip := 8 * cdiv (t.ext 0 * g * s) 8
    ((c.c3 * cdiv (t.ext 2) g + c.c2 / g) * t.ext 1 + c.c1) * ip + (c.c0 * g + c.c2 % g) * s

/-- The slot of an element within its token, for the packed formats; 0 for the others. -/
def Tensor.slotBit (t : Tensor) (c0 : Nat) : Nat :=
  if t.elemFmt.whole then 0 else c0 % t.elemFmt.perToken * t.elemFmt.width

/-- The byte offset one past the last element (R313). -/
def Tensor.size (t : Tensor) : Nat :=
  t.offset ⟨t.ext 0 - 1, t.ext 1 - 1, t.ext 2 - 1, t.ext 3 - 1⟩ + t.unit
/-- NP (R313). -/
def Tensor.np (t : Tensor) : Nat := cdiv t.size 65536

/-- Coordinates 1 to 3 from the number of a row: c1 fastest. -/
def unrow (e1 e2 r : Nat) : Nat × Nat × Nat := (r % e1, r / e1 % e2, r / e1 / e2)

/-- The elements that the unit (element or token) at a byte offset holds, with the bit at which each starts; none for
padding (R271). -/
def Tensor.elemsAt (t : Tensor) (o : Nat) : List (Coord × Nat) :=
  let p := t.elemFmt.perToken
  let s := t.elemFmt.width / 8
  let keep (c : Coord) : List (Coord × Nat) := if t.inExtents c then [(c, 0)] else []
  match t.layout with
  | 0 =>
    let rp := 8 * cdiv (t.ext 0) p
    let r := unrow (t.ext 1) (t.ext 2) (o / rp)
    if t.elemFmt.whole then keep ⟨o % rp / s, r.1, r.2.1, r.2.2⟩
    else (List.range p).filterMap fun i =>
      let c : Coord := ⟨o % rp / 8 * p + i, r.1, r.2.1, r.2.2⟩
      if t.inExtents c then some (c, i * t.elemFmt.width) else none
  | 1 =>
    let cp := 8 * cdiv (t.ext 1) p
    let r := unrow (t.ext 0) (t.ext 2) (o / cp)
    keep ⟨r.1, o % cp / s, r.2.1, r.2.2⟩
  | 2 =>
    let b := 2 ^ t.lpar
    let nb0 := cdiv (t.ext 0) b
    let nb1 := cdiv (t.ext 1) b
    let blk := o / (b * b * s)
    let i := o % (b * b * s) / s
    let q := blk / nb0 / nb1
    keep ⟨blk % nb0 * b + i % b, blk / nb0 % nb1 * b + i / b, q % t.ext 2, q / t.ext 2⟩
  | _ =>
    let g := 2 ^ t.lpar
    let ip := 8 * cdiv (t.ext 0 * g * s) 8
    let i := o % ip / s
    let g2 := cdiv (t.ext 2) g
    let r := o / ip
    let q := r / t.ext 1
    keep ⟨i / g, r % t.ext 1, q % g2 * g + i % g, q / g2⟩

/-! ### Bound checks (R271, R272) -/

/-- Is a code in range (R271)? -/
def Tensor.inBound (t : Tensor) (code : Nat) : Bool :=
  let f := t.elemFmt
  if (decodeVal f code).isNan then t.narok
  else !ltCode f code (narrow f t.low) && !ltCode f (narrow f t.high) code

/-- What the layout unit does with an element (R272). -/
inductive BoundRes
  | pass                   -- in range, or no action
  | flag                   -- written unchanged, one event
  | clamp (code : Nat)     -- written as a bound, one event
  | trap
  deriving DecidableEq, Repr

def Tensor.bound (t : Tensor) (code : Nat) : BoundRes :=
  if t.act = 0 || t.inBound code then .pass
  else if t.act = 1 then .flag
  else if t.act = 2 then
    let f := t.elemFmt
    .clamp (if (decodeVal f code).isNan || ltCode f code (narrow f t.low) then narrow f t.low else narrow f t.high)
  else .trap

/-- R272, R338: one bound event of a take. -/
def State.boundEvent (s : State) (take tid : Nat) (c : Coord) : State :=
  s.updTake take fun t => { t with fr := { t.fr with
    bcount := satInc t.fr.bcount
    btid := if t.fr.bcount = 0 then BitVec.ofNat 12 tid else t.fr.btid
    bc0 := if t.fr.bcount = 0 then BitVec.ofNat 32 c.c0 else t.fr.bc0
    bc1 := if t.fr.bcount = 0 then BitVec.ofNat 32 c.c1 else t.fr.bc1
    bc2 := if t.fr.bcount = 0 then BitVec.ofNat 32 c.c2 else t.fr.bc2
    bc3 := if t.fr.bcount = 0 then BitVec.ofNat 32 c.c3 else t.fr.bc3 } }
def State.boundEvents (s : State) (take tid : Nat) (cs : List Coord) : State :=
  cs.foldl (fun s c => s.boundEvent take tid c) s

/-- A checked write: the first byte and the bytes to write, and the bound events. -/
structure Checked where
  off : Nat
  bytes : List Byte
  events : List Coord
  deriving DecidableEq, Repr

/-- The bits `[lo, lo + w)` of `v` replaced by `x`. -/
def putBits (v lo w x : Nat) : Nat := v % 2 ^ lo + (x % 2 ^ w) * 2 ^ lo + v / 2 ^ (lo + w) * 2 ^ (lo + w)

/-- One unit of a checked write: its bytes as they stand after the write, the first and last byte offset written. -/
structure UnitAcc where
  val : Nat
  lo : Nat
  hi : Nat
  events : List Coord
  deriving DecidableEq, Repr

/-- Check the elements of one unit that bytes `[a, b)` of the tensor cover. -/
def checkUnit (t : Tensor) (uo a b : Nat) : List (Coord × Nat) → UnitAcc → Option UnitAcc
  | [], r => some r
  | (c, sb) :: rest, r =>
    let w := t.elemFmt.width
    let e0 := uo + sb / 8
    let e1 := uo + (sb + w + 7) / 8
    if e1 ≤ a || b ≤ e0 then checkUnit t uo a b rest r
    else
      match t.bound (r.val / 2 ^ sb % 2 ^ w) with
      | .pass => checkUnit t uo a b rest r
      | .flag => checkUnit t uo a b rest { r with events := r.events ++ [c] }
      | .clamp x =>
        checkUnit t uo a b rest { val := putBits r.val sb w x, lo := min r.lo e0, hi := max r.hi e1, events := r.events ++ [c] }
      | .trap => none

/-- The units of a write, in order: the value each holds after the write, checked. -/
def checkUnits (t : Tensor) (a : Nat) (bytes : List Byte) (old : Nat → Byte) : List Nat → Checked → Option Checked
  | [], r => some r
  | uo :: rest, r =>
    let u := t.unit
    let b := a + bytes.length
    let now := ofBytes ((List.range u).map fun i => if a ≤ uo + i && uo + i < b then bytes.getD (uo + i - a) 0 else old (uo + i))
    match checkUnit t uo a b (t.elemsAt uo) { val := now, lo := max a uo, hi := min b (uo + u), events := [] } with
    | none => none
    | some x =>
      checkUnits t a bytes old rest
        { off := min r.off x.lo
          bytes := r.bytes ++ ((toBytes u x.val).drop (x.lo - uo)).take (x.hi - x.lo)
          events := r.events ++ x.events }

/-- R271: a write of bytes at an offset of a tensor, checked element by element; `old` gives the byte that an offset of
the tensor holds. None when a covered element fails a TRAP bound. -/
def Tensor.check (t : Tensor) (a : Nat) (bytes : List Byte) (old : Nat → Byte) : Option Checked :=
  if t.act = 0 then some { off := a, bytes := bytes, events := [] }
  else checkUnits t a bytes old ((unitsOf t.unit a bytes.length).map (· * t.unit)) { off := a, bytes := [], events := [] }

/-! ### Translation (R316, R318) -/

/-- Where a byte of a tensor lies: a memory key of this package, or an offset of the tensor under a remote lease. -/
inductive Loc
  | key (k : Nat)
  | peer (pkg lease off : Nat)
  deriving DecidableEq, Repr

inductive Trans
  | ok (l : Loc)
  | wait                    -- V = 0 or MOV = 1
  | abort                   -- the last route to the peer has failed (R324)
  | fault (cause : Nat)     -- OUT-OF-LEASE
  deriving DecidableEq, Repr

/-- The place that a plot entry names for a byte of the plot (R316). -/
def Tensor.place (t : Tensor) (fn : Nat) (e : Word) (off : Nat) : Loc :=
  let fr := bits e 39 0
  let b := off % 65536
  match bits e 60 59 with
  | 0 => .key (vaultKey (fr / 2 ^ 9 % 256) (65536 * (fr % 2 ^ 9) + b))
  | 1 => .key (hbmKey (fr / 2 ^ 20 % 8) (65536 * (fr % 2 ^ 20) + b))
  | 2 => .key (hostKey fn (bits t.rloc 63 56 * 2 ^ 56 + fr * 65536 + b))
  | _ => .peer (fr / 2 ^ 28) (bits e 54 40) off

/-- Plot entries (R316). -/
def Tensor.entry (t : Tensor) (pl : Nat) : Word := tget 0 t.plots pl
def entryV (e : Word) : Bool := bit e 63
def entryMov (e : Word) : Bool := bit e 55
def entryPerm (e : Word) (i : Nat) : Bool := bit e (56 + i)

/-- R318: the translation of one access. -/
def State.translate (s : State) (t : Take) (ten : Tensor) (off : Nat) (rd wr at' : Bool) : Trans :=
  let pl := off / 65536
  if pl < ten.lfirst || ten.lfirst + ten.lcount ≤ pl then .fault 0
  else
    let e := ten.entry pl
    if rd && !ten.permRead then .fault 1
    else if wr && !ten.permWrite then .fault 2
    else if at' && !ten.permAtomic then .fault 3
    else if !entryV e || entryMov e then
      if ten.res = 3 && !s.reach.contains (bits ten.rloc 63 52) then .abort else .wait
    else .ok (ten.place t.fn e off)

/-- An access stalls at a plot: where a peer's plot has no translation, its take wants a new grant of it (R324). -/
def State.stalls (s : State) (t : Take) (ten : Tensor) (off : Nat) : State :=
  let x := (ten.tid.toNat, off / 65536)
  if ten.res = 3 && !entryV (ten.entry x.2) then
    s.updTake t.id fun t => { t with want := if t.want.contains x then t.want else t.want ++ [x] }
  else s
def State.stallsAll (s : State) (t : Take) (ten : Tensor) (l : List Coord) : State :=
  l.foldl (fun s c => s.stalls t ten (ten.offset c)) s

/-! ### Links (R352 to R354) -/

def clsLand : Nat := 0
def clsMem : Nat := 1
def clsMgmt : Nat := 2
def pinIx (pkg cls : Nat) : Nat := 4 * pkg + cls

/-- The ports of a package's route that are UP (R354). -/
def State.upPorts (s : State) (pkg : Nat) : List Nat :=
  (List.range 48).filter fun p => maskBit (tget 0 s.routes pkg) p && (s.svport p).st == .up
def State.reachable (s : State) (pkg : Nat) : Bool := s.reach.contains pkg

/-- One of the candidates, chosen by a free value. -/
def State.pickOf (s : State) (l : List Nat) : Option Nat × State :=
  let r := s.freePick
  (l[r.1 % l.length]?, r.2)

/-- The port a package and class are pinned to: as it stands, or one UP port of the route (R354). -/
def State.pinPort (s : State) (pkg cls : Nat) : Option Nat × State :=
  match (s.pin (pinIx pkg cls)).port with
  | some p => (some p, s)
  | none =>
    let r := s.pickOf (s.upPorts pkg)
    match r.1 with
    | some p => (some p, r.2.updPin (pinIx pkg cls) fun x => { x with port := some p })
    | none => (none, s)

/-- The data bytes that a message carries. -/
def msgSize : LinkMsg → Nat
  | .land _ _ _ _ _ _ _ b _ => b.length
  | .mem _ _ _ (.write b) => b.length
  | .mem _ _ _ (.bits n _ _ _) => n
  | .mem _ _ _ (.tile l) => l.foldl (fun k x => k + x.n) 0
  | .memReply _ (.data b) _ => b.length
  | .leaseGrant _ _ _ _ f => 8 * f.length
  | .mgmt b => b.length
  | _ => 0

/-- The payloads of a message: a flit carries 224 bytes of it (R352; what else of a message a payload holds is DESIGN
CHOICE, log 21). -/
def payloadsOf (m : LinkMsg) : List Payload :=
  let n := max 1 (cdiv (msgSize m) 224)
  (List.range n).map fun i => ⟨m, i, n⟩

/-- A flit joins the retry buffer of its package and class, and waits for the port (R352, R358). -/
def State.sendFlit (s : State) (port pkg cls : Nat) (y : Payload) : State :=
  let n := (s.pin (pinIx pkg cls)).snd
  (s.updPin (pinIx pkg cls) fun x => { x with snd := x.snd + 1, retry := x.retry ++ [(n, y)] }).updPort port fun q =>
    { q with sendq := q.sendq ++ [⟨pkg, cls, n, y⟩] }

/-- R352, R353, R358: send a message to a package; its flits stay in the retry buffer until they are acknowledged. -/
def State.send (s : State) (pkg cls : Nat) (m : LinkMsg) : State :=
  match s.pinPort pkg cls with
  | (none, s) => s
  | (some p, s) => (payloadsOf m).foldl (fun s y => s.sendFlit p pkg cls y) s

/-- The take for which a requester acts. -/
def State.reqTake (s : State) : Requester → Nat
  | .cueLoad cl k | .cueStore cl k _ | .mxReadWrite cl k _ _ | .overlay cl k _ => (s.ctx cl k).take
  | .elemReply cl rid => (s.region cl rid).take
  | .inPort cl p => ((s.inPort cl p).bound.map fun b => b.take).getD 0
  | .outPort cl p => ((s.outPort cl p).bound.map fun b => b.take).getD 0
  | .matrix cl _ => (s.mxOf cl).holder.getD 0
  | .copyEntry _ take _ => take

/-- The cluster of a requester. -/
def reqCl : Requester → Nat
  | .cueLoad cl _ | .cueStore cl _ _ | .mxReadWrite cl _ _ _ | .overlay cl _ _ | .elemReply cl _ | .inPort cl _ | .outPort cl _
  | .matrix cl _ | .copyEntry cl _ _ => cl

/-- The function for which a requester acts (R364). -/
def State.reqFn (s : State) (rq : Requester) : Nat := ((s.take? (s.reqTake rq)).map fun t => t.fn).getD 31

def memIsRead : MemReq → Bool
  | .read _ => true
  | _ => false

/-- The plots, each with its remote lease, that a request names. -/
def memPlots (lease off : Nat) : MemReq → List (Nat × Nat)
  | .tile l => l.map fun x => (x.lease, x.off / 65536)
  | _ => [(lease, off / 65536)]

/-- R331: the detection of an error for which a requester receives an abort completion without its memory being known. -/
def State.detectReq (s : State) (rq : Requester) (info : Word) : State :=
  s.detectUe (dieOf (reqCl rq)) (reqCl rq) (s.reqTake rq) info

/-- A request to a peer plot: it stands among the outstanding ones until its completion (R265, R364). -/
def State.sendMem (s : State) (pkg : Nat) (rq : Requester) (lease off : Nat) (req : MemReq) : State :=
  ({ s with reqs := s.reqs ++
      [{ pkg := pkg, rq := rq, fn := s.reqFn rq, plots := memPlots lease off req, wr := !memIsRead req }] } : State).send pkg clsMem
    (.mem rq lease off req)

/-- The completions of requests whose requester has given them up are discarded (R223, R335, R340). -/
def State.staleReqs (s : State) (p : Req → Bool) : State :=
  { s with reqs := s.reqs.map fun r => if p r then { r with stale := true } else r }

/-- The same for the reads that an input port has asked for. -/
def State.staleIn (s : State) (cl p : Nat) : State := s.staleReqs fun r => r.rq == .inPort cl p

/-! ### Operands of the cue contexts (R172) -/

/-- What address formation gives. -/
inductive Formed
  | trap (code : Nat) (info : Word)
  | ok (tid : Nat) (c : Coord) (off : Nat)
  deriving DecidableEq, Repr

/-- Coordinate registers 0 to 3 of an access. -/
def coordReg (m : MemOp) (i : Nat) : Reg :=
  match i with
  | 0 => m.c0 | 1 => m.c1 | 2 => m.c2 | _ => m.c3

/-- Coordinate i: the low 32 bits of its register, or 0 beyond NC. -/
def State.coordOf (s : State) (m : MemOp) (i : Nat) : Nat :=
  if i ≤ m.nc.toNat then bits (s.reg (coordReg m i)) 31 0 else 0

/-- The numbers of a tensor handle's KIND trap (R165). -/
def kindInfo (h : HReg) (x : Handle) : Word := at_ x.kind 4 ||| at_ h.toNat 0

/-- R172: the address of an access of `n` bytes (n = 1 for an access without an alignment rule). -/
def State.form (s : State) (t : Take) (m : MemOp) (lit : Int) (n : Nat) : Formed :=
  match s.handle m.h with
  | .tensor tid =>
    let ten := t.tensor tid.toNat
    let c0 : Int := s.coordOf m 0 + lit
    let v (i : Nat) : Int := if i = 0 then c0 else s.coordOf m i
    match (List.range 4).find? fun i => v i < 0 || (ten.ext i : Int) ≤ v i with
    | some i => .trap codeTensorRange (at_ (v i % 2 ^ 32).toNat 32 ||| at_ i 0)
    | none =>
      let c : Coord := ⟨c0.toNat, s.coordOf m 1, s.coordOf m 2, s.coordOf m 3⟩
      let o := ten.offset c
      if o % n ≠ 0 then .trap codeMisaligned (at_ o 16 ||| at_ tid.toNat 0) else .ok tid.toNat c o
  | x => .trap codeHandleKind (kindInfo m.h x)

end Sys2Proof.Machine
end

