-- ==== Sys2Proof/Machine/Walks.lean ====
section
/-! DEFINITION. The walks by which streams and copies go through tensors: the patterns and walks of ports (R75, R182), the
schedule entries, patterns, operators and flows of the copy engine (R232 to R234, R242), and what of a context's reads they
leave to be performed (R237, R275). -/

namespace Sys2Proof.Machine

/-! ### Patterns and walks (R75, R182) -/

def Pattern.port (p : Pattern) : BitVec 4 := p.w0.extractLsb' 60 4
def Pattern.dir (p : Pattern) : Bool := bit p.w0 59
def Pattern.node (p : Pattern) : Nat := bits p.w0 58 57
def Pattern.pack (p : Pattern) : Bool := bit p.w0 56
def Pattern.lanes (p : Pattern) : Nat := bits p.w0 55 52 + 1
def Pattern.tid (p : Pattern) : BitVec 12 := p.w0.extractLsb' 32 12
def Pattern.rowlen (p : Pattern) : Nat := bits p.w0 31 0
def Pattern.o1 (p : Pattern) : Nat := bits p.w1 31 0
def Pattern.o2 (p : Pattern) : Nat := bits p.w1 47 32
def Pattern.o3 (p : Pattern) : Nat := bits p.w1 63 48

def nodeCode : Node → Nat
  | .stream => 0 | .random => 1 | .ordered => 2

/-- A walk: elements in a row, elements of a token, tokens of a row, elements and tokens in all. -/
structure Walk where
  rl : Nat
  pk : Nat
  tpr : Nat
  nel : Nat
  ntok : Nat
  deriving DecidableEq, Repr

/-- R181, R182: the walk of a binding over its tensor. It ends at the first element outside the extents; a token limit
of 0 means none. -/
def Binding.walk (b : Binding) (ten : Tensor) : Walk :=
  let o0 := b.o0.toInt
  let e0 : Int := ten.ext 0
  let rl : Nat := if b.pat.rowlen = 0 then (e0 - o0).toNat else b.pat.rowlen
  let nel : Nat :=
    if o0 < 0 || e0 ≤ o0 || ten.ext 1 ≤ b.pat.o1 || ten.ext 2 ≤ b.pat.o2 || ten.ext 3 ≤ b.pat.o3 then 0
    else if (e0 - o0).toNat < rl then (e0 - o0).toNat
    else rl * (ten.ext 1 - b.pat.o1) * (ten.ext 2 - b.pat.o2) * (ten.ext 3 - b.pat.o3)
  let rl := if rl = 0 then 1 else rl
  let pk := if b.pat.pack then ten.elemFmt.perToken else 1
  let tpr := cdiv rl pk
  let tok := nel / rl * tpr + cdiv (nel % rl) pk
  { rl := rl, pk := pk, tpr := tpr, nel := nel
    ntok := if b.limit = 0 then tok else min tok b.limit.toNat }

/-- The coordinate of element `k` of a walk (R182). -/
def Binding.coord (b : Binding) (ten : Tensor) (w : Walk) (k : Nat) : Coord :=
  let row := k / w.rl
  let s1 := ten.ext 1 - b.pat.o1
  let s2 := ten.ext 2 - b.pat.o2
  ⟨b.o0.toNat + k % w.rl, b.pat.o1 + row % s1, b.pat.o2 + row / s1 % s2, b.pat.o3 + row / s1 / s2⟩

/-- The elements of token `q`, as element numbers of the walk (R102, R182). -/
def Walk.span (w : Walk) (q : Nat) : List Nat :=
  let k0 := q / w.tpr * w.rl + q % w.tpr * w.pk
  let last := min (min (k0 + w.pk) (q / w.tpr * w.rl + w.rl)) w.nel
  (List.range (last - k0)).map (k0 + ·)

/-! ### Schedule entries and patterns (R232, R233) -/

def Sched.stage (w : Sched) : Nat := bits w.w0 63 56
def Sched.opr (w : Sched) : BitVec 4 := w.w0.extractLsb' 52 4
def Sched.sen (w : Sched) : Bool := bit w.w0 51
def Sched.bytes (w : Sched) : Nat := bits w.w0 47 0
def Sched.tcl (w : Sched) : Nat := bits w.w1 63 56
def Sched.stid (w : Sched) : Nat := bits w.w1 55 44
def Sched.stoff (w : Sched) : Nat := bits w.w1 43 0

/-- A pattern of an entry (R233): its three words. -/
structure CPat where
  p0 : Word
  p1 : Word
  p2 : Word
  deriving DecidableEq, Repr

def Sched.src (w : Sched) : CPat := ⟨w.s0, w.s1, w.s2⟩
def Sched.dst (w : Sched) : CPat := ⟨w.d0, w.d1, w.d2⟩
/-- 0 BOX, 1 GATHER, 2 LAND, 3 SLOTS. -/
def CPat.kind (p : CPat) : Nat := bits p.p0 63 60
def CPat.isTensor (p : CPat) : Bool := p.kind ≤ 1
def CPat.tid (p : CPat) : Nat := bits p.p0 59 48
def CPat.xtid (p : CPat) : Nat := bits p.p0 47 36
def CPat.rowlen (p : CPat) : Nat := bits p.p2 63 32
def CPat.pkg (p : CPat) : BitVec 12 := p.p0.extractLsb' 48 12
def CPat.cl (p : CPat) : BitVec 8 := p.p0.extractLsb' 40 8
def CPat.landZone (p : CPat) : BitVec 3 := p.p0.extractLsb' 37 3
def CPat.slotZone (p : CPat) : BitVec 3 := p.p0.extractLsb' 48 3
def CPat.free (p : CPat) : Bool := bit p.p0 35
def CPat.off (p : CPat) : Nat := bits p.p1 31 0

/-! ### Operators (R242) -/

inductive OpKind | sum | min | max | cvt
  deriving DecidableEq, Repr

/-- Incoming format, resident format and kind of operators 1 to 14; none for COPY. -/
def copyOp (op : BitVec 4) : Option (Fmt × Fmt × OpKind) :=
  match op.toNat with
  | 1 => some (f32, f32, .sum) | 2 => some (bf16, bf16, .sum) | 3 => some (t16, t16, .sum)
  | 4 => some (.int true 32, .int true 32, .sum)
  | 5 => some (f32, f32, .min) | 6 => some (f32, f32, .max)
  | 7 => some (.int true 32, .int true 32, .min) | 8 => some (.int true 32, .int true 32, .max)
  | 9 => some (t16, t16, .min) | 10 => some (t16, t16, .max)
  | 11 => some (t16, f32, .sum) | 12 => some (f32, t16, .sum)
  | 13 => some (t16, f32, .cvt) | 14 => some (f32, t16, .cvt)
  | _ => none

/-- Operators 1 to 12 reduce (R243, R244). -/
def reduces (op : BitVec 4) : Bool := 1 ≤ op.toNat && op.toNat ≤ 12

/-! ### The flow of an entry (R234) -/

/-- What an ACTIVE entry moves: the operator, the bits of an incoming and of a written element, E, and the elements in
all. -/
structure Flow where
  src : CPat
  dst : CPat
  op : BitVec 4
  win : Nat
  wout : Nat
  e : Nat
  n : Nat
  deriving DecidableEq, Repr

def flowOf (t : Take) (w : Sched) (op : BitVec 4) (nslots : Nat) : Flow :=
  let src := w.src
  let dst := w.dst
  let ws : Nat × Nat :=
    match copyOp op with
    | some (fi, fr, _) => (fi.width, fr.width)
    | none =>
      let x := if src.isTensor then (t.tensor src.tid).elemFmt.width
        else if dst.isTensor then (t.tensor dst.tid).elemFmt.width else 8
      (x, x)
  let e := 8 * w.bytes / ws.1
  { src := src, dst := dst, op := op, win := ws.1, wout := ws.2, e := e, n := e * (if src.kind = 3 then nslots else 1) }

/-! ### Reads that are still to be performed (R237, R275, R280) -/

def Tensor.isSo (t : Tensor) : Bool := t.kind == 0

/-- Is an input port bound to a stream of a take's tensor that passes the test? -/
def InPort.streams (x : InPort) (take : Nat) (p : Nat → Bool) : Bool :=
  x.bound.any fun b => b.take == take && b.node == .stream && p b.tid.toNat

/-- Has a consuming region of an input port its start token (R275)? -/
def State.consStarted (s : State) (cl : Nat) (x : InPort) : Bool :=
  x.cons.any fun c =>
    let r := (s.region cl c.rid).running
    r != .armed && r != .idle

/-- Do the reads of a STREAM port count as issued: has a SCENE.GO sent a consuming region its start token (R275)? The token
itself may still wait for the rail (R146). -/
def State.consIssued (s : State) (cl : Nat) (x : InPort) : Bool :=
  s.consStarted cl x || x.cons.any fun c => (s.region cl c.rid).token

/-- Has a bound port a next token to read? A read that can only end in an abort or in OUT-OF-LEASE is met in its turn, and no
access of the context waits for it (DEDUCED, log 9). -/
def State.readsOn (s : State) (t : Take) (x : InPort) : Bool :=
  x.bound.any fun b =>
    let ten := t.tensor b.tid.toNat
    let w := b.walk ten
    x.got < w.ntok && (w.span x.got).all fun k =>
      match s.translate t ten (ten.offset (b.coord ten w k)) true false false with
      | .ok _ | .wait => true
      | _ => false

/-- The stream reads that are still to be performed of a take on a cluster: those of the STREAM ports whose reads count as
issued, `so` to SO plots only. They are accesses of its context from then on (R275). -/
def State.streamsLeft (s : State) (cl : Nat) (t : Take) (so : Bool) : Bool :=
  (s.cluster cl).inp.any fun y =>
    y.2.streams t.id (fun tid => !so || (t.tensor tid).isSo) && s.consIssued cl y.2 && s.readsOn t y.2

/-- Do the reads of a port count as issued before those of another (R275, R280)? Those of one cycle have no order. -/
def InPort.before (y x : InPort) : Bool := y.began.any fun a => x.began.all fun b => a < b

/-- The passing of a cycle: the reads of a STREAM port count as issued from its first cycle with a start token sent. -/
def State.beginStreams (s : State) : State :=
  let f (n : Nat) (x : InPort) : InPort :=
    if x.bound.isSome && x.began.isNone && s.consIssued n x then { x with began := some s.cycle } else x
  { s with clusters := tmap {} (fun n c => { c with inp := tmap {} (fun _ x => f n x) c.inp }) s.clusters }

/-- Does an entry read memory, `so` a tensor in SO plots: its source, the rows of a GATHER, what it reduces into? -/
def Flow.readsMem (f : Flow) (t : Take) (so : Bool) : Bool :=
  let on (p : CPat) : Bool := p.isTensor && (t.tensor p.tid).isSo || p.kind == 1 && (t.tensor p.xtid).isSo
  !so || on f.src || (f.dst.kind == 1 && (t.tensor f.dst.xtid).isSo) || (reduces f.op && on f.dst)

/-- The reads of ACTIVE copy entries that are still to be performed: they count as accesses of the take's context on the
cluster (R237). -/
def State.copiesLeft (s : State) (cl : Nat) (t : Take) (so : Bool) : Bool :=
  (s.copyOf cl t.id).ents.any fun y =>
    let x := y.2
    x.st == .active && x.fin.isNone &&
      match t.sched[y.1]? with
      | some w =>
        let f := flowOf t w x.opr x.slots.length
        x.pos < f.n && f.readsMem t so
      | none => false

/-- The reads of streams and copies that an access of a context waits for (R280): one to an SO plot for all of them, any other
one for those of SO plots. -/
def State.readsLeft (s : State) (cl : Nat) (t : Take) (isSo : Bool) : Bool := s.streamsLeft cl t (!isSo) || s.copiesLeft cl t (!isSo)

end Sys2Proof.Machine
end

