-- ==== Sys2Proof/Machine/Memory.lean ====
section
/-! DEFINITION. Tensor loads, stores, atomics and monitor arming of the cue contexts, and the completions of those that
a peer package performs (R172 to R178, R265). -/

namespace Sys2Proof.Machine

/-! ### Atomics (R174, R175) -/

/-- The new value of an atomic on `w` bits, from the old value and the operands. -/
def amoApply (op : AmoOp) (w old v x : Nat) : Nat :=
  let v := v % 2 ^ w
  match op with
  | .add => (old + v) % 2 ^ w
  | .and => Nat.land old v
  | .or => Nat.lor old v
  | .xor => Nat.xor old v
  | .min => if sextN w v < sextN w old then v else old
  | .max => if sextN w old < sextN w v then v else old
  | .minu => if v < old then v else old
  | .maxu => if old < v then v else old
  | .swap => v
  | .cas => if old = v then x % 2 ^ w else old
  | .faddF32 => (encodeVal f32 .rne false (addVal (decodeVal f32 old) (decodeVal f32 v) false)).code
  | .faddF16 => (encodeVal f16 .rne false (addVal (decodeVal f16 old) (decodeVal f16 v) false)).code
  | .faddBf16 => (encodeVal bf16 .rne false (addVal (decodeVal bf16 old) (decodeVal bf16 v) false)).code
  | .faddT16 => (encodeVal t16 .rne false (addVal (decodeVal t16 old) (decodeVal t16 v) false)).code

/-- The format of a FADD. -/
def amoFadd : AmoOp → Option Fmt
  | .faddF32 => some f32 | .faddF16 => some f16 | .faddBf16 => some bf16 | .faddT16 => some t16
  | _ => none

/-- R174: does an addition set INVALID, and ATOMNAN? -/
def faddFlags (f : Fmt) (old v : Nat) : Bool × Bool :=
  let a := decodeVal f old
  let b := decodeVal f v
  (f.isIeee && addInvalid a b, (addVal a b false).isNan)

/-- Does an atomic write (a CAS whose compare fails does not)? -/
def amoWrites (op : AmoOp) (w old v : Nat) : Bool :=
  match op with
  | .cas => old == v % 2 ^ w
  | _ => true

/-- R175: does a host plot perform the operation at the size? -/
def amoHostOk (op : AmoOp) (sz : Size) : Bool :=
  (op == .add || op == .swap || op == .cas) && (sz == .w || sz == .d)

/-- FSTAT after a FADD of a context (R174). -/
def State.amoFlags (s : State) (cl k : Nat) (op : AmoOp) (old v : Nat) : State :=
  match amoFadd op with
  | some f => (s.setFstat cl k 1 (faddFlags f old (v % 2 ^ f.width)).1).setFstat cl k 2 (faddFlags f old (v % 2 ^ f.width)).2
  | none => s

/-! ### Reports and waits of the ordering forms (R173, R174, R177) -/

/-- The oldest abort that a report of stores (`st`) and of MX.READ writes (`mx`) covers, and the rest. -/
def pickAbort (f : WrAbort → Bool) : List WrAbort → Option (WrAbort × List WrAbort)
  | [] => none
  | a :: t => if f a then some (a, t) else (pickAbort f t).map fun r => (r.1, a :: r.2)

/-- EINFO of DATA-ABORT for a write abort (R165). -/
def abortInfo (a : WrAbort) : Word := flag true 63 ||| flag a.mx.isSome 61 ||| at_ a.tid.toNat 0

/-- What a reporting point covers: FENCE, DRAIN of a path, MX.WAIT, MWAIT with ACQ and the REL forms, SPLICE and EXIT. -/
inductive Report | all | path (q : Path) | mx | stores
  deriving DecidableEq, Repr
def Report.covers (r : Report) (a : WrAbort) : Bool :=
  match r with
  | .all => true
  | .path q => a.mx == none || a.mx == some q
  | .mx => a.mx.isSome
  | .stores => a.mx.isNone

/-- Report an outstanding write abort as DATA-ABORT at the current instruction (R173, R221); none when there is none. -/
def State.report (s : State) (r : Report) : Option State :=
  match pickAbort r.covers s.me.aborts with
  | some (a, rest) => some ((s.onMe fun c => { c with aborts := rest }).trap codeDataAbort (abortInfo a))
  | none => none

/-- The current instruction has issued and stalls in RUN: it is issued again (R165). -/
def State.again (s : State) : State := s.onMe fun c => { c with retry := true }

/-- Are stores of a context to peers outstanding? The writes of MX.READ are not its stores (R225). -/
def CueCtx.storesOut (c : CueCtx) : Bool := c.posted.any fun x => x.mx.isNone

/-- Are there stream reads of the current context that are still to be performed (R275)? -/
def State.myStreams (s : State) : Bool := s.myTake.any fun t => s.streamsLeft s.curCl t false

/-- A release before an access (R177): it waits for the posted stores to peers and the stream reads of its context, and reports
store aborts. -/
def State.release (s : State) (rel : Bool) : Option State :=
  if !rel then none
  else if s.me.storesOut || s.myStreams then some s.again
  else s.report .stores

/-! ### Accesses to SO plots (R280) -/

/-- Does a queued matrix instruction read a tensor with the property? Its reads are accesses of its context (R225). -/
def MxOp.reads (m : Mx) (p : Nat → Bool) : MxOp → Bool
  | .pin _ _ tid _ _ _ _ => p tid.toNat
  | .scale _ r => p r.tid.toNat
  | .step _ _ _ h _ _ => (match h with | .tensor tid => p tid.toNat | _ => false)
      || m.sca.any (fun r => p r.tid.toNat) || m.scb.any (fun r => p r.tid.toNat)
  | _ => false

/-- R280: must an access of the current context wait: one to an SO plot for every earlier access of the context, any other
one for the earlier accesses to SO plots? Its stores, its matrix reads (R225), and the reads of its streams (R275) and of its
copy entries (R237) are its accesses. -/
def State.soWaits (s : State) (t : Take) (ten : Tensor) : Bool :=
  let q := (s.mxOf s.curCl).queue.filter fun i => i.k == s.curK
  s.readsLeft s.curCl t ten.isSo ||
    if ten.isSo then s.me.storesOut || q.any fun i => i.op.reads (s.mxOf s.curCl) fun _ => true
    else s.me.posted.any (fun x => x.mx.isNone && x.so) || q.any fun i => i.op.reads (s.mxOf s.curCl) fun tid => (t.tensor tid).isSo

/-! ### Streams of the context (R275) -/

def InPort.keep (x : InPort) (off : Nat) (bytes : List Byte) : InPort :=
  { x with old := x.old ++ ((bytes.zipIdx.map fun b => (off + b.2, b.1)).filter fun b => !x.old.any fun c => c.1 == b.1) }

/-- The input ports whose stream reads of a tensor come before a store of the take's context (R275). -/
def State.streamPorts (s : State) (cl take tid : Nat) : List Nat :=
  ((s.cluster cl).inp.filter fun x => x.2.streams take (· == tid) && s.consIssued cl x.2).map (·.1)

/-- R275, R278: the reads of a STREAM port stand before the later stores of its context: they give the bytes as they were. -/
def State.keepOld (s : State) (cl take tid off : Nat) (bytes : List Byte) : State :=
  (s.streamPorts cl take tid).foldl (fun s p => s.updIn cl p fun x => x.keep off bytes) s

def ordRel : Ord → Bool
  | .rel | .ar => true
  | _ => false

/-- The literal of a 96-bit form: signed (R172). -/
def litOf (x : Parcel) : Int := x.toInt

/-! ### LD (R173) -/

/-- The loaded word: sign-extended, or zero-extended with U. -/
def loadWord (u : Bool) (sz : Size) (v : Nat) : Word :=
  if u then BitVec.ofNat 64 v else ofInt (sextN (8 * sizeBytes sz) v)

/-- What an access of the current context comes to: it takes its place, waits (R280, R318), or ends at once. -/
inductive Access
  | at (l : Loc)
  | wait
  | abort
  | fault (cause : Nat)
  deriving DecidableEq, Repr

/-- An access of the current context to an offset of a tensor. -/
def State.access (s : State) (t : Take) (ten : Tensor) (off : Nat) (rd wr am : Bool) : Access :=
  match s.translate t ten off rd wr am with
  | .fault c => .fault c
  | .wait => .wait
  | .abort => .abort
  | .ok l => if s.soWaits t ten then .wait else .at l

/-- A LD of `n` parcels whose address is formed. -/
def State.loadAt (s : State) (t : Take) (n : Nat) (d : Reg) (u : Bool) (sz : Size) (tid off : Nat) : State :=
  match s.access t (t.tensor tid) off true false false with
  | .fault c => s.outOfLease t.id 0 c s.curCl s.curK tid off
  | .wait => (s.stalls t (t.tensor tid) off).again
  | .abort => s.trap codeDataAbort (at_ tid 0)
  | .at (.key a) =>
    match s.read a (sizeBytes sz) s.curCl t.id with
    | (s, some b) => s.result n d (loadWord u sz (ofBytes b))
    | (s, none) => s.trap codeDataAbort (at_ tid 0)
  | .at (.peer pkg lease o) =>
    (s.onMe fun c => { c with stall := some (.load n d sz u (BitVec.ofNat 12 tid) none off) }).sendMem pkg
      (.cueLoad s.curCl s.curK) lease o (.read (sizeBytes sz))

def State.load (s : State) (n : Nat) (d : Reg) (m : MemOp) (u : Bool) (sz : Size) (lit : Int) : State :=
  match s.myTake with
  | none => s
  | some t =>
    match s.form t m lit (sizeBytes sz) with
    | .trap code info => s.trap code info
    | .ok tid _ off => s.loadAt t n d u sz tid off

/-- LD (R173). An ACQ form is followed by FENCE.ACQ, which finds every earlier access completed and reports nothing. -/
def execLd (d : Reg) (m : MemOp) (_ : Ord) (u : Bool) (sz : Size) (_ : Scope) (s : State) : Out :=
  .next (s.load 2 d m u sz 0)
/-- LD with a literal (R63, R172). -/
def execLd96 (d : Reg) (m : MemOp) (_ : Ord) (u : Bool) (sz : Size) (_ : Scope) (lit : Parcel) (s : State) : Out :=
  .next (s.load 3 d m u sz (litOf lit))

/-! ### ST (R173) -/

/-- A posted write of a context to a place, after its bound check: performed at once in this package, sent to a peer. -/
def State.postWrite (s : State) (l : Loc) (off : Nat) (ten : Tensor) (tid : Nat) (c : Checked) : State :=
  match l with
  | .key k =>
    let a := k + c.off - off
    match s.tryWrite a c.bytes with
    | some u => u.keepOld s.curCl s.me.take tid c.off (s.peek a c.bytes.length)
    | none => (s.uncorrectable a c.bytes.length s.curCl s.me.take).onMe fun x => { x with aborts := x.aborts ++ [⟨BitVec.ofNat 12 tid, none⟩] }
  | .peer pkg lease o =>
    (s.onMe fun x => { x with posted := x.posted ++ [⟨pkg, tid, lease, none, ten.isSo⟩] }).sendMem pkg
      (.cueStore s.curCl s.curK tid) lease (o + c.off - off) (.write c.bytes)

/-- A ST at its place, where the tensor's other bytes are as `old` gives them: checked, and written (R271, R272). -/
def State.storeWrite (s : State) (t : Take) (n : Nat) (v : Word) (sz : Size) (tid off : Nat) (l : Loc) (old : Nat → Byte) : State :=
  let ten := t.tensor tid
  match ten.check off (toBytes (sizeBytes sz) v.toNat) old with
  | none => s.trap codeBoundTrap (BitVec.ofNat 64 (v.toNat % 2 ^ (8 * sizeBytes sz)))
  | some c => ((s.postWrite l off ten tid c).boundEvents t.id tid c.events).goOn n

/-- The whole units of a tensor that hold `n` bytes at an offset: the first byte, and how many. -/
def Tensor.around (t : Tensor) (off n : Nat) : Nat × Nat :=
  let u := t.unit
  (off / u * u, (off + n + u - 1) / u * u - off / u * u)

/-- Must a ST to a peer plot first read what it writes: to check an element that it covers in part, with the bytes as held
in memory (R271), or to keep what a stream of the context reads (R275)? -/
def State.readsFirst (s : State) (t : Take) (sz : Size) (tid off : Nat) : Bool :=
  let ten := t.tensor tid
  (ten.act != 0 && ten.around off (sizeBytes sz) != (off, sizeBytes sz)) || !(s.streamPorts s.curCl t.id tid).isEmpty

/-- A ST of `n` parcels whose address is formed. -/
def State.storeAt (s : State) (t : Take) (n : Nat) (v : Word) (sz : Size) (tid off : Nat) : State :=
  let ten := t.tensor tid
  match s.access t ten off false true false with
  | .fault c => s.outOfLease t.id 0 c s.curCl s.curK tid off
  | .wait => (s.stalls t ten off).again
  | .abort => (s.onMe fun x => { x with aborts := x.aborts ++ [⟨BitVec.ofNat 12 tid, none⟩] }).goOn n
  | .at (.key k) => s.storeWrite t n v sz tid off (.key k) fun o => s.byte (k + o - off)
  | .at (.peer pkg lease o) =>
    if s.readsFirst t sz tid off then
      let r := ten.around off (sizeBytes sz)
      (s.onMe fun c => { c with stall := some (.store n v sz (BitVec.ofNat 12 tid) off r.1 r.2) }).sendMem pkg
        (.cueLoad s.curCl s.curK) lease (o + r.1 - off) (.read r.2)
    else s.storeWrite t n v sz tid off (.peer pkg lease o) fun _ => 0

def State.store (s : State) (n : Nat) (m : MemOp) (v : Reg) (rel : Bool) (sz : Size) (lit : Int) : State :=
  match s.myTake with
  | none => s
  | some t =>
    match s.form t m lit (sizeBytes sz) with
    | .trap code info => s.trap code info
    | .ok tid _ off =>
      match s.release rel with
      | some s => s
      | none => s.storeAt t n (s.reg v) sz tid off

/-- ST (R173). -/
def execSt (m : MemOp) (v : Reg) (ord : Ord) (sz : Size) (_ : Scope) (s : State) : Out :=
  .next (s.store 2 m v (ordRel ord) sz 0)
/-- ST with a literal (R63, R172). -/
def execSt96 (m : MemOp) (v : Reg) (ord : Ord) (sz : Size) (_ : Scope) (lit : Parcel) (s : State) : Out :=
  .next (s.store 3 m v (ordRel ord) sz (litOf lit))

/-! ### AMO (R174, R175) -/

/-- An atomic performed on a place of this package: the old bytes, or none for an abort completion. -/
def State.amoLocal (s : State) (a : Nat) (op : AmoOp) (sz : Size) (v x : Word) (cl take : Nat) : State × Option Nat :=
  let w := 8 * sizeBytes sz
  match s.read a (sizeBytes sz) cl take with
  | (s, none) => (s, none)
  | (s, some b) =>
    let old := ofBytes b
    if amoWrites op w old v.toNat then
      match s.tryWrite a (toBytes (sizeBytes sz) (amoApply op w old v.toNat x.toNat)) with
      | some s => (s, some old)
      | none => (s.uncorrectable a (sizeBytes sz) cl take, none)
    else (s, some old)

/-- An AMO of `n` parcels whose address is formed and whose residence performs it. EINFO[63] of its DATA-ABORT is 1: whether
an atomic is the write of R165 the spec does not say (DESIGN CHOICE, log 45). -/
def State.amoAt (s : State) (t : Take) (n : Nat) (d : Reg) (v x : Word) (op : AmoOp) (sz : Size) (tid off : Nat) : State :=
  match s.access t (t.tensor tid) off false false true with
  | .fault c => s.outOfLease t.id 0 c s.curCl s.curK tid off
  | .wait => (s.stalls t (t.tensor tid) off).again
  | .abort => s.trap codeDataAbort (flag true 63 ||| at_ tid 0)
  | .at (.key a) =>
    match s.amoLocal a op sz v x s.curCl t.id with
    | (u, some old) =>
      ((u.keepOld s.curCl t.id tid off (toBytes (sizeBytes sz) old)).amoFlags s.curCl s.curK op old v.toNat).result n d (loadWord false sz old)
    | (u, none) => u.trap codeDataAbort (flag true 63 ||| at_ tid 0)
  | .at (.peer pkg lease o) =>
    (s.onMe fun c => { c with stall := some (.load n d sz false (BitVec.ofNat 12 tid) (some (op, v)) off) }).sendMem pkg
      (.cueLoad s.curCl s.curK) lease o (.amo op sz v x)

def State.amo (s : State) (n : Nat) (d : Reg) (m : MemOp) (v x : Reg) (rel : Bool) (sz : Size) (op : AmoOp) (lit : Int) :
    State :=
  match s.myTake with
  | none => s
  | some t =>
    match s.form t m lit (sizeBytes sz) with
    | .trap code info => s.trap code info
    | .ok tid _ off =>
      if (t.tensor tid).res = 2 && !amoHostOk op sz then s.trap codeAmoUnsupported (at_ tid 0)
      else
        match s.release rel with
        | some s => s
        | none => s.amoAt t n d (s.reg v) (s.reg x) op sz tid off

/-- AMO (R174). -/
def execAmo (d : Reg) (m : MemOp) (v w : Reg) (ord : Ord) (sz : Size) (op : AmoOp) (_ : Scope) (s : State) : Out :=
  .next (s.amo 2 d m v w (ordRel ord) sz op 0)
/-- AMO with a literal (R63, R172). -/
def execAmo96 (d : Reg) (m : MemOp) (v w : Reg) (ord : Ord) (sz : Size) (op : AmoOp) (_ : Scope) (lit : Parcel)
    (s : State) : Out := .next (s.amo 3 d m v w (ordRel ord) sz op (litOf lit))

/-! ### MARM (R178) -/

def State.marmOp (s : State) (n : Nat) (m : MemOp) (sz : Size) (lit : Int) : State :=
  match s.myTake with
  | none => s
  | some t =>
    match s.form t m lit (sizeBytes sz) with
    | .trap code info => s.trap code info
    | .ok tid _ off =>
      if (t.tensor tid).res ≠ 0 then s.trap codeMonResidence (at_ tid 0)
      else
        match s.translate t (t.tensor tid) off false false false with
        | .fault c => s.outOfLease t.id 0 c s.curCl s.curK tid off
        | .ok (.key a) => (s.onMe fun c => { c with mon := some ⟨a, sizeBytes sz, false⟩ }).goOn n
        | _ => s.again

/-- MARM (R178). -/
def execMarm (m : MemOp) (sz : Size) (s : State) : Out := .next (s.marmOp 2 m sz 0)
/-- MARM with a literal (R63, R172). -/
def execMarm96 (m : MemOp) (sz : Size) (lit : Parcel) (s : State) : Out := .next (s.marmOp 3 m sz (litOf lit))

/-! ### Completions from a peer (R175, R265) -/

/-- LOAD_REPLY: the data of a LD, the old value of an AMO, or the bytes around a ST reach the stalled context. -/
def execLoadReply (cl k : Nat) (bytes : List Byte) (s : State) : Out :=
  match (s.ctx cl k).stall with
  | some (.load n d sz u tid amo off) =>
    let b := bytes.take (sizeBytes sz)
    let v := ofBytes b
    let s := match amo with
      | some (op, x) => (s.keepOld cl (s.ctx cl k).take tid.toNat off b).amoFlags cl k op v x.toNat
      | none => s
    .next (s.updCtx cl k fun c => ({ c with stall := none }.setReg d (loadWord u sz v)).advance n)
  | some (.store n v sz tid off base _) =>
    let s := { (s.updCtx cl k fun c => { c with stall := none }) with curCl := cl, curK := k }
    match s.myTake with
    | none => .next s
    | some t =>
      match s.translate t (t.tensor tid.toNat) off false true false with
      | .ok (.peer pkg lease o) =>
        let s := s.keepOld cl t.id tid.toNat off ((bytes.drop (off - base)).take (sizeBytes sz))
        .next (s.storeWrite t n v sz tid.toNat off (.peer pkg lease o) fun i => bytes.getD (i - base) 0)
      | _ => .next s.again
  | _ => .next s

/-- The abort completion of a stalled LD or AMO (R173, R265): DATA-ABORT at the instruction. A ST whose reading meets an
abort is a store that meets one: it is reported later. -/
def State.abortLoad (s : State) (cl k : Nat) : State :=
  match (s.ctx cl k).stall with
  | some (.load _ _ _ _ tid amo _) =>
    (s.updCtx cl k fun c => { c with stall := none }).takeTrap cl k codeDataAbort (flag amo.isSome 63 ||| at_ tid.toNat 0) 0
      (s.ctx cl k).pc
  | some (.store n _ _ tid _ _ _) =>
    s.updCtx cl k fun c => { c with stall := none, aborts := c.aborts ++ [(⟨tid, none⟩ : WrAbort)] }.advance n
  | _ => s

/-- The acknowledgement or abort of a posted write to a peer. -/
def dropPosted (p : Posted → Bool) : List Posted → List Posted
  | [] => []
  | x :: t => if p x then t else x :: dropPosted p t

def State.ackStore (s : State) (cl k pkg tid : Nat) (mx : Option Path) : State :=
  s.updCtx cl k fun c => { c with posted := dropPosted (fun x => x.pkg == pkg && x.tid == tid && x.mx == mx) c.posted }

/-- The abort completion of a posted write: kept for the next reporting point (R173, R221). -/
def State.abortStore (s : State) (cl k tid : Nat) (mx : Option Path) : State :=
  s.updCtx cl k fun c => { c with
    posted := dropPosted (fun x => x.tid == tid && x.mx == mx) c.posted
    aborts := c.aborts ++ [⟨BitVec.ofNat 12 tid, mx⟩] }

end Sys2Proof.Machine
end

