-- ==== Sys2Proof/Machine/Accum.lean ====
section
/-! DEFINITION. Accumulator banks (R33, R34, R189, R190). -/

namespace Sys2Proof.Machine

/-- OWNER of a bank: take and cue context; none for a free bank. -/
def Cluster.bankOwner (c : Cluster) (b : Nat) : Option (Nat × Nat) := tget none c.accOwn b
/-- Is a bank held by a context of a take (R33)? -/
def State.holdsBank (s : State) (cl take k b : Nat) : Bool := b < 256 && (s.cluster cl).bankOwner b == some (take, k)

/-- Remove the words of banks `first` to `first + n − 1`: they read 0 (R34). -/
def zeroBanks (acc : Table (BitVec 32)) (first n : Nat) : Table (BitVec 32) :=
  acc.filter fun x => x.1 < 512 * first || 512 * (first + n) ≤ x.1

/-- The words of those banks are written afresh (R331). -/
def freshBanks (bad : List Nat) (first n : Nat) : List Nat := bad.filter fun w => w < 512 * first || 512 * (first + n) ≤ w

/-- The lowest run of `n` free banks (R189). -/
def freeRun (c : Cluster) (n : Nat) : Option Nat :=
  lowest 256 fun i => i + n ≤ 256 && (List.range n).all fun j => (c.bankOwner (i + j)).isNone

/-- ACC.TAKE (R189). -/
def execAccTake (d : Reg) (n : BitVec 14) (s : State) : Out :=
  match freeRun (s.cluster s.curCl) n.toNat with
  | none => .next (s.result 1 d (BitVec.allOnes 64))
  | some i =>
    let own := some (s.me.take, s.curK)
    let s := s.updCluster s.curCl fun c => { c with
      acc := zeroBanks c.acc i n.toNat
      accBad := freshBanks c.accBad i n.toNat
      accOwn := (List.range n.toNat).foldl (fun t j => tput none t (i + j) own) c.accOwn }
    .next (s.result 1 d (BitVec.ofNat 64 i))

/-- The first bank of a range that a context does not hold (R190, R213). -/
def State.foreignBank (s : State) (cl take k first n : Nat) : Option Nat :=
  ((List.range n).map (first + ·)).find? fun b => !s.holdsBank cl take k b

/-- Free banks. -/
def State.freeBanks (s : State) (cl first n : Nat) : State :=
  s.updCluster cl fun c => { c with
    accOwn := (List.range n).foldl (fun t j => tput none t (first + j) none) c.accOwn }

/-- The banks that a queued matrix instruction names: first bank and count (R190, R213, R219). -/
structure Banks where
  first : Nat
  n : Nat
  deriving DecidableEq, Repr

/-- R205: native K, native N, RW in words, words of a value. -/
def native (f : Fmt) : Nat × Nat × Nat :=
  match f with
  | .mx w _ _ _ => if w = 4 then (256, 192, 192) else (128, 192, 192)
  | .lg6 => (256, 192, 192)
  | .tap n _ => if n = 8 then (128, 192, 192) else (64, 192, 192)
  | .ieee w _ _ => if w = 16 then (64, 192, 192) else if w = 32 then (32, 96, 96) else (32, 32, 64)
  | .int _ _ => (128, 192, 192)

/-- RDSRC (R210, R220): pitch in words, columns, words of a value, and the format of a value. -/
structure RdSrc where
  pitch : Nat
  cols : Nat
  ws : Nat
  fmt : Fmt
  deriving DecidableEq, Repr
def rdSrc (mode : BitVec 32) : RdSrc :=
  match (mode.extractLsb' 8 2).toNat with
  | 0 => ⟨192, 192, 1, f32⟩
  | 1 => ⟨192, 192, 1, .int true 32⟩
  | 2 => ⟨96, 96, 1, f32⟩
  | _ => ⟨64, 32, 2, f64⟩

/-- R212, R213: the banks that the words of a row touch, for a pitch. -/
def rowBanks (t : TileRow) (pitch : Nat) : Banks :=
  let rows := t.rows.toNat + 1
  let total := if t.selc = 1 then (t.rpt.toNat + 1) * rows else rows
  let last := (512 * t.bank.toNat + total * pitch - 1) / 512
  ⟨t.bank.toNat, last + 1 - t.bank.toNat⟩

/-- MXMODE at the end of the queue (R204). -/
def Mx.tailMode (m : Mx) : BitVec 32 :=
  m.queue.foldl (fun v i => match i.op with | .mode w => w | _ => v) m.mode

/-- The banks a queued instruction names; MX.READ with the mode at its place in the queue. -/
def namedBanks (mode : BitVec 32) : MxOp → Option Banks
  | .step _ _ t _ _ _ => some (rowBanks t (native (fmtOf t.afmt t.sub)).2.2)
  | .read t _ _ _ => some (rowBanks t (rdSrc mode).pitch)
  | .zero first n => some ⟨first, n⟩
  | _ => none

/-- Does an instruction of the queue name a bank of the range? -/
def queueNames (first n : Nat) : BitVec 32 → List MxItem → Bool
  | _, [] => false
  | mode, i :: rest =>
    (match namedBanks mode i.op with
     | some b => first < b.first + b.n && b.first < first + n
     | none => false)
    || queueNames first n (match i.op with | .mode w => w | _ => mode) rest

def State.banksBusy (s : State) (cl first n : Nat) : Bool := queueNames first n (s.mxOf cl).mode (s.mxOf cl).queue

/-- ACC.FREE (R190). -/
def execAccFree (a : Reg) (n : BitVec 14) (s : State) : Out :=
  match s.foreignBank s.curCl s.me.take s.curK (s.reg a).toNat n.toNat with
  | some b => .next (s.trap codeAccForeign (BitVec.ofNat 64 b))
  | none =>
    let first := (s.reg a).toNat
    if s.banksBusy s.curCl first n.toNat then .next (s.onMe fun c => { c with stall := some (.accFree first n.toNat) })
    else .next ((s.freeBanks s.curCl first n.toNat).goOn 1)

/-- ACC_FREE_COMPLETE (R190): the queued instructions that name the banks have completed. -/
def execAccFreeComplete (cl k : Nat) (s : State) : Out :=
  match (s.ctx cl k).stall with
  | some (.accFree first n) =>
    if s.banksBusy cl first n then .next s
    else .next ((s.freeBanks cl first n).updCtx cl k fun c => { c with stall := none }.advance 1)
  | _ => .next s

end Sys2Proof.Machine
end

