-- ==== Sys2Proof/Machine/Elem.lean ====
section
/-! DEFINITION. What one element entry computes (R112, R118 to R141) and how long it takes (R147 to R152): one function
per opcode, from the two source words, the bank and the counters to the result and its events. -/

namespace Sys2Proof.Machine

/-- What an entry sees: its source words, the bank and the region's counters at the start of the cycle. -/
structure EIn where
  x : Word
  y : Word
  bank : Bank
  idx : Word       -- iteration index (R18)
  iter : Word
  cnt : Word
  ioff : Word
  deriving DecidableEq, Repr

/-- What an entry does: result, writes of locals and F, events, header, token, overrun, trap. -/
structure EOut where
  res : Word
  locs : List (Nat × Word) := []
  flag : Option Bool := none
  sat : Bool := false
  nar : Bool := false
  clamp : Bool := false
  bound : Bool := false
  inv : Bool := false
  dhdr : Option Word := none
  clrTok : Bool := false
  send : Option (BitVec 4 × BitVec 4 × Bool) := none    -- port, lane, LAST
  ovr : Option Nat := none                             -- the length of a BOUND overrun (R155)
  trap : Option Nat := none
  deriving DecidableEq, Repr

/-- The operand format (R50): FMT, with the subtype in MOD for NARROW. -/
def fmtE (e : Entry) : Fmt := fmtOf e.fmt (e.md.extractLsb' 0 3)
def isIN (e : Entry) : Bool := e.fmt.toNat ≤ 7
/-- S, W and the rounding mode of an entry (R51). -/
def modS (e : Entry) : Bool := if isIN e then e.md.getLsbD 0 else e.md.getLsbD 3
def modW (e : Entry) : Bool := if isIN e then e.md.getLsbD 1 else e.md.getLsbD 2
def modRm (e : Entry) : Rm := if isIN e then .rne else Rm.ofNat (e.md.toNat % 4)
def bndE (e : Entry) : Nat := e.imm.toNat / 4096
/-- The local that WL names, 0 to 3 (R47). -/
def wlIx (e : Entry) : Nat := e.wl.toNat % 4
def Bank.loc (b : Bank) (k : Nat) : Word :=
  match k with
  | 0 => b.l0 | 1 => b.l1 | 2 => b.l2 | _ => b.l3
def Bank.setLoc (b : Bank) (k : Nat) (v : Word) : Bank :=
  match k with
  | 0 => { b with l0 := v } | 1 => { b with l1 := v } | 2 => { b with l2 := v } | _ => { b with l3 := v }
/-- L[WL], or 0 when WL is 0. -/
def locE (e : Entry) (b : Bank) : Word := if e.wl = 0 then 0 else b.loc (wlIx e)

/-- A result that also goes to L[WL] when WL is not 0. -/
def out (e : Entry) (r : Word) : EOut := { res := r, locs := if e.wl = 0 then [] else [(wlIx e, r)] }

/-- R112: the word that source 14 forms from IMM. -/
def immWord (e : Entry) : Word :=
  match e.fmt.toNat with
  | 0 | 1 | 2 | 3 => e.imm.signExtend 64
  | 4 | 5 | 6 | 7 | 8 | 9 | 13 => e.imm.setWidth 64
  | 10 | 14 => e.imm.setWidth 64 <<< 16
  | 11 => e.imm.setWidth 64 <<< 48
  | 12 => (e.imm.setWidth 8).setWidth 64
  | _ => BitVec.ofNat 64 (e.imm.toNat % 2 ^ (fmtE e).width)

/-- The signed or unsigned integer that a word holds in an I or N format. -/
def intOf (f : Fmt) (w : Word) : Int :=
  match f with
  | .int true n => sextN n w.toNat
  | _ => narrow f w
/-- The integer wrapped into a format, as a result word (R80, R81). -/
def wrapI (f : Fmt) (v : Int) : Word := widen f (v % (2 ^ f.width : Nat)).toNat
/-- The integer saturated at a format's bounds, and whether it was outside. -/
def satI (f : Fmt) (v : Int) : Word × Bool :=
  let lo : Int := match f with | .int true w => - (2 ^ (w - 1) : Nat) | _ => 0
  let hi : Int := match f with | .int true w => (2 ^ (w - 1) : Nat) - 1 | _ => (2 ^ f.width : Nat) - 1
  if v < lo then (wrapI f lo, true) else if hi < v then (wrapI f hi, true) else (wrapI f v, false)

def valOf (f : Fmt) (w : Word) : Val := decodeVal f (narrow f w)
/-- A value encoded as the result of an entry, with its events. -/
def outVal (e : Entry) (f : Fmt) (rm : Rm) (s : Bool) (v : Val) (inv : Bool) : EOut :=
  let c := encodeVal f rm s v
  { out e (widen f c.code) with sat := c.sat, clamp := c.clamp, inv := inv || c.inv }
/-- A result that is a code of a format. -/
def outCode (e : Entry) (f : Fmt) (c : Nat) : EOut := out e (widen f c)
/-- The canonical NaN or NaR of a format (R83, R92). -/
def nanOf : Val := .nan false false

/-! ### Moving and selecting (R118, R119, R138, R140) -/

def rewrite (e : Entry) (w : Word) : Word := widen (fmtE e) (narrow (fmtE e) w)
def fxMov (e : Entry) (i : EIn) : EOut := out e (rewrite e i.x)
def fxPass (e : Entry) (i : EIn) : EOut := out e i.x
def fxSel (e : Entry) (i : EIn) : EOut := out e (rewrite e (if i.bank.f then i.x else i.y))

/-- The CSWP order (R118): for F, −0 below +0 and every NaN above +∞. -/
def swapLt (f : Fmt) (a b : Nat) : Bool :=
  match f with
  | .ieee w _ _ =>
    let va := decodeVal f a
    let vb := decodeVal f b
    if va.isNan then false
    else if vb.isNan then true
    else if va.isZero && vb.isZero then a / 2 ^ (w - 1) % 2 == 1 && b / 2 ^ (w - 1) % 2 == 0
    else ltVal va vb
  | _ => ltCode f a b
def fxCswp (e : Entry) (i : EIn) : EOut :=
  let f := fmtE e
  let hi := swapLt f (narrow f i.y) (narrow f i.x)    -- x is the higher
  { res := rewrite e (if hi then i.y else i.x)
    locs := if e.wl = 0 then [] else [(wlIx e, rewrite e (if hi then i.x else i.y))] }
def fxSend (e : Entry) (i : EIn) : EOut :=
  { out e (rewrite e i.x) with send := some (e.imm.extractLsb' 0 4, e.imm.extractLsb' 4 4, e.md == 1) }

/-- R103: is a header malformed? -/
def hdrBad (h : Word) : Bool :=
  bits h 13 0 != 0 || (bits h 18 15 == 15 && 6 ≤ bits h 21 19) || (bits h 18 15 != 15 && bits h 21 19 != 0)
    || (!bit h 14 && bits h 47 40 != 0)
def fxHdrLoad (e : Entry) (i : EIn) : EOut :=
  if hdrBad i.x then { res := i.x, trap := some codeHdrMalformed } else { out e i.x with dhdr := some i.x }
def fxHdrBuild (e : Entry) (i : EIn) : EOut :=
  let r := at_ (bits i.y 15 0) 48 ||| at_ (bits i.x 47 14) 14
  if hdrBad r then { res := r, trap := some codeHdrMalformed } else out e r

/-! ### Arithmetic (R120, R121) -/

def addSub (e : Entry) (i : EIn) (sub : Bool) : EOut :=
  let f := fmtE e
  match f with
  | .int _ _ =>
    let v := if sub then intOf f i.x - intOf f i.y else intOf f i.x + intOf f i.y
    if modS e then let r := satI f v; { out e r.1 with sat := r.2 } else out e (wrapI f v)
  | _ =>
    let a := valOf f i.x
    let b := if sub then negVal (valOf f i.y) else valOf f i.y
    outVal e f (modRm e) (modS e) (addVal a b (modRm e == .rdn)) (f.isIeee && addInvalid a b)
def fxAdd (e : Entry) (i : EIn) : EOut := addSub e i false
def fxSub (e : Entry) (i : EIn) : EOut := addSub e i true

/-- R121: the destination format with W. -/
def wideFmt (f : Fmt) : Fmt :=
  match f with
  | .int s w => if w < 64 then .int s (2 * w) else f
  | .ieee w _ _ => if w = 16 then f32 else if w = 32 then f64 else f
  | .tap n _ => if n = 8 then t16 else if n = 16 then t32 else f
  | _ => f
/-- MUL, MAC and MSB: `k` is 0, 1, −1. -/
def mulAcc (e : Entry) (i : EIn) (k : Int) : EOut :=
  let f := fmtE e
  let dw := if modW e then wideFmt f else f
  match f with
  | .int _ _ =>
    let p := intOf f i.x * intOf f i.y
    let v := if k = 0 then p else (if e.wl = 0 then 0 else intOf dw (locE e i.bank)) + k * p
    if modS e then let r := satI dw v; { out e r.1 with sat := r.2 } else out e (wrapI dw v)
  | _ =>
    let a := valOf f i.x
    let b := valOf f i.y
    let p := mulVal a b
    let pinv := (a.isInf && b.isZero) || (a.isZero && b.isInf)
    if k = 0 then outVal e dw (modRm e) (modS e) p (f.isIeee && (a.isSnan || b.isSnan || pinv))
    else
      let c := if e.wl = 0 then Val.zero else valOf dw (locE e i.bank)
      let q := if k = 1 then p else negVal p
      outVal e dw (modRm e) (modS e) (addVal c q (modRm e == .rdn))
        (f.isIeee && (a.isSnan || b.isSnan || c.isSnan || pinv || (!p.isNan && addInvalid c q)))
def fxMul (e : Entry) (i : EIn) : EOut := mulAcc e i 0
def fxMac (e : Entry) (i : EIn) : EOut := mulAcc e i 1
def fxMsb (e : Entry) (i : EIn) : EOut := mulAcc e i (-1)
def fxMulh (e : Entry) (i : EIn) : EOut :=
  let f := fmtE e
  out e (wrapI f (intOf f i.x * intOf f i.y / (2 ^ f.width : Nat)))

/-! ### Shaping and comparing (R122 to R124) -/

/-- Sign operations on an IEEE code: NaN becomes canonical. -/
def signOp (e : Entry) (f : Fmt) (c : Nat) (g : Nat → Nat) : EOut :=
  let v := decodeVal f c
  if v.isNan then outVal e f .rne false nanOf v.isSnan else outCode e f (g c)
def fxAbs (e : Entry) (i : EIn) : EOut :=
  let f := fmtE e
  match f with
  | .int true w =>
    let v := intOf f i.x
    if v = - (2 ^ (w - 1) : Nat) && modS e then let r := satI f (-v); { out e r.1 with sat := r.2 }
    else out e (wrapI f (if v < 0 then -v else v))
  | .int false _ => out e (rewrite e i.x)
  | .ieee w _ _ => signOp e f (narrow f i.x) fun c => c % 2 ^ (w - 1)
  | .tap n _ =>
    let c := narrow f i.x
    outCode e f (if c = 2 ^ (n - 1) then c else if 2 ^ (n - 1) < c then 2 ^ n - c else c)
  | _ => out e (rewrite e i.x)
def fxNeg (e : Entry) (i : EIn) : EOut :=
  let f := fmtE e
  match f with
  | .int _ _ =>
    if modS e then let r := satI f (- intOf f i.x); { out e r.1 with sat := r.2 } else out e (wrapI f (- intOf f i.x))
  | .ieee w _ _ => signOp e f (narrow f i.x) fun c => (c + 2 ^ (w - 1)) % 2 ^ w
  | .tap n _ =>
    let c := narrow f i.x
    outCode e f (if c = 2 ^ (n - 1) then c else (2 ^ n - c) % 2 ^ n)
  | _ => out e (rewrite e i.x)

/-- MIN (`mx` false) and MAX on two codes (R122, R93): the code, and whether a signalling NaN was read. -/
def minMax (f : Fmt) (mx : Bool) (a b : Nat) : Nat × Bool :=
  match f with
  | .ieee w _ _ =>
    let va := decodeVal f a
    let vb := decodeVal f b
    let inv := va.isSnan || vb.isSnan
    if va.isNan && vb.isNan then ((encodeVal f .rne false nanOf).code, inv)
    else if va.isNan then (b, inv)
    else if vb.isNan then (a, inv)
    else
      let lt := if va.isZero && vb.isZero then a / 2 ^ (w - 1) % 2 == 1 && b / 2 ^ (w - 1) % 2 == 0 else ltVal va vb
      (if mx then (if lt then b else a) else (if lt then a else b), inv)
  | _ => (if ltCode f a b then (if mx then b else a) else if ltCode f b a then (if mx then a else b) else a, false)
def fxMin (e : Entry) (i : EIn) : EOut :=
  let r := minMax (fmtE e) false (narrow (fmtE e) i.x) (narrow (fmtE e) i.y)
  { outCode e (fmtE e) r.1 with inv := r.2 }
def fxMax (e : Entry) (i : EIn) : EOut :=
  let r := minMax (fmtE e) true (narrow (fmtE e) i.x) (narrow (fmtE e) i.y)
  { outCode e (fmtE e) r.1 with inv := r.2 }
def fxSat (e : Entry) (i : EIn) : EOut :=
  let f := fmtE e
  match f with
  | .int _ _ => let r := satI f i.x.toInt; { out e r.1 with sat := r.2 }
  | .ieee w eb fb =>
    let v := valOf f i.x
    match v with
    | .inf n => { outCode e f ((if n then 2 ^ (w - 1) else 0) + ((2 ^ eb - 1) * 2 ^ fb - 1)) with sat := true }
    | _ => if v.isNan then outVal e f .rne false nanOf v.isSnan else out e (rewrite e i.x)
  | _ => out e (rewrite e i.x)

/-- The order of CMP (R93, R123): −1, 0, 1, or none when unordered. -/
def order (f : Fmt) (a b : Nat) : Option Int :=
  match f with
  | .ieee _ _ _ =>
    let va := decodeVal f a
    let vb := decodeVal f b
    if va.isNan || vb.isNan then none else if ltVal va vb then some (-1) else if ltVal vb va then some 1 else some 0
  | _ => if ltCode f a b then some (-1) else if ltCode f b a then some 1 else some 0
def fxCmp (e : Entry) (i : EIn) : EOut :=
  let f := fmtOf e.fmt 0
  let a := narrow f i.x
  let b := narrow f i.y
  let o := order f a b
  let un := match f with
    | .tap n _ => a == 2 ^ (n - 1) || b == 2 ^ (n - 1)
    | _ => o.isNone
  let c : Bool :=
    match e.md.toNat with
    | 0 => o == some 0
    | 1 => o != some 0
    | 2 => o == some (-1)
    | 3 => o == some (-1) || o == some 0
    | 4 => o == some 1
    | 5 => o == some 1 || o == some 0
    | 6 => un
    | _ => !un
  { out e (boolWord c) with flag := some c, inv := f.isIeee && ((decodeVal f a).isSnan || (decodeVal f b).isSnan) }
def fxTest (e : Entry) (i : EIn) : EOut :=
  let r := rewrite e (i.x &&& i.y)
  { out e r with flag := some (narrow (fmtE e) (i.x &&& i.y) != 0) }

/-- The lowest and highest values that start a running extreme when WL is 0 (R124). -/
def lowestCode (f : Fmt) : Nat :=
  match f with
  | .int true w => 2 ^ (w - 1)
  | .ieee w eb fb => 2 ^ (w - 1) + (2 ^ eb - 1) * 2 ^ fb
  | .tap n _ => 2 ^ (n - 1)
  | _ => 0
def highestCode (f : Fmt) : Nat :=
  match f with
  | .int true w => 2 ^ (w - 1) - 1
  | .int false w => 2 ^ w - 1
  | .ieee _ eb fb => (2 ^ eb - 1) * 2 ^ fb
  | .tap n _ => 2 ^ (n - 1) - 1
  | _ => 0
def extreme (e : Entry) (i : EIn) (mx : Bool) : EOut :=
  let f := fmtE e
  let v := narrow f i.x
  let k := wlIx e
  let best := if e.wl = 0 then (if mx then lowestCode f else highestCode f) else narrow f (i.bank.loc k)
  let win := order f v best == some (if mx then 1 else -1)
  let inv := f.isIeee && ((decodeVal f v).isSnan || (decodeVal f best).isSnan)
  if win then
    { res := i.y, flag := some true, inv := inv
      locs := if e.wl = 0 then [] else [(k, widen f v), (k ^^^ 1, i.y)] }
  else { res := if e.wl = 0 then i.y else i.bank.loc (k ^^^ 1), flag := some false, inv := inv }
def fxMaxi (e : Entry) (i : EIn) : EOut := extreme e i true
def fxMini (e : Entry) (i : EIn) : EOut := extreme e i false

/-! ### Bits (R125, R126) -/

def fxAnd (e : Entry) (i : EIn) : EOut := out e (rewrite e (i.x &&& i.y))
def fxOr (e : Entry) (i : EIn) : EOut := out e (rewrite e (i.x ||| i.y))
def fxXor (e : Entry) (i : EIn) : EOut := out e (rewrite e (i.x ^^^ i.y))
def fxAndn (e : Entry) (i : EIn) : EOut := out e (rewrite e (i.x &&& ~~~i.y))
def fxNot (e : Entry) (i : EIn) : EOut := out e (rewrite e (~~~i.x))
def shN (i : EIn) : Nat := i.y.toNat % 256
def fxShl (e : Entry) (i : EIn) : EOut :=
  let f := fmtE e
  let v := intOf f i.x * (2 ^ shN i : Nat)
  if modS e then let r := satI f v; { out e r.1 with sat := r.2 } else out e (wrapI f v)
def fxShr (e : Entry) (i : EIn) : EOut := outCode e (fmtE e) (narrow (fmtE e) i.x / 2 ^ shN i)
def fxSar (e : Entry) (i : EIn) : EOut :=
  let f := fmtE e
  outCode e f ((sextN f.width (narrow f i.x) / (2 ^ shN i : Nat)) % (2 ^ f.width : Nat)).toNat
def fxRot (e : Entry) (i : EIn) : EOut :=
  let f := fmtE e
  let n := shN i % f.width
  let c := narrow f i.x
  outCode e f (c * 2 ^ n % 2 ^ f.width + c / 2 ^ (f.width - n))
def fxClz (e : Entry) (i : EIn) : EOut := outCode e (fmtE e) (clzN (fmtE e).width (narrow (fmtE e) i.x))
def fxCtz (e : Entry) (i : EIn) : EOut := outCode e (fmtE e) (ctzN (fmtE e).width (narrow (fmtE e) i.x))
def fxPopc (e : Entry) (i : EIn) : EOut := outCode e (fmtE e) (popN (fmtE e).width (narrow (fmtE e) i.x))
def fxBrev (e : Entry) (i : EIn) : EOut := outCode e (fmtE e) (brevN (fmtE e).width (narrow (fmtE e) i.x))

/-- The field of a control word within w bits: position and length, clipped (R126). -/
def fieldOf (w : Nat) (c : Word) : Nat × Nat :=
  let pos := bits c 5 0
  let len := bits c 11 6 + 1
  (pos, if w ≤ pos then 0 else if w < pos + len then w - pos else len)
def fxExt (e : Entry) (i : EIn) : EOut :=
  let f := fmtE e
  let p := fieldOf f.width i.y
  let v := narrow f i.x / 2 ^ p.1 % 2 ^ p.2
  match f with
  | .int true _ => out e (wrapI f (if p.2 = 0 then 0 else sextN p.2 v))   -- an empty field: DESIGN CHOICE, log 41
  | _ => outCode e f v
def fxIns (e : Entry) (i : EIn) : EOut :=
  let f := fmtE e
  let p := fieldOf f.width i.y
  let b := narrow f (locE e i.bank)
  let old := b / 2 ^ p.1 % 2 ^ p.2
  outCode e f (b - old * 2 ^ p.1 + narrow f i.x % 2 ^ p.2 * 2 ^ p.1)

/-! ### Conversions (R127 to R131) -/

/-- R96: a value times 2^(c − 127); code 0xFF is NaN. -/
def scaleVal (v : Val) (c : Nat) : Val :=
  if c = 255 then nanOf
  else
    match v with
    | .fin n m e st => .fin n m (e + (c : Int) - 127) st
    | v => v

/-- R134, R155: the effect of a data-dependent length with EB set. -/
def withLen (e : Entry) (eb : Bool) (len : Nat) (o : EOut) : EOut :=
  if eb then
    if len = bndE e then { o with bound := true }
    else if bndE e < len then { o with ovr := some len }
    else o
  else o

def fxCvt (e : Entry) (i : EIn) : EOut :=
  let sf := fmtOf (e.imm.extractLsb' 0 4) (e.imm.extractLsb' 4 3)
  let df := fmtE e
  let rmc := e.imm.toNat / 128 % 8
  let rm := if rmc = 4 then Rm.sr (i.y.toNat % 2 ^ 32) else Rm.ofNat rmc
  let h := i.bank.dhdr
  let v0 := valOf sf i.x
  let scaled := e.imm.toNat % 16 == 15 && i.bank.dv && bits h 18 15 == 15 && bits h 21 19 == e.imm.toNat / 16 % 8 && bit h 14
  let v := if scaled then scaleVal v0 (bits h 47 40) else v0
  let o := { outVal e df rm false v v0.isSnan with nar := v.isNan }
  withLen e (e.md.getLsbD 3) (match sf with | .tap n _ => tapRun n (narrow sf i.x) | _ => 0) o

/-- The destination of DEC (R128). -/
def decDst (f : Fmt) : Fmt :=
  match f with
  | .int _ w => if 32 ≤ w then f64 else f32
  | .ieee w _ _ => if 32 ≤ w then f64 else f32
  | .tap n _ => if n = 32 then f64 else f32
  | _ => f32
def fxDec (e : Entry) (i : EIn) : EOut :=
  let h := i.bank.dhdr
  let hd := e.fmt == 15 && i.bank.dv
  let sf := if hd then fmtOf (BitVec.ofNat 4 (bits h 18 15)) (BitVec.ofNat 3 (bits h 21 19)) else fmtE e
  let v0 := valOf sf i.x
  let v := if hd && bit h 14 then scaleVal v0 (bits h 47 40) else v0
  let o := { outVal e (decDst sf) .rne false v v0.isSnan with nar := v.isNan }
  withLen e (e.fmt != 15 && e.md.getLsbD 3) (match sf with | .tap n _ => tapRun n (narrow sf i.x) | _ => 0) o
def fxEnc (e : Entry) (i : EIn) : EOut :=
  let df := fmtE e
  let sf := if df == t32 then f64 else f32
  let v := valOf sf i.x
  { outVal e df (if e.fmt = 15 then .rne else Rm.ofNat (e.md.toNat % 4)) false v v.isSnan with nar := v.isNan }

/-- Slot width and count of a format (R102, R130). -/
def slotsOf (f : Fmt) : Nat × Nat := (f.width, f.perToken)
def fxPack (e : Entry) (i : EIn) : EOut :=
  let p := slotsOf (fmtE e)
  let j := bits i.y 4 0
  let b := (locE e i.bank).toNat
  if p.2 ≤ j then out e (locE e i.bank)
  else out e (BitVec.ofNat 64 (b - b / 2 ^ (p.1 * j) % 2 ^ p.1 * 2 ^ (p.1 * j) + i.x.toNat % 2 ^ p.1 * 2 ^ (p.1 * j)))
def fxUnpk (e : Entry) (i : EIn) : EOut :=
  let h := i.bank.dhdr
  let f := if i.bank.dv then fmtOf (BitVec.ofNat 4 (bits h 18 15)) (BitVec.ofNat 3 (bits h 21 19)) else fmtE e
  let p := slotsOf f
  let j := bits i.y 4 0
  if p.2 ≤ j then out e 0 else out e (BitVec.ofNat 64 (i.x.toNat / 2 ^ (p.1 * j) % 2 ^ p.1))

/-- A finite value rounded to an integral one. -/
def roundInt (rm : Rm) (v : Val) : Val :=
  match v with
  | .fin n m e st => .fin n (roundAt rm n m e 0 st) 0 false
  | v => v
def fxRnd (e : Entry) (i : EIn) : EOut :=
  let f := fmtE e
  let v := valOf f i.x
  outVal e f .rne false (roundInt (modRm e) v) (f.isIeee && v.isSnan)

/-! ### Roots, exponentials, logarithms, division (R132 to R134) -/

/-- ln 2 × 2^400, rounded down. -/
def ln2 : Nat := 1789879222497203190815761498240779176894896805856420935579692301363062920687047601279850318367644315849030039181347319086

/-- The series of exp(z) with z = t ÷ 2^400: `n` terms from number `k` on, `u` being the last term. -/
def expSeries (t : Nat) : Nat → Nat → Nat → Nat → Nat
  | 0, _, _, acc => acc
  | n + 1, k, u, acc =>
    let u := u * t / 2 ^ 400 / k
    expSeries t n (k + 1) u (acc + u)

/-- 2^f × 2^320 for f = t ÷ 2^400 below 1, rounded down. -/
def exp2Frac (t : Nat) : Nat :=
  let v := expSeries (t * ln2 / 2 ^ 400) 110 1 (2 ^ 400) (2 ^ 400) / 2 ^ 80
  if 2 ^ 321 ≤ v then 2 ^ 321 - 1 else v

/-- 2^x for a finite x. Beyond ±4,096 every format has overflowed or underflowed. -/
def exp2Fin (n : Bool) (m : Nat) (e : Int) : Val :=
  if m = 0 then .fin false 1 0 false
  else if 12 < (m.log2 : Int) + e then .fin false 1 (if n then -8192 else 8192) true
  else
    let w := if 0 ≤ e then shl m e else m / 2 ^ (-e).toNat                      -- whole part of |x|
    let fr := if 0 ≤ e then 0 else m % 2 ^ (-e).toNat                           -- fraction of |x|, units 2^e
    if fr = 0 then .fin false 1 (if n then - (w : Int) else w) false
    else
      let k := (-e).toNat
      -- x = whole + t ÷ 2^k with 0 < t < 2^k
      let whole : Int := if n then - (w : Int) - 1 else w
      let t := if n then 2 ^ k - fr else fr
      let t400 := t * 2 ^ 400 / 2 ^ k
      .fin false (exp2Frac t400) (whole - 320) true

/-- Digits of log2 of y = v ÷ 2^600 in [1, 2), by squaring. -/
def log2Digits : Nat → Nat → Nat → Nat
  | 0, _, acc => acc
  | n + 1, v, acc =>
    let q := v * v / 2 ^ 600
    if 2 ^ 601 ≤ q then log2Digits n (q / 2) (2 * acc + 1) else log2Digits n q (2 * acc)

/-- log2 of a positive finite value. -/
def log2Fin (m : Nat) (e : Int) : Val :=
  let b := m.log2
  let E : Int := (b : Int) + e
  if m = 2 ^ b then .fin (E < 0) E.natAbs 0 false
  else
    let d := log2Digits 256 (m * 2 ^ 600 / 2 ^ b) 0
    if 0 ≤ E then .fin false (E.toNat * 2 ^ 256 + d) (-256) true
    else .fin true (E.natAbs * 2 ^ 256 - d - 1) (-256) true

/-- R134: significand bits of a result from its leading 1 to its lowest 1, in groups of four. -/
def sigLen (v : Val) : Nat :=
  match v with
  | .fin _ m _ _ => if m = 0 then 1 else cdiv (m.log2 + 1 - ctzN (m.log2 + 1) m) 4
  | _ => 1
def lenOf (f : Fmt) (w : Word) : Nat := sigLen (valOf f w)

def outLen (e : Entry) (f : Fmt) (o : EOut) : EOut := withLen e (e.md.getLsbD 3) (lenOf f o.res) o

/-- RCP (R132), and RCP, RSQ, SQRT, LOG2 of a value T has no result for (R92). -/
def fxRcp (e : Entry) (i : EIn) : EOut :=
  let f := fmtE e
  let v := valOf f i.x
  let r : Val × Bool :=
    match v with
    | .inf n => (.fin n 0 0 false, false)
    | .fin n m x _ => if m = 0 then (if f.isTap then (.nar, true) else (.inf n, false)) else (divFin false 1 0 n m x, false)
    | v => (v, v.isSnan)
  outLen e f (outVal e f (modRm e) false r.1 r.2)
def fxRsq (e : Entry) (i : EIn) : EOut :=
  let f := fmtE e
  let v := valOf f i.x
  let r : Val × Bool :=
    match v with
    | .inf n => if n then (nanOf, true) else (.zero, false)
    | .fin n m x _ =>
      if m = 0 then (if f.isTap then (.nar, true) else (.inf n, false))
      else if n then (nanOf, true)
      else
        -- 1/√x = √(1/x): x = m 2^x, made exact enough by a quotient of 2^(2k)
        let sh : Nat := 600 + (if x % 2 = 0 then 0 else 1)
        let q := 2 ^ (sh + 2 * (m.log2 + 1)) / m
        let s := isqrt q
        (.fin false s (((- x) - sh - 2 * (m.log2 + 1)) / 2) (s * s * m != 2 ^ (sh + 2 * (m.log2 + 1))), false)
    | v => (v, v.isSnan)
  outLen e f (outVal e f (modRm e) false r.1 r.2)
def fxSqrt (e : Entry) (i : EIn) : EOut :=
  let f := fmtE e
  let v := valOf f i.x
  let r : Val × Bool :=
    match v with
    | .inf n => if n then (nanOf, true) else (.inf false, false)
    | .fin n m x _ => if m = 0 then (v, false) else if n then (nanOf, true) else (sqrtFin m x, false)
    | v => (v, v.isSnan)
  outLen e f (outVal e f (modRm e) false r.1 r.2)
def fxExp2 (e : Entry) (i : EIn) : EOut :=
  let f := fmtE e
  let v := valOf f i.x
  let r : Val × Bool :=
    match v with
    | .inf n => (if n then .zero else .inf false, false)
    | .fin n m x _ => (exp2Fin n m x, false)
    | v => (v, v.isSnan)
  outVal e f (modRm e) false r.1 r.2
def fxLog2 (e : Entry) (i : EIn) : EOut :=
  let f := fmtE e
  let v := valOf f i.x
  let r : Val × Bool :=
    match v with
    | .inf n => if n then (nanOf, true) else (.inf false, false)
    | .fin n m x _ =>
      if m = 0 then (if f.isTap then (.nar, true) else (.inf true, false)) else if n then (nanOf, true) else (log2Fin m x, false)
    | v => (v, v.isSnan)
  outVal e f (modRm e) false r.1 r.2

/-- Integer DIV (R133), truncated toward zero; the length of R134 on the exact quotient. -/
def idiv (e : Entry) (f : Fmt) (a b : Int) : EOut :=
  if b = 0 then
    let top : Int := match f with | .int true w => (2 ^ (w - 1) : Nat) - 1 | _ => (2 ^ f.width : Nat) - 1
    let low : Int := match f with | .int true w => - (2 ^ (w - 1) : Nat) | _ => top
    withLen e (e.md.getLsbD 3) 1 { out e (wrapI f (if a < 0 then low else top)) with inv := true }
  else
    let q := a.tdiv b
    let len := if q = 0 then 1 else cdiv (q.natAbs.log2 + 1) 4
    let o := if e.md.getLsbD 0 then (let r := satI f q; { out e r.1 with sat := r.2 }) else out e (wrapI f q)
    withLen e (e.md.getLsbD 3) len o
/-- R92, R132, R134. A NaR dividend over 0 meets two rows of R92; that it sets no flag, as any NaR source, is DESIGN CHOICE,
log 42. -/
def fxDiv (e : Entry) (i : EIn) : EOut :=
  let f := fmtE e
  if f.isInt then idiv e f (intOf f i.x) (intOf f i.y)
  else
    let a := valOf f i.x
    let b := valOf f i.y
    let r : Val × Bool :=
      match a, b with
      | .nar, _ | _, .nar => (.nar, false)
      | .nan _ _, _ | _, .nan _ _ => (nanOf, a.isSnan || b.isSnan)
      | .inf _, .inf _ => (nanOf, true)
      | .inf n, .fin p _ _ _ => (.inf (n != p), false)
      | .fin n _ _ _, .inf p => (.fin (n != p) 0 0 false, false)
      | .fin n m x _, .fin p q z _ =>
        if q = 0 then (if f.isTap || m = 0 then (nanOf, true) else (.inf (n != p), false))
        else if m = 0 then (.fin (n != p) 0 0 false, false)
        else (divFin n m x p q z, false)
    outLen e f (outVal e f (modRm e) false r.1 r.2)

/-! ### Tables, counters, hashing, statistics (R135 to R137, R141) -/

def fxLut (e : Entry) (i : EIn) : EOut :=
  let j := bits i.x 3 0
  let h := bits (i.bank.loc (j / 4)) (16 * (j % 4) + 15) (16 * (j % 4))
  match fmtE e with
  | .int true w => out e (wrapI (.int true w) (sextN 16 h))
  | f => outCode e f (h % 2 ^ f.width)
def fxCnt (e : Entry) (i : EIn) : EOut :=
  let v := match e.md.toNat with | 0 => i.idx | 1 => i.iter | 2 => i.cnt | _ => i.ioff
  outCode e (fmtOf e.fmt 0) (v + i.x).toNat
def fxHash (e : Entry) (i : EIn) : EOut :=
  let z : Word := i.x + i.y * 0x9E3779B97F4A7C15
  let z : Word := (z ^^^ (z >>> 30)) * 0xBF58476D1CE4E5B9
  let z : Word := (z ^^^ (z >>> 27)) * 0x94D049BB133111EB
  let z : Word := z ^^^ (z >>> 31)
  out e (if e.fmt = 7 then z else z >>> 32)
/-- The sum of two counts of 16 bits, stopping at 0xFFFF. -/
def addCap (a b : Nat) : Nat := if 0xFFFF < a + b then 0xFFFF else a + b
def mergeTok (a b : Word) : Word :=
  at_ (addCap (bits a 63 48) (bits b 63 48)) 48 ||| at_ (addCap (bits a 47 32) (bits b 47 32)) 32
    ||| at_ (addCap (bits a 31 16) (bits b 31 16)) 16 ||| at_ (addCap (bits a 15 0) (bits b 15 0)) 0
def fxStat (e : Entry) (i : EIn) : EOut := { out e (mergeTok (mergeTok i.x i.y) i.bank.tokc) with clrTok := true }

/-- The effect of an entry by its opcode (R52); DROP and VOID have none and give x. -/
def effect (op : BitVec 6) (e : Entry) (i : EIn) : EOut :=
  match op.toNat with
  | 0x01 => fxMov e i | 0x02 => fxPass e i | 0x04 => fxSel e i | 0x05 => fxCswp e i | 0x06 => fxSend e i
  | 0x07 => if e.md = 0 then fxHdrLoad e i else fxHdrBuild e i
  | 0x08 => fxAdd e i | 0x09 => fxSub e i | 0x0a => fxMul e i | 0x0b => fxMulh e i | 0x0c => fxMac e i | 0x0d => fxMsb e i
  | 0x0e => fxMin e i | 0x0f => fxMax e i | 0x10 => fxAbs e i | 0x11 => fxNeg e i | 0x12 => fxSat e i | 0x13 => fxCmp e i
  | 0x14 => fxTest e i | 0x15 => fxMaxi e i | 0x16 => fxMini e i
  | 0x18 => fxAnd e i | 0x19 => fxOr e i | 0x1a => fxXor e i | 0x1b => fxAndn e i | 0x1c => fxNot e i | 0x1d => fxExt e i
  | 0x1e => fxIns e i | 0x20 => fxShl e i | 0x21 => fxShr e i | 0x22 => fxSar e i | 0x23 => fxRot e i | 0x24 => fxClz e i
  | 0x25 => fxCtz e i | 0x26 => fxPopc e i | 0x27 => fxBrev e i
  | 0x28 => fxCvt e i | 0x29 => fxDec e i | 0x2a => fxEnc e i | 0x2b => fxPack e i | 0x2c => fxUnpk e i | 0x2d => fxRnd e i
  | 0x30 => fxRcp e i | 0x31 => fxRsq e i | 0x32 => fxExp2 e i | 0x33 => fxLog2 e i | 0x34 => fxDiv e i | 0x35 => fxSqrt e i
  | 0x36 => fxLut e i | 0x38 => fxCnt e i | 0x39 => fxHash e i | 0x3a => fxStat e i
  | _ => { res := i.x }

/-! ### Timing (R147 to R152) -/

/-- A row of four figures, VB0 to VB3. -/
def row (a b c d : Nat) (bin : Nat) : Nat :=
  match bin with
  | 0 => a | 1 => b | 2 => c | _ => d
def lam (bin : Nat) : Nat := row 2 2 3 3 bin
def hop (link bin : Nat) : Nat := if link < 4 then row 3 3 4 4 bin else row 5 6 6 7 bin
def cmpRow (w bin : Nat) : Nat :=
  if w ≤ 8 then row 4 5 5 6 bin else if w ≤ 16 then row 6 7 7 8 bin else if w ≤ 32 then row 8 9 10 11 bin else row 12 13 15 16 bin
def encDelay (f : Fmt) (bin : Nat) : Nat :=
  match f with
  | .tap n _ => if n ≤ 8 then row 8 9 10 11 bin else if n ≤ 16 then row 10 11 12 14 bin else row 14 15 17 19 bin
  | _ => row 8 9 10 11 bin
/-- DEC of a tapered code at regime run m (R150). -/
def tapDec (n m bin : Nat) : Nat :=
  if n ≤ 8 then row 8 9 10 11 bin + row 1 1 2 2 bin * (m - 2)
  else if n ≤ 16 then row 10 11 12 14 bin + row 1 1 2 2 bin * (m - 2)
  else row 12 13 15 16 bin + row 1 1 2 2 bin * cdiv (m - 2) 2
/-- The run at which a tapered decode is scheduled: BND with EB, otherwise the worst case. -/
def decRun (n : Nat) (eb : Bool) (bnd : Nat) : Nat := if eb then bnd else n - 1
def decDelay (f : Fmt) (eb : Bool) (bnd bin : Nat) : Nat :=
  match f with
  | .tap n _ => tapDec n (decRun n eb bnd) bin
  | .lg6 => row 6 7 7 8 bin
  | _ => row 4 4 5 6 bin
/-- The source format of a CVT. -/
def cvtFmt (e : Entry) : Fmt := fmtOf (e.imm.extractLsb' 0 4) (e.imm.extractLsb' 4 3)
/-- The stages of a CVT (R151): that of its source, and that of its destination with SR. -/
def cvtSource (e : Entry) (bin : Nat) : Nat :=
  match cvtFmt e with
  | .int _ _ => row 4 4 5 6 bin
  | .ieee w _ _ => if w = 64 then row 4 4 5 6 bin else row 2 2 3 3 bin
  | f => decDelay f (e.md.getLsbD 3) (bndE e) bin
def cvtDest (e : Entry) (bin : Nat) : Nat :=
  (match fmtE e with
   | .int _ _ => row 6 7 7 8 bin
   | .ieee w _ _ => if w = 64 then row 8 9 10 11 bin else row 6 7 7 8 bin
   | f => encDelay f bin) + (if e.imm.toNat / 128 % 8 = 4 then row 2 2 3 3 bin else 0)
def cvtDelay (e : Entry) (bin : Nat) : Nat := cvtSource e bin + cvtDest e bin

/-- The largest length of R134 for a format (R152). -/
def maxLen (f : Fmt) : Nat :=
  match f with
  | .int _ w => w / 4
  | .ieee w eb _ => if w = 16 then (if eb = 5 then 3 else 2) else if w = 32 then 6 else 14
  | .tap n _ => if n = 8 then 2 else if n = 16 then 4 else 7
  | _ => 1

/-- Played cycles of an entry (R152). -/
def cyclesOf (op : BitVec 6) (e : Entry) : Nat :=
  let f := fmtE e
  let mulLike := op = 0x0a || op = 0x0c || op = 0x0d
  let iter : Nat := 1 + cdiv (if e.md.getLsbD 3 then bndE e else maxLen f) 2
  match op.toNat with
  | 0x08 | 0x09 => if f == t32 then 2 else 1
  | 0x0a | 0x0b | 0x0c | 0x0d =>
    if (f.isInt && f.width = 64) || (mulLike && (f == f64 || f == t32)) || ((op = 0x0c || op = 0x0d) && f == t16) then 2 else 1
  | 0x2d => if f == t32 then 2 else 1
  | 0x39 => 2
  | 0x32 | 0x33 => if f == f64 || f == t32 then 4 else 2
  | 0x28 => if 57 < cvtDelay e 3 then 2 else 1
  | 0x30 | 0x31 | 0x34 | 0x35 => iter
  | _ => 1

/-- The delay of a single-cycle opcode (R147 to R151); `dv` says that a header is loaded. -/
def delayOf (op : BitVec 6) (e : Entry) (dv : Bool) (bin : Nat) : Nat :=
  let f := fmtE e
  let w := f.width
  let cmpD := match f with
    | .ieee w _ _ => if w = 16 then row 8 9 10 11 bin else if w = 32 then row 10 11 12 14 bin else row 14 15 17 19 bin
    | _ => cmpRow w bin
  let h := match f with | .ieee w _ _ => w | .tap n _ => 100 + n | _ => 0
  match op.toNat with
  | 0x01 | 0x02 | 0x04 | 0x06 => row 2 2 3 3 bin
  | 0x07 => if e.md = 0 then row 4 4 5 6 bin else row 2 2 3 3 bin
  | 0x18 | 0x19 | 0x1a | 0x1b | 0x1c | 0x2b | 0x2c => row 3 3 4 4 bin
  | 0x36 => row 4 4 5 6 bin
  | 0x3a => row 6 7 7 8 bin
  | 0x08 | 0x09 =>
    match h with
    | 16 => row 16 18 20 22 bin | 32 => row 24 27 30 33 bin | 64 => row 40 44 49 54 bin
    | 108 => row 20 22 24 27 bin | 116 => row 34 38 42 46 bin | _ => cmpD
  | 0x05 | 0x0e | 0x0f | 0x10 | 0x11 | 0x12 | 0x13 | 0x14 | 0x15 | 0x16 | 0x38 => cmpD
  | 0x20 | 0x21 | 0x22 | 0x23 | 0x27 | 0x1d | 0x1e => if w = 64 then row 6 7 7 8 bin else row 5 6 6 7 bin
  | 0x24 | 0x25 | 0x26 =>
    if w ≤ 16 then row 5 6 6 7 bin else if w = 32 then row 7 8 9 10 bin else row 9 10 11 12 bin
  | 0x0a | 0x0b =>
    match h with
    | 16 => row 18 20 22 25 bin | 32 => row 28 31 34 38 bin | 108 => row 22 24 27 30 bin | 116 => row 36 40 44 49 bin
    | _ => if w = 8 then row 10 11 12 14 bin else if w = 16 then row 16 18 20 22 bin else row 26 29 32 36 bin
  | 0x0c | 0x0d =>
    match h with
    | 16 => row 24 27 30 33 bin | 32 => row 36 40 44 49 bin | 108 => row 28 31 34 38 bin
    | _ => if w = 8 then row 12 13 15 16 bin else if w = 16 then row 20 22 25 27 bin else row 30 33 37 41 bin
  | 0x2d =>
    match h with
    | 64 => row 10 11 12 14 bin | 108 => row 20 22 24 27 bin | 116 => row 34 38 42 46 bin | _ => row 8 9 10 11 bin
  | 0x2a => encDelay f bin
  | 0x29 => if e.fmt = 15 && dv then row 8 9 10 11 bin else decDelay f (e.fmt != 15 && e.md.getLsbD 3) (bndE e) bin
  | 0x28 => cvtDelay e bin
  | _ => 0

/-- The delay of a single-cycle opcode on a value: the figure of a tapered DEC follows the run of its source (R150), and so does
the source stage of a tapered CVT (R151; DEDUCED, log 30). -/
def delayAt (op : BitVec 6) (e : Entry) (dv : Bool) (x : Word) (bin : Nat) : Nat :=
  match op.toNat, fmtE e, cvtFmt e with
  | 0x29, .tap n w, _ => tapDec n (tapRun n (narrow (.tap n w) x)) bin
  | 0x28, _, .tap n w => tapDec n (tapRun n (narrow (.tap n w) x)) bin + cvtDest e bin
  | _, _, _ => delayOf op e dv bin

end Sys2Proof.Machine
end

