-- ==== Sys2Proof/Machine/Region.lean ====
section
/-! DEFINITION. Regions and their elements: geometry (R17), what SYS.RD reports of them (R28), halting (R186) and the
start token (R20, R185). -/

namespace Sys2Proof.Machine

/-- The pages of a region's place, row by row. -/
def Region.pages (g : Region) : List Nat :=
  (List.range g.h).flatMap fun j => (List.range g.w).map fun i => 4 * (g.y0 + j) + (g.x0 + i)
/-- The elements of a region: 16 × page + place in the page. -/
def Region.els (g : Region) : List Nat := g.pages.flatMap fun p => (List.range 16).map fun e => 16 * p + e
/-- The number of an element's bank in the region's physical context. -/
def Region.bankNo (g : Region) (el : Nat) : Nat := 256 * g.ctx.toNat + el
/-- The element at a column and row of the cluster's 16 × 16 elements. -/
def elAt (x y : Nat) : Nat := 16 * (4 * (y / 4) + x / 4) + (4 * (y % 4) + x % 4)
def elX (el : Nat) : Nat := 4 * (el / 16 % 4) + el % 4
def elY (el : Nat) : Nat := 4 * (el / 64) + el % 16 / 4

/-- The regions of a take on a cluster, by ascending RID; a RID is a physical context and a page (R17). -/
def State.regionsOf (s : State) (cl take : Nat) : List (Nat × Region) :=
  ((List.range 64).map fun r => (r, s.region cl r)).filter fun x => x.2.take == take && x.2.rstate != .idle

/-- XFSUM (R28). -/
def State.xfsum (s : State) (cl take : Nat) : BitVec 4 :=
  (s.regionsOf cl take).foldl (fun v x => x.2.els.foldl (fun v e => v ||| (s.bank cl (x.2.bankNo e)).xf) v) 0

/-- The code RGSTAT gives a state; higher codes win (R28). -/
def RState.rank : RState → Nat
  | .idle => 0 | .halted => 1 | .armed => 2 | .delay => 3 | .run => 4 | .frozen => 5 | .replay => 6
/-- RGSTAT (R28). -/
def State.rgstat (s : State) (cl take : Nat) : Word :=
  (List.range 4).foldl (fun v k =>
    v ||| at_ ((s.regionsOf cl take).foldl (fun m x => if x.2.ctx.toNat = k then max m x.2.rstate.rank else m) 0) (3 * k)) 0

/-- Discard the pending results of a region (R186). -/
def State.dropPend (s : State) (cl : Nat) (g : Region) : State :=
  s.updCluster cl fun c => { c with banks := g.els.foldl (fun b e => tupd {} b (g.bankNo e) fun x => { x with pend := none }) c.banks }

/-- The tokens that a region has sent become committable: it has passed a restart point, or is halted and never replays
(R336, R186). -/
def State.releaseTokens (s : State) (cl rid : Nat) : State :=
  s.updCluster cl fun c => { c with
    outp := tmap {} (fun _ (p : OutPort) =>
      { p with held := p.held.map fun t => if t.rid = some rid then { t with rid := none } else t }) c.outp }

/-- Halt a region (R186): a region already HALTED or IDLE is unchanged. Its ARB bits are dropped (R310). -/
def State.haltRegion (s : State) (cl rid : Nat) : State :=
  let g := s.region cl rid
  if g.rstate = .halted || g.rstate = .idle then s
  else ((s.updRegion cl rid fun g => { g with rstate := .halted, arb := 0 }).dropPend cl g).releaseTokens cl rid

/-- Ask for the halt of a region (R186): a region in a hold halts at once, any other at the next cycle boundary. -/
def State.askHalt (s : State) (cl rid : Nat) : State :=
  if (s.region cl rid).rstate = .halted then s
  else if (s.region cl rid).held then s.haltRegion cl rid else s.updRegion cl rid fun g => { g with halting := true }

/-- Ask for the halt of the regions of a take on a cluster that satisfy `p`. -/
def State.haltRegions (s : State) (cl take : Nat) (p : Region → Bool) : State :=
  (s.regionsOf cl take).foldl (fun s x => if p x.2 then s.askHalt cl x.1 else s) s

/-- The cycle boundary (R186): the regions that a halt was asked for halt. -/
def State.haltAsked (s : State) : State :=
  s.clusters.foldl (fun s c => c.2.regions.foldl (fun s g =>
    if (s.region c.1 g.1).halting then (s.updRegion c.1 g.1 fun g => { g with halting := false }).haltRegion c.1 g.1 else s) s) s

/-- The scene that a take has resident, and its slate. -/
def Take.sceneRec (t : Take) : Option Scene := t.reel.scenes[t.scene]?
def Take.slate (t : Take) : Slate :=
  match t.sceneRec with
  | some x => x.slate
  | none => { vbin := 0, pats := [], zones := [], psets := [], regions := [] }

/-! ### Voltage floors (R145, R146) -/

/-- The rail voltage in mV that a bin needs (R145). -/
def binFloor (b : BitVec 2) : Nat :=
  match b.toNat with
  | 0 => 800 | 1 => 720 | 2 => 660 | _ => 600

/-- The floor of a pair (R146): the highest bin voltage among the slates resident on either of its strata, and the
lowest bin voltage when there is none. -/
def State.floorOf (s : State) (pair : Nat) : Nat :=
  s.takes.foldl (fun m t =>
    if t.places.any fun p => pairOf p.cl == pair then max m (binFloor t.slate.vbin) else m) 600

/-- The voltage that the power controller sets: the highest of VREQ, the floor and the overrun hold (R375); on a die that is
not in full service 0.80 V (R381; DEDUCED for the states before REDUCED, log 25). -/
def State.target (s : State) (pair : Nat) : Nat :=
  let p := s.pair pair
  if (s.die (pair / 32)).st = .full then max (max p.vreq.toNat (s.floorOf pair)) (if p.hold then p.holdV.toNat else 0) else 800

/-- Is a rail within 2 mV of its target (R374)? -/
def Pair.near (p : Pair) : Bool := p.vnow.toNat ≤ p.aim.toNat + 2 && p.aim.toNat ≤ p.vnow.toNat + 2
/-- R374: since when a rail has been near its target; one that is not has not settled. -/
def Pair.judge (p : Pair) (now : Nat) : Pair :=
  if p.near then { p with since := some (p.since.getD now) } else { p with settled := false, since := none }

/-- R374: the voltage that the rail of a pair is to have becomes `mv`. -/
def Pair.move (p : Pair) (mv now : Nat) : Pair := ({ p with aim := BitVec.ofNat 10 mv } : Pair).judge now

/-- The rail moves when the voltage that the power controller sets has changed. -/
def State.retarget (s : State) (pair : Nat) : State := s.updPair pair fun p => p.move (s.target pair) s.cycle

/-- R374: a rail on its way makes 10 mV, or what is left, and then none for 600 cycles. That it moves in such steps, and how
much longer than that it needs for one, is the model's (log 10, 25). -/
def Pair.ramp (p : Pair) (pair now : Nat) : Pair :=
  if p.vnow == p.aim || now < p.rampAt then p
  else
    let v := if p.vnow < p.aim then min p.aim.toNat (p.vnow.toNat + 10) else max p.aim.toNat (p.vnow.toNat - 10)
    ({ p with vnow := BitVec.ofNat 10 v, rampAt := now + 600 + Config.railExtra pair now } : Pair).judge now

/-- R374: has a rail stayed near its target for 600 cycles? -/
def Pair.steady (p : Pair) (now : Nat) : Bool := p.since.any fun c => c + 600 ≤ now

/-- Has the rail of a pair settled at the voltage of its overrun hold (R157)? -/
def Pair.holds (p : Pair) : Bool := p.settled && p.holdV.toNat ≤ p.vnow.toNat
/-- R157: the 2^20 cycles of a hold run from the cycle in which the rail has settled at its voltage, so that what overran has
been played again before it ends (DEDUCED, log 25). -/
def Pair.startHold (p : Pair) (now : Nat) : Pair :=
  if p.hold && p.holdEnd.isNone && p.holds then { p with holdEnd := some (now + 2 ^ 20) } else p

/-- May a region of a cluster start: the rail has settled since a load that raised the floor, and is not below the
floor (R146). -/
def State.railOk (s : State) (cl : Nat) (g : Region) : Bool :=
  !g.railWait && s.floorOf (pairOf cl) ≤ (s.pair (pairOf cl)).vnow.toNat

/-- A start token reaches a region (R20, R185): ARMED becomes DELAY, or RUN when SOFF is 0; while the rail has not
settled at the floor the region stays ARMED and the token is kept (R146). -/
def State.startRegion (s : State) (cl rid : Nat) : State :=
  if (s.region cl rid).rstate = .armed then
    if s.railOk cl (s.region cl rid) then
      s.updRegion cl rid fun g =>
        if g.soff = 0 then { g with rstate := .run, token := false }
        else { g with rstate := .delay, soffLeft := g.soff, token := false }
    else s.updRegion cl rid fun g => { g with token := true }
  else s

/-! ### Replay (R334 to R336) -/

/-- The buffers of a bank that a lane of a logical port fills: A, B (R14, R391). -/
def laneCode (lp lane : Nat) : BitVec 9 := BitVec.ofNat 9 (256 + 16 * lp + lane)
def Bank.fillsA (b : Bank) (lp lane : Nat) : Bool := b.afill == laneCode lp lane && b.adep != 0
def Bank.fillsB (b : Bank) (lp lane : Nat) : Bool := b.bfill == laneCode lp lane && b.bdep != 0
def Bank.reads (b : Bank) (lp : Nat) : Bool :=
  (b.adep != 0 && b.afill.toNat / 16 == 16 + lp) || (b.bdep != 0 && b.bfill.toNat / 16 == 16 + lp)

/-- Does a region name a lane of a logical port, and any lane of it? -/
def State.namesLane (s : State) (cl : Nat) (g : Region) (lp lane : Nat) : Bool :=
  g.els.any fun e => (s.bank cl (g.bankNo e)).fillsA lp lane || (s.bank cl (g.bankNo e)).fillsB lp lane
def State.readsPort (s : State) (cl : Nat) (g : Region) (lp : Nat) : Bool :=
  g.els.any fun e => (s.bank cl (g.bankNo e)).reads lp

/-- The lowest input port on which a region's window is LOST (R336). -/
def State.lostPort (s : State) (cl rid : Nat) : Option Nat :=
  ((s.cluster cl).inp.find? fun x => x.2.cons.any fun c => c.rid == rid && c.lost).map (·.1)

/-- The logical number by which a take knows a physical port (R301). -/
def Take.logical (t : Take) (cl : Nat) (out : Bool) (p : Nat) : Nat :=
  match t.placeOf cl with
  | some x => (unmapPort (if out then x.outMap else x.inMap) p).toNat
  | none => 0
/-- The physical port that a take's logical number names on a cluster. -/
def Take.physical (t : Take) (cl : Nat) (out : Bool) (lp : BitVec 4) : Option Nat :=
  match t.placeOf cl with
  | some x => (mapPort (if out then x.outMap else x.inMap) lp).map (·.toNat)
  | none => none

/-- REPLAY-LOST or DATA-LOST (R331, R336, R338): the take is aborted; the record names the lowest cluster and region. -/
def State.loseTake (s : State) (take code cl rid xport : Nat) : State :=
  let x := at_ code 56 ||| at_ (cl % 256) 48 ||| at_ (rid % 64) 42 ||| at_ (xport % 32) 37
  let names (t : Take) : Bool := if t.fr.x = 0 then !t.dying else bits x 55 42 < bits t.fr.x 55 42
  (s.updTake take fun t => if names t then { t with fr := { t.fr with fcode := BitVec.ofNat 8 code, x := x } } else t).askFreeze
    take (.abort 2)

/-- The bank as its restart shadow gives it; settings and entries are the slate's. -/
def Bank.restored (b sh : Bank) : Bank :=
  { sh with adep := b.adep, bdep := b.bdep, afill := b.afill, bfill := b.bfill, ents := b.ents, live := b.live }

/-- R335: roll a region back to its checkpoint, or before its first restart point to its state at scene load or restore
(R334, R342). `timing` waits for the rail; DATA goes on at once, unless a replay for TIMING still waits. A region that a
freeze has stopped goes on when the freeze ends. -/
def State.rollBack (s : State) (cl rid : Nat) (timing : Bool) : State :=
  let g := s.region cl rid
  let goes : RState := if timing || g.settleFor then .replay else .run
  let s := s.updCluster cl fun c => { c with
    banks := g.els.foldl (fun b e => tupd {} b (g.bankNo e) fun x => x.restored (tget {} g.shadow e)) c.banks
    -- a region that has played nothing since its checkpoint has sent nothing since
    outp := if g.fresh then c.outp else tmap {} (fun _ (p : OutPort) =>
      match p.held.find? fun t => t.rid == some rid with
      | some x => { p with held := p.held.filter (fun t => t.rid != some rid), nacc := x.elem }
      | none => p) c.outp
    inp := tmap {} (fun _ (p : InPort) =>
      { p with cons := p.cons.map fun x => if x.rid = rid then { x with rd := x.rptr } else x }) c.inp }
  let s := s.updRegion cl rid fun g => { g with
    rstate := if g.rstate = .frozen then .frozen else goes, was := if g.rstate = .frozen then some goes else g.was, settleFor := timing || g.settleFor
    cnt := g.rstamp, iter := g.riter, moved := false, held := false }
  s.updTake g.take fun t => { t with fr := { t.fr with replays := satInc t.fr.replays } }

/-- R331, R335, R336: a replay for cause TIMING or DATA. A second DATA abort before the next restart point is DATA-LOST;
a LOST window is REPLAY-LOST. A region that has not entered RUN has nothing to roll back. -/
def State.replay (s : State) (cl rid : Nat) (timing : Bool) : State :=
  let g := s.region cl rid
  if !timing && g.lostOnce then s.loseTake g.take codeDataLost cl rid 0
  else
    let s := if timing then s else s.updRegion cl rid fun g => { g with lostOnce := true }
    if g.running ≠ .run && g.running ≠ .replay then s
    else
      match s.lostPort cl rid with
      | some p =>
        match s.take? g.take with
        | some t => s.loseTake g.take codeReplayLost cl rid (t.logical cl false p + 1)
        | none => s
      | none => s.rollBack cl rid timing

end Sys2Proof.Machine
end

