-- ==== Sys2Proof/Machine/Ports.lean ====
section
/-! DEFINITION. Streams and ports: BIND, UNBIND, BARRIER, PORT.WAIT and the scoreboard (R30 to R32, R181 to R184), the
reads of input ports (R275), delivery to element buffers (R182), and the tiles of output ports (R273, R276). -/

namespace Sys2Proof.Machine

/-! ### Elements in memory -/

/-- The code that an element's unit at a key holds. -/
def Tensor.codeIn (ten : Tensor) (c : Coord) (unit : List Byte) : Nat :=
  ofBytes unit / 2 ^ ten.slotBit c.c0 % 2 ^ ten.elemFmt.width

/-- The bytes an element's code touches, within its unit, and their new values. -/
def Tensor.elemBytes (ten : Tensor) (c : Coord) (unit : List Byte) (v : Nat) : Nat × List Byte :=
  let sb := ten.slotBit c.c0
  let w := ten.elemFmt.width
  let all := toBytes ten.unit (putBits (ofBytes unit) sb w v)
  (sb / 8, (all.drop (sb / 8)).take ((sb % 8 + w + 7) / 8))

/-- The request that writes one element at a peer. -/
def Tensor.elemReq (ten : Tensor) (c : Coord) (v : Nat) : MemReq :=
  if ten.elemFmt.whole then .write (toBytes ten.unit v) else .bits ten.unit (ten.slotBit c.c0) ten.elemFmt.width v

/-- The SZ code of a whole-byte element, for updates at a peer. -/
def sizeOf (n : Nat) : Size := if n = 1 then .b else if n = 2 then .h else if n = 4 then .w else .d

/-- The update of a RANDOM or ORDERED output node (R276): an addition for F32, F16, BF16, T16 and the I and N formats,
none (a replace) for the others. -/
def updateOp (f : Fmt) : Option AmoOp :=
  if f == f32 then some .faddF32 else if f == f16 then some .faddF16 else if f == bf16 then some .faddBf16
  else if f == t16 then some .faddT16 else if f.isInt then some .add else none

/-! ### The port scoreboard (R32, R181, R183) -/

/-- Is the port BOUND after every command queued on it? -/
def willBind (b : Bool) : List PortCmd → Bool
  | [] => b
  | .bind _ :: t => willBind true t
  | .unbind :: t => willBind false t
  | .barrier :: t => willBind b t

/-- The consuming regions of a logical input port of a take. -/
def State.consumersOf (s : State) (cl : Nat) (t : Take) (lp : Nat) : List Nat :=
  ((s.regionsOf cl t.id).filter fun x => s.readsPort cl x.2 lp).map (·.1)

/-- A command on a port has completed: contexts in PORT.WAIT on the port wait for one command less (R184). -/
def State.cmdDone (s : State) (cl : Nat) (out : Bool) (p : Nat) : State :=
  let f (_ : Nat) (x : CueCtx) : CueCtx :=
    match x.wait with
    | some (.portWait o q n) => if o = out && q.toNat = p then { x with wait := some (.portWait o q (n - 1)) } else x
    | _ => x
  s.updCluster cl fun c => { c with ctx := tmap {} f c.ctx }

/-- An unbound input port, or output port, that keeps its PHASE and its other commands (R183). NSEQ and CSEQ go back to 0 here,
where a port is unbound and where it is bound anew, which R30 and R181 to R183 leave open (DESIGN CHOICE, log 51). -/
def InPort.cleared (p : InPort) : InPort := { phase := p.phase, cmds := p.cmds }
def OutPort.cleared (p : OutPort) : OutPort := { phase := p.phase, cmds := p.cmds }

/-- A DRAIN need not wait for a port that has committed everything and is unbound (R180). -/
def State.dropDrain (s : State) (cl p : Nat) : State :=
  let f (_ : Nat) (x : CueCtx) : CueCtx :=
    match x.stall with
    | some (.drain q es ps) => { x with stall := some (.drain q es (ps.filter fun y => y.1 != p)) }
    | _ => x
  s.updCluster cl fun c => { c with ctx := tmap {} f c.ctx }

/-- Complete the first command of an input port's queue, if it may complete now. -/
def State.inCmd (s : State) (cl p : Nat) : State :=
  let x := s.inPort cl p
  match x.cmds with
  | [] => s
  | .bind b :: rest =>
    match s.take? b.take with
    | none => s
    | some t =>
      let cons := (s.consumersOf cl t (t.logical cl false p)).map fun rid => (⟨rid, 0, 0, false⟩ : Consumer)
      (s.updIn cl p fun x => { x.cleared with cmds := rest, bound := some b, cons := cons }).cmdDone cl false p
  | .unbind :: rest => ((s.updIn cl p fun x => { x.cleared with cmds := rest }).staleIn cl p).cmdDone cl false p
  | .barrier :: rest => (s.updIn cl p fun x => { x with cmds := rest, phase := x.phase + 1 }).cmdDone cl false p

/-- The same for an output port: an unbind first ends the final tile and waits until every accepted token is committed,
unless the port is stopped (R183, R273, R276). -/
def State.outCmd (s : State) (cl p : Nat) : State :=
  let x := s.outPort cl p
  match x.cmds with
  | [] => s
  | .bind b :: rest => (s.updOut cl p fun x => { x.cleared with cmds := rest, bound := some b }).cmdDone cl true p
  | .unbind :: rest =>
    if x.stop || (x.held.isEmpty && x.wait.isEmpty) then
      ((s.updOut cl p fun x => { x.cleared with cmds := rest }).cmdDone cl true p).dropDrain cl p
    else s.updOut cl p fun x => { x with closing := true }
  | .barrier :: rest => (s.updOut cl p fun x => { x with cmds := rest, phase := x.phase + 1 }).cmdDone cl true p

def State.portCmd (s : State) (cl : Nat) (out : Bool) (p : Nat) : State := if out then s.outCmd cl p else s.inCmd cl p

/-- Queue a command; with none before it, it completes on entry if it can. -/
def State.enqueue (s : State) (cl : Nat) (out : Bool) (p : Nat) (x : PortCmd) : State :=
  if out then
    let first := (s.outPort cl p).cmds.isEmpty
    let s := s.updOut cl p fun q => { q with cmds := q.cmds ++ [x] }
    if first then s.outCmd cl p else s
  else
    let first := (s.inPort cl p).cmds.isEmpty
    let s := s.updIn cl p fun q => { q with cmds := q.cmds ++ [x] }
    if first then s.inCmd cl p else s

/-- BIND (R181). -/
def execBind (a b : Reg) (pat : BitVec 6) (hd hs : HReg) (node : Node) (out : Bool) (port : BitVec 4) (s : State) : Out :=
  match s.myTake with
  | none => .next s
  | some t =>
    match s.handle hs, s.handle hd with
    | .tensor tid, .empty =>
      let absent := s.trap codePatternAbsent (at_ pat.toNat 0)
      match t.slate.pats[pat.toNat]?, t.physical s.curCl out port with
      | some w, some p =>
        if w.port = port && w.dir = out && w.node = nodeCode node && w.tid = tid then
          let busy := if out then willBind (s.outPort s.curCl p).bound.isSome (s.outPort s.curCl p).cmds
            else willBind (s.inPort s.curCl p).bound.isSome (s.inPort s.curCl p).cmds
          if busy then .next (s.trap codePortBusy (flag out 4 ||| at_ port.toNat 0))
          else
            let bd : Binding := { take := t.id, k := s.curK, node := node, tid := tid, pat := w, pix := pat.toNat
                                  o0 := (s.reg a).setWidth 32, limit := (s.reg b).setWidth 32 }
            .next (((s.onMe fun c => c.setHandle hd (.stream out node port tid)).enqueue s.curCl out p (.bind bd)).goOn 2)
        else .next absent
      | _, _ => .next absent
    | .tensor _, x => .next (s.trap codeHandleKind (kindInfo hd x))
    | x, _ => .next (s.trap codeHandleKind (kindInfo hs x))

/-- UNBIND (R183). -/
def execUnbind (h : HReg) (s : State) : Out :=
  match s.myTake with
  | none => .next s
  | some t =>
    match s.handle h with
    | .stream out _ port _ =>
      let s' := s.onMe fun c => c.setHandle h .empty
      match t.physical s.curCl out port with
      | some p => .next ((s'.enqueue s.curCl out p .unbind).goOn 1)
      | none => .next (s'.goOn 1)
    | x => .next (s.trap codeHandleKind (kindInfo h x))

/-- BARRIER (R32, R184). -/
def execBarrier (out : Bool) (p : BitVec 4) (s : State) : Out :=
  match s.myTake with
  | none => .next s
  | some t =>
    match t.physical s.curCl out p with
    | some q => .next ((s.enqueue s.curCl out q .barrier).goOn 1)
    | none => .next (s.goOn 1)

/-- BIND_TAKE_EFFECT (R181): the binding at the head of the port's queue takes effect. -/
def execBindTakeEffect (cl : Nat) (out : Bool) (p : Nat) (s : State) : Out :=
  match (if out then (s.outPort cl p).cmds else (s.inPort cl p).cmds) with
  | .bind _ :: _ => .next (s.portCmd cl out p)
  | _ => .next s
/-- UNBIND_COMPLETE (R183): the unbind at the head of the queue completes, once the port may become UNBOUND. -/
def execUnbindComplete (cl : Nat) (out : Bool) (p : Nat) (s : State) : Out :=
  match (if out then (s.outPort cl p).cmds else (s.inPort cl p).cmds) with
  | .unbind :: _ => .next (s.portCmd cl out p)
  | _ => .next s
/-- BARRIER_COMPLETE (R32): the barrier at the head of the queue increments PHASE. -/
def execBarrierComplete (cl : Nat) (out : Bool) (p : Nat) (s : State) : Out :=
  match (if out then (s.outPort cl p).cmds else (s.inPort cl p).cmds) with
  | .barrier :: _ => .next (s.portCmd cl out p)
  | _ => .next s

/-! ### PORT.WAIT (R184) -/

/-- Has the stream of a port ended (R184)? An unbound or a stopped port counts as ended. -/
def State.inEnded (s : State) (cl p : Nat) : Bool :=
  let x := s.inPort cl p
  match x.bound with
  | none => true
  | some b =>
    match s.take? b.take with
    | none => true
    | some t => (b.walk (t.tensor b.tid.toNat)).ntok ≤ x.pos && x.cons.all fun c => c.rd == x.pos
def State.outEnded (s : State) (cl p : Nat) : Bool :=
  let x := s.outPort cl p
  match x.bound with
  | none => true
  | some b =>
    x.stop ||
      match s.take? b.take with
      | none => true
      | some t => 0 < x.nacc && (b.walk (t.tensor b.tid.toNat)).ntok ≤ x.nacc && x.held.isEmpty && x.wait.isEmpty
def State.portEnded (s : State) (cl : Nat) (out : Bool) (p : Nat) : Bool := if out then s.outEnded cl p else s.inEnded cl p

/-- A context leaves WAIT: its instruction of one parcel is complete. -/
def CueCtx.endWait (c : CueCtx) : CueCtx :=
  { c with wait := none, kstate := if c.handler then .trap else .run, handler := false }.advance 1
/-- A context enters WAIT; the PC stays at the waiting instruction. -/
def CueCtx.startWait (c : CueCtx) (w : Wait) : CueCtx :=
  { c with wait := some w, handler := c.kstate == .trap, kstate := .wait }

/-- PORT.WAIT (R184). A port that the take does not hold has nothing to wait for. -/
def execPortWait (out : Bool) (p : BitVec 4) (s : State) : Out :=
  match s.myTake with
  | none => .next s
  | some t =>
    match t.physical s.curCl out p with
    | none => .next (s.goOn 1)
    | some q =>
      let n := if out then (s.outPort s.curCl q).cmds.length else (s.inPort s.curCl q).cmds.length
      if n = 0 && s.portEnded s.curCl out q then .next (s.goOn 1)
      else .next (s.onMe fun c => c.startWait (.portWait out (BitVec.ofNat 4 q) n))

/-- PORT_WAIT_WAKE (R184). -/
def execPortWaitWake (cl k : Nat) (s : State) : Out :=
  match (s.ctx cl k).wait with
  | some (.portWait out q n) =>
    if n = 0 && s.portEnded cl out q.toNat then .next (s.updCtx cl k fun c => c.endWait) else .next s
  | _ => .next s

/-! ### Input ports (R182, R275) -/

/-- Has every buffer of a region that names the lane room for a token? -/
def State.laneRoom (s : State) (cl : Nat) (g : Region) (lp lane : Nat) : Bool :=
  g.els.all fun e =>
    let b := s.bank cl (g.bankNo e)
    (!b.fillsA lp lane || b.a.length < b.adep.toNat) && (!b.fillsB lp lane || b.b.length < b.bdep.toNat)

/-- Push a token into every buffer of a region that names the lane. -/
def State.lanePush (s : State) (cl : Nat) (g : Region) (lp lane : Nat) (v : Word) : State :=
  s.updCluster cl fun c => { c with banks := g.els.foldl (fun bs e => tupd {} bs (g.bankNo e) fun b =>
    { b with a := if b.fillsA lp lane then b.a ++ [v] else b.a, b := if b.fillsB lp lane then b.b ++ [v] else b.b }) c.banks }

/-- The regions whose buffers name the lane of the next token to deliver. -/
def State.laneCons (s : State) (cl p lp lane : Nat) : List Nat :=
  ((s.inPort cl p).cons.map (·.rid)).filter fun rid => s.namesLane cl (s.region cl rid) lp lane

/-- May the next token be delivered for the first time: some buffer names its lane, none of those regions is still
receiving tokens again, and all have room? -/
def State.canDeliver (s : State) (cl p lp lane : Nat) : Bool :=
  let l := s.laneCons cl p lp lane
  !l.isEmpty && l.all fun rid =>
    s.laneRoom cl (s.region cl rid) lp lane &&
      (s.inPort cl p).cons.all fun c => c.rid != rid || c.rd == (s.inPort cl p).pos

/-- Windows after a delivery (R336): a region whose window exceeds 2,048 tokens is LOST; tokens that no window needs
leave the replay buffer. -/
def InPort.trim (p : InPort) : InPort :=
  let cons := p.cons.map fun c => { c with lost := c.lost || 2048 < p.pos - c.rptr }
  let base := cons.foldl (fun m c => min m (if c.lost then c.rd else c.rptr)) p.pos
  { p with cons := cons, buf := p.buf.drop (base - p.base), base := max base p.base }

/-- R215: the value that a consumer sees; a free value when element buffers and a matrix step share the port. -/
def State.shared (s : State) (x : InPort) (v : Word) : Word × State :=
  if x.pulled && !x.cons.isEmpty then s.freeVal else (v, s)

/-- Deliver tokens again to one region that is behind (R335). -/
def State.redeliver (s : State) (cl p lp lanes : Nat) (c : Consumer) : State :=
  let x := s.inPort cl p
  if c.rd < x.pos then
    let lane := c.rd % lanes
    let g := s.region cl c.rid
    if s.laneRoom cl g lp lane then
      let r := s.shared x (x.buf.getD (c.rd - x.base) 0)
      (r.2.lanePush cl g lp lane r.1).updIn cl p fun x =>
        { x with cons := x.cons.map fun d => if d.rid = c.rid then { d with rd := d.rd + 1 } else d }
    else s
  else s

/-- Deliver the next token for the first time, if it has arrived and may be delivered. -/
def State.deliverNext (s : State) (cl p lp lanes : Nat) : State :=
  let x := s.inPort cl p
  let lane := x.pos % lanes
  if x.pos < x.got && s.canDeliver cl p lp lane then
    let r := s.shared x (x.buf.getD (x.pos - x.base) 0)
    let v := r.1
    let s := r.2
    let s := (s.laneCons cl p lp lane).foldl (fun s rid => s.lanePush cl (s.region cl rid) lp lane v) s
    s.updIn cl p fun x =>
      ({ x with pos := x.pos + 1, cons := x.cons.map fun (c : Consumer) => if c.rd = x.pos then { c with rd := c.rd + 1 } else c }).trim
  else s

/-- INPUT_TOKEN_ARRIVAL (R14, R182): tokens of a port go to the element buffers that name their lanes. -/
def execInputTokenArrival (cl p : Nat) (s : State) : Out :=
  match (s.inPort cl p).bound with
  | none => .next s
  | some b =>
    match s.take? b.take with
    | none => .next s
    | some t =>
      if t.active then
        let lp := t.logical cl false p
        let s := (s.inPort cl p).cons.foldl (fun s c => s.redeliver cl p lp b.pat.lanes c) s
        .next (s.deliverNext cl p lp b.pat.lanes)
      else .next s

/-- A token made of its elements' codes (R80, R102, R182). -/
def tokenOf (f : Fmt) (pack : Bool) (codes : List Nat) : Word :=
  if pack then BitVec.ofNat 64 (codes.foldr (fun c v => c + 2 ^ f.width * v) 0)
  else widen f (codes.headD 0)

/-- A token joins the replay buffer. -/
def InPort.receive (p : InPort) (v : Word) : InPort := { p with got := p.got + 1, buf := p.buf ++ [v], part := [], asked := 0, mxAsk := false }

/-- The translations of the elements of a token; the first element that has none decides. -/
inductive Spread
  | keys (l : List (Coord × Nat))
  | peer (l : List (Coord × Nat × Nat × Nat))      -- coordinate, package, lease, offset
  | wait
  | abort
  | fault (cause off : Nat)
  deriving DecidableEq, Repr

def State.spread (s : State) (t : Take) (ten : Tensor) (rd wr at' : Bool) : List Coord → Spread
  | [] => .keys []
  | c :: rest =>
    match s.translate t ten (ten.offset c) rd wr at' with
    | .fault x => .fault x (ten.offset c)
    | .wait =>
      match s.spread t ten rd wr at' rest with
      | .fault x o => .fault x o
      | _ => .wait
    | .abort =>
      match s.spread t ten rd wr at' rest with
      | .fault x o => .fault x o
      | .wait => .wait
      | _ => .abort
    | .ok (.key k) =>
      match s.spread t ten rd wr at' rest with
      | .keys l => .keys ((c, k) :: l)
      | x => x
    | .ok (.peer pkg lease o) =>
      match s.spread t ten rd wr at' rest with
      | .keys _ => .peer [(c, pkg, lease, o)]
      | .peer l => .peer ((c, pkg, lease, o) :: l)
      | x => x

/-- Read the units of elements at their keys; none when one is uncorrectable (R265). -/
def State.readCodes (s : State) (ten : Tensor) (cl take : Nat) (seen : Nat → List Byte → List Byte) :
    List (Coord × Nat) → State × Option (List Nat)
  | [] => (s, some [])
  | (c, k) :: rest =>
    match s.read k ten.unit cl take with
    | (s, none) => (s, none)
    | (s, some u) =>
      match s.readCodes ten cl take seen rest with
      | (s, some l) => (s, some (ten.codeIn c (seen (ten.offset c) u) :: l))
      | (s, none) => (s, none)

/-- The bytes of a unit as the reads of a stream port give them (R275). -/
def InPort.seen (x : InPort) (off : Nat) (unit : List Byte) : List Byte :=
  unit.zipIdx.map fun b =>
    match x.old.find? fun c => c.1 == off + b.2 with
    | some c => c.2
    | none => b.1

/-- R331: the abort completion of a read of an input port: every region that would receive the token replays. -/
def State.inAbort (s : State) (cl p : Nat) : State :=
  let x := s.inPort cl p
  match x.bound with
  | none => s
  | some b =>
    match s.take? b.take with
    | none => s
    | some t =>
      let l := s.laneCons cl p (t.logical cl false p) (x.got % b.pat.lanes)
      let s := (s.updIn cl p fun x => { x with part := [], asked := 0, mxAsk := false }).staleIn cl p
      l.foldl (fun s rid => s.replay cl rid false) s

/-- How the read of a token ended. -/
inductive Fetch
  | done
  | asked
  | wait
  | abort
  | fault (cause off : Nat)
  deriving DecidableEq, Repr

/-- Ask a peer for elements of the next token: all that are left, or one at a time for an SO plot (R280). -/
def State.askIn (s : State) (cl p : Nat) (ten : Tensor) (l : List (Coord × Nat × Nat × Nat)) : State :=
  let now := if ten.isSo then l.take 1 else l
  now.foldl (fun s y => s.sendMem y.2.1 (.inPort cl p) y.2.2.1 y.2.2.2 (.read ten.unit))
    (s.updIn cl p fun x => { x with asked := now.length })

/-- Read the next token of a bound input port: at once in this package; a peer's elements are asked for (R275), but for
those that it has returned. -/
def State.readToken (s : State) (cl p : Nat) (t : Take) (b : Binding) : State × Fetch :=
  let x := s.inPort cl p
  let ten := t.tensor b.tid.toNat
  let w := b.walk ten
  let cs := ((w.span x.got).drop x.part.length).map (b.coord ten w)
  if x.asked ≠ 0 then (s, .asked)
  else
    match s.spread t ten true false false cs with
    | .fault c off => (s, .fault c off)
    | .wait => (s.stallsAll t ten cs, .wait)
    | .abort => (s, .abort)
    | .keys l =>
      match s.readCodes ten cl t.id x.seen l with
      | (s, some codes) => (s.updIn cl p fun x => x.receive (tokenOf ten.elemFmt b.pat.pack (x.part ++ codes)), .done)
      | (s, none) => (s, .abort)
    | .peer l => (s.askIn cl p ten l, .asked)

/-- Fetch the next token for the element buffers. -/
def State.fetchToken (s : State) (cl p : Nat) (t : Take) (b : Binding) : State :=
  match s.readToken cl p t b with
  | (s, .fault c off) => s.outOfLease t.id 1 c cl (t.logical cl false p) b.tid.toNat off
  | (s, .abort) => s.inAbort cl p
  | (s, _) => s

/-- Has a consuming region its start token (R275), or has a matrix step read the port? -/
def State.inStarted (s : State) (cl p : Nat) : Bool :=
  (s.inPort cl p).pulled || s.consStarted cl (s.inPort cl p)

/-- R280: does a read of a STREAM port, an access of its context (R275), wait for an earlier access of the context, one of the
two being to an SO plot: a store posted to a peer, a read of a copy entry (R237) or of a matrix instruction (R225), or a read of
a stream that began before? The later ones have waited at their own issue. -/
def State.streamWaits (s : State) (cl : Nat) (t : Take) (b : Binding) (x : InPort) : Bool :=
  let so := (t.tensor b.tid.toNat).isSo
  b.node == .stream &&
    ((s.ctx cl b.k).posted.any (fun y => y.mx.isNone && (y.so || so))
      || s.copiesLeft cl t (!so)
      || (s.mxOf cl).queue.any (fun i => i.k == b.k && i.op.reads (s.mxOf cl) fun tid => so || (t.tensor tid).isSo)
      || (s.cluster cl).inp.any fun y =>
        y.2.streams t.id (fun tid => so || (t.tensor tid).isSo) && y.2.before x && s.readsOn t y.2)

/-- Does a stream that began later wait for the reads of a STREAM port (R280)? -/
def State.laterWaits (s : State) (cl : Nat) (t : Take) (b : Binding) (x : InPort) : Bool :=
  let so := (t.tensor b.tid.toNat).isSo
  (s.cluster cl).inp.any fun y =>
    y.2.streams t.id (fun tid => so || (t.tensor tid).isSo) && x.before y.2 && s.readsOn t y.2

/-- May the port read its next token now (R275)? The model reads no further ahead than the next token to deliver, once
its lane has room, which every node kind allows (DESIGN CHOICE, log 33); a STREAM port reads on while its context waits, as a
fence and an access to an SO plot do for those reads, or a stream that began later does (R177, R280). -/
def State.mayFetch (s : State) (cl p : Nat) (t : Take) (b : Binding) : Bool :=
  let x := s.inPort cl p
  let next := x.got == x.pos && s.canDeliver cl p (t.logical cl false p) (x.got % b.pat.lanes)
    && (b.node != .stream || s.inStarted cl p)
  let ahead := b.node == .stream && s.consStarted cl x
    && ((s.ctx cl b.k).retry && s.streamsLeft cl t false || s.laterWaits cl t b x)
  x.asked == 0 && x.got < (b.walk (t.tensor b.tid.toNat)).ntok && !s.streamWaits cl t b x && (next || ahead)

/-- INPUT_PORT_READ (R275): the port reads its next token from memory. -/
def execInputPortRead (cl p : Nat) (s : State) : Out :=
  match (s.inPort cl p).bound with
  | none => .next s
  | some b =>
    match s.take? b.take with
    | none => .next s
    | some t => if t.active && s.mayFetch cl p t b then .next (s.fetchToken cl p t b) else .next s

/-- An element of the next token returns from a peer. What is left of the token is asked for when the port reads on. -/
def State.inReply (s : State) (cl p : Nat) (bytes : List Byte) : State :=
  let x := s.inPort cl p
  match x.bound with
  | none => s
  | some b =>
    match s.take? b.take with
    | none => s
    | some t =>
      let ten := t.tensor b.tid.toNat
      let w := b.walk ten
      let cs := (w.span x.got).map (b.coord ten w)
      match cs[x.part.length]? with
      | none => s
      | some c =>
        let part := x.part ++ [ten.codeIn c (x.seen (ten.offset c) bytes)]
        s.updIn cl p fun x =>
          if part.length = cs.length then x.receive (tokenOf ten.elemFmt b.pat.pack part)
          else { x with part := part, asked := x.asked - 1 }

/-! ### Output ports (R138, R273, R276, R336) -/

/-- How many tokens an output port can accept (R138, R181, R273, R336). -/
def State.outRoom (s : State) (cl p : Nat) : Nat :=
  let x := s.outPort cl p
  match x.bound with
  | none => 0
  | some b =>
    match s.take? b.take with
    | none => 0
    | some t =>
      if x.stop then 0
      else min ((b.walk (t.tensor b.tid.toNat)).ntok - x.nacc) (2048 - (x.held.filter fun y => y.rid.isSome).length)
/-- Can an output port accept a token? -/
def State.canAccept (s : State) (cl p : Nat) : Bool := 0 < s.outRoom cl p

/-- Accept a token of a region (or of the matrix engine, none). -/
def OutPort.accept (p : OutPort) (v : Word) (last : Bool) (rid : Option Nat) : OutPort :=
  { p with held := p.held ++ [{ val := v, last := last, rid := rid, elem := p.nacc }], nacc := p.nacc + 1 }

/-- Has the port accepted a token from a lane in a cycle? -/
def OutPort.taken (p : OutPort) (cyc lane : Nat) : Bool := p.held.any fun t => t.cyc == cyc && t.lane == some lane
/-- Accept a token of a region from a lane: the tokens of one cycle are numbered in ascending lane order (R139). -/
def OutPort.acceptLane (p : OutPort) (cyc lane : Nat) (v : Word) (last : Bool) (rid : Nat) : OutPort :=
  let above (t : OutTok) : Bool := t.cyc == cyc && t.lane.any fun l => lane < l
  let after := p.held.filter above
  { p with
    held := p.held.filter (fun t => !above t)
      ++ { val := v, last := last, rid := some rid, elem := p.nacc - after.length, lane := some lane, cyc := cyc }
        :: after.map fun t => { t with elem := t.elem + 1 }
    nacc := p.nacc + 1 }
/-- Of two tokens that collide the later is kept, in the place of the other (R139). -/
def OutPort.replace (p : OutPort) (cyc lane : Nat) (v : Word) (last : Bool) (rid : Nat) : OutPort :=
  { p with held := p.held.map fun t =>
      if t.cyc = cyc && t.lane = some lane then { t with val := v, last := last, rid := some rid } else t }

/-- The length of the first tile: through the first LAST token; the rest when the final tile has ended (R276). -/
def tileLen (closed : Bool) : List OutTok → Nat
  | [] => 0
  | t :: rest => if t.last then 1 else
      match tileLen closed rest with
      | 0 => if closed && rest.isEmpty then 1 else 0
      | n + 1 => n + 2

/-- The first tile of a port if it may commit: complete, and every token out of the replay window (R31). -/
def State.dueTile (s : State) (cl p : Nat) : List OutTok :=
  let x := s.outPort cl p
  match x.bound with
  | none => []
  | some b =>
    match s.take? b.take with
    | none => []
    | some t =>
      let closed := x.closing || (b.walk (t.tensor b.tid.toNat)).ntok ≤ x.nacc
      let tile := x.held.take (tileLen closed x.held)
      if x.stop || !x.wait.isEmpty || !(tile.all fun y => y.rid.isNone) then [] else tile

/-- The elements of a tile: coordinate and code (R182). -/
def tileElems (b : Binding) (ten : Tensor) (tile : List OutTok) : List (Coord × Nat) :=
  let w := b.walk ten
  tile.flatMap fun t =>
    (w.span t.elem).zipIdx.map fun x => (b.coord ten w x.1, t.val.toNat / 2 ^ (ten.elemFmt.width * x.2) % 2 ^ ten.elemFmt.width)

/-- R271, R272: the elements after their bound check, with the events; none when one fails a TRAP bound. -/
def checkElems (ten : Tensor) : List (Coord × Nat) → Option (List (Coord × Nat) × List Coord)
  | [] => some ([], [])
  | (c, v) :: rest =>
    match checkElems ten rest with
    | none => none
    | some (l, ev) =>
      match ten.bound v with
      | .pass => some ((c, v) :: l, ev)
      | .flag => some ((c, v) :: l, c :: ev)
      | .clamp x => some ((c, x) :: l, c :: ev)
      | .trap => none

/-- The port stops (R273, R265): the context that issued the BIND takes the trap between instructions. -/
def State.stopPort (s : State) (cl p : Nat) (take : Nat) (code : Nat) (info : Word) : State :=
  ((s.updOut cl p fun x => { x with stop := true, wait := [], tile := 0 }).staleReqs fun r => r.rq == .outPort cl p).fabricTrap
    cl take ⟨code, info, 0⟩

/-- Write one element: an update adds (R276), otherwise its code replaces. None for an abort completion. -/
def State.putElem (s : State) (ten : Tensor) (op : Option AmoOp) (c : Coord) (key v cl take k : Nat) : Option State :=
  match op with
  | some op =>
    match s.amoLocal key op (sizeOf ten.unit) (BitVec.ofNat 64 v) 0 cl take with
    | (s, some old) => some (s.amoFlags cl k op old v)
    | (_, none) => none
  | none =>
    let x := ten.elemBytes c (s.peek key ten.unit) v
    s.tryWrite (key + x.1) x.2

/-- Write the elements in order; none at the first abort completion. -/
def State.putElems (s : State) (ten : Tensor) (op : Option AmoOp) (cl take k : Nat) : List (Coord × Nat) → List Nat → Option State
  | (c, key) :: cs, v :: vs =>
    match s.putElem ten op c key v cl take k with
    | some s => s.putElems ten op cl take k cs vs
    | none => none
  | _, _ => some s

/-- The tile of a port is committed: CSEQ is its last token's number. -/
def OutPort.commit (p : OutPort) (n : Nat) : OutPort :=
  { p with
    held := p.held.drop n
    cseq := match p.held[n - 1]? with
      | some t => BitVec.ofNat 16 t.elem
      | none => p.cseq }

/-- R265, R331: the uncorrectable word that a write or an update has met raises the error interrupt. -/
def State.noteUpdate (s : State) (upd : Bool) (ten : Tensor) (cl take : Nat) (l : List (Coord × Nat)) : State :=
  match l.find? fun x => (upd && s.readBad x.2 ten.unit) || s.writeBad x.2 ten.unit with
  | some x => s.uncorrectable x.2 ten.unit cl take
  | none => s

/-- An element of a tile as a peer performs it (R276). -/
def Tensor.tileElem (ten : Tensor) (op : Option AmoOp) (x : Coord × Nat × Nat × Nat) (v : Nat) : TileElem :=
  { lease := x.2.2.1, off := x.2.2.2, n := ten.unit, lo := ten.slotBit x.1.c0, w := ten.elemFmt.width, v := v
    upd := op.map fun o => (o, sizeOf ten.unit) }

/-- Commit a tile (R276): its places are found (R318), its elements are checked, and it is written whole or not at all. -/
def State.commitTile (s : State) (cl p : Nat) (t : Take) (b : Binding) (tile : List OutTok) : State :=
  let ten := t.tensor b.tid.toNat
  let op := if b.node = .stream then none else updateOp ten.elemFmt
  let els := tileElems b ten tile
  let seq := (tile.headD { val := 0, last := false, rid := none, elem := 0 }).elem
  let lp := t.logical cl true p
  let info := at_ (seq % 65536) 32 ||| flag true 63 ||| flag true 62 ||| at_ lp 16 ||| at_ b.tid.toNat 0
  let checked (k : List Nat → List Coord → State) : State :=
    match (if op.isSome then some (els, []) else checkElems ten els) with
    | none => s.stopPort cl p t.id codePortBound (at_ (seq % 65536) 48 ||| at_ b.tid.toNat 16 ||| at_ lp 0)
    | some r => k (r.1.map (·.2)) r.2
  match s.spread t ten op.isSome true false (els.map (·.1)) with
  | .fault c off => s.outOfLease t.id 2 c cl lp b.tid.toNat off
  | .wait => s.stallsAll t ten (els.map (·.1))
  | .abort => checked fun _ _ => s.stopPort cl p t.id codeDataAbort info
  | .keys l => checked fun vals ev =>
    match s.putElems ten op cl t.id b.k l vals with
    | some s => (s.boundEvents t.id b.tid.toNat ev).updOut cl p fun x => x.commit tile.length
    | none => (s.noteUpdate op.isSome ten cl t.id l).stopPort cl p t.id codeDataAbort info
  | .peer l => checked fun vals ev =>
    ((s.boundEvents t.id b.tid.toNat ev).updOut cl p fun x =>
      { x with tile := tile.length, wait := vals.map fun v => op.map fun o => (o, BitVec.ofNat 64 v) }).sendMem
      ((l.map fun y => y.2.1).headD 0) (.outPort cl p) 0 0 (.tile ((l.zip vals).map fun y => ten.tileElem op y.1 y.2))

/-- TILE_COMMIT (R276): the first complete tile of the port commits. -/
def execTileCommit (cl p : Nat) (s : State) : Out :=
  match (s.outPort cl p).bound with
  | none => .next s
  | some b =>
    match s.take? b.take, s.dueTile cl p with
    | some t, x :: rest => if t.active then .next (s.commitTile cl p t b (x :: rest)) else .next s
    | _, _ => .next s

/-- FSTAT after the updates of a tile at a peer, from the old values in order (R276). -/
def State.tileFlags (s : State) (cl k u : Nat) : List (Option (AmoOp × Word)) → List Byte → State
  | some (op, v) :: rest, b => (s.amoFlags cl k op (ofBytes (b.take u)) v.toNat).tileFlags cl k u rest (b.drop u)
  | none :: rest, b => s.tileFlags cl k u rest b
  | [], _ => s

/-- A tile has been performed at a peer, and CSEQ advances; or it has met an abort completion, and the port stops (R276). -/
def State.outReply (s : State) (cl p : Nat) (rep : MemRep) : State :=
  let x := s.outPort cl p
  match x.bound with
  | none => s
  | some b =>
    match s.take? b.take with
    | none => s
    | some t =>
      if x.wait.isEmpty then s
      else
        match rep with
        | .abort =>
          let seq := (x.held.headD { val := 0, last := false, rid := none, elem := 0 }).elem
          s.stopPort cl p t.id codeDataAbort (at_ (seq % 65536) 32 ||| flag true 63 ||| flag true 62
            ||| at_ (t.logical cl true p) 16 ||| at_ b.tid.toNat 0)
        | .ack => s.updOut cl p fun x => { x.commit x.tile with wait := [], tile := 0 }
        | .data old =>
          (s.tileFlags cl b.k (t.tensor b.tid.toNat).unit x.wait old).updOut cl p fun x => { x.commit x.tile with wait := [], tile := 0 }

/-- PORTINp and PORTOUTp (R29) of a physical port that the take holds. -/
def State.portWord (s : State) (cl : Nat) (out : Bool) (p : Nat) : Word :=
  if out then
    let x := s.outPort cl p
    flag x.bound.isSome 63 ||| flag x.stop 62 ||| at_ x.phase.toNat 48 ||| at_ x.cseq.toNat 16
      ||| at_ (min x.held.length 0xFFFF) 0
  else
    let x := s.inPort cl p
    flag x.bound.isSome 63 ||| at_ x.phase.toNat 48 ||| at_ (x.got % 65536) 16

end Sys2Proof.Machine
end

