-- ==== Sys2Proof/Machine/Matrix.lean ====
section
/-! DEFINITION. The matrix engine (R203 to R226): the checks at issue, the queue, pins, steps, reads, and the traps of an
interval. -/

namespace Sys2Proof.Machine

/-! ### Issue (R203, R204) -/

/-- Does a matrix instruction read memory: it then follows the stores of its context (R225)? -/
def MxOp.readsMem : MxOp → Bool
  | .pin _ _ _ _ _ _ _ => true
  | .step _ _ _ _ _ _ => true
  | _ => false

/-- Must a matrix instruction that reads memory stall: for the earlier stores of its context (R225), and for the reads that R280
puts before its own? That it stalls is DEDUCED, log 9. -/
def State.mxWaits (s : State) (t : Take) (op : MxOp) : Bool :=
  op.readsMem && (s.me.storesOut || s.readsLeft s.curCl t (op.reads (s.mxOf s.curCl) fun tid => (t.tensor tid).isSo))

/-- A matrix instruction enters the queue: MX-NOENGINE first; a full queue stalls; then its own checks, and its wait. That a full
queue stalls before the checks is DESIGN CHOICE, log 47. -/
def State.mxIssue (s : State) (n : Nat) (check : Take → State ⊕ MxOp) : State :=
  match s.myTake with
  | none => s
  | some t =>
    let m := s.mxOf s.curCl
    if m.holder ≠ some t.id then s.trap codeMxNoengine 0
    else if 16 ≤ m.queue.length then s.again
    else
      match check t with
      | .inl s => s
      | .inr op => if s.mxWaits t op then s.again else (s.updMx s.curCl fun m => { m with queue := m.queue ++ [{ op := op, pc := s.me.pc, k := s.curK }] }).goOn n

/-- EINFO of MX-FORMAT (R223). -/
def mxFormatInfo (ten : Tensor) (fmt : BitVec 4) (sub : BitVec 3) (noPack : Bool) : Word :=
  flag noPack 27 ||| at_ sub.toNat 24 ||| at_ fmt.toNat 20 ||| at_ ten.sub.toNat 16 ||| at_ ten.fmt.toNat 12
    ||| at_ ten.tid.toNat 0

/-- The subtype counts for NARROW only. -/
def Tensor.isFmt (ten : Tensor) (fmt : BitVec 4) (sub : BitVec 3) : Bool := ten.fmt == fmt && (fmt != 15 || ten.sub == sub)

/-- MX.PIN (R206): the checks at issue. -/
def execMxPin (m : MemOp) (fmt : BitVec 4) (sub : BitVec 3) (s : State) : Out :=
  .next (s.mxIssue 2 fun t =>
    match s.form t m 0 1 with
    | .trap code info => .inl (s.trap code info)
    | .ok tid c _ =>
      if (t.tensor tid).isFmt fmt sub then
        .inr (.pin fmt sub (BitVec.ofNat 12 tid) (BitVec.ofNat 32 c.c0) (BitVec.ofNat 32 c.c1) (BitVec.ofNat 32 c.c2)
          (BitVec.ofNat 32 c.c3))
      else .inl (s.trap codeMxFormat (mxFormatInfo (t.tensor tid) fmt sub false)))

/-- MX.SWAP (R207). -/
def execMxSwap (s : State) : Out := .next (s.mxIssue 1 fun _ => .inr .swap)

/-- MX.SCALE (R208). -/
def execMxScale (isB : Bool) (m : MemOp) (s : State) : Out :=
  .next (s.mxIssue 2 fun t =>
    match s.form t m 0 256 with
    | .trap code info => .inl (s.trap code info)
    | .ok tid c _ =>
      .inr (.scale isB { tid := BitVec.ofNat 12 tid, c0 := BitVec.ofNat 32 c.c0, c1 := BitVec.ofNat 32 c.c1
                         c2 := BitVec.ofNat 32 c.c2, c3 := BitVec.ofNat 32 c.c3 }))

/-- MX.MODE (R210). -/
def execMxMode (a : Reg) (s : State) : Out :=
  .next (s.mxIssue 1 fun _ =>
    let v := s.reg a
    if v &&& 0xFFFFFFFFFFFFF88C ≠ 0 || 3 < bits v 6 4 then .inl (s.trap codeMxConfig v) else .inr (.mode (v.setWidth 32)))

/-- MX.ZERO (R219). -/
def execMxZero (a : Reg) (n : BitVec 14) (s : State) : Out :=
  .next (s.mxIssue 1 fun t =>
    match s.foreignBank s.curCl t.id s.curK (s.reg a).toNat n.toNat with
    | some b => .inl (s.trap codeAccForeign (BitVec.ofNat 64 b))
    | none => .inr (.zero (s.reg a).toNat n.toNat))

/-- The pattern that a port will hold after its queued commands (R181): the last bind. -/
def lastPattern (p : Option Pattern) : List PortCmd → Option Pattern
  | [] => p
  | .bind b :: t => lastPattern (some b.pat) t
  | _ :: t => lastPattern p t

/-- Does the stream that a handle names have a pattern without PACK (R182, R223)? -/
def State.noPack (s : State) (t : Take) (out : Bool) (port : BitVec 4) : Bool :=
  match t.physical s.curCl out port with
  | none => false
  | some p =>
    let pat := if out then lastPattern ((s.outPort s.curCl p).bound.map (·.pat)) (s.outPort s.curCl p).cmds
      else lastPattern ((s.inPort s.curCl p).bound.map (·.pat)) (s.inPort s.curCl p).cmds
    match pat with
    | some w => !w.pack
    | none => false

/-- The checks that MX.STEP, MX.STEPS and MX.READ make at issue (R211, R213, R220). Where several fail, HANDLE-KIND comes before
MX-FORMAT and that before ACC-FOREIGN (DESIGN CHOICE, log 47). -/
def State.rowCheck (s : State) (t : Take) (r : TileRow) (kindOk : Handle → Bool) (pitch : Nat) (op : Handle → MxOp) :
    State ⊕ MxOp :=
  let h := s.handle r.h
  let next (tid : BitVec 12) (noPack : Bool) : State ⊕ MxOp :=
    let ten := t.tensor tid.toNat
    if noPack || !ten.isFmt r.afmt r.sub then .inl (s.trap codeMxFormat (mxFormatInfo ten r.afmt r.sub noPack))
    else
      let b := rowBanks r pitch
      match s.foreignBank s.curCl t.id s.curK b.first b.n with
      | some x => .inl (s.trap codeAccForeign (BitVec.ofNat 64 x))
      | none => .inr (op h)
  if kindOk h then
    match h with
    | .tensor tid => next tid false
    | .stream out _ port tid => next tid (s.noPack t out port)
    | .empty => .inl (s.trap codeHandleKind (kindInfo r.h h))
  else .inl (s.trap codeHandleKind (kindInfo r.h h))

def State.mxStepIssue (s : State) (sparse src : Bool) (r : TileRow) : State :=
  let b := s.reg r.b
  s.mxIssue 2 fun t =>
    s.rowCheck t r (fun h => h.kind == (if src then 1 else 2)) (native (fmtOf r.afmt r.sub)).2.2
      fun h => .step sparse src r h (b.setWidth 32) (b.extractLsb' 32 32)

/-- MX.STEP (R211 to R215). -/
def execMxStep (src : Bool) (t : TileRow) (s : State) : Out := .next (s.mxStepIssue false src t)
/-- MX.STEPS (R216). -/
def execMxSteps (src : Bool) (t : TileRow) (s : State) : Out := .next (s.mxStepIssue true src t)
/-- MX.READ (R220). -/
def execMxRead (t : TileRow) (s : State) : Out :=
  let b := s.reg t.b
  .next (s.mxIssue 2 fun tk =>
    s.rowCheck tk t (fun h => h.kind == 1 || h.kind == 3) (rdSrc (s.mxOf s.curCl).tailMode).pitch
      fun h => .read t h (b.setWidth 32) (b.extractLsb' 32 32))

/-! ### MX.WAIT (R222) -/

/-- Has the context nothing in the queue, and no MX.READ write outstanding? -/
def State.mxQuiet (s : State) (cl k : Nat) : Bool :=
  ((s.mxOf cl).queue.all fun i => i.k != k) && (s.ctx cl k).posted.all fun x => x.mx.isNone

/-- MX.WAIT (R222). -/
def execMxWait (s : State) : Out :=
  match s.myTake with
  | none => .next s
  | some t =>
    if (s.mxOf s.curCl).holder ≠ some t.id then .next (s.trap codeMxNoengine 0)
    else
      if s.mxQuiet s.curCl s.curK then
        match s.report .mx with
        | some s => .next s
        | none => .next (s.goOn 1)
      else .next (s.onMe fun c => c.startWait .mxWait)

/-- Does a trap that is pending abandon the wait of a context (R165)? -/
def CueCtx.abandons (c : CueCtx) : Bool := !c.pend.isEmpty && !c.handler

/-- MX_WAIT_WAKE (R222): the wait ends; a write abort is reported at the MX.WAIT. A trap of a queued instruction abandons the
wait. -/
def execMxWaitWake (cl k : Nat) (s : State) : Out :=
  match (s.ctx cl k).wait with
  | some .mxWait =>
    if s.mxQuiet cl k && !(s.ctx cl k).abandons then
      match pickAbort Report.mx.covers (s.ctx cl k).aborts with
      | some (a, rest) =>
        .next ((s.updCtx cl k fun c => { c with
          aborts := rest, wait := none, kstate := if c.handler then .trap else .run, handler := false }).takeTrap
            cl k codeDataAbort (abortInfo a) 0 (s.ctx cl k).pc)
      | none => .next (s.updCtx cl k fun c => c.endWait)
    else .next s
  | _ => .next s

/-! ### Gathering the operands of an interval (R214) -/

/-- Why an interval cannot go on. -/
inductive MxStop
  | trap (code tid row nib grp : Nat)
  | fault (src cause unit tid off : Nat)
  | wait
  deriving DecidableEq, Repr

/-- A read of peer data that an interval needs: row, package, lease, offset, bytes. -/
structure MxAsk where
  tid : Nat
  row : Nat
  pkg : Nat
  lease : Nat
  off : Nat
  n : Nat
  deriving DecidableEq, Repr

/-- The gathering of an interval: the data that peers have returned, what is still to be asked for, and a stop. -/
structure Gather where
  s : State
  vals : List Nat
  asks : List MxAsk
  stop : Option MxStop

/-- Read `n` bytes of a tensor at an offset for row `row`. -/
def Gather.fetch (g : Gather) (cl k : Nat) (t : Take) (ten : Tensor) (row off n : Nat) : Gather × Nat :=
  if g.stop.isSome then (g, 0)
  else
    match g.s.translate t ten off true false false with
    | .fault c => ({ g with stop := some (.fault 4 c k ten.tid.toNat off) }, 0)
    | .wait => ({ g with s := g.s.stalls t ten off, stop := some .wait }, 0)
    | .abort => ({ g with stop := some (.trap codeMxAbort ten.tid.toNat row 0 0) }, 0)
    | .ok (.key a) =>
      match g.s.read a n cl t.id with
      | (s, some b) => ({ g with s := s }, ofBytes b)
      | (s, none) => ({ g with s := s, stop := some (.trap codeMxAbort ten.tid.toNat row 0 0) }, 0)
    | .ok (.peer pkg lease o) =>
      match g.vals with
      | v :: rest => ({ g with vals := rest }, v)
      | [] => ({ g with asks := g.asks ++ [⟨ten.tid.toNat, row, pkg, lease, o, n⟩] }, 0)

/-- An element of a tensor, or MX-RANGE. -/
def Gather.elem (g : Gather) (cl k : Nat) (t : Take) (ten : Tensor) (row : Nat) (c : Coord) : Gather × Nat :=
  if g.stop.isSome then (g, 0)
  else if ten.inExtents c then
    let r := g.fetch cl k t ten row (ten.offset c) ten.unit
    (r.1, r.2 / 2 ^ ten.slotBit c.c0 % 2 ^ ten.elemFmt.width)
  else ({ g with stop := some (.trap codeMxRange ten.tid.toNat row 0 0) }, 0)

def Gather.elems (g : Gather) (cl k : Nat) (t : Take) (ten : Tensor) (row : Nat) : List Coord → Gather × List Nat
  | [] => (g, [])
  | c :: rest =>
    let r := g.elem cl k t ten row c
    let q := r.1.elems cl k t ten row rest
    (q.1, r.2 :: q.2)

/-- The scale bytes at offsets from a scale pointer record (R209). -/
def Gather.scales (g : Gather) (cl k : Nat) (t : Take) (rec : Option ScaleRec) (row : Nat) : List Nat → Gather × List Nat
  | [] => (g, [])
  | o :: rest =>
    let r : Gather × Nat :=
      if g.stop.isSome then (g, 0)
      else
        match rec with
        | none => ({ g with stop := some (.trap codeMxNoscale 0 row 0 0) }, 0)
        | some r =>
          let ten := t.tensor r.tid.toNat
          let off := ten.offset ⟨r.c0.toNat, r.c1.toNat, r.c2.toNat, r.c3.toNat⟩ + o
          if ten.size ≤ off then ({ g with stop := some (.trap codeMxRange ten.tid.toNat row 0 0) }, 0)
          else g.fetch cl k t ten row off 1
    let q := r.1.scales cl k t rec row rest
    (q.1, r.2 :: q.2)

/-! ### Ends of intervals (R214, R224) -/

/-- EINFO of a trap of an interval (R224). -/
def intervalInfo (i : MxItem) (tid row nib grp : Nat) : Word :=
  at_ (tid % 4096) 43 ||| at_ (nib % 16) 39 ||| at_ (grp % 64) 33 ||| at_ (row % 256) 25 ||| at_ (i.next % 512) 16
    ||| at_ i.pc.toNat 0

/-- The queue is discarded, and with it the completions of the engine's reads (R224). -/
def State.mxDiscard (s : State) (cl : Nat) : State :=
  (s.updMx cl fun m => { m with queue := [] }).staleReqs fun r => match r.rq with
    | .matrix c _ => c == cl
    | _ => false

/-- A stop of the interval at the head of the queue: a trap or a fault discards the rest of the queue. -/
def State.mxStop (s : State) (cl : Nat) (t : Take) (i : MxItem) : MxStop → State
  | .wait => s
  | .trap code tid row nib grp => (s.mxDiscard cl).fabricTrap cl t.id ⟨code, intervalInfo i tid row nib grp, 0⟩
  | .fault src c unit tid off => (s.mxDiscard cl).outOfLease t.id src c cl unit tid off

/-- The queue without its head. -/
def State.mxPop (s : State) (cl : Nat) : State := s.updMx cl fun m => { m with queue := m.queue.drop 1 }
def State.mxHead (s : State) (cl : Nat) (f : MxItem → MxItem) : State :=
  s.updMx cl fun m => { m with queue := match m.queue with
    | [] => []
    | i :: t => f i :: t }

/-- An interval of the head has completed; the instruction completes with its last interval. -/
def State.mxNext (s : State) (cl : Nat) (i : MxItem) (rpt : Nat) : State :=
  if rpt ≤ i.next + 1 then s.mxPop cl
  else s.mxHead cl fun i => { i with next := i.next + 1, reads := [] }

/-- The end of a gathering: a stop, a request for peer data, or the effect of the interval. -/
def Gather.finish (g : Gather) (s0 : State) (cl : Nat) (t : Take) (i : MxItem) (eff : State → State) : State :=
  match g.stop with
  | some x => g.s.mxStop cl t i x
  | none =>
    if g.asks.isEmpty then eff g.s
    else
      -- what peers have returned is kept; of an SO plot one element is asked for at a time (R280)
      let now := if g.asks.any fun a => (t.tensor a.tid).isSo then g.asks.take 1 else g.asks
      let s := s0.mxHead cl fun i => { i with reads := i.reads ++ now.map fun a => ⟨a.tid, a.row, none⟩ }
      now.foldl (fun s a => s.sendMem a.pkg (.matrix cl a.tid) a.lease a.off (.read a.n)) s

/-- The head of the queue, when it waits for no peer data, of a take that may act, or that is asked to freeze in the middle
of an interval (R226), but not after OUT-OF-LEASE of an earlier cycle (R319). -/
def State.mxReady (s : State) (cl : Nat) : Option (Take × MxItem) :=
  let m := s.mxOf cl
  match m.holder.bind s.take?, m.queue with
  | some t, i :: _ => if (t.active || t.freezing && !t.barred s.cycle && !i.reads.isEmpty) && i.reads.all (·.val.isSome) then some (t, i) else none
  | _, _ => none

/-- Is a read of a tensor outstanding? A tensor's plots lie in one other package, whose completions come in the order of the
requests (R353); those of two packages have no order. -/
def MxRead.waits (r : MxRead) (tid : Nat) : Bool := r.tid == tid && r.val.isNone
/-- The data of the first read of a tensor that is outstanding. -/
def fillRead (tid v : Nat) : List MxRead → List MxRead
  | [] => []
  | r :: t => if r.waits tid then { r with val := some v } :: t else r :: fillRead tid v t
/-- Data of a tensor returns from a peer for an interval. -/
def State.mxReply (s : State) (cl tid : Nat) (bytes : List Byte) : State :=
  s.mxHead cl fun i => { i with reads := fillRead tid (ofBytes bytes) i.reads }
/-- The abort completion of a read for an interval (R265): MX-ABORT, with the row of that read. -/
def State.mxAbort (s : State) (cl tid : Nat) : State :=
  match (s.mxOf cl).holder.bind s.take?, (s.mxOf cl).queue with
  | some t, i :: _ =>
    match i.reads.find? fun r => r.waits tid with
    | some r => s.mxStop cl t i (.trap codeMxAbort tid r.row 0 0)
    | none => s
  | _, _ => s

/-! ### MX.PIN, MX.SWAP, MX.SCALE, MX.MODE, MX.ZERO (R206 to R210, R219) -/

def Coord.mk32 (c0 c1 c2 c3 : BitVec 32) : Coord := ⟨c0.toNat, c1.toNat, c2.toNat, c3.toNat⟩

/-- PFMT (R35) of a format and subtype; the codes are the model's choice (DESIGN CHOICE, log 36): FMT, or 16 + subtype for
NARROW. -/
def pfmtOf (fmt : BitVec 4) (sub : BitVec 3) : BitVec 5 :=
  if fmt = 15 then BitVec.ofNat 5 (16 + sub.toNat) else fmt.setWidth 5
def Plane.fmt (p : Plane) : BitVec 4 := if p.pfmt.getLsbD 4 then 15 else p.pfmt.setWidth 4
def Plane.sub (p : Plane) : BitVec 3 := if p.pfmt.getLsbD 4 then p.pfmt.setWidth 3 else 0

/-- The cells of a plane from the elements of a tile, row by row. -/
def planeCells (pn : Nat) (codes : List Nat) : Table Word :=
  codes.zipIdx.filterMap fun x => if x.1 = 0 then none else some (256 * (x.2 / pn) + x.2 % pn, BitVec.ofNat 64 x.1)

/-- MX_PIN_EXECUTE (R206): the pin at the head of the queue fills SHADOW. ROW of its MX-ABORT, of which R224 says nothing, is 0
(DESIGN CHOICE, log 47). -/
def execMxPinExecute (cl : Nat) (s : State) : Out :=
  match s.mxReady cl with
  | some (t, i) =>
    match i.op with
    | .pin fmt sub tid c0 c1 c2 c3 =>
      let ten := t.tensor tid.toNat
      let nat := native (fmtOf fmt sub)
      let pk := min nat.1 (ten.ext 1 - c1.toNat)
      let pn := min nat.2.1 (ten.ext 0 - c0.toNat)
      let s := s.updMx cl fun m => { m with shadow := { m.shadow with pv := false } }
      let cs := (List.range pk).flatMap fun k => (List.range pn).map fun n =>
        (⟨c0.toNat + n, c1.toNat + k, c2.toNat, c3.toNat⟩ : Coord)
      let g := ({ s := s, vals := i.reads.filterMap (·.val), asks := [], stop := none } : Gather).elems cl i.k t ten 0 cs
      .next (g.1.finish s cl t i fun s =>
        (s.updMx cl fun m => { m with
          shadow := { pfmt := pfmtOf fmt sub, pk := pk, pn := pn, pv := true, cells := planeCells pn g.2 } }).mxPop cl)
    | _ => .next s
  | none => .next s

/-- MX_QUEUED_EXECUTE (R204): a queued MX.SWAP, MX.SCALE, MX.MODE or MX.ZERO takes effect. -/
def execMxQueuedExecute (cl : Nat) (s : State) : Out :=
  match s.mxReady cl with
  | some (_, i) =>
    match i.op with
    | .swap => .next ((s.updMx cl fun m => { m with live := m.shadow, shadow := m.live }).mxPop cl)
    | .scale isB r =>
      .next ((s.updMx cl fun m => if isB then { m with scb := some r } else { m with sca := some r }).mxPop cl)
    | .mode w => .next ((s.updMx cl fun m => { m with mode := w }).mxPop cl)
    | .zero first n =>
      .next ((s.updCluster cl fun c => { c with
        acc := zeroBanks c.acc first n, accBad := freshBanks c.accBad first n }).mxPop cl)
    | _ => .next s
  | none => .next s

/-! ### Classes and sums (R104 to R107) -/

/-- The AOR-1 classes (R104). -/
inductive MxClass | g8 | lg | i8 | g16 | s32 | s64
  deriving DecidableEq, Repr
def mxClass (f : Fmt) : MxClass :=
  match f with
  | .int _ _ => .i8
  | .lg6 => .lg
  | .mx _ _ _ _ => .g8
  | .tap n _ => if n = 8 then .g8 else .g16
  | .ieee w _ _ => if w = 16 then .g16 else if w = 32 then .s32 else .s64

/-- The weight formats of MX.STEPS (R216). -/
def sparseWeight (f : Fmt) : Bool := f == e4m3 || f == e5m2 || f == e3m2 || f == e2m3 || f == t8
/-- The formats that take block scales (R209). -/
def takesScale (f : Fmt) : Bool :=
  match f with
  | .mx _ _ _ _ => true
  | _ => false
def MxClass.group : MxClass → Nat
  | .g8 | .lg | .i8 => 32
  | .g16 => 16
  | _ => 1

/-- R88: the term of two LG6 codes. -/
def lgTerm (a b : Nat) : Val :=
  if a % 32 = 0 || b % 32 = 0 then .zero
  else
    let q : Int := (a % 32 : Nat) + (b % 32 : Nat) - 32
    let j := (q % 4).toNat
    .fin (a / 32 % 2 != b / 32 % 2) (65536 + lgFrac j) ((q - j) / 4 - 16) false

/-- The product of two codes of a class. -/
def product (fa fb : Fmt) (a b : Nat) : Val :=
  if fa = .lg6 then lgTerm a b else mulVal (decodeVal fa a) (decodeVal fb b)

/-- A value times 2^k. -/
def Val.shift (v : Val) (k : Int) : Val :=
  match v with
  | .fin n m e st => .fin n m (e + k) st
  | v => v

/-- R105: the group value G, from the exact sum P and the codes of the scales. -/
def groupCode (p : Val) (ea eb : Nat) : Nat :=
  if p.isNan || ea = 255 || eb = 255 then 0x7FC00000
  else
    match p with
    | .fin _ m _ _ => if m = 0 then 0 else (encodeVal f32 .rne false (p.shift ((ea : Int) + eb - 254))).code
    | _ => (encodeVal f32 .rne false p).code

def addF32 (x g : Nat) : Nat := (encodeVal f32 .rne false (addVal (decodeVal f32 x) (decodeVal f32 g) false)).code

/-- R106: the saturating I32 update, and whether it saturated. -/
def addI32 (x : Nat) (p : Int) : Nat × Bool :=
  let t := sextN 32 x + p
  if t > 2 ^ 31 - 1 then (2 ^ 31 - 1, true) else if t < -(2 ^ 31) then (2 ^ 31, true) else ((t % 2 ^ 32).toNat, false)

/-- One activation row: its coordinate, its first accumulator word, the codes by k (none where R218 gives no product),
and its scales by group. -/
structure ARow where
  y : Nat
  base : Nat
  a : List (Option Nat)
  sc : List Nat
  deriving DecidableEq, Repr

/-- The products of group `g` of one output element. -/
def groupProducts (fa fb : Fmt) (size g : Nat) (a : List (Option Nat)) (b : List Nat) : List Val :=
  (((a.zip b).drop (size * g)).take size).filterMap fun x => x.1.map fun v => product fa fb v x.2

/-- The new accumulator value of one output element, and whether it saturated (R105 to R108). -/
def accumulate (fa fb : Fmt) (pk : Nat) (row : ARow) (b : List Nat) (bs : List Nat) (x : Nat) : Nat × Bool :=
  let cls := mxClass fa
  let size := cls.group
  (List.range (cdiv pk size)).foldl (fun acc g =>
    let ps := groupProducts fa fb size g row.a b
    match cls with
    | .i8 =>
      let p := ps.foldl (fun (t : Int) v => match v with
        | .fin n m e _ => t + Val.scaled n m e 0
        | _ => t) 0
      let r := addI32 acc.1 p
      (r.1, acc.2 || r.2)
    | .s32 | .s64 =>
      (ps.foldl (fun y v => (encodeVal fa .rne false (addVal v (decodeVal fa y) false)).code) acc.1, false)
    | _ =>
      (addF32 acc.1 (groupCode (ps.foldl (fun t v => addVal t v false) .zero) (row.sc.getD g 127) (bs.getD g 127)), false))
    (x, false)

/-- The accumulator word or words of a value: two for F64, the low bits in the even word (R107). -/
def accGet (acc : Table (BitVec 32)) (w ws : Nat) : Nat :=
  (tget 0 acc w).toNat + (if ws = 2 then 2 ^ 32 * (tget 0 acc (w + 1)).toNat else 0)
def accPut (acc : Table (BitVec 32)) (w ws v : Nat) : Table (BitVec 32) :=
  let acc := tput 0 acc w (BitVec.ofNat 32 v)
  if ws = 2 then tput 0 acc (w + 1) (BitVec.ofNat 32 (v / 2 ^ 32)) else acc

/-- The updates of an interval: the new words and whether any update saturated. -/
def intervalWords (fa fb : Fmt) (m : Mx) (bsc : List (List Nat)) (rows : List ARow) (acc0 : Table (BitVec 32)) :
    Table (BitVec 32) × Bool :=
  let ws := if mxClass fa = .s64 then 2 else 1
  let pk := m.live.pk
  (List.range m.live.pn).foldl (fun r n =>
    let b := (List.range pk).map fun k => (tget 0 m.live.cells (256 * k + n)).toNat
    let bs := bsc.map fun l => l.getD n 127
    rows.foldl (fun r row =>
      let w := row.base + ws * n
      let x := accumulate fa fb pk row b bs (accGet r.1 w ws)
      (accPut r.1 w ws x.1, r.2 || x.2)) r) (acc0, false)

/-! ### Steps (R211 to R218) -/

/-- R212: the row coordinate, c2 and first accumulator word of row `r` of interval `j`. -/
def rowSel (t : TileRow) (row0 pitch j r : Nat) : Nat × Nat × Nat :=
  let rows := t.rows.toNat + 1
  let y := row0 + (if t.sela = 1 then j * rows else if t.sela = 2 then 2 * j * rows else 0) + r
  (y, if t.sela = 3 then j else 0, 512 * t.bank.toNat + ((if t.selc = 1 then j * rows else 0) + r) * pitch)

/-- R216: the logical length L of a compressed row. -/
def sparseL (pk : Nat) : Nat := 4 * cdiv pk 4

/-- R217: legal nibbles have i0 < i1. -/
def nibLegal (x : Nat) : Bool := x % 4 < x / 4
/-- R218: the code at each logical position below PK, from the kept values and the nibbles. -/
def spreadRow (pk : Nat) (vals nibs : List Nat) : List (Option Nat) :=
  (List.range pk).map fun k =>
    let x := nibs.getD (k / 4) 0
    if k % 4 = x % 4 then vals[2 * (k / 4)]? else if k % 4 = x / 4 then vals[2 * (k / 4) + 1]? else none

/-- Tokens that a row of SRC 0 takes (R215, R216). -/
def rowTokens (sparse : Bool) (f : Fmt) (pk : Nat) : Nat :=
  if sparse then cdiv (sparseL pk) 16 + cdiv (sparseL pk) 64 else cdiv pk f.perToken

/-- The first illegal nibble of a row (R217); those of the last byte or token whose groups lie at k ≥ PK count too. -/
def Gather.meta (g : Gather) (row : Nat) (nibs : List Nat) : Gather :=
  if g.stop.isSome || !g.asks.isEmpty then g
  else
    match nibs.zipIdx.find? fun x => !nibLegal x.1 with
    | some (x, q) => { g with stop := some (.trap codeIllegalMeta 0 row x q) }
    | none => g

/-- One activation row from memory (SRC 1): its codes by k. -/
def Gather.memRow (g : Gather) (cl k : Nat) (t : Take) (ten : Tensor) (sparse : Bool) (pk k0 row y c2 : Nat) :
    Gather × List (Option Nat) :=
  let at' (n i : Nat) : Coord := ⟨k0 + n + i, y, c2, 0⟩
  if sparse then
    let l := sparseL pk
    let v := g.elems cl k t ten row ((List.range (l / 2)).map (at' 0))
    let b := v.1.elems cl k t ten row ((List.range (cdiv (l / 4) 2)).map (at' (l / 2)))
    let nibs := (List.range (2 * cdiv (l / 4) 2)).map fun q => b.2.getD (q / 2) 0 / 16 ^ (q % 2) % 16
    (b.1.meta row nibs, spreadRow pk v.2 nibs)
  else
    let v := g.elems cl k t ten row ((List.range pk).map (at' 0))
    (v.1, v.2.map some)

/-- One activation row from tokens (SRC 0). -/
def Gather.tokRow (g : Gather) (f : Fmt) (sparse : Bool) (pk row : Nat) (toks : List Word) : Gather × List (Option Nat) :=
  if sparse then
    let l := sparseL pk
    let nv := cdiv l 16
    let vals := (List.range (l / 2)).map fun i => (toks.getD (i / 8) 0).toNat / 2 ^ (8 * (i % 8)) % 256
    let nibs := (List.range (16 * cdiv l 64)).map fun q => (toks.getD (nv + q / 16) 0).toNat / 16 ^ (q % 16) % 16
    (g.meta row nibs, spreadRow pk vals nibs)
  else
    (g, (List.range pk).map fun k =>
      some ((toks.getD (k / f.perToken) 0).toNat / 2 ^ (f.width * (k % f.perToken)) % 2 ^ f.width))

/-- The activation rows of an interval, without their scales. -/
def Gather.rows (g : Gather) (cl k : Nat) (t : Take) (ten : Tensor) (sparse src : Bool) (r : TileRow) (row0 k0 j pk : Nat)
    (toks : List Word) : List Nat → Gather × List ARow
  | [] => (g, [])
  | i :: rest =>
    let f := fmtOf r.afmt r.sub
    let x := rowSel r row0 (native f).2.2 j i
    let per := rowTokens sparse f pk
    let a := if src then g.memRow cl k t ten sparse pk k0 i x.1 x.2.1 else g.tokRow f sparse pk i ((toks.drop (i * per)).take per)
    let q := a.1.rows cl k t ten sparse src r row0 k0 j pk toks rest
    (q.1, { y := x.1, base := x.2.2, a := a.2, sc := [] } :: q.2)

/-- The A scales of the rows (R209). -/
def Gather.ascales (g : Gather) (cl k : Nat) (t : Take) (rec : Option ScaleRec) (ng : Nat) :
    List (ARow × Nat) → Gather × List ARow
  | [] => (g, [])
  | (x, i) :: rest =>
    let a := g.scales cl k t rec i ((List.range ng).map fun q => 8 * x.y + q)
    let q := a.1.ascales cl k t rec ng rest
    (q.1, { x with sc := a.2 } :: q.2)

/-- The B scales by group and column (R209). They belong to no row: ROW of a trap is 0 (DESIGN CHOICE, log 47). -/
def Gather.bscales (g : Gather) (cl k : Nat) (t : Take) (rec : Option ScaleRec) (pn : Nat) : List Nat → Gather × List (List Nat)
  | [] => (g, [])
  | q :: rest =>
    let a := g.scales cl k t rec 0 ((List.range pn).map fun n => 256 * q + n)
    let b := a.1.bscales cl k t rec pn rest
    (b.1, a.2 :: b.2)

/-- R215: fetch tokens of an input port until `n` past its position have arrived. -/
def State.pullTokens (s : State) (cl p : Nat) (t : Take) (b : Binding) (n per : Nat) : Nat → State × Option MxStop
  | 0 => (s, some .wait)
  | fuel + 1 =>
    let x := s.inPort cl p
    let row := (x.got - x.pos) / per
    if x.pos + n ≤ x.got then (s, none)
    else if (b.walk (t.tensor b.tid.toNat)).ntok ≤ x.got then (s, some (.trap codeMxUnderrun 0 row 0 0))
    else
      match s.readToken cl p t b with
      | (s, .done) => s.pullTokens cl p t b n per fuel
      | (s, .asked) => (s.updIn cl p fun x => { x with mxAsk := true }, some .wait)
      | (s, .wait) => (s, some .wait)
      | (s, .abort) => (s, some (.trap codeMxAbort b.tid.toNat row 0 0))
      | (s, .fault c off) => (s, some (.fault 1 c (t.logical cl false p) b.tid.toNat off))

/-- The tokens that an interval of SRC 0 takes: its stream's next tokens, or a stop. A port that is unbound, with no command
queued, gives MX-UNDERRUN at ROW 0 (DESIGN CHOICE, log 47). -/
def State.mxTokens (s : State) (cl : Nat) (t : Take) (h : Handle) (n per : Nat) : State × List Word × Option MxStop :=
  match h with
  | .stream _ _ port _ =>
    match t.physical cl false port with
    | none => (s, [], some (.trap codeMxUnderrun 0 0 0 0))
    | some p =>
      let x := s.inPort cl p
      match x.bound with
      | none => (s, [], some (if x.cmds.isEmpty then .trap codeMxUnderrun 0 0 0 0 else .wait))
      | some b =>
        let s := s.updIn cl p fun x => { x with pulled := true }
        match s.pullTokens cl p t b n per (n + 1) with
        | (s, some x) => (s, [], some x)
        | (s, none) =>
          let x := s.inPort cl p
          let toks := (x.buf.drop (x.pos - x.base)).take n
          if x.cons.isEmpty then (s, toks, none)
          else ({ s with fresh := s.fresh + n }, (List.range n).map fun i => Config.freeWord (s.fresh + i), none)
  | _ => (s, [], some .wait)

/-- The tokens leave the port when the interval takes effect. -/
def State.mxTake (s : State) (cl : Nat) (t : Take) (h : Handle) (n : Nat) : State :=
  match h with
  | .stream _ _ port _ =>
    match t.physical cl false port with
    | some p => s.updIn cl p fun x =>
        ({ x with pos := x.pos + n
                  cons := x.cons.map fun (c : Consumer) => if c.rd = x.pos then { c with rd := c.rd + n } else c } : InPort).trim
    | none => s
  | _ => s

/-- The abort completion of a read of an input port (R265): MX-ABORT where a matrix step has asked for it, and the replays of
R331. -/
def State.portAbort (s : State) (cl p : Nat) : State :=
  let x := s.inPort cl p
  let s' := s.inAbort cl p
  if x.mxAsk then
    match (s.mxOf cl).holder.bind s.take?, (s.mxOf cl).queue, x.bound with
    | some t, i :: _, some b =>
      match i.op with
      | .step sparse _ r _ _ _ =>
        s'.mxStop cl t i (.trap codeMxAbort b.tid.toNat
          ((x.got - x.pos) / rowTokens sparse (fmtOf r.afmt r.sub) (s.mxOf cl).live.pk) 0 0)
      | _ => s'
    | _, _, _ => s'
  else s'

/-- The first row of an interval whose accumulator words hold an uncorrectable error (R331): row, first word, words. -/
def State.accError (s : State) (cl : Nat) (l : List (Nat × Nat × Nat)) : Option Nat :=
  (l.find? fun x => (s.cluster cl).accBad.any fun w => x.2.1 ≤ w && w < x.2.1 + x.2.2).map (·.1)
/-- R331: the engine meets it as an abort completion, and it is detected. No tensor is concerned, and TID is 0 (R224's
"otherwise 0", DEDUCED, log 47). -/
def State.accAbort (s : State) (cl : Nat) (t : Take) (i : MxItem) (row : Nat) : State :=
  (s.detectUe (dieOf cl) cl t.id chipInfo).mxStop cl t i (.trap codeMxAbort 0 row 0 0)

/-- Does the pairing run (R104, R216)? -/
def pairingRuns (sparse : Bool) (fa fb : Fmt) : Bool := if sparse then sparseWeight fb else mxClass fa == mxClass fb

/-- One interval of a step (R214). DESIGN CHOICE, log 47: of several traps the one named is the first in the order plane, pairing,
tokens, activation rows, A scales, B scales, accumulator words; and ROW of MX-NOPLANE and MX-PAIRING is 0. -/
def State.mxStepInterval (s : State) (cl : Nat) (t : Take) (i : MxItem) (sparse src : Bool) (r : TileRow) (h : Handle)
    (row0 k0 : Nat) : State :=
  let m := s.mxOf cl
  let fa := fmtOf r.afmt r.sub
  let fb := fmtOf m.live.fmt m.live.sub
  let pk := m.live.pk
  if !m.live.pv then s.mxStop cl t i (.trap codeMxNoplane 0 0 0 0)
  else if !pairingRuns sparse fa fb then s.mxStop cl t i (.trap codeMxPairing 0 0 0 0)
  else
    let rows := r.rows.toNat + 1
    let per := rowTokens sparse fa pk
    let tid := match h with
      | .tensor tid | .stream _ _ _ tid => tid.toNat
      | .empty => 0
    let tk : State × List Word × Option MxStop := if src then (s, [], none) else s.mxTokens cl t h (rows * per) per
    match tk.2.2 with
    | some x => tk.1.mxStop cl t i x
    | none =>
      let s := tk.1
      let ng := cdiv pk (mxClass fa).group
      let g0 : Gather := { s := s, vals := i.reads.filterMap (·.val), asks := [], stop := none }
      let a := g0.rows cl i.k t (t.tensor tid) sparse src r row0 k0 i.next pk tk.2.1 (List.range rows)
      let a := if m.mode.getLsbD 0 && takesScale fa then a.1.ascales cl i.k t m.sca ng a.2.zipIdx else a
      let b := if m.mode.getLsbD 1 && takesScale fb then a.1.bscales cl i.k t m.scb m.live.pn (List.range ng) else (a.1, [])
      b.1.finish s cl t i fun s =>
        match s.accError cl (a.2.zipIdx.map fun x => (x.2, x.1.base, (if mxClass fa = .s64 then 2 else 1) * m.live.pn)) with
        | some row => s.accAbort cl t i row
        | none =>
        let w := intervalWords fa fb m b.2 a.2 (s.cluster cl).acc
        let s := (s.updCluster cl fun c => { c with acc := w.1 }).setFstat cl i.k 0 w.2
        let s := s.updCtx cl i.k fun c => { c with steps := c.steps + 1 }
        let s := if src then s else s.mxTake cl t h (rows * per)
        s.mxNext cl i (r.rpt.toNat + 1)

/-- MX_INTERVAL (R214): the next interval of the step at the head of the queue. -/
def execMxInterval (cl : Nat) (s : State) : Out :=
  match s.mxReady cl with
  | some (t, i) =>
    match i.op with
    | .step sparse src r h row0 k0 => .next (s.mxStepInterval cl t i sparse src r h row0.toNat k0.toNat)
    | _ => .next s
  | none => .next s

/-! ### Reads (R220, R221) -/

/-- The converted values of an accumulator row, with the flags INVALID and INTSAT. -/
def readRow (acc : Table (BitVec 32)) (src : RdSrc) (f : Fmt) (rm : Rm) (base : Nat) : List Enc :=
  (List.range src.cols).map fun n => encodeVal f rm false (decodeVal src.fmt (accGet acc (base + src.ws * n) src.ws))

/-- Every word of a row becomes 0 (RDCLR). -/
def clearRow (acc : Table (BitVec 32)) (src : RdSrc) (base : Nat) : Table (BitVec 32) :=
  acc.filter fun x => x.1 < base || base + src.ws * src.cols ≤ x.1

/-- A row of codes as data tokens (R102). -/
def packRow (f : Fmt) : Nat → List Nat → List Word
  | 0, _ => []
  | n + 1, l => if l.isEmpty then [] else tokenOf f true (l.take f.perToken) :: packRow f n (l.drop f.perToken)

def State.readFlags (s : State) (cl k : Nat) (f : Fmt) (es : List Enc) : State :=
  (s.setFstat cl k 1 (es.any (·.inv))).setFstat cl k 0 (f.isInt && es.any (·.sat))

/-- The path of a tensor's residence (R180). -/
def resPath (res : Nat) : Path :=
  match res with
  | 0 => .v | 1 => .h | 2 => .x | _ => .p

/-- R221: one posted write of MX.READ; an abort is kept for the next reporting point. -/
def State.mxWrite (s : State) (cl k : Nat) (ten : Tensor) (c : Coord) (v : Nat) (l : Loc) : State :=
  let path := resPath ten.res
  match l with
  | .key a =>
    let x := ten.elemBytes c (s.peek a ten.unit) v
    match s.tryWrite (a + x.1) x.2 with
    | some s => s
    | none =>
      (s.uncorrectable (a + x.1) x.2.length cl (s.ctx cl k).take).updCtx cl k fun q =>
        { q with aborts := q.aborts ++ [⟨ten.tid, some path⟩] }
  | .peer pkg lease o =>
    (s.updCtx cl k fun q => { q with posted := q.posted ++ [⟨pkg, ten.tid.toNat, lease, some path, ten.isSo⟩] }).sendMem pkg
      (.mxReadWrite cl k ten.tid.toNat path) lease o (ten.elemReq c v)

/-- The first row of an interval that fails a TRAP bound (R221). -/
def boundRow (ten : Tensor) : List (Nat × Coord × Nat) → Option Nat
  | [] => none
  | (row, _, v) :: rest => if ten.bound v = .trap then some row else boundRow ten rest

/-- R280: must the writes of an interval of MX.READ wait for earlier ones of the reads? -/
def CueCtx.readsWait (c : CueCtx) (ten : Tensor) : Bool := c.posted.any fun x => x.mx.isSome && (ten.isSo || x.so)

/-- RDCLR: the words of the rows become 0. -/
def State.clearRows (s : State) (cl : Nat) (src : RdSrc) (bases : List Nat) : State :=
  s.updCluster cl fun c => { c with acc := bases.foldl (fun a x => clearRow a src x) c.acc }

/-- An interval of MX.READ to a tensor. -/
def State.mxReadTensor (s : State) (cl : Nat) (t : Take) (i : MxItem) (r : TileRow) (tid row0 c0 : Nat) (src : RdSrc)
    (rm : Rm) (clr : Bool) : State :=
  let ten := t.tensor tid
  let f := fmtOf r.afmt r.sub
  let rows := (List.range (r.rows.toNat + 1)).map fun q => (q, rowSel r row0 src.pitch i.next q)
  let acc := (s.cluster cl).acc
  let conv := rows.map fun x => (x.1, x.2.1, x.2.2.1, readRow acc src f rm x.2.2.2)
  let els : List (Nat × Coord × Nat) := conv.flatMap fun x => x.2.2.2.zipIdx.filterMap fun e =>
    let c : Coord := ⟨c0 + e.2, x.2.1, x.2.2.1, 0⟩
    if ten.inExtents c then some (x.1, c, e.1.code) else none
  let done (ev : List Coord) (s : State) : State :=
    let s := (s.boundEvents t.id tid ev).readFlags cl i.k f (conv.flatMap fun x => x.2.2.2)
    (if clr then s.clearRows cl src (rows.map fun x => x.2.2.2) else s).mxNext cl i (r.rpt.toNat + 1)
  let checked (k : List Nat → List Coord → State) : State :=
    match boundRow ten els, checkElems ten (els.map (·.2)) with
    | some row, _ => s.mxStop cl t i (.trap codeMxBound tid row 0 0)
    | none, some (out, ev) => k (out.map (·.2)) ev
    | none, none => s
  match s.spread t ten false true false (els.map (·.2.1)) with
  | .fault c off => s.mxStop cl t i (.fault 4 c i.k tid off)
  | .wait => s.stallsAll t ten (els.map (·.2.1))
  | .abort => checked fun _ ev =>
    done ev (s.updCtx cl i.k fun q => { q with aborts := q.aborts ++ [⟨ten.tid, some (resPath ten.res)⟩] })
  | .keys l =>
    if (s.ctx cl i.k).readsWait ten then s
    else checked fun vals ev => done ev ((l.zip vals).foldl (fun s x => s.mxWrite cl i.k ten x.1.1 x.2 (.key x.1.2)) s)
  | .peer l =>
    if (s.ctx cl i.k).readsWait ten then s
    else checked fun vals ev =>
      done ev ((l.zip vals).foldl (fun s x => s.mxWrite cl i.k ten x.1.1 x.2 (.peer x.1.2.1 x.1.2.2.1 x.1.2.2.2)) s)

/-- Give the tokens of a row to an output port, as far as it accepts them. -/
def State.mxSendRow (s : State) (cl p : Nat) : List Word → State
  | [] => s
  | v :: rest => if s.canAccept cl p then (s.updOut cl p fun x => x.accept v false none).mxSendRow cl p rest else s

/-- Must the read wait for the port: a bind is still queued, or the port is full or stopped (R221, R273, R336)? -/
def State.portBlocks (s : State) (cl p : Nat) (t : Take) : Bool :=
  let x := s.outPort cl p
  match x.bound with
  | none => !x.cmds.isEmpty
  | some b =>
    x.nacc < (b.walk (t.tensor b.tid.toNat)).ntok
      && (x.stop || 2048 ≤ (x.held.filter fun y => y.rid.isSome).length)

/-- An interval of MX.READ to a stream: its rows in order. The tokens of the engine are committable at once (R336), so that
a port that is not full takes every row. Those for a port that is unbound, with no command queued, are discarded, and the
read completes (DESIGN CHOICE, log 47). -/
def State.mxReadStream (s : State) (cl : Nat) (t : Take) (i : MxItem) (r : TileRow) (port : BitVec 4) (row0 : Nat)
    (src : RdSrc) (rm : Rm) (clr : Bool) : State :=
  let f := fmtOf r.afmt r.sub
  let bases := (List.range (r.rows.toNat + 1)).map fun q => (rowSel r row0 src.pitch i.next q).2.2
  let rows := bases.map fun b => readRow (s.cluster cl).acc src f rm b
  let p := t.physical cl true port
  if p.any fun q => s.portBlocks cl q t then s
  else
    let s := match p with
      | some q => rows.foldl (fun (s : State) (es : List Enc) => s.mxSendRow cl q (packRow f src.cols (es.map Enc.code))) s
      | none => s
    let s := s.readFlags cl i.k f rows.flatten
    (if clr then s.clearRows cl src bases else s).mxNext cl i (r.rpt.toNat + 1)

/-- MX_READ_INTERVAL (R220): the next interval of the read at the head of the queue. -/
def execMxReadInterval (cl : Nat) (s : State) : Out :=
  match s.mxReady cl with
  | some (t, i) =>
    let m := s.mxOf cl
    let src := rdSrc m.mode
    let rm := Rm.ofNat (m.mode.extractLsb' 4 3).toNat
    let clr := m.mode.getLsbD 10
    match i.op with
    | .read r h row0 c0 =>
      match s.accError cl ((List.range (r.rows.toNat + 1)).map fun q =>
          (q, (rowSel r row0.toNat src.pitch i.next q).2.2, src.ws * src.cols)) with
      | some row => .next (s.accAbort cl t i row)
      | none =>
      match h with
      | .tensor tid => .next (s.mxReadTensor cl t i r tid.toNat row0.toNat c0.toNat src rm clr)
      | .stream _ _ port _ => .next (s.mxReadStream cl t i r port row0.toNat src rm clr)
      | .empty => .next s
    | _ => .next s
  | none => .next s

end Sys2Proof.Machine
end

