-- ==== Sys2Proof/Machine/Zones.lean ====
section
/-! DEFINITION. Landing zones: ZONE.OPEN, ARM, STAT, SWEEP, CLOSE, RSV and REL, the slots (R38, R246), reservations
(R247), arrivals and the barrier (R250), and the status word (R39, R252). -/

namespace Sys2Proof.Machine

/-! ### The status word (R39) -/

def Zone.opened (z : Zone) : Bool := bit z.word 63
def Zone.ovr (z : Zone) : Bool := bit z.word 62
def Zone.linkLost (z : Zone) : Bool := bit z.word 61
def Zone.armed (z : Zone) : Bool := bit z.word 60
def Zone.zswLost (z : Zone) : Bool := bit z.word 59
def Zone.count (z : Zone) : Nat := bits z.word 47 0
/-- ORPHCNT: the slots in ORPHANED. -/
def Zone.orphans (z : Zone) : Nat := (z.slots.filter fun x => x.2.st == .orphaned).length

/-- A status word; ORPHCNT is computed, and ZSWLOST stays as the zone's own copy has it. -/
def Zone.mkWord (z : Zone) (opened ovr lost armed : Bool) (count : Nat) : Word :=
  flag opened 63 ||| flag ovr 62 ||| flag lost 61 ||| flag armed 60 ||| flag z.zswLost 59 ||| at_ (z.orphans % 128) 48
    ||| at_ (count % 2 ^ 48) 0

/-- Write the status word at ZSW (R39); a write that meets an abort completion sets ZSWLOST (R252). -/
def State.writeZsw (s : State) (cl n : Nat) (w : Word) : State :=
  let z := s.zone cl n
  let key := vaultKey cl z.zsw.toNat
  match s.tryWrite key (wordBytes (w &&& ~~~ flag true 59)) with
  | some s => s.updZone cl n fun z => { z with word := w }
  | none => (s.uncorrectable key 8 cl z.owner).updZone cl n fun z => { z with word := w ||| flag true 59 }

/-- The same when a field has changed. -/
def State.syncZsw (s : State) (cl n : Nat) (w : Word) : State := if (s.zone cl n).word = w then s else s.writeZsw cl n w

def Zone.slot (z : Zone) (n : Nat) : Slot := tget {} z.slots n
def State.updSlot (s : State) (cl n sl : Nat) (f : Slot → Slot) : State :=
  s.updZone cl n fun z => { z with slots := tupd {} z.slots sl f }

/-- Every slot's SCNT becomes 0. -/
def Zone.clearCounts (z : Zone) : Zone := { z with slots := tmap {} (fun _ (x : Slot) => { x with scnt := 0 }) z.slots }

/-- The size of a slot, and of the area, in bytes; the vault address of the area. -/
def Zone.slotBytes (z : Zone) : Nat := 256 * z.ssize.toNat
def Zone.areaBytes (z : Zone) : Nat := z.slotBytes * z.nslot.toNat
def Zone.base (z : Zone) : Nat := 256 * z.zbase.toNat

/-! ### ZONE.OPEN (R245, R256) -/

/-- EINFO of the zone traps (R256). -/
def zoneInfo (z reason : Nat) : Word := at_ reason 4 ||| at_ (z % 8) 0

/-- Where `n` bytes of a tensor lie in the home vault of a cluster, when the place rules of R245 hold: within the size,
in leased plots of this vault, in consecutive frames. -/
def State.homeArea (s : State) (t : Take) (ten : Tensor) (cl off n : Nat) : Option Nat :=
  if ten.size < off + n then none
  else
    match s.translate t ten off false false false with
    | .ok (.key a) =>
      if isVault a && vaultCl a == cl && (List.range ((off + n - 1) / 65536 - off / 65536)).all (fun i =>
          s.translate t ten (65536 * (off / 65536 + i + 1)) false false false
            == .ok (.key (a + 65536 * (off / 65536 + i + 1) - off)))
        && vaultAddr a + n ≤ 2 ^ 25
      then some (vaultAddr a) else none
    | _ => none

/-- Is a plot of a range being moved, all of whose plots are leased and in vaults? The instruction then waits for it, as
an access would (R318). A range with any other plot fails the place rules however a move ends. -/
def State.areaMoves (s : State) (t : Take) (ten : Tensor) (off n : Nat) : Bool :=
  let at_ (i : Nat) : Trans := s.translate t ten (65536 * i) false false false
  ten.res == 0 && off + n ≤ ten.size && (unitsOf 65536 off n).any (fun i => at_ i == .wait)
    && (unitsOf 65536 off n).all fun i => match at_ i with
      | .wait => true
      | .ok (.key a) => isVault a
      | _ => false

/-- The first of two handles that names no tensor. -/
def badHandle (s : State) (a b : HReg) : Option HReg :=
  if (s.handle a).kind ≠ 1 then some a else if (s.handle b).kind ≠ 1 then some b else none

def Handle.tid : Handle → Nat
  | .tensor t => t.toNat
  | .stream _ _ _ t => t.toNat
  | .empty => 0

/-- Does a range meet the area of an open zone? -/
def Cluster.meetsZone (c : Cluster) (a n : Nat) : Bool :=
  c.zones.any fun x => x.2.open_ && overlaps x.2.base x.2.areaBytes a n

/-- ZONE.OPEN (R245). DESIGN CHOICE, log 52: bits [31:4] of S[a] and S[b] are not looked at, and EINFO of TENSOR-RANGE, which R165
lays out for a coordinate, has index 0 and the byte offset as the value. -/
def execZoneOpen (d a b : Reg) (nslot : BitVec 6) (z : BitVec 3) (s : State) : Out :=
  match s.myTake with
  | none => .next s
  | some t =>
    let zn := z.toNat
    let n := nslot.toNat + 1
    let size := (s.reg d).toNat
    let ha : HReg := (s.reg a).setWidth 4
    let hb : HReg := (s.reg b).setWidth 4
    let oa := bits (s.reg a) 63 32
    let ob := bits (s.reg b) 63 32
    let ta := t.tensor (s.handle ha).tid
    let tb := t.tensor (s.handle hb).tid
    if (s.zone s.curCl zn).open_ then .next (s.trap codeZoneState (zoneInfo zn 2))
    else
      match badHandle s ha hb with
      | some h => .next (s.trap codeHandleKind (kindInfo h (s.handle h)))
      | none =>
        if ta.size ≤ oa then .next (s.trap codeTensorRange (at_ oa 32))
        else if tb.size ≤ ob then .next (s.trap codeTensorRange (at_ ob 32))
        else if oa % 256 ≠ 0 then .next (s.trap codeMisaligned (at_ oa 16 ||| at_ (s.handle ha).tid 0))
        else if ob % 8 ≠ 0 then .next (s.trap codeMisaligned (at_ ob 16 ||| at_ (s.handle hb).tid 0))
        else if size % 256 ≠ 0 || size < 256 || 1048576 < size then .next (s.trap codeZonePlace (zoneInfo zn 5))
        else if s.areaMoves t ta oa (n * size) then .next s.again
        else
          match s.homeArea t ta s.curCl oa (n * size) with
          | none => .next (s.trap codeZonePlace (zoneInfo zn 6))
          | some base =>
            if (s.cluster s.curCl).meetsZone base (n * size) then .next (s.trap codeZonePlace (zoneInfo zn 7))
            else if s.areaMoves t tb ob 8 then .next s.again
            else
              match s.homeArea t tb s.curCl ob 8 with
              | none => .next (s.trap codeZonePlace (zoneInfo zn 8))
              | some sw =>
                if (s.cluster s.curCl).meetsZone sw 8 || overlaps base (n * size) sw 8 then
                  .next (s.trap codeZonePlace (zoneInfo zn 8))
                else
                  let s := s.updZone s.curCl zn fun _ =>
                    { open_ := true, zbase := BitVec.ofNat 17 (base / 256), ssize := BitVec.ofNat 13 (size / 256)
                      nslot := BitVec.ofNat 7 n, owner := t.id, born := s.cycle, zsw := BitVec.ofNat 25 sw }
                  .next ((s.writeZsw s.curCl zn 0).goOn 2)

/-! ### ZONE.ARM, ZONE.STAT, ZONE.SWEEP (R251, R252, R254) -/

/-- ZONE-STATE reasons 1 and 3: the zone must be open and owned by the take. -/
def State.zoneFault (s : State) (zn : Nat) : Option Nat :=
  let z := s.zone s.curCl zn
  if !z.open_ then some 1 else if z.owner ≠ s.me.take then some 3 else none

/-- The barrier armed with `n` bytes (R251): the zone, and its status word. -/
def Zone.arm (z : Zone) (n : Nat) : Zone × Word :=
  let z := { z with zarm := BitVec.ofNat 48 n }
  if z.zgot.toNat = n then
    let z := { z with zgot := 0 }.clearCounts
    (z, z.mkWord true false z.linkLost true 0)
  else if n < z.zgot.toNat then
    let x := z.zgot.toNat - n
    let z := { z with zgot := 0 }.clearCounts
    (z, z.mkWord true true z.linkLost true x)
  else (z, z.mkWord false false z.linkLost true (n - z.zgot.toNat))

/-- ZONE.ARM (R251). -/
def execZoneArm (z : BitVec 3) (a : Reg) (s : State) : Out :=
  match s.zoneFault z.toNat with
  | some r => .next (s.trap codeZoneState (zoneInfo z.toNat r))
  | none =>
    let v := s.reg a
    if bits v 63 48 ≠ 0 then .next (s.trap codeZoneState (zoneInfo z.toNat 4))
    else
      let r := (s.zone s.curCl z.toNat).arm v.toNat
      .next (((s.updZone s.curCl z.toNat fun _ => r.1).writeZsw s.curCl z.toNat r.2).goOn 1)

/-- ZONE.STAT (R252). -/
def execZoneStat (d : Reg) (z : BitVec 14) (s : State) : Out :=
  .next (s.result 1 d (if (s.zoneFault z.toNat).isNone then (s.zone s.curCl z.toNat).word else 0))

/-- The orphaned slots reclaimed (R254). -/
def Zone.sweep (z : Zone) : Zone × Word :=
  let g := z.slots.foldl (fun n x => if x.2.st = .orphaned then n + x.2.scnt.toNat else n) 0
  let z := { z with
    zgot := z.zgot - BitVec.ofNat 48 g
    slots := tmap {} (fun _ (x : Slot) => if x.st = .orphaned then { x with st := .free } else x) z.slots }
  (z, z.mkWord z.opened z.ovr false z.armed (if z.armed && !z.opened then z.zarm.toNat - z.zgot.toNat else z.count))

/-- ZONE.SWEEP (R254). -/
def execZoneSweep (z : BitVec 14) (s : State) : Out :=
  match s.zoneFault z.toNat with
  | some r => .next (s.trap codeZoneState (zoneInfo z.toNat r))
  | none =>
    let r := (s.zone s.curCl z.toNat).sweep
    .next (((s.updZone s.curCl z.toNat fun _ => r.1).writeZsw s.curCl z.toNat r.2).goOn 1)

/-! ### ZONE.CLOSE (R255) -/

/-- A zone ends: 0 is written at ZSW once (`final`), and the zone number is free. -/
def State.endZone (s : State) (cl n : Nat) (final : Bool) : State :=
  let s := if final then s.writeZsw cl n 0 else s
  s.updZone cl n fun _ => {}

/-- ZONE.CLOSE (R255): the zone stops accepting; the instruction completes when the arrivals before it are performed. -/
def execZoneClose (z : BitVec 14) (s : State) : Out :=
  match s.zoneFault z.toNat with
  | some r => .next (s.trap codeZoneState (zoneInfo z.toNat r))
  | none =>
    .next ((s.updZone s.curCl z.toNat fun x => { x with closing := true }).onMe fun c =>
      { c with stall := some (.zoneClose (z.setWidth 3)) })

/-- ZONE_CLOSE_COMPLETE (R255): the arrivals accepted before the close have been performed, as each is when it is
accepted; the zone ends and the context goes on. The reset of a function ends its zones itself (R340). -/
def execZoneCloseComplete (cl z : Nat) (s : State) : Out :=
  let reset := (s.take? (s.zone cl z).owner).any fun t => s.resets t.fn
  if (s.zone cl z).open_ && (s.zone cl z).closing && !reset then
    let f (_ : Nat) (c : CueCtx) : CueCtx :=
      if c.stall = some (.zoneClose (BitVec.ofNat 3 z)) then { c with stall := none }.advance 1 else c
    .next ((s.endZone cl z true).updCluster cl fun c => { c with ctx := tmap {} f c.ctx })
  else .next s

/-! ### Orphans (R253) -/

/-- The slots of a zone whose state is HELD or FILLING and whose sender satisfies `p` become ORPHANED. -/
def State.orphanZone (s : State) (cl n : Nat) (p : Slot → Bool) : State :=
  let z := s.zone cl n
  let hit (x : Slot) : Bool := (x.st == .held || x.st == .filling) && p x
  if z.open_ && z.slots.any fun x => hit x.2 then
    let z' := { z with slots := tmap {} (fun _ (x : Slot) => if hit x then { x with st := .orphaned } else x) z.slots }
    (s.updZone cl n fun _ => z').writeZsw cl n (z'.mkWord z.opened z.ovr true z.armed z.count)
  else s

/-- The same in every zone of the package (R253). -/
def State.orphanSlots (s : State) (p : Slot → Bool) : State :=
  s.clusters.foldl (fun s c => c.2.zones.foldl (fun s z => s.orphanZone c.1 z.1 p) s) s

/-! ### Reservations (R246, R247) -/

/-- The sender that a context of the current cluster is (R38, R364). -/
def State.sender (s : State) (cl fn : Nat) : Sender := { pkg := s.pkgId.toNat, cl := cl, fn := fn }

/-- The order of senders in one cycle: package, then cluster (R247, R250). -/
def sndBefore (a b : Sender) : Bool := a.pkg < b.pkg || (a.pkg == b.pkg && a.cl < b.cl)

/-- A reservation reaches a zone: those of one cycle are served in the order of their senders (R247). -/
def State.postRsv (s : State) (cl z : Nat) (snd : Sender) (k : Nat) : State :=
  s.postBefore (fun y => match y with
    | .dev (.reservationRequest c n o _) => c == cl && n == z && sndBefore snd o
    | _ => false) (.reservationRequest cl z snd k)

/-- An arrival reaches a zone: those of one cycle are applied in the order of their senders (R250). -/
def State.postLand (s : State) (cl z slot : Nat) (snd : Sender) (take e off : Nat) (b : List Byte) (last : Bool) : State :=
  s.postBefore (fun y => match y with
    | .dev (.landingArrival c n _ o _ _ _ _ _) => c == cl && n == z && sndBefore snd o
    | _ => false) (.landingArrival cl z slot snd take e off b last)

/-- ZONE.RSV (R247). A full queue is answered before a missing route is (DESIGN CHOICE, log 52). -/
def execZoneRsv (d : Reg) (pkg : BitVec 12) (cl : BitVec 8) (z : BitVec 3) (s : State) : Out :=
  match s.myTake with
  | none => .next s
  | some t =>
    if 16 ≤ (s.copyOf s.curCl t.id).rsvs.length then .next (s.result 2 d (ofInt (-4)))
    else if pkg ≠ s.pkgId && !s.reachable pkg.toNat then .next (s.result 2 d (ofInt (-3)))
    else
      let s := s.onMe fun c => { c with stall := some (.rsv d pkg cl z) }
      let snd := s.sender s.curCl t.fn
      if pkg = s.pkgId then .next (s.postRsv cl.toNat z.toNat snd s.curK)
      else .next (s.send pkg.toNat clsLand (.rsv cl.toNat z.toNat snd s.curK))

def Slot.sentBy (x : Slot) (snd : Sender) : Bool := x.spkg.toNat == snd.pkg && x.scl.toNat == snd.cl && x.sfn.toNat == snd.fn

/-- The lowest-numbered FREE slot of a zone. -/
def Zone.freeSlot (z : Zone) : Option Nat := lowest z.nslot.toNat fun i => (z.slot i).st == .free

/-- Answer the sender of a reservation. -/
def State.rsvAnswer (s : State) (snd : Sender) (k : Nat) (code : Int) (size : Nat) : State :=
  if snd.pkg = s.pkgId.toNat then s.postDev (.reservationReply snd.cl k code size)
  else s.send snd.pkg clsLand (.rsvReply snd.cl k code size)

/-- RESERVATION_REQUEST (R246, R247): the target grants the lowest FREE slot, or answers BUSY or NOZONE. -/
def execReservationRequest (cl z : Nat) (snd : Sender) (k : Nat) (s : State) : Out :=
  let zn := s.zone cl z
  if !zn.open_ || zn.closing then .next (s.rsvAnswer snd k (-2) 0)
  else
    match zn.freeSlot with
    | none => .next (s.rsvAnswer snd k (-1) 0)
    | some i =>
      let s := s.updSlot cl z i fun _ =>
        { st := .held, spkg := BitVec.ofNat 12 snd.pkg, scl := BitVec.ofNat 8 snd.cl, sfn := BitVec.ofNat 6 snd.fn }
      if snd.pkg ≠ s.pkgId.toNat && !s.reachable snd.pkg then .next (s.orphanZone cl z fun x => x.sentBy snd)
      else .next (s.rsvAnswer snd k i zn.slotBytes)

/-- ZONE.RSV completes with a code; a granted slot enters the reservation queue. A grant that meets the loss of its route is
NOROUTE: its slot is orphaned (R253, R359). -/
def State.rsvReplied (s : State) (cl k : Nat) (code : Int) (size : Nat) : State :=
  let c := s.ctx cl k
  match c.stall with
  | some (.rsv d pkg tcl z) =>
    let code := if pkg ≠ s.pkgId && !s.reachable pkg.toNat then -3 else code
    let s := if 0 ≤ code then
        s.updCopy cl c.take fun e => { e with rsvs := e.rsvs ++ [{ pkg := pkg, cl := tcl, z := z, slot := BitVec.ofInt 6 code, size := size }] }
      else s
    s.updCtx cl k fun c => ({ c with stall := none }.setReg d (ofInt code)).advance 2
  | _ => s

/-- RESERVATION_REPLY (R247). -/
def execReservationReply (cl k : Nat) (code : Int) (size : Nat) (s : State) : Out := .next (s.rsvReplied cl k code size)

/-! ### ZONE.REL (R249) -/

/-- The release of a slot at its target. -/
def State.releaseSlot (s : State) (cl z slot : Nat) (snd : Sender) : State :=
  let zn := s.zone cl z
  if zn.open_ && (zn.slot slot).st == .held && (zn.slot slot).sentBy snd then s.updSlot cl z slot fun x => { x with st := .free }
  else s

/-- RELEASE_MESSAGE (R249): the target receives a slot release. -/
def execReleaseMessage (cl z slot : Nat) (snd : Sender) (s : State) : Out := .next (s.releaseSlot cl z slot snd)

/-- A release sent to the target. -/
def State.sendRelease (s : State) (r : Rsv) (snd : Sender) : State :=
  if r.pkg = s.pkgId then s.postDev (.releaseMessage r.cl.toNat r.z.toNat r.slot.toNat snd)
  else s.send r.pkg.toNat clsLand (.rel r.cl.toNat r.z.toNat r.slot.toNat snd)

/-- Remove the first reservation with the property. -/
def dropRsv (p : Rsv → Bool) : List Rsv → List Rsv
  | [] => []
  | r :: t => if p r then t else r :: dropRsv p t

/-- ZONE.REL (R249). -/
def execZoneRel (pkg : BitVec 12) (cl : BitVec 8) (slot : BitVec 6) (z : BitVec 3) (s : State) : Out :=
  match s.myTake with
  | none => .next s
  | some t =>
    let zn := s.zone s.curCl z.toNat
    let own := pkg = s.pkgId && cl.toNat = s.curCl && zn.open_ && zn.owner = t.id
    let hit (r : Rsv) : Bool := r.pkg == pkg && r.cl == cl && r.z == z && r.slot == slot
    let s' :=
      if own then
        if (zn.slot slot.toNat).st == .held || (zn.slot slot.toNat).st == .landed then
          s.updSlot s.curCl z.toNat slot.toNat fun x => { x with st := .free }
        else s
      else
        match (s.copyOf s.curCl t.id).rsvs.find? hit with
        | some r =>
          (s.updCopy s.curCl t.id fun e => { e with rsvs := dropRsv hit e.rsvs }).sendRelease r (s.sender s.curCl t.fn)
        | none => s
    .next (s'.goOn 2)

/-! ### Arrivals (R250) -/

/-- How an arrival ended for the sender: accepted, or an end of its entry. -/
def State.landAnswer (s : State) (snd : Sender) (take e : Nat) (r : LandResult) : State :=
  if snd.pkg = s.pkgId.toNat then s.postDev (.landingAck snd.cl take e r)
  else s.send snd.pkg clsLand (.landAck snd.cl take e r)

/-- The zone after `b` accepted bytes of slot `sl` (R250): counted, and the barrier opened when the count is reached. -/
def Zone.accept (z : Zone) (sl b : Nat) (last : Bool) : Zone × Word :=
  let up (x : Slot) : Slot :=
    { x with st := if last then .landed else .filling, sfill := x.sfill + BitVec.ofNat 21 b, scnt := x.scnt + BitVec.ofNat 21 b }
  let z := { z with slots := tupd {} z.slots sl up, zgot := z.zgot + BitVec.ofNat 48 b }
  if z.armed && !z.opened then
    if z.zgot = z.zarm then
      let z := { z with zgot := 0 }.clearCounts
      (z, z.mkWord true z.ovr z.linkLost true 0)
    else (z, z.mkWord false z.ovr z.linkLost true (z.zarm.toNat - z.zgot.toNat))
  else (z, z.mkWord z.opened z.ovr z.linkLost z.armed z.count)

/-- The zone after an arrival of `b` bytes that crosses the armed count after `k` of them. -/
def Zone.cut (z : Zone) (sl k b : Nat) : Zone × Word :=
  let up (x : Slot) : Slot := { x with st := .landed, cut := true, sfill := x.sfill + BitVec.ofNat 21 k }
  let z := { z with slots := tupd {} z.slots sl up, zgot := 0 }.clearCounts
  (z, z.mkWord true true z.linkLost true (b - k))

/-- An arrival processed at its zone: the state, and the answer. -/
def State.arrive (s : State) (cl n sl : Nat) (snd : Sender) (off : Nat) (bytes : List Byte) (last : Bool) :
    State × LandResult :=
  let z := s.zone cl n
  let x := z.slot sl
  let b := bytes.length
  if !z.open_ || z.closing || z.nslot.toNat ≤ sl then (s, .refused)
  else if x.cut then
    let c := if z.armed && !z.opened then z.zarm.toNat - z.zgot.toNat else z.count + b
    (s.syncZsw cl n (z.mkWord z.opened z.ovr z.linkLost z.armed c), .overrun)
  else if !(x.st == .held || x.st == .filling) || !x.sentBy snd then (s, if x.st = .orphaned then .link else .refused)
  else
    let isCut := z.armed && !z.opened && z.zarm.toNat - z.zgot.toNat < b
    let k := if isCut then z.zarm.toNat - z.zgot.toNat else b
    let key := vaultKey cl (z.base + sl * z.slotBytes + off)
    match s.tryWrite key (bytes.take k) with
    | none =>
      let z' := { z with slots := tupd {} z.slots sl fun x => { x with st := .orphaned } }
      let s := (s.uncorrectable key k cl z.owner).updZone cl n fun _ => z'
      (s.syncZsw cl n (z'.mkWord z.opened z.ovr z.linkLost z.armed z.count), .abort)
    | some s =>
      let r := if isCut then z.cut sl k b else z.accept sl b last
      ((s.updZone cl n fun _ => r.1).syncZsw cl n r.2, if isCut then .overrun else .done)

/-- LANDING_ARRIVAL (R250). -/
def execLandingArrival (cl z slot : Nat) (snd : Sender) (take e off : Nat) (bytes : List Byte) (last : Bool) (s : State) : Out :=
  let r := s.arrive cl z slot snd off bytes last
  .next (r.1.landAnswer snd take e r.2)

/-! ### SLOTS sources (R234, R246) -/

/-- R234: the order of senders: package, then cluster. -/
def Slot.before (a b : Slot) : Bool := a.spkg < b.spkg || (a.spkg == b.spkg && a.scl ≤ b.scl)
/-- A slot among those of a zone in that order; two of one sender stay in ascending slot number (DESIGN CHOICE, log 48). -/
def insertSlot (z : Zone) (i : Nat) : List Nat → List Nat
  | [] => [i]
  | j :: t => if (z.slot j).before (z.slot i) then j :: insertSlot z i t else i :: j :: t
/-- The LANDED slots of a zone in the order of their senders. -/
def Zone.landed (z : Zone) : List Nat :=
  ((List.range z.nslot.toNat).filter fun i => (z.slot i).st == .landed).foldl (fun l i => insertSlot z i l) []

end Sys2Proof.Machine
end

