-- ==== Sys2Proof/Machine/Copy.lean ====
section
/-! DEFINITION. The copy engine (R37, R232 to R244, R248, R257): schedule entries, stages, sectors, reductions, landings,
and sequence stamps. -/

namespace Sys2Proof.Machine

/-! ### Operators (R242) -/

/-- A combined element: its code, SAT, INVALID. -/
structure Combined where
  code : Nat
  sat : Bool
  inv : Bool
  deriving DecidableEq, Repr

/-- The new resident value from the resident code `r` and the incoming code `v` (R242). -/
def combine (op : BitVec 4) (r v : Nat) : Combined :=
  match copyOp op with
  | none => ⟨v, false, false⟩
  | some (fi, fr, .sum) =>
    let a := decodeVal fr r
    let b := decodeVal fi v
    let e := encodeVal fr .rne false (addVal a b false)
    ⟨e.code, e.sat || e.clamp, addInvalid a b || e.inv⟩
  | some (fi, fr, .cvt) =>
    let b := decodeVal fi v
    let e := encodeVal fr .rne false b
    ⟨e.code, e.sat || e.clamp, b.isSnan || e.inv⟩
  | some (_, fr, k) =>
    let m := minMax fr (k == .max) r v
    ⟨m.1, false, m.2⟩

/-! ### Checks and places of an entry (R233 to R235) -/

/-- Do the formats of the tensors and the kind of the destination allow the operator (R235, R243)? -/
def flowAllowed (t : Take) (f : Flow) : Bool :=
  let fs := (t.tensor f.src.tid).elemFmt
  let fd := (t.tensor f.dst.tid).elemFmt
  match copyOp f.op with
  | some (fi, fr, k) =>
    (!f.src.isTensor || fs == fi) && (!f.dst.isTensor || fd == fr) && (f.dst.kind != 2 || k == .cvt)
  | none => !f.src.isTensor || !f.dst.isTensor || fs.width == fd.width

/-- Row and column of element `i` (R234). -/
def CPat.rowCol (p : CPat) (i : Nat) : Nat × Nat := if p.rowlen = 0 then (0, i) else (i / p.rowlen, i % p.rowlen)
def CPat.c0 (p : CPat) : Nat := bits p.p1 31 0
def CPat.c1 (p : CPat) : Nat := bits p.p1 63 32
def CPat.c2 (p : CPat) : Nat := bits p.p2 15 0
def CPat.c3 (p : CPat) : Nat := bits p.p2 31 16

/-- Does a BOX of `n` elements lie within the extents (R240 RANGE)? -/
def CPat.boxOk (p : CPat) (t : Take) (n : Nat) : Bool :=
  if p.kind ≠ 0 || n = 0 then true
  else
    let j := if p.rowlen = 0 then n - 1 else min n p.rowlen - 1
    (t.tensor p.tid).inExtents ⟨p.c0 + j, p.c1 + (p.rowCol (n - 1)).1, p.c2, p.c3⟩

/-! ### Activation (R234, R237, R243) -/

def CopyEnt.active (x : CopyEnt) : Bool := x.st == .active
/-- Has an entry not ended, or a sequence stamp that is not acknowledged (R241)? -/
def CopyEnt.busy (x : CopyEnt) : Bool := x.active || x.stamp.isSome
/-- An entry meets its end: DONE for 0, or ERROR with the code; the first end counts. -/
def CopyEnt.finish (x : CopyEnt) (code : BitVec 4) : CopyEnt := if x.fin.isSome then x else { x with fin := some code }

def ecAbort : BitVec 4 := 1
def ecOverrun : BitVec 4 := 2
def ecLink : BitVec 4 := 3
def ecRefused : BitVec 4 := 4
def ecSlotSize : BitVec 4 := 5
def ecRange : BitVec 4 := 6
def ecBound : BitVec 4 := 7
def ecCancel : BitVec 4 := 8

/-- A read of the index that a row of a GATHER destination takes; none where it cannot be read here. -/
def State.gatherIx (s : State) (cl : Nat) (t : Take) (p : CPat) (q : Nat) : State × Option Int :=
  let x := t.tensor p.xtid
  let c : Coord := ⟨p.c1 + q, 0, 0, 0⟩
  if !x.inExtents c then (s, none)
  else
    match s.translate t x (x.offset c) true false false with
    | .ok (.key a) =>
      if s.readBad a x.unit then (s, none)
      else
        let r := s.read a x.unit cl t.id
        (r.1, r.2.map fun b => sextN 32 (x.codeIn c b))
    | _ => (s, none)

/-- R244: the rows that a reducing entry with a GATHER destination adds to are read when it becomes ACTIVE, so that what it
writes is fixed from then on (DEDUCED, log 48); a row that cannot be read then is read in its turn. -/
def State.gatherRows (s : State) (cl : Nat) (t : Take) (f : Flow) : State × List (Option Int) :=
  if reduces f.op && f.dst.kind == 1 then
    (List.range (if f.dst.rowlen = 0 then min f.e 1 else cdiv f.e f.dst.rowlen)).foldl (fun r q =>
      let x := r.1.gatherIx cl t f.dst q
      (x.1, r.2 ++ [x.2])) (s, [])
  else (s, [])

/-- Entry `e` of a take becomes ACTIVE on a cluster. The slots of a SLOTS source are those of the zone as it is now (R234). -/
def State.activate (s : State) (cl : Nat) (t : Take) (e : Nat) (w : Sched) : State :=
  let op := if w.opr = 15 then (s.copyOf cl t.id).redop else w.opr
  let z := s.zone cl w.src.slotZone.toNat
  let slots := if w.src.kind = 3 && z.open_ then z.landed else []
  let f := flowOf t w op slots.length
  let bad := !flowAllowed t f || 8 * w.bytes % f.win ≠ 0 || slots.any (fun i => (z.slot i).sfill.toNat < w.src.off + w.bytes)
    || !f.src.boxOk t f.n || !f.dst.boxOk t (if op = 0 then f.n else f.e)
  let rows := if bad then (s, []) else s.gatherRows cl t f
  rows.1.updEnt cl t.id e fun x =>
    let x := { x with st := .active, opr := op, rows := rows.2 }
    let x := if w.src.kind = 3 then
        { x with slots := slots.map (BitVec.ofNat 6), zat := z.base, zstep := z.slotBytes, zborn := z.born }
      else x
    if bad then x.finish ecRange else x

/-- The PENDING entries of this cluster whose stage has been reached become ACTIVE (R237, R238). -/
def State.activateAll (s : State) (cl : Nat) (t : Take) (lc : Nat) : State :=
  t.sched.zipIdx.foldl (fun s x =>
    let c := s.copyOf cl t.id
    if x.1.tcl = lc && x.1.stage ≤ c.stage.toNat && (tget {} c.ents x.2).st == .pending then s.activate cl t x.2 x.1 else s) s

def Take.lcOf (t : Take) (cl : Nat) : Nat :=
  match t.placeOf cl with
  | some p => p.lc
  | none => 0

/-- R280: must a CP.ADV to a stage wait: the reads of an entry that it activates follow the context's earlier stream reads and
matrix reads, one of the two being of SO plots? -/
def State.advWaits (s : State) (t : Take) (stage : Nat) : Bool :=
  let c := s.copyOf s.curCl t.id
  let q := (s.mxOf s.curCl).queue.filter fun i => i.k == s.curK
  let l := t.sched.zipIdx.filter fun (x : Sched × Nat) =>
    Sched.tcl x.1 == t.lcOf s.curCl && Sched.stage x.1 ≤ stage && (tget {} c.ents x.2).st == .pending
  let so := l.any fun (x : Sched × Nat) => (flowOf t x.1 (if Sched.opr x.1 = 15 then c.redop else Sched.opr x.1) 1).readsMem t true
  !l.isEmpty && (s.streamsLeft s.curCl t (!so) || q.any fun i => i.op.reads (s.mxOf s.curCl) fun tid => so || (t.tensor tid).isSo)

/-- CP.ADV (R238). The reads of the entries that it activates follow the earlier stores of the context (R237); that it
stalls for those, and for reads that R280 puts before them, is DEDUCED, log 9. -/
def execCpAdv (n : BitVec 14) (s : State) : Out :=
  match s.myTake with
  | none => .next s
  | some t =>
    let st := (s.copyOf s.curCl t.id).stage
    if 255 < st.toNat + n.toNat then .next (s.trap codeCpStageLimit (at_ n.toNat 8 ||| at_ st.toNat 0))
    else if s.me.storesOut || s.advWaits t (st.toNat + n.toNat) then .next s.again
    else
      let s := s.updCopy s.curCl t.id fun c => { c with stage := c.stage + n.setWidth 8 }
      .next ((s.activateAll s.curCl t (t.lcOf s.curCl)).goOn 1)

/-- The status word of an entry (R239). -/
def CopyEnt.word (x : CopyEnt) : Word :=
  at_ (match x.st with | .pending => 0 | .active => 1 | .done => 2 | .error => 3) 62 ||| at_ x.ecode.toNat 58
    ||| flag x.sat 57 ||| flag x.inv 56 ||| at_ x.doneb.toNat 0

/-- What CP.STAT reads of an entry on a cluster (R239). -/
def State.entryWord (s : State) (cl : Nat) (t : Take) (e : Nat) : Word :=
  match t.sched[e]? with
  | some w => if w.tcl = t.lcOf cl then (tget {} (s.copyOf cl t.id).ents e).word else 0
  | none => 0

/-- CP.STAT (R239). -/
def execCpStat (d : Reg) (e : BitVec 14) (s : State) : Out :=
  match s.myTake with
  | none => .next s
  | some t => .next (s.result 1 d (s.entryWord s.curCl t e.toNat))

/-- CP.REDOP (R243). -/
def execCpRedop (op : BitVec 4) (s : State) : Out :=
  .next ((s.updCopy s.curCl s.me.take fun c => { c with redop := op }).goOn 1)

/-! ### The reduction order (R244) -/

/-- The place of a byte of a tensor, whether or not its plot is being moved; a plot without a frame stands by its number. -/
def Tensor.standing (ten : Tensor) (fn o : Nat) : Loc :=
  let e := ten.entry (o / 65536)
  if entryV e then ten.place fn e o else .peer (bits ten.rloc 63 52) (65536 + ten.tid.toNat) o

/-- The bytes that an entry writes, as places of the plots (R244): those of each element; where a row of a GATHER destination
is not known yet, the whole leased tensor. -/
def Take.destRanges (t : Take) (f : Flow) (rows : List (Option Int)) : List (Loc × Nat) :=
  let ten := t.tensor f.dst.tid
  let el (i : Nat) (c1 : Nat) : Loc × Nat :=
    (ten.standing t.fn (ten.offset ⟨f.dst.c0 + (f.dst.rowCol i).2, c1, f.dst.c2, f.dst.c3⟩), ten.unit)
  if f.dst.kind = 0 then (List.range f.e).map fun i => el i (f.dst.c1 + (f.dst.rowCol i).1)
  else
    match (List.range f.e).mapM fun i => (rows[(f.dst.rowCol i).1]?).join with
    | some l => l.zipIdx.filterMap fun x => if x.1 < 0 then none else some (el x.2 x.1.toNat)
    | none => (List.range ten.lcount).map fun i => (ten.standing t.fn (65536 * (ten.lfirst + i)), 65536)

def rangesMeet (a b : List (Loc × Nat)) : Bool :=
  a.any fun x => b.any fun y =>
    match x.1, y.1 with
    | .key k, .key m => overlaps k x.2 m y.2
    | .peer p l o, .peer q m u => p == q && l == m && overlaps o x.2 u y.2
    | _, _ => false

/-- An entry on one of the take's clusters that may still write: an operator that it has or may take, and the rows of its
destination that are fixed. -/
structure Rival where
  e : Nat
  w : Sched
  op : BitVec 4
  slots : Nat
  rows : List (Option Int)
  deriving DecidableEq, Repr

/-- The operators that a PENDING entry may reduce with: its own, or any that its tensors allow when CP.REDOP is to choose
(R243). -/
def Sched.operators (w : Sched) (t : Take) : List (BitVec 4) :=
  if w.opr = 15 then (List.range 16).map (BitVec.ofNat 4) |>.filter fun op => reduces op && flowAllowed t (flowOf t w op 1)
  else if reduces w.opr then [w.opr] else []

/-- The reducing entries of a take that have not ended. A PENDING one counts until its context has EXITED, with every operator
that CP.REDOP may still give it and, for a GATHER destination, whatever rows its index may come to name: what it will write is
not fixed before it is ACTIVE (DEDUCED, log 48). -/
def State.rivals (s : State) (t : Take) : List Rival :=
  t.sched.zipIdx.flatMap fun (x : Sched × Nat) =>
    match t.placeLc x.1.tcl with
    | none => []
    | some p =>
      let en := tget {} (s.copyOf p.cl t.id).ents x.2
      if !x.1.dst.isTensor then []
      else
        match en.st with
        | .active => if reduces en.opr then [⟨x.2, x.1, en.opr, en.slots.length, en.rows⟩] else []
        | .pending => if (s.ctx p.cl p.k).kstate = .exited then [] else (x.1.operators t).map fun op => ⟨x.2, x.1, op, 1, []⟩
        | _ => []

/-- Must a reducing entry wait for an earlier one that writes a byte it writes? -/
def State.reduceWaits (s : State) (t : Take) (e : Nat) (w : Sched) (f : Flow) (rows : List (Option Int)) : Bool :=
  reduces f.op && f.dst.isTensor &&
    (s.rivals t).any fun r =>
      (r.w.stage < w.stage || (r.w.stage == w.stage && r.e < e))
        && rangesMeet (t.destRanges (flowOf t r.w r.op r.slots) r.rows) (t.destRanges f rows)

/-! ### Moving elements (R234, R237, R240, R242) -/

/-- The index of a row of a GATHER: the one that was read when the entry became ACTIVE, or read now. -/
def Gather.row (g : Gather) (cl e : Nat) (t : Take) (p : CPat) (rows : List (Option Int)) (q : Nat) : Gather × Int :=
  match (rows[q]?).join with
  | some v => (g, v)
  | none =>
    let x := g.elem cl e t (t.tensor p.xtid) 0 ⟨p.c1 + q, 0, 0, 0⟩
    (x.1, sextN 32 x.2)

/-- The coordinate of element `i` of a BOX or GATHER of `n` elements; RANGE for a GATHER row outside the extents. -/
def Gather.place (g : Gather) (cl e : Nat) (t : Take) (p : CPat) (rows : List (Option Int)) (n i : Nat) : Gather × Coord :=
  let q := p.rowCol i
  if p.kind = 0 then (g, ⟨p.c0 + q.2, p.c1 + q.1, p.c2, p.c3⟩)
  else
    let x := g.row cl e t p rows q.1
    let ix := x.2
    let len := if p.rowlen = 0 then n else min p.rowlen (n - q.1 * p.rowlen)
    if x.1.stop.isSome || !x.1.asks.isEmpty then (x.1, ⟨0, 0, 0, 0⟩)
    else if ix < 0 || !(t.tensor p.tid).inExtents ⟨p.c0 + len - 1, ix.toNat, p.c2, p.c3⟩ then
      ({ x.1 with stop := some (.trap codeMxRange 0 0 0 0) }, ⟨0, 0, 0, 0⟩)
    else (x.1, ⟨p.c0 + q.2, ix.toNat, p.c2, p.c3⟩)

/-- Element `j` of slot `sl` of a SLOTS source, where the slot was when the entry became ACTIVE. -/
def Gather.slotElem (g : Gather) (cl : Nat) (t : Take) (f : Flow) (en : CopyEnt) (sl j : Nat) : Gather × Nat :=
  if g.stop.isSome then (g, 0)
  else
    let b0 := f.win * j
    let n := (b0 % 8 + f.win + 7) / 8
    match g.s.read (vaultKey cl (en.zat + sl * en.zstep + f.src.off + b0 / 8)) n cl t.id with
    | (s, some b) => ({ g with s := s }, ofBytes b / 2 ^ (b0 % 8) % 2 ^ f.win)
    | (s, none) => ({ g with s := s, stop := some (.trap codeMxAbort 0 0 0 0) }, 0)

/-- The incoming code of walk element `i`. -/
def Gather.incoming (g : Gather) (cl e : Nat) (t : Take) (f : Flow) (en : CopyEnt) (i : Nat) : Gather × Nat :=
  if f.src.kind = 3 then
    match en.slots[i / f.e]? with
    | some sl => g.slotElem cl t f en sl.toNat (i % f.e)
    | none => (g, 0)
  else
    let c := g.place cl e t f.src [] f.n i
    if c.1.stop.isSome || !c.1.asks.isEmpty then (c.1, 0) else c.1.elem cl e t (t.tensor f.src.tid) 0 c.2

/-- How the move of one element ended. -/
inductive Moved
  | ok
  | wait
  | fail (code : BitVec 4)
  | fault (cause tid off : Nat)
  deriving DecidableEq, Repr

/-- A stop of the gathering as the end of a move. -/
def movedOf : MxStop → Moved
  | .wait => .wait
  | .trap code _ _ _ _ => .fail (if code = codeMxRange then ecRange else ecAbort)
  | .fault _ c _ tid off => .fault c tid off

/-- Ask peers for the data that the next element needs; what they have returned is kept, and of SO plots one element is
asked for at a time (R280). -/
def State.askCopy (s : State) (cl : Nat) (t : Take) (e : Nat) (asks : List MxAsk) : State :=
  let now := if asks.any fun a => (t.tensor a.tid).isSo then asks.take 1 else asks
  now.foldl (fun s a => s.sendMem a.pkg (.copyEntry cl t.id e) a.lease a.off (.read a.n))
    (s.updEnt cl t.id e fun x => { x with asked := x.vals.length + now.length })

/-- Write an element of an entry at its destination, after its bound check. -/
def State.copyPut (s : State) (cl : Nat) (t : Take) (e : Nat) (ten : Tensor) (c : Coord) (v : Nat) : State × Moved :=
  match s.translate t ten (ten.offset c) false true false with
  | .fault x => (s, .fault x ten.tid.toNat (ten.offset c))
  | .wait => (s.stalls t ten (ten.offset c), .wait)
  | .abort => (s, .fail ecAbort)
  | .ok l =>
    let put (s : State) (v : Nat) : State × Moved :=
      match l with
      | .key a =>
        let x := ten.elemBytes c (s.peek a ten.unit) v
        match s.tryWrite (a + x.1) x.2 with
        | some s => (s, .ok)
        | none => (s.uncorrectable (a + x.1) x.2.length cl t.id, .fail ecAbort)
      | .peer pkg lease o =>
        ((s.updEnt cl t.id e fun x => { x with posted := x.posted ++ [pkg] }).sendMem pkg
          (.copyEntry cl t.id e) lease o (ten.elemReq c v), .ok)
    match ten.bound v with
    | .trap => (s, .fail ecBound)
    | .pass => put s v
    | .flag => put (s.boundEvent t.id ten.tid.toNat c) v
    | .clamp w => put (s.boundEvent t.id ten.tid.toNat c) w

/-- R280: does an access of the entry wait for the writes that it has posted, one of its plots being of kind SO? -/
def Flow.soWaits (f : Flow) (t : Take) (x : CopyEnt) : Bool :=
  let so (p : CPat) : Bool := p.isTensor && ((t.tensor p.tid).isSo || p.kind == 1 && (t.tensor p.xtid).isSo)
  !x.posted.isEmpty && (so f.src || so f.dst)

/-- Move walk element `i` of an entry. -/
def State.moveElem (s : State) (cl : Nat) (t : Take) (e : Nat) (f : Flow) (i : Nat) : State × Moved :=
  let en := tget {} (s.copyOf cl t.id).ents e
  if f.soWaits t en then (s, .wait)
  else
  let g : Gather := { s := s, vals := en.vals, asks := [], stop := none }
  let v := g.incoming cl e t f en i
  let done (g : Gather) (k : State → State × Moved) : State × Moved :=
    match g.stop with
    | some x => (g.s, movedOf x)
    | none => if g.asks.isEmpty then k (g.s.updEnt cl t.id e fun x => { x with vals := [], asked := 0 }) else (s.askCopy cl t e g.asks, .wait)
  let note (s : State) (r : Combined) : State :=
    s.updEnt cl t.id e fun x => { x with sat := x.sat || r.sat, inv := x.inv || r.inv }
  if f.dst.kind = 2 then
    done v.1 fun s =>
      let r := combine f.op 0 v.2
      -- with an operator every slot's elements go to the same E elements: what the last slot gives is left there
      if f.op = 0 || f.n ≤ i + f.e then
        ((note s r).updEnt cl t.id e fun x =>
          { x with obuf := x.obuf + r.code % 2 ^ f.wout * 2 ^ x.obits, obits := x.obits + f.wout }, .ok)
      else (note s r, .ok)
  else
    let ten := t.tensor f.dst.tid
    let m := if f.op = 0 then f.n else f.e
    let j := if f.op = 0 then i else i % f.e
    let c := if v.1.stop.isSome || !v.1.asks.isEmpty then (v.1, (⟨0, 0, 0, 0⟩ : Coord)) else v.1.place cl e t f.dst en.rows m j
    let r := if reduces f.op && c.1.stop.isNone && c.1.asks.isEmpty then c.1.elem cl e t ten 0 c.2 else (c.1, 0)
    done r.1 fun s =>
      let x := combine f.op r.2 v.2
      (note s x).copyPut cl t e ten c.2 x.code

/-- Move elements from `i` on, `k` of them at most, until one cannot be moved. -/
def State.moveElems (s : State) (cl : Nat) (t : Take) (e : Nat) (f : Flow) (i : Nat) : Nat → State × Moved
  | 0 => (s, .ok)
  | k + 1 =>
    match s.moveElem cl t e f i with
    | (s, .ok) => (s.updEnt cl t.id e fun x => { x with pos := i + 1 }).moveElems cl t e f (i + 1) k
    | r => r

/-! ### Sectors and landings (R237, R248, R250) -/

/-- The source bytes in all, the end of the sector under way in bytes, and its last element's number. -/
def Flow.total (f : Flow) : Nat := f.n * f.win / 8
def Flow.sectorEnd (f : Flow) (doneb : Nat) : Nat := min (f.total) (4096 * (doneb / 4096 + 1))
def Flow.sectorElems (f : Flow) (doneb : Nat) : Nat := min f.n (cdiv (8 * 4096 * (doneb / 4096 + 1)) f.win)

/-- Is the entry waiting for a reservation (R248)? -/
def CopyEnt.waitsLand (x : CopyEnt) (w : Sched) : Bool :=
  x.active && w.dst.kind == 2 && x.land.isNone && x.fin.isNone

/-- The bytes of a landing that the moved elements complete; the last arrival takes the rest. -/
def CopyEnt.landBytes (x : CopyEnt) (last : Bool) : List Byte :=
  toBytes (if last then (x.obits + 7) / 8 else x.obits / 8) x.obuf

/-- Send the bytes of a sector to the slot. -/
def State.landSend (s : State) (cl : Nat) (t : Take) (e : Nat) (d : CPat) (slot : BitVec 6) (last : Bool) : State :=
  let x := tget {} (s.copyOf cl t.id).ents e
  let b := x.landBytes last
  let snd := s.sender cl t.fn
  let s := s.updEnt cl t.id e fun x =>
    { x with obuf := x.obuf / 2 ^ (8 * b.length), obits := x.obits - 8 * b.length, sent := x.sent + b.length
             posted := x.posted ++ [d.pkg.toNat] }
  if d.pkg = s.pkgId then
    s.postLand d.cl.toNat d.landZone.toNat slot.toNat snd t.id e (d.off + x.sent) b last
  else s.send d.pkg.toNat clsLand (.land d.cl.toNat d.landZone.toNat slot.toNat snd t.id e (d.off + x.sent) b last)

/-- A sector whose writes have been performed is counted; with the last one the entry is at its end. -/
def CopyEnt.count (x : CopyEnt) (f : Flow) : CopyEnt :=
  let d := f.sectorEnd x.doneb.toNat
  let x := { x with doneb := BitVec.ofNat 48 d }
  if f.n ≤ x.pos then x.finish 0 else x

/-- Is an entry inside a sector (R257)? A freeze, but not OUT-OF-LEASE, lets it go on to the end of the sector. -/
def CopyEnt.inSector (x : CopyEnt) (f : Flow) : Bool :=
  x.active && x.fin.isNone && (x.asked != 0 || x.pos != min f.n (cdiv (8 * x.doneb.toNat) f.win))

/-- The entry, its schedule record and its flow, when it is ACTIVE and may move. -/
def State.movable (s : State) (cl take e : Nat) : Option (Take × Sched × CopyEnt × Flow) :=
  match s.take? take with
  | none => none
  | some t =>
    match t.sched[e]? with
    | none => none
    | some w =>
      let x := tget {} (s.copyOf cl take).ents e
      let f := flowOf t w x.opr x.slots.length
      if (t.active || t.freezing && !t.barred s.cycle && x.inSector f) && x.active && x.fin.isNone && w.tcl = t.lcOf cl then some (t, w, x, f)
      else none

/-- COPY_SECTOR (R237): the entry moves the elements of a sector; the sector is counted when its writes are performed. -/
def execCopySector (cl take e : Nat) (s : State) : Out :=
  match s.movable cl take e with
  | none => .next s
  | some (t, w, x, f) =>
    if x.waitsLand w || x.asked ≠ x.vals.length || (x.pos = 0 && s.reduceWaits t e w f x.rows) then .next s
    else
      let hi := f.sectorElems x.doneb.toNat
      -- an arrival that is not yet acknowledged: the next follows it
      if w.dst.kind == 2 && !x.posted.isEmpty then .next s
      else
        match s.moveElems cl t e f x.pos (hi - x.pos) with
        | (s, .fail c) => .next (s.updEnt cl take e fun x => x.finish c)
        | (s, .fault c tid off) => .next (s.outOfLease take 5 c cl e tid off)
        | (s, .wait) => .next s
        | (s, .ok) =>
          -- the sector has been moved; one that leaves nothing to send is counted at once
          if w.dst.kind = 2 then
            match x.land with
            | some sl =>
              if f.n ≤ hi || 8 ≤ (tget {} (s.copyOf cl take).ents e).obits then .next (s.landSend cl t e w.dst sl (f.n ≤ hi))
              else .next (s.updEnt cl take e fun x => x.count f)
            | none => .next s
          else
            .next (s.updEnt cl take e fun x => if x.posted.isEmpty then x.count f else x)

/-- LAND_ENTRY_START (R248): the entry takes the oldest reservation that names its zone. -/
def execLandEntryStart (cl take e : Nat) (s : State) : Out :=
  match s.movable cl take e with
  | none => .next s
  | some (_, w, x, _) =>
    if x.waitsLand w then
      let d := w.dst
      if d.pkg ≠ s.pkgId && !s.reachable d.pkg.toNat then .next (s.updEnt cl take e fun x => x.finish ecLink)
      else
      let hit (r : Rsv) : Bool := r.pkg == d.pkg && r.cl == d.cl && r.z == d.landZone
      match (s.copyOf cl take).rsvs.find? hit with
      | some r =>
        if r.size < d.off + w.bytes then .next (s.updEnt cl take e fun x => x.finish ecSlotSize)
        else
          .next ((s.updCopy cl take fun c => { c with rsvs := dropRsv hit c.rsvs }).updEnt cl take e fun x =>
            { x with land := some r.slot })
      | none => .next s
    else .next s

/-- LANDING_ACK (R240, R250): the target answers an arrival. -/
def execLandingAck (cl take e : Nat) (r : LandResult) (s : State) : Out :=
  match s.take? take with
  | none => .next s
  | some t =>
    match t.sched[e]? with
    | none => .next s
    | some w =>
      .next (s.updEnt cl take e fun x =>
        if x.active && !x.posted.isEmpty then
          let x := { x with posted := x.posted.drop 1 }
          if x.fin.isSome then x
          else
          match r with
          | .done => x.count (flowOf t w x.opr x.slots.length)
          | .overrun => x.finish ecOverrun
          | .refused => x.finish ecRefused
          | .link => x.finish ecLink
          | .abort => x.finish ecAbort
        else x)

/-- A completion from a peer: data for the next element, the acknowledgement of a write, or that of the sequence stamp. -/
def CopyEnt.reply (x : CopyEnt) (f : Flow) (wr : Bool) : MemRep → CopyEnt
  | .data b => if x.active && x.vals.length < x.asked then { x with vals := x.vals ++ [ofBytes b] } else x
  | .ack =>
    if x.stamp.isSome then { x with stamp := none }
    else
      let x := { x with posted := x.posted.drop 1 }
      if x.active && x.fin.isNone && x.posted.isEmpty && f.sectorElems x.doneb.toNat ≤ x.pos then x.count f else x
  | .abort =>
    if x.stamp.isSome then { x with stamp := none, st := .error, ecode := ecAbort }
    else if wr then { x with posted := x.posted.drop 1 }.finish ecAbort
    else { x with asked := 0, vals := [] }.finish ecAbort

/-- The same in the engine. -/
def State.copyReply (s : State) (cl take e : Nat) (wr : Bool) (rep : MemRep) : State :=
  match s.take? take with
  | none => s
  | some t =>
    match t.sched[e]? with
    | none => s
    | some w => s.updEnt cl take e fun x => x.reply (flowOf t w x.opr x.slots.length) wr rep

/-! ### Ends and stamps (R240, R241, R246) -/

/-- R241: the sequence stamp of an entry that ends: whether it waits for its plot, and the state. -/
def State.stamp (s : State) (cl : Nat) (t : Take) (e : Nat) (w : Sched) (err : Bool) : State × Bool :=
  let ten := t.tensor w.stid
  let sq := (s.copyOf cl t.id).sseq + 1
  let bytes := wordBytes (flag err 63 ||| (sq &&& ~~~ flag true 63))
  let s1 := s.updCopy cl t.id fun c => { c with sseq := sq }
  let lost (s : State) : State := s.updEnt cl t.id e fun x => { x with st := .error, ecode := ecAbort }
  match s.translate t ten w.stoff false true false with
  | .fault c => (s1.outOfLease t.id 5 c cl e w.stid w.stoff, true)
  | .wait => (s, false)
  | .abort => ((lost s1).detectUe (dieOf cl) cl t.id linkInfo, true)
  | .ok (.key a) =>
    match s1.tryWrite a bytes with
    | some s => (s, true)
    | none => (lost (s1.uncorrectable a 8 cl t.id), true)
  | .ok (.peer pkg lease o) =>
    ((s1.updEnt cl t.id e fun x => { x with stamp := some pkg }).sendMem pkg (.copyEntry cl t.id e) lease o (.write bytes), true)

/-- R246: the slots that an entry with FREE has read become FREE; those of a zone that has been closed are no more. -/
def State.freeSlots (s : State) (cl : Nat) (x : CopyEnt) (f : Flow) (ok : Bool) : State :=
  let z := f.src.slotZone.toNat
  x.slots.zipIdx.foldl (fun s y =>
    if (ok || y.2 * f.e < x.pos) && (s.zone cl z).born == x.zborn && ((s.zone cl z).slot y.1.toNat).st == .landed then
      s.updSlot cl z y.1.toNat fun q => { q with st := .free }
    else s) s

/-- An entry ends with a code: its state, its slots, its stamp. -/
def State.endEntry (s : State) (cl : Nat) (t : Take) (e : Nat) (w : Sched) (code : BitVec 4) : State :=
  let x := tget {} (s.copyOf cl t.id).ents e
  let f := flowOf t w x.opr x.slots.length
  let s1 := s.updEnt cl t.id e fun x =>
    { x with st := if code = 0 then .done else .error, ecode := code, fin := none, obuf := 0, obits := 0, asked := 0, vals := [] }
  let s1 := if w.src.kind = 3 && w.src.free then s1.freeSlots cl x f (code = 0) else s1
  if w.sen then
    match s1.stamp cl t e w (code ≠ 0) with
    | (s2, true) => s2
    | (_, false) => s.stalls t (t.tensor w.stid) w.stoff
  else s1

/-- COPY_ENTRY_DONE (R240, R241): an entry that has met its end is DONE or ERROR once every write of it has been performed or
has met its abort, and its stamp is written. -/
def execCopyEntryDone (cl take e : Nat) (s : State) : Out :=
  match s.take? take with
  | none => .next s
  | some t =>
    let x := tget {} (s.copyOf cl take).ents e
    match t.sched[e]?, x.fin with
    | some w, some code => if (t.active || t.freezing && !t.barred s.cycle) && x.active && x.posted.isEmpty then .next (s.endEntry cl t e w code) else .next s
    | _, _ => .next s

/-- R253: the sender's side of a lost route: reservations removed, entries that transfer to the package end LINK. In the
image of a saved take the reservation is marked, and its restore removes it. -/
def CopyEng.linkDown (g : CopyEng) (saved : Bool) (sched : List Sched) (pkg : Nat) : CopyEng :=
  { g with
    rsvs := if saved then g.rsvs.map fun (r : Rsv) => if r.pkg.toNat = pkg then { r with lost := true } else r
      else g.rsvs.filter fun r => r.pkg.toNat != pkg
    ents := tmap {} (fun e (x : CopyEnt) =>
      match sched[e]? with
      | some w => if x.active && w.dst.kind = 2 && w.dst.pkg.toNat = pkg then { x.finish ecLink with posted := [] } else x
      | none => x) g.ents }

/-- The same in every engine, and in the images of the saved takes. -/
def State.copyLinkDown (s : State) (pkg : Nat) : State :=
  { s with
    clusters := tmap {} (fun _ c => { c with
      copy := tmap none (fun take (o : Option CopyEng) => o.map fun g =>
        g.linkDown false (((s.take? take).map fun t => t.sched).getD []) pkg) c.copy }) s.clusters
    takes := s.takes.map fun (t : Take) => { t with
      image := t.image.map fun l => l.map fun (x : Share) => { x with copy := x.copy.linkDown true t.sched pkg } } }

/-- The entries of a take on a cluster that have not ended, or whose stamp is not acknowledged. -/
def State.busyEnts (s : State) (cl take : Nat) : List Nat :=
  ((s.copyOf cl take).ents.filter fun x => x.2.busy).map (·.1)

/-- The entries of a take on a cluster that are ACTIVE. -/
def State.activeEnts (s : State) (cl take : Nat) : List Nat :=
  ((s.copyOf cl take).ents.filter fun x => x.2.active).map (·.1)

end Sys2Proof.Machine
end

