-- ==== Sys2Proof/WellFormed.lean ====
section
/-! DEFINITION. Which instructions the encoding maps assign (R49, R51, R53 to R56, R62, R65 to R70, R205, R211, R216, R220,
R243): a term of `Instr` that no encoding stands for is ill formed. A step of the device has no encoding and its data
are not restricted here. -/

namespace Sys2Proof

/-- R62: a coordinate field beyond NC must be 0. -/
def MemOp.wf (m : MemOp) : Bool :=
  (m.nc.toNat ≥ 1 || m.c1 == 0) && (m.nc.toNat ≥ 2 || m.c2 == 0) && (m.nc.toNat ≥ 3 || m.c3 == 0)

/-- R205: the format codes of MX.PIN and of AFMT, with the narrow subtype. -/
def mxFmtOk (fmt : BitVec 4) (sub : BitVec 3) : Bool :=
  if fmt == 15 then sub.toNat ≤ 5 else sub == 0 && [0, 8, 9, 10, 11, 12, 13].contains fmt.toNat

/-- R220: any format code of R50, with SUB set when the code is 15. -/
def anyFmtOk (fmt : BitVec 4) (sub : BitVec 3) : Bool :=
  if fmt == 15 then sub.toNat ≤ 5 else sub == 0

/-- R211: SELA 0 to 3, SELC 0 or 1. -/
def TileRow.selOk (t : TileRow) : Bool := t.sela.toNat ≤ 3 && t.selc.toNat ≤ 1

/-- R68, R70: FADD codes require SZ W for F32 and SZ H for the others. -/
def amoSizeOk : AmoOp → Size → Bool
  | .faddF32, sz => sz == .w
  | .faddF16, sz | .faddBf16, sz | .faddT16, sz => sz == .h
  | _, _ => true

/-! ### Element entries -/

/-- The classes of formats that R53 names. -/
inductive FmtSet | infT | inOnly | fT | tNarrow | narrow | any | n64 | cnt | hash
  deriving DecidableEq, Repr

/-- R50, R53: does a format code belong to the class? -/
def FmtSet.has (s : FmtSet) (f : BitVec 4) : Bool :=
  match s with
  | .infT => f.toNat ≤ 14
  | .inOnly => f.toNat ≤ 7
  | .fT => 8 ≤ f.toNat && f.toNat ≤ 14
  | .tNarrow => 12 ≤ f.toNat
  | .narrow => f == 15
  | .any => true
  | .n64 => f == 7
  | .cnt => f == 2 || f == 3 || f == 6 || f == 7
  | .hash => f == 6 || f == 7

/-- Which modifiers an opcode allows (R53). -/
structure ModRule where
  s    : Bool := false   -- S with any format class
  sInt : Bool := false   -- S with I and N only
  w    : Bool := false
  rm   : Bool := false
  eb   : Bool := false   -- EB with F and T
  ebT  : Bool := false   -- EB with T only
  ebInt : Bool := false  -- EB with I and N
  deriving DecidableEq, Repr

/-- R51, R53: are the MOD bits of an entry of format `f` allowed under `r`? -/
def ModRule.ok (r : ModRule) (f md : BitVec 4) : Bool :=
  if f == 15 then !md.getLsbD 3 && (md.extractLsb' 0 3).toNat ≤ 5
  else if f.toNat ≤ 7 then
    (!md.getLsbD 0 || r.s || r.sInt) && (!md.getLsbD 1 || r.w) && !md.getLsbD 2 && (!md.getLsbD 3 || r.ebInt)
  else
    (!md.getLsbD 3 || r.s || r.eb || (r.ebT && 12 ≤ f.toNat)) && (!md.getLsbD 2 || r.w) &&
      (r.rm || md.extractLsb' 0 2 == 0)

/-- Does the EB bit stand in this entry (R51)? `r` says which formats give MOD[3] the meaning EB. -/
def ModRule.ebSet (r : ModRule) (f md : BitVec 4) : Bool :=
  md.getLsbD 3 && f != 15 &&
    (if f.toNat ≤ 7 then r.ebInt else r.eb || (r.ebT && 12 ≤ f.toNat))

/-- R51: with EB set, BND is 1 to 15, IMM[11:0] is 0, and neither source is 14. -/
def Entry.ebOk (e : Entry) : Bool :=
  e.imm.extractLsb' 12 4 != 0 && e.imm.extractLsb' 0 12 == 0 && e.sa != 14 && e.sb != 14

/-- R49: PS codes 5 to 7 and WL codes 1 to 3 are reserved. -/
def Entry.commonOk (e : Entry) : Bool := e.ps.toNat ≤ 4 && (e.wl == 0 || 4 ≤ e.wl.toNat)

/-- The check shared by the opcodes that follow the FMT rows of R51. -/
def Entry.wfBy (e : Entry) (s : FmtSet) (r : ModRule) : Bool :=
  e.commonOk && s.has e.fmt && r.ok e.fmt e.md && (!r.ebSet e.fmt e.md || e.ebOk)

/-- R51, R53: CMP conditions; UO and OR only with F or T. -/
def Entry.wfCmp (e : Entry) : Bool :=
  e.commonOk && e.fmt != 15 && e.md.toNat ≤ 7 && (e.md.toNat ≤ 5 || 8 ≤ e.fmt.toNat)

/-- R54: the destination in FMT and MOD, the source in IMM. -/
def Entry.wfCvt (e : Entry) : Bool :=
  let sfmt := e.imm.extractLsb' 0 4
  let ssub := e.imm.extractLsb' 4 3
  let rm := e.imm.extractLsb' 7 3
  let bnd := e.imm.extractLsb' 12 4
  let eb := e.md.getLsbD 3
  e.commonOk && e.imm.extractLsb' 10 2 == 0 && rm.toNat ≤ 4 &&
    (if sfmt == 15 then ssub.toNat ≤ 5 else ssub == 0) &&
    (if e.fmt == 15 then (e.md.extractLsb' 0 3).toNat ≤ 5 else e.md.extractLsb' 0 3 == 0) &&
    (if eb then 12 ≤ sfmt.toNat && sfmt.toNat ≤ 14 && bnd != 0 else bnd == 0) &&
    (rm == 4 || e.sb == 15) && e.sa != 14 && e.sb != 14

/-- R53: SEND with its port in IMM[3:0], its lane in IMM[7:4] and IMM[15:8] at 0. -/
def Entry.wfSend (e : Entry) : Bool :=
  e.commonOk && e.fmt != 15 && e.md.toNat ≤ 1 && e.imm.extractLsb' 8 8 == 0

/-- R51, R53: CNT selector 0 to 3. -/
def Entry.wfCnt (e : Entry) : Bool := e.commonOk && FmtSet.cnt.has e.fmt && e.md.toNat ≤ 3

/-- R51, R53: HDR has FMT N64 and its form in MOD. -/
def Entry.wfHdr (e : Entry) (form : BitVec 4) : Bool := e.commonOk && e.fmt == 7 && e.md == form

/-- The well-formed instructions. -/
def Instr.wf : Instr → Bool
  | .ld _ m ord _ _ sc => m.wf && (ord == .acq || (ord == .plain && sc == .el))
  | .ld96 _ m ord _ _ sc _ => m.wf && (ord == .acq || (ord == .plain && sc == .el))
  | .st m _ ord _ sc => m.wf && (ord == .rel || (ord == .plain && sc == .el))
  | .st96 m _ ord _ sc _ => m.wf && (ord == .rel || (ord == .plain && sc == .el))
  | .amo _ m _ w _ sz op _ => m.wf && amoSizeOk op sz && (op == .cas || w == 0)
  | .amo96 _ m _ w _ sz op _ _ => m.wf && amoSizeOk op sz && (op == .cas || w == 0)
  | .marm m sz => m.wf && (sz == .w || sz == .d)
  | .marm96 m sz _ => m.wf && (sz == .w || sz == .d)
  | .mxPin m f sb => m.wf && mxFmtOk f sb
  | .mxScale _ m => m.wf
  | .mxStep _ t => t.selOk && mxFmtOk t.afmt t.sub
  | .mxSteps _ t => t.selOk && t.afmt == 15 && t.sub == 0
  | .mxRead t => t.selOk && anyFmtOk t.afmt t.sub
  | .plog op _ pa pb =>
    match op with
    | .not | .mov => pb == 0
    | .set | .clr => pa == 0 && pb == 0
    | _ => true
  | .fence _ sc a => sc == .pr || a == 0
  | .mwait _ acq sc a => (acq || sc == .el) && (sc == .pr || a == 0)
  | .accTake _ n | .accFree _ n | .mxZero _ n => 1 ≤ n.toNat && n.toNat ≤ 256
  | .cpAdv n => 1 ≤ n.toNat && n.toNat ≤ 255
  | .cpStat _ e => e.toNat ≤ 255
  | .cpRedop op => op.toNat ≤ 14
  | .zoneStat _ z | .zoneSweep z | .zoneClose z => z.toNat ≤ 7
  | .entryMov e | .entryPass e | .entryDrop e | .entrySel e | .entryCswp e | .entryMin e | .entryMax e | .entryMaxi e
  | .entryMini e | .entrySat e => e.wfBy .infT ⟨false, false, false, false, false, false, false⟩
  | .entryAbs e | .entryNeg e => e.wfBy .infT ⟨true, false, false, false, false, false, false⟩
  | .entryAdd e | .entrySub e => e.wfBy .infT ⟨true, false, false, true, false, false, false⟩
  | .entryMul e | .entryMac e | .entryMsb e => e.wfBy .infT ⟨true, false, true, true, false, false, false⟩
  | .entryMulh e | .entryLut e | .entryTest e | .entryAnd e | .entryOr e | .entryXor e | .entryAndn e | .entryNot e
  | .entryExt e | .entryIns e | .entryShr e | .entrySar e | .entryRot e | .entryClz e | .entryCtz e | .entryPopc e
  | .entryBrev e => e.wfBy .inOnly ⟨false, false, false, false, false, false, false⟩
  | .entryShl e => e.wfBy .inOnly ⟨true, false, false, false, false, false, false⟩
  | .entryCmp e => e.wfCmp
  | .entryCvt e => e.wfCvt
  | .entryDec e => e.wfBy .tNarrow ⟨false, false, false, false, false, true, false⟩
  | .entryEnc e => e.wfBy .tNarrow ⟨false, false, false, true, false, false, false⟩
  | .entryPack e | .entryUnpk e => e.wfBy .narrow ⟨false, false, false, false, false, false, false⟩
  | .entryRnd e | .entryExp2 e | .entryLog2 e => e.wfBy .fT ⟨false, false, false, true, false, false, false⟩
  | .entryRcp e | .entryRsq e | .entrySqrt e => e.wfBy .fT ⟨false, false, false, true, true, false, false⟩
  | .entryDiv e => e.wfBy .infT ⟨false, true, false, true, true, false, true⟩
  | .entryCnt e => e.wfCnt
  | .entryHash e => e.wfBy .hash ⟨false, false, false, false, false, false, false⟩
  | .entrySend e => e.wfSend
  | .entryHdrLoad e => e.wfHdr 0
  | .entryHdrBuild e => e.wfHdr 1
  | .entryStat e => e.wfBy .n64 ⟨false, false, false, false, false, false, false⟩
  | _ => true

end Sys2Proof
end

