-- ==== Sys2Proof/Decode.lean ====
section
/-! DEFINITION. The decoder of cue instructions (R60 to R70) and of element entries (R47 to R56), total on any bits and
rejecting by name, and after it the encoder written from the same tables. -/

namespace Sys2Proof

/-! ### Fields of a parcel -/

/-- Bits [lo + n − 1 : lo] of a parcel. -/
def fld (p : Parcel) (lo n : Nat) : BitVec n := p.extractLsb' lo n

/-- Layout fields of the first parcel (R61). -/
def fMajor (p : Parcel) : BitVec 6 := fld p 2 6
def fD (p : Parcel) : Reg := fld p 8 5
def fA (p : Parcel) : Reg := fld p 13 5
def fB (p : Parcel) : Reg := fld p 18 5
def fFn (p : Parcel) : BitVec 9 := fld p 23 9
def fImm (p : Parcel) : BitVec 14 := fld p 18 14
def fLen (p : Parcel) : BitVec 2 := fld p 0 2

/-! ### Codes (R50, R65, R68) -/

/-- R65: fn[2:0] of PCMP. -/
def PCond.bits : PCond → BitVec 3
  | .eq => 0
  | .ne => 1
  | .lt => 2
  | .ge => 3
  | .ltu => 4
  | .geu => 5
/-- The code's meaning, or none when it is reserved. -/
def PCond.ofBits (b : BitVec 3) : Option PCond :=
  match b.toNat with
  | 0 => some .eq
  | 1 => some .ne
  | 2 => some .lt
  | 3 => some .ge
  | 4 => some .ltu
  | 5 => some .geu
  | _ => none

/-- R65: d[4:3] of PCMPI. -/
def PICond.bits : PICond → BitVec 2
  | .eq => 0
  | .ne => 1
  | .lt => 2
  | .ge => 3
/-- The code's meaning, or none when it is reserved. -/
def PICond.ofBits (b : BitVec 2) : Option PICond :=
  match b.toNat with
  | 0 => some .eq
  | 1 => some .ne
  | 2 => some .lt
  | _ => some .ge

/-- R65: fn[2:0] of PLOG. -/
def PlogOp.bits : PlogOp → BitVec 3
  | .and => 0
  | .or => 1
  | .xor => 2
  | .andn => 3
  | .not => 4
  | .mov => 5
  | .set => 6
  | .clr => 7
/-- The code's meaning, or none when it is reserved. -/
def PlogOp.ofBits (b : BitVec 3) : Option PlogOp :=
  match b.toNat with
  | 0 => some .and
  | 1 => some .or
  | 2 => some .xor
  | 3 => some .andn
  | 4 => some .not
  | 5 => some .mov
  | 6 => some .set
  | _ => some .clr

/-- R65: fn[5:4] of FENCE. -/
def FenceKind.bits : FenceKind → BitVec 2
  | .ar => 0
  | .acq => 1
  | .rel => 2
/-- The code's meaning, or none when it is reserved. -/
def FenceKind.ofBits (b : BitVec 2) : Option FenceKind :=
  match b.toNat with
  | 0 => some .ar
  | 1 => some .acq
  | 2 => some .rel
  | _ => none

/-- R65: fn[1:0] of DRAIN. -/
def Path.bits : Path → BitVec 2
  | .v => 0
  | .h => 1
  | .p => 2
  | .x => 3
/-- The code's meaning, or none when it is reserved. -/
def Path.ofBits (b : BitVec 2) : Option Path :=
  match b.toNat with
  | 0 => some .v
  | 1 => some .h
  | 2 => some .p
  | _ => some .x

/-- R68: ORD. -/
def Ord.bits : Ord → BitVec 2
  | .plain => 0
  | .acq => 1
  | .rel => 2
  | .ar => 3
/-- The code's meaning, or none when it is reserved. -/
def Ord.ofBits (b : BitVec 2) : Option Ord :=
  match b.toNat with
  | 0 => some .plain
  | 1 => some .acq
  | 2 => some .rel
  | _ => some .ar

/-- R68: SZ. -/
def Size.bits : Size → BitVec 2
  | .b => 0
  | .h => 1
  | .w => 2
  | .d => 3
/-- The code's meaning, or none when it is reserved. -/
def Size.ofBits (b : BitVec 2) : Option Size :=
  match b.toNat with
  | 0 => some .b
  | 1 => some .h
  | 2 => some .w
  | _ => some .d

/-- R68: AOP. -/
def AmoOp.bits : AmoOp → BitVec 4
  | .add => 0
  | .and => 1
  | .or => 2
  | .xor => 3
  | .min => 4
  | .max => 5
  | .minu => 6
  | .maxu => 7
  | .swap => 8
  | .cas => 9
  | .faddF32 => 10
  | .faddF16 => 11
  | .faddBf16 => 12
  | .faddT16 => 13
/-- The code's meaning, or none when it is reserved. -/
def AmoOp.ofBits (b : BitVec 4) : Option AmoOp :=
  match b.toNat with
  | 0 => some .add
  | 1 => some .and
  | 2 => some .or
  | 3 => some .xor
  | 4 => some .min
  | 5 => some .max
  | 6 => some .minu
  | 7 => some .maxu
  | 8 => some .swap
  | 9 => some .cas
  | 10 => some .faddF32
  | 11 => some .faddF16
  | 12 => some .faddBf16
  | 13 => some .faddT16
  | _ => none

/-- R68: SCOPE. -/
def Scope.bits : Scope → BitVec 4
  | .el => 0
  | .rg => 1
  | .cl => 2
  | .qd => 3
  | .di => 4
  | .pk => 5
  | .pr => 6
  | .dm => 7
  | .ho => 8
  | .io => 9
  | .sy => 10
/-- The code's meaning, or none when it is reserved. -/
def Scope.ofBits (b : BitVec 4) : Option Scope :=
  match b.toNat with
  | 0 => some .el
  | 1 => some .rg
  | 2 => some .cl
  | 3 => some .qd
  | 4 => some .di
  | 5 => some .pk
  | 6 => some .pr
  | 7 => some .dm
  | 8 => some .ho
  | 9 => some .io
  | 10 => some .sy
  | _ => none

/-- R62: NODE. -/
def Node.bits : Node → BitVec 2
  | .stream => 0
  | .random => 1
  | .ordered => 2
/-- The code's meaning, or none when it is reserved. -/
def Node.ofBits (b : BitVec 2) : Option Node :=
  match b.toNat with
  | 0 => some .stream
  | 1 => some .random
  | 2 => some .ordered
  | _ => none

/-! ### The decoder -/

/-- Why an encoding is not assigned (R70). -/
inductive Reject
  | short          -- fewer bytes than the instruction needs
  | length11       -- length bits 11
  | reservedMajor  -- a reserved major
  | reservedCode   -- a reserved fn, AOP, ORD, SZ, SCOPE, NODE, condition or subtype code
  | illegalField   -- a must-be-zero field that is nonzero, an ORD or SZ not allowed, or a value out of range
  deriving DecidableEq, Repr

/-- The outcome of decoding the parcels of one instruction. -/
abbrev Decoded := Except Reject Instr

/-- Accept `i` when the fields it does not name are 0 and it is well formed. -/
def accept (zero : Bool) (i : Instr) : Decoded := if zero && i.wf then .ok i else .error .illegalField

/-- Use a code, or reject it as reserved. -/
def withCode {α : Type} (o : Option α) (k : α → Decoded) : Decoded :=
  match o with
  | some x => k x
  | none => .error .reservedCode

/-- R66: the ALU function map. -/
def decodeAlu (fn : BitVec 9) (d a b : Reg) : Decoded :=
  match fn.toNat with
  | 0x000 => .ok (.add d a b)
  | 0x001 => .ok (.sub d a b)
  | 0x002 => .ok (.mul d a b)
  | 0x003 => .ok (.mulh d a b)
  | 0x004 => .ok (.mulhu d a b)
  | 0x005 => .ok (.div d a b)
  | 0x006 => .ok (.divu d a b)
  | 0x007 => .ok (.rem d a b)
  | 0x008 => .ok (.remu d a b)
  | 0x010 => .ok (.and d a b)
  | 0x011 => .ok (.or d a b)
  | 0x012 => .ok (.xor d a b)
  | 0x013 => .ok (.andn d a b)
  | 0x018 => .ok (.shl d a b)
  | 0x019 => .ok (.shr d a b)
  | 0x01a => .ok (.sar d a b)
  | 0x01b => .ok (.rot d a b)
  | 0x020 => .ok (.min d a b)
  | 0x021 => .ok (.max d a b)
  | 0x022 => .ok (.minu d a b)
  | 0x023 => .ok (.maxu d a b)
  | 0x028 => .ok (.seq d a b)
  | 0x029 => .ok (.sne d a b)
  | 0x02a => .ok (.slt d a b)
  | 0x02b => .ok (.sltu d a b)
  | 0x030 => accept (b == 0) (.clz d a)
  | 0x031 => accept (b == 0) (.ctz d a)
  | 0x032 => accept (b == 0) (.popc d a)
  | 0x033 => accept (b == 0) (.brev d a)
  | _ => .error .reservedCode

/-- R64, R65: an instruction of one parcel. -/
def decode1 (p : Parcel) : Decoded :=
  let d := fD p
  let a := fA p
  let b := fB p
  let fn := fFn p
  let imm := fImm p
  match (fMajor p).toNat with
  | 0x01 => decodeAlu fn d a b
  | 0x02 => .ok (.addi d a imm)
  | 0x03 => .ok (.muli d a imm)
  | 0x04 => .ok (.andi d a imm)
  | 0x05 => .ok (.ori d a imm)
  | 0x06 => .ok (.xori d a imm)
  | 0x07 => .ok (.slti d a imm)
  | 0x08 => .ok (.sltui d a imm)
  | 0x09 => .ok (.seqi d a imm)
  | 0x0a => accept (imm.extractLsb' 6 8 == 0) (.shli d a (imm.extractLsb' 0 6))
  | 0x0b => accept (imm.extractLsb' 6 8 == 0) (.shri d a (imm.extractLsb' 0 6))
  | 0x0c => accept (imm.extractLsb' 6 8 == 0) (.sari d a (imm.extractLsb' 0 6))
  | 0x0d => accept (imm.extractLsb' 6 8 == 0) (.roti d a (imm.extractLsb' 0 6))
  | 0x0e => accept (fn == 0 && b == 0 && a == 0 && d == 0) .eret
  | 0x0f => accept (fn == 0 && b == 0 && d == 0) (.exit a)
  | 0x10 => withCode (PCond.ofBits (fn.extractLsb' 0 3)) fun c =>
      accept (fn.extractLsb' 3 6 == 0 && d.extractLsb' 3 2 == 0) (.pcmp c (d.extractLsb' 0 3) a b)
  | 0x11 => withCode (PICond.ofBits (d.extractLsb' 3 2)) fun c => .ok (.pcmpi c (d.extractLsb' 0 3) a imm)
  | 0x12 => withCode (PlogOp.ofBits (fn.extractLsb' 0 3)) fun op =>
      accept (fn.extractLsb' 3 6 == 0 && d.extractLsb' 3 2 == 0 && a.extractLsb' 3 2 == 0 && b.extractLsb' 3 2 == 0)
        (.plog op (d.extractLsb' 0 3) (a.extractLsb' 0 3) (b.extractLsb' 0 3))
  | 0x13 => accept (fn.extractLsb' 3 6 == 0) (.selp d a b (fn.extractLsb' 0 3))
  | 0x14 => accept (fn == 0 && b == 0 && a == 0) (.pget d)
  | 0x15 => accept (fn == 0 && b == 0 && d == 0) (.pput a)
  | 0x16 => accept (fn == 0 && b == 0 && a == 0 && d == 0) .nop
  | 0x18 => .ok (.beq d a imm)
  | 0x19 => .ok (.bne d a imm)
  | 0x1a => .ok (.blt d a imm)
  | 0x1b => .ok (.bge d a imm)
  | 0x1c => .ok (.bltu d a imm)
  | 0x1d => .ok (.bgeu d a imm)
  | 0x1e => accept (a == 0 && d.extractLsb' 4 1 == 0)
      (if d.extractLsb' 3 1 == 0 then .bp (d.extractLsb' 0 3) imm else .bnp (d.extractLsb' 0 3) imm)
  | 0x1f => accept (a == 0) (.loop d imm)
  | 0x20 => accept (a == 0) (.jal d imm)
  | 0x21 => accept (fn == 0 && b == 0) (.jr d a)
  | 0x22 => withCode (FenceKind.ofBits (fn.extractLsb' 4 2)) fun k => withCode (Scope.ofBits (fn.extractLsb' 0 4)) fun sc =>
      accept (fn.extractLsb' 6 3 == 0 && b == 0 && d == 0) (.fence k sc a)
  | 0x23 => withCode (Scope.ofBits (fn.extractLsb' 0 4)) fun sc =>
      accept (fn.extractLsb' 5 4 == 0 && b == 0) (.mwait d (fn.extractLsb' 4 1 == 1) sc a)
  | 0x24 => withCode (Path.ofBits (fn.extractLsb' 0 2)) fun q =>
      accept (fn.extractLsb' 2 7 == 0 && b == 0 && a == 0 && d == 0) (.drain q)
  | 0x25 => accept (a == 0 && d == 0) (.rstp imm)
  | 0x26 => accept (a == 0 && d == 0) (.trap imm)
  | 0x27 => accept (a == 0 && d == 0) (.brk imm)
  | 0x28 => accept (fn == 0 && b == 0 && a.extractLsb' 4 1 == 0 && d == 0) (.unbind (a.extractLsb' 0 4))
  | 0x29 => accept (fn.extractLsb' 5 4 == 0 && b == 0 && a == 0 && d == 0)
      (.portWait (fn.extractLsb' 4 1 == 1) (fn.extractLsb' 0 4))
  | 0x2a => accept (fn.extractLsb' 5 4 == 0 && b == 0 && a == 0 && d == 0)
      (.barrier (fn.extractLsb' 4 1 == 1) (fn.extractLsb' 0 4))
  | 0x2b => accept (a == 0 && d == 0) (.sceneGo imm)
  | 0x2c => accept (a == 0 && d == 0 && imm.extractLsb' 6 8 == 0) (.regionHalt (imm.extractLsb' 0 6))
  | 0x2d => accept (fn == 0 && b == 0 && a == 0 && d == 0) .splice
  | 0x2e => accept (a == 0 && d == 0) (.ovlFetch imm)
  | 0x2f => accept (a == 0 && d == 0) (.ovlWait imm)
  | 0x30 => accept (a == 0) (.accTake d imm)
  | 0x31 => accept (d == 0) (.accFree a imm)
  | 0x32 => accept (fn == 0 && a.extractLsb' 4 1 == 0) (.takeSpawn d (a.extractLsb' 0 4) b)
  | 0x33 => accept (fn == 0 && b == 0 && a == 0 && d == 0) .mxSwap
  | 0x34 => accept (d == 0) (.mxZero a imm)
  | 0x35 => accept (fn == 0 && b == 0 && d == 0) (.mxMode a)
  | 0x36 => accept (fn == 0 && b == 0 && a == 0 && d == 0) .mxWait
  | 0x37 => accept (a == 0 && d == 0) (.cpAdv imm)
  | 0x38 => accept (a == 0) (.cpStat d imm)
  | 0x39 => accept (a == 0 && d == 0 && imm.extractLsb' 4 10 == 0) (.cpRedop (imm.extractLsb' 0 4))
  | 0x3a => accept (fn.extractLsb' 3 6 == 0 && b == 0 && d == 0) (.zoneArm (fn.extractLsb' 0 3) a)
  | 0x3b => accept (a == 0) (.zoneStat d imm)
  | 0x3c => accept (a == 0 && d == 0) (.zoneSweep imm)
  | 0x3d => accept (a == 0 && d == 0) (.zoneClose imm)
  | 0x3e => accept (a == 0 && imm.extractLsb' 12 2 == 0) (.sysRd d (imm.extractLsb' 0 12))
  | 0x3f => accept (d == 0 && imm.extractLsb' 12 2 == 0) (.sysWr (imm.extractLsb' 0 12) a)
  | _ => .error .reservedMajor

/-- R62 C64M: the tensor access of a first and a second parcel. -/
def memOpOf (p q : Parcel) : MemOp :=
  ⟨fld q 20 4, fld q 24 2, fA p, fB p, fld q 0 5, fld q 5 5⟩

/-- R62 C64T: the tile-step row of a first and a second parcel. -/
def tileRowOf (p q : Parcel) : TileRow :=
  ⟨fld p 13 4, fB p, fld p 23 8, fld q 23 9, fld q 19 4, fld q 15 4, fld q 12 3, fld q 8 4, fld q 0 8⟩

/-- The memory forms share their fields between the 64-bit and the 96-bit map (R67, R69). The bits of a first parcel that R67
does not name (fn[3:0] of LD, ST and MARM, fn of BIND) must be 0: DESIGN CHOICE, log 43. -/
def decodeLd (p q : Parcel) (k : Reg → MemOp → Ord → Bool → Size → Scope → Instr) : Decoded :=
  withCode (Scope.ofBits (fld q 26 4)) fun sc => withCode (Ord.ofBits (fld p 30 2)) fun o =>
  withCode (Size.ofBits (fld p 27 2)) fun sz =>
    accept (fld p 23 4 == 0 && fld q 30 2 == 0 && fld q 10 5 == 0 && fld q 15 5 == 0)
      (k (fD p) (memOpOf p q) o (fld p 29 1 == 1) sz sc)

def decodeSt (p q : Parcel) (k : MemOp → Reg → Ord → Size → Scope → Instr) : Decoded :=
  withCode (Scope.ofBits (fld q 26 4)) fun sc => withCode (Ord.ofBits (fld p 30 2)) fun o =>
  withCode (Size.ofBits (fld p 27 2)) fun sz =>
    accept (fD p == 0 && fld p 23 4 == 0 && fld p 29 1 == 0 && fld q 30 2 == 0 && fld q 15 5 == 0)
      (k (memOpOf p q) (fld q 10 5) o sz sc)

def decodeAmo (p q : Parcel) (k : Reg → MemOp → Reg → Reg → Ord → Size → AmoOp → Scope → Instr) : Decoded :=
  withCode (Scope.ofBits (fld q 26 4)) fun sc => withCode (Ord.ofBits (fld p 30 2)) fun o =>
  withCode (Size.ofBits (fld p 27 2)) fun sz => withCode (AmoOp.ofBits (fld p 23 4)) fun op =>
    accept (fld p 29 1 == 0 && fld q 30 2 == 0)
      (k (fD p) (memOpOf p q) (fld q 10 5) (fld q 15 5) o sz op sc)

/-- MARM: v and w are 0 (R67). It names no scope, and a nonzero SCOPE field is illegal: DESIGN CHOICE, log 43. -/
def decodeMarm (p q : Parcel) (k : MemOp → Size → Instr) : Decoded :=
  withCode (Size.ofBits (fld p 27 2)) fun sz =>
    accept (fD p == 0 && fld p 23 4 == 0 && fld p 29 3 == 0 && fld q 10 10 == 0 && fld q 26 6 == 0)
      (k (memOpOf p q) sz)

/-- R67: an instruction of two parcels. -/
def decode2 (p q : Parcel) : Decoded :=
  match (fMajor p).toNat with
  | 0x01 => decodeLd p q .ld
  | 0x02 => decodeSt p q .st
  | 0x03 => decodeAmo p q .amo
  | 0x04 => decodeMarm p q .marm
  | 0x08 => withCode (Node.ofBits (fld q 5 2)) fun n =>
      accept (fD p == 0 && fFn p == 0 && fld q 21 11 == 0)
        (.bind (fA p) (fB p) (fld q 15 6) (fld q 11 4) (fld q 7 4) n (fld q 4 1 == 1) (fld q 0 4))
  | 0x10 => accept (fD p == 0 && fld p 30 2 == 0 && fld q 10 10 == 0 && fld q 26 6 == 0)
      (.mxPin (memOpOf p q) (fld p 23 4) (fld p 27 3))
  | 0x11 => accept (fD p == 0 && fld p 24 8 == 0 && fld q 10 10 == 0 && fld q 26 6 == 0)
      (.mxScale (fld p 23 1 == 1) (memOpOf p q))
  | 0x12 => accept (fD p == 0 && fld p 17 1 == 0) (.mxStep (fld p 31 1 == 1) (tileRowOf p q))
  | 0x13 => accept (fD p == 0 && fld p 17 1 == 0) (.mxSteps (fld p 31 1 == 1) (tileRowOf p q))
  | 0x14 => accept (fD p == 0 && fld p 17 1 == 0 && fld p 31 1 == 0) (.mxRead (tileRowOf p q))
  | 0x18 => accept (fld p 29 3 == 0 && fld q 6 26 == 0 && fld q 0 3 == 0)
      (.zoneOpen (fD p) (fA p) (fB p) (fld p 23 6) (fld q 3 3))
  | 0x19 => accept (fFn p == 0 && fB p == 0 && fA p == 0 && fld q 6 6 == 0 && fld q 0 3 == 0)
      (.zoneRsv (fD p) (fld q 20 12) (fld q 12 8) (fld q 3 3))
  | 0x1a => accept (fFn p == 0 && fB p == 0 && fA p == 0 && fD p == 0 && fld q 0 3 == 0)
      (.zoneRel (fld q 20 12) (fld q 12 8) (fld q 6 6) (fld q 3 3))
  | _ => .error .reservedMajor

/-- R69: an instruction of three parcels. -/
def decode3 (p q r : Parcel) : Decoded :=
  match (fMajor p).toNat with
  | 0x01 => decodeLd p q fun d m o u sz sc => .ld96 d m o u sz sc r
  | 0x02 => decodeSt p q fun m v o sz sc => .st96 m v o sz sc r
  | 0x03 => decodeAmo p q fun d m v w o sz op sc => .amo96 d m v w o sz op sc r
  | 0x04 => decodeMarm p q fun m sz => .marm96 m sz r
  | 0x08 => accept (fFn p == 0 && fB p == 0) (.addl (fD p) (fA p) (q ++ r))
  | 0x09 => accept (fFn p == 0 && fB p == 0) (.andl (fD p) (fA p) (q ++ r))
  | 0x0a => accept (fFn p == 0 && fB p == 0) (.orl (fD p) (fA p) (q ++ r))
  | 0x0b => accept (fFn p == 0 && fB p == 0) (.xorl (fD p) (fA p) (q ++ r))
  | _ => .error .reservedMajor

/-- R60: the parcels an instruction occupies, from the length bits of its first parcel; 0 for the reserved length. -/
def parcelsOf (p : Parcel) : Nat :=
  match (fLen p).toNat with
  | 0 => 1
  | 1 => 2
  | 2 => 3
  | _ => 0

/-- The decoder on parcels: `p` is the first; `q` and `r` are looked at only when the length asks for them. -/
def decodeParcels (p q r : Parcel) : Decoded :=
  match parcelsOf p with
  | 1 => decode1 p
  | 2 => decode2 p q
  | 3 => decode3 p q r
  | _ => .error .length11

/-- R60: a parcel from four bytes, the first at the lowest address, little-endian. -/
def parcelOfBytes (b0 b1 b2 b3 : Byte) : Parcel := b3 ++ b2 ++ b1 ++ b0

/-- The parcels at the front of a list of bytes. -/
def takeParcels : Nat → List Byte → Option (List Parcel × List Byte)
  | 0, bs => some ([], bs)
  | n + 1, b0 :: b1 :: b2 :: b3 :: bs =>
    (takeParcels n bs).map fun r => (parcelOfBytes b0 b1 b2 b3 :: r.1, r.2)
  | _ + 1, _ => none

/-- The decoder on bytes: the instruction at the front and the bytes after it, or why there is none. -/
def decode (bs : List Byte) : Except Reject (Instr × List Byte) :=
  match takeParcels 1 bs with
  | some ([p], _) =>
    match parcelsOf p with
    | 0 => .error .length11
    | n =>
      match takeParcels n bs with
      | some (ps, rest) => (decodeParcels p (ps.getD 1 0) (ps.getD 2 0)).map fun i => (i, rest)
      | none => .error .short
  | _ => .error .short

/-! ### Element entries -/

/-- R47: the fields of an entry. -/
def entryOf (w : Word) : Entry :=
  { stamp := w.extractLsb' 52 12, hold := w.getLsbD 51, chain := w.getLsbD 50, fmt := w.extractLsb' 40 4,
    sa := w.extractLsb' 36 4, sb := w.extractLsb' 32 4, wl := w.extractLsb' 29 3, route := w.extractLsb' 23 6,
    ps := w.extractLsb' 20 3, md := w.extractLsb' 16 4, imm := w.extractLsb' 0 16 }

/-- R52: the element opcode map; none for VOID and the reserved codes. HDR takes its form from MOD (R51). -/
def entryCtor (op : BitVec 6) (e : Entry) : Option Instr :=
  match op.toNat with
  | 0x01 => some (.entryMov e)
  | 0x02 => some (.entryPass e)
  | 0x03 => some (.entryDrop e)
  | 0x04 => some (.entrySel e)
  | 0x05 => some (.entryCswp e)
  | 0x06 => some (.entrySend e)
  | 0x08 => some (.entryAdd e)
  | 0x09 => some (.entrySub e)
  | 0x0a => some (.entryMul e)
  | 0x0b => some (.entryMulh e)
  | 0x0c => some (.entryMac e)
  | 0x0d => some (.entryMsb e)
  | 0x0e => some (.entryMin e)
  | 0x0f => some (.entryMax e)
  | 0x10 => some (.entryAbs e)
  | 0x11 => some (.entryNeg e)
  | 0x12 => some (.entrySat e)
  | 0x13 => some (.entryCmp e)
  | 0x14 => some (.entryTest e)
  | 0x15 => some (.entryMaxi e)
  | 0x16 => some (.entryMini e)
  | 0x18 => some (.entryAnd e)
  | 0x19 => some (.entryOr e)
  | 0x1a => some (.entryXor e)
  | 0x1b => some (.entryAndn e)
  | 0x1c => some (.entryNot e)
  | 0x1d => some (.entryExt e)
  | 0x1e => some (.entryIns e)
  | 0x20 => some (.entryShl e)
  | 0x21 => some (.entryShr e)
  | 0x22 => some (.entrySar e)
  | 0x23 => some (.entryRot e)
  | 0x24 => some (.entryClz e)
  | 0x25 => some (.entryCtz e)
  | 0x26 => some (.entryPopc e)
  | 0x27 => some (.entryBrev e)
  | 0x28 => some (.entryCvt e)
  | 0x29 => some (.entryDec e)
  | 0x2a => some (.entryEnc e)
  | 0x2b => some (.entryPack e)
  | 0x2c => some (.entryUnpk e)
  | 0x2d => some (.entryRnd e)
  | 0x30 => some (.entryRcp e)
  | 0x31 => some (.entryRsq e)
  | 0x32 => some (.entryExp2 e)
  | 0x33 => some (.entryLog2 e)
  | 0x34 => some (.entryDiv e)
  | 0x35 => some (.entrySqrt e)
  | 0x36 => some (.entryLut e)
  | 0x38 => some (.entryCnt e)
  | 0x39 => some (.entryHash e)
  | 0x3a => some (.entryStat e)
  | 0x07 => if e.md == 0 then some (.entryHdrLoad e) else if e.md == 1 then some (.entryHdrBuild e) else none
  | _ => none

/-- The entry a 64-bit word stands for; none for VOID and for what R56 rejects on the entry's bits alone. -/
def decodeEntry (w : Word) : Option Instr :=
  match entryCtor (w.extractLsb' 44 6) (entryOf w) with
  | some i => if i.wf then some i else none
  | none => none

/-- The opcode and fields of an entry constructor. -/
def Instr.entryParts : Instr → Option (BitVec 6 × Entry)
  | .entryMov e => some (0x01, e)
  | .entryPass e => some (0x02, e)
  | .entryDrop e => some (0x03, e)
  | .entrySel e => some (0x04, e)
  | .entryCswp e => some (0x05, e)
  | .entrySend e => some (0x06, e)
  | .entryAdd e => some (0x08, e)
  | .entrySub e => some (0x09, e)
  | .entryMul e => some (0x0a, e)
  | .entryMulh e => some (0x0b, e)
  | .entryMac e => some (0x0c, e)
  | .entryMsb e => some (0x0d, e)
  | .entryMin e => some (0x0e, e)
  | .entryMax e => some (0x0f, e)
  | .entryAbs e => some (0x10, e)
  | .entryNeg e => some (0x11, e)
  | .entrySat e => some (0x12, e)
  | .entryCmp e => some (0x13, e)
  | .entryTest e => some (0x14, e)
  | .entryMaxi e => some (0x15, e)
  | .entryMini e => some (0x16, e)
  | .entryAnd e => some (0x18, e)
  | .entryOr e => some (0x19, e)
  | .entryXor e => some (0x1a, e)
  | .entryAndn e => some (0x1b, e)
  | .entryNot e => some (0x1c, e)
  | .entryExt e => some (0x1d, e)
  | .entryIns e => some (0x1e, e)
  | .entryShl e => some (0x20, e)
  | .entryShr e => some (0x21, e)
  | .entrySar e => some (0x22, e)
  | .entryRot e => some (0x23, e)
  | .entryClz e => some (0x24, e)
  | .entryCtz e => some (0x25, e)
  | .entryPopc e => some (0x26, e)
  | .entryBrev e => some (0x27, e)
  | .entryCvt e => some (0x28, e)
  | .entryDec e => some (0x29, e)
  | .entryEnc e => some (0x2a, e)
  | .entryPack e => some (0x2b, e)
  | .entryUnpk e => some (0x2c, e)
  | .entryRnd e => some (0x2d, e)
  | .entryRcp e => some (0x30, e)
  | .entryRsq e => some (0x31, e)
  | .entryExp2 e => some (0x32, e)
  | .entryLog2 e => some (0x33, e)
  | .entryDiv e => some (0x34, e)
  | .entrySqrt e => some (0x35, e)
  | .entryLut e => some (0x36, e)
  | .entryCnt e => some (0x38, e)
  | .entryHash e => some (0x39, e)
  | .entryStat e => some (0x3a, e)
  | .entryHdrLoad e | .entryHdrBuild e => some (0x07, e)
  | _ => none

/-- R47: the word of an entry. -/
def encodeEntryWord (op : BitVec 6) (e : Entry) : Word :=
  e.stamp ++ BitVec.ofBool e.hold ++ BitVec.ofBool e.chain ++ op ++ e.fmt ++ e.sa ++ e.sb ++ e.wl ++ e.route ++ e.ps ++
    e.md ++ e.imm

/-- The 64-bit word of an element entry; none for the other instructions. -/
def encodeEntry (i : Instr) : Option Word := i.entryParts.map fun x => encodeEntryWord x.1 x.2

/-! ### The encoder -/

/-- R61: C32R. -/
def c32r (fn : BitVec 9) (b a d : Reg) (major : BitVec 6) (len : BitVec 2) : Parcel := fn ++ b ++ a ++ d ++ major ++ len
/-- R61: C32I and C32B share their places; C32B names `a` in [12:8] and `b` in [17:13]. -/
def c32i (imm : BitVec 14) (a d : Reg) (major : BitVec 6) : Parcel := imm ++ a ++ d ++ major ++ (0 : BitVec 2)
/-- R62: C64M. -/
def c64m (sc : BitVec 4) (m : MemOp) (w v : Reg) : Parcel :=
  (0 : BitVec 2) ++ sc ++ m.nc ++ m.h ++ w ++ v ++ m.c3 ++ m.c2
/-- R62: C64T. -/
def c64t (t : TileRow) : Parcel := t.rpt ++ t.selc ++ t.sela ++ t.sub ++ t.afmt ++ t.bank
/-- R62: C64Z. -/
def c64z (pkg : BitVec 12) (cl : BitVec 8) (slot : BitVec 6) (z : BitVec 3) : Parcel :=
  pkg ++ cl ++ slot ++ z ++ (0 : BitVec 3)

/-- First parcels of the memory forms (R67). -/
def ldFn (ord : Ord) (u : Bool) (sz : Size) : BitVec 9 := ord.bits ++ BitVec.ofBool u ++ sz.bits ++ (0 : BitVec 4)
def amoFn (ord : Ord) (sz : Size) (op : AmoOp) : BitVec 9 := ord.bits ++ (0 : BitVec 1) ++ sz.bits ++ op.bits
/-- First parcel of a tile-step row: SRC, ROWS − 1, b, handle. -/
def tileP0 (src : Bool) (t : TileRow) (major : BitVec 6) : Parcel :=
  c32r (BitVec.ofBool src ++ t.rows) t.b ((0 : BitVec 1) ++ t.h) 0 major 1

/-- The parcels of a cue instruction; empty for element entries and for steps of the device. -/
def encodeCue : Instr → List Parcel
  | .add d a b => [c32r 0x000 b a d 0x01 0]
  | .sub d a b => [c32r 0x001 b a d 0x01 0]
  | .mul d a b => [c32r 0x002 b a d 0x01 0]
  | .mulh d a b => [c32r 0x003 b a d 0x01 0]
  | .mulhu d a b => [c32r 0x004 b a d 0x01 0]
  | .div d a b => [c32r 0x005 b a d 0x01 0]
  | .divu d a b => [c32r 0x006 b a d 0x01 0]
  | .rem d a b => [c32r 0x007 b a d 0x01 0]
  | .remu d a b => [c32r 0x008 b a d 0x01 0]
  | .and d a b => [c32r 0x010 b a d 0x01 0]
  | .or d a b => [c32r 0x011 b a d 0x01 0]
  | .xor d a b => [c32r 0x012 b a d 0x01 0]
  | .andn d a b => [c32r 0x013 b a d 0x01 0]
  | .shl d a b => [c32r 0x018 b a d 0x01 0]
  | .shr d a b => [c32r 0x019 b a d 0x01 0]
  | .sar d a b => [c32r 0x01a b a d 0x01 0]
  | .rot d a b => [c32r 0x01b b a d 0x01 0]
  | .min d a b => [c32r 0x020 b a d 0x01 0]
  | .max d a b => [c32r 0x021 b a d 0x01 0]
  | .minu d a b => [c32r 0x022 b a d 0x01 0]
  | .maxu d a b => [c32r 0x023 b a d 0x01 0]
  | .seq d a b => [c32r 0x028 b a d 0x01 0]
  | .sne d a b => [c32r 0x029 b a d 0x01 0]
  | .slt d a b => [c32r 0x02a b a d 0x01 0]
  | .sltu d a b => [c32r 0x02b b a d 0x01 0]
  | .clz d a => [c32r 0x030 0 a d 0x01 0]
  | .ctz d a => [c32r 0x031 0 a d 0x01 0]
  | .popc d a => [c32r 0x032 0 a d 0x01 0]
  | .brev d a => [c32r 0x033 0 a d 0x01 0]
  | .addi d a imm => [c32i imm a d 0x02]
  | .muli d a imm => [c32i imm a d 0x03]
  | .andi d a imm => [c32i imm a d 0x04]
  | .ori d a imm => [c32i imm a d 0x05]
  | .xori d a imm => [c32i imm a d 0x06]
  | .slti d a imm => [c32i imm a d 0x07]
  | .sltui d a imm => [c32i imm a d 0x08]
  | .seqi d a imm => [c32i imm a d 0x09]
  | .shli d a n => [c32i ((0 : BitVec 8) ++ n) a d 0x0a]
  | .shri d a n => [c32i ((0 : BitVec 8) ++ n) a d 0x0b]
  | .sari d a n => [c32i ((0 : BitVec 8) ++ n) a d 0x0c]
  | .roti d a n => [c32i ((0 : BitVec 8) ++ n) a d 0x0d]
  | .addl d a k => [c32r 0 0 a d 0x08 2, k.extractLsb' 32 32, k.extractLsb' 0 32]
  | .andl d a k => [c32r 0 0 a d 0x09 2, k.extractLsb' 32 32, k.extractLsb' 0 32]
  | .orl d a k => [c32r 0 0 a d 0x0a 2, k.extractLsb' 32 32, k.extractLsb' 0 32]
  | .xorl d a k => [c32r 0 0 a d 0x0b 2, k.extractLsb' 32 32, k.extractLsb' 0 32]
  | .pcmp c pd a b => [c32r ((0 : BitVec 6) ++ c.bits) b a ((0 : BitVec 2) ++ pd) 0x10 0]
  | .pcmpi c pd a imm => [c32i imm a (c.bits ++ pd) 0x11]
  | .plog op pd pa pb => [c32r ((0 : BitVec 6) ++ op.bits) ((0 : BitVec 2) ++ pb) ((0 : BitVec 2) ++ pa) ((0 : BitVec 2) ++ pd) 0x12 0]
  | .selp d a b p => [c32r ((0 : BitVec 6) ++ p) b a d 0x13 0]
  | .pget d => [c32r 0 0 0 d 0x14 0]
  | .pput a => [c32r 0 0 a 0 0x15 0]
  | .nop => [c32r 0 0 0 0 0x16 0]
  | .beq a b off => [c32i off b a 0x18]
  | .bne a b off => [c32i off b a 0x19]
  | .blt a b off => [c32i off b a 0x1a]
  | .bge a b off => [c32i off b a 0x1b]
  | .bltu a b off => [c32i off b a 0x1c]
  | .bgeu a b off => [c32i off b a 0x1d]
  | .bp p off => [c32i off 0 ((0 : BitVec 2) ++ p) 0x1e]
  | .bnp p off => [c32i off 0 ((1 : BitVec 2) ++ p) 0x1e]
  | .loop a off => [c32i off 0 a 0x1f]
  | .jal a off => [c32i off 0 a 0x20]
  | .jr d a => [c32r 0 0 a d 0x21 0]
  | .fence k sc a => [c32r ((0 : BitVec 3) ++ k.bits ++ sc.bits) 0 a 0 0x22 0]
  | .mwait d acq sc a => [c32r ((0 : BitVec 4) ++ BitVec.ofBool acq ++ sc.bits) 0 a d 0x23 0]
  | .drain q => [c32r ((0 : BitVec 7) ++ q.bits) 0 0 0 0x24 0]
  | .rstp n => [c32i n 0 0 0x25]
  | .trap n => [c32i n 0 0 0x26]
  | .brk n => [c32i n 0 0 0x27]
  | .eret => [c32r 0 0 0 0 0x0e 0]
  | .exit a => [c32r 0 0 a 0 0x0f 0]
  | .unbind h => [c32r 0 0 ((0 : BitVec 1) ++ h) 0 0x28 0]
  | .portWait out p => [c32r ((0 : BitVec 4) ++ BitVec.ofBool out ++ p) 0 0 0 0x29 0]
  | .barrier out p => [c32r ((0 : BitVec 4) ++ BitVec.ofBool out ++ p) 0 0 0 0x2a 0]
  | .sceneGo n => [c32i n 0 0 0x2b]
  | .regionHalt i => [c32i ((0 : BitVec 8) ++ i) 0 0 0x2c]
  | .splice => [c32r 0 0 0 0 0x2d 0]
  | .ovlFetch n => [c32i n 0 0 0x2e]
  | .ovlWait n => [c32i n 0 0 0x2f]
  | .accTake d n => [c32i n 0 d 0x30]
  | .accFree a n => [c32i n a 0 0x31]
  | .takeSpawn d h b => [c32r 0 b ((0 : BitVec 1) ++ h) d 0x32 0]
  | .mxSwap => [c32r 0 0 0 0 0x33 0]
  | .mxZero a n => [c32i n a 0 0x34]
  | .mxMode a => [c32r 0 0 a 0 0x35 0]
  | .mxWait => [c32r 0 0 0 0 0x36 0]
  | .cpAdv n => [c32i n 0 0 0x37]
  | .cpStat d e => [c32i e 0 d 0x38]
  | .cpRedop op => [c32i ((0 : BitVec 10) ++ op) 0 0 0x39]
  | .zoneArm z a => [c32r ((0 : BitVec 6) ++ z) 0 a 0 0x3a 0]
  | .zoneStat d z => [c32i z 0 d 0x3b]
  | .zoneSweep z => [c32i z 0 0 0x3c]
  | .zoneClose z => [c32i z 0 0 0x3d]
  | .sysRd d r => [c32i ((0 : BitVec 2) ++ r) 0 d 0x3e]
  | .sysWr r a => [c32i ((0 : BitVec 2) ++ r) a 0 0x3f]
  | .ld d m ord u sz sc => [c32r (ldFn ord u sz) m.c1 m.c0 d 0x01 1, c64m sc.bits m 0 0]
  | .ld96 d m ord u sz sc lit => [c32r (ldFn ord u sz) m.c1 m.c0 d 0x01 2, c64m sc.bits m 0 0, lit]
  | .st m v ord sz sc => [c32r (ldFn ord false sz) m.c1 m.c0 0 0x02 1, c64m sc.bits m 0 v]
  | .st96 m v ord sz sc lit => [c32r (ldFn ord false sz) m.c1 m.c0 0 0x02 2, c64m sc.bits m 0 v, lit]
  | .amo d m v w ord sz op sc => [c32r (amoFn ord sz op) m.c1 m.c0 d 0x03 1, c64m sc.bits m w v]
  | .amo96 d m v w ord sz op sc lit => [c32r (amoFn ord sz op) m.c1 m.c0 d 0x03 2, c64m sc.bits m w v, lit]
  | .marm m sz => [c32r (ldFn .plain false sz) m.c1 m.c0 0 0x04 1, c64m 0 m 0 0]
  | .marm96 m sz lit => [c32r (ldFn .plain false sz) m.c1 m.c0 0 0x04 2, c64m 0 m 0 0, lit]
  | .bind a b pat hd hs node out port =>
    [c32r 0 b a 0 0x08 1, (0 : BitVec 11) ++ pat ++ hd ++ hs ++ node.bits ++ BitVec.ofBool out ++ port]
  | .mxPin m f s => [c32r ((0 : BitVec 2) ++ s ++ f) m.c1 m.c0 0 0x10 1, c64m 0 m 0 0]
  | .mxScale isB m => [c32r ((0 : BitVec 8) ++ BitVec.ofBool isB) m.c1 m.c0 0 0x11 1, c64m 0 m 0 0]
  | .mxStep src t => [tileP0 src t 0x12, c64t t]
  | .mxSteps src t => [tileP0 src t 0x13, c64t t]
  | .mxRead t => [tileP0 false t 0x14, c64t t]
  | .zoneOpen d a b nslot z => [c32r ((0 : BitVec 3) ++ nslot) b a d 0x18 1, c64z 0 0 0 z]
  | .zoneRsv d pkg cl z => [c32r 0 0 0 d 0x19 1, c64z pkg cl 0 z]
  | .zoneRel pkg cl slot z => [c32r 0 0 0 0 0x1a 1, c64z pkg cl slot z]
  | _ => []

/-- R60: the bytes of a parcel, lowest address first. -/
def parcelBytes (p : Parcel) : List Byte := [fld p 0 8, fld p 8 8, fld p 16 8, fld p 24 8]

/-- The bytes of a cue instruction as the scratchpad stores them. -/
def encode (i : Instr) : List Byte := (encodeCue i).flatMap parcelBytes

/-! ### The host's view -/

/-- Byte `k` of a number, least significant first. -/
def natByte (w k : Nat) : Byte := BitVec.ofNat 8 (w >>> (8 * k))

/-- The bytes of the longest cue instruction (12) whose low `nbits` bits are `w` and whose other bits are 0. -/
def tableBytes (nbits w : Nat) : List Byte :=
  let v := w % 2 ^ nbits
  [natByte v 0, natByte v 1, natByte v 2, natByte v 3, natByte v 4, natByte v 5, natByte v 6, natByte v 7,
   natByte v 8, natByte v 9, natByte v 10, natByte v 11]

/-- The instruction the decoder reads from a cue instruction whose bits are `w`, bit 0 the least significant bit of the
first parcel. The table gives bits only to cue rows; element entries are read by `decodeEntry`. -/
def decodeTableWord (nbits w : Nat) : Option Instr :=
  match decode (tableBytes nbits w) with
  | .ok (i, _) => some i
  | .error _ => none

end Sys2Proof
end

