-- ==== Sys2Proof/Machine/Fabric.lean ====
section
/-! DEFINITION. The played cycle of a region (R20): sources, predicates and holds (R112 to R115, R138), transparent
chains and the grain budget (R116, R143, R144), multi-cycle results (R153, R154), overruns (R155 to R157), the hazard
detector (R159, R160), element traps (R117) and the end of the cycle (R14, R15, R116, R139). -/

namespace Sys2Proof.Machine

/-! ### Links (R111) -/

/-- The partner at the far end of link `i` (0 to 5: N, E, S, W, X, Y), in the page set's own coordinates. -/
def Region.partner (g : Region) (el i : Nat) : Option Nat :=
  let x := elX el - 4 * g.x0
  let y := elY el - 4 * g.y0
  let put (x y : Nat) : Option Nat := if x < 4 * g.w && y < 4 * g.h then some (elAt (4 * g.x0 + x) (4 * g.y0 + y)) else none
  match i with
  | 0 => if y = 0 then none else put x (y - 1)
  | 1 => put (x + 1) y
  | 2 => put x (y + 1)
  | 3 => if x = 0 then none else put (x - 1) y
  | 4 => put (Nat.xor x 4) y
  | _ => put x (Nat.xor y 4)
/-- The partner's name for link `i`. -/
def oppLink (i : Nat) : Nat :=
  match i with
  | 0 => 2 | 1 => 3 | 2 => 0 | 3 => 1 | n => n
/-- Does a ROUTE field drive link `i` (R47)? -/
def drives (route : BitVec 6) (i : Nat) : Bool := route.getLsbD (5 - i)

/-! ### Reading sources (R112, R113) -/

inductive Src
  | buf (isB : Bool) (pos : Nat)
  | loc (k : Nat)
  | latch (i : Nat)
  | imm
  | zero
  deriving DecidableEq, Repr

/-- The source a code names, given how many entries of A and of B have been popped. -/
def srcOf (code : BitVec 4) (pa pb : Nat) : Src :=
  match code.toNat with
  | 0 | 1 => .buf false pa
  | 2 | 3 => .buf true pb
  | 4 => .loc 0 | 5 => .loc 1 | 6 => .loc 2 | 7 => .loc 3
  | 14 => .imm
  | 15 => .zero
  | n => .latch (n - 8)
def popsA (code : BitVec 4) : Nat := if code = 0 then 1 else 0
def popsB (code : BitVec 4) : Nat := if code = 2 then 1 else 0
/-- Entries of A and of B that a source needs. -/
def Src.need (s : Src) (isB : Bool) : Nat :=
  match s with
  | .buf b pos => if b = isB then pos + 1 else 0
  | _ => 0

/-- One firing entry of one element, with its sources, its pops and its predicate. -/
structure Firing where
  el : Nat
  op : BitVec 6
  e : Entry
  bank : Bank
  multi : Bool
  sx : Src
  sy : Src
  popA : Nat
  popB : Nat
  under : Bool       -- a buffer holds fewer entries than the entry needs
  pv : Bool
  deriving DecidableEq, Repr

/-- The free value that element `el` uses for its purpose `j` in a cycle (DESIGN CHOICE, log 2). -/
def freeEl (fresh el j : Nat) : Word := Config.freeWord (fresh + 16 * el + j)

/-- The predicate (R115): 1, F, not F, B head bit 0, its inverse. -/
def predOf (ps : BitVec 3) (b : Bank) (free : Word) : Bool :=
  let h := (b.b.headD free).getLsbD 0
  match ps.toNat with
  | 0 => true | 1 => b.f | 2 => !b.f | 3 => h | _ => !h

/-- R113: the plan of a firing entry. -/
def planOf (fresh el : Nat) (op : BitVec 6) (e : Entry) (b : Bank) : Firing :=
  let sx := srcOf e.sa 0 0
  let sy := srcOf e.sb (popsA e.sa) (popsB e.sa)
  let needA := max (sx.need false) (sy.need false)
  let needB := max (max (sx.need true) (sy.need true)) (if e.ps = 3 || e.ps = 4 then 1 else 0)
  { el := el, op := op, e := e, bank := b, multi := 1 < cyclesOf op e, sx := sx, sy := sy
    popA := popsA e.sa + popsA e.sb, popB := popsB e.sa + popsB e.sb
    under := b.a.length < needA || b.b.length < needB
    pv := predOf e.ps b (freeEl fresh el 2) }

def opDrop : BitVec 6 := 3
def opSend : BitVec 6 := 6

/-! ### Evaluation (R112, R115, R116, R143, R144) -/

/-- What the cycle knows while it evaluates: the region, its counters, the bins, the free values. -/
structure Env where
  g : Region
  fresh : Nat
  bin : Nat          -- the bin of the pair's present voltage
  cbin : Nat         -- the compiled bin
  deriving DecidableEq, Repr

/-- An evaluated entry: its first source, what its opcode does, what its latch takes, its end grains. -/
structure Done where
  f : Firing
  x : Word
  out : EOut
  res : Word
  gr : Nat           -- at the pair's present bin
  gc : Nat           -- at the compiled bin
  loop : Bool
  slow : Bool        -- its shadow sample differs (R155, TIMING)
  deriving DecidableEq, Repr

/-- A result delivered in this cycle (R153). -/
structure Deliv where
  el : Nat
  p : PendRes
  deriving DecidableEq, Repr

/-- Is the entry's latch transparent in this cycle (R143)? -/
def Firing.clear (f : Firing) : Bool := f.e.chain && !f.multi && f.op != opDrop

/-- The elements whose transparent latches an entry reads. -/
def Firing.deps (g : Region) (acts : List Firing) (f : Firing) : List Nat :=
  [f.sx, f.sy].filterMap fun s =>
    match s with
    | .latch i =>
      match g.partner f.el i with
      | some p => if acts.any fun a => a.el == p && a.clear then some p else none
      | none => none
    | _ => none

/-- A latch source: the value, and its arrival at the two bins. -/
def latchVal (v : Env) (ol : Nat → Word) (acts : List Firing) (dels : List Deliv) (done : List Done) (el i : Nat) :
    Word × Nat × Nat :=
  match v.g.partner el i with
  | none => (0, lam v.bin + hop i v.bin, lam v.cbin + hop i v.cbin)
  | some p =>
    if acts.any fun a => a.el == p && a.clear then
      match done.find? fun d => d.f.el == p with
      | some d => (d.res, d.gr + hop i v.bin, d.gc + hop i v.cbin)
      | none => (freeEl v.fresh el 4, lam v.bin + hop i v.bin, lam v.cbin + hop i v.cbin)
    else
      ((match dels.find? fun d => d.el == p && d.p.chain with
        | some d => d.p.result
        | none => ol p), lam v.bin + hop i v.bin, lam v.cbin + hop i v.cbin)

/-- The value and arrivals of a source; `j` numbers the free value of a missing read (R114). -/
def srcVal (v : Env) (f : Firing) (latch : Nat → Word × Nat × Nat) (j : Nat) (s : Src) : Word × Nat × Nat :=
  match s with
  | .buf false pos => (f.bank.a.getD pos (freeEl v.fresh f.el j), lam v.bin, lam v.cbin)
  | .buf true pos => (f.bank.b.getD pos (freeEl v.fresh f.el j), lam v.bin, lam v.cbin)
  | .loc k => (f.bank.loc k, lam v.bin, lam v.cbin)
  | .latch i => latch i
  | .imm => (immWord f.e, lam v.bin, lam v.cbin)
  | .zero => (0, lam v.bin, lam v.cbin)

/-- The iteration index (R18). -/
def Region.index (g : Region) : Word := g.ioff.setWidth 64 + g.iter.setWidth 64 * g.width.setWidth 64

/-- Replace every value that an entry produces by a free one (R161). -/
def EOut.garbled (o : EOut) (w : Word) : EOut := { o with res := w, locs := o.locs.map fun x => (x.1, w) }

/-- Evaluate one entry whose latch sources are known. -/
def evalOne (v : Env) (latch : Nat → Word × Nat × Nat) (onLoop : Bool) (f : Firing) : Done :=
  let x := srcVal v f latch 0 f.sx
  let y := srcVal v f latch 1 f.sy
  let o := effect f.op f.e { x := x.1, y := y.1, bank := f.bank, idx := v.g.index, iter := v.g.iter.setWidth 64
                             cnt := v.g.cnt.setWidth 64, ioff := v.g.ioff.setWidth 64 }
  let gr := max x.2.1 y.2.1 + (if f.multi then lam v.bin else delayAt f.op f.e f.bank.dv x.1 v.bin)
  let gc := max x.2.2 y.2.2 + (if f.multi then lam v.cbin else delayOf f.op f.e f.bank.dv v.cbin)
  let bad := onLoop || (60 < gr && Config.freeChoice (v.fresh + f.el) % 3 == 2)
  let o := if bad then o.garbled (freeEl v.fresh f.el 3) else o
  { f := f, x := x.1, out := o, res := if f.pv then o.res else if bad then freeEl v.fresh f.el 3 else x.1
    gr := gr, gc := gc, loop := onLoop, slow := 60 < gr && f.op != opDrop && Config.freeChoice (v.fresh + f.el) % 3 == 1 }

/-- One pass over the entries: those whose transparent partners are evaluated are evaluated. -/
def evalPass (v : Env) (ol : Nat → Word) (acts : List Firing) (dels : List Deliv) (done : List Done) : List Done :=
  acts.foldl (fun d f =>
    if d.any (fun x => x.f.el == f.el) then d
    else if (f.deps v.g acts).all fun p => d.any fun x => x.f.el == p then
      d ++ [evalOne v (latchVal v ol acts dels d f.el) false f]
    else d) done

def evalPasses (v : Env) (ol : Nat → Word) (acts : List Firing) (dels : List Deliv) : Nat → List Done
  | 0 => []
  | n + 1 => evalPass v ol acts dels (evalPasses v ol acts dels n)

/-- The elements reachable through transparent latches from those given, in `n` steps. -/
def reachDeps (g : Region) (acts : List Firing) : Nat → List Nat → List Nat
  | 0, l => l
  | n + 1, l => reachDeps g acts n ((l ++ (acts.filter fun f => l.contains f.el).flatMap (fun f => f.deps g acts)).eraseDups)

/-- Does an entry lie on a closed loop of transparent latches (R116)? -/
def onLoop (g : Region) (acts : List Firing) (f : Firing) : Bool :=
  (reachDeps g acts acts.length (f.deps g acts)).contains f.el

/-- All entries of the cycle evaluated; the entries on loops, and those that read them, take free values. -/
def evalAll (v : Env) (ol : Nat → Word) (acts : List Firing) (dels : List Deliv) : List Done :=
  let done := evalPasses v ol acts dels acts.length
  acts.map fun f =>
    match done.find? fun d => d.f.el == f.el with
    | some d => d
    | none => evalOne v (latchVal v ol acts dels done f.el) (onLoop v.g acts f) f

/-! ### Problems of a cycle (R117, R155, R159) -/

inductive Problem
  | trap (code : Nat)
  | hazard (kind gsum : Nat)
  | overrun (bound : Bool) (bnd len : Nat)
  deriving DecidableEq, Repr

/-- A problem, its element and the stamp of its entry; `late` says that it belongs to a delivered result. -/
structure Prob where
  el : Nat
  stamp : BitVec 12
  late : Bool
  p : Problem
  deriving DecidableEq, Repr

def hzColl : Nat := 1
def hzBuf : Nat := 2
def hzGrain : Nat := 3

/-- Does the detector check this kind of problem (R159, R160)? Only for takes launched with DEBUG. -/
def State.detects (s : State) (cl take bitNo : Nat) : Bool :=
  match s.take? take with
  | some t => t.hdr.debug && (s.cluster cl).hzctl.getLsbD 0 && (s.cluster cl).hzctl.getLsbD bitNo
  | none => false

/-- Buffer fills through links in this cycle: element, whether B, value, arrival at the pair's present bin and at the
compiled one, the driver's end grain at the latter, driver, its stamp and its bound. -/
structure Fill where
  el : Nat
  isB : Bool
  val : Word
  gr : Nat
  gc : Nat
  ge : Nat
  src : Nat
  stamp : BitVec 12
  bnd : Nat
  deriving DecidableEq, Repr

/-- R14: the fills that a driven latch causes. -/
def fillsOf (v : Env) (bank : Nat → Bank) (el : Nat) (route : BitVec 6) (val : Word) (gr gc : Nat) (stamp : BitVec 12)
    (bnd : Nat) : List Fill :=
  (List.range 6).flatMap fun i =>
    if drives route i then
      match v.g.partner el i with
      | some p =>
        let code : BitVec 9 := BitVec.ofNat 9 (1 + oppLink i)
        let b := bank p
        let one (isB : Bool) : Fill :=
          { el := p, isB := isB, val := val, gr := gr + hop i v.bin, gc := gc + hop i v.cbin, ge := gc, src := el, stamp := stamp
            bnd := bnd }
        (if b.afill = code && b.adep ≠ 0 then [one false] else []) ++ (if b.bfill = code && b.bdep ≠ 0 then [one true] else [])
      | none => []
    else []

/-- How many of an element's entries of a buffer its firing entry pops. -/
def popsOf (acts : List Firing) (el : Nat) (isB : Bool) : Nat :=
  match acts.find? fun a => a.el == el with
  | some a => if isB then a.popB else a.popA
  | none => 0

/-- Does a fill find its buffer full after the pops and the fills before it (R15)? -/
def overflows (bank : Nat → Bank) (acts : List Firing) (f : Fill) (before : Nat) : Bool :=
  let b := bank f.el
  let len := if f.isB then b.b.length else b.a.length
  let dep := if f.isB then b.bdep.toNat else b.adep.toNat
  dep ≤ (len - popsOf acts f.el f.isB) + before

/-- The logical port and the lane of a SEND (R138). -/
def Firing.port (f : Firing) : BitVec 4 := f.e.imm.extractLsb' 0 4
def Firing.lane (f : Firing) : Nat := (f.e.imm.extractLsb' 4 4).toNat
/-- Does the entry send a token in this cycle? -/
def Firing.sends (f : Firing) : Bool := f.op == opSend && f.pv

/-- Can the lane of a SEND not accept its token (R138): the tokens of the cycle enter a port in ascending lane order (R139),
and those of the lanes below take what room there is. -/
def State.laneFull (s : State) (cl q : Nat) (acts : List Firing) (f : Firing) : Bool :=
  s.outRoom cl q ≤ ((acts.filter fun a => a.sends && a.port == f.port && a.lane < f.lane).map Firing.lane).eraseDups.length

/-- The sends of a cycle: element, physical port, lane, value, LAST, and whether the lane is full. -/
structure Sending where
  d : Done
  port : Option Nat
  lane : Nat
  last : Bool
  full : Bool
  deriving DecidableEq, Repr

def sendsOf (s : State) (cl : Nat) (t : Take) (acts : List Firing) (done : List Done) : List Sending :=
  done.filterMap fun d =>
    match d.out.send with
    | some (p, lane, last) =>
      if d.f.pv && d.f.op == opSend then
        let ph := match t.physical cl true p with
          | some q => if (s.outPort cl q).bound.isSome then some q else none
          | none => none
        some { d := d, port := ph, lane := lane.toNat, last := last
               full := match ph with | some q => s.laneFull cl q acts d.f | none => false }
      else none
    | none => none

/-- Is EB set in an entry (R51, R53)? -/
def ebOf (op : BitVec 6) (e : Entry) : Bool :=
  e.md.getLsbD 3 && [0x28, 0x29, 0x30, 0x31, 0x34, 0x35].contains op.toNat

/-- BND of R156: the declared bound, 0 when EB is clear. -/
def declBnd (op : BitVec 6) (e : Entry) : Nat := if ebOf op e then bndE e else 0

/-- The problems of one evaluated entry. A multi-cycle entry's overrun belongs to its delivery cycle (R155). That a loop of
transparent latches, which R116 reports as a stamp violation, is recorded under GRAIN with KIND 5, as R160 lists it, is
DEDUCED, log 30. Which KIND is recorded when an entry meets several hazards, the first of underflow, loop, stamp violation,
grain, then sends and fills, is DESIGN CHOICE, log 44. -/
def probsOf (s : State) (cl take : Nat) (dels : List Deliv) (d : Done) : List Prob :=
  let f := d.f
  let mk (p : Problem) : Prob := { el := f.el, stamp := f.e.stamp, late := false, p := p }
  let hz (b kind gsum : Nat) (on : Bool) : List Prob := if on && s.detects cl take b then [mk (.hazard kind gsum)] else []
  let drop := f.op == opDrop
  hz hzBuf 3 0 f.under
  ++ hz hzGrain 5 0 (d.loop && !drop)
  ++ hz hzColl 6 0 (!drop && (dels.any (fun x => x.el == f.el) || (f.multi && f.bank.pend.isSome)))
  ++ (match d.out.trap with | some c => if f.pv then [mk (.trap c)] else [] | none => [])
  ++ (match d.out.ovr with
      | some n => if f.pv && !f.multi then [mk (.overrun true (bndE f.e) n)] else []
      | none => [])
  ++ hz hzGrain 4 d.gc (60 < d.gc && !drop)
  ++ (if d.slow && !f.multi then [mk (.overrun false (declBnd f.op f.e) 0)] else [])

/-- The problem that the record names: that of the lowest element (R117). Of several problems of one element the spec names
none first; that traps come before hazards before overruns is DESIGN CHOICE, log 44. -/
def Problem.rank : Problem → Nat
  | .trap _ => 0 | .hazard _ _ => 1 | .overrun _ _ _ => 2
def firstProb : List Prob → Option Prob
  | [] => none
  | p :: t =>
    match firstProb t with
    | none => some p
    | some q => if q.el < p.el || (q.el = p.el && q.p.rank < p.p.rank) then some q else some p

/-! ### Voltage (R145, R155, R157) -/

/-- The bin whose voltage a rail is at or above. -/
def binAt (mv : Nat) : Nat := if 800 ≤ mv then 0 else if 720 ≤ mv then 1 else if 660 ≤ mv then 2 else 3
/-- The next bin voltage above. -/
def nextBin (mv : Nat) : Nat := if mv < 660 then 660 else if mv < 720 then 720 else 800

/-- R157: the power controller raises the pair to the next bin voltage above its present one and holds it there; the highest
of the demands wins (R375). -/
def State.raisePair (s : State) (pair : Nat) : State :=
  (s.updPair pair fun p => { p with
    hold := true, holdV := BitVec.ofNat 10 (max p.holdV.toNat (nextBin p.vnow.toNat)), holdEnd := none }).retarget pair

/-! ### Element traps (R117, R156, R328) -/

/-- Word 0 of R156. -/
def trapWord (g : Region) (rid el : Nat) (stamp : BitVec 12) (cause opbin bnd len : Nat) : Word :=
  at_ cause 62 ||| at_ g.ctx.toNat 60 ||| at_ rid 54 ||| at_ (el / 16) 50 ||| at_ (el % 16) 46 ||| at_ stamp.toNat 34
    ||| at_ g.copy.toNat 29 ||| at_ opbin 27 ||| at_ bnd 23 ||| at_ (min len 15) 19

/-- The region stops, FROZEN, and the trap goes to the take's context (R117, R328). -/
def State.elementTrap (s : State) (cl rid code : Nat) (info info2 : Word) : State :=
  let g := s.region cl rid
  let s := s.updRegion cl rid fun g => { g with rstate := .frozen, arb := 0 }
  let s := if code = codeChainOverrun then
      s.updTake g.take fun t => if t.fr.odet0 = 0 && t.fr.odet1 = 0 then { t with fr := { t.fr with odet0 := info, odet1 := info2 } } else t
    else s
  s.fabricTrap cl g.take ⟨code, info, info2⟩

/-- HZREC (R160): a set record is not overwritten. -/
def State.hzRecord (s : State) (cl rid : Nat) (ctx : BitVec 2) (p : Prob) (kind gsum : Nat) : State :=
  s.updCluster cl fun c =>
    if bit c.hzrec 63 then c
    else { c with hzrec := flag true 63 ||| at_ kind 60 ||| at_ ctx.toNat 58 ||| at_ rid 52 ||| at_ (p.el / 16) 48
                    ||| at_ (p.el % 16) 44 ||| at_ p.stamp.toNat 32 ||| at_ (min gsum 255) 24 }

/-- The iteration index of a problem's entry: a result delivered after a wrap belongs to the iteration before. -/
def Prob.index (p : Prob) (g : Region) : Word :=
  if p.late && g.cnt.ult p.stamp then ({ g with iter := g.iter - 1 } : Region).index else g.index

/-- What a problem does in place of the cycle: an element trap, or the response of R157. -/
def State.cycleProblem (s : State) (cl rid : Nat) (p : Prob) : State :=
  let g := s.region cl rid
  match p.p with
  | .trap code => s.elementTrap cl rid code (trapWord g rid p.el p.stamp 0 0 0 0) (p.index g)
  | .hazard kind gsum =>
    (s.hzRecord cl rid g.ctx p kind gsum).elementTrap cl rid codeSchedHazard (trapWord g rid p.el p.stamp 0 0 0 0) (p.index g)
  | .overrun bound bnd len =>
    let mv := (s.pair (pairOf cl)).vnow.toNat
    if bound || 800 ≤ mv || g.overAgain then
      s.elementTrap cl rid codeChainOverrun (trapWord g rid p.el p.stamp (b2n bound) (binAt mv) bnd len) (p.index g)
    else
      ((s.raisePair (pairOf cl)).updRegion cl rid fun g => { g with overAgain := true }).replay cl rid true

/-! ### The end of a cycle (R15, R116, R100) -/

/-- Count one event in a 16-bit field of TOKC. -/
def tokInc (t : Word) (lo : Nat) (on : Bool) : Word :=
  if on && bits t (lo + 15) lo < 0xFFFF then t + at_ 1 lo else t
/-- The XF bits (R12) and the counters (R100) of events: SAT, NaR-in, clamp, bound, INVALID. -/
def xfMask (sat nar clamp bound inv : Bool) : BitVec 4 :=
  BitVec.ofNat 4 (8 * b2n inv + 4 * b2n (sat || clamp) + 2 * b2n nar + b2n bound)
def tokMask (sat nar clamp bound : Bool) : BitVec 4 := BitVec.ofNat 4 (8 * b2n sat + 4 * b2n nar + 2 * b2n clamp + b2n bound)
def tokAdd (t : Word) (m : BitVec 4) : Word :=
  tokInc (tokInc (tokInc (tokInc t 48 (m.getLsbD 3)) 32 (m.getLsbD 2)) 16 (m.getLsbD 1)) 0 (m.getLsbD 0)
def Bank.events (b : Bank) (xf tok : BitVec 4) : Bank := { b with xf := b.xf ||| xf, tokc := tokAdd b.tokc tok }

/-- The writes of an entry whose predicate is true. -/
def Bank.apply (b : Bank) (o : EOut) : Bank :=
  let b := if o.clrTok then { b with tokc := 0 } else b
  let b := o.locs.foldl (fun b x => b.setLoc x.1 x.2) b
  let b := match o.flag with | some v => { b with f := v } | none => b
  let b := match o.dhdr with | some h => { b with dhdr := h, dv := true } | none => b
  b.events (xfMask o.sat o.nar o.clamp o.bound o.inv) (tokMask o.sat o.nar o.clamp o.bound)

/-- R153: what a multi-cycle entry leaves in PEND in its firing cycle, with its overrun (R155). That an entry with a BOUND and
a TIMING overrun reports the first is DESIGN CHOICE, log 44. -/
def pendOf (d : Done) : PendRes :=
  let o := d.out
  let late : Option Overrun := if d.slow then some .timing else none
  let bnd := BitVec.ofNat 4 (declBnd d.f.op d.f.e)
  if d.f.pv then
    { result := d.res, wl := d.f.e.wl, route := d.f.e.route, chain := d.f.e.chain, flag := o.flag
      xf := xfMask o.sat o.nar o.clamp o.bound o.inv, tokc := tokMask o.sat o.nar o.clamp o.bound
      ovr := (o.ovr.map Overrun.bound).or late, bnd := bnd, stamp := d.f.e.stamp, count := BitVec.ofNat 4 (cyclesOf d.f.op d.f.e - 1) }
  else
    { result := d.res, wl := 0, route := d.f.e.route, chain := d.f.e.chain, flag := none, xf := 0, tokc := 0
      ovr := late, bnd := bnd, stamp := d.f.e.stamp, count := BitVec.ofNat 4 (cyclesOf d.f.op d.f.e - 1) }

/-- R153: delivery into the bank; its events are counted after the cycle's own entry, whose STAT may clear the counters
(R101). -/
def Bank.deliver (b : Bank) (p : PendRes) : Bank :=
  let b := { b with pend := none, ol := p.result }
  let b := if p.wl = 0 then b else b.setLoc (p.wl.toNat % 4) p.result
  match p.flag with | some v => { b with f := v } | none => b

/-- The bank of an element after its own entry fires: pops, then its writes. -/
def Bank.fired (b : Bank) (d : Done) : Bank :=
  let b := { b with a := b.a.drop d.f.popA, b := b.b.drop d.f.popB }
  if d.f.op = opDrop then b
  else if d.f.multi then { b with pend := some (pendOf d) }
  else
    let b := { b with ol := d.res }
    if d.f.pv then b.apply d.out else b

def Bank.push (b : Bank) (isB : Bool) (v : Word) : Bank := if isB then { b with b := b.b ++ [v] } else { b with a := b.a ++ [v] }

/-- Accept the tokens of one port and lane: of several, those of other regions in this cycle among them, one that a free
choice picks (R139). -/
def State.acceptLane (s : State) (cl rid port lane : Nat) (l : List Sending) : State :=
  let c := Config.freeChoice (s.fresh + 512 + lane)
  match l[c % l.length]? with
  | some x =>
    let v := if (s.region cl rid).wild then freeEl s.fresh x.d.f.el 5 else x.d.res
    if (s.outPort cl port).taken s.cycle lane then
      if c / l.length % 2 = 0 then s else s.updOut cl port fun p => p.replace s.cycle lane v x.last rid
    else if s.canAccept cl port then s.updOut cl port fun p => p.acceptLane s.cycle lane v x.last rid
    else s
  | none => s

/-- All tokens of the cycle, each port's in ascending lane order. -/
def State.acceptAll (s : State) (cl rid : Nat) (l : List Sending) : State :=
  (List.range 16).foldl (fun s port =>
    (List.range 16).foldl (fun s lane =>
      let m := l.filter fun x => x.port == some port && x.lane == lane && !x.full
      if m.isEmpty then s else s.acceptLane cl rid port lane m) s) s

/-- Fills with how many fills of the same buffer come before each. -/
def numberFills : List Fill → List Fill → List (Fill × Nat)
  | _, [] => []
  | seen, f :: t => (f, (seen.filter fun x => x.el == f.el && x.isB == f.isB).length) :: numberFills (f :: seen) t

/-- The performance of a played cycle's firing entries and deliveries (R20 step 3, R115, R116, R153): either all of it,
or the problem that takes its place. DESIGN CHOICE, log 44, since R159 and R161 do not say: a collision is that of the later
element, or of the region that plays second; an overflow is that of the element whose buffer overflows, with CNT as its stamp
when it fires nothing; in a cycle of a stamp violation the delivered result's own word and fills are right, and a second
multi-cycle entry takes the place of the pending one. Of the outcomes that R161 allows, a stamp violation of R154 has unpredictable
values here and never a CHAIN-OVERRUN. -/
def State.playWith (s : State) (cl rid : Nat) (t : Take) (acts : List Firing) (dels : List Deliv) : State × Bool :=
  let g := s.region cl rid
  let mv := (s.pair (pairOf cl)).vnow.toNat
  let v : Env := { g := g, fresh := s.fresh, bin := binAt mv, cbin := t.slate.vbin.toNat }
  let bank (el : Nat) : Bank := s.bank cl (g.bankNo el)
  let done0 := evalAll v (fun el => (bank el).ol) acts dels
  -- R154, R161: a stamp violation outside debug mode
  let viol (d : Done) : Bool := d.f.op != opDrop && (dels.any (fun x => x.el == d.f.el) || (d.f.multi && d.f.bank.pend.isSome))
  let done := done0.map fun d =>
    if viol d then { d with out := d.out.garbled (freeEl s.fresh d.f.el 3), res := freeEl s.fresh d.f.el 3 } else d
  let sends := sendsOf s cl t acts done
  let fills := done.flatMap (fun d =>
      if d.f.multi || d.f.op = opDrop then [] else fillsOf v bank d.f.el d.f.e.route d.res d.gr d.gc d.f.e.stamp (declBnd d.f.op d.f.e))
    ++ dels.flatMap fun x => fillsOf v bank x.el x.p.route x.p.result (lam v.bin) (lam v.cbin) x.p.stamp x.p.bnd.toNat
  let nf := numberFills [] fills
  let hz (b : Nat) : Bool := s.detects cl t.id b
  let probs := done.flatMap (fun d => probsOf s cl t.id dels d)
    ++ dels.filterMap (fun x => x.p.ovr.map fun o =>
        ({ el := x.el, stamp := x.p.stamp, late := true
           p := match o with | .bound n => .overrun true x.p.bnd.toNat n | .timing => .overrun false x.p.bnd.toNat 0 } : Prob))
    ++ sends.filterMap (fun x =>
        if x.port.isNone then some { el := x.d.f.el, stamp := x.d.f.e.stamp, late := false, p := .trap codePortUnbound }
        else if x.full && hz hzBuf then some { el := x.d.f.el, stamp := x.d.f.e.stamp, late := false, p := .hazard 2 0 }
        else if hz hzColl && x.port.any (fun q => (s.outPort cl q).taken s.cycle x.lane) then
          some { el := x.d.f.el, stamp := x.d.f.e.stamp, late := false, p := .hazard 1 0 }
        else if hz hzColl && (sends.find? fun y => y.port == x.port && y.lane == x.lane && !y.full) != some x && !x.full then
          some { el := x.d.f.el, stamp := x.d.f.e.stamp, late := false, p := .hazard 1 0 }
        else none)
    ++ nf.filterMap (fun x =>
        if 60 < x.1.gc && hz hzGrain then some { el := x.1.src, stamp := x.1.stamp, late := false, p := .hazard 4 x.1.ge }
        else if overflows bank acts x.1 x.2 && hz hzBuf then
          some { el := x.1.el, stamp := (acts.find? (fun a => a.el == x.1.el)).elim g.cnt (fun a => a.e.stamp), late := false, p := .hazard 2 0 }
        else if 60 < x.1.gr && Config.freeChoice (s.fresh + x.1.src) % 3 = 1 then
          some { el := x.1.src, stamp := x.1.stamp, late := false, p := .overrun false x.1.bnd 0 }
        else none)
  match firstProb probs with
  | some p => ({ (s.cycleProblem cl rid p) with fresh := s.fresh + 8192 }, false)
  | none =>
    let ovr := nf.any fun x => overflows bank acts x.1 x.2
    let s := s.updCluster cl fun c =>
      let bs := dels.foldl (fun b x => tupd {} b (g.bankNo x.el) fun y => y.deliver x.p) c.banks
      let bs := done.foldl (fun b d => tupd {} b (g.bankNo d.f.el) fun y => y.fired d) bs
      let bs := dels.foldl (fun b x => tupd {} b (g.bankNo x.el) fun y => y.events x.p.xf x.p.tokc) bs
      let bs := nf.foldl (fun b x =>
        if overflows bank acts x.1 x.2 then b
        else tupd {} b (g.bankNo x.1.el) fun y =>
          y.push x.1.isB (if 60 < x.1.gr && Config.freeChoice (s.fresh + x.1.src) % 3 = 2 then freeEl s.fresh x.1.src 6 else x.1.val)) bs
      { c with banks := bs }
    let s := s.acceptAll cl rid sends
    let s := if ovr then s.updRegion cl rid fun g => { g with wild := true } else s
    ({ s with fresh := s.fresh + 8192 }, true)

/-! ### The played cycle (R20, R334) -/

/-- The entry of an element that fires at a counter value: its opcode and fields. -/
def Bank.firing (b : Bank) (cnt : BitVec 12) : Option (BitVec 6 × Entry) :=
  match b.ents.find? fun w => (entryOf w).stamp == cnt with
  | some w =>
    match (decodeEntry w).bind Instr.entryParts with
    | some x => some x
    | none => none
  | none => none

def State.firings (s : State) (cl : Nat) (g : Region) : List Firing :=
  g.els.filterMap fun el =>
    (((s.bank cl (g.bankNo el)).firing g.cnt)).map fun x => planOf s.fresh el x.1 x.2 (s.bank cl (g.bankNo el))

/-- Is a firing entry with H set, one of those of the cycle, short of a buffer entry, or of room in its lane (R20, R138)? -/
def State.holds (s : State) (cl : Nat) (t : Take) (acts : List Firing) (f : Firing) : Bool :=
  f.e.hold &&
    (f.under ||
      (f.sends &&
        match t.physical cl true f.port with
        | some q => (s.outPort cl q).bound.isSome && s.laneFull cl q acts f
        | none => false))

/-- Is a cycle a played cycle of the region (R20 to R22)? -/
def State.played (s : State) (g : Region) : Bool :=
  g.slots.getLsbD s.slot.toNat && !g.emask.getLsbD s.slot.toNat

/-- R334: the checkpoint of a restart point. -/
def State.restartPoint (s : State) (cl rid : Nat) : State :=
  let g := s.region cl rid
  let shadow := g.els.foldl (fun t el => tput {} t el { (s.bank cl (g.bankNo el)) with ents := [] }) []
  let s := s.updRegion cl rid fun g => { g with
    shadow := shadow, rstamp := g.cnt, riter := g.iter, overAgain := false, lostOnce := false }
  let move (x : Consumer) : Consumer := if x.rid = rid then { x with rptr := x.rd, lost := false } else x
  let f (_ : Nat) (p : InPort) : InPort := ({ p with cons := p.cons.map move } : InPort).trim
  let s := s.updCluster cl fun c => { c with inp := tmap {} f c.inp }
  s.releaseTokens cl rid

/-- Does the region pass a restart point at the start of this played cycle (R334)? -/
def Region.atRestart (g : Region) : Bool :=
  g.fresh || (g.moved && (if g.restarts.isEmpty then g.cnt == 0 else g.restarts.contains g.cnt))

/-- R20 step 3: CNT and ITER advance. -/
def Region.advance (g : Region) : Region :=
  if g.cnt.toNat + 1 = g.ii.toNat then { g with cnt := 0, iter := g.iter + 1, moved := true }
  else { g with cnt := g.cnt + 1, moved := true }

/-- R153: the results whose count reaches zero in this cycle, and the countdown of the others. -/
def State.deliveries (s : State) (cl : Nat) (g : Region) : List Deliv :=
  g.els.filterMap fun el =>
    match (s.bank cl (g.bankNo el)).pend with
    | some p => if p.count.toNat ≤ 1 then some { el := el, p := p } else none
    | none => none
def Bank.countDown (b : Bank) : Bank :=
  match b.pend with
  | some p => if p.count.toNat ≤ 1 then b else { b with pend := some { p with count := p.count - 1 } }
  | none => b

/-- Does an entry that fires read a context store or a buffer with an uncorrectable error (R331)? -/
def badFiring (acts : List Firing) : Bool := acts.any fun a => a.bank.bad
/-- R331: the error is detected, and the region replays for cause DATA. -/
def State.bankAbort (s : State) (cl rid : Nat) (t : Take) : State :=
  (s.detectUe (dieOf cl) cl t.id chipInfo).replay cl rid false

/-- A played cycle of a region in RUN. -/
def State.playRun (s : State) (cl rid : Nat) (t : Take) : State :=
  let s := if (s.region cl rid).atRestart then s.restartPoint cl rid else s
  let s := s.updRegion cl rid fun g => { g with fresh := false, moved := false, held := false }
  let g := s.region cl rid
  let acts := s.firings cl g
  if badFiring acts then s.bankAbort cl rid t
  else if acts.any fun f => s.holds cl t acts f then s.updRegion cl rid fun g => { g with held := true }
  else
    let dels := s.deliveries cl g
    let counting := g.els.filter fun el =>
      match (s.bank cl (g.bankNo el)).pend with
      | some p => 1 < p.count.toNat
      | none => false
    match s.playWith cl rid t acts dels with
    | (s, false) => s
    | (s, true) =>
      let s := s.updCluster cl fun c => { c with banks := counting.foldl (fun b el => tupd {} b (g.bankNo el) Bank.countDown) c.banks }
      s.updRegion cl rid Region.advance

/-- A played cycle of a region in DELAY (R20). -/
def Region.delayCycle (g : Region) : Region :=
  if g.soffLeft.toNat ≤ 1 then { g with rstate := .run, soffLeft := 0, fresh := true } else { g with soffLeft := g.soffLeft - 1 }

/-- PLAYED_CYCLE (R20). -/
def execPlayedCycle (cl rid : Nat) (s : State) : Out :=
  let g := s.region cl rid
  match s.take? g.take with
  | none => .next s
  | some t =>
    if t.active && s.played g && !g.suspended then
      match g.rstate with
      | .delay => .next (s.updRegion cl rid Region.delayCycle)
      | .run => .next (s.playRun cl rid t)
      | _ => .next s
    else .next s

/-- DELAY_END (R20): the played cycle in which the remaining SOFF count reaches zero. -/
def execDelayEnd (cl rid : Nat) (s : State) : Out :=
  let g := s.region cl rid
  if g.rstate = .delay && g.soffLeft.toNat ≤ 1 && s.played g && s.active g.take then .next (s.updRegion cl rid Region.delayCycle)
  else .next s

/-- PEND_DELIVERY (R153): the delivery of one element's pending result, in its delivery cycle. -/
def execPendDelivery (cl rid el : Nat) (s : State) : Out :=
  let g := s.region cl rid
  match s.take? g.take, (s.bank cl (g.bankNo el)).pend with
  | some t, some p =>
    if t.active && g.rstate = .run && p.count.toNat ≤ 1 then .next (s.playWith cl rid t [] [{ el := el, p := p }]).1
    else .next s
  | _, _ => .next s

/-- START_TOKEN_DELIVERY (R146): a start token that waited for the rail. -/
def execStartTokenDelivery (cl rid : Nat) (s : State) : Out :=
  if (s.region cl rid).token && s.active (s.region cl rid).take then .next (s.startRegion cl rid) else .next s

/-- REPLAY_RESUME (R157, R335): the rail has settled at the raised voltage, and the region goes on from its restart point. -/
def execReplayResume (cl rid : Nat) (s : State) : Out :=
  let g := s.region cl rid
  if g.rstate = .replay && (s.pair (pairOf cl)).holds then
    .next (s.updRegion cl rid fun g => { g with rstate := .run, settleFor := false })
  else .next s

/-! ### One entry that fires alone -/

/-- The one entry of an element fires (R115): the effect of the opcode on its bank, its links and its port, in a played
cycle of its region in which no other entry fires. -/
def fireEntry (op : BitVec 6) (e : Entry) (s : State) : Out :=
  let g := s.region s.curCl s.curRid
  match s.take? g.take with
  | none => .next s
  | some t =>
    let f := planOf s.fresh s.curEl op e (s.bank s.curCl (g.bankNo s.curEl))
    if badFiring [f] then .next (s.bankAbort s.curCl s.curRid t)
    else if s.holds s.curCl t [f] f then .next s else .next (s.playWith s.curCl s.curRid t [f] []).1

end Sys2Proof.Machine
end

