-- ==== Sys2Proof/Machine/Scene.lean ====
section
/-! DEFINITION. Loading a scene: code into the window of the scratchpad (R79, R164, R188, R337), regions and their banks
(R16, R21, R42, R300), and the masks under which a region plays (R22, R310, R311, R376). -/

namespace Sys2Proof.Machine

/-! ### Masks (R22, R310, R376) -/

/-- PWR of R376 for a region whose slots are given: the highest of them is exempt when PWR covers them all. -/
def pwrFor (pwr slots : BitVec 16) : BitVec 16 :=
  if slots &&& ~~~ pwr = 0 then
    match highest 16 slots.getLsbD with
    | some i => setBit pwr i false
    | none => pwr
  else pwr

/-- PWR of a pair: PWRMASK and the backstop mask (R376, R377). -/
def State.pwrOf (s : State) (pair : Nat) : BitVec 16 := (s.pair pair).pwrmask ||| s.bkmask

/-- EMASK (R310): the OR of PWR, ARB and DRP. -/
def State.emaskOf (s : State) (cl : Nat) (g : Region) : BitVec 16 :=
  let p := s.pair (pairOf cl)
  if p.drp then BitVec.allOnes 16 else pwrFor (s.pwrOf (pairOf cl)) g.slots ||| g.arb

/-! ### Code (R164, R188, R337) -/

/-- Set the state of the lines that a range of the scratchpad touches. -/
def Cluster.setLines (c : Cluster) (a n : Nat) (st : LineSt) : Cluster :=
  { c with lines := (unitsOf 64 a n).foldl (fun t i => tput .valid t (i % 1024) st) c.lines }

def Cluster.putCode (c : Cluster) (a : Nat) (bytes : List Byte) : Cluster :=
  { c with scratch := bytes.zipIdx.foldl (fun m (x : Byte × Nat) => tput 0 m ((a + x.2) % 65536) x.1) c.scratch }

/-- Read `n` bytes at an offset of a take's code object and place them in the scratchpad of a cluster. All lines of the
range become valid, or invalid when the fetch meets an abort completion (R337). -/
def State.loadCode (s : State) (cl : Nat) (t : Take) (off a n : Nat) (ok : Bool) : State × Bool :=
  match s.refRead t.fn t.reel.ref off n cl t.id with
  | (s, some b) =>
    if ok then (s.updCluster cl fun c => (c.putCode a b).setLines a n .valid, true)
    else (s.updCluster cl fun c => c.setLines a n .invalid, false)
  | (s, none) => (s.updCluster cl fun c => c.setLines a n .invalid, false)

/-- The lowest window offset of an overlay of the reel; the end of the window when there is none. -/
def Reel.overlayBase (r : Reel) (wsize : Nat) : Nat := r.ovls.foldl (fun m o => min m o.woff) wsize

/-- R188: a scene load fetches its section into the window from offset 0; the lines between its end and the lowest
overlay become invalid (log 16). Of a section longer than the window what fits is loaded (DESIGN CHOICE, log 38). -/
def State.loadSection (s : State) (cl k : Nat) (t : Take) (sc : Scene) : State :=
  let x := s.ctx cl k
  let n := min sc.cueLen x.wsize
  let first := 64 * cdiv n 64
  let top := t.reel.overlayBase x.wsize
  let s := if first < top then s.updCluster cl fun c => c.setLines (x.wbase.toNat + first) (top - first) .invalid else s
  (s.loadCode cl t sc.cueOff x.wbase.toNat n true).1

/-! ### Regions (R17, R21, R42, R300) -/

/-- The code that a duty pattern gives a slot (R21, R390). -/
def dutyCode (duty : BitVec 48) (slot : Nat) : Nat := duty.toNat / 2 ^ (3 * slot) % 8

/-- The slots that carry a region's context, after rotation (R300): slot s takes the code of slot (s − k) mod 16. -/
def RegionRec.slots (r : RegionRec) (rot : Nat) : BitVec 16 :=
  (List.range 16).foldl (fun m i => setBit m i (dutyCode r.duty ((i + 16 - rot % 16) % 16) == r.ctx.toNat)) 0

/-- A bank as the slate gives it (R42, R391). -/
def ElemRec.bank (e : ElemRec) : Bank :=
  { l0 := e.l0, l1 := e.l1, l2 := e.l2, l3 := e.l3, adep := e.adep, bdep := e.bdep, afill := e.afill, bfill := e.bfill
    live := e.live, ents := e.ents.filter fun w => w != 0 }

/-- The record that a slate's region goes back to: its own, or for a continuing one the record that first declared it. -/
def Reel.record (r : Reel) : Nat → Nat → Option (Slate × RegionRec)
  | 0, i =>
    match r.scenes[0]? with
    | some sc => (sc.slate.regions[i]?).map fun x => (sc.slate, x)
    | none => none
  | n + 1, i =>
    match r.scenes[n + 1]? with
    | some sc =>
      match sc.slate.regions[i]? with
      | some x => if x.cont then r.record n x.prev else some (sc.slate, x)
      | none => none
    | none => none

/-- The RID of a placed copy (R17). -/
def Spot.rid (p : Spot) : Nat := 16 * p.ctx.toNat + 4 * p.y0 + p.x0

/-- Load one copy of a region: ARMED, with its banks at the slate's values (R42). Of two element records that name one
element the last counts (DESIGN CHOICE, log 38). -/
def State.loadRegion (s : State) (cl : Nat) (t : Take) (lc : Nat) (p : Spot) : State :=
  match t.reel.record p.scene p.rix with
  | none => s
  | some (sl, r) =>
    let ps := sl.psets.getD r.psi { w := 1, h := 1, lc := 0 }
    let g : Region :=
      { take := t.id, lc := lc, rix := p.rix, copy := BitVec.ofNat 5 p.copy, ctx := p.ctx, x0 := p.x0, y0 := p.y0
        w := ps.w, h := ps.h, ii := BitVec.ofNat 13 r.ii, ioff := BitVec.ofNat 32 p.copy, width := BitVec.ofNat 6 r.copies
        soff := BitVec.ofNat 12 (p.copy * r.soffk), rstate := .armed, slots := r.slots p.rot, restarts := r.restarts }
    let at_ (e : ElemRec) : Nat := elAt (4 * p.x0 + e.x) (4 * p.y0 + e.y)
    -- R334: before its first restart point the region replays from these values
    let g := { g with emask := s.emaskOf cl g, shadow := r.elems.foldl (fun t e => tput {} t (at_ e) { e.bank with ents := [] }) [] }
    let s := s.updRegion cl p.rid fun _ => g
    s.updCluster cl fun c =>
      let b := g.els.foldl (fun b el => tdel (g.bankNo el) b) c.banks
      { c with banks := r.elems.foldl (fun b e => tput {} b (g.bankNo (at_ e)) e.bank) b }

/-- Unload a region to IDLE (R42): its banks are no longer resident. -/
def State.unloadRegion (s : State) (cl rid : Nat) : State :=
  let g := s.region cl rid
  s.updCluster cl fun c =>
    { c with regions := tdel rid c.regions, banks := g.els.foldl (fun b el => tdel (g.bankNo el) b) c.banks }

/-- The record of a slate with which a region of the scene before continues (R42, R187). Of several that name it the lowest
counts (DESIGN CHOICE, log 38). -/
def Slate.continues (sl : Slate) (rix : Nat) : Option Nat :=
  lowest sl.regions.length fun i =>
    match sl.regions[i]? with
    | some r => r.cont && r.prev == rix
    | none => false

/-- The spots of a scene that are loaded when it begins: the regions that do not continue. -/
def Place.fresh (p : Place) (t : Take) (n : Nat) : List Spot :=
  p.spots.filter fun x => x.scene == n &&
    match t.reel.scenes[n]? with
    | some sc => (match sc.slate.regions[x.rix]? with
      | some r => !r.cont
      | none => false)
    | none => false

/-- Load the regions of a scene on a cluster: those of the scene before are unloaded or continue under their new index. -/
def State.loadRegions (s : State) (t : Take) (p : Place) (n : Nat) : State :=
  match t.reel.scenes[n]? with
  | none => s
  | some sc =>
    let s := (s.regionsOf p.cl t.id).foldl (fun s x =>
      match sc.slate.continues x.2.rix with
      | some i => s.updRegion p.cl x.1 fun g => { g with rix := i }
      | none => s.unloadRegion p.cl x.1) s
    (p.fresh t n).foldl (fun s x => s.loadRegion p.cl t p.lc x) s

/-- The consuming regions of the input ports that stay bound over a scene load: a new one starts at the next token. -/
def State.renewConsumers (s : State) (cl : Nat) (t : Take) : State :=
  let f (q : Nat) (x : InPort) : InPort :=
    match x.bound with
    | some b =>
      if b.take = t.id then
        let rids := s.consumersOf cl t (t.logical cl false q)
        ({ x with cons := rids.map fun rid =>
            match x.cons.find? fun c => c.rid == rid with
            | some c => c
            | none => ⟨rid, x.pos, x.pos, false⟩ } : InPort).trim
      else x
    | none => x
  s.updCluster cl fun c => { c with inp := tmap {} f c.inp }

/-! ### The rail and the floor (R146, R374, R375) -/

/-- Change the regions of a cluster that satisfy `p`: they wait for the rail, or no longer. -/
def State.railWaits (s : State) (cl : Nat) (w : Bool) (p : Region → Bool) : State :=
  s.updCluster cl fun c => { c with regions := tmap {} (fun _ (g : Region) => if p g then { g with railWait := w } else g) c.regions }

/-- R146: after a slate load on a cluster the rail follows the floor; where the load has raised the floor over that of
`old`, the package before the load, the new regions wait until the rail has settled at or above it. -/
def State.raiseFloor (s : State) (old : State) (cl : Nat) (isNew : Region → Bool) : State :=
  let s := s.retarget (pairOf cl)
  let p := s.pair (pairOf cl)
  if old.floorOf (pairOf cl) < s.floorOf (pairOf cl) && !(p.settled && s.floorOf (pairOf cl) ≤ p.vnow.toNat) then
    s.railWaits cl true isNew
  else s

/-- Does a region of a pair wait for its rail, which is at or above the floor? -/
def State.railWaiting (s : State) (pair : Nat) : Bool :=
  s.floorOf pair ≤ (s.pair pair).vnow.toNat
    && [2 * pair, 2 * pair + 1].any fun cl => (s.cluster cl).regions.any fun g => g.2.railWait

/-- The rail of a pair has settled: where that is at or above the floor, no region of the pair waits for it. -/
def State.railFree (s : State) (pair : Nat) : State :=
  if s.floorOf pair ≤ (s.pair pair).vnow.toNat then
    (s.railWaits (2 * pair) false fun _ => true).railWaits (2 * pair + 1) false fun _ => true
  else s

end Sys2Proof.Machine
end

