-- ==== Sys2Proof/Machine/System.lean ====
section
/-! DEFINITION. Fences, monitors and drains (R177 to R180), system registers (R26 to R29, R192, R326), traps and their
return (R165, R193, R328), RSTP and EXIT (R194, R195), scenes and overlays (R185 to R188). -/

namespace Sys2Proof.Machine

/-- The instruction at which a context is stalled has ended, or is issued again. -/
def State.unstall (s : State) (cl k : Nat) : State := s.updCtx cl k fun c => { c with stall := none }
/-- The instruction of one parcel at which a context is stalled is complete. -/
def State.endStall (s : State) (cl k : Nat) : State := s.updCtx cl k fun c => { c with stall := none }.advance 1

/-! ### FENCE, MWAIT (R177, R179) -/

/-- FENCE (R177). The model performs every access of a context when it is issued, but for stores to peers (DESIGN CHOICE,
log 9), and for the reads of streams; every kind of fence waits for those stores, AR and REL for the stream reads, too (R275),
and every kind reports the aborts of stores and of MX.READ writes (R173, R221). It does not wait for the writes of MX.READ
(R225). -/
def execFence (k : FenceKind) (_ : Scope) (_ : Reg) (s : State) : Out :=
  if s.me.storesOut || (k != .acq && s.myStreams) then .next s.again
  else
    match s.report .all with
    | some s => .next s
    | none => .next (s.goOn 1)

/-- Does MWAIT return, and with which cause (R179)? -/
def CueCtx.monCause (c : CueCtx) : Option Word :=
  match c.mon with
  | none => some 1
  | some m => if m.fired then some 0 else none

/-- MWAIT (R179). With ACQ it is a reporting point of R173. -/
def execMwait (d : Reg) (acq : Bool) (sc : Scope) (_ : Reg) (s : State) : Out :=
  if acq && s.me.storesOut then .next s.again
  else
    match (if acq then s.report .stores else none) with
    | some s => .next s
    | none =>
      match s.me.monCause with
      | some v => .next (s.result 1 d v)
      | none => .next (s.onMe fun c => c.startWait (.mwait d acq sc))

/-- MWAIT_WAKE (R179): the monitor has fired, or is invalid. -/
def execMwaitWake (cl k : Nat) (s : State) : Out :=
  match (s.ctx cl k).wait, (s.ctx cl k).monCause with
  | some (.mwait d _ _), some v => .next (s.updCtx cl k fun c => c.endWait.setReg d v)
  | _, _ => .next s

/-! ### DRAIN (R180) -/

/-- The number of tokens in the complete tiles at the head of a port's queue that have left the replay window. -/
def dueLen (closed : Bool) : Nat → List OutTok → Nat
  | 0, _ => 0
  | n + 1, l =>
    let k := tileLen closed l
    if k = 0 || !((l.take k).all fun y => y.rid.isNone) then 0 else k + dueLen closed n (l.drop k)

/-- The memory path of an output port's binding. -/
def State.outPath (s : State) (cl p : Nat) : Option Path :=
  match (s.outPort cl p).bound with
  | none => none
  | some b => (s.take? b.take).map fun t => resPath (t.tensor b.tid.toNat).res

/-- The position up to which a port must have committed for a DRAIN: that of its accepted commits. -/
def State.duePos (s : State) (cl p : Nat) : Nat :=
  let x := s.outPort cl p
  let closed := x.closing ||
    match x.bound with
    | none => false
    | some b =>
      match s.take? b.take with
      | none => false
      | some t => (b.walk (t.tensor b.tid.toNat)).ntok ≤ x.nacc
  x.nacc - x.held.length + dueLen closed x.held.length x.held

/-- The physical output ports that a take holds on a cluster. -/
def Take.outPorts (t : Take) (cl : Nat) : List Nat :=
  match t.placeOf cl with
  | some p => p.outMap.map fun x => x.2.toNat
  | none => []
def Take.inPorts (t : Take) (cl : Nat) : List Nat :=
  match t.placeOf cl with
  | some p => p.inMap.map fun x => x.2.toNat
  | none => []

/-- The path of a copy entry's writes: its destination tensor's memory, or that of the landing's package. -/
def State.entPath (s : State) (t : Take) (w : Sched) : Path :=
  if w.dst.kind = 2 then (if w.dst.pkg = s.pkgId then .v else .p) else resPath (t.tensor w.dst.tid).res

/-- The memory of an entry's sequence stamp. -/
def stampPath (t : Take) (w : Sched) : Path := resPath (t.tensor w.stid).res

/-- The entries of a take on a cluster that have accepted a write to a memory that satisfies `p`, and have writes or a stamp
outstanding. -/
def State.writingEnts (s : State) (cl : Nat) (t : Take) (p : Path → Bool) : List Nat :=
  (s.busyEnts cl t.id).filter fun e =>
    match t.sched[e]? with
    | some w =>
      !(tget {} (s.copyOf cl t.id).ents e).waitsLand w && (p (s.entPath t w) || w.sen && p (stampPath t w))
    | none => false

/-- The writes that a DRAIN of a path waits for (DEDUCED, log 15). -/
def State.drainStall (s : State) (cl : Nat) (t : Take) (q : Path) : Stall :=
  .drain q (s.writingEnts cl t (· == q))
    (((t.outPorts cl).filter fun p => s.outPath cl p == some q).map fun p => (p, s.duePos cl p))

/-- The path of a queued MX.READ. -/
def State.readPath (s : State) (cl : Nat) (t : Take) : MxOp → Option Path
  | .read _ (.tensor tid) _ _ => some (resPath (t.tensor tid.toNat).res)
  | .read _ (.stream out _ port _) _ _ => (t.physical cl out port).bind fun p => s.outPath cl p
  | _ => none

/-- Have the entries of a list ended? -/
def State.entsDone (s : State) (cl take : Nat) (l : List Nat) : Bool :=
  l.all fun e => !(tget {} (s.copyOf cl take).ents e).busy

/-- Have the writes of a DRAIN been performed? -/
def State.drained (s : State) (cl k : Nat) (q : Path) (ents : List Nat) (ports : List (Nat × Nat)) : Bool :=
  let c := s.ctx cl k
  match s.take? c.take with
  | none => false
  | some t =>
    s.entsDone cl t.id ents
      && ports.all (fun x => (s.outPort cl x.1).stop || x.2 ≤ (s.outPort cl x.1).nacc - (s.outPort cl x.1).held.length)
      && (s.mxOf cl).queue.all (fun i => i.k != k || s.readPath cl t i.op != some q)
      && c.posted.all (fun x => x.mx.getD .p != q)

/-- End a reporting stall: DATA-ABORT at the instruction, or it is complete. -/
def State.endReport (s : State) (cl k : Nat) (r : Report) (done : State → State) : State :=
  match pickAbort r.covers (s.ctx cl k).aborts with
  | some (a, rest) =>
    (s.updCtx cl k fun c => { c with aborts := rest, stall := none }).takeTrap cl k codeDataAbort (abortInfo a) 0 (s.ctx cl k).pc
  | none => done s

/-- DRAIN (R180). -/
def execDrain (path : Path) (s : State) : Out :=
  match s.myTake with
  | none => .next s
  | some t =>
    let st := s.drainStall s.curCl t path
    match st with
    | .drain q es ps =>
      if s.drained s.curCl s.curK q es ps then
        .next (s.endReport s.curCl s.curK (.path q) fun s => s.endStall s.curCl s.curK)
      else .next (s.onMe fun c => { c with stall := some st })
    | _ => .next s

/-- DRAIN_COMPLETE (R180). -/
def execDrainComplete (cl k : Nat) (s : State) : Out :=
  match (s.ctx cl k).stall with
  | some (.drain q es ps) =>
    if s.drained cl k q es ps then .next (s.endReport cl k (.path q) fun s => s.endStall cl k) else .next s
  | _ => .next s

/-! ### System registers (R26 to R29, R192, R326) -/

/-- ACCMAP0 to ACCMAP3: the banks that a context holds. -/
def State.accMap (s : State) (cl k i : Nat) : Word :=
  (List.range 64).foldl (fun v b => v ||| flag (s.holdsBank cl (s.ctx cl k).take k (64 * i + b)) b) 0

/-- PORTIN and PORTOUT of a logical port; a port the take does not hold reads 0 (R29). -/
def State.portReg (s : State) (cl : Nat) (t : Take) (out : Bool) (p : Nat) : Word :=
  match t.physical cl out (BitVec.ofNat 4 p) with
  | some q => s.portWord cl out q
  | none => 0

/-- SYS.RD of a register number (R26). -/
def State.sysReg (s : State) (cl k : Nat) (t : Take) (n : Nat) : Word :=
  let c := s.ctx cl k
  match n with
  | 0x000 => BitVec.ofNat 64 (4 * cl + k)
  | 0x001 => BitVec.ofNat 64 c.take
  | 0x002 => c.prio.setWidth 64
  | 0x003 => c.aor
  | 0x004 => c.vbin.setWidth 64
  | 0x008 => c.cyc
  | 0x009 => flag c.esat 63 ||| c.ecnt.setWidth 64
  | 0x010 => c.tvec
  | 0x011 => c.epc
  | 0x012 => c.ecause
  | 0x013 => c.einfo
  | 0x014 => c.esave
  | 0x015 => c.einfo2
  | 0x018 => c.fstat.setWidth 64
  | 0x019 => (s.xfsum cl t.id).setWidth 64
  | 0x040 => (s.copyOf cl t.id).stage.setWidth 64
  | 0x041 => c.steps.setWidth 64
  | 0x050 => s.rgstat cl t.id
  | n =>
    if n / 16 = 0x02 then (c.h[n % 16]).bits
    else if n / 4 = 0x0C then s.accMap cl k (n % 4)
    else if n / 16 = 0x06 then s.portReg cl t false (n % 16)
    else if n / 16 = 0x07 then s.portReg cl t true (n % 16)
    else 0

/-- How SYS.WR treats a register number (R26, R27). -/
inductive SysAccess | tvec | epc | esave | fstat | ro | none
  deriving DecidableEq, Repr
def sysAccess (n : Nat) : SysAccess :=
  if n = 0x010 then .tvec else if n = 0x011 then .epc else if n = 0x014 then .esave else if n = 0x018 then .fstat
  else if n ≤ 0x004 || n = 0x008 || n = 0x009 || n = 0x012 || n = 0x013 || n = 0x015 || n = 0x019 then .ro
  else if 0x020 ≤ n && n ≤ 0x033 then .ro
  else if n = 0x040 || n = 0x041 || n = 0x050 then .ro
  else if 0x060 ≤ n && n ≤ 0x07F then .ro
  else .none

/-- SYS.RD (R192). -/
def execSysRd (d : Reg) (r : BitVec 12) (s : State) : Out :=
  match s.myTake with
  | none => .next s
  | some t => .next (s.result 1 d (s.sysReg s.curCl s.curK t r.toNat))

/-- SYS.WR (R192). -/
def execSysWr (r : BitVec 12) (a : Reg) (s : State) : Out :=
  let v := s.reg a
  match sysAccess r.toNat with
  | .tvec => .next (s.onMe fun c => { c with tvec := v &&& ~~~ (3 : Word) }.advance 1)
  | .epc => .next (s.onMe fun c => { c with epc := v }.advance 1)
  | .esave => .next (s.onMe fun c => { c with esave := v }.advance 1)
  | .fstat => .next (s.onMe fun c => { c with fstat := c.fstat &&& ~~~ v.setWidth 3 }.advance 1)
  | .ro => .next (s.trap codeSysregAccess (r.setWidth 64))
  | .none => .next (s.goOn 1)

/-! ### Traps and their return (R70, R165, R193, R328) -/

/-- TRAP (R193): EPC is the next instruction. -/
def execTrap (n : BitVec 14) (s : State) : Out :=
  .next (s.takeTrap s.curCl s.curK codeSoftTrap (n.setWidth 64) 0 (s.me.pc + 4))
/-- BRK (R193). -/
def execBrk (n : BitVec 14) (s : State) : Out :=
  .next (s.takeTrap s.curCl s.curK codeBreak (n.setWidth 64) 0 (s.me.pc + 4))

/-- ILLEGAL-INSTR of the given parcels (R70). -/
def State.illegal (s : State) (p0 p1 : Parcel) : State := s.trap codeIllegalInstr (p0.setWidth 64 ||| at_ p1.toNat 32)

/-- ERET (R193): outside TRAP it raises ILLEGAL-INSTR. -/
def execEret (s : State) : Out :=
  if s.me.kstate = .trap then .next (s.onMe CueCtx.eret) else .next (s.illegal 0x00000038 0)

/-- UNASSIGNED_INSTRUCTION (R70). -/
def execUnassignedInstruction (p0 p1 : Parcel) (s : State) : Out := .next (s.illegal p0 p1)

/-- May a context take a pending trap: between two instructions, an instruction that stalls in RUN completing first, or in a
wait that it abandons (R165)? -/
def CueCtx.takesTraps (c : CueCtx) : Bool :=
  c.stall.isNone && !c.retry && !c.handler && (c.kstate == .run || c.kstate == .wait)

/-- The oldest pending trap is taken. -/
def State.takePend (s : State) (cl k : Nat) : State :=
  let c := s.ctx cl k
  match c.pend with
  | [] => s
  | p :: rest =>
    if c.takesTraps then
      (s.updCtx cl k fun c => { c with pend := rest, wait := none, kstate := .run }).takeTrap cl k p.code p.info p.info2 c.pc
    else s

/-- TRAP_TAKE (R165, R328). -/
def execTrapTake (cl k : Nat) (s : State) : Out :=
  if s.active (s.ctx cl k).take then .next (s.takePend cl k) else .next s

/-- RSTP (R194). -/
def execRstp (n : BitVec 14) (s : State) : Out :=
  let stage := (s.copyOf s.curCl s.me.take).stage
  .next (s.onMe fun c => { c with rmark := some { n := n, pc := c.pc + 4, steps := c.steps, stage := stage } }.advance 1)

/-! ### Scenes (R185 to R187) -/

/-- SCENE.GO (R185): start tokens for the ARMED regions; continuing regions resume in RUN (R187). -/
def execSceneGo (n : BitVec 14) (s : State) : Out :=
  match s.myTake with
  | none => .next s
  | some t =>
    if n.toNat ≠ t.scene then .next (s.trap codeSceneMismatch (n.setWidth 64))
    else
      let go (s : State) (x : Nat × Region) : State :=
        let s := s.updRegion s.curCl x.1 fun g => { g with suspended := false }
        if x.2.rstate = .armed then s.startRegion s.curCl x.1
        else if x.2.suspended && x.2.rstate = .delay then
          s.updRegion s.curCl x.1 fun g => { g with rstate := .run, soffLeft := 0, fresh := true }
        else s
      .next (((s.regionsOf s.curCl t.id).foldl go s).goOn 1)

/-- REGION.HALT (R186). -/
def execRegionHalt (i : BitVec 6) (s : State) : Out :=
  match s.myTake with
  | none => .next s
  | some t =>
    if t.slate.regions.length ≤ i.toNat then .next (s.trap codeRegionAbsent (i.setWidth 64))
    else .next ((s.haltRegions s.curCl t.id fun g => g.rix == i.toNat).goOn 1)

/-- The next scene of a take. -/
def Take.nextScene (t : Take) : Option Scene := t.reel.scenes[t.scene + 1]?

/-- A region continues over the splice: it plays no cycles until SCENE.GO. It passes a restart point, so that its tokens
can be committed (DEDUCED, log 15). -/
def State.suspendRegion (s : State) (cl rid : Nat) : State :=
  let s := if (s.region cl rid).rstate = .run then s.restartPoint cl rid else s
  s.updRegion cl rid fun g => { g with suspended := true }

/-- The final tiles of the take's output ports on a cluster end (R276). -/
def State.closePorts (s : State) (cl : Nat) (t : Take) : State :=
  (t.outPorts cl).foldl (fun s p => if (s.outPort cl p).bound.isSome then s.updOut cl p fun x => { x with closing := true } else s) s

/-- SPLICE (R187): the halts; the rest waits in the stall. -/
def execSplice (s : State) : Out :=
  match s.myTake with
  | none => .next s
  | some t =>
    match t.nextScene with
    | none => .next (s.trap codeSpliceLast 0)
    | some nx =>
      let stop (s : State) (x : Nat × Region) : State :=
        if (nx.slate.continues x.2.rix).isSome then s.suspendRegion s.curCl x.1 else s.askHalt s.curCl x.1
      .next ((((s.regionsOf s.curCl t.id).foldl stop s).closePorts s.curCl t).onMe fun c => { c with stall := some .splice })

/-- Has a cluster's output committed all accepted tokens, or stopped, with no stream command left? -/
def State.portsDone (s : State) (cl : Nat) (t : Take) : Bool :=
  (t.outPorts cl).all (fun p =>
    let x := s.outPort cl p
    (x.bound.isNone || x.stop || (x.held.isEmpty && x.wait.isEmpty)) && x.cmds.isEmpty)
  && (t.inPorts cl).all fun p => (s.inPort cl p).cmds.isEmpty

/-- Are the waits of SPLICE over on a cluster, but for its report of aborts? -/
def State.spliceReady (s : State) (t : Take) (p : Place) : Bool :=
  (s.ctx p.cl p.k).stall == some .splice && (s.ctx p.cl p.k).take == t.id
    && ((s.mxOf p.cl).queue.all fun i => i.k != p.k)
    && (s.busyEnts p.cl t.id).isEmpty && s.portsDone p.cl t && (s.ctx p.cl p.k).posted.isEmpty

/-- End the bindings of a cluster that the next slate does not declare identically; empty their handles. -/
def State.endBindings (s : State) (t : Take) (p : Place) (nx : Scene) : State :=
  let keep (b : Binding) : Bool := nx.slate.pats[b.pix]? == some b.pat
  let gone (out : Bool) (b : Binding) (s : State) : State :=
    let h : Handle := .stream out b.node b.pat.port b.tid
    s.updCtx p.cl b.k fun c => { c with h := c.h.map fun x => if x = h then .empty else x }
  let s := (t.inPorts p.cl).foldl (fun s q =>
    match (s.inPort p.cl q).bound with
    | some b => if keep b then s else gone false b (s.updIn p.cl q InPort.cleared)
    | none => s) s
  (t.outPorts p.cl).foldl (fun s q =>
    match (s.outPort p.cl q).bound with
    | some b =>
      if keep b then s.updOut p.cl q fun x => { x with closing := false, held := [] }
      else gone true b (s.updOut p.cl q OutPort.cleared)
    | none => s) s

/-- The scene switch of one cluster (R187, R188). -/
def State.switchScene (s : State) (t : Take) (nx : Scene) (p : Place) : State :=
  let s := (s.endBindings t p nx).loadRegions t p (t.scene + 1)
  let s := s.renewConsumers p.cl { t with scene := t.scene + 1 }
  let s := s.updCtx p.cl p.k fun c => { c with stall := none, pc := nx.entry, vbin := nx.slate.vbin }
  s.loadSection p.cl p.k t nx

/-- SPLICE_COMPLETE (R187): a cluster that is ready reports its aborts; when every cluster of the take is ready, the scene
switch is made on all of them in one step. -/
def execSpliceComplete (take : Nat) (s : State) : Out :=
  match s.take? take with
  | none => .next s
  | some t =>
    if !t.active then .next s
    else
      match t.places.find? fun p => s.spliceReady t p && !(s.ctx p.cl p.k).aborts.isEmpty with
      | some p => .next (s.endReport p.cl p.k .all id)
      | none =>
        match t.nextScene with
        | some nx =>
          if t.places.all fun p => s.spliceReady t p then
            let n := (t.places.foldl (fun s p => s.switchScene t nx p) s).updTake take fun t => { t with scene := t.scene + 1 }
            .next (t.places.foldl (fun n p => n.raiseFloor s p.cl fun g => g.take == t.id && g.rstate == .armed) n)
          else .next s
        | none => .next s

/-! ### Overlays (R188) -/

def Reel.overlay (r : Reel) (n : Nat) : Option Overlay := r.ovls.find? fun o => o.n == n

/-- A fetch of an overlay starts: its lines are being filled. -/
def State.startFetch (s : State) (cl k : Nat) (o : Overlay) : State :=
  let x := s.ctx cl k
  (s.updCluster cl fun c => c.setLines (x.wbase.toNat + o.woff) o.len .filling).updCtx cl k fun c =>
    { c with ovl := tput .never c.ovl o.n .fetching }

/-- OVL.FETCH (R188). -/
def execOvlFetch (n : BitVec 14) (s : State) : Out :=
  match s.myTake with
  | none => .next s
  | some t =>
    match t.reel.overlay n.toNat with
    | none => .next (s.trap codeOvlAbsent (n.setWidth 64))
    | some o =>
      if tget .never s.me.ovl n.toNat = .fetching then
        .next (s.onMe fun c => { c with ovlAgain := if c.ovlAgain.contains n.toNat then c.ovlAgain else c.ovlAgain ++ [n.toNat] }.advance 1)
      else .next ((s.startFetch s.curCl s.curK o).goOn 1)

/-- The fetch of an overlay ends. Two overlays whose places overlap are accepted, and a line that both hold becomes valid when
the first of their fetches ends (DESIGN CHOICE, log 46). -/
def State.endFetch (s : State) (cl k n : Nat) (ok : Bool) : State :=
  let c := s.ctx cl k
  match s.take? c.take with
  | none => s
  | some t =>
    match t.reel.overlay n with
    | none => s
    | some o =>
      if tget .never c.ovl n ≠ .fetching then s
      else
        let r := s.loadCode cl t o.off (c.wbase.toNat + o.woff) o.len ok
        let s := r.1.updCtx cl k fun c => { c with ovl := tput .never c.ovl n (if r.2 then .ok else .failed) }
        if c.ovlAgain.contains n then
          (s.updCtx cl k fun c => { c with ovlAgain := c.ovlAgain.filter fun m => m != n }).startFetch cl k o
        else s

/-- OVL_FETCH_END (R188, R337): the overlay's code arrives, or the fetch meets an abort. -/
def execOvlFetchEnd (cl k n : Nat) (ok : Bool) (s : State) : Out := .next (s.endFetch cl k n ok)

/-- OVL.WAIT (R188). -/
def execOvlWait (n : BitVec 14) (s : State) : Out :=
  match tget .never s.me.ovl n.toNat with
  | .fetching => .next (s.onMe fun c => c.startWait (.ovlWait n.toNat))
  | .failed => .next (s.trap codeOvlAbort (n.setWidth 64))
  | _ => .next (s.goOn 1)

/-- OVL_WAIT_WAKE (R188): the latest fetch has ended. -/
def execOvlWaitWake (cl k : Nat) (s : State) : Out :=
  let c := s.ctx cl k
  match c.wait with
  | some (.ovlWait n) =>
    match tget .never c.ovl n with
    | .fetching => .next s
    | .failed =>
      .next ((s.updCtx cl k fun c => { c with wait := none, kstate := if c.handler then .trap else .run, handler := false }).takeTrap
        cl k codeOvlAbort (BitVec.ofNat 64 n) 0 c.pc)
    | _ => .next (s.updCtx cl k fun c => c.endWait)
  | _ => .next s

/-! ### EXIT (R195) -/

/-- EXIT (R195): the regions of the take on the cluster halt; the rest waits in the stall. -/
def execExit (a : Reg) (s : State) : Out :=
  match s.myTake with
  | none => .next s
  | some t =>
    .next (((s.haltRegions s.curCl t.id fun _ => true).closePorts s.curCl t).onMe fun c =>
      { c with stall := some (.exit ((s.reg a).setWidth 32) none) })

/-- The banks that a context holds. -/
def State.heldBanks (s : State) (cl take k : Nat) : List Nat := (List.range 256).filter fun b => s.holdsBank cl take k b

/-- LBANKS grows; the spec states no value for a count above 511, which the field cannot hold (DESIGN CHOICE, log 20). -/
def State.noteLeak (s : State) (take n : Nat) : State :=
  if n = 0 then s
  else
    let r := s.freeVal
    r.2.updTake take fun t => { t with fr := { t.fr with
      leak := true
      lbanks := if t.fr.lbanks.toNat + n < 512 then t.fr.lbanks + BitVec.ofNat 9 n else r.1.setWidth 9 } }

/-- The take is ENDING, and its clean-up follows. -/
def State.toEnding (s : State) (take : Nat) : State :=
  (s.updTake take fun t => { t with st := .ending, why := [] }).postDev (.takeEnd take)

/-- Every context of the take is EXITED: it is ENDING (R195, R297). -/
def State.endIfExited (s : State) (take : Nat) : State :=
  match s.take? take with
  | none => s
  | some t => if t.st = .running && t.why.isEmpty && !t.xabort && t.exits.length = t.places.length then s.toEnding take else s

/-- The last part of EXIT: banks, status, EXITED; traps held pending then go to R327. -/
def State.finishExit (s : State) (cl k : Nat) (take : Nat) (status : BitVec 32) : State :=
  let banks := s.heldBanks cl take k
  let s := banks.foldl (fun s b => s.freeBanks cl b 1) s
  let s := s.noteLeak take banks.length
  let pend := (s.ctx cl k).pend
  let s := s.updCtx cl k fun c => { c with stall := none, kstate := .exited, pend := [] }
  let s := s.updTake take fun t => { t with exits := t.exits ++ [(cl, status)] }
  (pend.foldl (fun s p => s.fabricTrap cl take p) s).endIfExited take

/-- EXIT_COMPLETE (R195): the commits and drains have ended. -/
def execExitComplete (cl k : Nat) (s : State) : Out :=
  let c := s.ctx cl k
  match s.take? c.take, c.stall with
  | some t, some (.exit status ents) =>
    if t.active && s.portsDone cl t then
      let l := ents.getD (s.writingEnts cl t fun _ => true)
      if s.entsDone cl t.id l && ((s.mxOf cl).queue.all fun i => i.k != k) && c.posted.isEmpty then
        .next (s.endReport cl k .all fun s => s.finishExit cl k t.id status)
      else .next (s.updCtx cl k fun c => { c with stall := some (.exit status (some l)) })
    else .next s
  | _, _ => .next s

/-! ### TAKE.SPAWN (R191) -/

/-- QDEPTH (R294): the records of a function submitted and not yet dispatched. -/
def State.qdepth (s : State) (fn : Nat) : Nat :=
  (s.fn fn).queue.length + (s.takes.filter fun t => t.fn == fn && (t.st == .queued || t.st == .ready)).length

/-- TAKE.SPAWN (R191): the record is submitted, and the context stalls until it is accepted or refused. A record in a
peer package has no reference of R292 and is refused (DEDUCED, log 19). -/
def execTakeSpawn (d : Reg) (h : HReg) (b : Reg) (s : State) : Out :=
  match s.myTake with
  | none => .next s
  | some t =>
    match s.form t { h := h, nc := 0, c0 := b, c1 := 0, c2 := 0, c3 := 0 } 0 1 with
    | .trap code info => .next (s.trap code info)
    | .ok tid _ off =>
      let go (key : Option Nat) : Out :=
        let s := s.onMe fun c => { c with stall := some (.spawn d) }
        .next (s.updFn t.fn fun f => { f with
          queue := f.queue ++ [{ ref := 0, key := key, spawn := some (s.curCl, s.curK), cap := s.me.prio, full := 64 ≤ s.qdepth t.fn }] })
      match s.translate t (t.tensor tid) off true false false with
      | .fault c => .next (s.outOfLease t.id 0 c s.curCl s.curK tid off)
      | .wait => .next (s.stalls t (t.tensor tid) off).again
      | .abort => .next (s.trap codeDataAbort (at_ tid 0))
      | .ok (.key k) => go (some k)
      | .ok (.peer _ _ _) => go none

/-! ### Abort completions (R265, R331) -/

/-- The abort completion of an element's memory reply: the region replays (R331; log 34). -/
def State.replyAbort (s : State) (cl rid : Nat) : State :=
  if s.active (s.region cl rid).take then s.replay cl rid false else s

/-- The fate of a requester whose request, a write or not, meets an abort completion (R265). -/
def State.abortReq (s : State) (wr : Bool) : Requester → State
  | .cueLoad cl k => s.abortLoad cl k
  | .cueStore cl k tid => s.abortStore cl k tid none
  | .elemReply cl rid => s.replyAbort cl rid
  | .inPort cl p => s.portAbort cl p
  | .outPort cl p => s.outReply cl p .abort
  | .matrix cl tid => s.mxAbort cl tid
  | .mxReadWrite cl k tid path => s.abortStore cl k tid (some path)
  | .copyEntry cl take e => s.copyReply cl take e wr .abort
  | .overlay cl k n => s.endFetch cl k n false

/-- ABORT_COMPLETION (R265): the error is detected (R331), and the requester fares as the table of R265 states. -/
def execAbortCompletion (r : Requester) (s : State) : Out := .next ((s.detectReq r linkInfo).abortReq false r)

end Sys2Proof.Machine
end

