-- ==== Sys2Proof/Machine/Launch.lean ====
section
/-! DEFINITION. The launch record and its checks (R292 to R295): the header, the reel image (R388 to R392), the slates
(R13, R16, R21, R56, R75), the tensor list (R313 to R315), the copy schedule (R235), the trap table (R327), placement and
resources. -/

namespace Sys2Proof.Machine

/-- A refusal (R295): its code, INDEX and DETAIL. -/
structure Refused where
  code : Nat
  index : Nat
  detail : Word := 0
  deriving DecidableEq, Repr

/-- A check: its value, or the refusal it leads to. -/
abbrev Ck (α : Type) := Except Refused α

/-- The value `a`, unless `b` does not hold. -/
def ensure {α : Type} (b : Bool) (r : Refused) (a : Ck α) : Ck α := if b then a else .error r

/-- The results of a check over numbers in turn, or the first refusal. -/
def collect {α : Type} (f : Nat → Ck α) : List Nat → Ck (List α)
  | [] => .ok []
  | i :: t =>
    match f i with
    | .error r => .error r
    | .ok a =>
      match collect f t with
      | .error r => .error r
      | .ok l => .ok (a :: l)

def refused {α : Type} (code index : Nat) : Ck α := .error { code := code, index := index }

/-! ### RECORD (R292, R293, R327) -/

/-- The header's fields. -/
def parseHeader (w : Nat → Word) : Launch :=
  { prio := (w 0).extractLsb' 50 2, debug := bit (w 0) 49, mxeng := bit (w 0) 48, wsz := (w 0).extractLsb' 40 4
    entry := (w 0).extractLsb' 24 16, ncl := (w 0).extractLsb' 16 8, vec := (w 0).extractLsb' 0 16
    reel := w 1, tlist := w 2, csched := w 3, plist := w 4, ttab := w 5, cmpl := w 6
    ntens := bits (w 7) 60 48, nsched := bits (w 7) 40 32
    args := (List.range 8).map fun i => w (8 + i), hbind := (List.range 4).map fun i => w (16 + i) }

def Launch.wsize (h : Launch) : Nat := 4096 * 2 ^ h.wsz.toNat
def Launch.clusters (h : Launch) : Nat := h.ncl.toNat + 1

/-- Is a reference good: absent when that is allowed, or one that names memory (R292)? -/
def State.refOk (s : State) (f : Nat) (r : Word) (mayBeAbsent : Bool) : Bool :=
  if r = 0 then mayBeAbsent else (s.refKey f r).isSome

def headerOk (w : Nat → Word) : Bool :=
  bits (w 0) 63 56 == 1 && bits (w 0) 55 52 == 0 && bits (w 0) 47 44 == 0 && bits (w 0) 43 40 ≤ 4
    && bits (w 0) 39 24 < 4096 * 2 ^ bits (w 0) 43 40 && bits (w 0) 25 24 == 0
    && bits (w 7) 63 61 == 0 && bits (w 7) 47 41 == 0 && bits (w 7) 31 0 == 0
    && 1 ≤ bits (w 7) 60 48 && bits (w 7) 60 48 ≤ 4096 && bits (w 7) 40 32 ≤ 256
    && ((List.range 16).all fun h => bits (w (16 + h / 4)) (16 * (h % 4) + 14) (16 * (h % 4) + 12) == 0)
    && (List.range 12).all fun i => w (20 + i) == 0

/-- R327: the trap table's rules. -/
def trapTableOk (b : List Byte) : Bool :=
  b.zipIdx.all fun (x : Byte × Nat) => x.1.toNat ≤ 3 && (x.1 == 0 || !(x.2 == 0 || x.2 == 21 || 41 ≤ x.2))

/-- R293: an entry of the placement list. -/
def placeWordOk (v : Nat) : Bool := v / 256 % 128 == 0 && (v / 32768 % 2 == 1 || v % 256 == 0)

/-- The words of an object that a reference of a function names. -/
def State.refWord (s : State) (f : Nat) (r : Word) (off : Nat) : Word := BitVec.ofNat 64 (ofBytes (s.refPeek f r off 8))

/-- The header and the parts that RECORD covers: fixed clusters and trap table. The references of the descriptors are checked
with the list. -/
def State.checkRecord (s : State) (f : Nat) (w : Nat → Word) : Ck (Launch × List (Option (BitVec 8)) × List (BitVec 2)) :=
  let h := parseHeader w
  let bad : Refused := { code := 1, index := 0 }
  let pl := (List.range h.clusters).map fun i => ofBytes (s.refPeek f h.plist (2 * i) 2)
  let tt : List Byte := if h.ttab = 0 then List.replicate 64 0 else s.refPeek f h.ttab 0 64
  ensure (headerOk w && s.refOk f h.reel false && s.refOk f h.tlist false && s.refOk f h.csched (h.nsched == 0)
      && s.refOk f h.plist false && s.refOk f h.ttab true && s.refOk f h.cmpl false) bad
    (ensure (pl.all placeWordOk && trapTableOk tt) bad
      (.ok (h, pl.map (fun v => if v / 32768 = 1 then some (BitVec.ofNat 8 v) else none), tt.map fun b => b.setWidth 2)))

/-! ### CODE (R388 to R392) -/

/-- A fill source code (R391). A link whose partner lies outside the page set is accepted: R56 and R391 name no refusal of it
(DESIGN CHOICE, log 38). -/
def fillOk (v dep : Nat) : Bool := if dep = 0 then v == 0 else 256 ≤ v || v ≤ 6

/-- An element record at an offset (R391), and the offset after it. R391 names no range for X and Y; that a place outside the
page set is refused, as R74 does in the assembler, is DESIGN CHOICE, log 38. -/
def parseElem (rd : Nat → Word) (ps : PageSet) (o : Nat) : Option (ElemRec × Nat) :=
  let w := rd o
  let linit (k : Nat) : Bool := bit w (37 + k)
  let nth (k : Nat) : Nat := ((List.range k).filter linit).length
  let loc (k : Nat) : Word := if linit k then rd (o + 8 + 8 * nth k) else 0
  let o1 := o + 8 + 8 * nth 4
  let nent := bits w 46 41
  let ok := bits w 63 47 == 0 && nent ≤ 32 && fillOk (bits w 26 18) (bits w 12 8) && fillOk (bits w 35 27) (bits w 17 13)
    && bits w 3 0 < 4 * ps.w && bits w 7 4 < 4 * ps.h
  if ok then
    some ({ x := bits w 3 0, y := bits w 7 4, adep := w.extractLsb' 8 5, bdep := w.extractLsb' 13 5
            afill := w.extractLsb' 18 9, bfill := w.extractLsb' 27 9, live := bit w 36
            l0 := loc 0, l1 := loc 1, l2 := loc 2, l3 := loc 3
            ents := (List.range nent).map fun i => rd (o1 + 8 * i) }, o1 + 8 * nent)
  else none

def parseElems (rd : Nat → Word) (ps : PageSet) (o : Nat) : Nat → Option (List ElemRec × Nat)
  | 0 => some ([], o)
  | n + 1 =>
    match parseElem rd ps o with
    | none => none
    | some (e, o1) =>
      match parseElems rd ps o1 n with
      | none => none
      | some (l, o2) => some (e :: l, o2)

/-- Restart stamp `i` of a region record (R390). -/
def stampAt (rd : Nat → Word) (o i : Nat) : Nat := bits (rd (o + 8 + 8 * (i / 4))) (16 * (i % 4) + 15) (16 * (i % 4))

/-- A region record at an offset (R390), and the offset after it. R390 and R392 name no limit for a restart stamp of II or more,
nor for (copies − 1) × SOFFK above 4,095; that both are refused, as R74 does in the assembler, is DESIGN CHOICE, log 38. -/
def parseRegion (rd : Nat → Word) (psets : List PageSet) (o : Nat) : Option (RegionRec × Nat) :=
  let w := rd o
  match psets[bits w 3 0]? with
  | none => none
  | some ps =>
    if bits w 63 51 ≠ 0 then none
    else if bit w 50 then
      if bits w 43 8 = 0 && bits w 5 4 = 0 then
        some ({ cont := true, prev := bits w 49 44, soffk := 0, restarts := [], copies := 1, ii := 1
                ctx := w.extractLsb' 6 2, psi := bits w 3 0, duty := 0, elems := [] }, o + 8)
      else none
    else
      let nrs := bits w 31 28
      let ii := bits w 20 8
      let n := bits w 26 22 + 1
      let duty := rd (o + 24)
      let ok := bits w 49 44 == 0 && nrs ≤ 8 && !bit w 27 && !bit w 21 && bits w 5 4 == 0 && 1 ≤ ii && ii ≤ 4096
        && (n - 1) * bits w 43 32 ≤ 4095
        && (List.range 8).all fun i => if i < nrs then stampAt rd o i < ii else stampAt rd o i == 0
      if ok then
        match parseElems rd ps (o + 32) (bits duty 63 48) with
        | none => none
        | some (l, o2) =>
          some ({ cont := false, prev := 0, soffk := bits w 43 32
                  restarts := (List.range nrs).map fun i => BitVec.ofNat 12 (stampAt rd o i), copies := n, ii := ii
                  ctx := w.extractLsb' 6 2, psi := bits w 3 0, duty := duty.setWidth 48, elems := l }, o2)
      else none

def parseRegions (rd : Nat → Word) (psets : List PageSet) (o : Nat) : Nat → Option (List RegionRec × Nat)
  | 0 => some ([], o)
  | n + 1 =>
    match parseRegion rd psets o with
    | none => none
    | some (r, o1) =>
      match parseRegions rd psets o1 n with
      | none => none
      | some (l, o2) => some (r :: l, o2)

/-- A slate record (R389) of `len` bytes. -/
def parseSlate (rd : Nat → Word) (ncl o len : Nat) : Option Slate :=
  let w := rd o
  let npat := bits w 63 56
  let nps := bits w 55 48
  let nrg := bits w 47 40
  let nz := bits w 39 32
  let oz := o + 8 + 16 * npat
  let op := oz + 8 * nz
  let psw (i : Nat) : Word := rd (op + 8 * i)
  let psets := (List.range nps).map fun i => ({ w := bits (psw i) 1 0 + 1, h := bits (psw i) 3 2 + 1, lc := bits (psw i) 11 4 } : PageSet)
  let ok := npat ≤ 64 && nps ≤ 16 && nrg ≤ 64 && nz ≤ 8 && bits w 31 2 == 0
    && ((List.range nz).all fun i => bits (rd (oz + 8 * i)) 63 3 == 0)
    && (List.range nps).all fun i => bits (psw i) 63 12 == 0 && bits (psw i) 11 4 ≤ ncl
  if ok then
    match parseRegions rd psets (op + 8 * nps) nrg with
    | some (l, o2) =>
      if o2 = o + len then
        some { vbin := w.extractLsb' 0 2
               pats := (List.range npat).map fun i => ⟨rd (o + 8 + 16 * i), rd (o + 16 + 16 * i)⟩
               zones := (List.range nz).map fun i => (rd (oz + 8 * i)).extractLsb' 0 3
               psets := psets, regions := l }
      else none
    | none => none
  else none

/-- Does every CONT record of a scene match its PREV record (R392)? -/
def contOk (prev : Option Slate) (sl : Slate) : Bool :=
  sl.regions.all fun r =>
    !r.cont ||
      match prev with
      | none => false
      | some p =>
        match p.regions[r.prev]?, sl.psets[r.psi]? with
        | some q, some ps => q.ctx == r.ctx && p.psets[q.psi]? == some ps
        | _, _ => false

/-- Scene `n` of an image (R388). -/
def parseScene (rd : Nat → Word) (ncl size tab n : Nat) : Ck Scene :=
  let o := tab + 32 * n
  let w1 := rd (o + 8)
  let slo := (rd o).toNat
  let cue := (rd (o + 16)).toNat
  let len := bits (rd (o + 24)) 31 0
  let ok := slo % 8 == 0 && bits w1 63 48 == 0 && slo + bits w1 31 0 ≤ size && cue % 8 == 0 && cue + len ≤ size
    && bits (rd (o + 24)) 63 32 == 0 && len % 4 == 0 && len ≤ 65536 && bits w1 33 32 == 0
  if ok then
    match parseSlate rd ncl slo (bits w1 31 0) with
    | some sl => .ok { slate := sl, entry := w1.extractLsb' 32 16, cueOff := cue, cueLen := len }
    | none => refused 2 n
  else refused 2 n

/-- The scenes from number `n` on, each checked against the one before. -/
def parseScenes (rd : Nat → Word) (ncl size tab : Nat) (prev : Option Slate) (n : Nat) : Nat → Ck (List Scene)
  | 0 => .ok []
  | k + 1 =>
    match parseScene rd ncl size tab n with
    | .error r => .error r
    | .ok sc =>
      if contOk prev sc.slate then
        match parseScenes rd ncl size tab (some sc.slate) (n + 1) k with
        | .error r => .error r
        | .ok l => .ok (sc :: l)
      else refused 2 n

/-- Overlay table entry `i` (R388); an overlay must not run past WSIZE (R188). One whose WOFF lies below the end of a scene's .cue
section, which R79 forbids nimx-ld and no rule of the load refuses, is accepted (DESIGN CHOICE, log 46). -/
def parseOverlay (rd : Nat → Word) (wsize size tab i : Nat) : Option Overlay :=
  let o := tab + 16 * i
  let w1 := rd (o + 8)
  let v : Overlay := { n := bits w1 61 48, woff := bits w1 47 32, off := (rd o).toNat, len := bits w1 31 0 }
  if v.off % 8 = 0 && bits w1 63 62 = 0 && v.woff % 64 = 0 && v.len % 4 = 0 && v.off + v.len ≤ size && v.woff + v.len ≤ wsize
  then some v else none

/-- Overlay numbers ascend (R388). -/
def ascending : List Overlay → Bool
  | a :: b :: t => a.n < b.n && ascending (b :: t)
  | _ => true

/-- The reel image (R388, R392). No rule limits SIZE to whole words: any SIZE is accepted (DESIGN CHOICE, log 38). -/
def parseReel (rd : Nat → Word) (ref : Word) (wsize ncl : Nat) : Ck Reel :=
  let size := bits (rd 0) 47 0
  let nsc := bits (rd 8) 63 48
  let nov := bits (rd 8) 47 32
  let sct := (rd 24).toNat
  let ovt := (rd 32).toNat
  let tdt := (rd 40).toNat
  let ntd := bits (rd 48) 12 0
  let ok := bits (rd 0) 63 56 == 1 && bits (rd 0) 55 48 == 1 && 64 ≤ size && 1 ≤ nsc && nsc ≤ 16384 && nov ≤ 16384
    && bits (rd 8) 31 0 == 0 && bits (rd 16) 63 48 == 0 && sct % 8 == 0 && sct + 32 * nsc ≤ size
    && (if nov = 0 then ovt == 0 else ovt % 8 == 0 && ovt + 16 * nov ≤ size)
    && bits (rd 48) 63 13 == 0 && ntd ≤ 4096 && (if tdt = 0 then ntd == 0 else tdt % 8 == 0 && tdt + 64 * ntd ≤ size)
    && rd 56 == 0
  if ok then
    match parseScenes rd ncl size sct none 0 nsc with
    | .error r => .error r
    | .ok scs =>
      match (List.range nov).mapM (parseOverlay rd wsize size ovt) with
      | some ovls => if ascending ovls then .ok { ref := ref, savesz := bits (rd 16) 47 0, scenes := scs, ovls := ovls } else refused 2 0
      | none => refused 2 0
  else refused 2 0

/-! ### CONFIG (R13, R16, R21, R56, R75) -/

/-- DETAIL of a configuration-check error (R296). -/
def configDetail (scene page el ctx e1 e2 : Nat) : Word :=
  at_ (scene % 16384) 50 ||| at_ (page % 16) 46 ||| at_ (el % 16) 42 ||| at_ (ctx % 4) 40 ||| at_ (e1 % 32) 35 ||| at_ (e2 % 32) 30

/-- R75: a pattern's codes, reserved fields and tensor. -/
def patternOk (decl : Nat → Bool) (p : Pattern) : Bool :=
  p.node != 3 && bits p.w0 51 44 == 0 && (!p.dir || p.lanes == 1) && decl p.tid.toNat

/-- R56: may an entry be loaded into an element of a page set, in a region of interval II? -/
def entryLoads (ps : PageSet) (el ii : Nat) (w : Word) : Bool :=
  if w.extractLsb' 44 6 = 0 then w == 0
  else
    match decodeEntry w with
    | none => false
    | some _ =>
      let e := entryOf w
      let g : Region := { w := ps.w, h := ps.h }
      let inside (i : Nat) : Bool := (g.partner el i).isSome
      e.stamp.toNat < ii
        && ((List.range 6).all fun i => !drives e.route i || inside i)
        && ([e.sa, e.sb].all fun c => !(8 ≤ c.toNat && c.toNat ≤ 13) || inside (c.toNat - 8))

/-- The first entry that another entry before it shares a stamp with (R16), as the pair of their numbers. -/
def dupStamp (l : List Word) : Option (Nat × Nat) :=
  let idx := List.range l.length
  let live (i : Nat) : Bool := l.getD i 0 != 0
  let st (i : Nat) : BitVec 12 := (l.getD i 0).extractLsb' 52 12
  idx.findSome? fun j => (idx.find? fun i => i < j && live i && live j && st i == st j).map fun i => (i, j)

/-- The first configuration error of a region's elements, as DETAIL. -/
def elemsConfig (scene : Nat) (ps : PageSet) (r : RegionRec) : Option Word :=
  r.elems.findSome? fun e =>
    let page := e.y / 4 * ps.w + e.x / 4
    let el := e.y % 4 * 4 + e.x % 4
    match (List.range e.ents.length).find? fun i => !entryLoads ps (elAt e.x e.y) r.ii (e.ents.getD i 0) with
    | some i => some (configDetail scene page el r.ctx.toNat i 0)
    | none =>
      match dupStamp e.ents with
      | some (i, j) => some (configDetail scene page el r.ctx.toNat i j)
      | none => none

/-- R21: the duty code of every slot is C0 to C3 or E. -/
def dutyOk (r : RegionRec) : Bool := (List.range 16).all fun i => dutyCode r.duty i ≤ 4

/-- The records that a slate's regions stand for, a continuing one being that which first declared it. -/
def Reel.records (r : Reel) (n : Nat) (sl : Slate) : List RegionRec :=
  (List.range sl.regions.length).filterMap fun i =>
    match r.record n i, sl.regions[i]? with
    | some x, some y => some { x.2 with psi := y.psi }
    | _, _ => none

/-- R13, R21 for the regions that share a page set: one per context, identical patterns, at most 32 buffer entries per
element. The first error, as DETAIL. -/
def sharedConfig (scene : Nat) (psets : List PageSet) (l : List RegionRec) : Option Word :=
  (List.range psets.length).findSome? fun p =>
    let rs := l.filter fun r => r.psi == p
    let ps := psets.getD p { w := 1, h := 1, lc := 0 }
    let clash := rs.zipIdx.find? fun (x : RegionRec × Nat) =>
      (rs.take x.2).any fun y => y.ctx == x.1.ctx || y.duty != x.1.duty
    match clash with
    | some x => some (configDetail scene 0 0 x.1.ctx.toNat 0 0)
    | none =>
      let depth (x y : Nat) : Nat :=
        (rs.flatMap fun r => r.elems).foldl (fun n e => if e.x = x && e.y = y then n + e.adep.toNat + e.bdep.toNat else n) 0
      let cells := (List.range (16 * ps.w * ps.h)).map fun i => (i % (4 * ps.w), i / (4 * ps.w))
      (cells.find? fun c => 32 < depth c.1 c.2).map fun c =>
        configDetail scene (c.2 / 4 * ps.w + c.1 / 4) (c.2 % 4 * 4 + c.1 % 4) 0 0 0

/-- The first configuration error of a scene's slate, as DETAIL. -/
def slateConfig (decl : Nat → Bool) (r : Reel) (n : Nat) (sl : Slate) : Option Word :=
  if !(sl.pats.all (patternOk decl)) then some (configDetail n 0 0 0 0 0)
  else
    match sl.regions.find? fun x => !x.cont && !dutyOk x with
    | some x => some (configDetail n 0 0 x.ctx.toNat 0 0)
    | none =>
      match sl.regions.findSome? fun x => elemsConfig n (sl.psets.getD x.psi { w := 1, h := 1, lc := 0 }) x with
      | some d => some d
      | none => sharedConfig n sl.psets (r.records n sl)

def checkConfig (decl : Nat → Bool) (r : Reel) : Ck Unit :=
  match r.scenes.zipIdx.findSome? fun (x : Scene × Nat) => (slateConfig decl r x.2 x.1.slate).map fun d => (x.2, d) with
  | some (n, d) => .error { code := 3, index := n, detail := d }
  | none => .ok ()

/-! ### TENSOR (R269 to R271, R313 to R315) -/

/-- Tensor descriptor `i` of a list. -/
def State.readTensor (s : State) (f : Nat) (ref : Word) (i : Nat) : Nat × Tensor :=
  let w (j : Nat) : Word := s.refWord f ref (64 * i + 8 * j)
  (bits (w 0) 11 0, { w0 := w 0, w1 := w 1, w2 := w 2, low := w 3, high := w 4, w5 := w 5, w6 := w 6, rloc := w 7 })

/-- R269, R270: the layout and its parameter. -/
def Tensor.layoutOk (t : Tensor) : Bool :=
  match t.layout with
  | 0 => t.lpar == 0
  | 1 => t.lpar == 0 && t.elemFmt.whole
  | 2 => 3 ≤ t.lpar && t.lpar ≤ 7 && t.elemFmt.whole
  | 3 => 1 ≤ t.lpar && t.lpar ≤ 4 && t.elemFmt.whole
  | _ => false

/-- R271, R315: the bound pair. -/
def Tensor.boundOk (t : Tensor) : Bool :=
  let f := t.elemFmt
  if t.act = 0 then t.low == 0 && t.high == 0 && !t.narok
  else !(decodeVal f (narrow f t.low)).isNan && !(decodeVal f (narrow f t.high)).isNan
    && !ltCode f (narrow f t.high) (narrow f t.low)

/-- The peer target of a descriptor (R314): package, function tag, first plot of the range in its pool. -/
def Tensor.peerPkg (t : Tensor) : Nat := bits t.rloc 63 52
def Tensor.peerFn (t : Tensor) : Nat := bits t.rloc 51 46
def Tensor.peerOff (t : Tensor) : Nat := bits t.rloc 45 16

/-- R315: does the stage manager accept a descriptor? -/
def State.tensorOk (s : State) (ncl : Nat) (t : Tensor) : Bool :=
  bits t.w0 63 32 == 0 && bits t.w0 28 27 == 0 && !bit t.w0 19 && bits t.w5 48 0 == 0
    && (if t.fmt = 15 then t.sub.toNat ≤ 5 else t.sub == 0) && t.kind != 3
    && ((List.range 4).all fun i => t.ext i != 0) && t.layoutOk && t.boundOk
    && t.lcount != 0 && t.lfirst + t.lcount ≤ t.np
    && (if t.res = 0 then t.hcl ≤ ncl else t.hcl == 0)
    && match t.res with
      | 0 | 1 => true
      | 2 => bits t.rloc 15 0 == 0 && bits t.rloc 55 16 + t.lcount ≤ 2 ^ 40
      | _ => bits t.rloc 15 0 == 0 && t.peerPkg != s.pkgId.toNat

/-- The references of the descriptors: RLOC of a vault or HBM tensor (R295 code 1, R314). -/
def State.checkRlocs (s : State) (f : Nat) (l : List (Nat × Tensor)) : Ck Unit :=
  if l.all fun x => 2 ≤ x.2.res || s.refOk f x.2.rloc true then .ok () else refused 1 0

/-- The list of descriptors, each checked in turn, with no TID twice. -/
def State.checkTensors (s : State) (h : Launch) (l : List (Nat × Tensor)) : Ck Unit :=
  match l.zipIdx.find? fun (x : (Nat × Tensor) × Nat) =>
      !s.tensorOk h.ncl.toNat x.1.2 || (l.take x.2).any fun y => y.1 == x.1.1 with
  | some x => refused 4 x.1.1
  | none => .ok ()

/-- HBIND (R292): the tensor of handle `i`. -/
def Launch.bound (h : Launch) (i : Nat) : Option (BitVec 12) :=
  let w := h.hbind.getD (i / 4) 0
  if bit w (16 * (i % 4) + 15) then some (BitVec.ofNat 12 (bits w (16 * (i % 4) + 11) (16 * (i % 4)))) else none

def checkHandles (h : Launch) (decl : Nat → Bool) : Ck Unit :=
  match (List.range 16).findSome? fun i => (h.bound i).bind fun t => if decl t.toNat then none else some t with
  | some t => refused 4 t.toNat
  | none => .ok ()

/-! ### SCHED (R232 to R235) -/

def State.readSched (s : State) (f : Nat) (ref : Word) (i : Nat) : Sched :=
  let w (j : Nat) : Word := s.refWord f ref (64 * i + 8 * j)
  { w0 := w 0, w1 := w 1, s0 := w 2, s1 := w 3, s2 := w 4, d0 := w 5, d1 := w 6, d2 := w 7 }

/-- R233: the reserved fields of a pattern, and its kind at its end of the entry. -/
def CPat.ok (p : CPat) (isSrc : Bool) : Bool :=
  match p.kind with
  | 0 => bits p.p0 47 0 == 0
  | 1 => bits p.p0 35 0 == 0
  | 2 => !isSrc && bits p.p0 36 0 == 0 && bits p.p1 63 32 == 0 && p.p2 == 0
  | 3 => isSrc && bits p.p0 59 51 == 0 && bits p.p0 47 36 == 0 && bits p.p0 34 0 == 0 && bits p.p1 63 32 == 0 && p.p2 == 0
  | _ => false

/-- Does a tensor pattern name declared tensors, a GATHER index one of I32 (R234)? R235 lists no refusal of another format: that
the record is refused is DESIGN CHOICE, log 52. -/
def CPat.declared (p : CPat) (t : Take) (decl : Nat → Bool) : Bool :=
  !p.isTensor || (decl p.tid && (p.kind == 0 || (decl p.xtid && (t.tensor p.xtid).elemFmt == .int true 32)))

/-- R235: may an entry be launched? -/
def schedOk (t : Take) (h : Launch) (decl : Nat → Bool) (w : Sched) : Bool :=
  w.src.ok true && w.dst.ok false && bits w.w0 50 48 == 0
    && w.src.declared t decl && w.dst.declared t decl && decl w.stid && (!w.sen || w.stoff % 8 == 0) && w.tcl ≤ h.ncl.toNat
    && (w.opr == 15 || (flowAllowed t (flowOf t w w.opr 1) && 8 * w.bytes % (flowOf t w w.opr 1).win == 0))

def checkSched (t : Take) (h : Launch) (decl : Nat → Bool) : Ck Unit :=
  match (List.range t.sched.length).find? fun i => !(t.sched[i]?.any (schedOk t h decl)) with
  | some i => refused 5 i
  | none => .ok ()

/-! ### PLACE, RESOURCE, QUEUE-FULL (R295) -/

def checkPlace (f : Fn) (fix : List (Option (BitVec 8))) : Ck Unit :=
  match fix.zipIdx.find? fun (x : Option (BitVec 8) × Nat) =>
      match x.1 with
      | some c => !maskBit f.clset c.toNat || (fix.take x.2).contains x.1
      | none => false with
  | some x => refused 6 x.2
  | none => .ok ()

def leaseTotal (l : List (Nat × Tensor)) : Nat := l.foldl (fun n x => n + x.2.lcount) 0

/-- The checks of R295 over a submitted record whose header words are given, in the order of its table. The accepted take
has identifier 0 here. Which code some malformed fields get is DEDUCED, log 14. -/
def State.checkAll (s : State) (fn : Nat) (w : Nat → Word) (cap : BitVec 2) (full : Bool) : Ck Take :=
  match s.checkRecord fn w with
  | .error r => .error r
  | .ok (h, fix, traps) =>
    let ts := (List.range h.ntens).map (s.readTensor fn h.tlist)
    match s.checkRlocs fn ts with
    | .error r => .error r
    | .ok _ =>
    match parseReel (fun o => s.refWord fn h.reel o) h.reel h.wsize h.ncl.toNat with
    | .error r => .error r
    | .ok reel =>
      let decl (tid : Nat) : Bool := ts.any fun x => x.1 == tid
      let t : Take :=
        { id := 0, fn := fn, hdr := h, tensors := ts, sched := (List.range h.nsched).map (s.readSched fn h.csched)
          traps := traps, fix := fix, reel := reel, prio := if cap < h.prio then cap else h.prio }
      match checkConfig decl reel, s.checkTensors h ts, checkHandles h decl, checkSched t h decl, checkPlace (s.fn fn) fix with
      | .error r, _, _, _, _ => .error r
      | _, .error r, _, _, _ => .error r
      | _, _, .error r, _, _ => .error r
      | _, _, _, .error r, _ => .error r
      | _, _, _, _, .error r => .error r
      | .ok _, .ok _, .ok _, .ok _, .ok _ =>
        if (s.fn fn).lslim.toNat < leaseTotal ts || popcount (s.fn fn).clset < h.clusters then refused 7 0
        else if full then refused 8 0
        else .ok t

/-! ### Acceptance (R295, R296) -/

/-- Write a completion record and signal VEC (R296); not through the function's reset (R340). -/
def State.complete (s : State) (fn : Nat) (cmpl : Word) (vec : Nat) (w0 w1 w2 w3 : Word) : State :=
  match (if cmpl = 0 || s.resets fn then none else s.refKey fn cmpl) with
  | some key => (s.writeWords key [w0, w1, w2, w3]).msix fn vec
  | none => s

def completion (st code index take : Nat) : Word := at_ st 60 ||| at_ code 52 ||| at_ (index % 16384) 32 ||| at_ (take % 2 ^ 32) 0

/-- A take identifier: not 0, and not that of a take alive or of a kept fault record (R296, R338); a free choice, log 7. -/
def State.newId (s : State) : Nat × State :=
  let r := s.freeVal
  let used (n : Nat) : Bool := n == 0 || (s.takes.any fun t => t.id == n) || s.frecs.any fun f => f.take == n
  let n := (List.range (s.takes.length + s.frecs.length + 2)).map fun i => (r.1.toNat + i) % 2 ^ 32
  ((n.find? fun m => !used m).getD 1, r.2)

/-- The header words of a submitted record. -/
def State.recordWord (s : State) (fn : Nat) (x : Submit) (i : Nat) : Word :=
  match x.key with
  | some k => s.readWord (k + 8 * i)
  | none => s.refWord fn x.ref (8 * i)

/-- The pieces of memory that the header of a submitted record is in. -/
def State.recordPieces (s : State) (fn : Nat) (x : Submit) : List (Nat × Nat) :=
  (match x.key with
    | some k => [(k, 256)]
    | none => s.refRuns fn x.ref 0 256).flatMap fun (y : Nat × Nat) => piecesOf y.1 y.2

/-- The pieces of an object that a reference names. -/
def State.refPieces (s : State) (fn : Nat) (r : Word) (off n : Nat) : List (Nat × Nat) :=
  if r = 0 || (s.refKey fn r).isNone then [] else (s.refRuns fn r off n).flatMap fun y => piecesOf y.1 y.2

/-- The pieces that a good header names: placement list, trap table, tensor list, copy schedule, and the reel image's header. -/
def State.partPieces (s : State) (fn : Nat) (w : Nat → Word) : List (Nat × Nat) :=
  let h := parseHeader w
  if headerOk w then
    s.refPieces fn h.plist 0 (2 * h.clusters) ++ s.refPieces fn h.ttab 0 64 ++ s.refPieces fn h.tlist 0 (64 * h.ntens)
      ++ s.refPieces fn h.csched 0 (64 * h.nsched) ++ s.refPieces fn h.reel 0 64
  else []

/-- The pieces of the tables of a reel image (R388), and then of its slate records. -/
def State.tablePieces (s : State) (fn : Nat) (r : Word) : List (Nat × Nat) :=
  let rd := s.refWord fn r
  let part (off n : Nat) : List (Nat × Nat) := if off + n ≤ bits (rd 0) 47 0 then s.refPieces fn r off n else []
  part (rd 24).toNat (32 * bits (rd 8) 63 48) ++ part (rd 32).toNat (16 * bits (rd 8) 47 32)
def State.slatePieces (s : State) (fn : Nat) (r : Word) : List (Nat × Nat) :=
  let rd := s.refWord fn r
  (List.range (bits (rd 8) 63 48)).flatMap fun n =>
    let o := (rd 24).toNat + 32 * n
    if (rd o).toNat + bits (rd (o + 8)) 31 0 ≤ bits (rd 0) 47 0 then s.refPieces fn r (rd o).toNat (bits (rd (o + 8)) 31 0) else []

/-- The stage manager reads a submitted record and what it names, each part once (R265, R295): the machine then, and what the
reads give. That a part is read whole, and nothing after a header that is refused, is DEDUCED, log 14. -/
def State.readRecord (s : State) (fn : Nat) (x : Submit) : State × State :=
  let a := s.seen 0 0 s (s.recordPieces fn x)
  let w := a.2.recordWord fn x
  let b := a.1.seen 0 0 a.2 (a.2.partPieces fn w)
  if headerOk w && b.2.refOk fn (parseHeader w).reel false then
    let c := b.1.seen 0 0 b.2 (b.2.tablePieces fn (parseHeader w).reel)
    c.1.seen 0 0 c.2 (c.2.slatePieces fn (parseHeader w).reel)
  else b

/-- Does a submission name memory? -/
def State.submitOk (s : State) (fn : Nat) (x : Submit) : Bool := x.key.isSome || (x.ref != 0 && (s.refKey fn x.ref).isSome)

/-- The stage manager accepts or refuses one submitted record (R295, R296). The result is the new take's identifier, or 0. -/
def State.submit (s : State) (fn : Nat) (x : Submit) : State × Nat :=
  if !s.submitOk fn x then (s, 0)
  else
    let r := s.readRecord fn x
    let w := r.2.recordWord fn x
    let h := parseHeader w
    let s := r.1
    match r.2.checkAll fn w x.cap x.full with
    | .error r => (s.complete fn h.cmpl h.vec.toNat (completion 2 r.code r.index 0) 0 r.detail 0, 0)
    | .ok t =>
      let id := s.newId
      let s := { id.2 with takes := id.2.takes ++ [{ t with id := id.1 }] }
      (s.complete fn h.cmpl h.vec.toNat (completion 1 0 0 id.1) 0 0 0, id.1)

/-- The link of a function and the die whose stage manager holds its controller (R360, R364). -/
def linkDie (fn : Nat) : Nat := if fn / 32 = 1 then 2 else 0

/-- RECORD_ACCEPT (R295): the oldest record that a host write of the function submitted. -/
def execRecordAccept (fn : Nat) (s : State) : Out :=
  let d := (s.die (linkDie fn)).st
  match (s.fn fn).queue with
  | x :: rest =>
    if x.spawn.isNone && (d = .reduced || d = .full) then
      .next ((s.updFn fn fun f => { f with queue := rest }).submit fn x).1
    else .next s
  | [] => .next s

/-- SPAWN_REPLY (R191, R163): the record is accepted or refused, and S[d] written, in one step. -/
def execSpawnReply (cl k : Nat) (s : State) : Out :=
  match s.take? (s.ctx cl k).take, (s.ctx cl k).stall with
  | some t, some (.spawn d) =>
    match (s.fn t.fn).queue with
    | x :: rest =>
      if x.spawn = some (cl, k) then
        let r := (s.updFn t.fn fun f => { f with queue := rest }).submit t.fn x
        .next (r.1.updCtx cl k fun c => ({ c with stall := none }.setReg d (BitVec.ofNat 64 r.2)).advance 1)
      else .next s
    | [] => .next s
  | _, _ => .next s

end Sys2Proof.Machine
end

