-- ==== Sys2Proof/Machine/Alloc.lean ====
section
/-! DEFINITION. The allocator and the leases: frames of vaults and pools (R317, R320, R362), leases and recalls (R320 to
R324), placement (R298 to R301), the window (R164), and the voltage a pair is set to (R146, R375). -/

namespace Sys2Proof.Machine

/-! ### Frames in use (R317, R320, R338, R362) -/

def frameBytes : Nat := 65536

/-- The memory key of a frame of HBM, its stack in bits [22:20] (R316). -/
def hbmFrameKey (fr : Nat) : Nat := hbmKey (fr / 2 ^ 20 % 8) (frameBytes * (fr % 2 ^ 20))

/-- The keys of the vault and HBM frames of a tensor. -/
def Tensor.frameKeys (t : Tensor) (fn : Nat) : List Nat :=
  if t.res ≤ 1 then
    t.plots.filterMap fun x =>
      if entryV x.2 then
        match t.place fn x.2 (frameBytes * x.1) with
        | .key k => some k
        | .peer _ _ _ => none
      else none
  else []

/-- Every run of keys that is granted or reserved: leased frames, save areas, fault records, remote leases. -/
def State.usedRuns (s : State) : List (Nat × Nat) :=
  s.takes.flatMap (fun t =>
    (t.tensors.flatMap fun x => (x.2.frameKeys t.fn).map fun k => (k, frameBytes))
      ++ (if t.save = 0 then [] else [(t.save, frameBytes * t.saveFrames)]))
  ++ s.frecs.map (fun f => (f.key, frameBytes))
  ++ s.rleases.flatMap fun x =>
    match x.2 with
    | some l => l.frames.map fun f => (hbmFrameKey f, frameBytes)
    | none => []

def freeRange (used : List (Nat × Nat)) (a n : Nat) : Bool := !used.any fun u => overlaps u.1 u.2 a n

/-- The keys at which `n` consecutive free frames of a vault start. -/
def vaultStarts (used : List (Nat × Nat)) (cl n : Nat) : List Nat :=
  ((List.range (321 - n)).map fun f => vaultKey cl (frameBytes * f)).filter fun a => freeRange used a (frameBytes * n)

/-- The keys at which `n` consecutive free frames of one part of a function's pool start. -/
def Fn.poolStarts (f : Fn) (used : List (Nat × Nat)) (n : Nat) : List Nat :=
  if f.psz.toNat < 30 then []
  else
    let per := 2 ^ (f.psz.toNat - 3) / frameBytes
    (f.pbase.zipIdx.flatMap fun (x : BitVec 20 × Nat) =>
      (List.range (per + 1 - n)).map fun j => hbmKey x.2 (frameBytes * (x.1.toNat + j))).filter
      fun a => freeRange used a (frameBytes * n)

/-- The reference (R292) of a key in a function's pool. -/
def Fn.refOf (f : Fn) (key : Nat) : Word :=
  let st := hbmStack key
  let p := 2 ^ (f.psz.toNat - 3)
  at_ (st * p + hbmOff key - frameBytes * (f.pbase.getD st 0).toNat) 0 ||| 1

/-- Zeros over whole stripes or words of memory, with fresh codes, but in the banks marked failed (R263). -/
def State.scrub (s : State) (a n : Nat) : State :=
  let s := s.hide a (List.replicate n 0)
  let chk (i : Nat) : Bool :=
    2 ^ 80 ≤ i && isVault a &&
      let st := (i - 2 ^ 80) / 4
      inRange a n (vaultKey (st / 2 ^ 17) (256 * (st % 2 ^ 17)))
        && !s.bankFailed (st / 2 ^ 17) (st % 2 ^ 17) (16 + (i - 2 ^ 80) / 2 % 2)
  { s with
    mem := s.mem.filter fun c => !inRange a n c.1
    errs := s.errs.filter fun e => !(inRange a n (8 * e.1) && !s.skipped (8 * e.1) || chk e.1) }

/-! ### Granting leases (R316, R317, R320) -/

/-- A plot entry (R316). -/
def plotEntry (t : Tensor) (lease frame : Nat) : Word :=
  flag true 63 ||| at_ t.kind 61 ||| at_ t.res 59 ||| at_ (bits t.w5 55 53) 56 ||| at_ (lease % 2 ^ 15) 40 ||| at_ (frame % 2 ^ 40) 0

/-- The plot entries of a lease whose plot number `i` has the given frame. -/
def Tensor.granted (t : Tensor) (lease : Nat) (frame : Nat → Nat) : Tensor :=
  { t with plots := (List.range t.lcount).foldl (fun p i => tput 0 p (t.lfirst + i) (plotEntry t lease (frame i))) t.plots }

/-- Are all leased plots translated? -/
def Tensor.leased (t : Tensor) : Bool :=
  t.lcount ≤ (t.plots.filter fun e => t.lfirst ≤ e.1 && e.1 < t.lfirst + t.lcount && entryV e.2).length

/-- The initial contents of the leased plots at their new place: from RLOC, and zeros beyond the tensor and without RLOC. -/
def State.fillPlots (s : State) (take fn : Nat) (t : Tensor) (key : Nat) : State :=
  let n := frameBytes * t.lcount
  if t.rloc = 0 then (s.scrub key n).fireMons key n
  else
    let l := (s.refRuns fn t.rloc 0 (min n (t.size - frameBytes * t.lfirst))).flatMap fun x => piecesOf x.1 x.2
    let r := s.copyOut 0 take l
    ((r.1.scrub key n).poke key r.2).fireMons key n

/-- Grant the vault or HBM lease of a tensor at a run of frames, and count it (R320, R321). -/
def State.grantAt (s : State) (take fn : Nat) (x : Nat × Tensor) (key : Nat) : State :=
  let r := s.freePick
  let fr (i : Nat) : Nat :=
    if x.2.res = 0 then vaultCl key * 2 ^ 9 + vaultAddr key / frameBytes + i else hbmStack key * 2 ^ 20 + hbmOff key / frameBytes + i
  ((r.2.fillPlots take fn x.2 key).updTake take fun t => t.updTensor x.1 fun d => d.granted r.1 fr).updFn fn fun f =>
    { f with lsuse := f.lsuse + BitVec.ofNat 32 x.2.lcount }

/-- Grant a host lease (R314, R320). -/
def State.grantHost (s : State) (take fn : Nat) (x : Nat × Tensor) : State :=
  let r := s.freePick
  (r.2.updTake take fun t => t.updTensor x.1 fun d => d.granted r.1 fun i => bits x.2.rloc 55 16 + i).updFn fn fun f =>
    { f with lsuse := f.lsuse + BitVec.ofNat 32 x.2.lcount }

/-- Runs of frames for tensors one after another: for each, a free choice among the runs that are free (R317). -/
def chooseRuns (pick : Nat → Nat) (starts : List (Nat × Nat) → Nat → List Nat) (used : List (Nat × Nat)) :
    List (Nat × Tensor) → Option (List (Nat × Tensor × Nat))
  | [] => some []
  | x :: t =>
    let free := starts used x.2.lcount
    match free[pick t.length % free.length]? with
    | none => none
    | some a => (chooseRuns pick starts ((a, frameBytes * x.2.lcount) :: used) t).map fun l => (x.1, x.2, a) :: l

/-- A choice that fits: the free one, or where it leaves no room for all, the lowest runs in turn (DESIGN CHOICE, log 7).
A grant fails only by shortage (R320). -/
def chooseFit (pick : Nat → Nat) (starts : List (Nat × Nat) → Nat → List Nat) (used : List (Nat × Nat)) (l : List (Nat × Tensor)) :
    Option (List (Nat × Tensor × Nat)) :=
  match chooseRuns pick starts used l with
  | some r => some r
  | none => chooseRuns (fun _ => 0) starts used l

/-- The tensors of a take with a residence that are not leased yet. -/
def Take.unleased (t : Take) (res : Nat) : List (Nat × Tensor) := t.tensors.filter fun x => x.2.res == res && !x.2.leased

/-- R338: reserve a fault record for a take in its function's pool. -/
def State.reserveRecord (s : State) (t : Take) : Option State :=
  if t.frec ≠ 0 then some s
  else
    let f := s.fn t.fn
    let r := s.pickOf (f.poolStarts s.usedRuns 1)
    match r.1 with
    | none => none
    | some key =>
      let s := { r.2 with frecs := r.2.frecs ++
        [({ fn := t.fn, take := t.id, key := key, size := 8 * (16 + 8 * t.hdr.clusters + 2 * t.hdr.nsched) } : FRec)] }
      some (s.updTake t.id fun t => { t with frec := key, frecRef := f.refOf key })

/-- The plots that a function's takes hold, or have asked other packages for (R321, R323). -/
def State.plotsHeld (s : State) (fn : Nat) : Nat :=
  (s.fn fn).lsuse.toNat + (s.takes.filter fun t => t.fn == fn).foldl (fun n t =>
    n + leaseTotal (t.tensors.filter fun x => x.2.plots.isEmpty && s.pleases.any fun p => p.take == t.id && p.tid == x.1)) 0

/-- May the takes of a function hold `n` plots more (R321)? -/
def State.fitsLimit (s : State) (fn n : Nat) : Bool := s.plotsHeld fn + n ≤ (s.fn fn).lslim.toNat

/-- Grant every HBM and host lease of a take, when all of them fit (R320, R321, R381; DEDUCED, log 18). -/
def State.grantLocal (s : State) (t : Take) : State :=
  let f := s.fn t.fn
  let hbm := t.unleased 1
  let host := t.unleased 2
  let n := leaseTotal hbm + leaseTotal host
  if n = 0 || !s.fitsLimit t.fn n then s
  else
    match chooseFit (fun i => Config.freeChoice (s.fresh + i)) f.poolStarts s.usedRuns hbm with
    | none => s
    | some l =>
      if l.all fun y => (s.die (hbmStack y.2.2 / 2)).st == .full then
        let s := { s with fresh := s.fresh + hbm.length }
        let s := l.foldl (fun s y => s.grantAt t.id t.fn (y.1, y.2.1) y.2.2) s
        host.foldl (fun s x => s.grantHost t.id t.fn x) s
      else s

/-- Ask a target package for a range of leased plots of a peer tensor, unless they are asked for already. -/
def State.askPeer (s : State) (t : Take) (tid : Nat) (ten : Tensor) (first count : Nat) : State :=
  let p : PLease := { pkg := ten.peerPkg, take := t.id, tid := tid, first := first, count := count }
  if !s.reachable ten.peerPkg
      || s.pleases.any (fun p => p.take == t.id && p.tid == tid && !p.granted && overlaps p.first p.count first count) then s
  else
    ({ s with pleases := s.pleases ++ [p] }).send ten.peerPkg clsMem
      (.leaseAsk t.id tid ten.peerFn (ten.peerOff + first - ten.lfirst) first count)

/-- Ask for the leases of the peer tensors of a QUEUED take, as LSLIM allows (R321, R323). -/
def State.askPeers (s : State) (t : Take) : State :=
  t.tensors.foldl (fun s x =>
    if x.2.res = 3 && x.2.plots.isEmpty && s.fitsLimit t.fn x.2.lcount then s.askPeer t x.1 x.2 x.2.lfirst x.2.lcount else s) s

/-- Ask again for the plots at which accesses of a RUNNING take stall (R324). -/
def State.askWanted (s : State) (t : Take) : State :=
  t.want.foldl (fun s y => if entryV ((t.tensor y.1).entry y.2) then s else s.askPeer t y.1 (t.tensor y.1) y.2 1) s

/-- Has a QUEUED take all that it waits for: its record and every lease but those of the vaults (R297, R338)? A peer lease
has been granted once; a plot of it that is recalled is asked for at its next access (R324). -/
def Take.ready (t : Take) : Bool :=
  t.frec != 0 && t.tensors.all fun x => x.2.res == 0 || x.2.leased || (x.2.res == 3 && !x.2.plots.isEmpty)

/-- A QUEUED take that has everything becomes READY. -/
def State.becomeReady (s : State) (take : Nat) : State :=
  s.updTake take fun t => if t.st = .queued && t.ready then { t with st := .ready, since := s.cycle, order := s.cycle } else t

/-- Is a take at work, or ending, so that its plots may be recalled and wanted (R322, R324)? -/
def Take.placed (t : Take) : Bool := t.st == .running || t.st == .frozen || t.st == .ending

/-- LEASE_GRANT (R320, R323): the leases of a QUEUED take, and the leases that a recall has taken from a RUNNING one. -/
def execLeaseGrant (take : Nat) (s : State) : Out :=
  match s.take? take with
  | none => .next s
  | some t =>
    if t.st = .queued then
      let s := (s.reserveRecord t).getD s
      if (s.die (linkDie t.fn)).st = .full then .next (((s.grantLocal t).askPeers t).becomeReady take)
      else .next (s.becomeReady take)
    else if t.placed then .next (s.askWanted t)
    else .next s

/-! ### Remote leases (R323, R324) -/

/-- The frames of a range of a pool, in plots from its start; none when it does not lie in the pool. -/
def Fn.poolFrames (f : Fn) (off n : Nat) : Option (List Nat) :=
  if f.psz.toNat < 30 || 2 ^ f.psz.toNat < frameBytes * (off + n) then none
  else (List.range n).mapM fun i =>
    (f.poolKey (frameBytes * (off + i))).map fun k => hbmStack k * 2 ^ 20 + hbmOff k / frameBytes

/-- The frame that a plot of another package's tensor has from an earlier grant of the same plot of the pool, or the one at
its place there. -/
def State.rframe (s : State) (src take tid fn pool plot frame : Nat) : Nat :=
  match s.rplots.find? fun x => x.src == src && x.take == take && x.tid == tid && x.fn == fn && x.pool == pool && x.plot == plot with
  | some x => x.frame
  | none => frame

/-- The plots of a range that a tensor of another package already holds under a remote lease, as after the loss of a route. -/
def RLease.again (l : RLease) (src take tid first count : Nat) : List Nat :=
  if l.src = src && l.take = take && l.tid = tid then
    ((List.range l.frames.length).map (l.first + ·)).filter fun pl => first ≤ pl && pl < first + count && !l.recalled.contains pl
  else []

/-- A new grant takes the place of such leases of its plots. -/
def State.supersede (s : State) (src take tid first count : Nat) : State :=
  { s with rleases := tmap none (fun _ (x : Option RLease) => x.map fun l =>
      { l with recalled := l.recalled ++ l.again src take tid first count }) s.rleases }
def State.heldAgain (s : State) (src take tid first count : Nat) : Nat :=
  s.rleases.foldl (fun n x => match x.2 with
    | some l => n + (l.again src take tid first count).length
    | none => n) 0

/-- Is a frame held under a remote lease of someone else? -/
def State.heldRemote (s : State) (src take tid fr : Nat) : Bool :=
  s.rleases.any fun x =>
    match x.2 with
    | some l => !(l.src == src && l.take == take && l.tid == tid)
        && l.frames.zipIdx.any fun (y : Nat × Nat) => y.1 == fr && !l.recalled.contains (l.first + y.2)
    | none => false

/-- An unused lease identifier (R316). -/
def State.newLease (s : State) : Option Nat × State :=
  let r := s.freePick
  (((List.range 32768).map fun i => (r.1 + i) % 32768).find? fun i => (tget none s.rleases i).isNone, r.2)

/-- The HBM stack of a frame, as remote leases name it (R316). -/
def frameStack (fr : Nat) : Nat := fr / 2 ^ 20

/-- REMOTE_LEASE_REQUEST (R323): the target grants, waits or refuses. It waits while the die of a stack is not FULL (R381). -/
def execRemoteLeaseRequest (src take tid fn off first count : Nat) (s : State) : Out :=
  let w : RWait := ⟨src, take, tid, fn, off, first, count⟩
  let s := { s with rwaits := s.rwaits.filter fun x => x != w }
  let f := s.fn fn
  match f.poolFrames off count with
  | none => .next (s.send src clsMem (.leaseRefuse take tid))
  | some frames =>
    let frames := frames.zipIdx.map fun y => s.rframe src take tid fn (off + y.2) (first + y.2) y.1
    let old := s.heldAgain src take tid first count
    if f.lslim.toNat < count then .next (s.send src clsMem (.leaseRefuse take tid))
    else if f.lslim.toNat < f.lsuse.toNat + f.lsrmt.toNat - old + count
        || (frames.any fun fr => s.heldRemote src take tid fr || (s.die (frameStack fr / 2)).st != .full) then
      .next { s with rwaits := s.rwaits ++ [w] }
    else
      match s.newLease with
      | (none, s) => .next { s with rwaits := s.rwaits ++ [w] }
      | (some id, s) =>
        let l : RLease := { src := src, take := take, tid := tid, fn := fn, frames := frames, until_ := s.cycle + 2 ^ 24
                            first := first }
        let s := s.supersede src take tid first count
        let s := { s with
          rleases := tput none s.rleases id (some l)
          rplots := (s.rplots.filter fun (x : RPlot) => !(x.src == src && x.take == take && x.tid == tid && first ≤ x.plot && x.plot < first + count))
            ++ frames.zipIdx.map fun (y : Nat × Nat) => (⟨src, take, tid, fn, off + y.2, first + y.2, y.1⟩ : RPlot) }
        .next ((s.updFn fn fun f => { f with lsrmt := f.lsrmt - BitVec.ofNat 32 old + BitVec.ofNat 32 count }).send src clsMem
          (.leaseGrant take tid id first frames))

/-- REMOTE_LEASE_GRANT (R323, R324): the target's frames become the source's translations, with a new term. The plots of a
tensor count in LSUSE from its first grant on. -/
def execRemoteLeaseGrant (take tid lease first : Nat) (frames : List Nat) (s : State) : Out :=
  match s.take? take with
  | none => .next s
  | some t =>
    let n := frames.length
    let hit (p : PLease) : Bool := p.take == take && p.tid == tid && !p.granted && p.first == first && p.count == n
    if s.pleases.any hit then
      let ten := t.tensor tid
      let mark (p : PLease) : PLease := if hit p then { p with granted := true, lease := lease, until_ := s.cycle + 2 ^ 24 } else p
      let s := { s with pleases := s.pleases.map mark }
      let fr (i : Nat) : Nat := ten.peerPkg * 2 ^ 28 + 2 ^ 23 + (frames.getD i 0) % 2 ^ 23
      let s := s.updTake take fun t => { (t.updTensor tid fun d =>
        { d with plots := (List.range n).foldl (fun p i => tput 0 p (first + i) (plotEntry ten lease (fr i))) d.plots }) with
          want := t.want.filter fun y => !(y.1 == tid && first ≤ y.2 && y.2 < first + n) }
      let s := if ten.plots.isEmpty then s.updFn t.fn fun f => { f with lsuse := f.lsuse + BitVec.ofNat 32 ten.lcount } else s
      .next (s.becomeReady take)
    else .next s

/-- A target's refusal: the record is refused with RESOURCE (R323). -/
def State.leaseRefused (s : State) (take : Nat) : State :=
  match s.take? take with
  | none => s
  | some t =>
    if t.st = .queued then
      let n := t.tensors.foldl (fun n x => if x.2.plots.isEmpty then n else n + x.2.lcount) 0
      let s := s.updFn t.fn fun f => { f with lsuse := f.lsuse - BitVec.ofNat 32 n }
      let s := { s with
        takes := s.takes.filter fun x => x.id != take
        frecs := s.frecs.filter fun f => f.take != take
        pleases := s.pleases.filter fun p => p.take != take }
      s.complete t.fn t.hdr.cmpl t.hdr.vec.toNat (completion 2 7 0 0) 0 0 0
    else s

/-- REMOTE_LEASE_RENEWAL (R323): at half term the source renews the lease. -/
def execRemoteLeaseRenewal (pkg lease : Nat) (s : State) : Out :=
  let due (p : PLease) : Bool := p.granted && p.pkg == pkg && p.lease == lease && p.until_ ≤ s.cycle + 2 ^ 23
  if s.pleases.any due then
    .next (({ s with pleases := s.pleases.map fun p => if due p then { p with until_ := s.cycle + 2 ^ 24 } else p }).send
      pkg clsMem (.leaseRenew lease))
  else .next s

/-- A renewal reaches the target: a new term starts. -/
def State.renewed (s : State) (src lease : Nat) : State :=
  match tget none s.rleases lease with
  | some l => if l.src = src then { s with rleases := tput none s.rleases lease (some { l with until_ := s.cycle + 2 ^ 24 }) } else s
  | none => s

/-- A remote lease ends; its plots are no longer counted in LSRMT. -/
def State.endRLease (s : State) (id : Nat) : State :=
  match tget none s.rleases id with
  | some l =>
    ({ s with rleases := tput none s.rleases id none }).updFn l.fn fun f =>
      { f with lsrmt := f.lsrmt - BitVec.ofNat 32 (l.frames.length - l.recalled.length) }
  | none => s

/-- REMOTE_LEASE_LAPSE (R324): the term has ended without renewal. -/
def execRemoteLeaseLapse (lease : Nat) (s : State) : Out :=
  match tget none s.rleases lease with
  | some l => if l.until_ ≤ s.cycle then .next (s.endRLease lease) else .next s
  | none => .next s

/-- Has an agent of this package an access outstanding to a plot of another package? -/
def State.outstanding (s : State) (pkg lease plot : Nat) : Bool := s.reqs.any fun r => r.pkg == pkg && r.plots.contains (lease, plot)

/-- Set the MOV bit of a plot (R322). -/
def State.setMov (s : State) (take tid plot : Nat) : State :=
  s.updTake take fun t => t.updTensor tid fun d =>
    if entryV (d.entry plot) then { d with plots := tput 0 d.plots plot (d.entry plot ||| flag true 55) } else d

/-- REMOTE_RECALL (R324): new accesses to the plot stall; when those issued have completed the source clears V and
acknowledges. -/
def execRemoteRecall (take tid plot : Nat) (s : State) : Out :=
  match s.take? take with
  | none => .next s
  | some t =>
    let ten := t.tensor tid
    let e := ten.entry plot
    let pkg := ten.peerPkg
    let lease := bits e 54 40
    if ten.res ≠ 3 || !entryV e then .next s
    else
      let s := s.setMov take tid plot
      if s.outstanding pkg lease plot then .next s
      else
        .next ((s.updTake take fun t => t.updTensor tid fun d => { d with plots := tput 0 d.plots plot ((e ||| flag true 55) &&& ~~~ flag true 63) }).send
          pkg clsMem (.recallAck lease plot))

/-- RECALL_ACK (R324): the target may move the plot. -/
def execRecallAck (lease plot : Nat) (s : State) : Out :=
  match tget none s.rleases lease with
  | some l =>
    if l.recalled.contains plot then .next s
    else
      .next (({ s with rleases := tput none s.rleases lease (some { l with recalled := l.recalled ++ [plot] }) }).updFn l.fn fun f =>
        { f with lsrmt := f.lsrmt - 1 })
  | none => .next s

/-- The remote leases under which a frame is held, with the source's plot. -/
def State.holders (s : State) (key : Nat) : List (Nat × RLease × Nat) :=
  s.rleases.flatMap fun x =>
    match x.2 with
    | some l => l.frames.zipIdx.filterMap fun (y : Nat × Nat) =>
        if hbmFrameKey y.1 = key && !l.recalled.contains (l.first + y.2) then some (x.1, l, l.first + y.2) else none
    | none => []

/-- The recall messages of a plot that have not been sent. -/
def State.sendRecalls (s : State) (key : Nat) : State :=
  (s.holders key).foldl (fun s x =>
    if x.2.1.asked.contains x.2.2 then s
    else
      ({ s with rleases := tput none s.rleases x.1 (some { x.2.1 with asked := x.2.1.asked ++ [x.2.2] }) }).send
        x.2.1.src clsMem (.recall x.2.1.take x.2.1.tid x.2.2)) s

/-- Does a plot hold a part of an open zone's area, or its status word (R322)? -/
def State.zoneHolds (s : State) (key : Nat) : Bool :=
  isVault key && (s.cluster (vaultCl key)).zones.any fun z =>
    z.2.open_ && (overlaps (vaultAddr key) frameBytes z.2.base z.2.areaBytes || overlaps (vaultAddr key) frameBytes z.2.zsw.toNat 8)

/-- May vault plots be granted on a cluster, and HBM plots in the stack of a key (R381)? -/
def State.vaultServes (s : State) (cl : Nat) : Bool := (s.die (dieOf cl)).st == .reduced || (s.die (dieOf cl)).st == .full
def State.stackServes (s : State) (key : Nat) : Bool := (s.die (hbmStack key / 2)).st == .full

/-- Where a plot may be moved to: for a vault plot the vault that its tensor follows, or any other; for an HBM plot the
pool (R317, R322); on dies that grant such plots (R381). -/
def State.recallStarts (s : State) (t : Take) (ten : Tensor) (key : Nat) : List Nat :=
  let used := s.usedRuns
  let others (cl : Nat) : List Nat :=
    (List.range 256).flatMap fun c => if c = cl || !s.vaultServes c then [] else vaultStarts used c 1
  if ten.res = 0 then
    match t.placeLc ten.hcl with
    | some p => if p.cl ≠ vaultCl key then (if s.vaultServes p.cl then vaultStarts used p.cl 1 else []) else others p.cl
    | none => others (vaultCl key)
  else ((s.fn t.fn).poolStarts used 1).filter s.stackServes

/-- The frame of a memory key, as remote leases name it (R316). -/
def frameNo (key : Nat) : Nat := hbmStack key * 2 ^ 20 + hbmOff key / frameBytes

/-- Move a plot to a new frame: the copy counts as a write of every byte (R322). Remote leases of the plot will give the new
frame (R324). -/
def State.movePlot (s : State) (take tid plot old new : Nat) : State :=
  let r := s.copyOut 0 take (piecesOf old frameBytes)
  let s := ((r.1.scrub new frameBytes).poke new r.2).fireMons old frameBytes
  let s := if isVault old then s
    else { s with rplots := s.rplots.map fun (x : RPlot) => if x.frame = frameNo old then { x with frame := frameNo new } else x }
  let fr := if isVault new then vaultCl new * 2 ^ 9 + vaultAddr new / frameBytes else frameNo new
  let mon (m : Mon) : Mon := if inRange old frameBytes m.key then { m with key := new + m.key - old } else m
  let s := { s with clusters := tmap {} (fun _ c => { c with ctx := tmap {} (fun _ (x : CueCtx) => { x with mon := x.mon.map mon }) c.ctx }) s.clusters }
  s.updTake take fun t => t.updTensor tid fun d =>
    { d with plots := tput 0 d.plots plot (plotEntry d (bits (d.entry plot) 54 40) fr) }

/-- The recall of a vault or HBM plot (R322): it moves when no remote lease holds it. -/
def State.recallPlot (s : State) (take tid plot : Nat) : State :=
  match s.take? take with
  | none => s
  | some t =>
    let ten := t.tensor tid
    if !t.placed || 2 ≤ ten.res || !entryV (ten.entry plot) then s
    else
      match ten.place t.fn (ten.entry plot) (frameBytes * plot) with
      | .peer _ _ _ => s
      | .key old =>
        if s.zoneHolds old then s
        else
          let r := s.pickOf (s.recallStarts t ten old)
          match r.1 with
          | none => s
          | some new =>
            let s := r.2.setMov take tid plot
            if (s.holders old).isEmpty then s.movePlot take tid plot old new else s.sendRecalls old

/-- LEASE_RECALL (R322). -/
def execLeaseRecall (take tid plot : Nat) (s : State) : Out := .next (s.recallPlot take tid plot)

/-! ### Voltage (R146, R375) -/

/-- RAIL_SETTLED (R374): the rail has stayed within 2 mV of its target for 600 cycles. -/
def execRailSettled (pair mv : Nat) (s : State) : Out :=
  if s.target pair ≤ mv + 2 && mv ≤ s.target pair + 2 then
    .next ((s.updPair pair fun p => { p with vnow := BitVec.ofNat 10 mv, settled := true }).railFree pair)
  else .next s

/-! ### Placement (R298 to R301) -/

/-- A region or copy in its place: pages, physical context, slots, buffer entries by element. -/
structure Occ where
  x0 : Nat
  y0 : Nat
  w : Nat
  h : Nat
  ctx : BitVec 2
  slots : BitVec 16
  deps : List (Nat × Nat)
  deriving DecidableEq, Repr

def Occ.meets (a b : Occ) : Bool := overlaps a.x0 a.w b.x0 b.w && overlaps a.y0 a.h b.y0 b.h
def Occ.depth (a : Occ) (el : Nat) : Nat := a.deps.foldl (fun n x => if x.1 = el then n + x.2 else n) 0

/-- A region record in a place. -/
def occOf (r : RegionRec) (w h x0 y0 : Nat) (ctx : BitVec 2) (rot : Nat) : Occ :=
  { x0 := x0, y0 := y0, w := w, h := h, ctx := ctx, slots := r.slots rot
    deps := r.elems.filterMap fun e =>
      if e.adep = 0 && e.bdep = 0 then none else some (elAt (4 * x0 + e.x) (4 * y0 + e.y), e.adep.toNat + e.bdep.toNat) }

def Spot.occ (p : Spot) (t : Take) : Option Occ :=
  (t.reel.record p.scene p.rix).map fun x =>
    let ps := x.1.psets.getD x.2.psi { w := 1, h := 1, lc := 0 }
    occOf x.2 ps.w ps.h p.x0 p.y0 p.ctx p.rot

/-- What the takes on a cluster occupy: for each take, the places of each of its scenes. -/
def State.occs (s : State) (cl : Nat) : List (List (List Occ)) :=
  s.takes.filterMap fun t => (t.placeOf cl).map fun p =>
    (List.range t.reel.scenes.length).map fun n => (p.spots.filter fun x => x.scene == n).filterMap fun x => x.occ t

/-- R13, R300: may a region stand beside the others of its scene and those of other takes? -/
def fits (a : Occ) (scene : List Occ) (others : List (List (List Occ))) : Bool :=
  let all := scene ++ others.flatMap fun t => t.flatMap id
  (all.all fun b => !a.meets b || (a.ctx != b.ctx && a.slots &&& b.slots == 0))
    && a.deps.all fun d =>
      let sum (l : List Occ) : Nat := l.foldl (fun n b => n + b.depth d.1) 0
      d.2 + sum scene + others.foldl (fun n t => n + t.foldl (fun m l => max m (sum l)) 0) 0 ≤ 32

/-- A copy to place: its record's index, copy number, page set, and the spot of the scene before it continues. -/
structure Item where
  rix : Nat
  copy : Nat
  psi : Nat
  r : RegionRec
  w : Nat
  h : Nat
  fixed : Option Spot
  deriving DecidableEq, Repr

/-- The choices of physical context and rotation, in an order that a free choice starts. -/
def ctxRots (pick : Nat) : List (BitVec 2 × Nat) :=
  let l := (List.range 64).map fun i => (BitVec.ofNat 2 i, i / 4)
  l.drop (pick % 64) ++ l.take (pick % 64)

/-- The candidates of an item, in the order of R299: lowest y0, then lowest x0. Copies 0 of one page set share its place
and rotation. -/
def candidates (pick scene : Nat) (placed : List (Item × Spot)) (i : Item) : List Spot :=
  let mate := placed.find? fun x => x.1.psi == i.psi && x.1.copy == 0 && i.copy == 0
  match i.fixed with
  | some p => [{ p with scene := scene, rix := i.rix }]
  | none =>
    (List.range (5 - i.h)).flatMap fun y => (List.range (5 - i.w)).flatMap fun x => (ctxRots pick).filterMap fun c =>
      let ok := match mate with
        | some m => m.2.x0 == x && m.2.y0 == y && m.2.rot == c.2
        | none => true
      if ok then some { scene := scene, rix := i.rix, copy := i.copy, x0 := x, y0 := y, ctx := c.1, rot := c.2 } else none

/-- Place items one after another, going back over earlier choices where one does not fit. -/
def placeItems (pick scene : Nat) (others : List (List (List Occ))) : List Item → List (Item × Spot) → List Occ → Option (List Spot)
  | [], placed, _ => some (placed.map (·.2))
  | i :: rest, placed, occ =>
    (candidates pick scene placed i).findSome? fun p =>
      let o := occOf i.r i.w i.h p.x0 p.y0 p.ctx p.rot
      if fits o occ others then placeItems pick scene others rest (placed ++ [(i, p)]) (occ ++ [o]) else none

/-- The items of a scene on a logical cluster; continuing regions first, at the spots they have. -/
def sceneItems (r : Reel) (lc n : Nat) (before : List Spot) : List Item :=
  match r.scenes[n]? with
  | none => []
  | some sc =>
    let item (i copy : Nat) (x : RegionRec) (cont : Option Nat) : Option Item :=
      match r.record n i with
      | none => none
      | some y =>
        let ps := sc.slate.psets.getD x.psi { w := 1, h := 1, lc := 0 }
        if ps.lc = lc then
          some { rix := i, copy := copy, psi := x.psi, r := y.2, w := ps.w, h := ps.h
                 fixed := cont.bind fun q => before.find? fun p => p.rix == q && p.copy == copy }
        else none
    let all (c : Bool) : List Item := sc.slate.regions.zipIdx.flatMap fun (x : RegionRec × Nat) =>
      if x.1.cont = c then
        let n := match r.record n x.2 with | some y => y.2.copies | none => 0
        (List.range n).filterMap fun j => item x.2 j x.1 (if c then some x.1.prev else none)
      else []
    all true ++ all false

/-- The places of every scene from number `n` on, each after the one before. -/
def placeScenes (pick : Nat) (r : Reel) (lc : Nat) (others : List (List (List Occ))) (before : List Spot) (n : Nat) :
    Nat → Option (List Spot)
  | 0 => some []
  | k + 1 =>
    match placeItems pick n others (sceneItems r lc n before) [] [] with
    | none => none
    | some l => (placeScenes pick r lc others l (n + 1) k).map fun m => l ++ m

/-- A place for a logical cluster, with its window and the vault frames of its tensors. -/
structure Plan where
  place : Place
  wbase : Nat
  frames : List (Nat × Tensor × Nat)
  deriving DecidableEq, Repr

def CueCtx.free (c : CueCtx) : Bool := c.kstate == .idle || c.kstate == .saved

/-- The bases at which a window fits beside the others of a cluster (R164); multiples of 4 KiB, DESIGN CHOICE, log 7. -/
def State.windows (s : State) (cl wsize : Nat) : List Nat :=
  ((List.range 16).map (4096 * ·)).filter fun a =>
    a + wsize ≤ 65536 && (List.range 4).all fun k =>
      (s.ctx cl k).free || !overlaps (s.ctx cl k).wbase.toNat (s.ctx cl k).wsize a wsize

/-- The physical ports of a cluster that a take holds. -/
def State.portTaken (s : State) (cl : Nat) (out : Bool) (p : BitVec 4) : Bool :=
  s.takes.any fun t =>
    match t.placeOf cl with
    | some x => (if out then x.outMap else x.inMap).any fun m => m.2 == p
    | none => false

/-- The logical ports of a direction that the slates of a reel declare (R301). -/
def Reel.ports (r : Reel) (out : Bool) : List (BitVec 4) :=
  ((List.range 16).map (BitVec.ofNat 4)).filter fun p =>
    r.scenes.any fun sc =>
      (sc.slate.pats.any fun w => w.port == p && w.dir == out)
        || (!out && sc.slate.regions.any fun g => g.elems.any fun e =>
            e.afill.toNat / 16 == 16 + p.toNat || e.bfill.toNat / 16 == 16 + p.toNat)

/-- Map logical ports to free physical ones; none when they do not suffice. -/
def State.mapPorts (s : State) (cl : Nat) (out : Bool) (l : List (BitVec 4)) : Option (List (BitVec 4 × BitVec 4)) :=
  let free := ((List.range 16).map (BitVec.ofNat 4)).filter fun p => !s.portTaken cl out p
  if l.length ≤ free.length then some (l.zip free) else none

/-- Plan one logical cluster on a cluster: everything that R298 step 1 gives it. `vault` grants vault leases too. Places and
ports are held for every scene (DEDUCED, log 17). -/
def State.planOn (s : State) (t : Take) (vault : Bool) (lc cl : Nat) : Option Plan :=
  let ts := if vault then t.tensors.filter fun x => x.2.res == 0 && x.2.hcl == lc else []
  let ws := s.windows cl t.hdr.wsize
  let pick := Config.freeChoice (s.fresh + 8 * lc)
  match (List.range 4).find? fun k => (s.ctx cl k).free, ws[Config.freeChoice (s.fresh + 8 * lc + 1) % ws.length]?,
      s.mapPorts cl false (t.reel.ports false), s.mapPorts cl true (t.reel.ports true),
      chooseFit (fun i => Config.freeChoice (s.fresh + 8 * lc + 2 + i)) (fun u n => vaultStarts u cl n) s.usedRuns ts,
      placeScenes pick t.reel lc (s.occs cl) [] 0 t.reel.scenes.length with
  | some k, some wb, some im, some om, some fr, some sp =>
    if t.hdr.mxeng && (s.mxOf cl).holder.isSome then none
    else some { place := { lc := lc, cl := cl, k := k, spots := sp, inMap := im, outMap := om }, wbase := wb, frames := fr }
  | _, _, _, _, _, _ => none

/-- The page-context counts of a cluster. -/
def State.pageCount (s : State) (cl : Nat) : Nat :=
  (s.occs cl).foldl (fun n t => n + t.foldl (fun m l => max m (l.foldl (fun a o => a + o.w * o.h) 0)) 0) 0

/-- How far from equal the strata of a pair would be with `n` more page contexts on a cluster (R299); `given` lists those
that the take's other logical clusters are being given, by cluster. -/
def State.imbalance (s : State) (given : List (Nat × Nat)) (cl n : Nat) : Nat :=
  let more (c : Nat) : Nat := given.foldl (fun m x => if x.1 = c then m + x.2 else m) 0
  let a := s.pageCount cl + more cl + n
  let b := s.pageCount (Nat.xor cl 1) + more (Nat.xor cl 1)
  max a b - min a b

def insertBy (key : Nat → Nat) (i : Nat) : List Nat → List Nat
  | [] => [i]
  | j :: t => if key i < key j then i :: j :: t else j :: insertBy key i t
def sortBy (key : Nat → Nat) (l : List Nat) : List Nat := l.foldr (insertBy key) []

/-- The page contexts that a logical cluster takes: those of its largest scene, as `State.pageCount` counts a placed take. -/
def Take.pagesOf (t : Take) (lc : Nat) : Nat :=
  (List.range t.reel.scenes.length).foldl (fun m n => max m ((sceneItems t.reel lc n []).foldl (fun k i => k + i.w * i.h) 0)) 0

/-- The clusters on which a logical cluster may be tried, in the order of R299. -/
def State.clustersFor (s : State) (t : Take) (ok : Nat → Nat → Bool) (given : List (Nat × Nat)) (lc : Nat) : List Nat :=
  let f := s.fn t.fn
  let n := t.pagesOf lc
  sortBy (fun cl => 256 * s.imbalance given cl n + cl) ((List.range 256).filter fun cl =>
    maskBit f.clset cl && ok lc cl && ((s.die (dieOf cl)).st == .reduced || (s.die (dieOf cl)).st == .full)
      && match (t.fix[lc]?).join with
        | some c => c.toNat == cl
        | none => true)

/-- Plan every logical cluster on clusters of its own; `used` lists the clusters taken and their page contexts. -/
def State.planFrom (s : State) (t : Take) (vault : Bool) (ok : Nat → Nat → Bool) :
    List Nat → List (Nat × Nat) → Option (List Plan)
  | [], _ => some []
  | lc :: rest, used =>
    (s.clustersFor t ok used lc).findSome? fun cl =>
      if used.any fun x => x.1 == cl then none
      else
        match s.planOn t vault lc cl with
        | none => none
        | some p => (s.planFrom t vault ok rest ((cl, t.pagesOf lc) :: used)).map fun l => p :: l

def State.plan (s : State) (t : Take) (vault : Bool) (ok : Nat → Nat → Bool) : Option (List Plan) :=
  s.planFrom t vault ok (List.range t.hdr.clusters) []

end Sys2Proof.Machine
end

