-- ==== Sys2Proof/Machine/Alu.lean ====
section
/-! DEFINITION. Integer arithmetic, immediate forms, predicates and branches of the cue contexts (R166 to R171). -/

namespace Sys2Proof.Machine

/-- DIV (R166): truncated toward zero; all ones when the divisor is 0. -/
def sdivW (a b : Word) : Word := if b = 0 then BitVec.allOnes 64 else a.sdiv b
/-- DIVU (R166). -/
def udivW (a b : Word) : Word := if b = 0 then BitVec.allOnes 64 else a / b
/-- REM (R166): the dividend when the divisor is 0, otherwise a − b × quotient. -/
def sremW (a b : Word) : Word := if b = 0 then a else a - b * sdivW a b
/-- REMU (R166). -/
def uremW (a b : Word) : Word := if b = 0 then a else a - b * udivW a b
/-- MULH (R166): the high 64 bits of the signed product. -/
def mulhW (a b : Word) : Word := (BitVec.ofInt 128 (a.toInt * b.toInt)).extractLsb' 64 64
/-- MULHU (R166). -/
def mulhuW (a b : Word) : Word := (BitVec.ofNat 128 (a.toNat * b.toNat)).extractLsb' 64 64
/-- The shift count b[5:0] (R166). -/
def shcnt (b : Word) : Nat := b.toNat % 64
/-- The sign-extended immediate (R167). -/
def immW (i : BitVec 14) : Word := i.signExtend 64
/-- The branch target: (P + 4 × off14) modulo 65,536 (R61, R169). -/
def branchTarget (pc : BitVec 16) (off : BitVec 14) : BitVec 16 := pc + 4 * off.signExtend 16

/-- A conditional branch at PC (R169). -/
def State.branch (s : State) (taken : Bool) (off : BitVec 14) : State :=
  if taken then s.onMe fun c => { c with pc := branchTarget c.pc off } else s.goOn 1

/-- ADD (R166). -/
def execAdd (d a b : Reg) (s : State) : Out := .next (s.result 1 d (s.reg a + s.reg b))
/-- SUB (R166). -/
def execSub (d a b : Reg) (s : State) : Out := .next (s.result 1 d (s.reg a - s.reg b))
/-- MUL (R166). -/
def execMul (d a b : Reg) (s : State) : Out := .next (s.result 1 d (s.reg a * s.reg b))
/-- MULH (R166). -/
def execMulh (d a b : Reg) (s : State) : Out := .next (s.result 1 d (mulhW (s.reg a) (s.reg b)))
/-- MULHU (R166). -/
def execMulhu (d a b : Reg) (s : State) : Out := .next (s.result 1 d (mulhuW (s.reg a) (s.reg b)))
/-- DIV (R166). -/
def execDiv (d a b : Reg) (s : State) : Out := .next (s.result 1 d (sdivW (s.reg a) (s.reg b)))
/-- DIVU (R166). -/
def execDivu (d a b : Reg) (s : State) : Out := .next (s.result 1 d (udivW (s.reg a) (s.reg b)))
/-- REM (R166). -/
def execRem (d a b : Reg) (s : State) : Out := .next (s.result 1 d (sremW (s.reg a) (s.reg b)))
/-- REMU (R166). -/
def execRemu (d a b : Reg) (s : State) : Out := .next (s.result 1 d (uremW (s.reg a) (s.reg b)))
/-- AND (R166). -/
def execAnd (d a b : Reg) (s : State) : Out := .next (s.result 1 d (s.reg a &&& s.reg b))
/-- OR (R166). -/
def execOr (d a b : Reg) (s : State) : Out := .next (s.result 1 d (s.reg a ||| s.reg b))
/-- XOR (R166). -/
def execXor (d a b : Reg) (s : State) : Out := .next (s.result 1 d (s.reg a ^^^ s.reg b))
/-- ANDN (R166). -/
def execAndn (d a b : Reg) (s : State) : Out := .next (s.result 1 d (s.reg a &&& ~~~(s.reg b)))
/-- SHL (R166). -/
def execShl (d a b : Reg) (s : State) : Out := .next (s.result 1 d (s.reg a <<< shcnt (s.reg b)))
/-- SHR (R166). -/
def execShr (d a b : Reg) (s : State) : Out := .next (s.result 1 d (s.reg a >>> shcnt (s.reg b)))
/-- SAR (R166). -/
def execSar (d a b : Reg) (s : State) : Out := .next (s.result 1 d ((s.reg a).sshiftRight (shcnt (s.reg b))))
/-- ROT (R166). -/
def execRot (d a b : Reg) (s : State) : Out := .next (s.result 1 d ((s.reg a).rotateLeft (shcnt (s.reg b))))
/-- MIN (R166). -/
def execMin (d a b : Reg) (s : State) : Out := .next (s.result 1 d (if (s.reg a).slt (s.reg b) then s.reg a else s.reg b))
/-- MAX (R166). -/
def execMax (d a b : Reg) (s : State) : Out := .next (s.result 1 d (if (s.reg a).slt (s.reg b) then s.reg b else s.reg a))
/-- MINU (R166). -/
def execMinu (d a b : Reg) (s : State) : Out := .next (s.result 1 d (if (s.reg a).ult (s.reg b) then s.reg a else s.reg b))
/-- MAXU (R166). -/
def execMaxu (d a b : Reg) (s : State) : Out := .next (s.result 1 d (if (s.reg a).ult (s.reg b) then s.reg b else s.reg a))
/-- SEQ (R166). -/
def execSeq (d a b : Reg) (s : State) : Out := .next (s.result 1 d (boolWord (s.reg a == s.reg b)))
/-- SNE (R166). -/
def execSne (d a b : Reg) (s : State) : Out := .next (s.result 1 d (boolWord (s.reg a != s.reg b)))
/-- SLT (R166). -/
def execSlt (d a b : Reg) (s : State) : Out := .next (s.result 1 d (boolWord ((s.reg a).slt (s.reg b))))
/-- SLTU (R166). -/
def execSltu (d a b : Reg) (s : State) : Out := .next (s.result 1 d (boolWord ((s.reg a).ult (s.reg b))))
/-- CLZ (R166). -/
def execClz (d a : Reg) (s : State) : Out := .next (s.result 1 d (BitVec.ofNat 64 (clzN 64 (s.reg a).toNat)))
/-- CTZ (R166). -/
def execCtz (d a : Reg) (s : State) : Out := .next (s.result 1 d (BitVec.ofNat 64 (ctzN 64 (s.reg a).toNat)))
/-- POPC (R166). -/
def execPopc (d a : Reg) (s : State) : Out := .next (s.result 1 d (BitVec.ofNat 64 (popN 64 (s.reg a).toNat)))
/-- BREV (R166). -/
def execBrev (d a : Reg) (s : State) : Out := .next (s.result 1 d (BitVec.ofNat 64 (brevN 64 (s.reg a).toNat)))
/-- ADDI (R167). -/
def execAddi (d a : Reg) (imm : BitVec 14) (s : State) : Out := .next (s.result 1 d (s.reg a + immW imm))
/-- MULI (R167). -/
def execMuli (d a : Reg) (imm : BitVec 14) (s : State) : Out := .next (s.result 1 d (s.reg a * immW imm))
/-- ANDI (R167). -/
def execAndi (d a : Reg) (imm : BitVec 14) (s : State) : Out := .next (s.result 1 d (s.reg a &&& immW imm))
/-- ORI (R167). -/
def execOri (d a : Reg) (imm : BitVec 14) (s : State) : Out := .next (s.result 1 d (s.reg a ||| immW imm))
/-- XORI (R167). -/
def execXori (d a : Reg) (imm : BitVec 14) (s : State) : Out := .next (s.result 1 d (s.reg a ^^^ immW imm))
/-- SLTI (R167). -/
def execSlti (d a : Reg) (imm : BitVec 14) (s : State) : Out := .next (s.result 1 d (boolWord ((s.reg a).slt (immW imm))))
/-- SLTUI (R167). -/
def execSltui (d a : Reg) (imm : BitVec 14) (s : State) : Out := .next (s.result 1 d (boolWord ((s.reg a).ult (immW imm))))
/-- SEQI (R167). -/
def execSeqi (d a : Reg) (imm : BitVec 14) (s : State) : Out := .next (s.result 1 d (boolWord (s.reg a == immW imm)))
/-- SHLI (R167). -/
def execShli (d a : Reg) (n : BitVec 6) (s : State) : Out := .next (s.result 1 d (s.reg a <<< n.toNat))
/-- SHRI (R167). -/
def execShri (d a : Reg) (n : BitVec 6) (s : State) : Out := .next (s.result 1 d (s.reg a >>> n.toNat))
/-- SARI (R167). -/
def execSari (d a : Reg) (n : BitVec 6) (s : State) : Out := .next (s.result 1 d ((s.reg a).sshiftRight n.toNat))
/-- ROTI (R167). -/
def execRoti (d a : Reg) (n : BitVec 6) (s : State) : Out := .next (s.result 1 d ((s.reg a).rotateLeft n.toNat))
/-- ADDL (R167): three parcels. -/
def execAddl (d a : Reg) (k : Word) (s : State) : Out := .next (s.result 3 d (s.reg a + k))
/-- ANDL (R167): three parcels. -/
def execAndl (d a : Reg) (k : Word) (s : State) : Out := .next (s.result 3 d (s.reg a &&& k))
/-- ORL (R167): three parcels. -/
def execOrl (d a : Reg) (k : Word) (s : State) : Out := .next (s.result 3 d (s.reg a ||| k))
/-- XORL (R167): three parcels. -/
def execXorl (d a : Reg) (k : Word) (s : State) : Out := .next (s.result 3 d (s.reg a ^^^ k))

/-! ### Predicates (R168) -/

/-- PCMP (R168). -/
def execPcmp (c : PCond) (pd : PReg) (a b : Reg) (s : State) : Out :=
  .next (s.onMe fun x => (x.setPrd pd (PCond.holds c (x.reg a) (x.reg b))).advance 1)
/-- PCMPI (R168). -/
def execPcmpi (c : PICond) (pd : PReg) (a : Reg) (imm : BitVec 14) (s : State) : Out :=
  .next (s.onMe fun x => (x.setPrd pd (PICond.holds c (x.reg a) (immW imm))).advance 1)
/-- PLOG (R168). -/
def execPlog (op : PlogOp) (pd pa pb : PReg) (s : State) : Out :=
  .next (s.onMe fun x => (x.setPrd pd (PlogOp.result op (x.prd pa) (x.prd pb))).advance 1)
/-- SELP (R168). -/
def execSelp (d a b : Reg) (p : PReg) (s : State) : Out :=
  .next (s.result 1 d (if s.prd p then s.reg a else s.reg b))
/-- PGET (R168): p0 reads 1. -/
def execPget (d : Reg) (s : State) : Out := .next (s.result 1 d ((s.me.p ||| 1).setWidth 64))
/-- PPUT (R168): p0 is unchanged. -/
def execPput (a : Reg) (s : State) : Out :=
  .next (s.onMe fun x => { x with p := ((x.reg a).setWidth 8 &&& 0xFE) ||| (x.p &&& 1) }.advance 1)
/-- NOP (R192). -/
def execNop (s : State) : Out := .next (s.goOn 1)

/-! ### Branches (R169 to R171) -/

/-- BEQ (R169). -/
def execBeq (a b : Reg) (off : BitVec 14) (s : State) : Out := .next (s.branch (s.reg a == s.reg b) off)
/-- BNE (R169). -/
def execBne (a b : Reg) (off : BitVec 14) (s : State) : Out := .next (s.branch (s.reg a != s.reg b) off)
/-- BLT (R169). -/
def execBlt (a b : Reg) (off : BitVec 14) (s : State) : Out := .next (s.branch ((s.reg a).slt (s.reg b)) off)
/-- BGE (R169). -/
def execBge (a b : Reg) (off : BitVec 14) (s : State) : Out := .next (s.branch (!(s.reg a).slt (s.reg b)) off)
/-- BLTU (R169). -/
def execBltu (a b : Reg) (off : BitVec 14) (s : State) : Out := .next (s.branch ((s.reg a).ult (s.reg b)) off)
/-- BGEU (R169). -/
def execBgeu (a b : Reg) (off : BitVec 14) (s : State) : Out := .next (s.branch (!(s.reg a).ult (s.reg b)) off)
/-- BP (R169). -/
def execBp (p : PReg) (off : BitVec 14) (s : State) : Out := .next (s.branch (s.prd p) off)
/-- BNP (R169). -/
def execBnp (p : PReg) (off : BitVec 14) (s : State) : Out := .next (s.branch (!s.prd p) off)
/-- LOOP (R170). A counter of 0 falls through and writes nothing. -/
def execLoop (a : Reg) (off : BitVec 14) (s : State) : Out :=
  let t := s.reg a
  if t = 0 then .next (s.goOn 1)
  else .next (s.onMe fun c =>
    let c := c.setReg a (t - 1)
    if t - 1 = 0 then c.advance 1 else { c with pc := branchTarget c.pc off })
/-- JAL (R171). -/
def execJal (a : Reg) (off : BitVec 14) (s : State) : Out :=
  .next (s.onMe fun c => { c.setReg a ((c.pc + 4).setWidth 64) with pc := branchTarget c.pc off })
/-- JR (R171): BAD-TARGET on a misaligned or out-of-range target, with nothing written. -/
def execJr (d a : Reg) (s : State) : Out :=
  let t := s.reg a
  if bits t 1 0 ≠ 0 || bits t 63 16 ≠ 0 then .next (s.trap codeBadTarget t)
  else .next (s.onMe fun c => { c.setReg d ((c.pc + 4).setWidth 64) with pc := t.setWidth 16 })

end Sys2Proof.Machine
end

