-- ==== Sys2Proof/Machine/Power.lean ====
section
/-! DEFINITION. Power and its measurement: EMASK (R22, R310, R376), droop (R311), voltage (R157, R375, R376), the package
backstop (R377), energy (R378), PC samples (R379, R380), the clock source (R381), and the vaults' error registers and
scrubber (R263, R264). -/

namespace Sys2Proof.Machine

/-! ### Masks (R22, R310, R311) -/

/-- EMASK_APPLY (R22): at a wrap of the slot pointer a region's mask becomes what is in force. -/
def execEmaskApply (cl rid : Nat) (s : State) : Out :=
  let g := s.region cl rid
  if g.rstate ≠ .idle && s.slot = 0 then .next (s.updRegion cl rid fun g => { g with emask := s.emaskOf cl g }) else .next s

/-- Change every region of a pair. -/
def State.mapPair (s : State) (pair : Nat) (f : Nat → Region → Region) : State :=
  let on (s : State) (cl : Nat) : State := s.updCluster cl fun c => { c with regions := tmap {} (fun _ g => f cl g) c.regions }
  on (on s (2 * pair)) (2 * pair + 1)

/-- The slots that a region plays under PWR and ARB. -/
def State.playsUnder (s : State) (pair : Nat) (g : Region) (arb : BitVec 16) : BitVec 16 :=
  g.slots &&& ~~~ (pwrFor (s.pwrOf pair) g.slots ||| arb)

/-- R310: one more ARB bit for a region of the heavier stratum. -/
def State.arbSet (s : State) (pair : Nat) (g : Region) : Region :=
  match lowest 16 (s.playsUnder pair g g.arb).getLsbD with
  | some i =>
    let arb := setBit g.arb i true
    if popcount g.slots ≤ 2 * popcount (s.playsUnder pair g arb) then { g with arb := arb } else g
  | none => g
/-- R310: the highest ARB bit cleared. -/
def Region.arbClear (g : Region) : Region :=
  match highest 16 g.arb.getLsbD with
  | some i => { g with arb := setBit g.arb i false }
  | none => g

/-- ARBITER_WINDOW (R310, R312): the stratum currents are not stated; each is free, and at least 1 (DESIGN CHOICE, log 10). -/
def execArbiterWindow (pair : Nat) (s : State) : Out :=
  let lower := Config.stratumCurrent s.fresh + 1
  let upper := Config.stratumCurrent (s.fresh + 1) + 1
  let heavy := lower < upper
  let ih := max lower upper
  let il := min lower upper
  let s := ({ s with fresh := s.fresh + 2 } : State).updPair pair fun p => { p with
    heavy := heavy, imbal := BitVec.ofNat 8 (min 255 (256 * (ih - il) / il)) }
  if 110 * il < 100 * ih then
    let top := 2 * pair + b2n heavy
    .next (s.mapPair pair fun cl g => if cl = top && g.rstate = .run then s.arbSet pair g else g)
  else if 100 * ih ≤ 105 * il then .next (s.mapPair pair fun _ g => g.arbClear)
  else .next s

/-- DROOP (R311): every region of the pair plays only E, at once, for at least 64 cycles (log 25). -/
def execDroop (pair : Nat) (s : State) : Out :=
  let s := s.updPair pair fun p => { p with drp := true, drpEnd := s.cycle + 65, drpClear := false, drpcnt := satInc p.drpcnt }
  .next (s.mapPair pair fun _ g => { g with emask := BitVec.allOnes 16 })

/-- DROOP_HOLD_END (R311): DRP becomes 0 at the next wrap. -/
def execDroopHoldEnd (pair : Nat) (s : State) : Out :=
  if (s.pair pair).drp && (s.pair pair).drpEnd < s.cycle then .next (s.updPair pair fun p => { p with drpClear := true }) else .next s

/-! ### Voltage (R157, R375, R376) -/

/-- Is there a region on a pair that still replays for cause TIMING: in REPLAY for the rail, or in RUN and not yet past its
next restart point (R157)? -/
def State.replaying (s : State) (pair : Nat) : Bool :=
  [2 * pair, 2 * pair + 1].any fun cl => (List.range 64).any fun rid =>
    let g := s.region cl rid
    g.rstate == .replay && g.settleFor || g.rstate == .run && g.overAgain

/-- OVERRUN_HOLD_END (R157): the hold ends, and the voltage goes back to what is demanded; not while a region of the pair has
its replay before it or under way ("at least 2^20 cycles"; log 25). -/
def execOverrunHoldEnd (pair : Nat) (s : State) : Out :=
  if (s.pair pair).hold && (s.pair pair).holdEnd.any (· ≤ s.cycle) && !s.replaying pair then
    .next ((s.updPair pair fun p => { p with hold := false, holdV := 0, holdEnd := none }).retarget pair)
  else .next s

/-- VREQ_WRITE (R375, R376): firmware's write of PAIRV. -/
def execVreqWrite (pair : Nat) (v : Word) (s : State) : Out :=
  .next ((s.updPair pair fun p => { p with
    vreq := BitVec.ofNat 10 (min 800 (max 600 (bits v 31 22))), pwrmask := v.setWidth 16 }).retarget pair)

/-! ### The backstop (R377) -/

/-- BACKSTOP_WINDOW (R377). -/
def execBackstopWindow (s : State) : Out :=
  if s.pkglim < s.pkgpwr then
    match lowest 15 fun i => !maskBit s.bkmask i with
    | some i => .next { s with bkmask := setBit s.bkmask i true, bkwin := satInc s.bkwin }
    | none => .next s
  else if 100 * s.pkgpwr.toNat < 95 * s.pkglim.toNat then
    match highest 16 s.bkmask.getLsbD with
    | some i => .next { s with bkmask := setBit s.bkmask i false }
    | none => .next s
  else .next s

/-- PEAK_CLEAR (R377). -/
def execPeakClear (s : State) : Out := .next { s with peak := 0 }

/-! ### Energy (R378) -/

/-- One window's charge, in units of 2^−32 nJ, on a context. MW is the power that the charge makes over the window. -/
def CueCtx.charge (c : CueCtx) (fast : Bool) (e : Nat) : CueCtx :=
  let n := c.ecnt.toNat + (c.efrac + e) / 2 ^ 32
  { c with
    ecnt := if n < 2 ^ 48 then BitVec.ofNat 48 n else BitVec.allOnes 48
    esat := c.esat || 2 ^ 48 ≤ n
    efrac := (c.efrac + e) % 2 ^ 32
    mw := BitVec.ofNat 32 (e * (if fast then 2343750 else 1171875) / (2 ^ 32 * 1000000)) }

/-- The cue contexts of a cluster that are not IDLE. -/
def State.heldContexts (s : State) (cl : Nat) : Nat := ((List.range 4).filter fun k => (s.ctx cl k).kstate != .idle).length

/-- R378: the static share of a context in units of 2^−32 nJ: the cluster's static power over the 256 cycles of the window, at
600 or 300 MHz, divided equally (what lies below 2^−32 nJ is dropped: DESIGN CHOICE, log 10). -/
def State.staticShare (s : State) (cl : Nat) : Nat :=
  let mhz := if (s.die (dieOf cl)).fast then 600 else 300
  Config.staticPower cl s.cycle * 256 * 2 ^ 32 / (mhz * s.heldContexts cl)

/-- ENERGY_WINDOW (R378): the estimator charges each cue context of a cluster that holds a take and is not SAVED: its dynamic
energy, which is free (log 10), and its static share. -/
def execEnergyWindow (cl : Nat) (s : State) : Out :=
  let fast := (s.die (dieOf cl)).fast
  let share := s.staticShare cl
  let one (s : State) (k : Nat) : State :=
    if (s.ctx cl k).free then s
    else ({ s with fresh := s.fresh + 1 } : State).updCtx cl k fun c => c.charge fast (Config.windowEnergy s.fresh + share)
  .next ((List.range 4).foldl one s)

/-! ### PC samples (R379, R380) -/

/-- A sample's words. -/
def State.sample (s : State) (cl k : Nat) : List Word :=
  let c := s.ctx cl k
  let r := (s.regionsOf cl c.take).find? fun x => x.2.rstate == .run
  let rid := match r with
    | some x => x.1
    | none => 0
  let cnt := match r with
    | some x => x.2.cnt.toNat
    | none => 0
  [at_ (c.take % 2 ^ 32) 32 ||| at_ (cl % 256) 24 ||| at_ (k % 4) 22 ||| at_ rid 16 ||| c.pc.setWidth 64,
   flag r.isSome 63 ||| at_ cnt 48 ||| c.mw.setWidth 64]

/-- PC_SAMPLE (R379, R380). -/
def execPcSample (cl k : Nat) (s : State) : Out :=
  let c := s.ctx cl k
  match s.take? c.take with
  | none => .next s
  | some t =>
    if c.kstate = .run || c.kstate = .wait || c.kstate = .trap then
      let f := s.fn t.fn
      let size := 256 * 2 ^ f.psz2.toNat
      let lost := s.updFn t.fn fun f => { f with pslost := satInc f.pslost }
      match (if f.psbase = 0 || !f.psen || (f.pshead - f.pstail).toNat = size then none else s.refKey t.fn f.psbase) with
      | some _ =>
        .next ((s.refWrite t.fn f.psbase (16 * (f.pshead.toNat % size)) ((s.sample cl k).flatMap wordBytes)).updFn t.fn fun f => { f with pshead := f.pshead + 1 })
      | none => .next lost
    else .next s

/-! ### The clock source (R311, R381) -/

/-- CLOCK_SOURCE_CHANGE (R381): the move to 600 MHz, deferred while DRP is set on a pair of the die. -/
def execClockSourceChange (die : Nat) (s : State) : Out :=
  if (s.die die).st ≠ .full then .next s
  else if (List.range 32).any fun i => (s.pair (32 * die + i)).drp then .next (s.updDie die fun d => { d with deferred := true })
  else .next (s.updDie die fun d => { d with fast := true, deferred := false })

/-! ### Vault errors (R263, R264) -/

/-- A bank that is marked or unmarked (R263): where what it holds differs from what the codes give, reads give the other. -/
def State.exchange (s : State) (x : Nat × Option Byte) : State :=
  match x.2 with
  | some b => { s with mem := tput 0 s.mem x.1 b, hid := tput none s.hid x.1 (some (s.byte x.1)) }
  | none => s

/-- VBFAIL_WRITE (R263): ignored when it would mark more than two banks of one group, check banks counted. -/
def execVbfailWrite (cl : Nat) (v : Word) (s : State) : Out :=
  let marks (l : List Nat) : Nat := (l.filter fun b => bit v b).length
  let group (g : Nat) : List Nat := (List.range 16).map (16 * g + ·) ++ [32 + 2 * g, 33 + 2 * g]
  if 2 < marks (group 0) || 2 < marks (group 1) then .next s
  else
    let n := s.updCluster cl fun c => { c with vbfail := v.setWidth 36 }
    .next ((s.hid.filter fun x => isVault x.1 && vaultCl x.1 == cl && s.erasedAt x.1 != n.erasedAt x.1).foldl State.exchange n)

/-- VERR_CLEAR (R263). -/
def execVerrClear (cl : Nat) (v : Word) (s : State) : Out :=
  .next (s.updCluster cl fun c =>
    let a := if bit v 63 then c.verr &&& ~~~ (flag true 63 ||| at_ 0xFFFF 0) else c.verr
    { c with verr := if bit v 62 then a &&& ~~~ (flag true 62 ||| at_ 0xFFFF 16) else a })

/-- The numbers of the words of a stripe, its check slices included, with their banks. -/
def stripeWords (cl stripe : Nat) : List (Nat × Nat) :=
  let g := stripe % 2
  ((List.range 32).map fun i => (errIdx (vaultKey cl (256 * stripe + 8 * i)), 16 * g + i / 2))
    ++ (List.range 4).map fun i => (chkIdx cl stripe (i / 2) (i % 2), 32 + 2 * g + i / 2)

/-- PATROL_SCRUB (R264): a stripe is read, and its corrected words are written back; writes skip a failed bank. An
uncorrectable stripe is reported to firmware and left. -/
def execPatrolScrub (cl stripe : Nat) (s : State) : Out :=
  let a := vaultKey cl (256 * stripe)
  if s.stripeBad cl stripe then
    .next (((s.noteErr true a 256).errorIrq (dieOf cl)).elog (dieOf cl) cl 0 (ueInfo s a 256))
  else
    let l := (stripeWords cl stripe).filter fun x => s.err x.1 != .none && !maskBit (s.cluster cl).vbfail x.2
    if l.isEmpty then .next s
    else
      let s := s.updCluster cl fun c => { c with verr := l.foldl (fun v x => verrRecord v false x.2 stripe) c.verr }
      .next { s with
        errs := l.foldl (fun e x => tput .none e x.1 .none) s.errs
        -- a word that the symbol code has corrected, of a check slice too, holds what the code gives
        hid := s.hid.filter fun x =>
          let i := if isVault x.1 then errIdx x.1 else x.1
          !(s.err i == .double && l.any fun y => y.1 == i) }

end Sys2Proof.Machine
end

