-- ==== Sys2Proof/Machine/Boot.lean ====
section
/-! DEFINITION. Boot and attestation (R381, R383 to R385), and the mailbox commands of the stage managers and the root
steward (R382). -/

namespace Sys2Proof.Machine

/-! ### Measurements (R384) -/

/-- The bytes of a measurement register, most significant first. -/
def mregBytes (m : BitVec 384) : List Byte := Sha.bigBytes 48 m.toNat
/-- MREG ← SHA-384(MREG ‖ d). -/
def extendMreg (m : BitVec 384) (d : List Byte) : BitVec 384 := BitVec.ofNat 384 (Sha.bigEndian (sha384 (mregBytes m ++ d)))
def Steward.extend (w : Steward) (i : Nat) (d : List Byte) : Steward :=
  { w with mreg := Vector.ofFn fun (j : Fin 8) => if j.val = i then extendMreg w.mreg[j] d else w.mreg[j] }

/-! ### Power-on and images (R46, R383, R384, R385) -/

/-- POWER_ON (R46, R383): every state at its reset value, and the steward in ROM. What the host's memory holds is outside
the package. -/
def execPowerOn (s : State) : Out :=
  .next { State.reset with
    mem := s.mem.filter fun c => isHost c.1
    steward := { rev := s.steward.rev }
    fresh := s.fresh, outbox := s.outbox }

/-- FCAUSE of an image (R385): 0 when it may be released. Whether signatures verify is free (log 12). -/
def imageCause (keys image : List Byte) : Nat :=
  if !Config.imageWellFormed image then 4
  else if !Config.keyInSet keys image then 5
  else
    match Config.rsaVerifies keys image, Config.slhVerifies keys image with
    | true, true => 0
    | false, true => 1
    | true, false => 2
    | false, false => 3

/-- The steward verifies the image of the phase it is in (R383): released, with its digest measured, or the boot stops.
When the last image is released the boot is done and every die's self-test begins. -/
def State.takeImage (s : State) (image : List Byte) : State :=
  let w := s.steward
  if 1 ≤ w.phase.toNat && w.phase.toNat ≤ 4 then
    match imageCause w.keys image with
    | 0 =>
      let s := { s with steward := { w.extend w.phase.toNat (sha384 image) with phase := w.phase + 1 } }
      if w.phase = 4 then (List.range 4).foldl (fun s d => s.updDie d fun x => { x with st := .selftest }) s else s
    | c => { s with steward := { w with phase := 15, fcause := BitVec.ofNat 4 c } }
  else s

/-- The steward takes the owner key set, and its digest is measured. -/
def State.takeKeys (s : State) (b : List Byte) : State :=
  if s.steward.phase = 0 then { s with steward := { s.steward.extend 0 (sha384 b) with keys := b, phase := 1 } } else s

/-- IMAGE_SUPPLY (R383, R384): the key set that the boot begins with, an image, or the digest that a released stage manager
supplies for MREG5 to MREG7. -/
def execImageSupply (x : Supply) (s : State) : Out :=
  match x with
  | .keySet b => .next (s.takeKeys b)
  | .image b => .next (s.takeImage b)
  | .digest i d =>
    if 5 ≤ i && i ≤ 7 && s.dies.any fun x => x.2.st != .reset then
      .next { s with steward := s.steward.extend i (mregBytes d) }
    else .next s

/-- SELFTEST_DONE (R381). -/
def execSelftestDone (die : Nat) (ok : Bool) (s : State) : Out :=
  if (s.die die).st = .selftest then .next (s.updDie die fun d => { d with st := if ok then .reduced else .failed }) else .next s

/-- HBM_TRAINED (R381): full service; the move to 600 MHz follows. -/
def execHbmTrained (die : Nat) (s : State) : Out :=
  if (s.die die).st = .reduced then .next ((s.updDie die fun d => { d with st := .full }).postDev (.clockSourceChange die)) else .next s

/-! ### Mailboxes (R382). The RES codes of refused commands are DEDUCED, log 26. -/

def Mailbox.arg (b : Mailbox) (i : Nat) : Word := b.args.toList.getD i 0
/-- A command completes with a result code, and results in the first arguments. -/
def Mailbox.done (b : Mailbox) (res : Nat) (out : List Word) : Mailbox :=
  { b with
    args := Vector.ofFn fun (i : Fin 8) => out.getD i.val b.args[i]
    busy := false, res := BitVec.ofNat 8 res, lcmd := b.cmd }
/-- Writing GO submits a command, unless one is running. -/
def Mailbox.go (b : Mailbox) (fn : Nat) (cmd : BitVec 8) : Mailbox := if b.busy then b else { b with busy := true, cmd := cmd, fn := fn }
def Mailbox.runs (b : Mailbox) (cmd : Nat) : Bool := b.busy && b.cmd.toNat == cmd

def resBadarg : Nat := 2
def resDenied : Nat := 3
def resState : Nat := 4

def State.stageDone (s : State) (die res : Nat) (out : List Word) : State := s.updDie die fun d => { d with box := d.box.done res out }
def State.rootDone (s : State) (res : Nat) (out : List Word) : State := { s with steward := { s.steward with box := s.steward.box.done res out } }

/-- Is the stage manager of a die released, and does its mailbox run the command? -/
def State.stageRuns (s : State) (die cmd : Nat) : Bool := (s.die die).st != .reset && (s.die die).box.runs cmd

/-- READPLOT (R316, R382). -/
def execReadplot (die : Nat) (s : State) : Out :=
  if !s.stageRuns die 1 then .next s
  else
    let b := (s.die die).box
    match s.take? (b.arg 0).toNat with
    | none => .next (s.stageDone die resBadarg [])
    | some t =>
      match t.tensors.find? fun x => x.1 == (b.arg 1).toNat with
      | some x =>
        if (b.arg 2).toNat < x.2.np then .next (s.stageDone die 0 [x.2.entry (b.arg 2).toNat]) else .next (s.stageDone die resBadarg [])
      | none => .next (s.stageDone die resBadarg [])

/-- The frames of a stack. -/
def stackFrames : Nat := 786432

/-- The parts of pools that lie in a stack, as base frame and frames, but for one function's. -/
def State.poolParts (s : State) (fn stack : Nat) : List (Nat × Nat) :=
  s.fns.filterMap fun x =>
    if x.1 = fn || x.2.psz.toNat < 30 then none
    else (x.2.pbase[stack]?).map fun b => (b.toNat, 2 ^ (x.2.psz.toNat - 3) / frameBytes)

/-- A base frame for `n` free frames in a row: any that fits, by a free choice (R362). -/
def chooseBase (pick : Nat) (parts : List (Nat × Nat)) (n : Nat) : Option Nat :=
  let starts := 0 :: parts.map fun p => p.1 + p.2
  let gap (a : Nat) : Nat := parts.foldl (fun m p => if a < p.1 + p.2 && p.1 < m then max p.1 a else m) stackFrames - a
  let fit := starts.filter fun a => n ≤ gap a
  (fit[pick % fit.length]?).map fun a => a + pick / fit.length % (gap a - n + 1)

/-- The eight bases of a pool of 2^psz bytes; none when a stack lacks the frames. -/
def State.chooseBases (s : State) (fn psz : Nat) : Option (List (BitVec 20)) :=
  (List.range 8).mapM fun st =>
    (chooseBase (Config.freeChoice (s.fresh + st)) (s.poolParts fn st) (2 ^ (psz - 3) / frameBytes)).map (BitVec.ofNat 20)

/-- SETFN (R362, R363, R367, R382). -/
def execSetfn (die : Nat) (s : State) : Out :=
  if !s.stageRuns die 2 then .next s
  else
    let b := (s.die die).box
    let fn := 32 * bits (b.arg 0) 4 4 + bits (b.arg 0) 3 0
    let psz := (b.arg 2).toNat
    let clset : BitVec 256 := BitVec.ofNat 256 ((List.range 4).foldl (fun n i => n + (b.arg (3 + i)).toNat * 2 ^ (64 * i)) 0)
    if s.takes.any fun t => t.fn == fn then .next (s.stageDone die resState [])
    else
      let set (s : State) (bases : List (BitVec 20)) : State :=
        (s.updFn fn fun f => { f with
          lslim := (b.arg 1).setWidth 32, psz := BitVec.ofNat 8 psz, pbase := bases, clset := clset }).stageDone die 0
          ((List.range 8).map fun i => (bases.getD i 0).setWidth 64)
      if psz = 0 then .next (set s [])
      else if psz < 30 || 36 < psz then .next (s.stageDone die resBadarg [])
      else
        match s.chooseBases fn psz with
        | some l => .next (set { s with fresh := s.fresh + 8 } l)
        | none => .next ({ s with fresh := s.fresh + 8 }.stageDone die resBadarg [])

/-- RECALL (R322, R382): the recall of a vault or HBM plot of a running take. -/
def execRecall (die : Nat) (s : State) : Out :=
  if !s.stageRuns die 3 then .next s
  else
    let b := (s.die die).box
    match s.take? (b.arg 0).toNat with
    | none => .next (s.stageDone die resBadarg [])
    | some t =>
      let tid := (b.arg 1).toNat
      let ten := t.tensor tid
      if !t.placed then .next (s.stageDone die resState [])
      else if 2 ≤ ten.res || !entryV (ten.entry (b.arg 2).toNat) then .next (s.stageDone die resBadarg [])
      else .next ((s.recallPlot t.id tid (b.arg 2).toNat).stageDone die 0 [])

def TState.code : TState → Nat
  | .queued => 0 | .ready => 1 | .running => 2 | .frozen => 3 | .saved => 4 | .ending => 5

/-- TAKEST (R382). -/
def execTakest (die : Nat) (s : State) : Out :=
  if !s.stageRuns die 4 then .next s
  else
    match s.take? ((s.die die).box.arg 0).toNat with
    | none => .next (s.stageDone die resBadarg [])
    | some t => .next (s.stageDone die 0 [BitVec.ofNat 64 t.st.code])

/-- Is a reference one that names memory? -/
def State.namesMem (s : State) (fn : Nat) (r : Word) : Bool := r != 0 && (s.refKey fn r).isSome

/-- LOADIMG (R382, R383): the host supplies the key set when the boot has not begun, and then the images. -/
def execLoadimg (s : State) : Out :=
  let b := s.steward.box
  if !b.runs 0x10 then .next s
  else if 4 < s.steward.phase.toNat then .next (s.rootDone resState [])
  else if !s.namesMem b.fn (b.arg 0) then .next (s.rootDone resBadarg [])
  else
    match s.refRead b.fn (b.arg 0) 0 (b.arg 1).toNat 0 0 with
    | (s, none) => .next (s.rootDone resBadarg [])
    | (s, some image) =>
      let s := if s.steward.phase = 0 then s.takeKeys image else s.takeImage image
      .next (s.rootDone (if s.steward.phase = 15 then resDenied else 0) [])

/-- The text that the signatures of a quote cover (R384). -/
def State.quoteText (s : State) (nonce : List Byte) : List Byte :=
  ((List.range 16).map (Config.quoteHeader s.pkgId)) ++ s.steward.mreg.toList.flatMap mregBytes ++ nonce

/-- QUOTE (R384): the text, and 384 and 16,224 bytes of signatures (log 12, 26). -/
def execQuote (s : State) : Out :=
  let b := s.steward.box
  if !b.runs 0x11 then .next s
  else if !s.namesMem b.fn (b.arg 0) || !s.namesMem b.fn (b.arg 1) then .next (s.rootDone resBadarg [])
  else
    match s.refRead b.fn (b.arg 0) 0 32 0 0 with
    | (s, none) => .next (s.rootDone resBadarg [])
    | (s, some nonce) =>
      let text := s.quoteText nonce
      let quote := text ++ (List.range (384 + 16224)).map (Config.signatureByte text)
      .next ((s.refWrite b.fn (b.arg 1) 0 quote).rootDone 0 [BitVec.ofNat 64 quote.length])

/-- EXTEND (R384): registers 5 to 7. -/
def execExtend (s : State) : Out :=
  let b := s.steward.box
  let i := (b.arg 0).toNat
  if !b.runs 0x12 then .next s
  else if i < 5 || 7 < i || !s.namesMem b.fn (b.arg 1) then .next (s.rootDone resBadarg [])
  else
    match s.refRead b.fn (b.arg 1) 0 48 0 0 with
    | (s, none) => .next (s.rootDone resBadarg [])
    | (s, some d) => .next (({ s with steward := s.steward.extend i d } : State).rootDone 0 [])

end Sys2Proof.Machine
end

