-- ==== Sys2Proof/Machine/Save.lean ====
section
/-! DEFINITION. What a take holds on its clusters: the shares of its logical clusters (R45, R302, R305), the save image
(R306), the fault record (R338, R339), and the release of cluster resources. -/

namespace Sys2Proof.Machine

/-! ### Shares (R45) -/

/-- A context at rest: an instruction that waits or is stalled stands at its own address (R163); MON is invalid, and the
fraction of the energy estimator is not saved (R378). -/
def CueCtx.atRest (c : CueCtx) : CueCtx :=
  { c with
    wait := none, stall := none, mon := none, handler := false, retry := false, efrac := 0
    kstate := if c.kstate = .wait then (if c.handler then .trap else .run) else c.kstate }

/-- A region as it is saved: EMASK, the restart shadow and the ARB bits are not part of the image. -/
def Region.saved (g : Region) : Region :=
  { g with emask := 0, arb := 0, shadow := [], halting := false, moved := false, overAgain := false, lostOnce := false }

/-- The banks of a region's elements in the readout mask, by their place in the page set, without their entries. -/
def State.liveBanks (s : State) (cl : Nat) (g : Region) : List (Nat × Bank) :=
  g.els.zipIdx.filterMap fun (x : Nat × Nat) =>
    let b := s.bank cl (g.bankNo x.1)
    if b.live then some (x.2, { b with ents := [] }) else none

/-- Does a logical cluster hold unconsumed reservations or ACTIVE landing entries (R302, R307)? -/
def CopyEng.lands (c : CopyEng) (t : Take) : Bool :=
  c.rsvs.any (fun r => !r.lost) || c.ents.any fun x =>
    match t.sched[x.1]? with
    | some w => x.2.active && w.dst.kind == 2
    | none => false

/-- The share of a logical cluster (R302). -/
def State.share (s : State) (t : Take) (p : Place) : Share :=
  let c := s.cluster p.cl
  let banks := (List.range 256).filter fun b => s.holdsBank p.cl t.id p.k b
  let copy := s.copyOf p.cl t.id
  { lc := p.lc
    ctx := (s.ctx p.cl p.k).atRest
    regions := (s.regionsOf p.cl t.id).map fun x => (x.1, x.2.saved, s.liveBanks p.cl x.2)
    inp := p.inMap.map fun m => (m.1, s.inPort p.cl m.2.toNat)
    outp := p.outMap.map fun m => (m.1, { (s.outPort p.cl m.2.toNat) with closing := false })
    acc := banks.map fun b => (b, (List.range 512).map fun i => tget 0 c.acc (512 * b + i))
    mx := if c.mx.holder = some t.id then some c.mx else none
    copy := copy
    lands := copy.lands t
    cl := p.cl }

/-- The shares of a take: from its clusters, or from its save image. -/
def State.shares (s : State) (t : Take) : List Share :=
  match t.image with
  | some l => l
  | none => t.places.map (s.share t)

/-! ### The save image (R306) -/

def KState.code : KState → Nat
  | .idle => 0 | .run => 1 | .wait => 2 | .trap => 3 | .exited => 4 | .saved => 5
def RState.code : RState → Nat
  | .idle => 0 | .armed => 1 | .delay => 2 | .run => 3 | .frozen => 4 | .halted => 5 | .replay => 6

/-! Each field of a table stands in a word of its own, in the order of the table. What R306 does not say is DESIGN CHOICE,
log 11: the words of a field of several values (a buffer takes the words of its depth, TOKC one for each counter, a bank's
OWNER two), the order of the elements, regions, ports, banks and entries, and the words of what R45 saves and no table
lists, which follow the table's own. `words` gives the image of a value, and `back` the value with the words of an image
in place of its own. -/

/-- A list of a fixed number of words, the rest 0. -/
def padWords (n : Nat) (l : List Word) : List Word := (List.range n).map fun i => l.getD i 0

/-- Values that stand one after another, each with words of its own. -/
def backAll {α : Type} (words : α → List Word) (back : α → List Word → α) : List α → List Word → List α
  | [], _ => []
  | x :: t, w => back x (w.take (words x).length) :: backAll words back t (w.drop (words x).length)

/-- PEND (R153), and what else a pending result holds; empty as zeros. -/
def PendRes.words (p : PendRes) : List Word :=
  [p.result, p.wl.setWidth 64, p.route.setWidth 64, Machine.flag p.chain 0, p.xf.setWidth 64, p.tokc.setWidth 64, p.count.setWidth 64,
   Machine.flag p.flag.isSome 0, Machine.flag (p.flag.getD false) 0, p.bnd.setWidth 64, p.stamp.setWidth 64]
def PendRes.back (p : PendRes) (w : List Word) : PendRes :=
  let g (i : Nat) : Word := w.getD i 0
  { p with
    result := g 0, wl := (g 1).setWidth 3, route := (g 2).setWidth 6, chain := bit (g 3) 0, xf := (g 4).setWidth 4
    tokc := (g 5).setWidth 4, count := (g 6).setWidth 4, flag := if bit (g 7) 0 then some (bit (g 8) 0) else none
    bnd := (g 9).setWidth 4, stamp := (g 10).setWidth 12 }

/-- An operand buffer and its count (R12). -/
def bufWords (dep : BitVec 5) (l : List Word) : List Word := padWords dep.toNat l ++ [BitVec.ofNat 64 l.length]
def bufBack (dep : BitVec 5) (w : List Word) : List Word := w.take (min dep.toNat (w.getD dep.toNat 0).toNat)

/-- R12 without the entries, R153, and the tile header of R140. -/
def Bank.words (b : Bank) : List Word :=
  [b.l0, b.l1, b.l2, b.l3, flag b.f 0] ++ bufWords b.adep b.a ++ bufWords b.bdep b.b
    ++ [b.ol, b.xf.setWidth 64, b.tokc.setWidth 16 |>.setWidth 64, (b.tokc >>> 16).setWidth 16 |>.setWidth 64,
        (b.tokc >>> 32).setWidth 16 |>.setWidth 64, b.tokc >>> 48]
    ++ padWords 11 ((b.pend.map PendRes.words).getD []) ++ [b.dhdr, flag b.dv 0]
def Bank.back (b : Bank) (w : List Word) : Bank :=
  let g (i : Nat) : Word := w.getD i 0
  let n := b.adep.toNat
  let o := 7 + n + b.bdep.toNat
  { b with
    l0 := g 0, l1 := g 1, l2 := g 2, l3 := g 3, f := bit (g 4) 0
    a := bufBack b.adep ((w.drop 5).take (n + 1)), b := bufBack b.bdep ((w.drop (6 + n)).take (b.bdep.toNat + 1))
    ol := g o, xf := (g (o + 1)).setWidth 4
    tokc := at_ (bits (g (o + 2)) 15 0) 0 ||| at_ (bits (g (o + 3)) 15 0) 16 ||| at_ (bits (g (o + 4)) 15 0) 32
      ||| at_ (bits (g (o + 5)) 15 0) 48
    pend := b.pend.map fun p => p.back (w.drop (o + 6))
    dhdr := g (o + 17), dv := bit (g (o + 18)) 0 }

/-- R17, the state that a freeze has stopped the region in, 0 where none has, and whether it is in a hold (R44). -/
def Region.words (g : Region) : List Word :=
  [g.ii.setWidth 64, g.cnt.setWidth 64, g.iter.setWidth 64, g.ioff.setWidth 64, g.width.setWidth 64, g.soff.setWidth 64,
   g.rstamp.setWidth 64, g.riter.setWidth 64, BitVec.ofNat 64 g.rstate.code, BitVec.ofNat 64 ((g.was.map RState.code).getD 0), flag g.held 0]
def RState.ofCode (d : RState) (n : Nat) : RState :=
  match n with
  | 1 => .armed | 2 => .delay | 3 => .run | 4 => .frozen | 5 => .halted | _ => d
def Region.back (x : Region) (w : List Word) : Region :=
  let g (i : Nat) : Word := w.getD i 0
  { x with
    ii := (g 0).setWidth 13, cnt := (g 1).setWidth 12, iter := (g 2).setWidth 48, ioff := (g 3).setWidth 32
    width := (g 4).setWidth 6, soff := (g 5).setWidth 12, rstamp := (g 6).setWidth 12, riter := (g 7).setWidth 48
    rstate := x.rstate.ofCode (g 8).toNat
    was := if g 9 = 0 then none else some (RState.run.ofCode (g 9).toNat)
    held := bit (g 10) 0 }

/-- R194. -/
def RMark.words (m : RMark) : List Word := [m.n.setWidth 64, m.pc.setWidth 64, m.steps.setWidth 64, m.stage.setWidth 64]
def RMark.back (_ : RMark) (w : List Word) : RMark :=
  { n := (w.getD 0 0).setWidth 14, pc := (w.getD 1 0).setWidth 16, steps := (w.getD 2 0).setWidth 48, stage := (w.getD 3 0).setWidth 8 }
/-- A pending trap (R45, R165). -/
def Pend.words (p : Pend) : List Word := [BitVec.ofNat 64 p.code, p.info, p.info2]
def Pend.back (_ : Pend) (w : List Word) : Pend := { code := (w.getD 0 0).toNat, info := w.getD 1 0, info2 := w.getD 2 0 }

/-- The numbers of the system registers in the section of the cue context (R26); CYCLE and ECNT have a section of their own. -/
def sysNumbers : List Nat :=
  [0x000, 0x001, 0x002, 0x003, 0x004, 0x010, 0x011, 0x012, 0x013, 0x014, 0x018, 0x019] ++ (List.range 16).map (0x020 + ·)
    ++ (List.range 4).map (0x030 + ·) ++ [0x040, 0x041, 0x050] ++ (List.range 32).map (0x060 + ·) ++ [0x015]

/-- R23, R26, R194, and the pending traps; `sys` gives the system registers as they read. -/
def CueCtx.words (sys : Nat → Word) (c : CueCtx) : List Word :=
  c.s.toList ++ ((List.range 8).map fun i => flag (c.prd (BitVec.ofNat 3 i)) 0) ++ c.h.toList.map Handle.bits
    ++ [c.pc.setWidth 64, BitVec.ofNat 64 c.kstate.code] ++ sysNumbers.map sys
    ++ padWords 4 ((c.rmark.map RMark.words).getD []) ++ c.pend.flatMap Pend.words

/-- The handle of a value (R25). -/
def handleOf (v : Word) : Handle :=
  let node : Node := match bits v 45 44 with
    | 0 => .stream
    | 1 => .random
    | _ => .ordered
  match bits v 61 60 with
  | 1 => .tensor (v.setWidth 12)
  | 2 => .stream false node (v.extractLsb' 40 4) (v.setWidth 12)
  | 3 => .stream true node (v.extractLsb' 40 4) (v.setWidth 12)
  | _ => .empty

def KState.ofCode (d : KState) (n : Nat) : KState :=
  match n with
  | 1 => .run | 3 => .trap | 4 => .exited | _ => d

/-- The registers whose values other state gives are computed again. -/
def CueCtx.back (c : CueCtx) (w : List Word) : CueCtx :=
  let g (i : Nat) : Word := w.getD i 0
  let r (n : Nat) : Word := g (58 + sysNumbers.findIdx fun m => m == n)
  { c with
    s := Vector.ofFn fun (i : Fin 32) => g i.val
    p := (List.range 8).foldl (fun p i => setBit p i (i != 0 && bit (g (32 + i)) 0)) 0
    h := Vector.ofFn fun (i : Fin 16) => handleOf (g (40 + i.val))
    pc := (g 56).setWidth 16, kstate := c.kstate.ofCode (g 57).toNat
    aor := r 0x003, vbin := (r 0x004).setWidth 2, tvec := r 0x010, epc := r 0x011, ecause := r 0x012, einfo := r 0x013
    esave := r 0x014, fstat := (r 0x018).setWidth 3, steps := (r 0x041).setWidth 48, einfo2 := r 0x015
    rmark := c.rmark.map fun m => m.back (w.drop 126)
    pend := backAll Pend.words Pend.back c.pend (w.drop 130) }

/-- R30: the state of both kinds, NSEQ, the replay buffer of 2,048 tokens, and the two positions of each region. -/
def Binding.handle (b : Binding) : Word := (Handle.stream b.pat.dir b.node b.pat.port b.tid).bits
def InPort.words (p : InPort) : List Word :=
  [flag p.bound.isSome 0, (p.bound.map Binding.handle).getD 0, p.phase.setWidth 64, BitVec.ofNat 64 (p.got % 65536)]
    ++ padWords 2048 p.buf ++ p.cons.flatMap fun c => [BitVec.ofNat 64 c.rd, BitVec.ofNat 64 c.rptr]
/-- The pattern of a stream of a port, in a direction. -/
def Pattern.onto (p : Pattern) (out : Bool) (port : BitVec 4) : Pattern :=
  { p with w0 := (p.w0 &&& ~~~ at_ 31 59) ||| at_ port.toNat 60 ||| flag out 59 }
/-- A binding with the handle that an image gives it: node, direction, port and tensor. -/
def Binding.refer (b : Binding) : Handle → Binding
  | .stream out node port tid => { b with node := node, tid := tid, pat := b.pat.onto out port }
  | _ => b
/-- A port's binding as an image gives it: BSTATE, and the handle. What the handle does not hold the stage manager has kept. -/
def boundBack (b : Option Binding) (w : List Word) : Option Binding :=
  if w.getD 0 0 = 0 then none else b.map fun b => b.refer (handleOf (w.getD 1 0))
def InPort.back (p : InPort) (w : List Word) : InPort :=
  { p with
    bound := boundBack p.bound w, got := p.got / 65536 * 65536 + bits (w.getD 3 0) 15 0
    phase := (w.getD 2 0).setWidth 8, buf := (w.drop 4).take p.buf.length ++ p.buf.drop 2048
    cons := p.cons.zipIdx.map fun (c : Consumer × Nat) =>
      { c.1 with rd := (w.getD (2052 + 2 * c.2) 0).toNat, rptr := (w.getD (2053 + 2 * c.2) 0).toNat } }
/-- R30: CSEQ, HELD, and the tokens held. -/
def OutPort.words (p : OutPort) : List Word :=
  [flag p.bound.isSome 0, (p.bound.map Binding.handle).getD 0, p.phase.setWidth 64, p.cseq.setWidth 64, BitVec.ofNat 64 p.held.length]
    ++ p.held.map fun x => x.val
def OutPort.back (p : OutPort) (w : List Word) : OutPort :=
  { p with
    bound := boundBack p.bound w
    phase := (w.getD 2 0).setWidth 8, cseq := (w.getD 3 0).setWidth 16
    held := (p.held.take (w.getD 4 0).toNat).zipIdx.map fun (x : OutTok × Nat) => { x.1 with val := w.getD (5 + x.2) 0 } }

/-- A plane (R35): its 36 KiB of weight bits, the codes of the pinned tile packed row by row, and its fields. -/
def Plane.width (p : Plane) : Nat := (fmtOf p.fmt p.sub).width
def Plane.words (p : Plane) : List Word :=
  let n := (List.range p.pk).foldr (fun k v => (List.range p.pn).foldr (fun n v =>
    (tget 0 p.cells (256 * k + n)).toNat % 2 ^ p.width + 2 ^ p.width * v) v) 0
  ((List.range 4608).map fun i => BitVec.ofNat 64 (n / 2 ^ (64 * i)))
    ++ [p.pfmt.setWidth 64, BitVec.ofNat 64 p.pk, BitVec.ofNat 64 p.pn, flag p.pv 0]
def Plane.back (p : Plane) (w : List Word) : Plane :=
  let n := (w.take 4608).foldr (fun x v => x.toNat + 2 ^ 64 * v) 0
  let pk := (w.getD 4609 0).toNat
  let pn := (w.getD 4610 0).toNat
  let q := { p with pfmt := (w.getD 4608 0).setWidth 5, pk := pk, pn := pn, pv := bit (w.getD 4611 0) 0 }
  { q with cells := (List.range pk).foldl (fun t k => (List.range pn).foldl (fun t j =>
      tput 0 t (256 * k + j) (BitVec.ofNat 64 (n / 2 ^ (q.width * (pn * k + j)) % 2 ^ q.width))) t) [] }

/-- R35: a scale pointer record. -/
def ScaleRec.words (r : ScaleRec) : List Word :=
  [r.tid.setWidth 64, r.c0.setWidth 64, r.c1.setWidth 64, r.c2.setWidth 64, r.c3.setWidth 64]
def ScaleRec.back (_ : ScaleRec) (w : List Word) : ScaleRec :=
  let g (i : Nat) : Word := w.getD i 0
  { tid := (g 0).setWidth 12, c0 := (g 1).setWidth 32, c1 := (g 2).setWidth 32, c2 := (g 3).setWidth 32, c3 := (g 4).setWidth 32 }
def MxItem.words (i : MxItem) : List Word := [i.pc.setWidth 64, BitVec.ofNat 64 i.next]
def MxItem.back (i : MxItem) (w : List Word) : MxItem := { i with pc := (w.getD 0 0).setWidth 16, next := (w.getD 1 0).toNat }
/-- R35, and the queue with its interval indexes (R226). -/
def Mx.words (m : Mx) : List Word :=
  m.live.words ++ m.shadow.words ++ [m.mode.setWidth 64] ++ padWords 5 ((m.sca.map ScaleRec.words).getD [])
    ++ padWords 5 ((m.scb.map ScaleRec.words).getD []) ++ m.queue.flatMap MxItem.words
def Mx.back (m : Mx) (w : List Word) : Mx :=
  { m with
    live := m.live.back (w.take 4612), shadow := m.shadow.back ((w.drop 4612).take 4612), mode := (w.getD 9224 0).setWidth 32
    sca := m.sca.map fun r => r.back (w.drop 9225), scb := m.scb.map fun r => r.back (w.drop 9230)
    queue := backAll MxItem.words MxItem.back m.queue (w.drop 9235) }

/-- An entry (R37): state, completed bytes, last completed sector; then the rest of its status (R239). -/
def CopyEnt.words (x : CopyEnt) : List Word :=
  [match x.st with | .pending => 0 | .active => 1 | .done => 2 | .error => 3, x.doneb.setWidth 64,
   if x.doneb = 0 then BitVec.allOnes 64 else BitVec.ofNat 64 (cdiv x.doneb.toNat 4096 - 1),
   x.ecode.setWidth 64, flag x.sat 0, flag x.inv 0]
def CopyEnt.back (x : CopyEnt) (w : List Word) : CopyEnt :=
  let g (i : Nat) : Word := w.getD i 0
  { x with
    st := match (g 0).toNat with | 0 => .pending | 1 => .active | 2 => .done | _ => .error
    doneb := (g 1).setWidth 48, ecode := (g 3).setWidth 4, sat := bit (g 4) 0, inv := bit (g 5) 0 }
/-- A reservation (R247). -/
def Rsv.words (r : Rsv) : List Word :=
  [r.pkg.setWidth 64, r.cl.setWidth 64, r.z.setWidth 64, r.slot.setWidth 64, BitVec.ofNat 64 r.size]
def Rsv.back (r : Rsv) (w : List Word) : Rsv :=
  let g (i : Nat) : Word := w.getD i 0
  { r with pkg := (g 0).setWidth 12, cl := (g 1).setWidth 8, z := (g 2).setWidth 3, slot := (g 3).setWidth 6, size := (g 4).toNat }
/-- R37 with the `n` entries of the take's schedule, and the reservation queue (R257). -/
def CopyEng.words (n : Nat) (c : CopyEng) : List Word :=
  c.stage.setWidth 64 :: ((List.range n).flatMap fun e => (tget {} c.ents e).words) ++ [c.sseq, c.redop.setWidth 64]
    ++ c.rsvs.flatMap Rsv.words
def CopyEng.back (n : Nat) (c : CopyEng) (w : List Word) : CopyEng :=
  { c with
    stage := (w.getD 0 0).setWidth 8
    ents := (List.range n).foldl (fun t e => tupd {} t e fun x => x.back (w.drop (1 + 6 * e))) c.ents
    sseq := w.getD (1 + 6 * n) 0, redop := (w.getD (2 + 6 * n) 0).setWidth 4
    rsvs := backAll Rsv.words Rsv.back c.rsvs (w.drop (3 + 6 * n)) }

/-- A held bank (R33): contents, HELD, OWNER; its number comes first. -/
def bankWords (take k : Nat) (b : Nat × List (BitVec 32)) : List Word :=
  BitVec.ofNat 64 b.1 :: b.2.map (fun w => w.setWidth 64) ++ [1, BitVec.ofNat 64 take, BitVec.ofNat 64 k]
def bankBack (b : Nat × List (BitVec 32)) (w : List Word) : Nat × List (BitVec 32) :=
  (b.1, ((w.drop 1).take 512).map fun v => v.setWidth 32)

/-- The sections of a share, by kind. -/
def Share.sections (x : Share) (nsched k : Nat) (sys : Nat → Word) : List (Nat × List Word) :=
  [(1, x.regions.flatMap fun r => r.2.2.flatMap fun b => b.2.words), (2, x.regions.flatMap fun r => r.2.1.words), (3, x.ctx.words sys),
   (4, (x.inp.flatMap fun p => p.2.words) ++ x.outp.flatMap fun p => p.2.words),
   (5, x.acc.flatMap (bankWords x.ctx.take k))]
    ++ (match x.mx with
        | some m => [(6, m.words)]
        | none => [])
    ++ [(7, x.copy.words nsched), (8, [x.ctx.cyc, flag x.ctx.esat 63 ||| x.ctx.ecnt.setWidth 64])]

/-- The words of a section by its kind. -/
def sectionOf (l : List (Nat × List Word)) (kind : Nat) : List Word := ((l.find? fun x => x.1 == kind).map (·.2)).getD []

/-- Write the sections back over a share (R307). -/
def Share.back (x : Share) (nsched : Nat) (l : List (Nat × List Word)) : Share :=
  let w := sectionOf l
  let inLen := (x.inp.flatMap fun p => p.2.words).length
  { x with
    ctx := { x.ctx.back (w 3) with
      cyc := (w 8).getD 0 0, ecnt := ((w 8).getD 1 0).setWidth 48, esat := bit ((w 8).getD 1 0) 63 }
    regions := backAll (fun r => r.2.2.flatMap fun b => b.2.words) (fun r v =>
        (r.1, r.2.1, backAll (fun b => b.2.words) (fun b u => (b.1, b.2.back u)) r.2.2 v))
      (backAll (fun r => r.2.1.words) (fun r v => (r.1, r.2.1.back v, r.2.2)) x.regions (w 2)) (w 1)
    inp := backAll (fun p => p.2.words) (fun p v => (p.1, p.2.back v)) x.inp (w 4)
    outp := backAll (fun p => p.2.words) (fun p v => (p.1, p.2.back v)) x.outp ((w 4).drop inLen)
    acc := backAll (bankWords 0 0) bankBack x.acc (w 5)
    mx := x.mx.map fun m => m.back (w 6)
    copy := x.copy.back nsched (w 7) }

/-- Has a region of a share an entry in a tapered format, in the slate's copy of its entries? -/
def Take.tapered (t : Take) (x : Share) : Bool :=
  x.regions.any fun g =>
    match t.reel.record t.scene g.2.1.rix with
    | some r => r.2.elems.any fun e => e.ents.any fun w => w != 0 && 12 ≤ (entryOf w).fmt.toNat && (entryOf w).fmt.toNat ≤ 14
    | none => false

/-- FEAT (R306). -/
def Take.feat (t : Take) (l : List Share) : Word :=
  let banks (f : Bank → Bool) : Bool := l.any fun x => x.regions.any fun g => g.2.2.any fun b => f b.2
  let lg (p : Plane) : Bool := p.pv && fmtOf p.fmt p.sub == .lg6
  flag true 0
    ||| flag (l.any t.tapered) 1
    ||| flag (l.any fun x => (x.mx.any fun m => lg m.live || lg m.shadow)) 2
    ||| flag (l.any fun x => (x.mx.any fun m => m.queue.any fun i =>
          match i.op with
          | .step sparse _ _ _ _ _ => sparse
          | _ => false)) 3
    ||| flag (l.any fun x => x.lands) 4
    ||| flag (banks fun b => b.pend.isSome) 5
    ||| flag (banks fun b => b.dv) 6
    ||| flag t.hdr.debug 7

/-- The section table from a byte offset on: two words a section. -/
def sectionTable (lc : Nat) : Nat → List (Nat × List Word) → List Word
  | _, [] => []
  | o, x :: t => (at_ x.1 0 ||| at_ (lc % 256) 8) :: BitVec.ofNat 64 o :: sectionTable lc (o + 8 * x.2.length) t

/-- The table of shares given by their sections. -/
def imageTable : Nat → List (Nat × List (Nat × List Word)) → List Word
  | _, [] => []
  | o, x :: t => sectionTable x.1 o x.2 ++ imageTable (o + 8 * (x.2.foldl (fun n y => n + y.2.length) 0)) t

/-- The sections of a take's shares, with the system registers as they read in the state. -/
def State.imageSections (s : State) (t : Take) (l : List Share) : List (Nat × List (Nat × List Word)) :=
  l.map fun x =>
    let k := ((t.placeLc x.lc).map (·.k)).getD 0
    (x.lc, x.sections t.sched.length k fun n => s.sysReg x.cl k t n)

/-- The save image as words (R306). -/
def Take.imageWords (t : Take) (l : List Share) (secs : List (Nat × List (Nat × List Word))) : List Word :=
  let all := secs.flatMap fun x => x.2
  let body := all.flatMap fun x => x.2
  let head := 32 + 16 * all.length
  [at_ 1 56 ||| at_ (all.length % 65536) 32 ||| at_ (t.id % 2 ^ 32) 0, t.feat l, at_ ((head + 8 * body.length) % 2 ^ 48) 0, 0]
    ++ imageTable head secs ++ body

/-- Write the save image into the save area. -/
def State.writeImage (s : State) (t : Take) (l : List Share) : State :=
  if t.save = 0 then s else s.writeWords t.save ((t.imageWords l (s.imageSections t l)).take (8192 * t.saveFrames))

/-- The sections with the given words in place of their own, in order. -/
def refill : List (Nat × List Word) → List Word → List (Nat × List Word)
  | [], _ => []
  | x :: t, w => (x.1, w.take x.2.length) :: refill t (w.drop x.2.length)

/-- The words that bytes hold. -/
def wordsOf : List Byte → List Word
  | a :: b :: c :: d :: e :: f :: g :: h :: t => BitVec.ofNat 64 (ofBytes [a, b, c, d, e, f, g, h]) :: wordsOf t
  | _ => []

/-- Shares with the words of an image's body in place of their own. -/
def backShares (nsched : Nat) : List (Share × List (Nat × List Word)) → List Word → List Share
  | [], _ => []
  | x :: t, w =>
    let n := x.2.foldl (fun m y => m + y.2.length) 0
    x.1.back nsched (refill x.2 (w.take n)) :: backShares nsched t (w.drop n)

/-- R307: the shares of a saved take as the sections of its image in the save area give them. What no table of R306 lists the
stage manager has kept. -/
def State.readImage (s : State) (t : Take) (l : List Share) : State × List Share :=
  let secs := l.map fun x => x.sections t.sched.length 0 fun _ => 0
  let all := secs.flatMap id
  let body := all.flatMap fun x => x.2
  let head := 32 + 16 * all.length
  let n := min (8 * body.length) (frameBytes * t.saveFrames - head)
  if t.save = 0 || n = 0 then (s, l)
  else
    let r := s.copyOut 0 t.id (piecesOf (t.save + head) n)
    let w := wordsOf r.2
    (r.1, backShares t.sched.length (l.zip secs) (w ++ body.drop w.length))

/-! ### The fault record (R338, R339) -/

/-- Does the record hold an event? -/
def FaultRec.eventful (f : FaultRec) : Bool := f.fcode != 0 || f.replays != 0 || f.bcount != 0 || f.leak || f.tcode != 0

def Share.record (x : Share) : List Word :=
  let rm : List Word :=
    match x.ctx.rmark with
    | some m => [at_ m.n.toNat 48 ||| at_ m.pc.toNat 32 ||| m.stage.setWidth 64, m.steps.setWidth 64]
    | none => [0, 0]
  let outOf (p : Nat) : OutPort := ((x.outp.find? fun y => y.1.toNat == p).map (·.2)).getD {}
  let inOf (p : Nat) : InPort := ((x.inp.find? fun y => y.1.toNat == p).map (·.2)).getD {}
  let cseq (w : Nat) : Word := (List.range 4).foldl (fun v i => v ||| at_ (outOf (4 * w + i)).cseq.toNat (16 * i)) 0
  rm ++ [x.ctx.steps.setWidth 64, cseq 0, cseq 1, cseq 2, cseq 3,
         (List.range 16).foldl (fun v p => v ||| flag (outOf p).bound.isSome p ||| flag (inOf p).bound.isSome (16 + p)) 0]

/-- The two words of a copy entry. -/
def entryRecord (x : CopyEnt) : List Word :=
  [x.word, if x.doneb = 0 then BitVec.allOnes 64 else BitVec.ofNat 64 (cdiv x.doneb.toNat 4096 - 1)]

/-- The fault record of a take as words. -/
def Take.record (t : Take) (l : List Share) : List Word :=
  let f := t.fr
  let share (lc : Nat) : Option Share := l.find? fun x => x.lc == lc
  [at_ 1 56 ||| at_ t.hdr.ncl.toNat 48 ||| at_ (t.hdr.nsched % 512) 32 ||| at_ (t.id % 2 ^ 32) 0,
   at_ f.fcode.toNat 56 ||| at_ f.nlease.toNat 32 ||| f.replays.setWidth 64,
   f.ldet0, f.ldet1, f.odet0, f.odet1,
   at_ f.bcount.toNat 32 ||| f.btid.setWidth 64, at_ f.bc1.toNat 32 ||| f.bc0.setWidth 64, at_ f.bc3.toNat 32 ||| f.bc2.setWidth 64,
   at_ f.tcode.toNat 56 ||| at_ f.tcl.toNat 48 ||| at_ f.tk.toNat 46 ||| f.tepc.setWidth 64, f.tinfo, f.tinfo2,
   flag f.leak 63 ||| f.lbanks.setWidth 64, f.x, 0, 0]
    ++ ((List.range t.hdr.clusters).flatMap fun lc =>
      match share lc with
      | some x => x.record
      | none => List.replicate 8 0)
    ++ t.sched.zipIdx.flatMap fun (w : Sched × Nat) =>
      match share w.1.tcl with
      | some x => entryRecord (tget {} x.copy.ents w.2)
      | none => entryRecord {}

def State.writeRecord (s : State) (t : Take) (l : List Share) : State := if t.frec = 0 then s else s.writeWords t.frec (t.record l)

/-! ### Release (R305, R309) -/

/-- R159: when no DEBUG take remains on a cluster its detector is cleared. -/
def State.clearHz (s : State) (cl : Nat) : State :=
  if s.takes.any fun t => t.hdr.debug && (t.placeOf cl).isSome then s else s.updCluster cl fun c => { c with hzctl := 0 }

/-- A context that is released (R305, R309) holds no take, waits for nothing and has no monitor. Its registers stand as the take
left them, as R373 has s7, until a launch sets them (R43). -/
def CueCtx.released (c : CueCtx) : CueCtx :=
  { c with
    take := 0, kstate := .idle, mon := none, pend := [], wait := none, handler := false, stall := none, retry := false
    aborts := [], posted := [], ovl := [], ovlAgain := [] }
/-- The same while the take is SAVED (R305). -/
def CueCtx.savedFor (c : CueCtx) (take : Nat) : CueCtx := { c.released with take := take, kstate := .saved }

/-- One logical cluster's resources are released, its context by `f`. -/
def State.releasePlace (s : State) (t : Take) (f : CueCtx → CueCtx) (p : Place) : State :=
  let s := ((List.range 256).filter fun b => s.holdsBank p.cl t.id p.k b).foldl (fun s b => s.freeBanks p.cl b 1) s
  let s := (s.regionsOf p.cl t.id).foldl (fun s x => s.unloadRegion p.cl x.1) s
  (s.updCluster p.cl fun x => { x with
    inp := p.inMap.foldl (fun l m => tdel m.2.toNat l) x.inp
    outp := p.outMap.foldl (fun l m => tdel m.2.toNat l) x.outp
    mx := if x.mx.holder = some t.id then {} else x.mx
    copy := tput none x.copy t.id none }).updCtx p.cl p.k f

/-- The cluster resources of a take are released (R305 step 4, R309 step 4). -/
def State.releaseClusters (s : State) (t : Take) (f : CueCtx → CueCtx) : State :=
  let s := t.places.foldl (fun s p => s.releasePlace t f p) s
  let s := s.updTake t.id fun t => { t with places := [] }
  t.places.foldl (fun s p => (s.clearHz p.cl).retarget (pairOf p.cl)) s

/-- The contexts that read SAVED for a take become IDLE. -/
def State.clearSaved (s : State) (id : Nat) (f : CueCtx → CueCtx) : State :=
  { s with clusters := tmap {} (fun _ c =>
      { c with ctx := tmap {} (fun _ (x : CueCtx) => if x.kstate = .saved && x.take = id then f x else x) c.ctx }) s.clusters }

end Sys2Proof.Machine
end

