-- ==== Sys2Proof/Machine/Sched.lean ====
section
/-! DEFINITION. The stage manager's scheduling: dispatch (R43, R298), pre-emption and ageing (R303, R304), freeze (R44,
R163, R305, R329), restore (R307, R342) and move (R302). -/

namespace Sys2Proof.Machine

/-! ### Dispatch (R43, R298) -/

/-- R43: the context of a logical cluster at launch. AOR is the revision of the code object, 1 (R26, R388). -/
def Take.firstCtx (t : Take) (p : Plan) : CueCtx :=
  { take := t.id
    s := Vector.ofFn fun (i : Fin 32) => if 1 ≤ i.val && i.val ≤ 8 then t.hdr.args.getD (i.val - 1) 0 else 0
    h := Vector.ofFn fun (i : Fin 16) =>
      match t.hdr.bound i.val with
      | some tid => .tensor tid
      | none => .empty
    pc := t.hdr.entry, kstate := .run, prio := t.prio, aor := 1, vbin := t.slate.vbin
    wbase := BitVec.ofNat 16 p.wbase, wsize := t.hdr.wsize }

/-- R159: the detector of a cluster onto which a DEBUG take comes. -/
def State.setHz (s : State) (t : Take) (cl : Nat) : State := if t.hdr.debug then s.updCluster cl fun c => { c with hzctl := 15 } else s

/-- Bring one logical cluster up (R298 steps 1 to 4). -/
def State.bringUp (s : State) (t : Take) (p : Plan) : State :=
  let cl := p.place.cl
  let s := s.updCtx cl p.place.k fun _ => t.firstCtx p
  let s := s.updCluster cl fun c => { c.setLines p.wbase t.hdr.wsize .invalid with
    copy := tput none c.copy t.id (some {})
    mx := if t.hdr.mxeng then { holder := some t.id } else c.mx }
  let s := match t.sceneRec with
    | some sc => s.loadSection cl p.place.k t sc
    | none => s
  ((s.loadRegions t p.place t.scene).setHz t cl).activateAll cl t p.place.lc

/-- The vault plots that a take still needs. -/
def Take.vaultDemand (t : Take) : Nat := leaseTotal (t.unleased 0)

/-- The save area of a take: none when it cannot be reserved (R305). -/
def State.reserveSave (s : State) (t : Take) : Option (Nat × Nat × State) :=
  let n := cdiv t.reel.savesz frameBytes
  if n = 0 then some (0, 0, s)
  else
    let r := s.pickOf ((s.fn t.fn).poolStarts s.usedRuns n)
    r.1.map fun key => (key, n, r.2)

/-- May the function hold the vault plots too (R321), and is there room for the save area? -/
def State.mayDispatch (s : State) (t : Take) : Option (Nat × Nat × State) :=
  if s.fitsLimit t.fn t.vaultDemand then s.reserveSave t else none

/-- The dispatch commit on the given plans (R298). -/
def State.dispatchOn (s : State) (t : Take) (plans : List Plan) (save frames : Nat) : State :=
  let old := s
  let s := s.updTake t.id fun t => { t with
    st := .running, ran := s.cycle, samp := 0, places := plans.map (·.place), save := save, saveFrames := frames }
  let s := plans.foldl (fun s p => p.frames.foldl (fun s y => s.grantAt t.id t.fn (y.1, y.2.1) y.2.2) s) s
  match s.take? t.id with
  | none => s
  | some t =>
    let s := plans.foldl (fun s p => s.bringUp t p) s
    let s := plans.foldl (fun s p => s.raiseFloor old p.place.cl fun g => g.take == t.id) s
    { s with fresh := s.fresh + 8 * 256 }

/-! ### Pre-emption (R304) -/

/-- Has a take a fixed cluster or an open zone (R304)? -/
def State.exempt (s : State) (t : Take) : Bool :=
  t.fix.any Option.isSome || s.clusters.any fun c => c.2.zones.any fun z => z.2.open_ && z.2.owner == t.id

/-- The order of victims: lowest level first, then most recently dispatched first. -/
def victimBefore (a b : Take) : Bool := a.prio < b.prio || (a.prio == b.prio && b.ran < a.ran)
def insertVictim (t : Take) : List Take → List Take
  | [] => [t]
  | u :: l => if victimBefore t u then t :: u :: l else u :: insertVictim t l

/-- The takes that a READY take may pre-empt: those of lower priority on a cluster that it may use. -/
def State.victims (s : State) (t : Take) : List Take :=
  (s.takes.filter fun u => u.unasked && u.prio < t.prio && !s.exempt u
    && u.places.any fun p => maskBit (s.fn t.fn).clset p.cl).foldl (fun l u => insertVictim u l) []

/-- The package as it will be when a take has left its clusters. -/
def State.without (s : State) (u : Take) : State := s.releaseClusters u fun c => c.savedFor u.id

/-- The smallest number of victims whose departure makes room, and those victims. -/
def needed (room : State → Bool) : State → List Take → Option (List Take)
  | _, [] => none
  | s, u :: l => if room (s.without u) then some [u] else (needed room (s.without u) l).map fun m => u :: m

/-- R304: the victims of a take that cannot be placed are asked to freeze. Takes that leave already count as gone (DEDUCED,
log 17). -/
def State.preemptFor (s : State) (t : Take) (room : State → Bool) : State :=
  let gone := (s.takes.filter Take.leaving).foldl State.without s
  if room gone then s
  else
    match needed room gone (s.victims t) with
    | some l => l.foldl (fun s u => s.askFreeze u.id .preempt) s
    | none => s

/-- DISPATCH (R298): a READY take is placed and runs, or waits, or pre-empts. -/
def execDispatch (take : Nat) (s : State) : Out :=
  match s.take? take with
  | none => .next s
  | some t =>
    if t.st ≠ .ready then .next s
    else
      match s.mayDispatch t with
      | none => .next s
      | some (save, frames, s) =>
        match s.plan t true fun _ _ => true with
        | some plans => .next (s.dispatchOn t plans save frames)
        | none => .next (s.preemptFor t fun s => (s.plan t true fun _ _ => true).isSome)

/-- PRIORITY_AGEING (R303): after 2^20 cycles of waiting a take rises one level. -/
def execPriorityAgeing (take : Nat) (s : State) : Out :=
  match s.take? take with
  | none => .next s
  | some t =>
    if (t.st = .ready || (t.st = .saved && !t.stopped)) && t.since + 2 ^ 20 ≤ s.cycle then
      .next (s.updTake take fun t => { t with prio := if t.prio = 3 then 3 else t.prio + 1, since := s.cycle })
    else .next s

/-- Which clusters a share may be restored on (R307): every bank number free; its own cluster when reservations, landings
or open zones bind it there. -/
def State.shareFits (s : State) (t : Take) (shares : List Share) (lc cl : Nat) : Bool :=
  match shares.find? fun x => x.lc == lc with
  | none => false
  | some x =>
    (x.acc.all fun b => ((s.cluster cl).bankOwner b.1).isNone)
      && (cl == x.cl || !(shares.any (·.lands) || (s.cluster x.cl).zones.any fun z => z.2.open_ && z.2.owner == t.id))

/-- Can a waiting take be placed now? -/
def State.placeable (s : State) (t : Take) : Bool :=
  match t.image with
  | some l => (s.plan t false (s.shareFits t l)).isSome
  | none => (s.plan t true fun _ _ => true).isSome

/-- TIME_SLICE_END (R304): after 2^24 cycles a take gives way to one of equal priority that cannot be placed. -/
def execTimeSliceEnd (take : Nat) (s : State) : Out :=
  match s.take? take with
  | none => .next s
  | some t =>
    if t.unasked && t.ran + 2 ^ 24 ≤ s.cycle && !s.exempt t
        && s.takes.any (fun u => (u.st == .ready || (u.st == .saved && !u.stopped)) && u.prio == t.prio && !s.placeable u) then
      .next (s.askFreeze take .preempt)
    else .next s

/-! ### Restore (R307, R342) -/

/-- The new number of a region of a share. -/
def Share.newRid (x : Share) (t : Take) (p : Place) (rid : Nat) : Nat :=
  match x.regions.find? fun r => r.1 == rid with
  | some r =>
    match p.spots.find? fun q => q.scene == t.scene && q.rix == r.2.1.rix && q.copy == r.2.1.copy.toNat with
    | some q => q.rid
    | none => rid
  | none => rid

/-- A bank with the slate's settings and entries, and a saved bank's state. -/
def Bank.merge (fresh saved : Bank) : Bank :=
  { saved with adep := fresh.adep, bdep := fresh.bdep, afill := fresh.afill, bfill := fresh.bfill, ents := fresh.ents, live := fresh.live }

/-- Write one region of a share back at its new spot. EMASK starts with PWR alone (R45, R307). Until the restart point that the
region passes at its first played cycle (R342), a replay finds what is restored here. -/
def State.restoreRegion (s : State) (t : Take) (p : Place) (r : Nat × Region × List (Nat × Bank)) : State :=
  match p.spots.find? fun q => q.scene == t.scene && q.rix == r.2.1.rix && q.copy == r.2.1.copy.toNat with
  | none => s
  | some q =>
    let s := s.loadRegion p.cl t p.lc q
    let g := s.region p.cl q.rid
    let live := r.2.1.running = .run
    let s := r.2.2.foldl (fun s b =>
      match g.els[b.1]? with
      | some el => s.updBank p.cl (g.bankNo el) fun f => f.merge b.2
      | none => s) s
    let now := g.els.foldl (fun h el => tput {} h el { (s.bank p.cl (g.bankNo el)) with ents := [] }) []
    s.updRegion p.cl q.rid fun g => { r.2.1 with
      lc := g.lc, ctx := g.ctx, x0 := g.x0, y0 := g.y0, slots := g.slots, emask := pwrFor (s.pwrOf (pairOf p.cl)) g.slots
      fresh := true, shadow := if live then now else g.shadow
      rstamp := if live then r.2.1.cnt else r.2.1.rstamp, riter := if live then r.2.1.iter else r.2.1.riter }

def Binding.moved (b : Binding) (k : Nat) : Binding := { b with k := k }
def PortCmd.moved (k : Nat) : PortCmd → PortCmd
  | .bind b => .bind (b.moved k)
  | c => c

/-- Write the ports of a share back on the physical ports of its new place. -/
def State.restorePorts (s : State) (t : Take) (p : Place) (x : Share) : State :=
  let rid := x.newRid t p
  let s := x.inp.foldl (fun s y =>
    match mapPort p.inMap y.1 with
    | some q => s.updIn p.cl q.toNat fun _ =>
        { y.2 with bound := y.2.bound.map fun b => b.moved p.k, cmds := y.2.cmds.map (PortCmd.moved p.k)
                   -- what a region has received is in its buffers: it goes on from there (R342)
                   cons := y.2.cons.map fun (c : Consumer) => { c with rid := rid c.rid, rptr := c.rd } }
    | none => s) s
  x.outp.foldl (fun s y =>
    match mapPort p.outMap y.1 with
    | some q => s.updOut p.cl q.toNat fun _ =>
        { y.2 with bound := y.2.bound.map fun b => b.moved p.k, cmds := y.2.cmds.map (PortCmd.moved p.k)
                   held := y.2.held.map fun (h : OutTok) => { h with rid := h.rid.map rid } }
    | none => s) s

/-- The overlays of a restored context are fetched again (R307: restore reloads the code). -/
def State.restoreOverlays (s : State) (cl k : Nat) (t : Take) : State :=
  (s.ctx cl k).ovl.foldl (fun s o =>
    match t.reel.overlay o.1 with
    | none => s
    | some v =>
      match o.2 with
      | .ok => (s.loadCode cl t v.off ((s.ctx cl k).wbase.toNat + v.woff) v.len true).1
      | .fetching => s.startFetch cl k v
      | _ => s) s

/-- Write one share back. -/
def State.restoreShare (s : State) (t : Take) (pl : Plan) (x : Share) : State :=
  let p := pl.place
  let s := s.updCtx p.cl p.k fun _ => { x.ctx with prio := t.prio, wbase := BitVec.ofNat 16 pl.wbase, wsize := t.hdr.wsize }
  let s := s.updCluster p.cl fun c => { c.setLines pl.wbase t.hdr.wsize .invalid with
    copy := tput none c.copy t.id (some x.copy)
    mx := match x.mx with
      | some m => { m with holder := some t.id, queue := m.queue.map fun i => { i with k := p.k } }
      | none => if t.hdr.mxeng then { holder := some t.id } else c.mx
    accOwn := x.acc.foldl (fun l b => tput none l b.1 (some (t.id, p.k))) c.accOwn
    acc := x.acc.foldl (fun l b => b.2.zipIdx.foldl (fun l (w : BitVec 32 × Nat) => tput 0 l (512 * b.1 + w.2) w.1) l) c.acc }
  let s := match t.sceneRec with
    | some sc => s.loadSection p.cl p.k t sc
    | none => s
  let s := (s.restoreOverlays p.cl p.k t).setHz t p.cl
  (x.regions.foldl (fun s r => s.restoreRegion t p r) s).restorePorts t p x

/-- A take runs again on the given plans, from its shares. -/
def State.restoreOn (s : State) (t : Take) (plans : List Plan) (shares : List Share) : State :=
  let old := s
  let newCl (cl : Nat) : Nat :=
    match shares.find? fun x => x.cl == cl with
    | some x => ((plans.find? fun p => p.place.lc == x.lc).map fun p => p.place.cl).getD cl
    | none => cl
  let s := (s.clearSaved t.id CueCtx.released).updTake t.id fun t => { t with
    st := .running, image := none, why := [], stops := false, trapped := [], places := plans.map (·.place), exits := t.exits.map fun e => (newCl e.1, e.2) }
  match s.take? t.id with
  | none => s
  | some t =>
    let s := plans.foldl (fun s p =>
      match shares.find? fun x => x.lc == p.place.lc with
      | some x => s.restoreShare t p x
      | none => s) s
    let s := s.mapRegions t Region.thaw
    let s := plans.foldl (fun s p => s.raiseFloor old p.place.cl fun g => g.take == t.id) s
    { s with fresh := s.fresh + 8 * 256 }.endIfExited t.id

/-- FEATIMPL (R307). -/
def featImpl : Word := 0xFF

/-- FEAT of a saved take: the word of its image in the save area. -/
def State.savedFeat (s : State) (t : Take) (l : List Share) : Word := if t.save = 0 then t.feat l else s.readWord (t.save + 8)
/-- Its read (R265): the machine then, and what the read gives. -/
def State.readFeat (s : State) (t : Take) : State × State := s.seen 0 t.id s (if t.save = 0 then [] else [(t.save + 8, 8)])

/-- A share as it is restored: after a RESUME the regions whose traps stopped the take play their cycle again (R117, R329), and
reservations whose route has failed are gone (R253). -/
def Share.resumed (x : Share) (trapped : List (Nat × Nat)) : Share :=
  { x with
    regions := x.regions.map fun (r : Nat × Region × List (Nat × Bank)) =>
      if trapped.contains (x.cl, r.1) && r.2.1.rstate = .frozen && r.2.1.was.isNone then (r.1, { r.2.1 with rstate := .run }, r.2.2) else r
    copy := { x.copy with rsvs := x.copy.rsvs.filter fun q => !q.lost } }

/-- RESTORE (R307, R342): the sections of the save image are written back. A refusal leaves the take SAVED, for TAKECTL
(DEDUCED, log 23). -/
def execRestore (take : Nat) (s : State) : Out :=
  match s.take? take with
  | none => .next s
  | some t =>
    match t.image with
    | none => .next s
    | some l =>
      if t.st ≠ .saved || t.stopped || s.resets t.fn then .next s
      else
      let q := s.readFeat t
      let s := q.1
      if q.2.savedFeat t l &&& ~~~ featImpl ≠ 0 then
        let cl := match l with
          | x :: _ => x.cl
          | [] => 0
        .next ((s.updTake take fun t => { t with stopped := true }).event t.fn
          (at_ 3 56 ||| at_ codeFeatureAbsent 48 ||| at_ (cl % 256) 40 ||| at_ (take % 2 ^ 32) 0) 0 0)
      else
        match s.plan t false (s.shareFits t l) with
        | some plans =>
          let r := s.readImage t l
          .next ((r.1.updTake take fun t => { t with ran := s.cycle }).restoreOn t plans (r.2.map fun x => x.resumed t.trapped))
        | none => .next (s.preemptFor t fun s => (s.plan t false (s.shareFits t l)).isSome)

/-! ### Freeze (R44, R158, R163, R305, R319, R328, R329) -/

/-- Must a context's instruction complete before a freeze: has it acted on another agent already (R163)? -/
def CueCtx.mustEnd (c : CueCtx) : Bool :=
  !c.posted.isEmpty ||
    match c.stall with
    | some (.rsv _ _ _ _) | some (.spawn _) | some (.zoneClose _) | some (.load _ _ _ _ _ _ _) | some (.store _ _ _ _ _ _ _) => true
    | _ => false

/-- Has an entry come to a sector boundary, with nothing of it under way (R257)? After OUT-OF-LEASE it stays where it is
(R319). -/
def Take.entryRests (t : Take) (e : Nat) (x : CopyEnt) : Bool :=
  x.asked == x.vals.length && x.posted.isEmpty && x.stamp.isNone && (t.xabort || !x.active || x.fin.isNone &&
    match t.sched[e]? with
    | some w => !x.inSector (flowOf t w x.opr x.slots.length)
    | none => true)

/-- Has everything ended that a freeze waits for on a cluster: replays (R158), accesses under way (DEDUCED, log 22), the
interval of the matrix engine (R226), sectors (R257)? -/
def State.quiet (s : State) (t : Take) (p : Place) : Bool :=
  (s.regionsOf p.cl t.id).all (fun x => x.2.rstate != .replay)
    && !(s.ctx p.cl p.k).mustEnd
    && ((t.inPorts p.cl).all fun q => (s.inPort p.cl q).asked == 0)
    && ((t.outPorts p.cl).all fun q => (s.outPort p.cl q).wait.isEmpty)
    && ((s.mxOf p.cl).holder != some t.id || (s.mxOf p.cl).queue.all fun i =>
      if t.xabort then i.reads.all (·.val.isSome) else i.reads.isEmpty)
    && (s.copyOf p.cl t.id).ents.all fun e => t.entryRests e.1 e.2

/-- Commit the tiles of a port that have left the replay window, at most `n`; a tile that cannot be committed now, and
OUT-OF-LEASE of an earlier cycle (R319), stop the port. -/
def State.commitDue (s : State) (cl p : Nat) : Nat → State
  | 0 => s
  | n + 1 =>
    match (s.outPort cl p).bound with
    | none => s
    | some b =>
      match s.take? b.take, s.dueTile cl p with
      | some t, x :: rest =>
        if t.barred s.cycle then s
        else
          let u := s.commitTile cl p t b (x :: rest)
          if (u.outPort cl p).held.length < (s.outPort cl p).held.length then u.commitDue cl p n else u
      | _, _ => s

/-- Output ports commit what has left the replay window (R305 step 2); after OUT-OF-LEASE no access is issued (R319). -/
def State.commitAll (s : State) (t : Take) : State :=
  t.places.foldl (fun s p => (t.outPorts p.cl).foldl (fun s q => s.commitDue p.cl q (s.outPort p.cl q).held.length) s) s

/-- Has every port of a take committed what has left the replay window, or does it commit nothing any more? -/
def State.committed (s : State) (t : Take) : Bool :=
  match s.take? t.id with
  | some u => u.xabort || t.places.all fun p => (t.outPorts p.cl).all fun q => (s.dueTile p.cl q).isEmpty
  | none => true

/-- The contexts stop between instructions, and a trap raised before that is taken (R163, R330). -/
def State.stopContexts (s : State) (t : Take) : State :=
  t.places.foldl (fun s p => (s.updCtx p.cl p.k fun c => { c.atRest with mon := c.mon }).takePend p.cl p.k) s

/-- OUT-OF-LEASE ends a take from the next cycle on (R319). -/
def Take.faulted (t : Take) : Take :=
  if t.xabort && (t.st == .running || t.st == .frozen) && !t.why.contains (.abort 2) then { t with why := t.why ++ [.abort 2] } else t

/-- The completion CODE of the abort that a freeze carries out: a fault before a cancel (R308; DEDUCED, log 22). -/
def abortCode (l : List Why) : Option Nat :=
  l.foldl (fun r w =>
    match w, r with
    | .abort c, none => some c
    | .abort c, some d => some (max c d)
    | _, r => r) none

/-- A frozen take is saved (R305): image, save area, release. -/
def State.saveTake (s : State) (t : Take) : State :=
  let l := s.shares t
  let s := (s.writeImage t l).releaseClusters t fun c => c.savedFor t.id
  s.updTake t.id fun t => { t with st := .saved, why := [], image := some l, since := s.cycle, order := s.cycle }

/-- A STOP (R329): saved, recorded, and marked stopped; an event entry of kind STOP. -/
def State.stopTake (s : State) (t : Take) (code cl k : Nat) (epc : BitVec 16) (info : Word) (noResume : Bool) : State :=
  let s := s.saveTake t
  match s.take? t.id with
  | none => s
  | some t =>
    let s := (s.updTake t.id fun t => { t with stopped := true, noResume := noResume }).writeRecord t (s.shares t)
    s.event t.fn (at_ 2 56 ||| at_ (code % 256) 48 ||| at_ (cl % 256) 40 ||| at_ (t.id % 2 ^ 32) 0) info
      (at_ (k % 4) 16 ||| epc.setWidth 64)

/-- A take that has been frozen goes on where it stands, unless another request holds it. -/
def State.thaw (s : State) (take : Nat) (w : Why → Bool) : State :=
  match s.take? take with
  | none => s
  | some t =>
    if t.why.all w then (s.mapRegions t Region.thaw).updTake take fun t => { t with st := .running, why := [], stops := false }
    else s.updTake take fun t => { t with why := t.why.filter fun x => !w x }

/-- May a logical cluster be moved (R302)? -/
def State.mayMove (s : State) (t : Take) (lc : Nat) : Bool :=
  match t.placeLc lc with
  | none => false
  | some p =>
    ((t.fix[lc]?).join).isNone && !((s.cluster p.cl).zones.any fun z => z.2.open_ && z.2.owner == t.id)
      && !(s.copyOf p.cl t.id).lands t

/-- A move carried out while the take is frozen (R302): the share of the logical cluster is read out, and loaded at the new
position; the other logical clusters stay where they are. Where the share does not fit, nothing moves. -/
def State.moveTake (s : State) (t : Take) (lc dst : Nat) : State :=
  let isMove (w : Why) : Bool := w == .move lc dst
  let stay := s.thaw t.id isMove
  match t.placeLc lc with
  | none => stay
  | some p =>
    let x := s.share t p
    let u := { t with places := t.places.filter fun q => q.lc != lc }
    let n := (s.releasePlace t CueCtx.released p).updTake t.id fun t => { t with places := u.places }
    let n := (n.clearHz p.cl).retarget (pairOf p.cl)
    if u.places.any (fun q => q.cl == dst) || !(n.clustersFor u (n.shareFits u [x]) [] lc).contains dst then stay
    else
      match n.planOn u false lc dst with
      | none => stay
      | some pl =>
        let v := { t with
          places := t.places.map fun (q : Place) => if q.lc = lc then pl.place else q
          exits := t.exits.map fun e => (if e.1 = p.cl then dst else e.1, e.2) }
        let m := n.updTake t.id fun t => { t with places := v.places, exits := v.exits }
        let m := ((m.restoreShare v pl x).thaw t.id isMove).raiseFloor s dst fun g => g.take == t.id && g.lc == lc
        { m with fresh := m.fresh + 8 * 256 }.endIfExited t.id

/-- What a frozen take's requests come to: abort, STOP, end, pre-emption or move. -/
def State.afterFreeze (s : State) (t : Take) : State :=
  match abortCode t.why with
  | some c => (s.updTake t.id fun t => { t with
      code := BitVec.ofNat 8 c
      -- a cancel has taken the place of a STOP: no trap has stopped the take (R308, R338)
      fr := if c = 1 && t.stopping then { t.fr with fcode := 0 } else t.fr }).toEnding t.id
  | none =>
    match t.why.findSome? (fun w => match w with | .stop a b c d e _ g => some (a, b, c, d, e, g) | _ => none) with
    | some (a, b, c, d, e, g) => s.stopTake t a b c d e g
    | none =>
      if t.exits.length = t.places.length then s.toEnding t.id
      else if t.why.contains .preempt then s.saveTake t
      else
        match t.why.findSome? (fun w => match w with | .move a b => some (a, b) | _ => none) with
        | some (lc, dst) => if s.mayMove t lc then s.moveTake t lc dst else s.thaw t.id fun w => w == .move lc dst
        | none => s

/-- FREEZE (R297, R305): the take is FROZEN when no replay is under way (R158), and what is asked of it follows at a boundary
where nothing of it is under way. -/
def execFreeze (take : Nat) (s : State) : Out :=
  match s.take? take with
  | none => .next s
  | some t =>
    if !t.freezing || t.why.isEmpty then .next s
    else if t.st = .running then
      if t.places.all fun p => (s.regionsOf p.cl t.id).all fun x => x.2.rstate != .replay then
        .next ((s.mapRegions t Region.freeze).updTake take fun t => { t with st := .frozen })
      else .next s
    else if !(t.places.all (s.quiet t)) then .next s
    else
      let s := s.commitAll t
      if !(t.places.all (s.quiet t)) || !s.committed t then .next s
      else
        let s := s.stopContexts t
        match s.take? take with
        | none => .next s
        | some t =>
          -- a function that is reset saves nothing and records nothing (R340)
          if s.resets t.fn then .next (s.updTake take fun t => { t with st := .ending, why := [] })
          -- a tile that was out of its lease ends the take, whatever else was asked (R308, R319)
          else .next (s.afterFreeze t.faulted)

/-- MOVE (R302): the allocator asks the take to freeze, and moves a logical cluster of it. -/
def execMove (take lc dst : Nat) (s : State) : Out :=
  match s.take? take with
  | none => .next s
  | some t => if t.unasked && s.mayMove t lc && dst < 256 then .next (s.askFreeze take (.move lc dst)) else .next s

end Sys2Proof.Machine
end

