-- ==== Sys2Proof/Machine/Ends.lean ====
section
/-! DEFINITION. The ends of takes: the order of R309, CANCEL (R308), TAKECTL and FREL (R329, R332), and function-level
reset (R340). -/

namespace Sys2Proof.Machine

/-! ### Take end (R257, R309) -/

/-- An entry that waits for a reservation ends with CANCEL (R257). -/
def State.cancelEntry (s : State) (cl : Nat) (t : Take) (e : Nat) : State :=
  match t.sched[e]? with
  | none => s
  | some w =>
    if (tget {} (s.copyOf cl t.id).ents e).waitsLand w then s.updEnt cl t.id e fun x => x.finish ecCancel else s

/-- R309 step 2 on one cluster: entries that wait for a reservation meet their end, and unconsumed reservations are released. -/
def State.endCopy (s : State) (t : Take) (cl : Nat) : State :=
  let s := (s.activeEnts cl t.id).foldl (fun s e => s.cancelEntry cl t e) s
  let s := (s.copyOf cl t.id).rsvs.foldl (fun s r => s.sendRelease r (s.sender cl t.fn)) s
  s.updCopy cl t.id fun c => { c with rsvs := [] }

/-- Has OUT-OF-LEASE struck a take in an earlier cycle, so that no access of it is issued any more (R319)? -/
def State.barred (s : State) (take : Nat) : Bool := (s.take? take).any fun t => t.barred s.cycle

/-- The entries that have met their end are DONE or ERROR, and their stamps are written (R241), where accesses of the take are
still issued. -/
def State.endFinished (s : State) (t : Take) (cl : Nat) : State :=
  (s.activeEnts cl t.id).foldl (fun s e =>
    let x := tget {} (s.copyOf cl t.id).ents e
    match x.fin, t.sched[e]? with
    | some code, some w =>
      if x.posted.isEmpty then s.endEntry cl t e (if s.barred t.id then { w with w0 := w.w0 &&& ~~~ flag true 51 } else w) code else s
    | _, _ => s) s

/-- Has an entry met its end and not ended, or has a stamp no acknowledgement (R241)? -/
def State.unfinished (s : State) (take cl : Nat) : Bool :=
  (s.copyOf cl take).ents.any fun e => e.2.active && e.2.fin.isSome || e.2.stamp.isSome

/-- The engines of a saved take stand at their clusters while its end is carried out. -/
def State.copyBack (s : State) (t : Take) : State :=
  match t.image with
  | some l => l.foldl (fun s x => s.updCopy x.cl t.id fun _ => x.copy) s
  | none => s

/-- Every zone of a take closes. -/
def State.endZones (s : State) (own : Nat → Bool) (final : Bool) : State :=
  s.clusters.foldl (fun s c => c.2.zones.foldl (fun s z => if z.2.open_ && own z.2.owner then s.endZone c.1 z.1 final else s) s) s

/-- The plots of a take that LSUSE counts: those of every tensor that was granted. -/
def Take.leaseCount (t : Take) : Nat := t.tensors.foldl (fun n x => if x.2.plots.isEmpty then n else n + x.2.lcount) 0

/-- The HBM frames of a take, as remote leases name them. -/
def Take.hbmFrames (t : Take) : List Nat :=
  t.tensors.flatMap fun x => if x.2.res = 1 then x.2.plots.map fun e => bits e.2 39 0 else []

/-- R309 step 5: the leases of a take are released, and the take is gone; a grant of the plots of the pool names their own
frames again. -/
def State.dropTake (s : State) (t : Take) : State :=
  let s := s.updFn t.fn fun f => { f with lsuse := f.lsuse - BitVec.ofNat 32 t.leaseCount }
  { s with
    takes := s.takes.filter fun u => u.id != t.id
    pleases := s.pleases.filter fun p => p.take != t.id
    rplots := s.rplots.filter fun (x : RPlot) => !t.hbmFrames.contains x.frame }

/-- The status of a take that has exited (R195): the first nonzero one in ascending cluster number. -/
def exitStatus (l : List (Nat × BitVec 32)) : BitVec 32 :=
  match (List.range 256).findSome? fun cl => l.findSome? fun x => if x.1 = cl && x.2 ≠ 0 then some x.2 else none with
  | some v => v
  | none => 0

/-- ENERGY (R296): the sum of the take's ECNT values; a sum that 48 bits cannot hold is not stated (log 20). -/
def energyWord (free : Word) (l : List Share) : Word :=
  let n := l.foldl (fun n x => n + x.ctx.ecnt.toNat) 0
  flag (l.any fun x => x.ctx.esat) 63 ||| (if n < 2 ^ 48 then BitVec.ofNat 64 n else (free.setWidth 48).setWidth 64)

/-- R309 step 1: the accumulator banks that a take holds are free. -/
def State.freeHeld (s : State) (t : Take) : State :=
  t.places.foldl (fun s p => ((List.range 256).filter fun b => s.holdsBank p.cl t.id p.k b).foldl (fun s b => s.freeBanks p.cl b 1) s) s

/-- R309 steps 1 and 2: the end of a take begins with its banks, and its copy entries. -/
def State.unwind (s : State) (t : Take) (homes : List Nat) : State :=
  let s := homes.foldl (fun s cl => s.endCopy t cl) ((s.freeHeld t).copyBack t)
  s.updTake t.id fun t => { t with unwound := true }

/-- R309 steps 3 to 6. -/
def State.finishTake (s : State) (t : Take) (shares : List Share) : State :=
  let take := t.id
  -- a stamp that was out of its lease has ended the take (R241, R319)
  let t := if t.xabort then { t with code := 2 } else t
  let t := if t.code = 0 then { t with fr := { t.fr with fcode := 0 } } else t
  let record := t.record (shares.map fun x => { x with copy := s.copyOf x.cl take })
  let s := s.endZones (fun o => o == take) true
  let s := (s.releaseClusters t CueCtx.released).clearSaved take CueCtx.released
  let s := shares.foldl (fun s x => s.updCluster x.cl fun c => { c with copy := tput none c.copy take none }) s
  let s := s.dropTake t
  let r := s.freeVal
  let s := if t.frec = 0 then r.2 else r.2.writeWords t.frec record
  let detail := if t.fr.eventful then t.frecRef else 0
  let energy := energyWord r.1 shares
  if t.code = 0 then s.complete t.fn t.hdr.cmpl t.hdr.vec.toNat (completion 3 0 0 take) ((exitStatus t.exits).setWidth 64) detail energy
  else s.complete t.fn t.hdr.cmpl t.hdr.vec.toNat (completion 5 t.code.toNat 0 take) 0 detail energy

/-- TAKE_END (R309): no step starts before every entry that ends has written its stamp. A function that is reset ends its takes
itself (R340). -/
def execTakeEnd (take : Nat) (s : State) : Out :=
  match s.take? take with
  | none => .next s
  | some t =>
    if t.st ≠ .ending || s.resets t.fn then .next s
    else
      let shares := s.shares t
      let homes := shares.map fun x => x.cl
      let s := if t.unwound then s else s.unwind t homes
      let s := homes.foldl (fun s cl => s.endFinished t cl) s
      if homes.any (s.unfinished take) then .next s
      else .next (s.finishTake ((s.take? take).getD t) shares)

/-! ### CANCEL (R308) -/

/-- A saved take ends without restore. -/
def State.abortSaved (s : State) (take code : Nat) : State :=
  (s.updTake take fun t => { t with code := BitVec.ofNat 8 code, stopped := false }).toEnding take

/-- CANCEL (R294, R308); ignored while the function is reset (R340, R341). A take that never runs keeps its fault record until
FREL (R338). -/
def execCancel (fn take : Nat) (s : State) : Out :=
  let answer (s : State) (r : BitVec 2) : State := s.updFn fn fun f => { f with ctake := BitVec.ofNat 32 take, cres := r }
  if s.resets fn then .next s
  else
  match s.take? take with
  | none => .next (answer s 0)
  | some t =>
    if t.fn ≠ fn then .next (answer s 0)
    else
      match t.st with
      | .queued | .ready =>
        .next (answer ((s.dropTake t).complete fn t.hdr.cmpl t.hdr.vec.toNat (completion 4 0 0 take) 0 0 0) 1)
      | .running | .frozen => .next (answer (s.askFreeze take (.abort 1)) 2)
      | .saved => .next (answer (s.abortSaved take 1) 2)
      | .ending => .next (answer s 0)

/-! ### TAKECTL, FREL (R329, R330, R332) -/

/-- The take that a TAKECTL write names, when it is stopped in the function. -/
def State.stoppedTake (s : State) (fn take : Nat) : Option Take :=
  match s.take? take with
  | some t => if t.fn = fn && t.st = .saved && t.stopped then some t else none
  | none => none

/-- TAKECTL_RESUME (R329): the take is restored; after DOUBLE-TRAP it is aborted (R330). -/
def execTakectlResume (fn take : Nat) (s : State) : Out :=
  match s.stoppedTake fn take with
  | none => .next s
  | some t =>
    if t.noResume then .next (s.abortSaved take 2)
    else .next (s.updTake take fun t => { t with stopped := false, since := s.cycle })

/-- TAKECTL_ABORT (R329). -/
def execTakectlAbort (fn take : Nat) (s : State) : Out :=
  match s.stoppedTake fn take with
  | none => .next s
  | some _ => .next (s.abortSaved take 2)

/-- FREL (R332, R338): the fault record of a take that has ended is released (DEDUCED, log 22). -/
def execFrel (fn take : Nat) (s : State) : Out :=
  if (s.take? take).isSome then .next s
  else .next { s with frecs := s.frecs.filter fun f => f.fn != fn || f.take != take }

/-! ### Function-level reset (R340, R341) -/

/-- The runs of memory that step 2 scrubs. -/
def State.resetRuns (s : State) (fn : Nat) : List (Nat × Nat) :=
  (s.takes.filter fun t => t.fn == fn).flatMap (fun t =>
    (t.tensors.flatMap fun x => (x.2.frameKeys fn).map fun k => (k, frameBytes))
      ++ (if t.save = 0 then [] else [(t.save, frameBytes * t.saveFrames)]))
  ++ (s.frecs.filter fun f => f.fn == fn).map fun f => (f.key, f.size)

/-- The launch, lease and fault blocks return to their Reset values. -/
def Fn.blocksReset (f : Fn) : Fn :=
  { f with
    ctake := 0, cres := 0, badw := false, queue := [], lslim := 0, lsuse := 0, lsrmt := 0
    evbase := 0, esz := 0, evvec := 0, evhead := 0, evtail := 0, lost := false, lcnt := 0, flr := false }

/-- A take of a function that is reset: one that is not on clusters, or that is ending, goes no further, and one that is on
clusters freezes as for an abort (R305 steps 1 and 2). -/
def Take.resetStop (t : Take) : Take :=
  if t.st = .running || t.st = .frozen then { t with why := t.why ++ [.abort 3] } else { t with st := .ending, why := [], code := 3 }

/-- A context of such a take no longer waits for the stage manager's answer. -/
def CueCtx.resetStop (c : CueCtx) : CueCtx :=
  match c.stall with
  | some (.spawn _) | some (.zoneClose _) => { c with stall := none }
  | _ => c

/-- Does a function own a take identifier? -/
def State.owns (s : State) (fn take : Nat) : Bool := s.takes.any fun t => t.fn == fn && t.id == take

/-- R340 step 1: the function stops. -/
def State.resetStart (s : State) (fn : Nat) : State :=
  if (s.fn fn).flr then s
  else
    let cluster (c : Cluster) : Cluster := { c with
      ctx := tmap {} (fun _ (x : CueCtx) => if s.owns fn x.take then x.resetStop else x) c.ctx
      zones := tmap {} (fun _ (z : Zone) => if z.open_ && s.owns fn z.owner then { z with closing := true } else z) c.zones }
    ({ s with
      clusters := tmap {} (fun _ c => cluster c) s.clusters
      takes := s.takes.map fun (t : Take) => if t.fn = fn then t.resetStop else t }).updFn fn fun f => { f with flr := true, queue := [] }

/-- Has the function drained: its takes are at rest, and no request with its tag is outstanding (R340, R364)? -/
def State.resetDrained (s : State) (fn : Nat) : Bool :=
  (s.takes.all fun t => t.fn != fn || t.st == .ending) && !s.reqs.any fun r => r.fn == fn

/-- R340 steps 2 to 4. What the reset leaves alone is DEDUCED, log 24. -/
def State.resetFn (s : State) (fn : Nat) : State :=
  let mine := s.takes.filter fun t => t.fn == fn
  -- step 2
  let s := (s.resetRuns fn).foldl (fun s r => s.scrub r.1 r.2) s
  let s := (s.rleases.filter fun x => x.2.any fun l => l.fn == fn).foldl (fun s x => s.endRLease x.1) s
  -- step 3
  let s := s.endZones (fun o => mine.any fun t => t.id == o) false
  let s := s.orphanSlots fun x => x.spkg == s.pkgId && x.sfn.toNat == fn
  let s := s.reach.foldl (fun s p => s.send p clsMgmt (.fnReset fn)) s
  -- step 4
  let s := mine.foldl (fun s t => (s.releaseClusters t fun _ => {}).clearSaved t.id fun _ => {}) s
  let gone (take : Nat) : Bool := mine.any fun t => t.id == take
  let s := { s with
    takes := s.takes.filter fun t => t.fn != fn
    frecs := s.frecs.filter fun f => f.fn != fn
    pleases := s.pleases.filter fun p => !gone p.take
    rwaits := s.rwaits.filter fun w => w.fn != fn
    rplots := s.rplots.filter fun (x : RPlot) => x.fn != fn
    clusters := tmap {} (fun _ (c : Cluster) => { c with copy := c.copy.filter fun x => !gone x.1 }) s.clusters
    outbox := s.outbox ++ mine.map fun (t : Take) => OutMsg.resetLog fn (Take.id t) }
  s.updFn fn Fn.blocksReset

/-- A function that is being reset goes on when it has drained. -/
def State.resetOn (s : State) (fn : Nat) : State := if (s.fn fn).flr && s.resetDrained fn then s.resetFn fn else s

/-- FUNCTION_LEVEL_RESET (R340, R360): a function stops, and the steps follow once it has drained. The reset of a physical
function resets its virtual functions too. The turn of a reset that is under way drains that function further. -/
def execFunctionLevelReset (fn : Nat) (s : State) : Out :=
  if (s.fn fn).flr then .next (s.resetOn fn)
  else
    let l := if fn % 32 = 0 then (List.range 16).map (fn + ·) else [fn]
    .next (l.foldl State.resetOn (l.foldl State.resetStart s))

end Sys2Proof.Machine
end

