-- ==== Sys2Proof/Machine/Entries.lean ====
section
/-! DEFINITION. The element entries: each constructor fires its opcode on the current element (R115, R118 to R141). -/

namespace Sys2Proof.Machine

/-- ENTRY_MOV (R118). -/
def execEntryMov (e : Entry) (s : State) : Out := fireEntry 0x01 e s
/-- ENTRY_PASS (R118). -/
def execEntryPass (e : Entry) (s : State) : Out := fireEntry 0x02 e s
/-- ENTRY_DROP (R118). -/
def execEntryDrop (e : Entry) (s : State) : Out := fireEntry 0x03 e s
/-- ENTRY_SEL (R118). -/
def execEntrySel (e : Entry) (s : State) : Out := fireEntry 0x04 e s
/-- ENTRY_CSWP (R118). -/
def execEntryCswp (e : Entry) (s : State) : Out := fireEntry 0x05 e s
/-- ENTRY_SEND (R138). -/
def execEntrySend (e : Entry) (s : State) : Out := fireEntry 0x06 e s
/-- ENTRY_ADD (R120). -/
def execEntryAdd (e : Entry) (s : State) : Out := fireEntry 0x08 e s
/-- ENTRY_SUB (R120). -/
def execEntrySub (e : Entry) (s : State) : Out := fireEntry 0x09 e s
/-- ENTRY_MUL (R121). -/
def execEntryMul (e : Entry) (s : State) : Out := fireEntry 0x0a e s
/-- ENTRY_MULH (R121). -/
def execEntryMulh (e : Entry) (s : State) : Out := fireEntry 0x0b e s
/-- ENTRY_MAC (R121). -/
def execEntryMac (e : Entry) (s : State) : Out := fireEntry 0x0c e s
/-- ENTRY_MSB (R121). -/
def execEntryMsb (e : Entry) (s : State) : Out := fireEntry 0x0d e s
/-- ENTRY_MIN (R122). -/
def execEntryMin (e : Entry) (s : State) : Out := fireEntry 0x0e e s
/-- ENTRY_MAX (R122). -/
def execEntryMax (e : Entry) (s : State) : Out := fireEntry 0x0f e s
/-- ENTRY_ABS (R122). -/
def execEntryAbs (e : Entry) (s : State) : Out := fireEntry 0x10 e s
/-- ENTRY_NEG (R122). -/
def execEntryNeg (e : Entry) (s : State) : Out := fireEntry 0x11 e s
/-- ENTRY_SAT (R122). -/
def execEntrySat (e : Entry) (s : State) : Out := fireEntry 0x12 e s
/-- ENTRY_CMP (R123). -/
def execEntryCmp (e : Entry) (s : State) : Out := fireEntry 0x13 e s
/-- ENTRY_TEST (R123). -/
def execEntryTest (e : Entry) (s : State) : Out := fireEntry 0x14 e s
/-- ENTRY_MAXI (R124). -/
def execEntryMaxi (e : Entry) (s : State) : Out := fireEntry 0x15 e s
/-- ENTRY_MINI (R124). -/
def execEntryMini (e : Entry) (s : State) : Out := fireEntry 0x16 e s
/-- ENTRY_AND (R125). -/
def execEntryAnd (e : Entry) (s : State) : Out := fireEntry 0x18 e s
/-- ENTRY_OR (R125). -/
def execEntryOr (e : Entry) (s : State) : Out := fireEntry 0x19 e s
/-- ENTRY_XOR (R125). -/
def execEntryXor (e : Entry) (s : State) : Out := fireEntry 0x1a e s
/-- ENTRY_ANDN (R125). -/
def execEntryAndn (e : Entry) (s : State) : Out := fireEntry 0x1b e s
/-- ENTRY_NOT (R125). -/
def execEntryNot (e : Entry) (s : State) : Out := fireEntry 0x1c e s
/-- ENTRY_EXT (R126). -/
def execEntryExt (e : Entry) (s : State) : Out := fireEntry 0x1d e s
/-- ENTRY_INS (R126). -/
def execEntryIns (e : Entry) (s : State) : Out := fireEntry 0x1e e s
/-- ENTRY_SHL (R125). -/
def execEntryShl (e : Entry) (s : State) : Out := fireEntry 0x20 e s
/-- ENTRY_SHR (R125). -/
def execEntryShr (e : Entry) (s : State) : Out := fireEntry 0x21 e s
/-- ENTRY_SAR (R125). -/
def execEntrySar (e : Entry) (s : State) : Out := fireEntry 0x22 e s
/-- ENTRY_ROT (R125). -/
def execEntryRot (e : Entry) (s : State) : Out := fireEntry 0x23 e s
/-- ENTRY_CLZ (R125). -/
def execEntryClz (e : Entry) (s : State) : Out := fireEntry 0x24 e s
/-- ENTRY_CTZ (R125). -/
def execEntryCtz (e : Entry) (s : State) : Out := fireEntry 0x25 e s
/-- ENTRY_POPC (R125). -/
def execEntryPopc (e : Entry) (s : State) : Out := fireEntry 0x26 e s
/-- ENTRY_BREV (R125). -/
def execEntryBrev (e : Entry) (s : State) : Out := fireEntry 0x27 e s
/-- ENTRY_CVT (R127). -/
def execEntryCvt (e : Entry) (s : State) : Out := fireEntry 0x28 e s
/-- ENTRY_DEC (R128). -/
def execEntryDec (e : Entry) (s : State) : Out := fireEntry 0x29 e s
/-- ENTRY_ENC (R129). -/
def execEntryEnc (e : Entry) (s : State) : Out := fireEntry 0x2a e s
/-- ENTRY_PACK (R130). -/
def execEntryPack (e : Entry) (s : State) : Out := fireEntry 0x2b e s
/-- ENTRY_UNPK (R130). -/
def execEntryUnpk (e : Entry) (s : State) : Out := fireEntry 0x2c e s
/-- ENTRY_RND (R131). -/
def execEntryRnd (e : Entry) (s : State) : Out := fireEntry 0x2d e s
/-- ENTRY_RCP (R132). -/
def execEntryRcp (e : Entry) (s : State) : Out := fireEntry 0x30 e s
/-- ENTRY_RSQ (R132). -/
def execEntryRsq (e : Entry) (s : State) : Out := fireEntry 0x31 e s
/-- ENTRY_EXP2 (R132). -/
def execEntryExp2 (e : Entry) (s : State) : Out := fireEntry 0x32 e s
/-- ENTRY_LOG2 (R132). -/
def execEntryLog2 (e : Entry) (s : State) : Out := fireEntry 0x33 e s
/-- ENTRY_DIV (R132). -/
def execEntryDiv (e : Entry) (s : State) : Out := fireEntry 0x34 e s
/-- ENTRY_SQRT (R132). -/
def execEntrySqrt (e : Entry) (s : State) : Out := fireEntry 0x35 e s
/-- ENTRY_LUT (R135). -/
def execEntryLut (e : Entry) (s : State) : Out := fireEntry 0x36 e s
/-- ENTRY_CNT (R136). -/
def execEntryCnt (e : Entry) (s : State) : Out := fireEntry 0x38 e s
/-- ENTRY_HASH (R137). -/
def execEntryHash (e : Entry) (s : State) : Out := fireEntry 0x39 e s
/-- ENTRY_STAT (R141). -/
def execEntryStat (e : Entry) (s : State) : Out := fireEntry 0x3a e s
/-- ENTRY_HDR_LOAD (R140). -/
def execEntryHdrLoad (e : Entry) (s : State) : Out := fireEntry 0x07 { e with md := 0 } s
/-- ENTRY_HDR_BUILD (R140). -/
def execEntryHdrBuild (e : Entry) (s : State) : Out := fireEntry 0x07 { e with md := 1 } s

end Sys2Proof.Machine
end

