-- ==== Sys2Proof/Machine/Links.lean ====
section
/-! DEFINITION. The Silvis links: flits in and out (R352, R353, R358), accesses from other packages (R175, R324), routes
and reachability (R354, R356, R359), and ports (R355 to R357). -/

namespace Sys2Proof.Machine

/-! ### Accesses from other packages (R175, R264, R324) -/

/-- The frame under a remote lease that holds an offset of the tensor: the lease is the sender's, its term runs, and the
plot has not been recalled. -/
def State.remoteKey (s : State) (src lease off n : Nat) : Option (RLease × Nat) :=
  match tget none s.rleases lease with
  | none => none
  | some l =>
    let pl := off / frameBytes
    if l.src = src && s.cycle < l.until_ && l.first ≤ pl && !l.recalled.contains pl && off % frameBytes + n ≤ frameBytes then
      (l.frames[pl - l.first]?).map fun f => (l, hbmFrameKey f + off % frameBytes)
    else none

/-- The bytes of a request for one place. -/
def reqBytes : MemReq → Nat
  | .read n => n
  | .write b => b.length
  | .bits n _ _ _ => n
  | .amo _ sz _ _ => sizeBytes sz
  | .tile _ => 0

/-- A write of `w` bits from bit `lo` of the unit of `n` bytes at a key: the bytes that hold them. -/
def State.writeBits (s : State) (key n lo w v : Nat) : Option State :=
  let all := toBytes n (putBits (ofBytes (s.peek key n)) lo w v)
  s.tryWrite (key + lo / 8) ((all.drop (lo / 8)).take ((lo % 8 + w + 7) / 8))

/-- One element of a tile: an update gives the old value. -/
def State.serveElem (s : State) (key : Nat) (x : TileElem) : Option (State × List Byte) :=
  match x.upd with
  | some (op, sz) =>
    match s.amoLocal key op sz (BitVec.ofNat 64 x.v) 0 0 0 with
    | (s, some old) => some (s, toBytes (sizeBytes sz) old)
    | (_, none) => none
  | none => (s.writeBits key x.n x.lo x.w x.v).map fun s => (s, [])

/-- The elements of a tile in order; none at the first abort completion. -/
def State.serveTile (s : State) : List (TileElem × Nat) → Option (State × List Byte)
  | [] => some (s, [])
  | (x, key) :: rest =>
    match s.serveElem key x with
    | none => none
    | some (s, old) => (s.serveTile rest).map fun r => (r.1, old ++ r.2)

/-- What a request leaves, its completion, and what an uncorrectable error was that it met. -/
abbrev Served := State × MemRep × Option Word

/-- An uncorrectable error that a request meets (R265): its detection here, and its abort completion. -/
def State.servedBad (s : State) (a n : Nat) : Served := (s.uncorrectable a n 0 0, .abort, some (ueInfo s a n))

/-- A tile performed whole, or not at all (R265, R276). -/
def State.servesTile (s : State) (l : List (TileElem × Nat)) : Served :=
  match s.serveTile l with
  | some (s, old) => (s, if l.any fun x => x.1.upd.isSome then .data old else .ack, none)
  | none =>
    match l.find? fun x => (x.1.upd.isSome && s.readBad x.2 x.1.n) || s.writeBad x.2 x.1.n with
    | some x => s.servedBad x.2 x.1.n
    | none => (s, .abort, none)

/-- A request for one place, performed there, with its completion. -/
def State.serve (s : State) (key : Nat) : MemReq → Served
  | .read n =>
    match s.read key n 0 0 with
    | (s, some b) => (s, .data b, none)
    | (_, none) => s.servedBad key n
  | .write b =>
    match s.tryWrite key b with
    | some s => (s, .ack, none)
    | none => s.servedBad key b.length
  | .bits n lo w v =>
    match s.writeBits key n lo w v with
    | some s => (s, .ack, none)
    | none => s.servedBad key n
  | .amo op sz v x =>
    match s.amoLocal key op sz v x 0 0 with
    | (s, some old) => (s, .data (toBytes (sizeBytes sz) old), none)
    | (_, none) => s.servedBad key (sizeBytes sz)
  | .tile _ => (s, .abort, none)

/-- REMOTE_ACCESS_REQUEST (R175, R264, R324): an arrival under a lapsed, recalled or foreign lease is refused. -/
def execRemoteAccessRequest (src : Nat) (rq : Requester) (lease off : Nat) (req : MemReq) (s : State) : Out :=
  let r : Served :=
    match req with
    | .tile l =>
      match l.mapM fun x => (s.remoteKey src x.lease x.off x.n).map (·.2) with
      | none => (s, .abort, none)
      | some keys => s.servesTile (l.zip keys)
    | req =>
      match s.remoteKey src lease off (reqBytes req) with
      | none => (s, .abort, none)
      | some (_, key) => s.serve key req
  .next (r.1.send src clsMem (.memReply rq r.2.1 r.2.2))

/-! ### Completions (R175, R265, R335, R340, R364) -/

/-- The first outstanding request of a requester to a package, and the others. -/
def takeReq (pkg : Nat) (rq : Requester) : List Req → Option (Req × List Req)
  | [] => none
  | r :: t => if r.pkg = pkg && r.rq = rq then some (r, t) else (takeReq pkg rq t).map fun x => (x.1, r :: x.2)

/-- A completion that a requester has not given up reaches it. -/
def State.complies (s : State) (src : Nat) (wr : Bool) (rq : Requester) : MemRep → State
  | .abort => s.abortReq wr rq
  | .data b =>
    match rq with
    | .cueLoad cl k => s.postDev (.loadReply cl k b)
    | .inPort cl p => s.inReply cl p b
    | .outPort cl p => s.outReply cl p (.data b)
    | .matrix cl tid => s.mxReply cl tid b
    | .copyEntry cl take e => s.copyReply cl take e wr (.data b)
    | _ => s
  | .ack =>
    match rq with
    | .cueStore cl k tid => s.ackStore cl k src tid none
    | .mxReadWrite cl k tid path => s.ackStore cl k src tid (some path)
    | .outPort cl p => s.outReply cl p .ack
    | .copyEntry cl take e => s.copyReply cl take e wr .ack
    | _ => s

/-- Does a requester wait for its sequence stamp, each abort of which is an error (R241)? -/
def State.stamping (s : State) : Requester → Bool
  | .copyEntry cl take e => (tget {} (s.copyOf cl take).ents e).stamp.isSome
  | _ => false

/-- The error that an abort completion reports (R331): one found in memory there has raised the error interrupt there, and
its event goes to the take's function here. -/
def State.notice (s : State) (rq : Requester) (rep : MemRep) (ue : Option Word) : State :=
  if rep = .abort && s.stamping rq then s.detectReq rq (ue.getD linkInfo)
  else match ue with
    | some info => s.ueEvent (reqCl rq) (s.reqTake rq) info
    | none => s

/-- A completion from another package: it ends the oldest request of its requester there. One that the requester no longer
waits for is discarded. -/
def State.memReplied (s : State) (src : Nat) (rq : Requester) (rep : MemRep) (ue : Option Word) : State :=
  match takeReq src rq s.reqs with
  | none => s
  | some (r, rest) =>
    let s := ({ s with reqs := rest } : State).notice rq rep ue
    if r.stale then s else s.complies src r.wr rq rep

/-! ### The order of operations in one cycle (R274) -/

/-- The key of an operation on the memory of this package, by package, cluster and source. -/
def opKey (pkg cl src : Nat) : Nat := (pkg * 256 + cl) * 32 + src
def rqSource : Requester → Nat
  | .cueLoad _ k | .cueStore _ k _ | .mxReadWrite _ k _ _ | .overlay _ k _ => k
  | .outPort _ p => 4 + p % 16
  | .copyEntry _ _ _ => 20
  | _ => 31
/-- The key of a turn that performs such an operation. -/
def turnKey (pkg : Nat) : Turn → Option Nat
  | .issue cl k => some (opKey pkg cl k)
  | .dev (.tileCommit cl p) => some (opKey pkg cl (4 + p))
  | .dev (.copySector cl _ _) => some (opKey pkg cl 20)
  | .dev (.remoteAccessRequest src rq _ _ _) => some (opKey src (reqCl rq) (rqSource rq))
  | _ => none

/-- A request of another package takes its place among the operations of the cycle. -/
def State.postAccess (s : State) (src : Nat) (rq : Requester) (lease off : Nat) (req : MemReq) : State :=
  let k := opKey src (reqCl rq) (rqSource rq)
  s.postBefore (fun y => (turnKey s.pkgId.toNat y).any fun m => k < m) (.remoteAccessRequest src rq lease off req)

/-! ### Messages (R352) -/

/-- A message of another package is delivered. -/
def State.deliver (s : State) (src : Nat) : LinkMsg → State
  | .rsv cl z snd k => s.postRsv cl z snd k
  | .rsvReply cl k code size => s.postDev (.reservationReply cl k code size)
  | .rel cl z slot snd => s.postDev (.releaseMessage cl z slot snd)
  | .land cl z slot snd take e off b last => s.postLand cl z slot snd take e off b last
  | .landAck cl take e r => s.postDev (.landingAck cl take e r)
  | .mem rq lease off req => s.postAccess src rq lease off req
  | .memReply rq rep ue => s.memReplied src rq rep ue
  | .leaseAsk take tid fn off first count => s.postDev (.remoteLeaseRequest src take tid fn off first count)
  | .leaseGrant take tid lease first frames => s.postDev (.remoteLeaseGrant take tid lease first frames)
  | .leaseRefuse take _ => s.leaseRefused take
  | .leaseRenew lease => s.renewed src lease
  | .recall take tid plot => s.postDev (.remoteRecall take tid plot)
  | .recallAck lease plot => s.postDev (.recallAck lease plot)
  | .mgmt _ => s
  | .fnReset fn => s.orphanSlots fun x => x.spkg.toNat == src && x.sfn.toNat == fn

/-! ### Ports that send (R352)

Each cycle a port sends at most one flit. How many credits a class has the spec does not say: whether it may send is a free
choice (DESIGN CHOICE, log 21). -/

/-- The flit that a port sends next: MGMT first; LAND and MEM alternate when both wait. -/
def SvPort.pick (x : SvPort) (credit : Nat → Bool) : Option QFlit :=
  let first (c : Nat) : Option QFlit := if credit c then x.sendq.find? fun f => f.cls == c else none
  match first clsMgmt, first clsLand, first clsMem with
  | some f, _, _ => some f
  | none, some a, some b => some (if x.lastMem then a else b)
  | none, some a, none => some a
  | none, none, b => b

/-- The number under which the failures of a flit are counted, apart for the flits that arrive and for those that are sent. -/
def failIx (sent : Bool) (ix seq : Nat) : Nat := 2 * (2 ^ 14 * seq + ix) + if sent then 1 else 0

/-- One more send of a flit that has failed before: of the flits sent, the count of failures stands in the lowest four bits of
the value, and the sends since the last failure above them. -/
def SvPort.sentAgain (x : SvPort) (i : Nat) : SvPort :=
  if tget 0 x.fails i = 0 then x else { x with fails := tput 0 x.fails i (tget 0 x.fails i + 16) }
/-- A send of a flit has failed its check, as the far end reports: with more than one send since the last failure, one has
passed, and the failures are counted anew (R357; DESIGN CHOICE, log 21). -/
def SvPort.sendFailed (x : SvPort) (i : Nat) : SvPort :=
  let v := tget 0 x.fails i
  { x with fails := tput 0 x.fails i ((if v / 16 ≤ 1 then v % 16 else 0) + 1) }

/-- A port sends a flit; RSND counts one that has been sent before (R358). -/
def State.putFlit (s : State) (p : Nat) (f : QFlit) : State :=
  let y := s.pin (pinIx f.pkg f.cls)
  ((s.updPort p fun q => ({ q with
    sendq := q.sendq.erase f
    rsnd := if f.seq < y.out then satInc q.rsnd else q.rsnd
    lastMem := if f.cls = clsMgmt then q.lastMem else f.cls == clsMem } : SvPort).sentAgain (failIx true (pinIx f.pkg f.cls) f.seq)).updPin (pinIx f.pkg f.cls)
      fun y => { y with out := max y.out (f.seq + 1) }).emit (.flit p f.pkg s.pkgId.toNat f.cls f.seq y.rcv f.load)

def State.sendOne (s : State) (p : Nat) : State :=
  let x := s.svport p
  if x.st ≠ .up || x.sendq.isEmpty then s
  else
    let r := s.freePick
    match x.pick fun c => r.1.testBit c with
    | none => r.2
    | some f => r.2.putFlit p f

/-! ### Reachability (R355, R359) -/

/-- SVEVT: a set record is not overwritten; a recorded event signals SVVEC of the physical functions. -/
def State.svRecord (s : State) (kind port pkg : Nat) : State :=
  if bit s.svevt 63 then s
  else
    (({ s with svevt := flag true 63 ||| at_ kind 60 ||| at_ (port % 64) 54 ||| at_ (pkg % 4096) 42 } : State).msix 0 s.svvec.toNat).msix
      32 s.svvec.toNat

/-- The flits of a package and class leave the queues of the ports. -/
def State.unqueue (s : State) (pkg cls : Nat) : State :=
  { s with svports := tmap {} (fun _ (x : SvPort) => { x with sendq := x.sendq.filter fun f => f.pkg != pkg || f.cls != cls }) s.svports }

/-- Does a flit of a package and class wait in a port? -/
def State.queued (s : State) (pkg cls n : Nat) : Bool :=
  s.svports.any fun x => x.2.sendq.any fun f => f.pkg == pkg && f.cls == cls && f.seq == n

/-- The unacknowledged flits of a package and class from a number on are sent again, in order, on the port they are pinned to
(R358), after those that wait there already. -/
def State.resendFrom (s : State) (pkg cls seq : Nat) : State :=
  match s.pinPort pkg cls with
  | (none, s) => s
  | (some p, s) =>
    let l := (s.pin (pinIx pkg cls)).retry.filter fun y => seq ≤ y.1 || s.queued pkg cls y.1
    (s.unqueue pkg cls).updPort p fun q => { q with sendq := q.sendq ++ l.map fun y => (⟨pkg, cls, y.1, y.2⟩ : QFlit) }

/-- Contexts whose reservation at a package has no answer. -/
def reserving (pkg : Nat) (c : Cluster) : List Nat :=
  c.ctx.filterMap fun x =>
    match x.2.stall with
    | some (.rsv _ p _ _) => if p.toNat = pkg then some x.1 else none
    | _ => none

/-- A request is lost with its route: the error is detected (R265, R331), and the requester receives an abort completion. -/
def State.lostReq (s : State) (r : Req) : State :=
  let s := s.detectReq r.rq linkInfo
  if r.stale then s else s.abortReq r.wr r.rq

/-- R324: V is cleared on every plot of a package, and its leases are forgotten. -/
def State.clearPeer (s : State) (pkg : Nat) : State :=
  let clear (x : Nat × Tensor) : Nat × Tensor :=
    if x.2.res = 3 && x.2.peerPkg = pkg then (x.1, { x.2 with plots := tmap 0 (fun _ e => e &&& ~~~ flag true 63) x.2.plots }) else x
  { s with takes := s.takes.map fun t => { t with tensors := t.tensors.map clear }, pleases := s.pleases.filter fun p => p.pkg != pkg }

/-- Its flits are numbered anew, and the failures of the old ones no longer count. -/
def State.restartFlits (s : State) (pkg cls : Nat) : State :=
  let ix := pinIx pkg cls
  let s := (s.updPin ix fun _ => {}).unqueue pkg cls
  { s with svports := tmap {} (fun _ (x : SvPort) => { x with fails := x.fails.filter fun y => y.1 / 2 % 2 ^ 14 != ix }) s.svports }

/-- R359: a package becomes unreachable. -/
def State.routeDown (s : State) (pkg : Nat) : State :=
  let s := ({ s with reach := s.reach.filter fun p => p != pkg } : State).svRecord 3 0 pkg
  -- step 2: flits are discarded, and requests receive abort completions
  let s := (List.range 3).foldl (fun s c => s.restartFlits pkg c) s
  let lost := s.reqs.filter fun r => r.pkg == pkg
  let s := lost.foldl State.lostReq { s with reqs := s.reqs.filter fun r => r.pkg != pkg }
  -- step 3
  let s := ((s.orphanSlots fun x => x.spkg.toNat == pkg).copyLinkDown pkg).clearPeer pkg
  -- step 4
  s.clusters.foldl (fun s c => (reserving pkg c.2).foldl (fun s k => s.rsvReplied c.1 k (-3) 0) s) s

/-- The packages that have a route over a port. -/
def State.routesOver (s : State) (p : Nat) : List Nat :=
  (s.routes.filter fun x => maskBit x.2 p && x.1 != s.pkgId.toNat).map (·.1)

/-- The pairs and classes of a package that are pinned to a port which no longer serves them move to another (R356, R358). -/
def State.repin (s : State) (pkg : Nat) : State :=
  let l := s.upPorts pkg
  (List.range 3).foldl (fun s c =>
    match (s.pin (pinIx pkg c)).port with
    | some p => if l.contains p then s else (s.updPin (pinIx pkg c) fun x => { x with port := none }).resendFrom pkg c 0
    | none => s) s

/-- Reachability of a package after a change of its route or of a port (R354, R359). -/
def State.reroute (s : State) (pkg : Nat) : State :=
  if pkg = s.pkgId.toNat then s
  else if (s.upPorts pkg).isEmpty then (if s.reachable pkg then s.routeDown pkg else s)
  else if s.reachable pkg then s.repin pkg
  else ({ s with reach := s.reach ++ [pkg] } : State).svRecord 4 0 pkg

/-! ### Ports (R355 to R357, R381) -/

/-- A port no longer carries flits. -/
def State.losePort (s : State) (p : Nat) (st : PortSt) : State :=
  (s.routesOver p).foldl State.reroute (s.updPort p fun x => { x with st := st, lanes := 0, sendq := [], fails := [] })

/-- A port goes DOWN (R357). -/
def State.portFails (s : State) (p : Nat) : State :=
  if (s.svport p).st = .disabled || (s.svport p).st = .down then s
  else ((s.updPort p fun x => { x with downs := satInc x.downs }).svRecord 1 p 0).losePort p .down

/-- Is the die of a port in full service? In the other states its links are down (R381). -/
def State.linkFull (s : State) (p : Nat) : Bool := (s.die (p / 12)).st == .full

/-- PORT_DOWN (R357): fewer than 2 lanes keep lock. -/
def execPortDown (p : Nat) (s : State) : Out := .next (s.portFails p)

/-- PORT_UP (R357): training succeeds on 4 or 2 lanes. -/
def execPortUp (p lanes ppkg pport : Nat) (s : State) : Out :=
  if (s.svport p).en && (s.svport p).st ≠ .up && (lanes = 2 || lanes = 4) && s.linkFull p then
    let s := s.updPort p fun x => { x with
      st := .up, lanes := BitVec.ofNat 3 lanes, ppkg := BitVec.ofNat 12 ppkg, pport := BitVec.ofNat 6 pport }
    .next ((s.routesOver p).foldl State.reroute (s.svRecord 2 p 0))
  else .next s

/-- SVCTL_EN (R356): while EN is 0 the port is DISABLED; setting it starts training. -/
def execSvctlEn (p : Nat) (en : Bool) (s : State) : Out :=
  let was := (s.svport p).en
  let s := s.updPort p fun x => { x with en := en }
  if en then .next (if was then s else s.updPort p fun x => { x with st := if s.linkFull p then .training else .down })
  else .next (s.losePort p .disabled)

/-- SVCTL_DOWN (R356, R357): firmware takes the port DOWN at once. -/
def execSvctlDown (p : Nat) (s : State) : Out := .next (s.portFails p)

/-- SVRT_WRITE (R356). -/
def execSvrtWrite (i : Nat) (mask : Word) (s : State) : Out :=
  .next (({ s with routes := tput 0 s.routes i (mask.setWidth 48) } : State).reroute i)

/-- SVDOM_WRITE (R355). -/
def execSvdomWrite (v : Word) (s : State) : Out :=
  .next { s with pkgId := if s.svLock then s.pkgId else v.setWidth 12, svLock := s.svLock || bit v 63 }

/-! ### Flits (R353, R357, R358) -/

/-- One more receipt of a flit has failed its check. -/
def SvPort.failed (x : SvPort) (i : Nat) : SvPort := { x with fails := tput 0 x.fails i (tget 0 x.fails i + 1) }
/-- A flit has passed its check. -/
def SvPort.passed (x : SvPort) (i : Nat) : SvPort := { x with fails := tput 0 x.fails i 0 }
/-- The flits sent below a number have been acknowledged. -/
def SvPort.acked (x : SvPort) (ix n : Nat) : SvPort :=
  { x with fails := x.fails.filter fun y => !(y.1 % 2 == 1 && y.1 / 2 % 2 ^ 14 == ix && y.1 / 2 ^ 15 < n) }

/-- A flit has failed its check: the port goes DOWN when 8 sends of it in a row have (R357). -/
def State.flitFails (s : State) (p i : Nat) (f : SvPort → Nat → SvPort) (k : State → State) : State :=
  let s := s.updPort p fun x => f x i
  if 8 ≤ tget 0 (s.svport p).fails i then s.portFails p else k s

/-- FLIT_RECEIVE (R353, R358): the flit that fails its check is asked for again; acknowledged flits leave the retry buffer;
a flit of a package and class is accepted only in sequence, and a message when its last flit is. -/
def execFlitReceive (port spkg cls seq ack : Nat) (ok : Bool) (m : Payload) (s : State) : Out :=
  let ix := pinIx spkg cls
  if (s.svport port).st ≠ .up then .next s
  else if !ok then
    .next ((s.errorIrq (port / 12)).flitFails port (failIx false ix seq) SvPort.failed fun s => s.emit (.resend port spkg cls seq))
  else
    let s := (s.updPin ix fun x => { x with retry := x.retry.filter fun y => ack ≤ y.1 }).updPort port fun x =>
      (x.passed (failIx false ix seq)).acked ix ack
    if seq = (s.pin ix).rcv then
      let s := s.updPin ix fun x => { x with rcv := x.rcv + 1 }
      .next (if m.part + 1 = m.parts then s.deliver spkg m.msg else s)
    else .next s

/-- RESEND_REQUEST (R357, R358): a flit that was sent has failed its check at the far end. -/
def execResendRequest (port dpkg cls seq : Nat) (s : State) : Out :=
  .next (s.flitFails port (failIx true (pinIx dpkg cls) seq) SvPort.sendFailed fun s => s.resendFrom dpkg cls seq)

end Sys2Proof.Machine
end

