-- ==== Sys2Proof/Machine/Host.lean ====
section
/-! DEFINITION. The host's accesses: the BAR0 map as it is read and written (R7, R294, R321, R332, R355, R356, R361, R363,
R365, R376, R377, R380, R382, R385, R386), the BAR registers (R361), the window onto the pool (R361, R362, R366), and AtomicOps to a BAR (R360). -/

namespace Sys2Proof.Machine

/-! ### Functions (R360, R364) -/

/-- A function tag that a host driver may act for. -/
def isFunction (fn : Nat) : Bool := fn < 64 && fn % 32 < 16
/-- The physical function of either link. -/
def isPhysical (fn : Nat) : Bool := isFunction fn && fn % 32 == 0

/-! ### LAUNCH (R294) -/

/-- LAUNCH (R294): the record is submitted; a reserved space or nonzero bits [7:2] set BADW and are ignored. A function that
is being reset ignores the write (R340). -/
def execLaunch (fn : Nat) (ref : Word) (s : State) : Out :=
  if s.resets fn then .next s
  else if 2 ≤ bits ref 1 0 || bits ref 7 2 ≠ 0 then .next (s.updFn fn fun f => { f with badw := true })
  else .next (s.updFn fn fun f => { f with queue := f.queue ++ [{ ref := ref, full := 64 ≤ s.qdepth fn }] })

/-! ### MSI-X (R361, R365) -/

/-- The mask bit of a vector is written; unmasking sends a message that is pending. -/
def State.msixMaskWrite (s : State) (fn vec : Nat) (m : Bool) : State :=
  let pending := maskBit (s.fn fn).msixPend vec
  let s := s.updFn fn fun f => { f with msixMask := setBit f.msixMask vec m }
  if !m && pending then (s.updFn fn fun f => { f with msixPend := setBit f.msixPend vec false }).emit (.msix fn vec) else s

/-- MSIX_UNMASK (R365). -/
def execMsixUnmask (fn vec : Nat) (s : State) : Out :=
  if vec < 64 then .next (s.msixMaskWrite fn vec false) else .next s

/-! ### Writes of a function's own blocks (R294, R332, R361) -/

/-- W1C LOST also clears LCNT (R332). -/
def Fn.clearLost (f : Fn) (v : Word) : Fn := if bit v 63 then { f with lost := false, lcnt := 0 } else f

/-- A write of TAKECTL (R332): TACT 1 RESUME, 2 ABORT; any other value ignores the write. -/
def State.takectlWrite (s : State) (fn : Nat) (v : Word) : Out :=
  match bits v 63 62 with
  | 1 => execTakectlResume fn (bits v 31 0) s
  | 2 => execTakectlAbort fn (bits v 31 0) s
  | _ => .next s

/-- A write of a word of the MSI-X table: 16 bytes an entry, the address, then the data and the mask (PRESUMED, log 6). -/
def State.msixWrite (s : State) (fn o : Nat) (v : Word) : State :=
  if o % 16 = 0 then s.updFn fn fun f => { f with msixAddr := tput 0 f.msixAddr (o / 16) v }
  else if o % 16 = 8 then
    (s.updFn fn fun f => { f with msixData := tput 0 f.msixData (o / 16) (v.setWidth 32) }).msixMaskWrite fn (o / 16) (bit v 32)
  else s

/-- A write of a function's own blocks. -/
def State.ownWrite (s : State) (fn off : Nat) (v : Word) (fw : Bool) : Out :=
  match off with
  | 0x000 => execLaunch fn v s
  | 0x008 => execCancel fn (bits v 31 0) s
  | 0x018 => .next (s.updFn fn fun f => if bit v 63 then { f with badw := false } else f)
  | 0x100 => .next (if fw then s.updFn fn fun f => { f with lslim := v.setWidth 32 } else s)
  | 0x200 => .next (s.updFn fn fun f => { f with evbase := v })
  | 0x208 => .next (s.updFn fn fun f => { f with esz := BitVec.ofNat 4 (min 8 (bits v 35 32)), evvec := v.setWidth 16 })
  | 0x218 => .next (s.updFn fn fun f => { f with evtail := v.setWidth 32 })
  | 0x220 => s.takectlWrite fn v
  | 0x228 => execFrel fn (bits v 31 0) s
  | 0x230 => .next (s.updFn fn fun f => f.clearLost v)
  | o => .next (if 0x1000 ≤ o && o < 0x1400 then s.msixWrite fn (o - 0x1000) v else s)

/-! ### Writes of the blocks of a physical function (R386) -/

/-- A write of a mailbox (R382): arguments, and GO. -/
def Mailbox.write (b : Mailbox) (fn o : Nat) (v : Word) : Mailbox :=
  if o < 0x40 && o % 8 = 0 then { b with args := Vector.ofFn fun (i : Fin 8) => if i.val = o / 8 then v else b.args[i] }
  else if o = 0x40 && bit v 63 then b.go fn (v.setWidth 8)
  else b

/-- The root steward block (R385). -/
def State.stewardWrite (s : State) (fn o : Nat) (v : Word) : State :=
  if 0x400 ≤ o then { s with steward := { s.steward with box := s.steward.box.write fn (o - 0x400) v } } else s

/-- The stage manager block of a die (R376, R385). -/
def State.stageWrite (s : State) (die fn o : Nat) (v : Word) (fw : Bool) : Out :=
  if o = 0x010 then .next (if fw then s.updDie die fun d => { d with elogbase := v } else s)
  else if 0x100 ≤ o && o < 0x150 then .next (s.updDie die fun d => { d with box := d.box.write fn (o - 0x100) v })
  else if 0x200 ≤ o && o < 0x300 && o % 8 = 0 then execVreqWrite (32 * die + (o - 0x200) / 8) v s
  else .next s

/-- The package power block (R377). -/
def State.powerWrite (s : State) (o : Nat) (v : Word) : Out :=
  match o with
  | 0 => .next { s with pkglim := BitVec.ofNat 16 (min 1800 (bits v 15 0)) }
  | 8 => execPeakClear s
  | _ => .next s

/-- The sampling entry of a function (R380). -/
def Fn.sampleWrite (f : Fn) (o : Nat) (v : Word) : Fn :=
  match o with
  | 0x00 => { f with psbase := v, psen := f.psen && v != 0 }
  | 0x08 => { f with psen := bit v 63 && f.psbase != 0, psz2 := BitVec.ofNat 4 (min 8 (bits v 35 32)) }
  | 0x10 => { f with pstail := BitVec.ofNat 32 (bits v 63 32) }
  | 0x18 => { f with pslost := if bit v 0 then 0 else f.pslost }
  | _ => f

/-- The function of entry `e` of the sampling block (R380). -/
def sampleFn (e : Nat) : Nat := 32 * (e / 16) + e % 16
def State.sampleBlockWrite (s : State) (o : Nat) (v : Word) : State :=
  if o < 0x400 then s.updFn (sampleFn (o / 32)) fun f => f.sampleWrite (o % 32) v else s

/-- The Silvis block (R355, R356). -/
def State.svPortWrite (s : State) (p : Nat) (v : Word) : State :=
  s.updPort p fun x => { x with rsnd := if bit v 16 then 0 else x.rsnd, downs := if bit v 0 then 0 else x.downs }
def State.svctlWrite (s : State) (p : Nat) (v : Word) : Out :=
  match execSvctlEn p (bit v 63) s with
  | .next s => if bit v 62 then execSvctlDown p s else .next s
  | r => r
def State.silvisWrite (s : State) (o : Nat) (v : Word) (fw : Bool) : Out :=
  if o % 8 ≠ 0 then .next s
  else if o = 0 then (if fw then execSvdomWrite v s else .next s)
  else if 0x100 ≤ o && o < 0x280 then .next (s.svPortWrite ((o - 0x100) / 8) v)
  else if o = 0x600 then .next { s with svevt := if bit v 63 then s.svevt &&& ~~~ flag true 63 else s.svevt }
  else if o = 0x608 then .next { s with svvec := if fw then v.setWidth 16 else s.svvec }
  else if 0x800 ≤ o && o < 0x980 then (if fw then s.svctlWrite ((o - 0x800) / 8) v else .next s)
  else if 0x8000 ≤ o && o < 0x10000 then (if fw then execSvrtWrite ((o - 0x8000) / 8) v s else .next s)
  else .next s

/-- The control block of a cluster (R160, R263, R312). -/
def State.clusterWrite (s : State) (cl o : Nat) (v : Word) (fw : Bool) : Out :=
  match o with
  | 0x400 => .next (if fw then s.updCluster cl fun c => { c with hzctl := v.setWidth 4 } else s)
  | 0x408 => .next (s.updCluster cl fun c => { c with hzrec := if bit v 63 then c.hzrec &&& ~~~ flag true 63 else c.hzrec })
  | 0x500 => execVerrClear cl v s
  | 0x508 => if fw then execVbfailWrite cl v s else .next s
  | 0x600 => .next (if cl % 2 = 0 && bit v 0 then s.updPair (pairOf cl) fun p => { p with drpcnt := 0 } else s)
  | _ => .next s

/-! ### Reads of BAR0 -/

/-- A function's own blocks, as they read. -/
def State.ownRead (s : State) (fn off : Nat) : Word :=
  let f := s.fn fn
  match off with
  | 0x010 => at_ f.ctake.toNat 32 ||| f.cres.setWidth 64
  | 0x018 => flag f.badw 63 ||| at_ (min 64 (s.qdepth fn)) 0
  | 0x100 => f.lslim.setWidth 64
  | 0x108 => at_ f.lsrmt.toNat 32 ||| f.lsuse.setWidth 64
  | 0x200 => f.evbase
  | 0x208 => at_ f.esz.toNat 32 ||| f.evvec.setWidth 64
  | 0x210 => f.evhead.setWidth 64
  | 0x218 => f.evtail.setWidth 64
  | 0x230 => flag f.lost 63 ||| f.lcnt.setWidth 64
  | 0x320 => at_ f.psz.toNat 32
  | 0x2000 => f.msixPend
  | o =>
    if o % 8 ≠ 0 then 0
    else if 0x300 ≤ o && o < 0x320 then f.clset.extractLsb' (64 * ((o - 0x300) / 8)) 64
    else if 0x328 ≤ o && o < 0x368 then (f.pbase.getD ((o - 0x328) / 8) 0).setWidth 64
    else if 0x1000 ≤ o && o < 0x1400 then
      let i := (o - 0x1000) / 16
      if o % 16 = 0 then tget 0 f.msixAddr i else at_ (b2n (maskBit f.msixMask i)) 32 ||| (tget 0 f.msixData i).setWidth 64
    else 0

/-- A mailbox, as it reads (R382). -/
def Mailbox.read (b : Mailbox) (o : Nat) : Word :=
  if o < 0x40 && o % 8 = 0 then b.arg (o / 8)
  else if o = 0x48 then flag b.busy 63 ||| at_ b.res.toNat 8 ||| b.lcmd.setWidth 64
  else 0

def State.stewardRead (s : State) (o : Nat) : Word :=
  let w := s.steward
  if o = 0 then at_ 0x9256 48 ||| at_ w.rev.toNat 40
  else if o = 8 then at_ w.phase.toNat 60 ||| at_ w.fcause.toNat 56
  else if 0x100 ≤ o && o < 0x280 && o % 8 = 0 then
    let i := (o - 0x100) / 8
    (w.mreg.toList.getD (i / 6) 0).extractLsb' (64 * (5 - i % 6)) 64
  else if 0x400 ≤ o then w.box.read (o - 0x400)
  else 0

def DState.code : DState → Nat
  | .reset => 0 | .selftest => 1 | .reduced => 2 | .full => 3 | .failed => 4

/-- PAIRV (R376). -/
def State.pairvRead (s : State) (pair : Nat) : Word :=
  let p := s.pair pair
  at_ (binAt p.vnow.toNat) 62 ||| at_ (binAt (s.floorOf pair)) 60 ||| flag p.hold 59 ||| flag p.settled 58
    ||| at_ p.vnow.toNat 48 ||| at_ p.vreq.toNat 22 ||| p.pwrmask.setWidth 64

/-- FEATIMPL (R307, R385). -/
def featimpl : Word := 0xFF

def State.stageRead (s : State) (die o : Nat) : Word :=
  let d := s.die die
  if o = 0 then at_ d.st.code 0
  else if o = 8 then featimpl
  else if o = 0x010 then d.elogbase
  else if o = 0x018 then d.eloghead.setWidth 64
  else if 0x100 ≤ o && o < 0x150 then d.box.read (o - 0x100)
  else if 0x200 ≤ o && o < 0x300 && o % 8 = 0 then s.pairvRead (32 * die + (o - 0x200) / 8)
  else 0

def State.powerRead (s : State) (o : Nat) : Word :=
  match o with
  | 0x00 => s.pkglim.setWidth 64
  | 0x08 => at_ s.peak.toNat 16 ||| s.pkgpwr.setWidth 64
  | 0x10 => at_ s.bkwin.toNat 16 ||| s.bkmask.setWidth 64
  | _ => 0

def State.sampleRead (s : State) (o : Nat) : Word :=
  let f := s.fn (sampleFn (o / 32))
  if 0x400 ≤ o then 0
  else
    match o % 32 with
    | 0x00 => f.psbase
    | 0x08 => flag f.psen 63 ||| at_ f.psz2.toNat 32
    | 0x10 => at_ f.pstail.toNat 32 ||| f.pshead.setWidth 64
    | 0x18 => f.pslost.setWidth 64
    | _ => 0

def PortSt.code : PortSt → Nat
  | .disabled => 0 | .down => 1 | .training => 2 | .up => 3

/-- SVPORT (R355). -/
def SvPort.word (x : SvPort) : Word :=
  at_ x.st.code 62 ||| at_ x.lanes.toNat 59 ||| at_ x.ppkg.toNat 47 ||| at_ x.pport.toNat 41 ||| at_ x.rsnd.toNat 16
    ||| x.downs.setWidth 64

def State.silvisRead (s : State) (o : Nat) : Word :=
  if o % 8 ≠ 0 then 0
  else if o = 0 then flag s.svLock 63 ||| s.pkgId.setWidth 64
  else if 0x100 ≤ o && o < 0x280 then (s.svport ((o - 0x100) / 8)).word
  else if 0x400 ≤ o && o < 0x600 then
    (List.range 64).foldl (fun w b => w ||| flag (s.reachable (64 * ((o - 0x400) / 8) + b)) b) 0
  else if o = 0x600 then s.svevt
  else if o = 0x608 then s.svvec.setWidth 64
  else if 0x800 ≤ o && o < 0x980 then flag (s.svport ((o - 0x800) / 8)).en 63
  else if 0x8000 ≤ o && o < 0x10000 then (tget 0 s.routes ((o - 0x8000) / 8)).setWidth 64
  else 0

/-- PAIRSTAT (R312); the block of an upper cluster reads 0. -/
def State.pairstatRead (s : State) (cl : Nat) : Word :=
  if cl % 2 ≠ 0 then 0
  else
    let p := s.pair (pairOf cl)
    let arb (c : Nat) : Nat := (s.cluster c).regions.foldl (fun n x => n + popcount x.2.arb) 0
    flag p.drp 63 ||| flag p.heavy 62 ||| at_ p.imbal.toNat 48 ||| at_ ((arb cl + arb (cl + 1)) % 65536) 32
      ||| p.drpcnt.setWidth 64

def State.clusterRead (s : State) (cl o : Nat) : Word :=
  let c := s.cluster cl
  match o with
  | 0x400 => c.hzctl.setWidth 64
  | 0x408 => c.hzrec
  | 0x500 => c.verr
  | 0x508 => c.vbfail.setWidth 64
  | 0x600 => s.pairstatRead cl
  | _ => 0

/-- The 64-bit word that a function's BAR0 reads at an offset (R7, R386). -/
def State.barRead (s : State) (fn off : Nat) : Word :=
  if !isFunction fn then 0
  else if off < 0x10000 then s.ownRead fn off
  else if !isPhysical fn then 0
  else if off < 0x20000 then s.stewardRead (off - 0x10000)
  else if off < 0x60000 then s.stageRead ((off - 0x20000) / 0x10000) (off % 0x10000)
  else if off < 0x70000 then s.powerRead (off - 0x60000)
  else if off < 0x80000 then s.sampleRead (off - 0x70000)
  else if off < 0x100000 then 0
  else if off < 0x110000 then s.silvisRead (off - 0x100000)
  else if off < 0x1000000 then 0
  else if off < 0x2000000 then s.clusterRead ((off - 0x1000000) / 0x10000) (off % 0x10000)
  else 0

/-! ### Writes of registers (R7, R332, R386) -/

/-- Registers with bits that a 1 clears: what else they hold is read-only. -/
def holdsW1c (fn off : Nat) : Bool :=
  off == 0x018 || off == 0x230 ||
    isPhysical fn &&
      (off == 0x60008 || 0x70000 ≤ off && off < 0x70400 && off % 32 == 0x18
        || 0x100100 ≤ off && off < 0x100280 || off == 0x100600
        || 0x1000000 ≤ off && off < 0x2000000 && (off % 0x10000 == 0x408 || off % 0x10000 == 0x500 || off % 0x10000 == 0x600))

/-- The 64-bit write that a narrower write of `n` bytes comes to: the register keeps its other bytes, and bits that a 1 clears
stay (DESIGN CHOICE, log 28). -/
def State.widen (s : State) (fn off n : Nat) (v : Word) : Word :=
  let o := off / 8 * 8
  BitVec.ofNat 64 (putBits (if holdsW1c fn o then 0 else (s.barRead fn o).toNat) (8 * (off % 8)) (8 * n) v.toNat)

/-- A 64-bit write of a register of BAR0. A virtual function reaches its own blocks; what no table lists ignores the write. -/
def State.barWrite (s : State) (fn off : Nat) (v : Word) (fw : Bool) : Out :=
  if off < 0x10000 then s.ownWrite fn off v fw
  else if !isPhysical fn then .next s
  else if off < 0x20000 then .next (s.stewardWrite fn (off - 0x10000) v)
  else if off < 0x60000 then s.stageWrite ((off - 0x20000) / 0x10000) fn (off % 0x10000) v fw
  else if off < 0x70000 then s.powerWrite (off - 0x60000) v
  else if off < 0x80000 then .next (s.sampleBlockWrite (off - 0x70000) v)
  else if off < 0x100000 then .next s
  else if off < 0x110000 then s.silvisWrite (off - 0x100000) v fw
  else if off < 0x1000000 then .next s
  else if off < 0x2000000 then s.clusterWrite ((off - 0x1000000) / 0x10000) (off % 0x10000) v fw
  else .next s

/-- REGISTER_WRITE (R7, R332, R386): a write at an offset of a function's BAR0, by the host or by a firmware core.
TAKECTL ignores a write narrower than 64 bits. -/
def execRegisterWrite (fn off : Nat) (d : RegData) (fw : Bool) (s : State) : Out :=
  if !isFunction fn then .next s
  else if 8 ≤ d.n then s.barWrite fn off d.v fw
  else if off / 8 * 8 = 0x220 || d.n = 0 || 8 < off % 8 + d.n then .next s
  else s.barWrite fn (off / 8 * 8) (s.widen fn off d.n d.v) fw

/-! ### The BAR registers (R361)

They lie in configuration space, whose accesses no row of the opcode table names: these two operations give what such an access
does. The low bits that tell type and size are the PCI Express ones (PRESUMED, log 6). -/

/-- The size of the BAR that the register pair from number `i` on describes, and whether it is prefetchable. -/
def State.barKind (s : State) (fn i : Nat) : Option (Nat × Bool) :=
  if !isFunction fn then none
  else if i = 0 then some (if isPhysical fn then 2 ^ 26 else 2 ^ 16, false)
  else if i = 2 && 30 ≤ (s.fn fn).psz.toNat then some (2 ^ (s.fn fn).psz.toNat, true)
  else none

/-- What BAR register `i` reads: the address bits above the size, and in the lower register of a pair its type; an unused one
reads 0. -/
def State.barReg (s : State) (fn i : Nat) : BitVec 32 :=
  match s.barKind fn (i / 2 * 2) with
  | none => 0
  | some (size, pre) =>
    let held (j : Nat) : BitVec 32 := tget 0 (s.fn fn).bars (i / 2 * 2 + j)
    let a : Word := (held 1 ++ held 0) &&& ~~~ BitVec.ofNat 64 (size - 1)
    if i % 2 = 1 then (a >>> 32).setWidth 32 else a.setWidth 32 ||| 4 ||| (if pre then 8 else 0)

/-- A write of BAR register `i`. -/
def State.barRegWrite (s : State) (fn i : Nat) (v : BitVec 32) : State :=
  if (s.barKind fn (i / 2 * 2)).isSome then s.updFn fn fun f => { f with bars := tput 0 f.bars i v } else s

/-! ### The window onto the pool (R361, R362, R366) -/

/-- The runs of memory that a window access touches, when the pool holds all of it. -/
def State.windowRuns (s : State) (fn off n : Nat) : Option (List (Nat × Nat)) :=
  let l := (s.fn fn).poolRuns off n 9
  if l.foldl (fun k x => k + x.2) 0 = n && n ≠ 0 then some l else none

/-- The pieces of a window write, each performed at its memory (R264, R366). -/
def State.writeRuns (s : State) : List (Nat × Nat) → List Byte → State
  | [], _ => s
  | r :: rest, b =>
    let s := match s.tryWrite r.1 (b.take r.2) with
      | some s => s
      | none => s.uncorrectable r.1 r.2 0 0
    s.writeRuns rest (b.drop r.2)

/-- WINDOW_WRITE (R366). -/
def execWindowWrite (fn off : Nat) (bytes : List Byte) (s : State) : Out :=
  match s.windowRuns fn off bytes.length with
  | some l => .next (s.writeRuns l bytes)
  | none => .next (s.emit (.unsupported fn))

/-- WINDOW_READ (R366): the data as memory performs it, or an abort completion (R265). -/
def execWindowRead (fn off n : Nat) (s : State) : Out :=
  match s.windowRuns fn off n with
  | none => .next (s.emit (.unsupported fn))
  | some l =>
    match s.readRuns l 0 0 with
    | (s, some b) => .next (s.emit (.readData fn b))
    | (s, none) => .next (s.emit (.readAbort fn))

/-- BAR_ATOMICOP (R360): no BAR completes an AtomicOp. -/
def execBarAtomicop (fn _ _ : Nat) (s : State) : Out := .next (s.emit (.unsupported fn))

end Sys2Proof.Machine
end

