-- ==== Sys2Proof/Machine/Dispatch.lean ====
section
/-! DEFINITION. The dispatch: one arm per instruction, each a direct call of its meaning. -/

namespace Sys2Proof.Machine

def exec (i : Instr) (s : State) : Host.Outcome State Fault Refusal :=
  match i with
  | .add d a b => Sys2Proof.Machine.execAdd d a b s
  | .sub d a b => Sys2Proof.Machine.execSub d a b s
  | .mul d a b => Sys2Proof.Machine.execMul d a b s
  | .mulh d a b => Sys2Proof.Machine.execMulh d a b s
  | .mulhu d a b => Sys2Proof.Machine.execMulhu d a b s
  | .div d a b => Sys2Proof.Machine.execDiv d a b s
  | .divu d a b => Sys2Proof.Machine.execDivu d a b s
  | .rem d a b => Sys2Proof.Machine.execRem d a b s
  | .remu d a b => Sys2Proof.Machine.execRemu d a b s
  | .and d a b => Sys2Proof.Machine.execAnd d a b s
  | .or d a b => Sys2Proof.Machine.execOr d a b s
  | .xor d a b => Sys2Proof.Machine.execXor d a b s
  | .andn d a b => Sys2Proof.Machine.execAndn d a b s
  | .shl d a b => Sys2Proof.Machine.execShl d a b s
  | .shr d a b => Sys2Proof.Machine.execShr d a b s
  | .sar d a b => Sys2Proof.Machine.execSar d a b s
  | .rot d a b => Sys2Proof.Machine.execRot d a b s
  | .min d a b => Sys2Proof.Machine.execMin d a b s
  | .max d a b => Sys2Proof.Machine.execMax d a b s
  | .minu d a b => Sys2Proof.Machine.execMinu d a b s
  | .maxu d a b => Sys2Proof.Machine.execMaxu d a b s
  | .seq d a b => Sys2Proof.Machine.execSeq d a b s
  | .sne d a b => Sys2Proof.Machine.execSne d a b s
  | .slt d a b => Sys2Proof.Machine.execSlt d a b s
  | .sltu d a b => Sys2Proof.Machine.execSltu d a b s
  | .clz d a => Sys2Proof.Machine.execClz d a s
  | .ctz d a => Sys2Proof.Machine.execCtz d a s
  | .popc d a => Sys2Proof.Machine.execPopc d a s
  | .brev d a => Sys2Proof.Machine.execBrev d a s
  | .addi d a imm => Sys2Proof.Machine.execAddi d a imm s
  | .muli d a imm => Sys2Proof.Machine.execMuli d a imm s
  | .andi d a imm => Sys2Proof.Machine.execAndi d a imm s
  | .ori d a imm => Sys2Proof.Machine.execOri d a imm s
  | .xori d a imm => Sys2Proof.Machine.execXori d a imm s
  | .slti d a imm => Sys2Proof.Machine.execSlti d a imm s
  | .sltui d a imm => Sys2Proof.Machine.execSltui d a imm s
  | .seqi d a imm => Sys2Proof.Machine.execSeqi d a imm s
  | .shli d a n => Sys2Proof.Machine.execShli d a n s
  | .shri d a n => Sys2Proof.Machine.execShri d a n s
  | .sari d a n => Sys2Proof.Machine.execSari d a n s
  | .roti d a n => Sys2Proof.Machine.execRoti d a n s
  | .addl d a k => Sys2Proof.Machine.execAddl d a k s
  | .andl d a k => Sys2Proof.Machine.execAndl d a k s
  | .orl d a k => Sys2Proof.Machine.execOrl d a k s
  | .xorl d a k => Sys2Proof.Machine.execXorl d a k s
  | .pcmp c pd a b => Sys2Proof.Machine.execPcmp c pd a b s
  | .pcmpi c pd a imm => Sys2Proof.Machine.execPcmpi c pd a imm s
  | .plog op pd pa pb => Sys2Proof.Machine.execPlog op pd pa pb s
  | .selp d a b p => Sys2Proof.Machine.execSelp d a b p s
  | .pget d => Sys2Proof.Machine.execPget d s
  | .pput a => Sys2Proof.Machine.execPput a s
  | .nop => Sys2Proof.Machine.execNop s
  | .beq a b off => Sys2Proof.Machine.execBeq a b off s
  | .bne a b off => Sys2Proof.Machine.execBne a b off s
  | .blt a b off => Sys2Proof.Machine.execBlt a b off s
  | .bge a b off => Sys2Proof.Machine.execBge a b off s
  | .bltu a b off => Sys2Proof.Machine.execBltu a b off s
  | .bgeu a b off => Sys2Proof.Machine.execBgeu a b off s
  | .bp p off => Sys2Proof.Machine.execBp p off s
  | .bnp p off => Sys2Proof.Machine.execBnp p off s
  | .loop a off => Sys2Proof.Machine.execLoop a off s
  | .jal a off => Sys2Proof.Machine.execJal a off s
  | .jr d a => Sys2Proof.Machine.execJr d a s
  | .fence k sc a => Sys2Proof.Machine.execFence k sc a s
  | .mwait d acq sc a => Sys2Proof.Machine.execMwait d acq sc a s
  | .drain path => Sys2Proof.Machine.execDrain path s
  | .rstp n => Sys2Proof.Machine.execRstp n s
  | .trap n => Sys2Proof.Machine.execTrap n s
  | .brk n => Sys2Proof.Machine.execBrk n s
  | .eret => Sys2Proof.Machine.execEret s
  | .exit a => Sys2Proof.Machine.execExit a s
  | .unbind h => Sys2Proof.Machine.execUnbind h s
  | .portWait out p => Sys2Proof.Machine.execPortWait out p s
  | .barrier out p => Sys2Proof.Machine.execBarrier out p s
  | .sceneGo n => Sys2Proof.Machine.execSceneGo n s
  | .regionHalt ix => Sys2Proof.Machine.execRegionHalt ix s
  | .splice => Sys2Proof.Machine.execSplice s
  | .ovlFetch n => Sys2Proof.Machine.execOvlFetch n s
  | .ovlWait n => Sys2Proof.Machine.execOvlWait n s
  | .accTake d n => Sys2Proof.Machine.execAccTake d n s
  | .accFree a n => Sys2Proof.Machine.execAccFree a n s
  | .takeSpawn d h b => Sys2Proof.Machine.execTakeSpawn d h b s
  | .mxSwap => Sys2Proof.Machine.execMxSwap s
  | .mxZero a n => Sys2Proof.Machine.execMxZero a n s
  | .mxMode a => Sys2Proof.Machine.execMxMode a s
  | .mxWait => Sys2Proof.Machine.execMxWait s
  | .cpAdv n => Sys2Proof.Machine.execCpAdv n s
  | .cpStat d e => Sys2Proof.Machine.execCpStat d e s
  | .cpRedop op => Sys2Proof.Machine.execCpRedop op s
  | .zoneArm z a => Sys2Proof.Machine.execZoneArm z a s
  | .zoneStat d z => Sys2Proof.Machine.execZoneStat d z s
  | .zoneSweep z => Sys2Proof.Machine.execZoneSweep z s
  | .zoneClose z => Sys2Proof.Machine.execZoneClose z s
  | .sysRd d r => Sys2Proof.Machine.execSysRd d r s
  | .sysWr r a => Sys2Proof.Machine.execSysWr r a s
  | .ld d m ord u sz sc => Sys2Proof.Machine.execLd d m ord u sz sc s
  | .ld96 d m ord u sz sc lit => Sys2Proof.Machine.execLd96 d m ord u sz sc lit s
  | .st m v ord sz sc => Sys2Proof.Machine.execSt m v ord sz sc s
  | .st96 m v ord sz sc lit => Sys2Proof.Machine.execSt96 m v ord sz sc lit s
  | .amo d m v w ord sz op sc => Sys2Proof.Machine.execAmo d m v w ord sz op sc s
  | .amo96 d m v w ord sz op sc lit => Sys2Proof.Machine.execAmo96 d m v w ord sz op sc lit s
  | .marm m sz => Sys2Proof.Machine.execMarm m sz s
  | .marm96 m sz lit => Sys2Proof.Machine.execMarm96 m sz lit s
  | .bind a b pat hd hs node out port => Sys2Proof.Machine.execBind a b pat hd hs node out port s
  | .mxPin m fmt sub => Sys2Proof.Machine.execMxPin m fmt sub s
  | .mxScale isB m => Sys2Proof.Machine.execMxScale isB m s
  | .mxStep src t => Sys2Proof.Machine.execMxStep src t s
  | .mxSteps src t => Sys2Proof.Machine.execMxSteps src t s
  | .mxRead t => Sys2Proof.Machine.execMxRead t s
  | .zoneOpen d a b nslot z => Sys2Proof.Machine.execZoneOpen d a b nslot z s
  | .zoneRsv d pkg cl z => Sys2Proof.Machine.execZoneRsv d pkg cl z s
  | .zoneRel pkg cl slot z => Sys2Proof.Machine.execZoneRel pkg cl slot z s
  | .entryMov e => Sys2Proof.Machine.execEntryMov e s
  | .entryPass e => Sys2Proof.Machine.execEntryPass e s
  | .entryDrop e => Sys2Proof.Machine.execEntryDrop e s
  | .entrySel e => Sys2Proof.Machine.execEntrySel e s
  | .entryCswp e => Sys2Proof.Machine.execEntryCswp e s
  | .entrySend e => Sys2Proof.Machine.execEntrySend e s
  | .entryHdrLoad e => Sys2Proof.Machine.execEntryHdrLoad e s
  | .entryHdrBuild e => Sys2Proof.Machine.execEntryHdrBuild e s
  | .entryAdd e => Sys2Proof.Machine.execEntryAdd e s
  | .entrySub e => Sys2Proof.Machine.execEntrySub e s
  | .entryMul e => Sys2Proof.Machine.execEntryMul e s
  | .entryMulh e => Sys2Proof.Machine.execEntryMulh e s
  | .entryMac e => Sys2Proof.Machine.execEntryMac e s
  | .entryMsb e => Sys2Proof.Machine.execEntryMsb e s
  | .entryMin e => Sys2Proof.Machine.execEntryMin e s
  | .entryMax e => Sys2Proof.Machine.execEntryMax e s
  | .entryAbs e => Sys2Proof.Machine.execEntryAbs e s
  | .entryNeg e => Sys2Proof.Machine.execEntryNeg e s
  | .entrySat e => Sys2Proof.Machine.execEntrySat e s
  | .entryCmp e => Sys2Proof.Machine.execEntryCmp e s
  | .entryTest e => Sys2Proof.Machine.execEntryTest e s
  | .entryMaxi e => Sys2Proof.Machine.execEntryMaxi e s
  | .entryMini e => Sys2Proof.Machine.execEntryMini e s
  | .entryAnd e => Sys2Proof.Machine.execEntryAnd e s
  | .entryOr e => Sys2Proof.Machine.execEntryOr e s
  | .entryXor e => Sys2Proof.Machine.execEntryXor e s
  | .entryAndn e => Sys2Proof.Machine.execEntryAndn e s
  | .entryNot e => Sys2Proof.Machine.execEntryNot e s
  | .entryExt e => Sys2Proof.Machine.execEntryExt e s
  | .entryIns e => Sys2Proof.Machine.execEntryIns e s
  | .entryShl e => Sys2Proof.Machine.execEntryShl e s
  | .entryShr e => Sys2Proof.Machine.execEntryShr e s
  | .entrySar e => Sys2Proof.Machine.execEntrySar e s
  | .entryRot e => Sys2Proof.Machine.execEntryRot e s
  | .entryClz e => Sys2Proof.Machine.execEntryClz e s
  | .entryCtz e => Sys2Proof.Machine.execEntryCtz e s
  | .entryPopc e => Sys2Proof.Machine.execEntryPopc e s
  | .entryBrev e => Sys2Proof.Machine.execEntryBrev e s
  | .entryCvt e => Sys2Proof.Machine.execEntryCvt e s
  | .entryDec e => Sys2Proof.Machine.execEntryDec e s
  | .entryEnc e => Sys2Proof.Machine.execEntryEnc e s
  | .entryPack e => Sys2Proof.Machine.execEntryPack e s
  | .entryUnpk e => Sys2Proof.Machine.execEntryUnpk e s
  | .entryRnd e => Sys2Proof.Machine.execEntryRnd e s
  | .entryRcp e => Sys2Proof.Machine.execEntryRcp e s
  | .entryRsq e => Sys2Proof.Machine.execEntryRsq e s
  | .entryExp2 e => Sys2Proof.Machine.execEntryExp2 e s
  | .entryLog2 e => Sys2Proof.Machine.execEntryLog2 e s
  | .entryDiv e => Sys2Proof.Machine.execEntryDiv e s
  | .entrySqrt e => Sys2Proof.Machine.execEntrySqrt e s
  | .entryLut e => Sys2Proof.Machine.execEntryLut e s
  | .entryCnt e => Sys2Proof.Machine.execEntryCnt e s
  | .entryHash e => Sys2Proof.Machine.execEntryHash e s
  | .entryStat e => Sys2Proof.Machine.execEntryStat e s
  | .playedCycle cl rid => Sys2Proof.Machine.execPlayedCycle cl rid s
  | .delayEnd cl rid => Sys2Proof.Machine.execDelayEnd cl rid s
  | .pendDelivery cl rid el => Sys2Proof.Machine.execPendDelivery cl rid el s
  | .emaskApply cl rid => Sys2Proof.Machine.execEmaskApply cl rid s
  | .startTokenDelivery cl rid => Sys2Proof.Machine.execStartTokenDelivery cl rid s
  | .replayResume cl rid => Sys2Proof.Machine.execReplayResume cl rid s
  | .overrunHoldEnd pair => Sys2Proof.Machine.execOverrunHoldEnd pair s
  | .trapTake cl k => Sys2Proof.Machine.execTrapTake cl k s
  | .arbiterWindow pair => Sys2Proof.Machine.execArbiterWindow pair s
  | .droopHoldEnd pair => Sys2Proof.Machine.execDroopHoldEnd pair s
  | .backstopWindow => Sys2Proof.Machine.execBackstopWindow s
  | .energyWindow cl => Sys2Proof.Machine.execEnergyWindow cl s
  | .pcSample cl k => Sys2Proof.Machine.execPcSample cl k s
  | .priorityAgeing take => Sys2Proof.Machine.execPriorityAgeing take s
  | .timeSliceEnd take => Sys2Proof.Machine.execTimeSliceEnd take s
  | .recordAccept fn => Sys2Proof.Machine.execRecordAccept fn s
  | .leaseGrant take => Sys2Proof.Machine.execLeaseGrant take s
  | .dispatch take => Sys2Proof.Machine.execDispatch take s
  | .freeze take => Sys2Proof.Machine.execFreeze take s
  | .restore take => Sys2Proof.Machine.execRestore take s
  | .move take lc dst => Sys2Proof.Machine.execMove take lc dst s
  | .takeEnd take => Sys2Proof.Machine.execTakeEnd take s
  | .leaseRecall take tid plot => Sys2Proof.Machine.execLeaseRecall take tid plot s
  | .remoteLeaseRequest src take tid fn off first count => Sys2Proof.Machine.execRemoteLeaseRequest src take tid fn off first count s
  | .remoteLeaseRenewal pkg lease => Sys2Proof.Machine.execRemoteLeaseRenewal pkg lease s
  | .remoteLeaseLapse lease => Sys2Proof.Machine.execRemoteLeaseLapse lease s
  | .remoteRecall take tid plot => Sys2Proof.Machine.execRemoteRecall take tid plot s
  | .recallAck lease plot => Sys2Proof.Machine.execRecallAck lease plot s
  | .loadReply cl k bytes => Sys2Proof.Machine.execLoadReply cl k bytes s
  | .abortCompletion r => Sys2Proof.Machine.execAbortCompletion r s
  | .inputTokenArrival cl p => Sys2Proof.Machine.execInputTokenArrival cl p s
  | .tileCommit cl p => Sys2Proof.Machine.execTileCommit cl p s
  | .bindTakeEffect cl out p => Sys2Proof.Machine.execBindTakeEffect cl out p s
  | .unbindComplete cl out p => Sys2Proof.Machine.execUnbindComplete cl out p s
  | .barrierComplete cl out p => Sys2Proof.Machine.execBarrierComplete cl out p s
  | .portWaitWake cl k => Sys2Proof.Machine.execPortWaitWake cl k s
  | .mwaitWake cl k => Sys2Proof.Machine.execMwaitWake cl k s
  | .mxWaitWake cl k => Sys2Proof.Machine.execMxWaitWake cl k s
  | .ovlFetchEnd cl k n ok => Sys2Proof.Machine.execOvlFetchEnd cl k n ok s
  | .ovlWaitWake cl k => Sys2Proof.Machine.execOvlWaitWake cl k s
  | .drainComplete cl k => Sys2Proof.Machine.execDrainComplete cl k s
  | .accFreeComplete cl k => Sys2Proof.Machine.execAccFreeComplete cl k s
  | .spliceComplete take => Sys2Proof.Machine.execSpliceComplete take s
  | .exitComplete cl k => Sys2Proof.Machine.execExitComplete cl k s
  | .spawnReply cl k => Sys2Proof.Machine.execSpawnReply cl k s
  | .mxPinExecute cl => Sys2Proof.Machine.execMxPinExecute cl s
  | .mxQueuedExecute cl => Sys2Proof.Machine.execMxQueuedExecute cl s
  | .mxInterval cl => Sys2Proof.Machine.execMxInterval cl s
  | .mxReadInterval cl => Sys2Proof.Machine.execMxReadInterval cl s
  | .copySector cl take e => Sys2Proof.Machine.execCopySector cl take e s
  | .landEntryStart cl take e => Sys2Proof.Machine.execLandEntryStart cl take e s
  | .copyEntryDone cl take e => Sys2Proof.Machine.execCopyEntryDone cl take e s
  | .reservationRequest cl z snd k => Sys2Proof.Machine.execReservationRequest cl z snd k s
  | .reservationReply cl k code size => Sys2Proof.Machine.execReservationReply cl k code size s
  | .releaseMessage cl z slot snd => Sys2Proof.Machine.execReleaseMessage cl z slot snd s
  | .landingArrival cl z slot snd take e off bytes last => Sys2Proof.Machine.execLandingArrival cl z slot snd take e off bytes last s
  | .landingAck cl take e r => Sys2Proof.Machine.execLandingAck cl take e r s
  | .zoneCloseComplete cl z => Sys2Proof.Machine.execZoneCloseComplete cl z s
  | .patrolScrub cl stripe => Sys2Proof.Machine.execPatrolScrub cl stripe s
  | .clockSourceChange die => Sys2Proof.Machine.execClockSourceChange die s
  | .readplot die => Sys2Proof.Machine.execReadplot die s
  | .setfn die => Sys2Proof.Machine.execSetfn die s
  | .recall die => Sys2Proof.Machine.execRecall die s
  | .takest die => Sys2Proof.Machine.execTakest die s
  | .loadimg => Sys2Proof.Machine.execLoadimg s
  | .quote => Sys2Proof.Machine.execQuote s
  | .extend => Sys2Proof.Machine.execExtend s
  | .unassignedInstruction p0 p1 => Sys2Proof.Machine.execUnassignedInstruction p0 p1 s
  | .inputPortRead cl p => Sys2Proof.Machine.execInputPortRead cl p s
  | .remoteAccessRequest src rq lease off req => Sys2Proof.Machine.execRemoteAccessRequest src rq lease off req s
  | .remoteLeaseGrant take tid lease first frames => Sys2Proof.Machine.execRemoteLeaseGrant take tid lease first frames s
  | .railSettled pair mv => Sys2Proof.Machine.execRailSettled pair mv s
  | .registerWrite fn off d fw => Sys2Proof.Machine.execRegisterWrite fn off d fw s
  | .windowWrite fn off bytes => Sys2Proof.Machine.execWindowWrite fn off bytes s
  | .windowRead fn off n => Sys2Proof.Machine.execWindowRead fn off n s
  | .barAtomicop fn bar off => Sys2Proof.Machine.execBarAtomicop fn bar off s
  | .msixUnmask fn vec => Sys2Proof.Machine.execMsixUnmask fn vec s
  | .functionLevelReset fn => Sys2Proof.Machine.execFunctionLevelReset fn s
  | .powerOn => Sys2Proof.Machine.execPowerOn s
  | .selftestDone die ok => Sys2Proof.Machine.execSelftestDone die ok s
  | .hbmTrained die => Sys2Proof.Machine.execHbmTrained die s
  | .svctlEn p en => Sys2Proof.Machine.execSvctlEn p en s
  | .svctlDown p => Sys2Proof.Machine.execSvctlDown p s
  | .svrtWrite ix mask => Sys2Proof.Machine.execSvrtWrite ix mask s
  | .svdomWrite v => Sys2Proof.Machine.execSvdomWrite v s
  | .vbfailWrite cl v => Sys2Proof.Machine.execVbfailWrite cl v s
  | .verrClear cl v => Sys2Proof.Machine.execVerrClear cl v s
  | .peakClear => Sys2Proof.Machine.execPeakClear s
  | .vreqWrite pair v => Sys2Proof.Machine.execVreqWrite pair v s
  | .imageSupply x => Sys2Proof.Machine.execImageSupply x s
  | .flitReceive port spkg cls seq ack ok m => Sys2Proof.Machine.execFlitReceive port spkg cls seq ack ok m s
  | .resendRequest port dpkg cls seq => Sys2Proof.Machine.execResendRequest port dpkg cls seq s
  | .portDown p => Sys2Proof.Machine.execPortDown p s
  | .portUp p lanes ppkg pport => Sys2Proof.Machine.execPortUp p lanes ppkg pport s
  | .cancel fn take => Sys2Proof.Machine.execCancel fn take s
  | .takectlResume fn take => Sys2Proof.Machine.execTakectlResume fn take s
  | .takectlAbort fn take => Sys2Proof.Machine.execTakectlAbort fn take s
  | .frel fn take => Sys2Proof.Machine.execFrel fn take s
  | .droop pair => Sys2Proof.Machine.execDroop pair s
  | .launch fn ref => Sys2Proof.Machine.execLaunch fn ref s

end Sys2Proof.Machine
end

