-- ==== Sys2Proof/Machine/Fetch.lean ====
section
/-! DEFINITION. Fetching an instruction of a cue context from its window of the scratchpad (R60, R70, R164, R337). -/

namespace Sys2Proof.Machine

/-- A byte of a context's window: the address is an offset within the window (R164). -/
def Cluster.winByte (c : Cluster) (x : CueCtx) (off : Nat) : Byte := tget 0 c.scratch ((x.wbase.toNat + off) % 65536)

/-- The state of the line that holds an offset of the window. -/
def Cluster.winLine (c : Cluster) (x : CueCtx) (off : Nat) : LineSt :=
  tget .valid c.lines ((x.wbase.toNat + off) % 65536 / 64)

/-- A parcel of a context's window. -/
def Cluster.winParcel (c : Cluster) (x : CueCtx) (off : Nat) : Parcel :=
  parcelOfBytes (c.winByte x off) (c.winByte x (off + 1)) (c.winByte x (off + 2)) (c.winByte x (off + 3))

/-- What a fetch gives. -/
inductive Fetched
  | stall                          -- a line is still being filled (R164)
  | invalid (addr : BitVec 16)     -- IFETCH-INVALID
  | illegal (p0 p1 : Parcel)       -- an encoding that is not assigned, or parcels past 0xFFFF (R70)
  | instr (i : Instr)
  deriving DecidableEq, Repr

/-- The decoder's answer as a fetch. For a 32-bit encoding the second parcel reads 0 (R70); R70 names no second parcel for
the reserved length 11, and 0 stands there too (DESIGN CHOICE, log 39). -/
def fetchedOf (p q r : Parcel) : Fetched :=
  match decodeParcels p q r with
  | .ok i => .instr i
  | .error _ => .illegal p (if 2 ≤ parcelsOf p then q else 0)

/-- The fetch of the instruction at PC. A fault of a later parcel names the instruction's own address. Where the second
parcel of an encoding that runs past 0xFFFF would itself lie past it, R70 states no value for it, and it reads 0 (DESIGN
CHOICE, log 39). -/
def fetch (c : Cluster) (x : CueCtx) : Fetched :=
  let pc := x.pc.toNat
  if x.wsize < pc + 4 then .invalid x.pc
  else if c.winLine x pc = .invalid then .invalid x.pc
  else if c.winLine x pc = .filling then .stall
  else
    let p := c.winParcel x pc
    let n := parcelsOf p
    if x.wsize < pc + 4 * n then
      if x.wsize = 65536 then .illegal p (if pc + 8 ≤ 65536 then c.winParcel x (pc + 4) else 0) else .invalid x.pc
    else if (List.range n).any fun i => c.winLine x (pc + 4 * i) == .invalid then .invalid x.pc
    else if (List.range n).any fun i => c.winLine x (pc + 4 * i) == .filling then .stall
    else
      match n with
      | 0 | 1 => fetchedOf p 0 0
      | 2 => fetchedOf p (c.winParcel x (pc + 4)) 0
      | _ => fetchedOf p (c.winParcel x (pc + 4)) (c.winParcel x (pc + 8))

/-- Is a trap held that the context takes before it issues another instruction (R165)? -/
def CueCtx.trapDue (c : CueCtx) : Bool := !c.pend.isEmpty && c.kstate == .run && !c.retry

/-- May the context issue now (R23, R162, R165, R297)? -/
def State.canIssue (s : State) (cl k : Nat) : Bool :=
  let c := s.ctx cl k
  (c.kstate == .run || c.kstate == .trap) && c.stall.isNone && c.wait.isNone && !c.trapDue && s.active c.take

/-- The entry that one element fires at its region's CNT (R20), read from the context store. -/
def State.entryAt (s : State) (cl rid el : Nat) : Option Instr :=
  let g := s.region cl rid
  ((s.bank cl (256 * g.ctx.toNat + el)).ents.find? fun w => (entryOf w).stamp == g.cnt).bind decodeEntry

/-- Is the constructor a step of the device, neither a cue instruction nor an element entry? UNASSIGNED_INSTRUCTION is
the act of issuing an encoding that is not assigned, and runs in the current context. -/
def isDeviceStep (i : Instr) : Bool := (encodeCue i).isEmpty && i.entryParts.isNone

/-- The bytes of an instruction placed at offset 0 of the scratchpad of cluster 0, in K0, which runs a take there, with
its issue turn next. This stands for the launch that brings a program to run (DESIGN CHOICE, log 13). -/
def State.placeWord (s : State) (nbits w : Nat) : State :=
  let bytes := tableBytes nbits w
  let put (c : Cluster) : Cluster :=
    { c with scratch := (List.range 12).foldl (fun m i => tput 0 m i (bytes.getD i 0)) c.scratch
             lines := tput .valid c.lines 0 .valid
             ctx := tput {} c.ctx 0 { (tget {} c.ctx 0) with
               take := 1, kstate := .run, pc := 0, wbase := 0, wsize := 4096, wait := none, stall := none
               pend := [], retry := false } }
  let t : Take := { id := 1, fn := 0, hdr := {}, tensors := [], sched := [], traps := [], fix := [none], prio := 0
                    reel := { ref := 0, savesz := 0, scenes := [], ovls := [] }, st := .running
                    places := [{ lc := 0, cl := 0, k := 0, spots := [], inMap := [], outMap := [] }] }
  { s.updCluster 0 put with takes := [t], agenda := [.issue 0 0] }

end Sys2Proof.Machine
end

