-- ==== Sys2Proof/Machine/Schedule.lean ====
section
/-! DEFINITION. The passing of a clock cycle: the counters that advance, and the turns of the agents that the cycle
enables. Every meaning checks again what it needs, so that a turn which an earlier one has disabled does nothing.
The order of the turns within a cycle is DESIGN CHOICE, log 1. -/

namespace Sys2Proof.Machine

def devs (l : List Instr) : List Turn := l.map Turn.dev
def devIf (b : Bool) (i : Instr) : List Turn := if b then [.dev i] else []

/-! ### Counters -/

/-- CYCLE of a context that holds a take on its cluster (R26). -/
def CueCtx.tickCycle (c : CueCtx) : CueCtx :=
  if c.kstate = .idle || c.kstate = .saved then c else { c with cyc := c.cyc + 1 }

/-- DRP clears at the wrap of the slot pointer once its hold has ended (R311). -/
def Pair.wrap (p : Pair) (now : Nat) : Pair :=
  if p.drpClear || p.drp && p.drpEnd < now then { p with drp := false, drpClear := false } else p

/-- A pair in one cycle: the rail follows what the power controller sets (R374, R375, R381), and a hold begins to count
(R157). -/
def State.tickPair (s : State) (n : Nat) (p : Pair) : Pair :=
  ((p.move (s.target n) s.cycle).ramp n s.cycle).startHold s.cycle

/-- A port that is enabled and DOWN retrains (R357), on a die in full service (R381). -/
def SvPort.retrain (x : SvPort) (full : Bool) : SvPort := if x.st = .down && x.en && full then { x with st := .training } else x

/-- A freeze takes effect at a cycle boundary: what was asked in a cycle stops the take at its end (R44). -/
def Take.boundary (t : Take) : Take := if t.st == .running && !t.why.isEmpty then { t with stops := true } else t

/-- The counters of one cycle (R22, R26, R311, R357, R377, R379). -/
def State.count (s : State) : State :=
  let pw : BitVec 16 := BitVec.ofNat 16 (Config.packagePower s.cycle)
  { s with
    cycle := s.cycle + 1
    slot := s.slot + 1
    clusters := tmap {} (fun _ c => { c with ctx := tmap {} (fun _ x => x.tickCycle) c.ctx }) s.clusters
    takes := s.takes.map fun (t : Take) => if t.st = .running || t.st = .frozen then { t with samp := t.samp + 1 } else t
    pairs := tmap {} (fun n p => if s.slot + 1 = 0 then (s.tickPair n p).wrap (s.cycle + 1) else s.tickPair n p) s.pairs
    svports := tmap {} (fun n x => x.retrain ((s.die (n / 12)).st == .full)) s.svports
    pkgpwr := pw
    peak := if s.peak < pw then pw else s.peak }

/-! ### Power (R22, R157, R310, R311, R374, R377, R378, R381) -/

def every (s : State) (n : Nat) : Bool := s.cycle % n == 0

def State.powerTurns (s : State) : List Turn :=
  (if s.slot = 0 then
    (s.dies.flatMap fun d => devIf d.2.deferred (.clockSourceChange d.1))
      ++ s.clusters.flatMap fun c => c.2.regions.flatMap fun g => devIf (g.2.rstate != .idle) (.emaskApply c.1 g.1)
    else [])
  ++ (s.pairs.flatMap fun p =>
    devIf (p.2.steady s.cycle && (!p.2.settled || s.railWaiting p.1)) (.railSettled p.1 p.2.vnow.toNat)
      ++ devIf (p.2.hold && p.2.holdEnd.any (· ≤ s.cycle)) (.overrunHoldEnd p.1)
      ++ devIf (p.2.drp && !p.2.drpClear && p.2.drpEnd < s.cycle) (.droopHoldEnd p.1))
  ++ (if every s 256 then
      devs ((List.range 128).map Instr.arbiterWindow) ++ devs (s.clusters.map fun c => Instr.energyWindow c.1) else [])
  ++ devIf (every s 65536) .backstopWindow

/-- The patrol scrubber (R264): 2^25 stripes in 2^32 cycles; their order is DESIGN CHOICE, log 29. -/
def State.scrubTurns (s : State) : List Turn :=
  devIf (every s 128) (.patrolScrub (s.cycle / 128 % 256) (s.cycle / 32768 % 131072))

/-! ### The stage managers (R295, R298, R303 to R309, R320 to R324, R382) -/

/-- Does a waiting take come before another: the higher level, then the longer wait (R303)? -/
def waitsBefore (a b : Take) : Bool := b.prio < a.prio || (a.prio == b.prio && a.order ≤ b.order)
def insertWaiting (t : Take) : List Take → List Take
  | [] => [t]
  | u :: l => if waitsBefore u t then u :: insertWaiting t l else t :: u :: l

def Take.waits (t : Take) : Bool := t.st == .ready || (t.st == .saved && !t.stopped)

/-- The plots of a take that a recall holds up: leased, with MOV set. -/
def Take.moving (t : Take) : List (Nat × Nat × Bool) :=
  t.tensors.flatMap fun x => x.2.plots.filterMap fun y =>
    if entryV y.2 && bit y.2 55 then some (x.1, y.1, x.2.res == 3) else none

def State.takeTurns (s : State) (t : Take) : List Turn :=
  let moving (own : Bool) : List Turn :=
    devs (t.moving.filterMap fun m =>
      if m.2.2 then some (.remoteRecall t.id m.1 m.2.1) else if own then some (.leaseRecall t.id m.1 m.2.1) else none)
  match t.st with
  | .queued => devs [.leaseGrant t.id]
  | .ready | .saved => devIf (t.waits && t.since + 2 ^ 20 ≤ s.cycle) (.priorityAgeing t.id) ++ moving false
  | .running | .frozen =>
    devIf t.freezing (.freeze t.id) ++ devIf (!t.want.isEmpty) (.leaseGrant t.id)
      ++ devIf (t.unasked && t.ran + 2 ^ 24 ≤ s.cycle) (.timeSliceEnd t.id) ++ moving true
  | .ending => devs [.takeEnd t.id] ++ devIf (!t.want.isEmpty) (.leaseGrant t.id) ++ moving true

/-- The resets of functions that drain (R340). -/
def State.resetTurns (s : State) : List Turn := s.fns.flatMap fun f => devIf f.2.flr (.functionLevelReset f.1)

/-- The records that wait for acceptance. -/
def State.recordTurns (s : State) : List Turn :=
  s.fns.flatMap fun f =>
    match f.2.queue with
    | x :: _ =>
      match x.spawn with
      | none => devs [.recordAccept f.1]
      | some (cl, k) => devs [.spawnReply cl k]
    | [] => []

def State.leaseTurns (s : State) : List Turn :=
  (devs (s.rwaits.map fun w => Instr.remoteLeaseRequest w.src w.take w.tid w.fn w.off w.first w.count))
  ++ (s.pleases.flatMap fun p => devIf (p.granted && p.until_ ≤ s.cycle + 2 ^ 23) (.remoteLeaseRenewal p.pkg p.lease))
  ++ s.rleases.flatMap fun x =>
    match x.2 with
    | some l => devIf (l.until_ ≤ s.cycle) (.remoteLeaseLapse x.1)
    | none => []

def State.placeTurns (s : State) : List Turn :=
  devs (((s.takes.filter Take.waits).foldl (fun l t => insertWaiting t l) []).map fun t =>
    if t.st = .ready then .dispatch t.id else .restore t.id)

/-- The commands of the mailboxes: those of the stage managers and of the root steward (R382). -/
def stageCmd (die : Nat) (cmd : BitVec 8) : Option Instr :=
  match cmd.toNat with
  | 1 => some (.readplot die) | 2 => some (.setfn die) | 3 => some (.recall die) | 4 => some (.takest die) | _ => none
def rootCmd (cmd : BitVec 8) : Option Instr :=
  match cmd.toNat with
  | 0x10 => some .loadimg | 0x11 => some .quote | 0x12 => some .extend | _ => none

def State.boxTurns (s : State) : List Turn :=
  (s.dies.flatMap fun d => if d.2.st != .reset && d.2.box.busy then devs (stageCmd d.1 d.2.box.cmd).toList else [])
  ++ (if s.steward.box.busy then devs (rootCmd s.steward.box.cmd).toList else [])

/-- A command that no core knows completes with RES 1 (R382). -/
def State.unknownCmds (s : State) : State :=
  let root := s.steward.box
  let s := if root.busy && (rootCmd root.cmd).isNone then { s with steward := { s.steward with box := root.done 1 [] } } else s
  { s with dies := tmap {} (fun d (x : Die) =>
      if x.st != .reset && x.box.busy && (stageCmd d x.box.cmd).isNone then { x with box := x.box.done 1 [] } else x) s.dies }

def State.stageTurns (s : State) : List Turn :=
  s.boxTurns ++ s.recordTurns ++ s.leaseTurns ++ s.takes.flatMap s.takeTurns ++ s.placeTurns
    ++ s.resetTurns

/-! ### The agents of a take on a cluster -/

/-- What a stalled or waiting context looks at. -/
def State.waitTurns (s : State) (t : Take) (cl k : Nat) : List Turn :=
  let c := s.ctx cl k
  devIf (!c.pend.isEmpty) (.trapTake cl k)
  ++ (match c.wait with
    | some (.mwait _ _ _) => devIf c.monCause.isSome (.mwaitWake cl k)
    | some (.portWait _ _ _) => devs [.portWaitWake cl k]
    | some (.ovlWait _) => devs [.ovlWaitWake cl k]
    | some .mxWait => devs [.mxWaitWake cl k]
    | none => [])
  ++ (match c.stall with
    | some (.drain _ _ _) => devs [.drainComplete cl k]
    | some (.accFree _ _) => devs [.accFreeComplete cl k]
    | some .splice => devs [.spliceComplete t.id]
    | some (.exit _ _) => devs [.exitComplete cl k]
    | _ => [])
  ++ c.ovl.flatMap fun o => devIf (o.2 == .fetching) (.ovlFetchEnd cl k o.1 true)

/-- The head of a port's command queue. -/
def cmdTurn (cl : Nat) (out : Bool) (p : Nat) : List PortCmd → List Turn
  | .bind _ :: _ => devs [.bindTakeEffect cl out p]
  | .unbind :: _ => devs [.unbindComplete cl out p]
  | .barrier :: _ => devs [.barrierComplete cl out p]
  | [] => []

def State.portTurns (s : State) (t : Take) (cl : Nat) : List Turn :=
  ((t.inPorts cl).flatMap fun p =>
    cmdTurn cl false p (s.inPort cl p).cmds
      ++ (if (s.inPort cl p).bound.isSome then devs [.inputPortRead cl p, .inputTokenArrival cl p] else []))
  ++ (t.outPorts cl).flatMap fun p => cmdTurn cl true p (s.outPort cl p).cmds

/-- The tiles of a take's output ports on a cluster that may commit. -/
def State.tileTurns (s : State) (t : Take) (cl : Nat) : List Turn :=
  (t.outPorts cl).flatMap fun p => devIf (!(s.dueTile cl p).isEmpty) (.tileCommit cl p)

/-- The head of the matrix engine's queue. -/
def State.mxTurns (s : State) (cl : Nat) : List Turn :=
  match (s.mxOf cl).queue with
  | [] => []
  | i :: _ =>
    match i.op with
    | .pin _ _ _ _ _ _ _ => devs [.mxPinExecute cl]
    | .step _ _ _ _ _ _ => devs [.mxInterval cl]
    | .read _ _ _ _ => devs [.mxReadInterval cl]
    | _ => devs [.mxQueuedExecute cl]

/-- An entry of the copy schedule that is ACTIVE. -/
def State.copyTurns (s : State) (t : Take) (cl : Nat) : List Turn :=
  (s.activeEnts cl t.id).flatMap fun e =>
    match t.sched[e]? with
    | none => []
    | some w =>
      let x := tget {} (s.copyOf cl t.id).ents e
      if x.fin.isSome then devs [.copyEntryDone cl t.id e]
      else if x.waitsLand w then devs [.landEntryStart cl t.id e]
      else devs [.copySector cl t.id e]

/-- The cycles of a take's regions on a cluster whose slot carries their context (R20, R21), and start tokens that wait for
the rail (R146). Whether EMASK leaves the slot is judged in the turn: a change at the wrap comes before it (R22). -/
def State.regionTurns (s : State) (t : Take) (cl : Nat) : List Turn :=
  (s.regionsOf cl t.id).flatMap fun g =>
    match g.2.rstate with
    | .delay | .run => devIf (g.2.slots.getLsbD s.slot.toNat && !g.2.railWait) (.playedCycle cl g.1)
    | .armed => devIf (g.2.token && s.railOk cl g.2) (.startTokenDelivery cl g.1)
    | _ => []

/-- R162: contexts act in the order K0, K1, K2, K3. -/
def State.issueTurns (s : State) (cl : Nat) : List Turn := (List.range 4).flatMap fun k => if s.canIssue cl k then [.issue cl k] else []

/-- The agents of a cluster that operate on memory, in the order of R274: contexts, output ports, the copy engine. -/
def State.accessTurns (s : State) (cl : Nat) : List Turn :=
  let on (p : Take → Bool) : List Take := s.takes.filter fun t => p t && (t.placeOf cl).isSome
  s.issueTurns cl ++ (on Take.active).flatMap (fun t => s.tileTurns t cl)
    ++ (on fun t => t.active || t.freezing && !t.barred s.cycle).flatMap fun t => s.copyTurns t cl

/-- The fabric and the engines of every take that runs; of one that is asked to freeze, the interval under way (R226). The
played cycles come before what reads and delivers tokens. -/
def State.activeTurns (s : State) : List Turn :=
  let run := s.takes.filter Take.active
  let placed := s.takes.filter fun t => t.st == .running || t.st == .frozen
  (run.flatMap fun t => t.places.flatMap fun p => s.waitTurns t p.cl p.k)
  ++ (run.flatMap fun t => t.places.flatMap fun p => s.regionTurns t p.cl)
  ++ (run.flatMap fun t => t.places.flatMap fun p => s.portTurns t p.cl)
  ++ (placed.flatMap fun t => t.places.flatMap fun p => if (s.mxOf p.cl).holder = some t.id then s.mxTurns p.cl else [])
  ++ (placed.filter fun t => t.samp % 4096 == 0).flatMap fun t => devs (t.places.map fun p => .pcSample p.cl p.k)

/-- What goes on for a take that is asked to freeze, too: replays end (R158), and zones close (R163, R255). -/
def State.settleTurns (s : State) : List Turn :=
  s.clusters.flatMap fun c =>
    (c.2.regions.flatMap fun g => devIf (g.2.rstate == .replay && (s.pair (pairOf c.1)).holds) (.replayResume c.1 g.1))
    ++ c.2.zones.flatMap fun z => devIf (z.2.open_ && z.2.closing) (.zoneCloseComplete c.1 z.1)

/-- The ports send (R352). -/
def State.sendAll (s : State) : State := s.svports.foldl (fun s x => s.sendOne x.1) s

/-- One clock cycle. -/
def tick (s : State) : State :=
  let s := s.haltAsked.count.unknownCmds.sendAll
  let s : State := { s with takes := s.takes.map fun (t : Take) => t.faulted.boundary }
  let s := s.beginStreams
  { s with agenda := s.powerTurns ++ s.scrubTurns ++ s.stageTurns ++ (s.clusters.map (·.1)).flatMap s.accessTurns ++ s.settleTurns
             ++ s.activeTurns }

end Sys2Proof.Machine
end

