-- ==== Sys2Proof/Machine/Turn.lean ====
section
/-! DEFINITION. The turns of the agenda: a context issues (R162), an element's entry fires (R20), a device step. -/

namespace Sys2Proof.Machine

/-- A context's issue turn (R162, R164, R165): fetch, decode, execute. -/
def issueTurn (cl k : Nat) (s : State) : Out :=
  if s.canIssue cl k then
    let s := ({ s with curCl := cl, curK := k } : State).onMe fun c => { c with retry := false }
    match fetch (s.cluster cl) s.me with
    | .stall => .next s
    | .invalid a => .next (s.takeTrap cl k codeIfetchInvalid (a.setWidth 64) 0 a)
    | .illegal p0 p1 => exec (.unassignedInstruction p0 p1) s
    | .instr i => exec i s
  else .next s

/-- The firing of the one entry of an element whose STAMP equals its region's CNT. -/
def fireTurn (cl rid el : Nat) (s : State) : Out :=
  match s.entryAt cl rid el with
  | some i => exec i { s with curCl := cl, curRid := rid, curEl := el }
  | none => .next s

/-- A turn of the agenda. -/
def runTurn (t : Turn) (s : State) : Out :=
  match t with
  | .issue cl k => issueTurn cl k s
  | .fire cl rid el => fireTurn cl rid el s
  | .dev i => if isDeviceStep i then exec i s else .fault .notADeviceStep

end Sys2Proof.Machine
end

