-- ==== Sys2Proof/Safety.lean ====
section
/-! DEFINITION. The terms in which claims speak of a step: that it completes, where it leaves the machine, and what it
leaves as it was. The instructions of a context act at (`s.curCl`, `s.curK`). -/

namespace Sys2Proof.Machine

/-- The outcome is a next state, and it has the property. -/
def Goes (o : Out) (P : State → Prop) : Prop := ∃ t, o = .next t ∧ P t

/-- Everything outside the clusters is as before: every byte of memory with its errors, the functions, takes, dies, pairs,
links, messages and registers. -/
structure SamePackage (s t : State) : Prop where
  rest  : { t with clusters := s.clusters } = s
  bytes : ∀ a, t.byte a = s.byte a

/-- Only cluster `cl` differs. -/
structure OnlyCluster (s t : State) (cl : Nat) : Prop where
  package : SamePackage s t
  others  : ∀ j, j ≠ cl → t.cluster j = s.cluster j

/-- Only context `k` of cluster `cl` differs: of that cluster its scratchpad, fabric, ports, accumulator, matrix engine,
copy engine and zones are as before. -/
structure OnlyCtx (s t : State) (cl k : Nat) : Prop where
  outside  : OnlyCluster s t cl
  shared   : { t.cluster cl with ctx := (s.cluster cl).ctx } = s.cluster cl
  contexts : ∀ j, j ≠ k → t.ctx cl j = s.ctx cl j

/-- Context `k` of cluster `cl` is `c` afterwards, and nothing else differs. -/
structure Becomes (s t : State) (cl k : Nat) (c : CueCtx) : Prop where
  value : t.ctx cl k = c
  only  : OnlyCtx s t cl k

/-- An instruction of `n` parcels that writes S[d] (R23, R162): a write to s0 is discarded, and of the context only S[d]
and PC differ. -/
structure WritesReg (s t : State) (d : Reg) (v : Word) (n : Nat) : Prop where
  result : t.reg d = if d = 0 then 0 else v
  regs   : ∀ r, r ≠ d → t.reg r = s.reg r
  pc     : t.me.pc = s.me.pc + BitVec.ofNat 16 (4 * n)
  rest   : { t.me with s := s.me.s, pc := s.me.pc } = s.me
  only   : OnlyCtx s t s.curCl s.curK

/-- An instruction of one parcel that writes P[d] (R23, R168): a write to p0 is discarded. -/
structure WritesPrd (s t : State) (d : PReg) (v : Bool) : Prop where
  result : t.prd d = (d == 0 || v)
  prds   : ∀ r, r ≠ d → t.prd r = s.prd r
  pc     : t.me.pc = s.me.pc + 4
  rest   : { t.me with p := s.me.p, pc := s.me.pc } = s.me
  only   : OnlyCtx s t s.curCl s.curK

/-- PC is `p` afterwards, and nothing else differs. -/
def JumpsTo (s t : State) (p : BitVec 16) : Prop := Becomes s t s.curCl s.curK { s.me with pc := p }

/-- The context of the current instruction is past it, of `n` parcels, and nothing else differs. -/
def MovesOn (s t : State) (n : Nat) : Prop := JumpsTo s t (s.me.pc + BitVec.ofNat 16 (4 * n))

/-- The current context takes trap `code` in its handler (R165): the saved registers, TRAP, and PC at the vector. -/
def TakesTrap (s t : State) (code : Nat) (info info2 : Word) (epc : BitVec 16) : Prop :=
  Becomes s t s.curCl s.curK { s.me with
    epc := epc.setWidth 64, ecause := BitVec.ofNat 64 code, einfo := info, einfo2 := info2
    kstate := .trap, pc := s.me.tvec.setWidth 16, wait := none, stall := none }

/-- The current context may take a trap in a handler: its take's trap table says CUE for it (R327), and it is not in a
handler already (R330). -/
def CanTrap (s : State) (code : Nat) : Prop :=
  (∃ t, s.myTake = some t ∧ t.act code = 1) ∧ s.me.kstate ≠ .trap ∧ s.me.handler = false

/-- Does the fault record of a take name another trap or fault than one that now stops it (`act` 2) or ends it (R338): one that
ends it already, or, for a stop, one that stops it already? -/
def beingEnded (x : Take) (act : Nat) : Bool :=
  x.xabort || x.why.any fun w => match w with
    | .stop _ _ _ _ _ _ _ => act == 2
    | .abort 2 => true
    | _ => false

/-- A trap that no handler takes is escalated as `code` (R165, R327 to R330): the take that the context holds is asked to
freeze, to stop for STOP (2), else to be aborted with CODE 2, and where no earlier trap or fault is what stops or ends it, its
fault record notes the trap (R338). Code 39 fills ODET the first time (R156); the traps of a region, 37 to 40, name the region for
a RESUME (R329). Outside that take nothing differs from `u`. -/
def Escalates (u t : State) (id code : Nat) (epc : BitVec 16) (info info2 : Word) (act : Nat) : Prop :=
  t = { u with takes := u.takes.map fun x => if x.id = id then
    let f := if beingEnded x act then x.fr else { x.fr with
      fcode := BitVec.ofNat 8 code, tcode := BitVec.ofNat 8 code, tcl := BitVec.ofNat 8 u.curCl
      tk := BitVec.ofNat 2 u.curK, tepc := epc, tinfo := info, tinfo2 := info2 }
    { x with
      why := if x.st = .running ∨ x.st = .frozen then x.why ++ [if act = 2 then
        .stop code u.curCl u.curK epc info info2 (code == 41) else .abort 2] else x.why
      trapped := if 37 ≤ code ∧ code ≤ 40 then x.trapped ++ [(u.curCl, info.toNat / 2 ^ 54 % 64)] else x.trapped
      fr := if code = 39 ∧ x.fr.odet0 = 0 ∧ x.fr.odet1 = 0 then { f with odet0 := info, odet1 := info2 } else f } else x }

/-- The current context has no store to a peer outstanding and no store abort to report (R173, R177). -/
def Quiet (s : State) : Prop := (∀ x ∈ s.me.posted, x.mx ≠ none) ∧ ∀ x ∈ s.me.aborts, x.mx ≠ none

/-- The current instruction does not complete: its context stays at it, in RUN, and issues it again (R162, R165). -/
def Stays (s t : State) : Prop := Becomes s t s.curCl s.curK { s.me with retry := true }

/-- A write of bytes from key `a` on has been performed: they stand there, every other byte of memory is as before, the
monitors on them have fired (R178), and but for the error conditions of the words, what they hide among them, and an error that
the write corrected in what it read (R262 to R264), nothing else differs. -/
structure Stores (s t : State) (a : Nat) (bytes : List Byte) : Prop where
  inside   : ∀ i (h : i < bytes.length), t.byte (a + i) = bytes[i]
  before   : ∀ b, b < a → t.byte b = s.byte b
  after    : ∀ b, a + bytes.length ≤ b → t.byte b = s.byte b
  contexts : ∀ cl k, t.ctx cl k = { s.ctx cl k with mon := (s.ctx cl k).mon.map fun m =>
    if m.key < a + bytes.length ∧ a < m.key + m.size then { m with fired := true } else m }
  shared   : ∀ cl, { t.cluster cl with ctx := (s.cluster cl).ctx, verr := (s.cluster cl).verr } = s.cluster cl
  noted    : ∀ cl, (t.cluster cl).verr = (s.cluster cl).verr ∨ ∃ bank stripe, cl = a / 2 ^ 25 ∧
    (a % 256 ≠ 0 ∨ bytes.length % 256 ≠ 0) ∧ (t.cluster cl).verr = verrRecord (s.cluster cl).verr false bank stripe
  rest     : { t with mem := s.mem, errs := s.errs, hid := s.hid, clusters := s.clusters } = s

/-- Only the regions, banks and ports of cluster `cl` differ, and its contexts: its scratchpad, accumulator, matrix engine,
copy engine, zones and vault are as before. -/
structure OnlyFabric (s t : State) (cl : Nat) : Prop where
  outside : OnlyCluster s t cl
  shared  : { t.cluster cl with
    ctx := (s.cluster cl).ctx, regions := (s.cluster cl).regions, banks := (s.cluster cl).banks
    inp := (s.cluster cl).inp, outp := (s.cluster cl).outp } = s.cluster cl

/-- A context that waits in PORT.WAIT on a port waits for one command less (R184). -/
def lessWait (out : Bool) (p : Nat) (c : CueCtx) : CueCtx :=
  { c with wait := c.wait.map fun w => match w with
    | .portWait o q n => if o = out ∧ q.toNat = p then .portWait o q (n - 1) else w
    | w => w }

/-- A DRAIN need not wait for a port that is unbound (R180). -/
def lessDrain (p : Nat) (c : CueCtx) : CueCtx :=
  { c with stall := c.stall.map fun w => match w with
    | .drain q es ps => .drain q es (ps.filter fun y => y.1 != p)
    | w => w }

/-- The completions of a requester's outstanding requests are to be discarded. -/
def State.givesUp (s : State) (rq : Requester) : State :=
  { s with reqs := s.reqs.map fun r => if r.rq = rq then { r with stale := true } else r }

/-- One input port (`out` 0) or output port of cluster `cl` differs, and its contexts: context `j` is `f j` of what it was. -/
structure OnlyPort (s t : State) (cl : Nat) (out : Bool) (p : Nat) (f : Nat → CueCtx → CueCtx) : Prop where
  fabric   : OnlyFabric s t cl
  regions  : ∀ r, t.region cl r = s.region cl r
  banks    : ∀ n, t.bank cl n = s.bank cl n
  inputs   : ∀ q, out = true ∨ q ≠ p → t.inPort cl q = s.inPort cl q
  outputs  : ∀ q, out = false ∨ q ≠ p → t.outPort cl q = s.outPort cl q
  contexts : ∀ j, t.ctx cl j = f j (s.ctx cl j)

/-- A halt is asked for of the regions `l` of cluster `cl` (R186). Those in a hold halt at once: HALTED, their ARB bits dropped
(R310), their pending results gone, the tokens they have sent committable. The others halt at the next cycle boundary. The other
regions, banks and the input ports are as before. -/
structure Halts (s t : State) (cl : Nat) (l : List Nat) : Prop where
  regions : ∀ r, let g := s.region cl r
    t.region cl r = if r ∈ l then (if g.held then { g with rstate := .halted, arb := 0 } else { g with halting := true }) else g
  banks   : ∀ n, t.bank cl n =
    if ∃ r ∈ l, (s.region cl r).held = true ∧ n ∈ (s.region cl r).els.map (s.region cl r).bankNo
    then { s.bank cl n with pend := none } else s.bank cl n
  outputs : ∀ p, t.outPort cl p = { s.outPort cl p with
    held := (s.outPort cl p).held.map fun x =>
      if ∃ r ∈ l, (s.region cl r).held = true ∧ x.rid = some r then { x with rid := none } else x }
  inputs  : ∀ p, t.inPort cl p = s.inPort cl p

/-- The regions of a take on a cluster that are neither IDLE nor HALTED and satisfy `f`. -/
def liveRegions (s : State) (cl take : Nat) (f : Region → Bool) : List Nat :=
  (List.range 64).filter fun r =>
    let g := s.region cl r
    g.take == take && g.rstate != .idle && g.rstate != .halted && f g

/-- Context `k` of cluster `cl` takes trap `code` in its handler (R165), and nothing else differs. -/
def TrapsAt (s t : State) (cl k code : Nat) (info info2 : Word) (epc : BitVec 16) : Prop :=
  Becomes s t cl k { s.ctx cl k with
    epc := epc.setWidth 64, ecause := BitVec.ofNat 64 code, einfo := info, einfo2 := info2
    kstate := .trap, pc := (s.ctx cl k).tvec.setWidth 16, wait := none, stall := none }

/-- The current context's matrix instruction of `n` parcels is the last of the queue (R204), and the context goes on. -/
structure Queues (s t : State) (op : MxOp) (n : Nat) : Prop where
  mx       : t.mxOf s.curCl = { s.mxOf s.curCl with queue := (s.mxOf s.curCl).queue ++ [{ op := op, pc := s.me.pc, k := s.curK }] }
  contexts : ∀ j, t.ctx s.curCl j = if j = s.curK then { s.me with pc := s.me.pc + BitVec.ofNat 16 (4 * n) } else s.ctx s.curCl j
  shared   : { t.cluster s.curCl with ctx := (s.cluster s.curCl).ctx, mx := (s.cluster s.curCl).mx } = s.cluster s.curCl
  outside  : OnlyCluster s t s.curCl

/-- Only the matrix engine of cluster `cl` differs, which is `m` afterwards. -/
structure OnlyMx (s t : State) (cl : Nat) (m : Mx) : Prop where
  mx      : t.mxOf cl = m
  shared  : { t.cluster cl with mx := (s.cluster cl).mx } = s.cluster cl
  outside : OnlyCluster s t cl

/-- The queue after an interval of the item at its head, of `n` intervals, has completed (R204, R214). -/
def queueNext (m : Mx) (n : Nat) : List MxItem :=
  match m.queue with
  | [] => []
  | i :: rest => if n ≤ i.next + 1 then rest else { i with next := i.next + 1, reads := [] } :: rest

/-- Only the copy engine of cluster `cl` differs, and there only the state of one take, which is `c` afterwards. -/
structure OnlyCopy (s t : State) (cl take : Nat) (c : CopyEng) : Prop where
  engine  : t.copyOf cl take = c
  takes   : ∀ j, j ≠ take → t.copyOf cl j = s.copyOf cl j
  shared  : { t.cluster cl with copy := (s.cluster cl).copy } = s.cluster cl
  outside : OnlyCluster s t cl

/-- Of the copy engine's state for a take only entry `e` differs, which is `x` afterwards. -/
structure OnlyEntry (s t : State) (cl take e : Nat) (x : CopyEnt) : Prop where
  entry  : tget {} (t.copyOf cl take).ents e = x
  others : ∀ j, j ≠ e → tget {} (t.copyOf cl take).ents j = tget {} (s.copyOf cl take).ents j
  engine : { t.copyOf cl take with ents := (s.copyOf cl take).ents } = s.copyOf cl take
  only   : OnlyCopy s t cl take (t.copyOf cl take)

/-- Only zone `n` of cluster `cl` differs, which is `z` afterwards. -/
structure OnlyZone (s t : State) (cl n : Nat) (z : Zone) : Prop where
  zone    : t.zone cl n = z
  others  : ∀ j, j ≠ n → t.zone cl j = s.zone cl j
  shared  : { t.cluster cl with zones := (s.cluster cl).zones } = s.cluster cl
  outside : OnlyCluster s t cl

/-- The key of the status word of a zone (R39). -/
def Zone.wordKey (z : Zone) (cl : Nat) : Nat := cl * 2 ^ 25 + z.zsw.toNat

/-! ### Regions and elements -/

/-- Only region `r` of cluster `cl` differs, which is `g` afterwards. -/
structure OnlyRegion (s t : State) (cl r : Nat) (g : Region) : Prop where
  region  : t.region cl r = g
  others  : ∀ j, j ≠ r → t.region cl j = s.region cl j
  shared  : { t.cluster cl with regions := (s.cluster cl).regions } = s.cluster cl
  outside : OnlyCluster s t cl

/-- The element at (`s.curCl`, `s.curRid`, `s.curEl`) that an entry fires on, and its bank. -/
def State.curRegion (s : State) : Region := s.region s.curCl s.curRid
def State.curBank (s : State) : Bank := s.bank s.curCl (s.curRegion.bankNo s.curEl)

/-- R112, R113: an entry of the current element reads word `w` from a source, after `pa` entries of A and `pb` of B. -/
def Reads (s : State) (e : Entry) (code : BitVec 4) (pa pb : Nat) (w : Word) : Prop :=
  let b := s.curBank; let n := code.toNat
  (n ≤ 1 → b.a[pa]? = some w) ∧ (n = 2 ∨ n = 3 → b.b[pb]? = some w) ∧
  (n = 4 → w = b.l0) ∧ (n = 5 → w = b.l1) ∧ (n = 6 → w = b.l2) ∧ (n = 7 → w = b.l3) ∧
  (∀ i < 6, n = 8 + i → w = match s.curRegion.partner s.curEl i with
    | some m => (s.bank s.curCl (s.curRegion.bankNo m)).ol
    | none => 0) ∧
  (n = 14 → w = immWord e) ∧ (n = 15 → w = 0)

/-- The predicate of an entry (R115). -/
def Holds (e : Entry) (b : Bank) : Bool :=
  match e.ps.toNat with
  | 0 => true | 1 => b.f | 2 => !b.f | 3 => (b.b.headD 0).getLsbD 0 | _ => !(b.b.headD 0).getLsbD 0

/-- Does a latch driven on the links of ROUTE fill, in bank `n`, a buffer of this fill code and depth (R14)? -/
def fedBy (g : Region) (el : Nat) (route : BitVec 6) (n : Nat) (fill : BitVec 9) (dep : BitVec 5) : Bool :=
  (List.range 6).any fun i =>
    drives route i && (g.partner el i).map g.bankNo == some n && fill == BitVec.ofNat 9 (1 + oppLink i) && dep != 0

/-- The buffers of region `g` that element `el` fills over ROUTE have room (R15). -/
def HasRoom (s : State) (cl : Nat) (g : Region) (el : Nat) (route : BitVec 6) : Prop :=
  ∀ n, (fedBy g el route n (s.bank cl n).afill (s.bank cl n).adep = true → (s.bank cl n).a.length < (s.bank cl n).adep.toNat) ∧
    (fedBy g el route n (s.bank cl n).bfill (s.bank cl n).bdep = true → (s.bank cl n).b.length < (s.bank cl n).bdep.toNat)

/-- The element lies in the region, and the region in the 4 × 4 pages of the cluster (R17). -/
def InRegion (g : Region) (el : Nat) : Prop := el ∈ g.els ∧ g.x0 + g.w ≤ 4 ∧ g.y0 + g.h ≤ 4

/-- The grain at which an entry that fires alone ends, at a bin, with first source word `x` (R143, R144). -/
def endGrain (op : BitVec 6) (e : Entry) (b : Bank) (x : Word) (bin : Nat) : Nat :=
  let at' (c : BitVec 4) : Nat := lam bin + if 8 ≤ c.toNat ∧ c.toNat ≤ 13 then hop (c.toNat - 8) bin else 0
  max (at' e.sa) (at' e.sb) + if 1 < cyclesOf op e then lam bin else delayAt op e b.dv x bin

/-- Nothing stands in the way of an entry of the current element that reads `x` and `y`: the take `t` is not one of the
detector's (R159), its bank has no uncorrectable error (R331), the buffers hold what the entry reads, its chain ends within
60 grains at the pair's voltage, a pending result is not in its place (R154), and what it fills has room. -/
structure CanFire (s : State) (t : Take) (op : BitVec 6) (e : Entry) (x y : Word) : Prop where
  take    : s.take? s.curRegion.take = some t
  plain   : t.hdr.debug = false
  good    : s.curBank.bad = false
  placed  : InRegion s.curRegion s.curEl
  first   : Reads s e e.sa 0 0 x
  second  : Reads s e e.sb (popsA e.sa) (popsB e.sa) y
  head    : e.ps = 3 ∨ e.ps = 4 → s.curBank.b ≠ []
  grains  : endGrain op e s.curBank x (binAt (s.pair (pairOf s.curCl)).vnow.toNat) ≤ 60
  hops    : 1 < cyclesOf op e ∨ ∀ i < 6, drives e.route i = true → s.curRegion.partner s.curEl i ≠ none →
    endGrain op e s.curBank x (binAt (s.pair (pairOf s.curCl)).vnow.toNat) +
      hop i (binAt (s.pair (pairOf s.curCl)).vnow.toNat) ≤ 60
  pending : 1 < cyclesOf op e → s.curBank.pend = none
  room    : op = 0x03 ∨ 1 < cyclesOf op e ∨ HasRoom s s.curCl s.curRegion s.curEl e.route

/-- The bank of an element after its entry has taken what it reads from its buffers (R113). -/
def Bank.popped (b : Bank) (e : Entry) : Bank :=
  { b with a := b.a.drop (popsA e.sa + popsA e.sb), b := b.b.drop (popsB e.sa + popsB e.sb) }

/-- The bank of element `el` of region `g` is `b` afterwards, and the latch has put `v` into every buffer that it fills over
ROUTE. The other banks, the regions, ports and contexts of the cluster, and everything outside it, are as before. -/
structure ElementGives (s t : State) (cl : Nat) (g : Region) (el : Nat) (b : Bank) (route : BitVec 6) (v : Word) : Prop where
  own     : t.bank cl (g.bankNo el) = b
  fed     : ∀ n, n ≠ g.bankNo el → t.bank cl n = let k := s.bank cl n; { k with
    a := if fedBy g el route n k.afill k.adep then k.a ++ [v] else k.a
    b := if fedBy g el route n k.bfill k.bdep then k.b ++ [v] else k.b }
  shared  : { t.cluster cl with banks := (s.cluster cl).banks, outp := (s.cluster cl).outp } = s.cluster cl
  outside : OnlyCluster s { t with fresh := s.fresh } cl

/-! ### Takes, functions, dies, pairs -/

/-- Only take `id` differs, which is `x` afterwards. -/
structure OnlyTake (s t : State) (id : Nat) (x : Take) : Prop where
  take   : t.take? id = some x
  others : ∀ j, j ≠ id → t.take? j = s.take? j
  rest   : { t with takes := s.takes } = s

/-- Take `k` is `x` afterwards, each of its regions that is not IDLE is what `f` makes of it, and nothing else differs. -/
structure OnlyTakeRegions (s t : State) (k x : Take) (f : Region → Region) : Prop where
  take    : t.take? k.id = some x
  others  : ∀ j, j ≠ k.id → t.take? j = s.take? j
  regions : ∀ cl r, let g := s.region cl r
    t.region cl r = if (∃ p ∈ k.places, p.cl = cl) ∧ g.take = k.id ∧ g.rstate ≠ .idle then f g else g
  shared  : ∀ cl, { t.cluster cl with regions := (s.cluster cl).regions } = s.cluster cl
  rest    : { t with takes := s.takes, clusters := s.clusters } = s

/-- Only the blocks of function `n` differ, which are `f` afterwards. -/
structure OnlyFn (s t : State) (n : Nat) (f : Fn) : Prop where
  fn     : t.fn n = f
  others : ∀ j, j ≠ n → t.fn j = s.fn j
  rest   : { t with fns := s.fns } = s

/-- Only die `n` differs, which is `d` afterwards. -/
structure OnlyDie (s t : State) (n : Nat) (d : Die) : Prop where
  die    : t.die n = d
  others : ∀ j, j ≠ n → t.die j = s.die j
  rest   : { t with dies := s.dies } = s

/-- Only pair `n` differs, which is `p` afterwards. -/
structure OnlyPair (s t : State) (n : Nat) (p : Pair) : Prop where
  pair   : t.pair n = p
  others : ∀ j, j ≠ n → t.pair j = s.pair j
  rest   : { t with pairs := s.pairs } = s

/-- Every region of the pair's two clusters that is not IDLE is what `f` makes of it, an IDLE one may be, and nothing else
of the clusters differs. -/
structure PairRegions (s t : State) (pair : Nat) (f : Nat → Region → Region) : Prop where
  regions : ∀ cl r, cl = 2 * pair ∨ cl = 2 * pair + 1 → (s.region cl r).rstate ≠ .idle → t.region cl r = f cl (s.region cl r)
  idle    : ∀ cl r, t.region cl r = s.region cl r ∨ (cl = 2 * pair ∨ cl = 2 * pair + 1) ∧ t.region cl r = f cl (s.region cl r)
  shared  : ∀ cl, { t.cluster cl with regions := (s.cluster cl).regions } = s.cluster cl
  bytes   : ∀ a, t.byte a = s.byte a
  rest    : { t with clusters := s.clusters } = s

/-- The voltage that a pair is to have: the highest of VREQ, the floor and a hold (R375); 0.80 V on a die that is not in FULL
(R381). -/
def demanded (s : State) (n : Nat) (p : Pair) : Nat :=
  if (s.die (n / 32)).st = .full then max (max p.vreq.toNat (s.floorOf n)) (if p.hold then p.holdV.toNat else 0) else 800

/-- The pair's voltage follows what is demanded (R375): it stands, or the rail starts to move toward it; SETTLED and the cycles
it rests on are kept while the rail is within 2 mV of the target (R374). -/
def follows (s : State) (n : Nat) (p : Pair) : Pair :=
  let mv := demanded s n p
  let near : Bool := p.vnow.toNat ≤ mv % 1024 + 2 && mv % 1024 ≤ p.vnow.toNat + 2
  { p with
    aim := .ofNat 10 mv, settled := p.settled && near
    since := if near then some (p.since.getD s.cycle) else none }

/-! ### Numbers (R80 to R98) -/

/-- R80: `v` is the word that a value with the bits of `x` is written as: above its width copies of its top bit for the I
formats, zeros for the others. -/
def Rewrites (f : Fmt) (x v : Word) : Prop :=
  ∀ i < 64, v.getLsbD i = if i < f.width then x.getLsbD i else (match f with | .int true w => x.getLsbD (w - 1) | _ => false)

/-- R82, R84: the magnitude of a binary code, its exponent and fraction fields as one number; the exponent range has no upper
limit. -/
def binNum (eb fb k : Nat) : ℚ :=
  let ex := k / 2 ^ fb; let fr : ℚ := (k % 2 ^ fb : Nat); let bias : Int := 2 ^ (eb - 1) - 1
  if ex = 0 then (2 : ℚ) ^ (1 - bias) * (fr / 2 ^ fb) else (2 : ℚ) ^ ((ex : Int) - bias) * (1 + fr / 2 ^ fb)

/-- R90: the number of a positive tapered code of `n` bits. -/
def tapNum (n es x : Nat) : ℚ :=
  let r := x.testBit (n - 2)
  let m := ((List.range (n - 1)).takeWhile fun i => x.testBit (n - 2 - i) == r).length
  let k : Int := if r then (m : Int) - 1 else -(m : Int)
  let left := n - 2 - m; let ne := min es left; let nf := left - ne
  let e := x / 2 ^ nf % 2 ^ ne * 2 ^ (es - ne); let fr := x % 2 ^ nf
  (2 : ℚ) ^ (k * 2 ^ es + (e : Int)) * (1 + (fr : ℚ) / 2 ^ nf)

/-- R86: the magnitude of a log code that is not 0. -/
def lgNum (L : Nat) : ℚ :=
  let q : Int := L - 16; let j := q % 4; let i := (q - j) / 4
  (2 : ℚ) ^ i * (65536 + (if j = 0 then 0 else if j = 1 then 0x3070 else if j = 2 then 0x6A0A else 0xAE8A)) / 65536

/-- The number that a code stands for; none for an infinity, a NaN or NaR (R81, R82, R84, R86, R90). -/
def Fmt.num (f : Fmt) (c : Nat) : Option ℚ :=
  let sign (w : Nat) (q : ℚ) : ℚ := if c.testBit (w - 1) then -q else q
  match f with
  | .int true w => some (BitVec.ofNat w c).toInt
  | .int false w => some (c % 2 ^ w : Nat)
  | .ieee w eb fb => if c / 2 ^ fb % 2 ^ eb = 2 ^ eb - 1 then none else some (sign w (binNum eb fb (c % 2 ^ (w - 1))))
  | .mx w eb fb top => if top < c % 2 ^ (w - 1) then none else some (sign w (binNum eb fb (c % 2 ^ (w - 1))))
  | .lg6 => some (if c % 32 = 0 then 0 else sign 6 (lgNum (c % 32)))
  | .tap n es => if c % 2 ^ n = 2 ^ (n - 1) then none else if c % 2 ^ n = 0 then some 0
    else some (sign n (tapNum n es (if c.testBit (n - 1) then 2 ^ n - c % 2 ^ n else c % 2 ^ n)))

/-- R97, R98: among the magnitudes `mag 0 < mag 1 < …` a mode rounds `q` to number `k`; `mid` lies between a magnitude and the
next, and a tie goes to the even number. -/
def Rounds (rm : Rm) (neg : Bool) (mag mid : Nat → ℚ) (q : ℝ) (k : Nat) : Prop :=
  ∃ lo, (mag lo : ℝ) ≤ q ∧ q < mag (lo + 1) ∧ (q = mag lo → k = lo) ∧ (q ≠ mag lo →
    match rm with
    | .rne => (q < mid lo ∨ q = mid lo ∧ lo % 2 = 0 → k = lo) ∧ (mid lo < q ∨ q = mid lo ∧ lo % 2 = 1 → k = lo + 1)
    | .rtz => k = lo
    | .rup => k = if neg then lo else lo + 1
    | .rdn => k = if neg then lo + 1 else lo
    | .sr r => k = if 2 ^ 32 ≤ ⌊2 ^ 32 * (q - mag lo) / (mag (lo + 1) - mag lo)⌋ + (r % 2 ^ 32 : Nat) then lo + 1 else lo)

/-- The number halfway between a magnitude and the next. -/
def between (mag : Nat → ℚ) (k : Nat) : ℚ := (mag k + mag (k + 1)) / 2

/-- The code of the magnitude number `k` with a sign: sign and magnitude, two's complement for I, N and T. -/
def Fmt.code (f : Fmt) (neg : Bool) (k : Nat) : Nat :=
  match f with
  | .int _ w => if neg then (2 ^ w - k) % 2 ^ w else k
  | .tap n _ => if neg then (2 ^ n - k) % 2 ^ n else k
  | f => (if neg then 2 ^ (f.width - 1) else 0) + k

/-- R81 to R84, R91, R95, R98: what the encoding of a number of magnitude `q`, which is not 0, into any format but LG6 gives,
with its events: `s` is the S modifier. -/
def Fmt.Encodes (f : Fmt) (rm : Rm) (s neg : Bool) (q : ℝ) (c : Enc) : Prop :=
  match f with
  | .ieee _ eb fb => ∃ k, Rounds rm neg (binNum eb fb) (between (binNum eb fb)) q k ∧ let inf := (2 ^ eb - 1) * 2 ^ fb
    let inward : Bool := match rm with | .rtz => true | .rup => neg | .rdn => !neg | _ => false
    let random : Bool := match rm with | .sr _ => true | _ => false
    c = if k < inf then { code := f.code neg k } else if inward then { code := f.code neg (inf - 1) }
      else if s || random then { code := f.code neg (inf - 1), sat := true } else { code := f.code neg inf }
  | .mx _ eb fb top => ∃ k, Rounds rm neg (binNum eb fb) (between (binNum eb fb)) q k ∧
    c = if k ≤ top then { code := f.code neg k } else { code := f.code neg top, sat := true }
  | .int sg w => ∃ k, Rounds rm neg (fun i => (i : ℚ)) (between fun i => (i : ℚ)) q k ∧
    let top := if sg then (if neg then 2 ^ (w - 1) else 2 ^ (w - 1) - 1) else 2 ^ w - 1
    c = if neg && !sg then { code := 0, sat := true } else if k ≤ top then { code := f.code neg k }
      else { code := f.code neg top, sat := true }
  | .tap n es =>
    let top := 2 ^ (n - 1) - 1
    let mag (k : Nat) : ℚ := if k = 0 then 0 else if k ≤ top then tapNum n es k else (2 : ℚ) ^ ((n : Int) * 2 ^ es)
    (q < mag 1 → c = { code := f.code neg 1, clamp := true }) ∧ (mag top < q → c = { code := f.code neg top, clamp := true }) ∧
    (mag 1 ≤ q → q ≤ mag top → ∃ k, Rounds rm neg mag (fun k => tapNum (n + 1) es (2 * k + 1)) q k ∧ c = { code := f.code neg k })
  | .lg6 => False

/-- The number that a finite exact value stands for. -/
def Val.num : Val → ℚ
  | .fin n m e _ => (if n then -1 else 1) * (m : ℚ) * (2 : ℚ) ^ e
  | _ => 0
/-- Is the value a finite one, known exactly? -/
def Val.exact : Val → Bool
  | .fin _ _ _ st => !st
  | _ => false

/-- a < b among values that are no NaN (R93): by number, −0 equal to +0, the infinities outermost. -/
def Val.less (a b : Val) : Prop :=
  (a = .inf true ∧ b ≠ .inf true) ∨ (b = .inf false ∧ a ≠ .inf false) ∨ (a.exact = true ∧ b.exact = true ∧ a.num < b.num)

/-- R93: the order of two codes of an F, I, N or T format as CMP takes it: T by its two's complement integers, NaR lowest; a NaN
is in no order. -/
def Fmt.less (f : Fmt) (a b : Nat) : Prop :=
  match f with
  | .tap n _ => (BitVec.ofNat n a).toInt < (BitVec.ofNat n b).toInt
  | .int true w => (BitVec.ofNat w a).toInt < (BitVec.ofNat w b).toInt
  | .int false w => a % 2 ^ w < b % 2 ^ w
  | _ => (decodeVal f a).isNan = false ∧ (decodeVal f b).isNan = false ∧ (decodeVal f a).less (decodeVal f b)

/-- R90: the regime run length of a tapered code; zero and NaR have none. -/
def regimeRun (f : Fmt) (c : Nat) : Nat :=
  match f with
  | .tap n _ => if c = 0 ∨ c = 2 ^ (n - 1) then 0 else
    let x := if c.testBit (n - 1) then 2 ^ n - c else c
    ((List.range (n - 1)).takeWhile fun i => x.testBit (n - 2 - i) == x.testBit (n - 2)).length
  | _ => 0

/-- R121: the format that W widens to. -/
def widened (f : Fmt) : Fmt :=
  if f = f16 ∨ f = bf16 then f32 else if f = f32 then f64 else if f = t8 then t16 else if f = t16 then t32 else f

/-- `w` is the value `v` times the scale of code `c` (R85, R96). -/
def Scaled (v w : Val) (c : Nat) : Prop :=
  (c = 255 → w.isNan = true ∧ w.isSnan = false) ∧
  (c ≠ 255 → v.exact = false → w = v) ∧
  (c ≠ 255 → v.exact = true → w.exact = true ∧ w.neg? = v.neg? ∧ w.num = v.num * (2 : ℚ) ^ ((c : Int) - 127))

/-- `v` is the exact sum of `a` and `b`, with the sign of zero that IEEE 754 gives (R83, R92, R120). -/
def Adds (rm : Rm) (a b v : Val) : Prop :=
  (a = .nar ∨ b = .nar → v = .nar) ∧
  (a ≠ .nar → b ≠ .nar → (a.isNan = true ∨ b.isNan = true) → v.isNan = true ∧ v.isSnan = false) ∧
  (a.isNan = false → b.isNan = false → (∀ n, a = .inf n → b = .inf (!n) → v.isNan = true ∧ v.isSnan = false) ∧
    ∀ n, (a = .inf n ∧ b ≠ .inf (!n) ∨ b = .inf n ∧ a ≠ .inf (!n)) → v = .inf n) ∧
  (a.exact = true → b.exact = true → v.exact = true ∧ v.num = a.num + b.num ∧
    (v.num = 0 → v.neg? = if a.num = 0 ∧ a.neg? = b.neg? then a.neg? else rm == .rdn))

/-- `v` is the exact product of `a` and `b` (R83, R92, R121). -/
def Multiplies (a b v : Val) : Prop :=
  (a = .nar ∨ b = .nar → v = .nar) ∧
  (a ≠ .nar → b ≠ .nar → (a.isNan = true ∨ b.isNan = true) → v.isNan = true ∧ v.isSnan = false) ∧
  (a.isNan = false → b.isNan = false → a.isInf = true ∨ b.isInf = true →
    (a.isZero = true ∨ b.isZero = true → v.isNan = true ∧ v.isSnan = false) ∧
    (a.isZero = false → b.isZero = false → v = .inf (a.neg? != b.neg?))) ∧
  (a.exact = true → b.exact = true → v.exact = true ∧ v.num = a.num * b.num ∧ v.neg? = (a.neg? != b.neg?))

end Sys2Proof.Machine
end

