-- ==== Sys2Proof/Certificates/Slice0/Obligations.lean ====
section
/-! DEFINITION. The statements about the model. Each docstring names the rules of spec/ that it formalises. -/

open Sys2Proof Sys2Proof.Machine

/-! ### Arithmetic, predicates and branches -/

/-- R166: every function of the ALU major completes, writes f(S[a], S[b]) into S[d] on 64-bit words, sets no flag, traps
never, and leaves everything else as it was. -/
def Obligations.AluRegister : Prop :=
  ∀ (s : State) (d a b : Reg), let x := s.reg a; let y := s.reg b; let n := y.toNat % 64
  ∀ p ∈ ([
    (.add d a b, .ofNat 64 (x.toNat + y.toNat)),
    (.sub d a b, .ofInt 64 (x.toInt - y.toInt)),
    (.mul d a b, .ofNat 64 (x.toNat * y.toNat)),
    (.mulh d a b, .ofInt 64 (x.toInt * y.toInt / 2 ^ 64)),
    (.mulhu d a b, .ofNat 64 (x.toNat * y.toNat / 2 ^ 64)),
    (.div d a b, if y = 0 then .allOnes 64 else .ofInt 64 (x.toInt.tdiv y.toInt)),
    (.divu d a b, if y = 0 then .allOnes 64 else .ofNat 64 (x.toNat / y.toNat)),
    (.rem d a b, if y = 0 then x else .ofInt 64 (x.toInt.tmod y.toInt)),
    (.remu d a b, if y = 0 then x else .ofNat 64 (x.toNat % y.toNat)),
    (.and d a b, x &&& y), (.or d a b, x ||| y), (.xor d a b, x ^^^ y), (.andn d a b, x &&& ~~~y),
    (.shl d a b, .ofNat 64 (x.toNat * 2 ^ n)),
    (.shr d a b, .ofNat 64 (x.toNat / 2 ^ n)),
    (.sar d a b, .ofInt 64 (x.toInt / 2 ^ n)),
    (.rot d a b, .ofNat 64 (x.toNat * 2 ^ n) ||| .ofNat 64 (x.toNat / 2 ^ (64 - n))),
    (.min d a b, .ofInt 64 (min x.toInt y.toInt)), (.max d a b, .ofInt 64 (max x.toInt y.toInt)),
    (.minu d a b, .ofNat 64 (min x.toNat y.toNat)), (.maxu d a b, .ofNat 64 (max x.toNat y.toNat)),
    (.seq d a b, if x = y then 1 else 0), (.sne d a b, if x = y then 0 else 1),
    (.slt d a b, if x.toInt < y.toInt then 1 else 0), (.sltu d a b, if x.toNat < y.toNat then 1 else 0),
    (.clz d a, .ofNat 64 ((List.range 64).reverse.takeWhile fun j => !x.getLsbD j).length),
    (.ctz d a, .ofNat 64 ((List.range 64).takeWhile fun j => !x.getLsbD j).length),
    (.popc d a, .ofNat 64 ((List.range 64).filter fun j => x.getLsbD j).length),
    (.brev d a, x.reverse)] : List (Instr × Word)), Goes (exec p.1 s) fun t => WritesReg s t d p.2 1

/-- R167: the immediate forms follow the rules of R166 with `b` replaced by imm14 sign-extended to 64 bits, by the count
of the shifts, or by the 64-bit constant K × 2^32 + literal of a form of three parcels. -/
def Obligations.AluImmediate : Prop :=
  ∀ (s : State) (d a : Reg) (imm : BitVec 14) (c : BitVec 6) (k : Word),
  let x := s.reg a; let i := imm.toInt; let y : Word := .ofInt 64 i; let n := c.toNat
  ∀ p ∈ ([
    (.addi d a imm, .ofInt 64 (x.toInt + i), 1), (.muli d a imm, .ofInt 64 (x.toInt * i), 1),
    (.andi d a imm, x &&& y, 1), (.ori d a imm, x ||| y, 1), (.xori d a imm, x ^^^ y, 1),
    (.slti d a imm, if x.toInt < i then 1 else 0, 1),
    (.sltui d a imm, if x.toNat < (i % 2 ^ 64).toNat then 1 else 0, 1),
    (.seqi d a imm, if x.toInt = i then 1 else 0, 1),
    (.shli d a c, .ofNat 64 (x.toNat * 2 ^ n), 1), (.shri d a c, .ofNat 64 (x.toNat / 2 ^ n), 1),
    (.sari d a c, .ofInt 64 (x.toInt / 2 ^ n), 1),
    (.roti d a c, .ofNat 64 (x.toNat * 2 ^ n) ||| .ofNat 64 (x.toNat / 2 ^ (64 - n)), 1),
    (.addl d a k, .ofNat 64 (x.toNat + k.toNat), 3), (.andl d a k, x &&& k, 3), (.orl d a k, x ||| k, 3),
    (.xorl d a k, x ^^^ k, 3)] : List (Instr × Word × Nat)), Goes (exec p.1 s) fun t => WritesReg s t d p.2.1 p.2.2

/-- R168: the predicate instructions and selections write P[d], S[d] or p1 to p7 and nothing else. -/
def Obligations.Predicates : Prop :=
  ∀ (s : State) (d a b : Reg) (pd pa pb n : PReg) (imm : BitVec 14),
  let x := s.reg a; let y := s.reg b; let i := imm.toInt; let u := s.prd pa; let v := s.prd pb
  (∀ p ∈ ([
    (.pcmp .eq pd a b, x = y), (.pcmp .ne pd a b, x ≠ y), (.pcmp .lt pd a b, x.toInt < y.toInt),
    (.pcmp .ge pd a b, y.toInt ≤ x.toInt), (.pcmp .ltu pd a b, x.toNat < y.toNat), (.pcmp .geu pd a b, y.toNat ≤ x.toNat),
    (.pcmpi .eq pd a imm, x.toInt = i), (.pcmpi .ne pd a imm, x.toInt ≠ i), (.pcmpi .lt pd a imm, x.toInt < i),
    (.pcmpi .ge pd a imm, i ≤ x.toInt),
    (.plog .and pd pa pb, u ∧ v), (.plog .or pd pa pb, u ∨ v), (.plog .xor pd pa pb, u ≠ v),
    (.plog .andn pd pa pb, u ∧ ¬ v), (.plog .not pd pa pb, ¬ u), (.plog .mov pd pa pb, u), (.plog .set pd pa pb, True),
    (.plog .clr pd pa pb, False)] : List (Instr × Prop)),
    Goes (exec p.1 s) fun t => ∃ w : Bool, (w ↔ p.2) ∧ WritesPrd s t pd w) ∧
  Goes (exec (.selp d a b n) s) (fun t => WritesReg s t d (if s.prd n then x else y) 1) ∧
  Goes (exec (.pget d) s) (fun t => ∃ w : Word, WritesReg s t d w 1 ∧ w.toNat < 256 ∧
    ∀ j : PReg, w.getLsbD j.toNat = s.prd j) ∧
  Goes (exec (.pput a) s) fun t =>
    (∀ j : PReg, t.prd j = if j = 0 then true else x.getLsbD j.toNat) ∧
    Becomes s t s.curCl s.curK { s.me with p := t.me.p, pc := s.me.pc + 4 }

/-- R169, R170, R171: a branch goes to (P + 4 × off14) modulo 65,536 if its condition holds, otherwise to the next
instruction, and changes nothing else; NOP only goes on (R192). LOOP writes S[a] − 1 unless S[a] is 0, and branches while
the new counter is not 0; LOOP s0 never branches. JAL and JR write the address of the next instruction (R162: modulo
65,536) and go to their target; JR reads S[a] before it writes S[d], and a target that is no aligned address is BAD-TARGET. -/
def Obligations.ControlFlow : Prop :=
  (
  ∀ (s : State) (a b : Reg) (n : PReg) (off : BitVec 14), let x := s.reg a; let y := s.reg b
  (∀ p ∈ ([
    (.beq a b off, x = y), (.bne a b off, x ≠ y), (.blt a b off, x.toInt < y.toInt), (.bge a b off, y.toInt ≤ x.toInt),
    (.bltu a b off, x.toNat < y.toNat), (.bgeu a b off, y.toNat ≤ x.toNat), (.bp n off, s.prd n = true),
    (.bnp n off, s.prd n = false)] : List (Instr × Prop)),
    Goes (exec p.1 s) fun t =>
      (p.2 → JumpsTo s t (.ofInt 16 (s.me.pc.toNat + 4 * off.toInt))) ∧ (¬ p.2 → MovesOn s t 1)) ∧
  Goes (exec .nop s) fun t => MovesOn s t 1
  ) ∧
  (
  ∀ (s : State) (a : Reg) (off : BitVec 14), Goes (exec (.loop a off) s) fun t =>
    (s.reg a = 0 → MovesOn s t 1) ∧
    (s.reg a = 1 → WritesReg s t a 0 1) ∧
    (1 < (s.reg a).toNat → t.reg a = s.reg a - 1 ∧ (∀ r, r ≠ a → t.reg r = s.reg r) ∧
      Becomes s t s.curCl s.curK { s.me with s := t.me.s, pc := .ofInt 16 (s.me.pc.toNat + 4 * off.toInt) })
  ) ∧
  (
  ∀ (s : State) (d a : Reg) (off : BitVec 14),
  let link := BitVec.ofNat 64 ((s.me.pc.toNat + 4) % 65536)
  let lands (r : Reg) (p : BitVec 16) (t : State) : Prop :=
    t.reg r = (if r = 0 then 0 else link) ∧ (∀ q, q ≠ r → t.reg q = s.reg q) ∧
      Becomes s t s.curCl s.curK { s.me with s := t.me.s, pc := p }
  Goes (exec (.jal a off) s) (lands a (.ofInt 16 (s.me.pc.toNat + 4 * off.toInt))) ∧
  ((s.reg a).toNat < 65536 → (s.reg a).toNat % 4 = 0 →
    Goes (exec (.jr d a) s) (lands d (.ofNat 16 (s.reg a).toNat))) ∧
  ((65536 ≤ (s.reg a).toNat ∨ (s.reg a).toNat % 4 ≠ 0) → CanTrap s 3 →
    Goes (exec (.jr d a) s) fun t => TakesTrap s t 3 (s.reg a) 0 s.me.pc)
  )

/-! ### Ordering, waiting, system registers, traps -/

/-- R177: with no store to a peer outstanding and no write abort to report a fence of any kind and scope completes; while one
is outstanding the context stays at the fence; the oldest write abort, of a store (R173) or of an MX.READ (R221), is
reported by it as DATA-ABORT. The writes of MX.READ are not the context's stores (R225). R275: FENCE.AR and FENCE.REL wait for
the reads of the context's streams that have started, too; none is left where no port is bound to a stream of the take, or
none of its consumers has started. That the model performs the other accesses at issue is DESIGN CHOICE, log 9.
R180: DRAIN with nothing to wait for completes; otherwise it stalls in RUN with what it waits for, and completes when
that has been performed and no abort is to be reported. (What DRAIN waits for is deduced: log 15.) -/
def Obligations.FencesAndDrain : Prop :=
  (
  ∀ (s : State) (k : FenceKind) (sc : Scope) (a : Reg),
  let waits := (∃ x ∈ s.me.posted, x.mx = none) ∨ k ≠ .acq ∧ s.myStreams = true
  (¬ waits → s.me.aborts = [] → Goes (exec (.fence k sc a) s) fun t => MovesOn s t 1) ∧
  (waits → Goes (exec (.fence k sc a) s) fun t => Stays s t) ∧
  (∀ x r, ¬ waits → s.me.aborts = x :: r → CanTrap s 9 →
    Goes (exec (.fence k sc a) s) fun t => TakesTrap (s.onMe fun c => { c with aborts := r }) t 9
      (BitVec.ofNat 64 (2 ^ 63 + (if x.mx = none then 0 else 2 ^ 61) + x.tid.toNat)) 0 s.me.pc) ∧
  ((∀ y ∈ (s.cluster s.curCl).inp, (∀ b, y.2.bound = some b → b.take ≠ s.me.take ∨ b.node ≠ .stream) ∨
    ∀ c ∈ y.2.cons, (s.region s.curCl c.rid).rstate = .armed) → s.myStreams = false)
  ) ∧
  (
  ∀ (s : State) (q : Path) (t : Take),
  (s.myTake = some t → (∀ e, let x := tget {} (s.copyOf s.curCl t.id).ents e; x.st ≠ .active ∧ x.stamp = none) →
    (∀ p ∈ t.outPorts s.curCl, (s.outPort s.curCl p).held = []) →
    (∀ i ∈ (s.mxOf s.curCl).queue, i.k ≠ s.curK) → s.me.posted = [] → s.me.aborts = [] →
    Goes (exec (.drain q) s) fun u => Becomes s u s.curCl s.curK { s.me with stall := none, pc := s.me.pc + 4 }) ∧
  (∀ es ps, s.myTake = some t → s.drainStall s.curCl t q = .drain q es ps → s.drained s.curCl s.curK q es ps = false →
    Goes (exec (.drain q) s) fun u => Becomes s u s.curCl s.curK { s.me with stall := some (.drain q es ps) }) ∧
  ∀ cl k es ps, (s.ctx cl k).stall = some (.drain q es ps) → s.drained cl k q es ps = true →
    (∀ x ∈ (s.ctx cl k).aborts, x.mx ≠ none ∧ x.mx ≠ some q) →
    Goes (exec (.drainComplete cl k) s) fun u => Becomes s u cl k { s.ctx cl k with stall := none, pc := (s.ctx cl k).pc + 4 }
  )

/-- R179: MWAIT returns at once with cause 0 when the monitor has fired and cause 1 when MON is invalid, otherwise it waits
in WAIT; it wakes when one of them holds, with the same cause, in the state it left. With ACQ it is a reporting point of
R173: it waits for the stores to peers, and returns as said when there is nothing to report.
R178: MARM arms the monitor on the SZ bytes of a location in a vault, not fired, whatever the take may do there. -/
def Obligations.Monitor : Prop :=
  (
  ∀ (s : State) (d : Reg) (acq : Bool) (sc : Scope) (a : Reg),
  (acq = true → (∃ x ∈ s.me.posted, x.mx = none) → Goes (exec (.mwait d acq sc a) s) fun t => Stays s t) ∧
  (acq = false ∨ Quiet s →
    (s.me.mon = none → Goes (exec (.mwait d acq sc a) s) fun t => WritesReg s t d 1 1) ∧
    (∀ m, s.me.mon = some m → m.fired = true → Goes (exec (.mwait d acq sc a) s) fun t => WritesReg s t d 0 1) ∧
    (∀ m, s.me.mon = some m → m.fired = false → Goes (exec (.mwait d acq sc a) s) fun t =>
      Becomes s t s.curCl s.curK { s.me with wait := some (.mwait d acq sc), handler := s.me.kstate == .trap, kstate := .wait })) ∧
  ∀ cl k v, (s.ctx cl k).wait = some (.mwait d acq sc) →
    ((s.ctx cl k).mon = none ∧ v = 1 ∨ ∃ m, (s.ctx cl k).mon = some m ∧ m.fired = true ∧ v = 0) →
    Goes (exec (.mwaitWake cl k) s) fun t =>
      (t.ctx cl k).reg d = (if d = 0 then 0 else v) ∧ (∀ r, r ≠ d → (t.ctx cl k).reg r = (s.ctx cl k).reg r) ∧
      Becomes s t cl k { s.ctx cl k with
        s := (t.ctx cl k).s, wait := none, kstate := if (s.ctx cl k).handler then .trap else .run, handler := false
        pc := (s.ctx cl k).pc + 4 }
  ) ∧
  (
  ∀ (s : State) (m : MemOp) (sz : Size) (lit : Parcel) (t : Take),
  ∀ p ∈ ([(.marm m sz, 0, 2), (.marm96 m sz lit, lit.toInt, 3)] : List (Instr × Int × Nat)),
  ∀ tid c off, s.myTake = some t → s.form t m p.2.1 (sizeBytes sz) = .ok tid c off →
    ((t.tensor tid).res = 0 → ∀ a, s.translate t (t.tensor tid) off false false false = .ok (.key a) →
      Goes (exec p.1 s) fun u => Becomes s u s.curCl s.curK { s.me with
        mon := some ⟨a, sizeBytes sz, false⟩, pc := s.me.pc + BitVec.ofNat 16 (4 * p.2.2) }) ∧
    ((t.tensor tid).res ≠ 0 → CanTrap s 11 → Goes (exec p.1 s) fun u => TakesTrap s u 11 (BitVec.ofNat 64 tid) 0 s.me.pc)
  )

/-- R26, R27, R192, R326: SYS.RD of a stored register returns its value, of HVIEWn the handle hn, and of an unassigned number
0.
R26, R27, R192: SYS.WR writes TVEC with bits [1:0] at 0, EPC and ESAVE, clears the bits of FSTAT that are 1 in S[a],
raises SYSREG-ACCESS for a register marked RO, and has no effect on an unassigned number. -/
def Obligations.SystemRegisters : Prop :=
  (
  ∀ (s : State) (d : Reg) (n : BitVec 12) (t : Take), s.myTake = some t → let c := s.me
  ∀ v, ((n.toNat, v) ∈ ([
      (0x000, .ofNat 64 (4 * s.curCl + s.curK)), (0x001, .ofNat 64 c.take), (0x002, c.prio.setWidth 64), (0x003, c.aor),
      (0x004, c.vbin.setWidth 64), (0x008, c.cyc), (0x009, .ofNat 64 ((if c.esat then 2 ^ 63 else 0) + c.ecnt.toNat)),
      (0x010, c.tvec), (0x011, c.epc), (0x012, c.ecause), (0x013, c.einfo), (0x014, c.esave), (0x015, c.einfo2),
      (0x018, c.fstat.setWidth 64), (0x019, (s.xfsum s.curCl t.id).setWidth 64),
      (0x040, (s.copyOf s.curCl t.id).stage.setWidth 64), (0x041, c.steps.setWidth 64), (0x050, s.rgstat s.curCl t.id)] :
        List (Nat × Word)) ∨
    (∃ j : Fin 16, n.toNat = 0x020 + j ∧ v = (c.h[j]).bits) ∨
    (∃ j < 4, n.toNat = 0x030 + j ∧ v = s.accMap s.curCl s.curK j) ∨
    (∃ j < 16, n.toNat = 0x060 + j ∧ v = s.portReg s.curCl t false j) ∨
    (∃ j < 16, n.toNat = 0x070 + j ∧ v = s.portReg s.curCl t true j) ∨
    (v = 0 ∧ (n.toNat ∈ [0x005, 0x006, 0x007, 0x00A, 0x00B, 0x00C, 0x00D, 0x00E, 0x00F, 0x016, 0x017] ∨
      0x01A ≤ n.toNat ∧ n.toNat < 0x020 ∨ 0x034 ≤ n.toNat ∧ n.toNat < 0x040 ∨ 0x042 ≤ n.toNat ∧ n.toNat < 0x050 ∨
      0x051 ≤ n.toNat ∧ n.toNat < 0x060 ∨ 0x080 ≤ n.toNat))) →
    Goes (exec (.sysRd d n) s) fun u => WritesReg s u d v 1
  ) ∧
  (
  ∀ (s : State) (a : Reg) (n : BitVec 12), let v := s.reg a; let me := { s.me with pc := s.me.pc + 4 }
  let ro := [0x000, 0x001, 0x002, 0x003, 0x004, 0x008, 0x009, 0x012, 0x013, 0x015, 0x019, 0x040, 0x041, 0x050].contains n.toNat
    || (0x020 ≤ n.toNat && n.toNat < 0x034) || (0x060 ≤ n.toNat && n.toNat < 0x080)
  (n.toNat = 0x010 → Goes (exec (.sysWr n a) s) fun t => Becomes s t s.curCl s.curK { me with tvec := .ofNat 64 (v.toNat / 4 * 4) }) ∧
  (n.toNat = 0x011 → Goes (exec (.sysWr n a) s) fun t => Becomes s t s.curCl s.curK { me with epc := v }) ∧
  (n.toNat = 0x014 → Goes (exec (.sysWr n a) s) fun t => Becomes s t s.curCl s.curK { me with esave := v }) ∧
  (n.toNat = 0x018 → Goes (exec (.sysWr n a) s) fun t => (∀ i < 3, t.me.fstat.getLsbD i = (s.me.fstat.getLsbD i && !v.getLsbD i)) ∧
    Becomes s t s.curCl s.curK { me with fstat := t.me.fstat }) ∧
  (ro = true → CanTrap s 2 → Goes (exec (.sysWr n a) s) fun t => TakesTrap s t 2 (n.setWidth 64) 0 s.me.pc) ∧
  (ro = false → n.toNat ∉ [0x010, 0x011, 0x014, 0x018] → Goes (exec (.sysWr n a) s) fun t => MovesOn s t 1)
  )

/-- R165, R193: a trap of the current context is taken in its handler: TRAP #n as SOFT-TRAP with EPC at the next
instruction, an unassigned encoding (R70) and ERET outside TRAP as ILLEGAL-INSTR with EPC at the instruction. ERET in TRAP
goes back to EPC[15:2] × 4 in RUN. RSTP records its mark (R194).
R165, R193, R327, R330: BRK never enters a handler, and a trap in a handler never does: BRK stops the take in debug mode
and otherwise ends it, at the next instruction; a trap in TRAP is escalated as DOUBLE-TRAP.
R165, R328: the oldest pending trap of a context that is between two instructions or waits is taken: EPC is the next
instruction to issue or the waiting one, which is abandoned. An instruction that stalls in RUN completes first: a context
with a stall, or one that issues its instruction again, takes no trap. -/
def Obligations.Traps : Prop :=
  (
  ∀ (s : State) (n : BitVec 14) (p0 p1 : Parcel),
  (CanTrap s 20 → Goes (exec (.trap n) s) fun t => TakesTrap s t 20 (n.setWidth 64) 0 (s.me.pc + 4)) ∧
  (CanTrap s 1 → Goes (exec (.unassignedInstruction p0 p1) s) fun t =>
    TakesTrap s t 1 (.ofNat 64 (p1.toNat * 2 ^ 32 + p0.toNat)) 0 s.me.pc) ∧
  (s.me.kstate ≠ .trap → CanTrap s 1 → Goes (exec .eret s) fun t => TakesTrap s t 1 0x38 0 s.me.pc) ∧
  (s.me.kstate = .trap → Goes (exec .eret s) fun t =>
    Becomes s t s.curCl s.curK { s.me with pc := .ofNat 16 (s.me.epc.toNat % 65536 / 4 * 4), kstate := .run }) ∧
  Goes (exec (.rstp n) s) fun t => Becomes s t s.curCl s.curK { s.me with
    pc := s.me.pc + 4, rmark := some ⟨n, s.me.pc + 4, s.me.steps, (s.copyOf s.curCl s.me.take).stage⟩ }
  ) ∧
  (
  ∀ (s : State) (n : BitVec 14) (t : Take), s.myTake = some t →
  let act := if t.hdr.debug then 2 else 3
  (s.me.kstate ≠ .trap → s.me.handler = false → Goes (exec (.brk n) s) fun u =>
    Escalates (s.onMe fun c => { c with pc := c.pc + 4 }) u t.id 21 (s.me.pc + 4) (n.setWidth 64) 0 act) ∧
  (s.me.kstate = .trap → Goes (exec (.brk n) s) fun u => Escalates s u t.id 41 (s.me.pc + 4) (n.setWidth 64) 0 act) ∧
  (s.me.kstate = .trap → Goes (exec (.trap n) s) fun u => Escalates s u t.id 41 (s.me.pc + 4) (n.setWidth 64) 0 act)
  ) ∧
  (
  ∀ (s : State) (cl k : Nat) (p : Pend) (rest : List Pend) (t : Take), let c := s.ctx cl k
  s.take? c.take = some t → t.active = true → t.act p.code = 1 → c.pend = p :: rest → c.stall = none →
  c.retry = false → c.handler = false → (c.kstate = .run ∨ c.kstate = .wait) →
  Goes (exec (.trapTake cl k) s) fun u => Becomes s u cl k { c with
    pend := rest, wait := none, stall := none, kstate := .trap, pc := c.tvec.setWidth 16, epc := c.pc.setWidth 64
    ecause := BitVec.ofNat 64 p.code, einfo := p.info, einfo2 := p.info2 }
  ) ∧
  ∀ (s : State) (cl k : Nat), (s.ctx cl k).stall ≠ none ∨ (s.ctx cl k).retry = true → exec (.trapTake cl k) s = .next s

/-! ### Tensor accesses -/

/-- R172: address formation. A handle that is no tensor raises HANDLE-KIND; else the lowest coordinate outside the tensor's
extents raises TENSOR-RANGE; else an offset that is no multiple of the size raises MISALIGNED; else the address is formed.
R165, R172: every access raises the trap of its address formation precisely, with no other effect; with its address
formed it waits while its plot is being moved or is not leased (R318), and an access outside the lease or without permission
is OUT-OF-LEASE (R319). R280: an access to an SO plot (kind 0) waits for every store of the context to a peer, every matrix
instruction of it that reads memory, and the reads that its streams (R275) and its ACTIVE copy entries (R237) have still to
make; any other access waits for those to SO plots.
R324: an access that stalls at a peer's plot without a translation has its take ask for the plot again. -/
def Obligations.Addresses : Prop :=
  (
  ∀ (s : State) (t : Take) (m : MemOp) (lit : Int) (n : Nat),
  let x := s.handle m.h
  let reg (i : Nat) : Int := if i ≤ m.nc.toNat then ((s.reg ([m.c0, m.c1, m.c2, m.c3].getD i 0)).toNat % 2 ^ 32 : Nat) else 0
  let v (i : Nat) : Int := if i = 0 then reg 0 + lit else reg i
  ((∀ tid, x ≠ .tensor tid) → s.form t m lit n = .trap 5 (.ofNat 64 (16 * x.kind + m.h.toNat))) ∧
  ∀ tid, x = .tensor tid → let ten := t.tensor tid.toNat
    let c : Coord := ⟨(v 0).toNat, (v 1).toNat, (v 2).toNat, (v 3).toNat⟩
    (∀ i < 4, (v i < 0 ∨ (ten.ext i : Int) ≤ v i) → (∀ j < i, 0 ≤ v j ∧ v j < (ten.ext j : Int)) →
      s.form t m lit n = .trap 6 (.ofNat 64 ((v i % 2 ^ 32).toNat * 2 ^ 32 + i))) ∧
    ((∀ i < 4, 0 ≤ v i ∧ v i < (ten.ext i : Int)) → s.form t m lit n =
      if ten.offset c % n = 0 then .ok tid.toNat c (ten.offset c) else .trap 7 (.ofNat 64 (ten.offset c * 2 ^ 16 ||| tid.toNat)))
  ) ∧
  (
  ∀ (s : State) (d v w : Reg) (m : MemOp) (ord : Ord) (u : Bool) (sz : Size) (op : AmoOp) (sc : Scope) (lit : Parcel) (t : Take),
  s.myTake = some t →
  ∀ p ∈ ([(.ld d m ord u sz sc, 0, true, false, false), (.ld96 d m ord u sz sc lit, lit.toInt, true, false, false),
    (.st m v ord sz sc, 0, false, true, false), (.st96 m v ord sz sc lit, lit.toInt, false, true, false),
    (.amo d m v w ord sz op sc, 0, false, false, true), (.amo96 d m v w ord sz op sc lit, lit.toInt, false, false, true),
    (.marm m sz, 0, false, false, false), (.marm96 m sz lit, lit.toInt, false, false, false)] :
      List (Instr × Int × Bool × Bool × Bool)), let go := exec p.1 s
  (∀ code info, s.form t m p.2.1 (sizeBytes sz) = .trap code info → CanTrap s code →
    Goes go fun x => TakesTrap s x code info 0 s.me.pc) ∧
  (∀ tid c off, s.form t m p.2.1 (sizeBytes sz) = .ok tid c off → Quiet s → s.myStreams = false → let ten := t.tensor tid
    let way := s.translate t ten off p.2.2.1 p.2.2.2.1 p.2.2.2.2
    (ten.res = 0 → (way = .wait → Goes go fun x => Stays s x) ∧
      ∀ cause, way = .fault cause → go = .next (s.outOfLease t.id 0 cause s.curCl s.curK tid off)) ∧
    ((p.2.2.1 || p.2.2.2.1 || p.2.2.2.2) = true → ten.res ≠ 2 → ∀ l, way = .ok l → s.soWaits t ten = true →
      Goes go fun x => Stays s x) ∧
    ((p.2.2.1 || p.2.2.2.1 || p.2.2.2.2) = true → ten.res = 3 → ten.tid.toNat = tid → way = .wait →
      Goes go fun x => ∃ z, Stays z x ∧ z = { s with takes := s.takes.map fun y =>
        if y.id = t.id ∧ (ten.entry (off / 65536)).getLsbD 63 = false ∧ (tid, off / 65536) ∉ y.want
        then { y with want := y.want ++ [(tid, off / 65536)] } else y }))
  ) ∧
  ∀ (s : State) (t : Take) (ten : Tensor), s.soWaits t ten = false ↔
    s.streamsLeft s.curCl t (decide (ten.kind ≠ 0)) = false ∧ s.copiesLeft s.curCl t (decide (ten.kind ≠ 0)) = false ∧
    (∀ x ∈ s.me.posted, x.mx = none → ten.kind ≠ 0 ∧ x.so = false) ∧
    ∀ i ∈ (s.mxOf s.curCl).queue, i.k = s.curK →
      i.op.reads (s.mxOf s.curCl) (fun tid => ten.kind == 0 || (t.tensor tid).kind == 0) = false

/-- R173: LD of a place in this package writes S[d] with the SZ bytes there, little-endian, sign-extended or, with U,
zero-extended, and changes nothing else but for VERR where the read corrects an error (R262, R263); a read that cannot be
corrected raises DATA-ABORT at the LD. A LD of a peer's plot asks the peer and stalls, and the reply completes it. Each of
them where nothing is to come before it (R280, O9). (The byte order is deduced: log 8.) -/
def Obligations.Load : Prop :=
  ∀ (s : State) (d : Reg) (m : MemOp) (ord : Ord) (u : Bool) (sz : Size) (sc : Scope) (lit : Parcel) (t : Take),
  let n := sizeBytes sz
  let word (l : List Byte) : Word :=
    let v := BitVec.ofNat (8 * n) (ofBytes l)
    if u then v.setWidth 64 else v.signExtend 64
  (∀ p ∈ ([(.ld d m ord u sz sc, 0, 2), (.ld96 d m ord u sz sc lit, lit.toInt, 3)] : List (Instr × Int × Nat)),
    ∀ tid c off, s.myTake = some t → s.form t m p.2.1 n = .ok tid c off → s.soWaits t (t.tensor tid) = false →
    (∀ a, s.translate t (t.tensor tid) off true false false = .ok (.key a) →
      (s.readBad a n = false → Goes (exec p.1 s) fun x =>
        WritesReg (if s.readCorrects a n then s.noteErr false a n else s) x d (word (s.peek a n)) p.2.2) ∧
      (s.readBad a n = true → CanTrap s 9 → Goes (exec p.1 s) fun x =>
        TakesTrap (s.uncorrectable a n s.curCl t.id) x 9 (.ofNat 64 tid) 0 s.me.pc)) ∧
    ∀ pkg lease o, s.translate t (t.tensor tid) off true false false = .ok (.peer pkg lease o) →
      exec p.1 s = .next ((s.onMe fun c => { c with stall := some (.load p.2.2 d sz u (.ofNat 12 tid) none off) }).sendMem
        pkg (.cueLoad s.curCl s.curK) lease o (.read n))) ∧
  ∀ cl k np tid off bytes, bytes.length = n → (s.ctx cl k).stall = some (.load np d sz u tid none off) →
    Goes (exec (.loadReply cl k bytes) s) fun x =>
      (x.ctx cl k).reg d = (if d = 0 then 0 else word bytes) ∧ (∀ r, r ≠ d → (x.ctx cl k).reg r = (s.ctx cl k).reg r) ∧
      Becomes s x cl k { s.ctx cl k with
        s := (x.ctx cl k).s, stall := none, pc := (s.ctx cl k).pc + BitVec.ofNat 16 (4 * np) }

/-- R173: ST writes the SZ low bytes of S[v] at its address, as the layout unit's bound check leaves them (R271, R272), and
no other byte of memory, register or flag; the take counts the bound events. A TRAP bound raises BOUND-TRAP and nothing is
written; a tensor without bound action is written as S[v] stands. Where an input port streams the tensor to regions of the
take that have started, its reads come before the store and keep the bytes as they were (R275, R278). A ST to a peer's plot
is posted, and the context goes on. Each of them where nothing is to come before it (R177, R275, R280, O9). The byte order is
deduced: log 8; so is the last clause, that a ST to a peer's plot that covers a bounded element in part (R271) first reads
what it covers, and then writes it whole: log 32. -/
def Obligations.Store : Prop :=
  ∀ (s : State) (m : MemOp) (v : Reg) (ord : Ord) (sz : Size) (sc : Scope) (lit : Parcel) (t : Take), let n := sizeBytes sz
  ∀ p ∈ ([(.st m v ord sz sc, 0, 2), (.st96 m v ord sz sc lit, lit.toInt, 3)] : List (Instr × Int × Nat)),
  ∀ tid c off, s.myTake = some t → s.form t m p.2.1 n = .ok tid c off → (ord = .plain ∨ Quiet s ∧ s.myStreams = false) →
    s.soWaits t (t.tensor tid) = false → let bytes := toBytes n (s.reg v).toNat; let ten := t.tensor tid
  (∀ a, s.translate t ten off false true false = .ok (.key a) →
    let chk := ten.check off bytes fun o => s.byte (a + o - off)
    (ten.act = 0 → chk = some ⟨off, bytes, []⟩) ∧
    (∀ ck, chk = some ck → s.writeBad (a + ck.off - off) ck.bytes.length = false → let b := a + ck.off - off
      (s.streamPorts s.curCl t.id tid = [] → ∃ y, Stores s y b ck.bytes ∧ Goes (exec p.1 s) fun x =>
        ∃ z, z = { y with fresh := z.fresh, takes := (s.boundEvents t.id tid ck.events).takes } ∧ MovesOn z x p.2.2) ∧
      Goes (exec p.1 s) fun x =>
        (∀ i (h : i < ck.bytes.length), x.byte (b + i) = ck.bytes[i]) ∧
        (∀ j, j < b ∨ b + ck.bytes.length ≤ j → x.byte j = s.byte j) ∧
        (∀ r, x.reg r = s.reg r) ∧ x.me.pc = s.me.pc + BitVec.ofNat 16 (4 * p.2.2) ∧ x.me.fstat = s.me.fstat ∧
        (∀ q, x.inPort s.curCl q = { s.inPort s.curCl q with old := (x.inPort s.curCl q).old }) ∧
        ∀ q ∈ s.streamPorts s.curCl t.id tid, ∀ i < ck.bytes.length,
          (∃ o, (ck.off + i, o) ∈ (s.inPort s.curCl q).old) ∨ (ck.off + i, s.byte (b + i)) ∈ (x.inPort s.curCl q).old) ∧
    (chk = none → CanTrap s 8 → Goes (exec p.1 s) fun x =>
      TakesTrap s x 8 (.ofNat 64 ((s.reg v).toNat % 2 ^ (8 * n))) 0 s.me.pc)) ∧
  ∀ pkg lease o, s.translate t ten off false true false = .ok (.peer pkg lease o) →
    (ten.act = 0 → s.streamPorts s.curCl t.id tid = [] → exec p.1 s = .next (((s.onMe fun c => { c with
      posted := c.posted ++ [⟨pkg, tid, lease, none, ten.kind == 0⟩] }).sendMem pkg (.cueStore s.curCl s.curK tid) lease o
        (.write bytes)).onMe fun c => { c with pc := c.pc + BitVec.ofNat 16 (4 * p.2.2) })) ∧
    (ten.act ≠ 0 → (off % ten.unit ≠ 0 ∨ n % ten.unit ≠ 0) →
      let r := off / ten.unit * ten.unit; let len := (off + n + ten.unit - 1) / ten.unit * ten.unit - r
      exec p.1 s = .next ((s.onMe fun c => { c with stall := some (.store p.2.2 (s.reg v) sz (.ofNat 12 tid) off r len) }).sendMem
        pkg (.cueLoad s.curCl s.curK) lease (o + r - off) (.read len)))

/-- R174, R175: AMO writes S[d] with the old value, sign-extended from SZ, and memory with the new one; a CAS whose compare
fails writes nothing. The integer operations touch no flag; a FADD rounds to nearest and sets FSTAT as R174 says. On a host
plot only ADD, SWAP and CAS of 32 and 64 bits are performed: the rest raise AMO-UNSUPPORTED before translation. (Where
nothing is to come before it (R280), and no stream of the take reads the tensor, as for ST, O11.) -/
def Obligations.Atomics : Prop :=
  ∀ (s : State) (d v w : Reg) (m : MemOp) (ord : Ord) (sz : Size) (op : AmoOp) (sc : Scope) (lit : Parcel) (t : Take),
  let n := sizeBytes sz
  ∀ p ∈ ([(.amo d m v w ord sz op sc, 0, 2), (.amo96 d m v w ord sz op sc lit, lit.toInt, 3)] : List (Instr × Int × Nat)),
  ∀ tid c off, s.myTake = some t → s.form t m p.2.1 n = .ok tid c off → let res := (t.tensor tid).res
  let hosted := op ∈ [AmoOp.add, .swap, .cas] ∧ sz ∈ [Size.w, .d]
  (∀ a, (res = 2 → hosted) → (ord = .plain ∨ ord = .acq ∨ Quiet s ∧ s.myStreams = false) →
    s.translate t (t.tensor tid) off false false true = .ok (.key a) → s.readBad a n = false → s.writeBad a n = false →
    s.soWaits t (t.tensor tid) = false → s.streamPorts s.curCl t.id tid = [] →
    let o := BitVec.ofNat (8 * n) (ofBytes (s.peek a n)); let x := (s.reg v).setWidth (8 * n)
    let u := if s.readCorrects a n then s.noteErr false a n else s
    (∀ new, (op, new) ∈ ([(.add, o + x), (.and, o &&& x), (.or, o ||| x), (.xor, o ^^^ x),
        (.min, if x.slt o then x else o), (.max, if o.slt x then x else o), (.minu, if x.ult o then x else o),
        (.maxu, if o.ult x then x else o), (.swap, x)] : List (AmoOp × BitVec (8 * n))) →
      ∃ y, Stores u y a (toBytes n new.toNat) ∧ Goes (exec p.1 s) fun z => WritesReg y z d (o.signExtend 64) p.2.2) ∧
    (op = .cas → o = x → ∃ y, Stores u y a (toBytes n ((s.reg w).setWidth (8 * n)).toNat) ∧
      Goes (exec p.1 s) fun z => WritesReg y z d (o.signExtend 64) p.2.2) ∧
    (op = .cas → o ≠ x → Goes (exec p.1 s) fun z => WritesReg u z d (o.signExtend 64) p.2.2) ∧
    (∀ f, (op, sz, f) ∈ ([(.faddF32, .w, f32), (.faddF16, .h, f16), (.faddBf16, .h, bf16), (.faddT16, .h, t16)] :
        List (AmoOp × Size × Fmt)) →
      let sum := addVal (decodeVal f o.toNat) (decodeVal f x.toNat) false
      ∃ y, Stores u y a (toBytes n (encodeVal f .rne false sum).code) ∧ Goes (exec p.1 s) fun z =>
        ∃ y', Becomes y y' s.curCl s.curK { y.me with fstat := y'.me.fstat } ∧
          (∀ i < 3, y'.me.fstat.getLsbD i = (s.me.fstat.getLsbD i ||
            (i == 1 && f.isIeee && addInvalid (decodeVal f o.toNat) (decodeVal f x.toNat)) || (i == 2 && sum.isNan))) ∧
          WritesReg y' z d (o.signExtend 64) p.2.2)) ∧
  (res = 2 → ¬ hosted → CanTrap s 10 → Goes (exec p.1 s) fun z => TakesTrap s z 10 (.ofNat 64 tid) 0 s.me.pc)

/-! ### Streams and ports -/

/-- R181: BIND writes the handle at issue and queues the binding on its port. With no command before it the port is bound at
once, its counters at 0; otherwise the binding waits at the end of the queue.
R165, R181, R183: the traps of BIND and UNBIND, in this order: HANDLE-KIND for a source that is no tensor and for a
destination that is not empty, PATTERN-ABSENT, PORT-BUSY when the port is bound after every queued command. (That NSEQ and
CSEQ are among the counters is the model's: log 51.) -/
def Obligations.BindCommand : Prop :=
  (
  ∀ (s : State) (a b : Reg) (pat : BitVec 6) (hd hs : HReg) (node : Node) (out : Bool) (port : BitVec 4) (t : Take)
    (tid : BitVec 12) (w : Pattern) (p : Nat),
  s.myTake = some t → s.handle hs = .tensor tid → s.handle hd = .empty → t.slate.pats[pat.toNat]? = some w →
  t.physical s.curCl out port = some p → w.port = port → w.dir = out → w.tid = tid →
  w.node = (match node with | .stream => 0 | .random => 1 | .ordered => 2) →
  let bd : Binding := ⟨t.id, s.curK, node, tid, w, pat.toNat, (s.reg a).setWidth 32, (s.reg b).setWidth 32⟩
  let i := s.inPort s.curCl p; let o := s.outPort s.curCl p
  let me (c : CueCtx) : CueCtx := { c with h := c.h.set hd.toNat (.stream out node port tid), pc := c.pc + 8 }
  let queued (j : Nat) (c : CueCtx) := if j = s.curK then me c else c
  let bound (j : Nat) (c : CueCtx) := lessWait out p (if j = s.curK then me c else c)
  (out = false → i.cmds = [] → i.bound = none → Goes (exec (.bind a b pat hd hs node out port) s) fun u =>
    u.inPort s.curCl p = {
      phase := i.phase, bound := some bd
      cons := (s.consumersOf s.curCl t (t.logical s.curCl false p)).map fun r => ⟨r, 0, 0, false⟩ } ∧
    OnlyPort s u s.curCl out p bound) ∧
  (out = false → i.cmds ≠ [] → willBind i.bound.isSome i.cmds = false → Goes (exec (.bind a b pat hd hs node out port) s) fun u =>
    u.inPort s.curCl p = { i with cmds := i.cmds ++ [.bind bd] } ∧ OnlyPort s u s.curCl out p queued) ∧
  (out = true → o.cmds = [] → o.bound = none → Goes (exec (.bind a b pat hd hs node out port) s) fun u =>
    u.outPort s.curCl p = { phase := o.phase, bound := some bd } ∧ OnlyPort s u s.curCl out p bound) ∧
  (out = true → o.cmds ≠ [] → willBind o.bound.isSome o.cmds = false → Goes (exec (.bind a b pat hd hs node out port) s) fun u =>
    u.outPort s.curCl p = { o with cmds := o.cmds ++ [.bind bd] } ∧ OnlyPort s u s.curCl out p queued)
  ) ∧
  (
  ∀ (s : State) (a b : Reg) (pat : BitVec 6) (hd hs : HReg) (node : Node) (out : Bool) (port : BitVec 4) (t : Take),
  s.myTake = some t → let i := Instr.bind a b pat hd hs node out port
  ((∀ tid, s.handle hs ≠ .tensor tid) → CanTrap s 5 → Goes (exec i s) fun u =>
    TakesTrap s u 5 (.ofNat 64 (16 * (s.handle hs).kind + hs.toNat)) 0 s.me.pc) ∧
  ∀ tid, s.handle hs = .tensor tid →
  (s.handle hd ≠ .empty → CanTrap s 5 → Goes (exec i s) fun u =>
    TakesTrap s u 5 (.ofNat 64 (16 * (s.handle hd).kind + hd.toNat)) 0 s.me.pc) ∧
  (s.handle hd = .empty → (∀ w, t.slate.pats[pat.toNat]? = some w → w.port ≠ port ∨ w.dir ≠ out ∨ w.tid ≠ tid ∨
      w.node ≠ (match node with | .stream => 0 | .random => 1 | .ordered => 2)) → CanTrap s 13 →
    Goes (exec i s) fun u => TakesTrap s u 13 (.ofNat 64 pat.toNat) 0 s.me.pc) ∧
  ∀ w p, s.handle hd = .empty → t.slate.pats[pat.toNat]? = some w → t.physical s.curCl out port = some p → w.port = port →
    w.dir = out → w.tid = tid → w.node = (match node with | .stream => 0 | .random => 1 | .ordered => 2) →
    (if out then willBind (s.outPort s.curCl p).bound.isSome (s.outPort s.curCl p).cmds
      else willBind (s.inPort s.curCl p).bound.isSome (s.inPort s.curCl p).cmds) = true → CanTrap s 12 →
    Goes (exec i s) fun u => TakesTrap s u 12 (.ofNat 64 (if out then 16 + port.toNat else port.toNat)) 0 s.me.pc
  )

/-- R183, R184: UNBIND empties its handle at issue and queues an unbind; BARRIER queues a barrier. One queued behind another
command waits. R32, R181, R183, R184, R273: the command at the head of a port's queue completes: a binding takes effect with
the port's counters at 0, a barrier counts PHASE, an input unbind discards what is not delivered, peer reads outstanding
among it, an output unbind completes once every accepted token is committed or the port is stopped, and ends the final tile
before. (That NSEQ and CSEQ are among the counters that go back to 0 is the model's: log 51.) -/
def Obligations.StreamCommands : Prop :=
  (
  ∀ (s : State) (h : HReg) (out : Bool) (node : Node) (port : BitVec 4) (tid : BitVec 12) (t : Take) (p : Nat),
  s.myTake = some t → t.physical s.curCl out port = some p →
  let i := s.inPort s.curCl p; let o := s.outPort s.curCl p
  let next (unb : Bool) (c : CueCtx) : CueCtx := { c with h := if unb then c.h.set h.toNat .empty else c.h, pc := c.pc + 4 }
  let cmd (unb : Bool) : PortCmd := if unb then .unbind else .barrier
  (∀ unb, (unb = true → s.handle h = .stream out node port tid) → let ins := if unb then Instr.unbind h else .barrier out port
    (out = false → i.cmds ≠ [] → Goes (exec ins s) fun u => u.inPort s.curCl p = { i with cmds := i.cmds ++ [cmd unb] } ∧
      OnlyPort s u s.curCl out p fun j c => if j = s.curK then next unb c else c) ∧
    (out = true → o.cmds ≠ [] → Goes (exec ins s) fun u => u.outPort s.curCl p = { o with cmds := o.cmds ++ [cmd unb] } ∧
      OnlyPort s u s.curCl out p fun j c => if j = s.curK then next unb c else c) ∧
    (out = false → i.cmds = [] → Goes (exec ins s) fun u =>
      u.inPort s.curCl p = (if unb then { phase := i.phase } else { i with phase := i.phase + 1 }) ∧
      OnlyPort (if unb then s.givesUp (.inPort s.curCl p) else s) u s.curCl out p fun j c => lessWait out p (if j = s.curK then next unb c else c)) ∧
    (out = true → o.cmds = [] → o.held = [] → o.wait = [] → Goes (exec ins s) fun u =>
      u.outPort s.curCl p = (if unb then { phase := o.phase } else { o with phase := o.phase + 1 }) ∧
      OnlyPort s u s.curCl out p fun j c =>
        let c := lessWait out p (if j = s.curK then next unb c else c)
        if unb then lessDrain p c else c)) ∧
  ((∀ q n r x, s.handle h ≠ .stream q n r x) → CanTrap s 5 → Goes (exec (.unbind h) s) fun u =>
    TakesTrap s u 5 (.ofNat 64 (16 * (s.handle h).kind + h.toNat)) 0 s.me.pc)
  ) ∧
  (
  ∀ (s : State) (cl p : Nat) (b : Binding) (t : Take) (rest : List PortCmd),
  let i := s.inPort cl p; let o := s.outPort cl p
  (i.cmds = .bind b :: rest → s.take? b.take = some t → Goes (exec (.bindTakeEffect cl false p) s) fun u =>
    u.inPort cl p = {
      phase := i.phase, cmds := rest, bound := some b
      cons := (s.consumersOf cl t (t.logical cl false p)).map fun r => ⟨r, 0, 0, false⟩ } ∧
    OnlyPort s u cl false p fun _ => lessWait false p) ∧
  (o.cmds = .bind b :: rest → Goes (exec (.bindTakeEffect cl true p) s) fun u =>
    u.outPort cl p = { phase := o.phase, cmds := rest, bound := some b } ∧ OnlyPort s u cl true p fun _ => lessWait true p) ∧
  (i.cmds = .unbind :: rest → Goes (exec (.unbindComplete cl false p) s) fun u =>
    u.inPort cl p = { phase := i.phase, cmds := rest } ∧
    OnlyPort (s.givesUp (.inPort cl p)) u cl false p fun _ => lessWait false p) ∧
  (o.cmds = .unbind :: rest → (o.stop = true ∨ o.held = [] ∧ o.wait = []) → Goes (exec (.unbindComplete cl true p) s) fun u =>
    u.outPort cl p = { phase := o.phase, cmds := rest } ∧ OnlyPort s u cl true p fun _ c => lessDrain p (lessWait true p c)) ∧
  (o.cmds = .unbind :: rest → o.stop = false → (o.held ≠ [] ∨ o.wait ≠ []) → Goes (exec (.unbindComplete cl true p) s) fun u =>
    u.outPort cl p = { o with closing := true } ∧ OnlyPort s u cl true p fun _ c => c) ∧
  (i.cmds = .barrier :: rest → Goes (exec (.barrierComplete cl false p) s) fun u =>
    u.inPort cl p = { i with cmds := rest, phase := i.phase + 1 } ∧ OnlyPort s u cl false p fun _ => lessWait false p) ∧
  (o.cmds = .barrier :: rest → Goes (exec (.barrierComplete cl true p) s) fun u =>
    u.outPort cl p = { o with cmds := rest, phase := o.phase + 1 } ∧ OnlyPort s u cl true p fun _ => lessWait true p)
  )

/-- R184: PORT.WAIT goes on when no command is queued before it and the stream has ended or the port is unbound; otherwise it
waits in WAIT for the commands before it, and wakes when that holds.
R221, R222: MX.WAIT goes on when the context has nothing in the queue and no write of an MX.READ outstanding or to be
reported, whatever stores are outstanding; otherwise it waits in WAIT and wakes when that holds and no trap is pending. -/
def Obligations.Waits : Prop :=
  (
  ∀ (s : State) (out : Bool) (port : BitVec 4) (t : Take) (p : Nat),
  s.myTake = some t →
  (t.physical s.curCl out port = none → Goes (exec (.portWait out port) s) fun u => MovesOn s u 1) ∧
  (t.physical s.curCl out port = some p →
  let n := if out then (s.outPort s.curCl p).cmds.length else (s.inPort s.curCl p).cmds.length
  (n = 0 → (if out then (s.outPort s.curCl p).bound.isNone ∨ (s.outPort s.curCl p).stop = true
      else (s.inPort s.curCl p).bound.isNone) → Goes (exec (.portWait out port) s) fun u => MovesOn s u 1) ∧
  (n = 0 → s.portEnded s.curCl out p = true → Goes (exec (.portWait out port) s) fun u => MovesOn s u 1) ∧
  ((n ≠ 0 ∨ s.portEnded s.curCl out p = false) → Goes (exec (.portWait out port) s) fun u =>
    Becomes s u s.curCl s.curK { s.me with
      wait := some (.portWait out (.ofNat 4 p) n), handler := s.me.kstate == .trap, kstate := .wait })) ∧
  ∀ cl k q, (s.ctx cl k).wait = some (.portWait out q 0) → s.portEnded cl out q.toNat = true →
    Goes (exec (.portWaitWake cl k) s) fun u => Becomes s u cl k { s.ctx cl k with
      wait := none, kstate := if (s.ctx cl k).handler then .trap else .run, handler := false, pc := (s.ctx cl k).pc + 4 }
  ) ∧
  (
  ∀ (s : State) (t : Take), s.myTake = some t → (s.mxOf s.curCl).holder = some t.id →
  let quiet (cl k : Nat) := (∀ i ∈ (s.mxOf cl).queue, i.k ≠ k) ∧ ∀ x ∈ (s.ctx cl k).posted, x.mx = none
  (quiet s.curCl s.curK → (∀ x ∈ s.me.aborts, x.mx = none) → Goes (exec .mxWait s) fun u => MovesOn s u 1) ∧
  (¬ quiet s.curCl s.curK → Goes (exec .mxWait s) fun u => Becomes s u s.curCl s.curK { s.me with
    wait := some .mxWait, handler := s.me.kstate == .trap, kstate := .wait }) ∧
  ∀ cl k, (s.ctx cl k).wait = some .mxWait → quiet cl k → (s.ctx cl k).pend = [] → (∀ x ∈ (s.ctx cl k).aborts, x.mx = none) →
    Goes (exec (.mxWaitWake cl k) s) fun u => Becomes s u cl k { s.ctx cl k with
      wait := none, kstate := if (s.ctx cl k).handler then .trap else .run, handler := false, pc := (s.ctx cl k).pc + 4 }
  )

/-- R182, R275, R280: an input port reads the elements of its next token at their places, but for those that a peer has returned
already, and queues the token, but for those of a STREAM port not before the earlier accesses of its context where one of the
two is to an SO plot; a token that is due goes once into every buffer that names its lane, of every region that consumes it.
(That it reads no further ahead than the next token is the model's: log 33.) -/
def Obligations.InputPorts : Prop :=
  ∀ (s : State) (cl p : Nat) (b : Binding) (t : Take),
  (s.inPort cl p).bound = some b → s.take? b.take = some t → t.active = true →
  let x := s.inPort cl p; let ten := t.tensor b.tid.toNat; let w := b.walk ten; let lp := t.logical cl false p
  -- the bytes of an element's unit, as they were before the stores of the context that come after the reads (R275)
  let unit (c : Coord) (k : Nat) : List Byte := (List.range ten.unit).map fun i =>
    ((x.old.find? fun y => y.1 == ten.offset c + i).map (·.2)).getD (s.byte (k + i))
  (∀ l, s.mayFetch cl p t b = true → s.spread t ten true false false (((w.span x.got).drop x.part.length).map (b.coord ten w)) = .keys l →
    (∀ y ∈ l, s.readBad y.2 ten.unit = false ∧ s.readCorrects y.2 ten.unit = false) →
    Goes (exec (.inputPortRead cl p) s) fun u =>
      u.inPort cl p = { x with
        got := x.got + 1, part := [], asked := 0
        buf := x.buf ++ [tokenOf ten.elemFmt b.pat.pack (x.part ++ l.map fun y => ten.codeIn y.1 (unit y.1 y.2))], mxAsk := false } ∧
      OnlyPort s u cl false p fun _ c => c) ∧
  -- R280: what a read of a STREAM port waits for, where one of the two accesses is to an SO plot
  (s.mayFetch cl p t b = true → b.node = .stream → let so := ten.kind == 0
    (∀ y ∈ (s.ctx cl b.k).posted, y.mx = none → so = false ∧ y.so = false) ∧ s.copiesLeft cl t (!so) = false ∧
    (∀ i ∈ (s.mxOf cl).queue, i.k = b.k → i.op.reads (s.mxOf cl) (fun tid => so || (t.tensor tid).kind == 0) = false) ∧
    ∀ y ∈ (s.cluster cl).inp, (∃ m, y.2.began = some m ∧ ∀ n, x.began = some n → m < n) →
      y.2.streams t.id (fun tid => so || (t.tensor tid).kind == 0) = true → s.readsOn t y.2 = false) ∧
  (let lane := x.pos % b.pat.lanes
    let rids := (x.cons.map (·.rid)).filter fun r => s.namesLane cl (s.region cl r) lp lane
    let nums := rids.flatMap fun r => (s.region cl r).els.map (s.region cl r).bankNo
    (∀ c ∈ x.cons, x.pos ≤ c.rd) → x.pos < x.got → s.canDeliver cl p lp lane = true → (x.pulled = false ∨ x.cons = []) →
    nums.Nodup → Goes (exec (.inputTokenArrival cl p) s) fun u =>
      (∀ n, u.bank cl n =
        let k := s.bank cl n; let v := x.buf.getD (x.pos - x.base) 0
        if n ∈ nums then { k with
          a := if k.fillsA lp lane then k.a ++ [v] else k.a, b := if k.fillsB lp lane then k.b ++ [v] else k.b } else k) ∧
      (u.inPort cl p).pos = x.pos + 1 ∧ (u.inPort cl p).got = x.got ∧ (u.inPort cl p).bound = x.bound ∧
      (∀ q, q ≠ p → u.inPort cl q = s.inPort cl q) ∧ (∀ q, u.outPort cl q = s.outPort cl q) ∧
      (∀ r, u.region cl r = s.region cl r) ∧ (∀ j, u.ctx cl j = s.ctx cl j) ∧ OnlyFabric s u cl)

/-- R276: a complete tile whose tokens are out of the replay window commits: its elements are written, CSEQ becomes the
number of its last token, and the tokens leave the port. A tile of one element writes the bytes of its code and no others. -/
def Obligations.TileCommit : Prop :=
  ∀ (s : State) (cl p : Nat) (b : Binding) (t : Take) (tile : List OutTok) (els : List (Coord × Nat)) (ev : List Coord)
    (l : List (Coord × Nat)),
  (s.outPort cl p).bound = some b → s.take? b.take = some t → t.active = true → s.dueTile cl p = tile →
  tile ≠ [] → b.node = .stream → let x := s.outPort cl p; let ten := t.tensor b.tid.toNat
  s.spread t ten false true false ((tileElems b ten tile).map (·.1)) = .keys l →
  checkElems ten (tileElems b ten tile) = some (els, ev) →
  (∀ y, s.putElems ten none cl t.id b.k l (els.map (·.2)) = some y → Goes (exec (.tileCommit cl p) s) fun u =>
    (∀ a, u.byte a = y.byte a) ∧ u.takes = (s.boundEvents t.id b.tid.toNat ev).takes ∧
    u.outPort cl p = { y.outPort cl p with
      held := (y.outPort cl p).held.drop tile.length
      cseq := match (y.outPort cl p).held[tile.length - 1]? with
        | some z => .ofNat 16 z.elem
        | none => (y.outPort cl p).cseq }) ∧
  (∀ c v k, els = [(c, v)] → l = [(c, k)] → ten.elemFmt.whole = true → s.writeBad k ten.unit = false →
    Goes (exec (.tileCommit cl p) s) fun u => ∃ y, Stores s y k (toBytes ten.unit v) ∧
      { u with takes := s.takes, clusters := y.clusters } = y ∧
      u.outPort cl p = { x with held := x.held.drop tile.length, cseq := match x.held[tile.length - 1]? with
        | some z => .ofNat 16 z.elem
        | none => x.cseq } ∧
      (∀ q, q ≠ p → u.outPort cl q = s.outPort cl q) ∧ (∀ q, u.inPort cl q = s.inPort cl q) ∧
      ∀ j, u.ctx cl j = y.ctx cl j)

/-! ### Accumulator banks, tile spawn -/

/-- R33, R34, R189, R190: ACC.TAKE takes the lowest run of free banks, whose words then read 0, and answers its first bank,
or all ones when there is none; they hold no error afterwards (R331). ACC.FREE frees banks that the context holds, once no
queued matrix instruction names them. -/
def Obligations.AccumulatorBanks : Prop :=
  ∀ (s : State) (d a : Reg) (n : BitVec 14), let cl := s.curCl; let own (u : State) (b : Nat) := (u.cluster cl).bankOwner b
  let free (i : Nat) := i + n.toNat ≤ 256 ∧ ∀ j < n.toNat, own s (i + j) = none
  (∀ i, free i → (∀ j < i, ¬ free j) → i < 256 → Goes (exec (.accTake d n) s) fun u =>
    ∃ y, (∀ b, own y b = if i ≤ b ∧ b < i + n.toNat then some (s.me.take, s.curK) else own s b) ∧
      (∀ w, tget 0 (y.cluster cl).acc w = if 512 * i ≤ w ∧ w < 512 * (i + n.toNat) then 0 else tget 0 (s.cluster cl).acc w) ∧
      (∀ w, w ∈ (y.cluster cl).accBad ↔ w ∈ (s.cluster cl).accBad ∧ (w < 512 * i ∨ 512 * (i + n.toNat) ≤ w)) ∧
      OnlyCluster s y cl ∧
      { y.cluster cl with
        acc := (s.cluster cl).acc, accOwn := (s.cluster cl).accOwn, accBad := (s.cluster cl).accBad } = s.cluster cl ∧
      WritesReg y u d (.ofNat 64 i) 1) ∧
  ((∀ i < 256, ¬ free i) → Goes (exec (.accTake d n) s) fun u => WritesReg s u d (.allOnes 64) 1) ∧
  (let i := (s.reg a).toNat;
    ((∀ j < n.toNat, i + j < 256 ∧ own s (i + j) = some (s.me.take, s.curK)) →
      (s.banksBusy cl i n.toNat = false → Goes (exec (.accFree a n) s) fun u =>
        ∃ y, (∀ b, own y b = if i ≤ b ∧ b < i + n.toNat then none else own s b) ∧ OnlyCluster s y cl ∧
          { y.cluster cl with accOwn := (s.cluster cl).accOwn } = s.cluster cl ∧ MovesOn y u 1) ∧
      (s.banksBusy cl i n.toNat = true → Goes (exec (.accFree a n) s) fun u =>
        Becomes s u cl s.curK { s.me with stall := some (.accFree i n.toNat) })) ∧
    (∀ j < n.toNat, ¬ (i + j < 256 ∧ own s (i + j) = some (s.me.take, s.curK)) →
      (∀ m < j, i + m < 256 ∧ own s (i + m) = some (s.me.take, s.curK)) → CanTrap s 19 →
      Goes (exec (.accFree a n) s) fun u => TakesTrap s u 19 (.ofNat 64 (i + j)) 0 s.me.pc)) ∧
  ∀ cl k first m, (s.ctx cl k).stall = some (.accFree first m) → s.banksBusy cl first m = false →
    Goes (exec (.accFreeComplete cl k) s) fun u => ∃ y,
      (∀ b, (y.cluster cl).bankOwner b = if first ≤ b ∧ b < first + m then none else (s.cluster cl).bankOwner b) ∧
      OnlyCluster s y cl ∧ { y.cluster cl with accOwn := (s.cluster cl).accOwn } = s.cluster cl ∧
      Becomes y u cl k { s.ctx cl k with stall := none, pc := (s.ctx cl k).pc + 4 }

/-! ### Scenes, overlays, the end of a context -/

/-- R20, R146, R185, R187: SCENE.GO of the resident scene gives every ARMED region of the take on the cluster its start
token: RUN when SOFF is 0, else DELAY; while the rail is not at the floor the token is held. Of the regions that continue
over the splice, one that had not started yet has its start, one in DELAY is in RUN, and the others play again (log 15).
Another scene raises SCENE-MISMATCH.
R186: REGION.HALT halts the regions of one record of the resident slate on the cluster, at once where they are in a hold, else at
the next cycle boundary, where their pending results go; an index beyond the slate raises REGION-ABSENT. -/
def Obligations.SceneControl : Prop :=
  (
  ∀ (s : State) (n : BitVec 14) (t : Take), s.myTake = some t → let cl := s.curCl
  (n.toNat = t.scene → Goes (exec (.sceneGo n) s) fun u =>
    (∀ r, let g := s.region cl r
      u.region cl r =
        if r < 64 ∧ g.take = t.id ∧ g.rstate ≠ .idle then
          let h := { g with suspended := false }
          if g.rstate = .armed then
            if g.railWait = false ∧ s.floorOf (pairOf cl) ≤ (s.pair (pairOf cl)).vnow.toNat then
              if g.soff = 0 then { h with rstate := .run, token := false }
              else { h with rstate := .delay, soffLeft := g.soff, token := false }
            else { h with token := true }
          else if g.suspended ∧ g.rstate = .delay then { h with rstate := .run, soffLeft := 0, fresh := true }
          else h
        else g) ∧
    (∀ b, u.bank cl b = s.bank cl b) ∧ (∀ p, u.inPort cl p = s.inPort cl p) ∧ (∀ p, u.outPort cl p = s.outPort cl p) ∧
    (∀ j, u.ctx cl j = if j = s.curK then { s.me with pc := s.me.pc + 4 } else s.ctx cl j) ∧ OnlyFabric s u cl) ∧
  (n.toNat ≠ t.scene → CanTrap s 14 → Goes (exec (.sceneGo n) s) fun u => TakesTrap s u 14 (n.setWidth 64) 0 s.me.pc)
  ) ∧
  (
  ∀ (s : State) (i : BitVec 6) (t : Take), s.myTake = some t → let cl := s.curCl
  (i.toNat < t.slate.regions.length → Goes (exec (.regionHalt i) s) fun u =>
    Halts s u cl (liveRegions s cl t.id fun g => g.rix == i.toNat) ∧
    (∀ j, u.ctx cl j = if j = s.curK then { s.me with pc := s.me.pc + 4 } else s.ctx cl j) ∧ OnlyFabric s u cl) ∧
  (t.slate.regions.length ≤ i.toNat → CanTrap s 15 →
    Goes (exec (.regionHalt i) s) fun u => TakesTrap s u 15 (i.setWidth 64) 0 s.me.pc)
  ) ∧
  ∀ (s : State) (cl rid : Nat), let g := s.region cl rid; let u := tick s
    u.region cl rid = (if g.halting then
      if g.rstate = .halted ∨ g.rstate = .idle then { g with halting := false }
      else { g with halting := false, rstate := .halted, arb := 0 } else g) ∧
    (g.halting = true → g.rstate ≠ .halted → g.rstate ≠ .idle → ∀ e ∈ g.els, (u.bank cl (g.bankNo e)).pend = none)

/-- R187, R276: SPLICE asks for the halt of the regions that the next scene does not continue, suspends the others, ends the
final tiles of the take's output ports and stalls until every context of the take is ready; in the last scene it raises
SPLICE-LAST.
R187, R188: when every context of the take is ready at its SPLICE and has no abort to report, the next scene is resident on
all its clusters in one step, and every context goes on at the scene's entry. (What SPLICE waits for, and the restart point
of a region that continues, are deduced: log 15.) -/
def Obligations.Splices : Prop :=
  (
  ∀ (s : State) (t : Take), s.myTake = some t → let cl := s.curCl
  (∀ nx, t.nextScene = some nx → Goes (exec .splice s) fun u =>
    (∀ r, let g := s.region cl r; let v := u.region cl r
      let mine := r < 64 ∧ g.take = t.id ∧ g.rstate ≠ .idle
      (mine → (nx.slate.continues g.rix).isSome → v.suspended = true ∧ v.rstate = g.rstate ∧ v.cnt = g.cnt ∧ v.iter = g.iter) ∧
      (mine → nx.slate.continues g.rix = none → v = if g.rstate = .halted then g
        else if g.held then { g with rstate := .halted, arb := 0 } else { g with halting := true }) ∧
      (¬ mine → v = g)) ∧
    (∀ p, (u.outPort cl p).closing = ((s.outPort cl p).closing || (decide (p ∈ t.outPorts cl) && (s.outPort cl p).bound.isSome))) ∧
    (∀ j, u.ctx cl j = if j = s.curK then { s.me with stall := some .splice } else s.ctx cl j) ∧ OnlyFabric s u cl) ∧
  (t.nextScene = none → CanTrap s 16 → Goes (exec .splice s) fun u => TakesTrap s u 16 0 0 s.me.pc)
  ) ∧
  (
  ∀ (s : State) (id : Nat) (t : Take) (nx : Scene), s.take? id = some t → t.active = true → t.nextScene = some nx →
  (∀ p ∈ t.places, s.spliceReady t p = true ∧ (s.ctx p.cl p.k).aborts = []) →
  Goes (exec (.spliceComplete id) s) fun u =>
    (u.take? id).map (·.scene) = some (t.scene + 1) ∧ (∀ j, j ≠ id → u.take? j = s.take? j) ∧
    (∀ p ∈ t.places, (u.ctx p.cl p.k).pc = nx.entry ∧ (u.ctx p.cl p.k).stall = none ∧ (u.ctx p.cl p.k).vbin = nx.slate.vbin ∧
      (u.ctx p.cl p.k).s = (s.ctx p.cl p.k).s ∧ (u.ctx p.cl p.k).p = (s.ctx p.cl p.k).p ∧
      (u.ctx p.cl p.k).kstate = (s.ctx p.cl p.k).kstate) ∧
    (∀ cl, (∀ p ∈ t.places, p.cl ≠ cl) → (∀ p ∈ t.places, ∀ x ∈ s.refRuns t.fn t.reel.ref nx.cueOff (min nx.cueLen
      (s.ctx p.cl p.k).wsize), s.readBad x.1 x.2 = false ∧ s.readCorrects x.1 x.2 = false) → (u.cluster cl).ctx = (s.cluster cl).ctx)
  )

/-- R164, R188: OVL.FETCH of a listed overlay starts its fetch, the lines of its place being filled; one in progress starts
again when it ends; an unlisted number raises OVL-ABSENT.
R188, R337: a fetch that ends puts the overlay's code into its place, whose lines become valid; one that meets an abort
makes them invalid. OVL.WAIT waits for the end of the latest fetch, and raises OVL-ABORT when it failed. (Log 16.) -/
def Obligations.Overlays : Prop :=
  (
  ∀ (s : State) (n : BitVec 14) (t : Take), s.myTake = some t → let cl := s.curCl; let me := s.me
  (∀ o, t.reel.overlay n.toNat = some o →
    (tget .never me.ovl n.toNat ≠ .fetching → Goes (exec (.ovlFetch n) s) fun u =>
      (∀ i, tget .valid (u.cluster cl).lines i =
        if i ∈ (unitsOf 64 (me.wbase.toNat + o.woff) o.len).map (· % 1024) then .filling else tget .valid (s.cluster cl).lines i) ∧
      (∀ j, u.ctx cl j = if j = s.curK then { me with pc := me.pc + 4, ovl := tput .never me.ovl o.n .fetching } else s.ctx cl j) ∧
      { u.cluster cl with ctx := (s.cluster cl).ctx, lines := (s.cluster cl).lines } = s.cluster cl ∧ OnlyCluster s u cl) ∧
    (tget .never me.ovl n.toNat = .fetching → Goes (exec (.ovlFetch n) s) fun u => Becomes s u cl s.curK { me with
      pc := me.pc + 4, ovlAgain := if n.toNat ∈ me.ovlAgain then me.ovlAgain else me.ovlAgain ++ [n.toNat] })) ∧
  (t.reel.overlay n.toNat = none → CanTrap s 17 → Goes (exec (.ovlFetch n) s) fun u => TakesTrap s u 17 (n.setWidth 64) 0 s.me.pc)
  ) ∧
  (
  ∀ (s : State) (cl k : Nat) (t : Take) (o : Overlay), let c := s.ctx cl k
  (s.take? c.take = some t → t.reel.overlay o.n = some o → tget .never c.ovl o.n = .fetching → o.n ∉ c.ovlAgain →
    let lines := (unitsOf 64 (c.wbase.toNat + o.woff) o.len).map (· % 1024)
    let code := s.refPeek t.fn t.reel.ref o.off o.len
    let good := ∀ x ∈ s.refRuns t.fn t.reel.ref o.off o.len, s.readBad x.1 x.2 = false
    good → o.len ≤ 65536 → ∀ ok, Goes (exec (.ovlFetchEnd cl k o.n ok) s) fun u =>
      (∀ i, tget .valid (u.cluster cl).lines i = if i ∈ lines then (if ok then .valid else .invalid) else tget .valid (s.cluster cl).lines i) ∧
      (ok = true → ∀ i (h : i < code.length), i < o.len →
        tget 0 (u.cluster cl).scratch ((c.wbase.toNat + o.woff + i) % 65536) = code[i]) ∧
      (ok = false → (u.cluster cl).scratch = (s.cluster cl).scratch) ∧
      (∀ j, u.ctx cl j = if j = k then { c with ovl := tput .never c.ovl o.n (if ok then .ok else .failed) } else s.ctx cl j) ∧
      { u.cluster cl with ctx := (s.cluster cl).ctx, lines := (s.cluster cl).lines, scratch := (s.cluster cl).scratch } = s.cluster cl ∧
      OnlyCluster s u cl) ∧
  (∀ n : BitVec 14, let st := tget .never s.me.ovl n.toNat
    (st = .never ∨ st = .ok → Goes (exec (.ovlWait n) s) fun u => MovesOn s u 1) ∧
    (st = .fetching → Goes (exec (.ovlWait n) s) fun u => Becomes s u s.curCl s.curK { s.me with
      wait := some (.ovlWait n.toNat), handler := s.me.kstate == .trap, kstate := .wait }) ∧
    (st = .failed → CanTrap s 18 → Goes (exec (.ovlWait n) s) fun u => TakesTrap s u 18 (n.setWidth 64) 0 s.me.pc)) ∧
  ∀ n, c.wait = some (.ovlWait n) →
    (tget .never c.ovl n = .never ∨ tget .never c.ovl n = .ok → Goes (exec (.ovlWaitWake cl k) s) fun u => Becomes s u cl k { c with
      wait := none, kstate := if c.handler then .trap else .run, handler := false, pc := c.pc + 4 }) ∧
    (tget .never c.ovl n = .failed → s.take? c.take = some t → t.act 18 = 1 → c.handler = false →
      Goes (exec (.ovlWaitWake cl k) s) fun u => TrapsAt s u cl k 18 (.ofNat 64 n) 0 c.pc)
  )

/-- R195: EXIT asks for the halt of every region of the take on the cluster, ends the final tiles of its output ports and
stalls with its status. It completes when the ports have committed, the engines have ended what they had accepted and no
abort is to be reported: the banks are free, the status is recorded, the context is EXITED, and with the last context the
take is ENDING (unless a fault of this cycle aborts it). (What EXIT waits for is deduced: log 15.) -/
def Obligations.Exit : Prop :=
  ∀ (s : State) (a : Reg) (t : Take),
  (s.myTake = some t → let cl := s.curCl; Goes (exec (.exit a) s) fun u => ∃ y, Halts s y cl (liveRegions s cl t.id fun _ => true) ∧
    (∀ r, u.region cl r = y.region cl r) ∧ (∀ n, u.bank cl n = y.bank cl n) ∧ (∀ p, u.inPort cl p = s.inPort cl p) ∧
    (∀ p, u.outPort cl p = if p ∈ t.outPorts cl ∧ (s.outPort cl p).bound.isSome then { y.outPort cl p with closing := true }
      else y.outPort cl p) ∧
    (∀ j, u.ctx cl j = if j = s.curK then { s.me with stall := some (.exit (.ofNat 32 (s.reg a).toNat) none) } else s.ctx cl j) ∧
    OnlyFabric s u cl) ∧
  ∀ cl k status ents, let c := s.ctx cl k
    s.take? c.take = some t → t.unasked = true → c.stall = some (.exit status ents) → s.portsDone cl t = true →
    s.entsDone cl t.id (ents.getD (s.writingEnts cl t fun _ => true)) = true → (∀ i ∈ (s.mxOf cl).queue, i.k ≠ k) →
    c.posted = [] → c.aborts = [] → c.pend = [] → Goes (exec (.exitComplete cl k) s) fun u =>
      u.ctx cl k = { c with stall := none, kstate := .exited } ∧ (∀ j, j ≠ k → u.ctx cl j = s.ctx cl j) ∧
      (∀ b < 256, (u.cluster cl).bankOwner b = if (s.cluster cl).bankOwner b = some (t.id, k) then none else (s.cluster cl).bankOwner b) ∧
      (∃ v, u.take? t.id = some v ∧ v.exits = t.exits ++ [(cl, status)] ∧
        v.st = (if t.exits.length + 1 = t.places.length ∧ t.xabort = false then .ending else .running) ∧
        (v.fr.leak = true ↔ t.fr.leak = true ∨ ∃ b < 256, (s.cluster cl).bankOwner b = some (t.id, k))) ∧
      (∀ j, j ≠ t.id → u.take? j = s.take? j) ∧ (∀ x, u.byte x = s.byte x) ∧
      { u.cluster cl with ctx := (s.cluster cl).ctx, accOwn := (s.cluster cl).accOwn } = s.cluster cl ∧
      ∀ j, j ≠ cl → u.cluster j = s.cluster j

/-! ### The matrix engine -/

/-- R203, R204, R207, R208, R210, R219: a matrix instruction of the take that holds the engine, with room in the queue of 16
and its own checks passed, enters the queue with the operands read at issue.
R211, R213, R216, R220: MX.STEP, MX.STEPS and MX.READ enter the queue when their handle has the kind they need and the
format they name, with a pattern that packs, and the context holds every bank that their rows touch. One that reads memory,
MX.PIN, MX.STEP and MX.STEPS, waits for the stores of its context (R225) and for the reads that R280 puts before its own:
those of SO plots, or all where it reads an SO plot itself. (That it waits at issue is deduced: log 9.)
R203, R204, R210, R211, R219, R223: the stops at issue. A take without the engine takes MX-NOENGINE; a full queue stalls;
a reserved bit of the mode raises MX-CONFIG, a handle of the wrong kind HANDLE-KIND, a wrong format MX-FORMAT. (The order of
these stops is the model's: log 47.) -/
def Obligations.MatrixIssues : Prop :=
  (
  ∀ (s : State) (t : Take) (m : MemOp) (fmt : BitVec 4) (sub : BitVec 3) (isB : Bool) (a : Reg) (n : BitVec 14),
  s.myTake = some t → (s.mxOf s.curCl).holder = some t.id → (s.mxOf s.curCl).queue.length < 16 → let v := s.reg a
  Goes (exec .mxSwap s) (Queues s · .swap 1) ∧
  ((v.toNat < 2 ^ 11 → (∀ b ∈ [2, 3, 6, 7], v.getLsbD b = false) → Goes (exec (.mxMode a) s) (Queues s · (.mode (v.setWidth 32)) 1))) ∧
  ((∀ j < n.toNat, v.toNat + j < 256 ∧ (s.cluster s.curCl).bankOwner (v.toNat + j) = some (t.id, s.curK)) →
    Goes (exec (.mxZero a n) s) (Queues s · (.zero v.toNat n.toNat) 1)) ∧
  (∀ tid c off, s.form t m 0 1 = .ok tid c off → (t.tensor tid).fmt = fmt → (fmt = 15 → (t.tensor tid).sub = sub) →
    let op := MxOp.pin fmt sub (.ofNat 12 tid) (.ofNat 32 c.c0) (.ofNat 32 c.c1) (.ofNat 32 c.c2) (.ofNat 32 c.c3)
    (s.mxWaits t op = false → Goes (exec (.mxPin m fmt sub) s) (Queues s · op 2)) ∧
    (s.mxWaits t op = true → Goes (exec (.mxPin m fmt sub) s) fun u => Stays s u)) ∧
  ∀ tid c off, s.form t m 0 256 = .ok tid c off → Goes (exec (.mxScale isB m) s)
    (Queues s · (.scale isB ⟨.ofNat 12 tid, .ofNat 32 c.c0, .ofNat 32 c.c1, .ofNat 32 c.c2, .ofNat 32 c.c3⟩) 2)
  ) ∧
  (
  ∀ (s : State) (t : Take) (r : TileRow) (tid : BitVec 12), s.myTake = some t → (s.mxOf s.curCl).holder = some t.id →
  (s.mxOf s.curCl).queue.length < 16 → let h := s.handle r.h; let b := s.reg r.b
  let fits (words : Nat) : Prop := ∀ i ≤ r.rows.toNat, ∀ j ≤ (if r.selc = 1 then r.rpt.toNat else 0), ∀ w < words,
    let bank := (512 * r.bank.toNat + (j * (r.rows.toNat + 1) + i) * words + w) / 512
    bank < 256 ∧ (s.cluster s.curCl).bankOwner bank = some (t.id, s.curK)
  let fmtOk := (t.tensor tid.toNat).fmt = r.afmt ∧ (r.afmt = 15 → (t.tensor tid.toNat).sub = r.sub)
  let step (sparse src : Bool) := MxOp.step sparse src r h (b.setWidth 32) (b.extractLsb' 32 32)
  fmtOk →
  (∀ p ∈ ([(.mxStep true r, step false true), (.mxSteps true r, step true true)] : List (Instr × MxOp)),
    h = .tensor tid → fits (native (fmtOf r.afmt r.sub)).2.2 →
    (s.mxWaits t p.2 = false → Goes (exec p.1 s) (Queues s · p.2 2)) ∧
    (s.mxWaits t p.2 = true → Goes (exec p.1 s) fun u => Stays s u)) ∧
  (∀ p ∈ ([(.mxStep false r, step false false), (.mxSteps false r, step true false)] : List (Instr × MxOp)),
    ∀ nd port, h = .stream false nd port tid → s.noPack t false port = false → fits (native (fmtOf r.afmt r.sub)).2.2 →
    (s.mxWaits t p.2 = false → Goes (exec p.1 s) (Queues s · p.2 2)) ∧
    (s.mxWaits t p.2 = true → Goes (exec p.1 s) fun u => Stays s u)) ∧
  ((h = .tensor tid ∨ ∃ nd port, h = .stream true nd port tid ∧ s.noPack t true port = false) →
    fits (rdSrc (s.mxOf s.curCl).tailMode).pitch → Goes (exec (.mxRead r) s)
      (Queues s · (.read r h (b.setWidth 32) (b.extractLsb' 32 32)) 2))
  ) ∧ (
  ∀ (s : State) (t : Take) (op : MxOp), op.readsMem = true →
  let so := op.reads (s.mxOf s.curCl) fun tid => decide ((t.tensor tid).kind = 0)
  (s.mxWaits t op = true ↔ (∃ x ∈ s.me.posted, x.mx = none) ∨
    s.streamsLeft s.curCl t (!so) = true ∨ s.copiesLeft s.curCl t (!so) = true)
  ) ∧ (
  ∀ (s : State) (t : Take) (m : MemOp) (fmt : BitVec 4) (sub : BitVec 3) (isB src : Bool) (a : Reg) (n : BitVec 14) (r : TileRow),
  s.myTake = some t → let mx := s.mxOf s.curCl
  let all : List Instr := [.mxSwap, .mxMode a, .mxZero a n, .mxPin m fmt sub, .mxScale isB m, .mxStep src r, .mxSteps src r, .mxRead r]
  (mx.holder ≠ some t.id → CanTrap s 26 → ∀ i ∈ Instr.mxWait :: all, Goes (exec i s) fun u => TakesTrap s u 26 0 0 s.me.pc) ∧
  (mx.holder = some t.id → 16 ≤ mx.queue.length → ∀ i ∈ all, Goes (exec i s) fun u => Stays s u) ∧
  (mx.holder = some t.id → mx.queue.length < 16 →
    ((2 ^ 11 ≤ (s.reg a).toNat ∨ ∃ b ∈ [2, 3, 6, 7], (s.reg a).getLsbD b = true) → CanTrap s 28 →
      Goes (exec (.mxMode a) s) fun u => TakesTrap s u 28 (s.reg a) 0 s.me.pc) ∧
    ((s.handle r.h).kind ≠ (if src then 1 else 2) → CanTrap s 5 → ∀ i ∈ [Instr.mxStep src r, .mxSteps src r],
      Goes (exec i s) fun u => TakesTrap s u 5 (.ofNat 64 (16 * (s.handle r.h).kind + r.h.toNat)) 0 s.me.pc) ∧
    (∀ tid c off, s.form t m 0 1 = .ok tid c off → (t.tensor tid).fmt ≠ fmt → CanTrap s 27 →
      Goes (exec (.mxPin m fmt sub) s) fun u => TakesTrap s u 27
        (.ofNat 64 (sub.toNat * 2 ^ 24 + fmt.toNat * 2 ^ 20 + (t.tensor tid).sub.toNat * 2 ^ 16 + (t.tensor tid).fmt.toNat * 2 ^ 12 +
          (t.tensor tid).tid.toNat)) 0 s.me.pc))
  )

/-- R206 to R210, R219: the instruction at the head of the queue takes effect and leaves it: MX.SWAP exchanges the planes,
MX.SCALE and MX.MODE set their records, MX.ZERO writes 0 into every word of its banks and no other, which hold no error
afterwards (R331), and MX.PIN fills SHADOW with the elements of its tile. (The codes of PFMT are the model's: log 36.) -/
def Obligations.MatrixQueue : Prop :=
  ∀ (s : State) (cl : Nat) (t : Take) (i : MxItem), s.mxReady cl = some (t, i) →
  let m := s.mxOf cl; let pop := { m with queue := m.queue.drop 1 }; let go := exec (.mxQueuedExecute cl) s
  (i.op = .swap → Goes go fun u => OnlyMx s u cl { pop with live := m.shadow, shadow := m.live }) ∧
  (∀ r, i.op = .scale false r → Goes go fun u => OnlyMx s u cl { pop with sca := some r }) ∧
  (∀ r, i.op = .scale true r → Goes go fun u => OnlyMx s u cl { pop with scb := some r }) ∧
  (∀ w, i.op = .mode w → Goes go fun u => OnlyMx s u cl { pop with mode := w }) ∧
  (∀ b n, i.op = .zero b n → Goes go fun u =>
    (∀ w, tget 0 (u.cluster cl).acc w = if 512 * b ≤ w ∧ w < 512 * (b + n) then 0 else tget 0 (s.cluster cl).acc w) ∧
    (∀ w, w ∈ (u.cluster cl).accBad ↔ w ∈ (s.cluster cl).accBad ∧ (w < 512 * b ∨ 512 * (b + n) ≤ w)) ∧ u.mxOf cl = pop ∧
    { u.cluster cl with acc := (s.cluster cl).acc, accBad := (s.cluster cl).accBad, mx := m } = s.cluster cl ∧
    OnlyCluster s u cl) ∧
  ∀ fmt sub tid c0 c1 c2 c3, i.op = .pin fmt sub tid c0 c1 c2 c3 → let ten := t.tensor tid.toNat
    let nat := native (fmtOf fmt sub); let pk := min nat.1 (ten.ext 1 - c1.toNat); let pn := min nat.2.1 (ten.ext 0 - c0.toNat)
    let at' (k n : Nat) : Coord := ⟨c0.toNat + n, c1.toNat + k, c2.toNat, c3.toNat⟩
    (∀ k < pk, ∀ n < pn, ten.inExtents (at' k n) = true ∧ ∃ a, s.translate t ten (ten.offset (at' k n)) true false false = .ok (.key a) ∧
      s.readBad a ten.unit = false ∧ s.readCorrects a ten.unit = false) →
    Goes (exec (.mxPinExecute cl) s) fun u => ∃ cells,
      OnlyMx s u cl { pop with shadow := {
        pfmt := .ofNat 5 (if fmt = 15 then 16 + sub.toNat else fmt.toNat), pk := pk, pn := pn, pv := true, cells := cells } } ∧
      ∀ k < pk, ∀ n < pn, ∀ a, s.translate t ten (ten.offset (at' k n)) true false false = .ok (.key a) →
        tget 0 cells (256 * k + n) = .ofNat 64 (ofBytes (s.peek a ten.unit) / 2 ^ ten.slotBit (c0.toNat + n) % 2 ^ ten.elemFmt.width)

/-- R104 to R108, R211 to R216, R224: an interval whose operands are gathered, on a valid plane with a pairing that runs,
updates the accumulator words of its rows, and no others: element n of row q in word base(q) + ws × n, n < PN. Each is
computed group by group along K in ascending order (R105, R88 for LG6), by the saturating sum of R106 for I8, or product by
product, fused, for F32 and F64 (R107); a position of a compressed row that holds no value has no product (R218). MXSTEPS
counts the step, and FSTAT.INTSAT is set when an update saturated. A step on a plane that is not valid raises MX-NOPLANE
between two instructions, the rest of the queue is discarded, and so are the completions of the engine's reads. (ROW 0 of that
trap is the model's: log 47.) -/
def Obligations.MatrixStep : Prop :=
  ∀ (s : State) (cl : Nat) (t : Take) (i : MxItem) (sparse src : Bool) (r : TileRow) (h : Handle) (row0 k0 : BitVec 32),
  s.mxReady cl = some (t, i) → i.op = .step sparse src r h row0 k0 →
  let m := s.mxOf cl; let fa := fmtOf r.afmt r.sub; let fb := fmtOf m.live.fmt m.live.sub; let pk := m.live.pk
  let rows := r.rows.toNat + 1; let per := rowTokens sparse fa pk
  let size := if fa ∈ [f16, bf16, t16] then 16 else if fa = f32 ∨ fa = f64 then 1 else 32; let ng := cdiv pk size
  let ws := if fa = f64 then 2 else 1
  let base (q : Nat) : Nat := 512 * r.bank.toNat + ((if r.selc = 1 then i.next * rows else 0) + q) * (native fa).2.2
  (m.live.pv = true → pairingRuns sparse fa fb = true →
    ∀ s1 toks tid, (src = true ∧ h = .tensor tid ∧ s1 = s ∧ toks = [] ∨
      src = false ∧ (∃ nd port, h = .stream false nd port tid) ∧ s.mxTokens cl t h (rows * per) per = (s1, toks, none)) →
    let g0 : Gather := ⟨s1, i.reads.filterMap (·.val), [], none⟩
    let a := g0.rows cl i.k t (t.tensor tid.toNat) sparse src r row0.toNat k0.toNat i.next pk toks (List.range rows)
    let a' := if m.mode.getLsbD 0 && takesScale fa then a.1.ascales cl i.k t m.sca ng a.2.zipIdx else a
    let b := if m.mode.getLsbD 1 && takesScale fb then a'.1.bscales cl i.k t m.scb m.live.pn (List.range ng) else (a'.1, [])
    b.1.stop = none → b.1.asks = [] →
    (∀ w ∈ (s.cluster cl).accBad, ∀ q < rows, w < base q ∨ base q + ws * m.live.pn ≤ w) →
    let acc := (s.cluster cl).acc
    let old (q n : Nat) : Nat := let w := base q + ws * n
      (tget 0 acc w).toNat + if fa = f64 then 2 ^ 32 * (tget 0 acc (w + 1)).toNat else 0
    let wgt (k n : Nat) : Nat := (tget 0 m.live.cells (256 * k + n)).toNat
    -- the activation code of row q at k; the code of its A scale and of the B scale of column n in group g, 127 for 1
    let act (q k : Nat) : Option Nat := ((a'.2[q]?.map fun x => x.a).getD []).getD k none
    let ea (q g : Nat) : Nat := ((a'.2[q]?.map fun x => x.sc).getD []).getD g 127
    let eb (g n : Nat) : Nat := (b.2.getD g []).getD n 127
    let prod (x y : Nat) : Val :=
      if fa = .lg6 then
        if x % 32 = 0 ∨ y % 32 = 0 then .fin false 0 0 false
        else
          let z : Int := ((x % 32 : Nat) : Int) + (y % 32 : Nat) - 32; let j := z % 4
          .fin (x / 32 % 2 != y / 32 % 2) (65536 + if j = 0 then 0 else if j = 1 then 0x3070 else if j = 2 then 0x6A0A else 0xAE8A)
            (z / 4 - 16) false
      else mulVal (decodeVal fa x) (decodeVal fb y)
    let prods (q n g : Nat) : List Val := (List.range (min size (pk - size * g))).filterMap fun j =>
      (act q (size * g + j)).map fun x => prod x (wgt (size * g + j) n)
    let f32code (v : Val) : Nat := (encodeVal f32 .rne false v).code
    let group (q n g : Nat) : Nat :=
      let ps := prods q n g
      if ea q g = 255 || eb g n = 255 || ps.any Val.isNan || (ps.contains (.inf true) && ps.contains (.inf false)) then 0x7FC00000
      else if ps.contains (.inf false) then 0x7F800000
      else if ps.contains (.inf true) then 0xFF800000
      else match ps.foldl (fun v p => addVal v p false) (.fin false 0 0 false) with
        | .fin neg mag e st => if mag = 0 then 0 else f32code (.fin neg mag (e + ea q g + eb g n - 254) st)
        | v => f32code v
    let float (q n : Nat) : Nat := (List.range ng).foldl
      (fun x g => f32code (addVal (decodeVal f32 x) (decodeVal f32 (group q n g)) false)) (old q n)
    let fused (q n : Nat) : Nat := (List.range pk).foldl (fun x k => match act q k with
      | some y => (encodeVal fa .rne false (addVal (mulVal (decodeVal fa y) (decodeVal fb (wgt k n))) (decodeVal fa x) false)).code
      | none => x) (old q n)
    let clip (v : Int) : Int := max (-(2 ^ 31)) (min (2 ^ 31 - 1) v)
    let int (q n : Nat) : Int × Bool := (List.range ng).foldl (fun x g =>
      let v := x.1 + ((List.range (min size (pk - size * g))).map fun j => match act q (size * g + j) with
        | some y => (BitVec.ofNat 8 y).toInt * (BitVec.ofNat 8 (wgt (size * g + j) n)).toInt
        | none => 0).sum
      (clip v, x.2 || v != clip v)) ((BitVec.ofNat 32 (old q n)).toInt, false)
    -- the words of two results are apart, as they are wherever PN is at most the native N (R205, R206)
    let apart := ∀ q < rows, ∀ q' < rows, ∀ n < m.live.pn, ∀ n' < m.live.pn, (q ≠ q' ∨ n ≠ n') →
      base q + ws * n + ws ≤ base q' + ws * n' ∨ base q' + ws * n' + ws ≤ base q + ws * n
    Goes (exec (.mxInterval cl) s) fun u =>
      (∀ w, (∀ q < rows, w < base q ∨ base q + ws * m.live.pn ≤ w) → tget 0 (u.cluster cl).acc w = tget 0 acc w) ∧
      (apart → ∀ q < rows, ∀ n < m.live.pn,
        (fa = .int true 8 → fb = .int true 8 → tget 0 (u.cluster cl).acc (base q + n) = .ofInt 32 (int q n).1) ∧
        (fa ∈ [e4m3, e5m2, e3m2, e2m3, e2m1, t8, .lg6, f16, bf16, t16] →
          tget 0 (u.cluster cl).acc (base q + n) = .ofNat 32 (float q n)) ∧
        (fa = f32 → tget 0 (u.cluster cl).acc (base q + n) = .ofNat 32 (fused q n)) ∧
        (fa = f64 → tget 0 (u.cluster cl).acc (base q + 2 * n) = .ofNat 32 (fused q n) ∧
          tget 0 (u.cluster cl).acc (base q + 2 * n + 1) = .ofNat 32 (fused q n / 2 ^ 32))) ∧
      (u.mxOf cl).queue = queueNext (b.1.s.mxOf cl) (r.rpt.toNat + 1) ∧
      (∃ sat : Bool, u.ctx cl i.k = { b.1.s.ctx cl i.k with
          steps := (b.1.s.ctx cl i.k).steps + 1
          fstat := if sat then (b.1.s.ctx cl i.k).fstat ||| 1 else (b.1.s.ctx cl i.k).fstat } ∧
        (fa.isInt = false → sat = false) ∧
        (apart → fa = .int true 8 → fb = .int true 8 → (sat = true ↔ ∃ q < rows, ∃ n < m.live.pn, (int q n).2 = true))) ∧
      (∀ j, j ≠ i.k → u.ctx cl j = b.1.s.ctx cl j) ∧
      { u.cluster cl with
        acc := (b.1.s.cluster cl).acc, mx := (b.1.s.cluster cl).mx, ctx := (b.1.s.cluster cl).ctx
        inp := (b.1.s.cluster cl).inp } = b.1.s.cluster cl ∧ (src = true → ∀ p, u.inPort cl p = b.1.s.inPort cl p) ∧
      (∀ x, u.byte x = b.1.s.byte x) ∧ OnlyCluster b.1.s u cl) ∧
  (m.live.pv = false → ∀ k, s.ctxOf cl t.id = some k → (s.ctx cl k).kstate ≠ .exited →
    Goes (exec (.mxInterval cl) s) fun u => (u.mxOf cl).queue = [] ∧
      u.ctx cl k = { s.ctx cl k with pend := (s.ctx cl k).pend ++ [⟨29, .ofNat 64 (i.next % 512 * 2 ^ 16 + i.pc.toNat), 0⟩] } ∧
      (∀ j, j ≠ k → u.ctx cl j = s.ctx cl j) ∧
      u.reqs = s.reqs.map (fun q => match q.rq with
        | .matrix c _ => if c = cl then { q with stale := true } else q
        | _ => q) ∧ OnlyCluster { s with reqs := u.reqs } u cl)

/-- R210, R212, R220, R221: an interval of MX.READ converts its rows and writes them: to a tensor in this package every
element that lies in its extents, once all have their places and pass the bound check and no write that R280 puts before
them is outstanding, or to a port as packed tokens, as far as it accepts them; with RDCLR the words it read become 0. A
conversion that is INVALID, or saturates in an integer format, sets its bit of FSTAT. (That a port that is unbound takes and
discards the tokens is the model's: log 47.) -/
def Obligations.MatrixRead : Prop :=
  ∀ (s : State) (cl : Nat) (t : Take) (i : MxItem) (r : TileRow) (h : Handle) (row0 c0 : BitVec 32),
  s.mxReady cl = some (t, i) → i.op = .read r h row0 c0 → let m := s.mxOf cl; let src := rdSrc m.mode
  let f := fmtOf r.afmt r.sub; let rm := Rm.ofNat (m.mode.extractLsb' 4 3).toNat; let acc := (s.cluster cl).acc
  let row (q : Nat) := rowSel r row0.toNat src.pitch i.next q; let rows := List.range (r.rows.toNat + 1)
  let codes (q : Nat) : List Enc := (List.range src.cols).map fun n => let w := (row q).2.2 + src.ws * n
    encodeVal f rm false (decodeVal src.fmt ((tget 0 acc w).toNat + if src.ws = 2 then 2 ^ 32 * (tget 0 acc (w + 1)).toNat else 0))
  (∀ w ∈ (s.cluster cl).accBad, ∀ q ∈ rows, w < (row q).2.2 ∨ (row q).2.2 + src.ws * src.cols ≤ w) →
  let cleared (u : State) : Prop := ∀ w, tget 0 (u.cluster cl).acc w =
    if m.mode.getLsbD 10 = true ∧ ∃ q ∈ rows, (row q).2.2 ≤ w ∧ w < (row q).2.2 + src.ws * src.cols then 0 else tget 0 acc w
  let flags (u : State) : Prop := ∀ j < 3, (u.ctx cl i.k).fstat.getLsbD j = ((s.ctx cl i.k).fstat.getLsbD j ||
    (j == 1 && rows.any fun q => (codes q).any (·.inv)) || (j == 0 && f.isInt && rows.any fun q => (codes q).any (·.sat)))
  (∀ tid, h = .tensor tid → let ten := t.tensor tid.toNat
    let els := rows.flatMap fun q => (codes q).zipIdx.filterMap fun e =>
      let c : Coord := ⟨c0.toNat + e.2, (row q).1, (row q).2.1, 0⟩
      if ten.inExtents c then some (c, e.1.code) else none
    -- R280: earlier writes of reads are outstanding, and one of the plots is of kind SO
    let waits := ∃ x ∈ (s.ctx cl i.k).posted, x.mx ≠ none ∧ (ten.kind = 0 ∨ x.so = true)
    (((∃ l, s.spread t ten false true false (els.map (·.1)) = .keys l) ∨ ∃ l, s.spread t ten false true false (els.map (·.1)) = .peer l) →
      waits → exec (.mxReadInterval cl) s = .next s) ∧
    ∀ out ev l, ¬ waits → s.spread t ten false true false (els.map (·.1)) = .keys l → checkElems ten els = some (out, ev) →
      Goes (exec (.mxReadInterval cl) s) fun u =>
        let y := (l.zip (out.map (·.2))).foldl (fun s x => s.mxWrite cl i.k ten x.1.1 x.2 (.key x.1.2)) s
        (∀ a, u.byte a = y.byte a) ∧ cleared u ∧ flags u ∧
        (u.mxOf cl).queue = queueNext m (r.rpt.toNat + 1) ∧ (∀ p, u.outPort cl p = s.outPort cl p) ∧
        (∀ p, u.inPort cl p = s.inPort cl p) ∧ (∀ g, u.region cl g = s.region cl g) ∧ (∀ n, u.bank cl n = s.bank cl n)) ∧
  (∀ nd port tid p, h = .stream true nd port tid → t.physical cl true port = some p → s.portBlocks cl p t = false →
    let x := s.outPort cl p
    let room := match x.bound.bind fun b => (s.take? b.take).map fun k => (b.walk (k.tensor b.tid.toNat)).ntok with
      | some n => if x.stop || 2048 ≤ (x.held.filter fun y => y.rid.isSome).length then 0 else n - x.nacc
      | none => 0
    let toks := (rows.flatMap fun q => packRow f src.cols ((codes q).map Enc.code)).take room
    Goes (exec (.mxReadInterval cl) s) fun u =>
      u.outPort cl p = { x with
        held := x.held ++ toks.zipIdx.map fun y => { val := y.1, last := false, rid := none, elem := x.nacc + y.2 }
        nacc := x.nacc + toks.length } ∧
      cleared u ∧ flags u ∧ (∀ q, q ≠ p → u.outPort cl q = s.outPort cl q) ∧ (∀ a, u.byte a = s.byte a) ∧
      (∀ q, u.inPort cl q = s.inPort cl q) ∧ (∀ g, u.region cl g = s.region cl g) ∧
      (u.mxOf cl).queue = queueNext m (r.rpt.toNat + 1) ∧ OnlyCluster s u cl)

/-! ### The copy engine -/

/-- R237, R238, R239, R243: CP.ADV advances the stage and makes ACTIVE every PENDING entry of this cluster whose stage is
reached, with the operator in force and, of a SLOTS source, the LANDED slots of the zone on this cluster in ascending order
of their senders (R234, R244), and where the zone has them (deduced: log 48); one whose BYTES hold no whole number of
incoming elements meets its end with RANGE. It waits for the stores of the context to peers, which the entries may read, and
for the reads that R280 puts before theirs (deduced: log 9); beyond stage 255 it raises CP-STAGE-LIMIT. CP.STAT reads an
entry's status word, and CP.REDOP sets the operator of RED. -/
def Obligations.CopyControl : Prop :=
  ∀ (s : State) (t : Take), s.myTake = some t → let cl := s.curCl; let c := s.copyOf cl t.id
  (∀ n : BitVec 14, c.stage.toNat + n.toNat ≤ 255 → (∃ x ∈ s.me.posted, x.mx = none) ∨
    s.advWaits t (c.stage.toNat + n.toNat) = true → Goes (exec (.cpAdv n) s) fun u => Stays s u) ∧
  (∀ n : BitVec 14, c.stage.toNat + n.toNat ≤ 255 → (∀ x ∈ s.me.posted, x.mx ≠ none) →
    s.advWaits t (c.stage.toNat + n.toNat) = false →
    Goes (exec (.cpAdv n) s) fun u => ∃ y, let v := y.copyOf cl t.id
    OnlyCopy s y cl t.id v ∧ MovesOn y u 1 ∧ v.stage.toNat = c.stage.toNat + n.toNat ∧
    { v with stage := c.stage, ents := c.ents } = c ∧
    ∀ e, let x := tget {} c.ents e; let x' := tget {} v.ents e
      (∀ w, t.sched[e]? = some w → w.tcl = t.lcOf cl → w.stage ≤ c.stage.toNat + n.toNat → x.st = .pending →
        { x' with slots := x.slots, zat := x.zat, zstep := x.zstep, zborn := x.zborn, rows := x.rows, fin := x.fin } =
          { x with st := .active, opr := if w.opr = 15 then c.redop else w.opr } ∧
        (w.src.kind ≠ 3 → x'.slots = x.slots) ∧
        (let z := s.zone cl w.src.slotZone.toNat;
          w.src.kind = 3 → z.open_ = true → z.nslot ≤ 64 →
            x'.zat = z.base ∧ x'.zstep = z.slotBytes ∧ x'.zborn = z.born ∧ (∀ i < z.nslot.toNat, .ofNat 6 i ∈ x'.slots ↔ (z.slot i).st = .landed) ∧
            x'.slots.Pairwise fun i j => (z.slot i.toNat).spkg < (z.slot j.toNat).spkg ∨
              (z.slot i.toNat).spkg = (z.slot j.toNat).spkg ∧ (z.slot i.toNat).scl ≤ (z.slot j.toNat).scl) ∧
        (x.fin = none → 8 * w.bytes % (flowOf t w (if w.opr = 15 then c.redop else w.opr) 0).win ≠ 0 → x'.fin = some 6)) ∧
      ((∀ w, t.sched[e]? = some w → w.tcl ≠ t.lcOf cl ∨ c.stage.toNat + n.toNat < w.stage ∨ x.st ≠ .pending) → x' = x)) ∧
  (∀ n : BitVec 14, 255 < c.stage.toNat + n.toNat → CanTrap s 22 → Goes (exec (.cpAdv n) s) fun u =>
    TakesTrap s u 22 (.ofNat 64 (n.toNat * 256 + c.stage.toNat)) 0 s.me.pc) ∧
  (∀ (d : Reg) (e : BitVec 14), let x := tget {} c.ents e.toNat
    (∀ w, t.sched[e.toNat]? = some w → w.tcl = t.lcOf cl → Goes (exec (.cpStat d e) s) fun u => WritesReg s u d (.ofNat 64
      ((match x.st with | .pending => 0 | .active => 1 | .done => 2 | .error => 3) * 2 ^ 62 + x.ecode.toNat * 2 ^ 58 +
        (if x.sat then 2 ^ 57 else 0) + (if x.inv then 2 ^ 56 else 0) + x.doneb.toNat)) 1) ∧
    ((∀ w, t.sched[e.toNat]? = some w → w.tcl ≠ t.lcOf cl) → Goes (exec (.cpStat d e) s) fun u => WritesReg s u d 0 1)) ∧
  ∀ op, Goes (exec (.cpRedop op) s) fun u => ∃ y, OnlyCopy s y cl s.me.take { s.copyOf cl s.me.take with redop := op } ∧ MovesOn y u 1

/-- R234, R237, R240, R271: a sector whose elements move is counted: DONEB is the bytes moved, and the last sector brings
the entry to its end; one that meets an error ends the entry with its ECODE. A sector of one element of whole bytes, copied
within the package without a bound action, writes that element's bytes and no others. R242: so does one whose operator
combines the incoming element v with the resident element r, with the new element; an addition or conversion rounds to
nearest, a minimum or maximum of F32 ignores a single NaN, SAT and INVALID are noted. Of the slots that a conversion sends to
one landing, the last one's elements are sent. (Each of them where no reduction that R244 puts before it is left: log 48, as
for what of several slots is sent.) -/
def Obligations.CopySector : Prop :=
  ∀ (s : State) (cl take e : Nat) (t : Take) (w : Sched) (x : CopyEnt) (f : Flow), s.movable cl take e = some (t, w, x, f) →
  x.asked = x.vals.length → (x.pos ≠ 0 ∨ s.reduceWaits t e w f x.rows = false) →
  let hi := f.sectorElems x.doneb.toNat; let go := exec (.copySector cl take e) s
  (∀ y, w.dst.kind ≠ 2 → s.moveElems cl t e f x.pos (hi - x.pos) = (y, .ok) → let z := tget {} (y.copyOf cl take).ents e
    (z.posted = [] → Goes go fun u => OnlyEntry y u cl take e { z with
      doneb := .ofNat 48 (f.sectorEnd z.doneb.toNat)
      fin := if f.n ≤ z.pos then (if z.fin.isSome then z.fin else some 0) else z.fin }) ∧
    (z.posted ≠ [] → Goes go fun u => OnlyEntry y u cl take e z)) ∧
  (∀ y code, (w.dst.kind ≠ 2 ∨ x.land.isSome ∧ x.posted = []) →
    s.moveElems cl t e f x.pos (hi - x.pos) = (y, .fail code) → let z := tget {} (y.copyOf cl take).ents e
    Goes go fun u => OnlyEntry y u cl take e { z with fin := if z.fin.isSome then z.fin else some code }) ∧
  (∀ y slot, w.dst.kind = 2 → x.land = some slot → x.posted = [] → s.moveElems cl t e f x.pos (hi - x.pos) = (y, .ok) →
    let z := tget {} (y.copyOf cl take).ents e
    (f.n ≤ hi ∨ 8 ≤ z.obits → go = .next (y.landSend cl t e w.dst slot (decide (f.n ≤ hi)))) ∧
    (hi < f.n → z.obits < 8 → Goes go fun u => OnlyEntry y u cl take e { z with
      doneb := .ofNat 48 (f.sectorEnd z.doneb.toNat)
      fin := if f.n ≤ z.pos then (if z.fin.isSome then z.fin else some 0) else z.fin })) ∧
  -- R234: of the slots that a conversion sends to one landing, only what the last gives is sent
  (∀ y i, f.dst.kind = 2 → s.moveElem cl t e f i = (y, .ok) → t.id = take → let z := tget {} (y.copyOf cl take).ents e
    (f.op = 0 ∨ f.n ≤ i + f.e → z.obits = x.obits + f.wout ∧ z.obuf % 2 ^ x.obits = x.obuf % 2 ^ x.obits) ∧
    (f.op ≠ 0 → i + f.e < f.n → z.obits = x.obits ∧ z.obuf = x.obuf)) ∧
  (∀ a b, w.src.kind = 0 → w.dst.kind = 0 → f = flowOf t w 0 0 → x.opr = 0 → x.posted = [] → x.vals = [] → hi = x.pos + 1 →
    let i := x.pos; let src := t.tensor w.src.tid; let dst := t.tensor w.dst.tid
    let at' (p : CPat) : Coord := ⟨p.c0 + (p.rowCol i).2, p.c1 + (p.rowCol i).1, p.c2, p.c3⟩
    src.inExtents (at' w.src) = true → src.elemFmt.whole = true → dst.elemFmt = src.elemFmt → dst.act = 0 →
    s.translate t src (src.offset (at' w.src)) true false false = .ok (.key a) → s.readBad a src.unit = false →
    s.readCorrects a src.unit = false → s.translate t dst (dst.offset (at' w.dst)) false true false = .ok (.key b) →
    s.writeBad b src.unit = false → Goes go fun u => ∃ y, Stores s y b (s.peek a src.unit) ∧ ∃ z, OnlyEntry y u cl take e z ∧
      z.pos = i + 1 ∧ z.doneb = .ofNat 48 (f.sectorEnd x.doneb.toNat) ∧ z.fin = if f.n ≤ i + 1 then some 0 else none) ∧
  ∀ a b, w.src.kind = 0 → w.dst.kind = 0 → f = flowOf t w x.opr 0 → x.posted = [] → x.vals = [] → hi = x.pos + 1 →
    let i := x.pos; let src := t.tensor w.src.tid; let dst := t.tensor w.dst.tid
    let at' (p : CPat) : Coord := ⟨p.c0 + (p.rowCol i).2, p.c1 + (p.rowCol i).1, p.c2, p.c3⟩
    let vc := ofBytes (s.peek a src.unit); let rc := ofBytes (s.peek b dst.unit); let i32 := Fmt.int true 32
    let sum (fv fr : Fmt) : Nat × Bool × Bool :=
      let v := decodeVal fv vc; let r := decodeVal fr rc; let q := encodeVal fr .rne false (addVal r v false)
      (q.code, q.sat || q.clamp, addInvalid r v || q.inv)
    let cvt (fv fr : Fmt) : Nat × Bool × Bool :=
      let q := encodeVal fr .rne false (decodeVal fv vc); (q.code, q.sat || q.clamp, (decodeVal fv vc).isSnan || q.inv)
    let r32 := (BitVec.ofNat 32 rc).toInt; let v32 := (BitVec.ofNat 32 vc).toInt
    let r16 := (BitVec.ofNat 16 rc).toInt; let v16 := (BitVec.ofNat 16 vc).toInt
    -- R122 on F32 codes: is r below v?
    let below := if rc % 2 ^ 31 = 0 ∧ vc % 2 ^ 31 = 0 then 2 ^ 31 ≤ rc ∧ vc < 2 ^ 31 else ltVal (decodeVal f32 rc) (decodeVal f32 vc) = true
    let rNan := (decodeVal f32 rc).isNan; let vNan := (decodeVal f32 vc).isNan
    let snan := (decodeVal f32 rc).isSnan || (decodeVal f32 vc).isSnan
    let num (x : Nat) : Nat := if rNan && vNan then 0x7FC00000 else if rNan then vc else if vNan then rc else x
    ∀ p ∈ ([
      (1, f32, f32, sum f32 f32), (2, bf16, bf16, sum bf16 bf16), (3, t16, t16, sum t16 t16),
      (4, i32, i32, ((BitVec.ofInt 32 (max (-(2 ^ 31)) (min (2 ^ 31 - 1) (r32 + v32)))).toNat,
        decide (r32 + v32 < -(2 ^ 31) ∨ 2 ^ 31 - 1 < r32 + v32), false)),
      (5, f32, f32, (num (if below then rc else vc), false, snan)), (6, f32, f32, (num (if below then vc else rc), false, snan)),
      (7, i32, i32, (if r32 ≤ v32 then rc else vc, false, false)), (8, i32, i32, (if r32 ≤ v32 then vc else rc, false, false)),
      (9, t16, t16, (if r16 ≤ v16 then rc else vc, false, false)), (10, t16, t16, (if r16 ≤ v16 then vc else rc, false, false)),
      (11, t16, f32, sum t16 f32), (12, f32, t16, sum f32 t16), (13, t16, f32, cvt t16 f32), (14, f32, t16, cvt f32 t16)] :
        List (Nat × Fmt × Fmt × Nat × Bool × Bool)),
    x.opr.toNat = p.1 → src.elemFmt = p.2.1 → dst.elemFmt = p.2.2.1 →
    src.inExtents (at' w.src) = true → dst.inExtents (at' w.dst) = true → dst.act = 0 →
    s.translate t src (src.offset (at' w.src)) true false false = .ok (.key a) → s.readBad a src.unit = false →
    s.readCorrects a src.unit = false → s.translate t dst (dst.offset (at' w.dst)) false true false = .ok (.key b) →
    (p.1 ≤ 12 → s.translate t dst (dst.offset (at' w.dst)) true false false = .ok (.key b) ∧ s.readBad b dst.unit = false ∧
      s.readCorrects b dst.unit = false) → s.writeBad b dst.unit = false →
    Goes go fun u => ∃ y, Stores s y b (toBytes dst.unit p.2.2.2.1) ∧ ∃ z, OnlyEntry y u cl take e z ∧
      z.pos = i + 1 ∧ z.sat = (x.sat || p.2.2.2.2.1) ∧ z.inv = (x.inv || p.2.2.2.2.2) ∧
      z.doneb = .ofNat 48 (f.sectorEnd x.doneb.toNat) ∧ z.fin = if f.n ≤ i + 1 then some 0 else none

/-- R240, R241, R246, R248, R250: a landing entry takes the oldest reservation that names its zone; the target's answer ends
or counts an arrival, the first end of an entry being the one that counts; without a route it ends LINK. An entry that has
met its end is DONE or ERROR with its ECODE once none of its writes is outstanding, and its sequence stamp is written, or sent
to a peer and outstanding. -/
def Obligations.CopyEnds : Prop :=
  ∀ (s : State) (cl take e : Nat) (t : Take) (w : Sched),
  let c := s.copyOf cl take; let x := tget {} c.ents e
  let hit (r : Rsv) := r.pkg = w.dst.pkg ∧ r.cl = w.dst.cl ∧ r.z = w.dst.landZone
  (∀ f l r l', s.movable cl take e = some (t, w, x, f) → w.dst.kind = 2 → x.land = none → c.rsvs = l ++ r :: l' →
    (∀ y ∈ l, ¬ hit y) → hit r → (w.dst.pkg = s.pkgId ∨ w.dst.pkg.toNat ∈ s.reach) →
    (w.dst.off + w.bytes ≤ r.size → Goes (exec (.landEntryStart cl take e) s) fun u => ∃ v, OnlyCopy s u cl take v ∧
      v.rsvs = l ++ l' ∧ tget {} v.ents e = { x with land := some r.slot } ∧ (∀ j, j ≠ e → tget {} v.ents j = tget {} c.ents j) ∧
      { v with ents := c.ents, rsvs := c.rsvs } = c) ∧
    (r.size < w.dst.off + w.bytes → Goes (exec (.landEntryStart cl take e) s) fun u =>
      OnlyEntry s u cl take e { x with fin := some 5 })) ∧
  (∀ f, s.movable cl take e = some (t, w, x, f) → w.dst.kind = 2 → x.land = none → w.dst.pkg ≠ s.pkgId →
    w.dst.pkg.toNat ∉ s.reach → Goes (exec (.landEntryStart cl take e) s) fun u => OnlyEntry s u cl take e { x with fin := some 3 }) ∧
  (∀ r code, s.take? take = some t → t.sched[e]? = some w → x.st = .active → x.posted ≠ [] → x.fin = some code →
    Goes (exec (.landingAck cl take e r) s) fun u => OnlyEntry s u cl take e { x with posted := x.posted.drop 1 }) ∧
  (∀ code, s.take? take = some t → t.sched[e]? = some w → x.fin = some code → x.posted ≠ [] →
    exec (.copyEntryDone cl take e) s = .next s) ∧
  (s.take? take = some t → t.sched[e]? = some w → x.st = .active → x.fin = none → x.posted ≠ [] →
    let f := flowOf t w x.opr x.slots.length
    Goes (exec (.landingAck cl take e .done) s) (fun u => OnlyEntry s u cl take e { x with
      posted := x.posted.drop 1, doneb := .ofNat 48 (f.sectorEnd x.doneb.toNat), fin := if f.n ≤ x.pos then some 0 else none }) ∧
    ∀ p ∈ ([(.abort, 1), (.overrun, 2), (.link, 3), (.refused, 4)] : List (LandResult × BitVec 4)),
      Goes (exec (.landingAck cl take e p.1) s) fun u =>
        OnlyEntry s u cl take e { x with posted := x.posted.drop 1, fin := some p.2 }) ∧
  ∀ code, s.take? take = some t → t.sched[e]? = some w → t.active = true → x.st = .active → x.fin = some code →
    x.posted = [] → let x' := { x with
      st := if code = 0 then .done else .error, ecode := code, fin := none, obuf := 0, obits := 0, asked := 0, vals := [] }
    (w.sen = false → (w.src.kind ≠ 3 ∨ w.src.free = false) → Goes (exec (.copyEntryDone cl take e) s) fun u =>
      OnlyEntry s u cl take e x') ∧
    (∀ a, w.sen = true → (w.src.kind ≠ 3 ∨ w.src.free = false) →
      s.translate t (t.tensor w.stid) w.stoff false true false = .ok (.key a) → s.writeBad a 8 = false →
      Goes (exec (.copyEntryDone cl take e) s) fun u => ∃ y v,
        Stores s y a (toBytes 8 ((c.sseq + 1).toNat % 2 ^ 63 + if code = 0 then 0 else 2 ^ 63)) ∧ OnlyCopy y u cl take v ∧
        tget {} v.ents e = x' ∧ (∀ j, j ≠ e → tget {} v.ents j = tget {} c.ents j) ∧
        { v with ents := c.ents, sseq := c.sseq } = c ∧ v.sseq = c.sseq + 1) ∧
    ∀ pkg lease o, w.sen = true → (w.src.kind ≠ 3 ∨ w.src.free = false) →
      s.translate t (t.tensor w.stid) w.stoff false true false = .ok (.peer pkg lease o) →
      Goes (exec (.copyEntryDone cl take e) s) fun u => ∃ y v, OnlyCopy s y cl take v ∧
        tget {} v.ents e = { x' with stamp := some pkg } ∧ (∀ j, j ≠ e → tget {} v.ents j = tget {} c.ents j) ∧
        { v with ents := c.ents, sseq := c.sseq } = c ∧ v.sseq = c.sseq + 1 ∧ u = y.sendMem pkg (.copyEntry cl take e) lease o
          (.write (toBytes 8 ((c.sseq + 1).toNat % 2 ^ 63 + if code = 0 then 0 else 2 ^ 63)))

/-! ### Landing zones -/

/-- R39, R245: ZONE.OPEN of a zone number that is free, with its rules met, opens the zone with no slot taken, disarmed, and
writes 0 at its status word; it waits while a plot of the slots' range, which otherwise lies in vaults, is being moved (R318).
R39, R251: ZONE.ARM sets the count of the barrier: it opens at once when that many bytes have landed, reports an overrun
when more have, and otherwise counts what is missing; the zone must be open and the take's. (That only the lowest four bits of the
operands' handles are looked at is the model's: log 52.) -/
def Obligations.ZoneOpening : Prop :=
  (
  ∀ (s : State) (d a b : Reg) (nslot : BitVec 6) (z : BitVec 3) (t : Take), s.myTake = some t → let cl := s.curCl
  let n := nslot.toNat + 1; let size := (s.reg d).toNat
  let ha := s.handle ((s.reg a).setWidth 4); let hb := s.handle ((s.reg b).setWidth 4)
  let oa := (s.reg a).toNat / 2 ^ 32; let ob := (s.reg b).toNat / 2 ^ 32
  ∀ ta tb base sw, ha = .tensor ta → hb = .tensor tb → (s.zone cl z.toNat).open_ = false →
    oa < (t.tensor ta.toNat).size → ob < (t.tensor tb.toNat).size → oa % 256 = 0 → ob % 8 = 0 →
    size % 256 = 0 → 256 ≤ size → size ≤ 1048576 →
    s.areaMoves t (t.tensor ta.toNat) oa (n * size) = false → s.areaMoves t (t.tensor tb.toNat) ob 8 = false →
    s.homeArea t (t.tensor ta.toNat) cl oa (n * size) = some base → (s.cluster cl).meetsZone base (n * size) = false →
    s.homeArea t (t.tensor tb.toNat) cl ob 8 = some sw → (s.cluster cl).meetsZone sw 8 = false →
    (base + n * size ≤ sw ∨ sw + 8 ≤ base) → s.writeBad (cl * 2 ^ 25 + sw % 2 ^ 25) 8 = false →
    Goes (exec (.zoneOpen d a b nslot z) s) fun u => ∃ y v,
      Stores s y (cl * 2 ^ 25 + sw % 2 ^ 25) (toBytes 8 0) ∧ OnlyZone y v cl z.toNat {
        open_ := true, zbase := .ofNat 17 (base / 256), ssize := .ofNat 13 (size / 256), nslot := .ofNat 7 n
        owner := t.id, born := s.cycle, zsw := .ofNat 25 sw } ∧ MovesOn v u 2
  ) ∧
  (
  ∀ (s : State) (d a b : Reg) (nslot : BitVec 6) (z : BitVec 3) (t : Take), s.myTake = some t → let cl := s.curCl
  let n := nslot.toNat + 1; let size := (s.reg d).toNat
  let ha := s.handle ((s.reg a).setWidth 4); let hb := s.handle ((s.reg b).setWidth 4)
  let oa := (s.reg a).toNat / 2 ^ 32; let ob := (s.reg b).toNat / 2 ^ 32
  ∀ ta tb, ha = .tensor ta → hb = .tensor tb → (s.zone cl z.toNat).open_ = false →
    oa < (t.tensor ta.toNat).size → ob < (t.tensor tb.toNat).size → oa % 256 = 0 → ob % 8 = 0 →
    size % 256 = 0 → 256 ≤ size → size ≤ 1048576 →
    s.areaMoves t (t.tensor ta.toNat) oa (n * size) = true → Goes (exec (.zoneOpen d a b nslot z) s) fun u => Stays s u
  ) ∧
  (
  ∀ (s : State) (z : BitVec 3) (a : Reg), let cl := s.curCl; let x := s.zone cl z.toNat; let n := (s.reg a).toNat
  x.open_ = true → x.owner = s.me.take → n < 2 ^ 48 → s.writeBad (x.wordKey cl) 8 = false →
  Goes (exec (.zoneArm z a) s) fun u => ∃ y v x', Stores s y (x.wordKey cl) (wordBytes (x'.word &&& ~~~(.ofNat 64 (2 ^ 59)))) ∧
    OnlyZone y v cl z.toNat x' ∧ MovesOn v u 1 ∧ { x' with zarm := x.zarm, zgot := x.zgot, word := x.word, slots := x.slots } = x ∧
    x'.zarm.toNat = n ∧ x'.armed = true ∧ x'.linkLost = x.linkLost ∧
    (x.zgot.toNat = n → x'.opened = true ∧ x'.ovr = false ∧ x'.count = 0 ∧ x'.zgot = 0 ∧ ∀ i, (x'.slot i).scnt = 0) ∧
    (n < x.zgot.toNat → x'.opened = true ∧ x'.ovr = true ∧ x'.count = x.zgot.toNat - n ∧ x'.zgot = 0 ∧ ∀ i, (x'.slot i).scnt = 0) ∧
    (x.zgot.toNat < n → x'.opened = false ∧ x'.ovr = false ∧ x'.count = n - x.zgot.toNat ∧ x'.zgot = x.zgot ∧ x'.slots = x.slots)
  )

/-- R252, R253, R254, R255, R256: ZONE.STAT reads the zone's own copy of its status word, 0 for a zone that is not open or
not the take's; ZONE.SWEEP frees the orphaned slots; ZONE.CLOSE stops the zone and completes with the zone free and 0 at its
status word (but for the reset of its owner's function, R340). A zone that is not open, or not the take's, raises ZONE-STATE. -/
def Obligations.ZoneControl : Prop :=
  ∀ (s : State) (d a : Reg) (z : BitVec 14) (n : Nat), z.toNat = n → n < 8 → let cl := s.curCl; let x := s.zone cl n
  let mine := x.open_ = true ∧ x.owner = s.me.take
  (mine → Goes (exec (.zoneStat d z) s) fun u => WritesReg s u d x.word 1) ∧
  (¬ mine → Goes (exec (.zoneStat d z) s) fun u => WritesReg s u d 0 1) ∧
  (mine → s.writeBad (x.wordKey cl) 8 = false → Goes (exec (.zoneSweep z) s) fun u => ∃ y v x',
    Stores s y (x.wordKey cl) (wordBytes (x'.word &&& ~~~(.ofNat 64 (2 ^ 59)))) ∧ OnlyZone y v cl n x' ∧ MovesOn v u 1 ∧
    (∀ i, x'.slot i = if (x.slot i).st = .orphaned then { x.slot i with st := .free } else x.slot i) ∧
    x'.opened = x.opened ∧ x'.ovr = x.ovr ∧ x'.linkLost = false ∧ x'.armed = x.armed ∧
    { x' with zgot := x.zgot, word := x.word, slots := x.slots } = x) ∧
  (mine → Goes (exec (.zoneClose z) s) fun u => ∃ y, OnlyZone s y cl n { x with closing := true } ∧
    Becomes y u cl s.curK { s.me with stall := some (.zoneClose (.ofNat 3 n)) }) ∧
  (∀ r, (x.open_ = false ∧ r = 1 ∨ x.open_ = true ∧ x.owner ≠ s.me.take ∧ r = 3) → CanTrap s 23 →
    ∀ i ∈ [Instr.zoneArm (.ofNat 3 n) a, .zoneSweep z, .zoneClose z], Goes (exec i s) fun u =>
      TakesTrap s u 23 (.ofNat 64 (16 * r + n)) 0 s.me.pc) ∧
  ∀ cl, let x := s.zone cl n
    x.open_ = true → x.closing = true → s.writeBad (x.wordKey cl) 8 = false →
    (∀ t, s.take? x.owner = some t → s.resets t.fn = false) → Goes (exec (.zoneCloseComplete cl n) s) fun u =>
      ∃ y v, Stores s y (x.wordKey cl) (toBytes 8 0) ∧ OnlyZone y v cl n {} ∧ OnlyCluster v u cl ∧
        { u.cluster cl with ctx := (v.cluster cl).ctx } = v.cluster cl ∧
        ∀ j, u.ctx cl j = if (y.ctx cl j).stall = some (.zoneClose (.ofNat 3 n))
          then { y.ctx cl j with stall := none, pc := (y.ctx cl j).pc + 4 } else y.ctx cl j

/-- R246, R247, R248: ZONE.RSV answers −4 with 16 reservations unconsumed and −3 for a package out of reach, and otherwise
stalls for the reply of the target, which grants its lowest FREE slot, or answers −1 (none) or −2 (no zone); a granted slot
enters the queue, unless its route has failed by then (R253). A target in this package is asked in this cycle, in ascending
(package, cluster) order of those that ask it.
R246, R249: ZONE.REL of a slot of an own zone frees it when it is HELD or LANDED; of a reserved slot it removes the
reservation and sends the release, which frees a slot that is HELD by that sender; of any other slot it has no effect.
(That −4 comes before −3 is the model's: log 52.) -/
def Obligations.ZoneReserve : Prop :=
  (
  ∀ (s : State) (d : Reg) (pkg : BitVec 12) (tcl : BitVec 8) (z : BitVec 3) (t : Take), s.myTake = some t →
  let q := (s.copyOf s.curCl t.id).rsvs; let me := { s.me with stall := some (.rsv d pkg tcl z) }
  let snd : Sender := ⟨s.pkgId.toNat, s.curCl, t.fn⟩; let go := exec (.zoneRsv d pkg tcl z) s
  -- a request of this cycle for the zone from a later sender
  let later (x : Turn) : Prop := ∃ o k, x = .dev (.reservationRequest tcl.toNat z.toNat o k) ∧
    (snd.pkg < o.pkg ∨ snd.pkg = o.pkg ∧ snd.cl < o.cl)
  (16 ≤ q.length → Goes go fun u => WritesReg s u d (.ofInt 64 (-4)) 2) ∧
  (q.length < 16 → pkg ≠ s.pkgId → pkg.toNat ∉ s.reach → Goes go fun u => WritesReg s u d (.ofInt 64 (-3)) 2) ∧
  (q.length < 16 → pkg = s.pkgId → Goes go fun u => ∃ y, Becomes s y s.curCl s.curK me ∧
    ∃ l r, y.agenda = l ++ r ∧ u = { y with agenda := l ++ .dev (.reservationRequest tcl.toNat z.toNat snd s.curK) :: r } ∧
      (∀ x ∈ l, ¬ later x) ∧ ∀ x, r.head? = some x → later x) ∧
  (q.length < 16 → pkg ≠ s.pkgId → pkg.toNat ∈ s.reach → Goes go fun u => ∃ y, Becomes s y s.curCl s.curK me ∧
    u = y.send pkg.toNat 0 (.rsv tcl.toNat z.toNat snd s.curK)) ∧
  (∀ cl k n, let x := s.zone cl n; let req := exec (.reservationRequest cl n snd k) s
    let reply (y : State) (code : Int) (size : Nat) := { y with agenda := y.agenda ++ [.dev (.reservationReply s.curCl k code size)] }
    (x.open_ = false ∨ x.closing = true → req = .next (reply s (-2) 0)) ∧
    (x.open_ = true → x.closing = false → (∀ i < x.nslot.toNat, (x.slot i).st ≠ .free) → req = .next (reply s (-1) 0)) ∧
    ∀ i, x.open_ = true → x.closing = false → i < x.nslot.toNat → (x.slot i).st = .free → (∀ j < i, (x.slot j).st ≠ .free) →
      Goes req fun u => ∃ y x', OnlyZone s y cl n x' ∧ u = reply y i (256 * x.ssize.toNat) ∧ { x' with slots := x.slots } = x ∧
        x'.slot i = { st := .held, spkg := s.pkgId, scl := .ofNat 8 s.curCl, sfn := .ofNat 6 t.fn } ∧ ∀ j, j ≠ i → x'.slot j = x.slot j) ∧
  ∀ cl k got size, let c := s.ctx cl k; c.stall = some (.rsv d pkg tcl z) → let e := s.copyOf cl c.take
    let code := if pkg ≠ s.pkgId ∧ pkg.toNat ∉ s.reach then -3 else got
    Goes (exec (.reservationReply cl k got size) s) fun u => ∃ y,
      OnlyCopy s y cl c.take { e with rsvs := if 0 ≤ code
        then e.rsvs ++ [{ pkg := pkg, cl := tcl, z := z, slot := .ofInt 6 code, size := size }] else e.rsvs } ∧
      (u.ctx cl k).reg d = (if d = 0 then 0 else .ofInt 64 code) ∧ (∀ r, r ≠ d → (u.ctx cl k).reg r = c.reg r) ∧
      Becomes y u cl k { c with s := (u.ctx cl k).s, stall := none, pc := c.pc + 8 }
  ) ∧ (
  ∀ (s : State) (pkg : BitVec 12) (tcl : BitVec 8) (slot : BitVec 6) (z : BitVec 3) (t : Take), s.myTake = some t →
  let cl := s.curCl; let x := s.zone cl z.toNat; let n := slot.toNat; let go := exec (.zoneRel pkg tcl slot z) s
  let own := pkg = s.pkgId ∧ tcl.toNat = cl ∧ x.open_ = true ∧ x.owner = t.id
  let hit (r : Rsv) := r.pkg = pkg ∧ r.cl = tcl ∧ r.z = z ∧ r.slot = slot
  let c := s.copyOf cl t.id; let snd : Sender := ⟨s.pkgId.toNat, cl, t.fn⟩
  (own → ((x.slot n).st = .held ∨ (x.slot n).st = .landed) → Goes go fun u => ∃ y x', OnlyZone s y cl z.toNat x' ∧
    x'.slot n = { x.slot n with st := .free } ∧ (∀ j, j ≠ n → x'.slot j = x.slot j) ∧ { x' with slots := x.slots } = x ∧ MovesOn y u 2) ∧
  (own → (x.slot n).st ≠ .held → (x.slot n).st ≠ .landed → Goes go fun u => MovesOn s u 2) ∧
  (¬ own → (∀ r ∈ c.rsvs, ¬ hit r) → Goes go fun u => MovesOn s u 2) ∧
  (∀ l r l', ¬ own → c.rsvs = l ++ r :: l' → (∀ y ∈ l, ¬ hit y) → hit r → Goes go fun u => ∃ y,
    OnlyCopy s y cl t.id { c with rsvs := l ++ l' } ∧ MovesOn
      (if pkg = s.pkgId then { y with agenda := y.agenda ++ [.dev (.releaseMessage tcl.toNat z.toNat n snd)] }
        else y.send pkg.toNat 0 (.rel tcl.toNat z.toNat n snd)) u 2) ∧
  ∀ cl' zn snd, let x := s.zone cl' zn
    let held := x.open_ = true ∧ (x.slot n).st = .held ∧ (x.slot n).spkg.toNat = snd.pkg ∧ (x.slot n).scl.toNat = snd.cl ∧
      (x.slot n).sfn.toNat = snd.fn
    (held → Goes (exec (.releaseMessage cl' zn n snd) s) fun u => ∃ x', OnlyZone s u cl' zn x' ∧
      x'.slot n = { x.slot n with st := .free } ∧ (∀ j, j ≠ n → x'.slot j = x.slot j) ∧ { x' with slots := x.slots } = x) ∧
    (¬ held → exec (.releaseMessage cl' zn n snd) s = .next s)
  )

/-- R38, R39, R250: an arrival at a slot that is HELD or FILLING by its sender is written and counted, the barrier opens when
the armed count is reached, and the sender is answered; an arrival at a zone that does not accept it is refused and writes
nothing. -/
def Obligations.Arrival : Prop :=
  ∀ (s : State) (cl n sl : Nat) (snd : Sender) (take e off : Nat) (bytes : List Byte) (last : Bool),
  snd.pkg = s.pkgId.toNat → let z := s.zone cl n; let x := z.slot sl; let b := bytes.length
  let go := exec (.landingArrival cl n sl snd take e off bytes last) s
  let answer (y : State) (r : LandResult) := { y with agenda := y.agenda ++ [.dev (.landingAck snd.cl take e r)] }
  let key := cl * 2 ^ 25 + (256 * z.zbase.toNat + sl * (256 * z.ssize.toNat) + off); let wk := z.wordKey cl
  (z.open_ = false ∨ z.closing = true ∨ z.nslot.toNat ≤ sl → go = .next (answer s .refused)) ∧
  (z.open_ = true → z.closing = false → sl < z.nslot.toNat → x.cut = false → (x.st = .held ∨ x.st = .filling) →
    x.spkg.toNat = snd.pkg → x.scl.toNat = snd.cl → x.sfn.toNat = snd.fn → s.errs = [] → (∀ c, (s.cluster c).vbfail = 0) →
    (z.armed = true → z.opened = false → b ≤ z.zarm.toNat - z.zgot.toNat) →
    Goes go fun u => ∃ y, u = answer y .done ∧ let z' := y.zone cl n
      (∀ a, (a < key ∨ key + b ≤ a) → (a < wk ∨ wk + 8 ≤ a) → y.byte a = s.byte a) ∧
      (∀ i (h : i < b), (key + i < wk ∨ wk + 8 ≤ key + i) → y.byte (key + i) = bytes[i]) ∧
      (z'.slot sl).st = (if last then .landed else .filling) ∧ (z'.slot sl).sfill = x.sfill + .ofNat 21 b ∧
      (∀ j, j ≠ sl → { z'.slot j with scnt := (z.slot j).scnt } = z.slot j) ∧
      (z.armed = true → z.opened = false → z.zgot + .ofNat 48 b = z.zarm → z'.opened = true ∧ z'.zgot = 0 ∧ z'.count = 0) ∧
      (z.armed = true → z.opened = false → z.zgot + .ofNat 48 b ≠ z.zarm → z'.opened = false ∧ z'.zgot = z.zgot + .ofNat 48 b) ∧
      (z.armed = false ∨ z.opened = true → z'.opened = z.opened ∧ z'.zgot = z.zgot + .ofNat 48 b ∧ z'.count = z.count) ∧
      { z' with slots := z.slots, zgot := z.zgot, word := z.word } = z ∧ (∀ j, j ≠ n → y.zone cl j = s.zone cl j) ∧
      ∀ c k, { y.ctx c k with mon := (s.ctx c k).mon } = s.ctx c k)

/-! ### Elements and regions -/

/-- R12 to R15, R112 to R118, R138, R143, R153: an entry that fires alone in its region takes what it reads from the
buffers. One of one played cycle gives its result to the output latch and the latch to the buffers on its links; with its
predicate true it also makes the writes and events of its opcode (`effect`), with its predicate false the latch takes the
first source word and nothing else. A DROP does no more than pop; a SEND puts its token, rewritten by R80, into its port,
behind the tokens of this cycle from lower lanes and before those from higher ones (R139). One of several cycles leaves its
result pending, and a pending result is delivered in its last cycle, or its overrun found there (R155): a declared bound, and
a timing overrun at 0.80 V or of an entry that has replayed for one, take the element trap CHAIN-OVERRUN (R156, R157), and
another timing overrun raises the pair to the next bin voltage and rolls the region back. A malformed header stops the
region, FROZEN, and its trap waits for the take's context (R103, R117, R328). -/
def Obligations.ElementFiring : Prop :=
  ∀ (s : State) (t : Take) (en : Entry) (x y : Word), let cl := s.curCl; let g := s.curRegion; let b := s.curBank
  let inp : EIn := ⟨x, y, b, g.index, g.iter.setWidth 64, g.cnt.setWidth 64, g.ioff.setWidth 64⟩
  let gives (u : State) (k : Bank) (route : BitVec 6) (v : Word) : Prop :=
    ElementGives s u cl g s.curEl k route v ∧ ∀ p, u.outPort cl p = s.outPort cl p
  (∀ p ∈ ([
    (.entryMov en, 0x01, en), (.entryPass en, 0x02, en), (.entrySel en, 0x04, en), (.entryCswp en, 0x05, en),
    (.entrySend en, 0x06, en), (.entryHdrLoad en, 0x07, { en with md := 0 }), (.entryHdrBuild en, 0x07, { en with md := 1 }),
    (.entryAdd en, 0x08, en), (.entrySub en, 0x09, en), (.entryMul en, 0x0a, en), (.entryMulh en, 0x0b, en),
    (.entryMac en, 0x0c, en), (.entryMsb en, 0x0d, en), (.entryMin en, 0x0e, en), (.entryMax en, 0x0f, en),
    (.entryAbs en, 0x10, en), (.entryNeg en, 0x11, en), (.entrySat en, 0x12, en), (.entryCmp en, 0x13, en),
    (.entryTest en, 0x14, en), (.entryMaxi en, 0x15, en), (.entryMini en, 0x16, en), (.entryAnd en, 0x18, en),
    (.entryOr en, 0x19, en), (.entryXor en, 0x1a, en), (.entryAndn en, 0x1b, en), (.entryNot en, 0x1c, en),
    (.entryExt en, 0x1d, en), (.entryIns en, 0x1e, en), (.entryShl en, 0x20, en), (.entryShr en, 0x21, en),
    (.entrySar en, 0x22, en), (.entryRot en, 0x23, en), (.entryClz en, 0x24, en), (.entryCtz en, 0x25, en),
    (.entryPopc en, 0x26, en), (.entryBrev en, 0x27, en), (.entryCvt en, 0x28, en), (.entryDec en, 0x29, en),
    (.entryEnc en, 0x2a, en), (.entryPack en, 0x2b, en), (.entryUnpk en, 0x2c, en), (.entryRnd en, 0x2d, en),
    (.entryRcp en, 0x30, en), (.entryRsq en, 0x31, en), (.entryExp2 en, 0x32, en), (.entryLog2 en, 0x33, en),
    (.entryDiv en, 0x34, en), (.entrySqrt en, 0x35, en), (.entryLut en, 0x36, en), (.entryCnt en, 0x38, en),
    (.entryHash en, 0x39, en), (.entryStat en, 0x3a, en)] : List (Instr × BitVec 6 × Entry)),
    let go := exec p.1 s; let op := p.2.1; let e := p.2.2; let o := effect op e inp; let q := b.popped e
    CanFire s t op e x y →
    (cyclesOf op e = 1 → Holds e b = true → op ≠ 0x06 → o.trap = none → o.ovr = none →
      Goes go (gives · ({ q with ol := o.res }.apply o) e.route o.res)) ∧
    (cyclesOf op e = 1 → Holds e b = false → Goes go (gives · { q with ol := x } e.route x)) ∧
    (1 < cyclesOf op e → Goes go fun u => ∃ r, gives u { q with pend := some r } 0 0 ∧
      r.result = (if Holds e b then o.res else x) ∧ r.wl = (if Holds e b then e.wl else 0) ∧ r.route = e.route ∧
      r.stamp = e.stamp ∧ r.count = .ofNat 4 (cyclesOf op e - 1) ∧ r.flag = (if Holds e b then o.flag else none) ∧
      r.ovr = if Holds e b then o.ovr.map .bound else none) ∧
    (∀ n k, cyclesOf op e = 1 → Holds e b = true → o.trap = none → o.ovr = some n → s.ctxOf cl t.id = some k →
      (s.ctx cl k).kstate ≠ .exited → Goes go fun u =>
        let v := trapWord g s.curRid s.curEl e.stamp 1 (binAt (s.pair (pairOf cl)).vnow.toNat) (e.imm.toNat / 4096) (min n 15)
        u.region cl s.curRid = { g with rstate := .frozen, arb := 0 } ∧ (∀ n, u.bank cl n = s.bank cl n) ∧
        u.ctx cl k = { s.ctx cl k with pend := (s.ctx cl k).pend ++ [⟨39, v, g.index⟩] } ∧
        u.takes = s.takes.map fun x => if x.id = t.id ∧ x.fr.odet0 = 0 ∧ x.fr.odet1 = 0
          then { x with fr := { x.fr with odet0 := v, odet1 := g.index } } else x) ∧
    (∀ code k, cyclesOf op e = 1 → Holds e b = true → o.trap = some code → s.ctxOf cl t.id = some k →
      (s.ctx cl k).kstate ≠ .exited → Goes go fun u =>
        u.region cl s.curRid = { g with rstate := .frozen, arb := 0 } ∧ (∀ n, u.bank cl n = s.bank cl n) ∧
        u.ctx cl k = { s.ctx cl k with
          pend := (s.ctx cl k).pend ++ [⟨code, trapWord g s.curRid s.curEl e.stamp 0 0 0 0, g.index⟩] } ∧
        OnlyCluster s { u with fresh := s.fresh } cl)) ∧
  (CanFire s t 0x03 en x y → Goes (exec (.entryDrop en) s) (gives · (b.popped en) 0 0)) ∧
  (∀ p, CanFire s t 0x06 en x y → Holds en b = true → t.physical cl true (en.imm.extractLsb' 0 4) = some p →
    s.canAccept cl p = true → g.wild = false → let ln := (en.imm.extractLsb' 4 4).toNat; let o := s.outPort cl p
    (∀ k ∈ o.held, k.cyc = s.cycle → k.lane ≠ some ln) →
    let higher (k : OutTok) : Bool := k.cyc == s.cycle && k.lane.any fun l => ln < l
    Goes (exec (.entrySend en) s) fun u => ∃ v, Rewrites (fmtE en) x v ∧
      ElementGives s u cl g s.curEl ({ b.popped en with ol := v }.apply (out en v)) en.route v ∧
      u.outPort cl p = { o with
        held := o.held.filter (fun k => !higher k) ++
          ⟨v, en.md == 1, some s.curRid, o.nacc - (o.held.filter higher).length, some ln, s.cycle⟩ ::
          (o.held.filter higher).map fun k => { k with elem := k.elem + 1 }
        nacc := o.nacc + 1 } ∧
      ∀ q, q ≠ p → u.outPort cl q = s.outPort cl q) ∧
  ∀ cl rid el r, let g := s.region cl rid; let b := s.bank cl (g.bankNo el); let go := exec (.pendDelivery cl rid el) s
    s.take? g.take = some t → t.active = true → t.hdr.debug = false → g.rstate = .run → InRegion g el →
    b.pend = some r → r.count.toNat ≤ 1 →
    (r.ovr = none → HasRoom s cl g el r.route → Goes go fun u =>
      ElementGives s u cl g el { (if r.wl = 0 then b else b.setLoc (r.wl.toNat % 4) r.result) with
        pend := none, ol := r.result, f := r.flag.getD b.f, xf := b.xf ||| r.xf, tokc := tokAdd b.tokc r.tokc } r.route r.result ∧
      ∀ p, u.outPort cl p = s.outPort cl p) ∧
    ∀ o, r.ovr = some o → let mv := (s.pair (pairOf cl)).vnow.toNat
      let trap : Bool := match o with | .bound _ => true | .timing => 800 ≤ mv || g.overAgain
      let len := match o with | .bound n => min n 15 | .timing => 0
      let v := trapWord g rid el r.stamp (match o with | .bound _ => 1 | .timing => 0) (binAt mv) r.bnd.toNat len
      let ix := if g.cnt.ult r.stamp then ({ g with iter := g.iter - 1 } : Region).index else g.index
      (∀ k, trap = true → s.ctxOf cl t.id = some k → (s.ctx cl k).kstate ≠ .exited → Goes go fun u =>
        u.region cl rid = { g with rstate := .frozen, arb := 0 } ∧ (∀ n, u.bank cl n = s.bank cl n) ∧
        u.ctx cl k = { s.ctx cl k with pend := (s.ctx cl k).pend ++ [⟨39, v, ix⟩] } ∧
        u.takes = (s.takes.map fun x => if x.id = t.id ∧ x.fr.odet0 = 0 ∧ x.fr.odet1 = 0
          then { x with fr := { x.fr with odet0 := v, odet1 := ix } } else x) ∧
        OnlyCluster s { u with fresh := s.fresh, takes := s.takes } cl) ∧
      (trap = false → s.lostPort cl rid = none → Goes go fun u =>
        u.region cl rid = { g with
          rstate := .replay, settleFor := true, overAgain := true, moved := false, held := false, cnt := g.rstamp, iter := g.riter } ∧
        (∀ e ∈ g.els, u.bank cl (g.bankNo e) = (s.bank cl (g.bankNo e)).restored (tget {} g.shadow e)) ∧
        u.pair (pairOf cl) = follows s (pairOf cl) { s.pair (pairOf cl) with
          hold := true, holdEnd := none
          holdV := .ofNat 10 (max (s.pair (pairOf cl)).holdV.toNat (if mv < 660 then 660 else if mv < 720 then 720 else 800)) })

/-- R80, R81, R118 to R126, R133, R135 to R137, R141: what the entries of the I and N formats give: the exact integer, wrapped
into the format, or with W (MOD bit 1) into the format of twice the width, and widened to a word; with S (MOD bit 0) saturated
at its bounds, with XF.SAT. The comparisons set F, MAXI and MINI keep a value and its index, STAT clears the counters that it
merges. (EXT of a field that lies wholly above the format is left out: log 41.) -/
def Obligations.ElementIntegers : Prop :=
  ∀ (s : State) (t : Take) (e : Entry) (x y : Word), e.fmt.toNat < 8 → Holds e s.curBank = true → let k := s.curBank
  let w := 8 * 2 ^ (e.fmt.toNat % 4); let signed := decide (e.fmt.toNat < 4)
  let sv (v : Word) : Int := (BitVec.ofNat w v.toNat).toInt
  let valW (n : Nat) (v : Word) : Int := if signed then (BitVec.ofNat n v.toNat).toInt else (v.toNat % 2 ^ n : Nat)
  let val (v : Word) : Int := valW w v
  let wrapW (n : Nat) (v : Int) : Word := if signed then (BitVec.ofInt n v).signExtend 64 else (BitVec.ofInt n v).setWidth 64
  let wrap (v : Int) : Word := wrapW w v
  let loW (n : Nat) : Int := if signed then -(2 ^ (n - 1) : Nat) else 0
  let hiW (n : Nat) : Int := if signed then (2 ^ (n - 1) : Nat) - 1 else (2 ^ n : Nat) - 1
  let clampW (n : Nat) (v : Int) : Word := wrapW n (max (loW n) (min (hiW n) v))
  let a := val x; let b := val y; let u (v : Word) : Nat := v.toNat % 2 ^ w; let n := y.toNat % 256
  let dw := if w < 64 then 2 * w else w; let own := if e.wl = 0 then (0 : Word) else k.loc (e.wl.toNat % 4)
  let gives (op : BitVec 6) (z : State) (v : Word) (xf : BitVec 4) : Prop :=
    if cyclesOf op e = 1 then z.curBank.ol = v ∧ (e.wl ≠ 0 → z.curBank.loc (e.wl.toNat % 4) = v) ∧ z.curBank.xf = k.xf ||| xf
    else ∃ r, z.curBank.pend = some r ∧ r.result = v ∧ r.wl = e.wl ∧ r.xf = xf
  let yields (p : Instr × BitVec 6 × Word) : Prop := CanFire s t p.2.1 e x y → Goes (exec p.1 s) fun z => gives p.2.1 z p.2.2 0
  let clamps (m : Nat) (p : Instr × BitVec 6 × Int) : Prop := CanFire s t p.2.1 e x y → Goes (exec p.1 s) fun z =>
    gives p.2.1 z (clampW m p.2.2) (if loW m ≤ p.2.2 ∧ p.2.2 ≤ hiW m then 0 else 4)
  (e.md = 0 → ∀ p ∈ ([
    (.entryMov e, 0x01, wrap a), (.entryPass e, 0x02, x), (.entrySel e, 0x04, if k.f then wrap a else wrap b),
    (.entryAdd e, 0x08, wrap (a + b)), (.entrySub e, 0x09, wrap (a - b)), (.entryMul e, 0x0a, wrap (a * b)),
    (.entryMulh e, 0x0b, wrap (a * b / 2 ^ w)), (.entryMac e, 0x0c, wrap (val own + a * b)), (.entryMsb e, 0x0d, wrap (val own - a * b)),
    (.entryMin e, 0x0e, wrap (min a b)), (.entryMax e, 0x0f, wrap (max a b)), (.entryAbs e, 0x10, wrap a.natAbs),
    (.entryNeg e, 0x11, wrap (-a)),
    (.entryAnd e, 0x18, wrap (val (x &&& y))), (.entryOr e, 0x19, wrap (val (x ||| y))), (.entryXor e, 0x1a, wrap (val (x ^^^ y))),
    (.entryAndn e, 0x1b, wrap (val (x &&& ~~~y))), (.entryNot e, 0x1c, wrap (val (~~~x))),
    (.entryShl e, 0x20, wrap (a * 2 ^ n)), (.entryShr e, 0x21, wrap (u x / 2 ^ n : Nat)), (.entrySar e, 0x22, wrap (sv x / 2 ^ n)),
    (.entryRot e, 0x23, wrap (u x * 2 ^ (n % w) + u x / 2 ^ (w - n % w) : Nat)),
    (.entryClz e, 0x24, wrap ((List.range w).takeWhile fun i => !x.getLsbD (w - 1 - i)).length),
    (.entryCtz e, 0x25, wrap ((List.range w).takeWhile fun i => !x.getLsbD i).length),
    (.entryPopc e, 0x26, wrap ((List.range w).filter fun i => x.getLsbD i).length),
    (.entryBrev e, 0x27, wrap (Nat.ofBits fun i : Fin w => x.getLsbD (w - 1 - i)))] : List (Instr × BitVec 6 × Word)), yields p) ∧
  (e.md = 1 → ∀ p ∈ ([
    (.entryAdd e, 0x08, a + b), (.entrySub e, 0x09, a - b), (.entryMul e, 0x0a, a * b), (.entryMac e, 0x0c, val own + a * b),
    (.entryMsb e, 0x0d, val own - a * b), (.entryAbs e, 0x10, (a.natAbs : Int)), (.entryNeg e, 0x11, -a),
    (.entryShl e, 0x20, a * 2 ^ n)] : List (Instr × BitVec 6 × Int)), clamps w p) ∧
  (e.md = 0 → clamps w (.entrySat e, 0x12, x.toInt)) ∧
  (e.md = 2 → ∀ p ∈ ([(.entryMul e, 0x0a, wrapW dw (a * b)), (.entryMac e, 0x0c, wrapW dw (valW dw own + a * b)),
    (.entryMsb e, 0x0d, wrapW dw (valW dw own - a * b))] : List (Instr × BitVec 6 × Word)), yields p) ∧
  (e.md = 3 → ∀ p ∈ ([(.entryMul e, 0x0a, a * b), (.entryMac e, 0x0c, valW dw own + a * b),
    (.entryMsb e, 0x0d, valW dw own - a * b)] : List (Instr × BitVec 6 × Int)), clamps dw p) ∧
  (CanFire s t 0x05 e x y → Goes (exec (.entryCswp e) s) fun z => z.curBank.ol = wrap (min a b) ∧
    (e.wl ≠ 0 → z.curBank.loc (e.wl.toNat % 4) = wrap (max a b))) ∧
  (CanFire s t 0x14 e x y → Goes (exec (.entryTest e) s) fun z => gives 0x14 z (wrap (val (x &&& y))) 0 ∧
    z.curBank.f = decide (u (x &&& y) ≠ 0)) ∧
  (∀ c ∈ [decide (a = b), decide (a ≠ b), decide (a < b), decide (a ≤ b), decide (b < a), decide (b ≤ a), false, true].zipIdx,
    e.md = .ofNat 4 c.2 → CanFire s t 0x13 e x y → Goes (exec (.entryCmp e) s) fun z =>
      gives 0x13 z (if c.1 then 1 else 0) 0 ∧ z.curBank.f = c.1) ∧
  (∀ mx : Bool, let i : Instr := if mx then .entryMaxi e else .entryMini e; let h := e.wl.toNat % 4; let h' := Nat.xor h 1
    let best := if e.wl = 0 then (if mx then loW w else hiW w) else val own
    let win := if mx then decide (best < a) else decide (a < best)
    CanFire s t (if mx then 0x15 else 0x16) e x y → Goes (exec i s) fun z =>
      z.curBank.f = win ∧ z.curBank.ol = (if win = true ∨ e.wl = 0 then y else k.loc h') ∧
      ∀ j < 4, z.curBank.loc j = if win = true ∧ e.wl ≠ 0 then (if j = h then wrap a else if j = h' then y else k.loc j) else k.loc j) ∧
  (let pos := y.toNat % 64; let len := min (y.toNat / 64 % 64 + 1) (w - pos); pos < w →
    yields (.entryExt e, 0x1d, let v := BitVec.ofNat len (u x / 2 ^ pos); if signed then v.signExtend 64 else v.setWidth 64) ∧
    yields (.entryIns e, 0x1e, wrap (Nat.ofBits fun i : Fin w =>
      if pos ≤ i.val ∧ i.val < pos + len then x.getLsbD (i.val - pos) else own.getLsbD i.val))) ∧
  (∀ b0, b0 = b → e.md.getLsbD 3 = false → CanFire s t 0x34 e x y → Goes (exec (.entryDiv e) s) fun z =>
    (b0 = 0 → gives 0x34 z (wrap (if a < 0 then loW w else hiW w)) 8) ∧
    (b0 ≠ 0 → e.md.getLsbD 0 = false → gives 0x34 z (wrap (a.tdiv b0)) 0) ∧
    (b0 ≠ 0 → e.md.getLsbD 0 = true → gives 0x34 z (clampW w (a.tdiv b0)) (if a.tdiv b0 ≤ hiW w then 0 else 4))) ∧
  (let h := (k.loc (x.toNat % 16 / 4)).toNat / 2 ^ (16 * (x.toNat % 4)) % 2 ^ 16;
    yields (.entryLut e, 0x36, wrap (if signed then (BitVec.ofNat 16 h).toInt else h))) ∧
  (∀ c ∈ [s.curRegion.index, s.curRegion.iter.setWidth 64, s.curRegion.cnt.setWidth 64, s.curRegion.ioff.setWidth 64].zipIdx,
    e.md = .ofNat 4 c.2 → yields (.entryCnt e, 0x38, wrap (val (c.1 + x)))) ∧
  (let z1 : Word := x + y * 0x9E3779B97F4A7C15; let z2 : Word := (z1 ^^^ z1 >>> 30) * 0xBF58476D1CE4E5B9
    let z3 : Word := (z2 ^^^ z2 >>> 27) * 0x94D049BB133111EB; let z4 := z3 ^^^ z3 >>> 31
    (e.fmt = 7 → yields (.entryHash e, 0x39, z4)) ∧ (e.fmt = 6 → yields (.entryHash e, 0x39, z4 >>> 32))) ∧
  (e.fmt = 7 → CanFire s t 0x3a e x y → Goes (exec (.entryStat e) s) fun z => z.curBank.tokc = 0 ∧ z.curBank.xf = k.xf ∧
    ∀ i < 4, let field (v : Word) : Nat := v.toNat / 2 ^ (16 * i) % 2 ^ 16
      field z.curBank.ol = min 0xFFFF (field x + field y + field k.tokc)) ∧
  (let bad (h : Word) : Bool := h.toNat % 2 ^ 14 != 0 || (h.toNat / 2 ^ 15 % 16 == 15 && 6 ≤ h.toNat / 2 ^ 19 % 8) ||
      (h.toNat / 2 ^ 15 % 16 != 15 && h.toNat / 2 ^ 19 % 8 != 0) || (!h.getLsbD 14 && h.toNat / 2 ^ 40 % 256 != 0)
    let h : Word := .ofNat 64 (y.toNat % 2 ^ 16 * 2 ^ 48 + x.toNat / 2 ^ 14 % 2 ^ 34 * 2 ^ 14)
    (e.fmt = 7 → e.md = 0 → bad x = false → CanFire s t 0x07 e x y → Goes (exec (.entryHdrLoad e) s) fun z =>
      gives 0x07 z x 0 ∧ z.curBank.dhdr = x ∧ z.curBank.dv = true) ∧
    (e.fmt = 7 → e.md = 1 → bad h = false → CanFire s t 0x07 e x y → Goes (exec (.entryHdrBuild e) s) fun z =>
      gives 0x07 z h 0 ∧ z.curBank.dhdr = k.dhdr ∧ z.curBank.dv = k.dv))

/-- R81 to R84, R86, R90, R91, R95, R97, R98: the number formats. A code of a format stands for the number that the rules give
it, or for an infinity, a NaN or NaR; an exact number that is not 0 is encoded by one rounding in the mode, with the events and
the bound that the format has; zeros, infinities and NaNs encode as the table of R95 says. For LG6, whose nominal magnitudes
are irrational, this says that the decoded value of a code encodes back to it. -/
def Obligations.NumberFormats : Prop :=
  (∀ f ∈ [f16, bf16, f32, f64, e4m3, e5m2, e3m2, e2m3, e2m1, .lg6, t8, t16, t32] ++
      [8, 16, 32, 64].flatMap fun w => [.int true w, .int false w], ∀ c < 2 ^ f.width, let v := decodeVal f c
    let neg := c.testBit (f.width - 1)
    match f.num c with
    | some q => v.exact = true ∧ v.num = q ∧ (f.isTap = false → f.isInt = false → f ≠ .lg6 ∨ q ≠ 0 → v.neg? = neg)
    | none => match f with
      | .ieee _ _ fb => v = if c % 2 ^ fb = 0 then .inf neg else .nan (!c.testBit (fb - 1)) neg
      | .mx _ 4 _ _ => v = .nan false neg
      | .mx _ _ _ _ => v = if c % 128 = 0x7C then .inf neg else .nan false neg
      | _ => v = .nar) ∧
  (∀ f ∈ [f16, bf16, f32, f64, e4m3, e5m2, e3m2, e2m3, e2m1, t8, t16, t32] ++
      [8, 16, 32, 64].flatMap fun w => [.int true w, .int false w], ∀ rm s neg m e, let v := Val.fin neg m e false
    (m ≠ 0 → f.Encodes rm s neg ((m : ℝ) * (2 : ℝ) ^ (e : Int)) (encodeVal f rm s v)) ∧
    (m = 0 → encodeVal f rm s v = { code := match f with
      | .ieee w _ _ | .mx w _ _ _ => if neg then 2 ^ (w - 1) else 0
      | _ => 0 })) ∧
  (∀ rm s n, let enc (f : Fmt) (v : Val) := encodeVal f rm s v
    (∀ v ∈ [.nan false n, .nan true n, .nar], [f16, bf16, f32, f64, e4m3, e5m2, t8, t16, t32].map (enc · v) =
      [0x7E00, 0x7FC0, 0x7FC00000, 0x7FF8000000000000, 0x7F, 0x7E, 2 ^ 7, 2 ^ 15, 2 ^ 31].map ({ code := · }) ∧
      [e3m2, e2m3, e2m1, .lg6, .int true 8, .int true 16, .int true 32, .int true 64].map (enc · v) =
        [31, 31, 7, 31, 2 ^ 7, 2 ^ 15, 2 ^ 31, 2 ^ 63].map ({ code := ·, inv := true }) ∧
      ∀ w ∈ [8, 16, 32, 64], enc (.int false w) v = { code := 0, inv := true }) ∧
    [f16, bf16, f32, f64, e4m3, e5m2].map (enc · (.inf n)) =
      ([(16, 0x7C00), (16, 0x7F80), (32, 0x7F800000), (64, 0x7FF0000000000000), (8, 0x7F), (8, 0x7C)] : List (Nat × Nat)).map
        (fun x => { code := (if n then 2 ^ (x.1 - 1) else 0) + x.2 }) ∧
    [t8, t16, t32].map (enc · (.inf n)) = [2 ^ 7, 2 ^ 15, 2 ^ 31].map ({ code := · }) ∧
    [e3m2, e2m3, e2m1, .lg6].map (enc · (.inf n)) =
      ([(32, 31), (32, 31), (8, 7), (32, 31)] : List (Nat × Nat)).map (fun x => { code := (if n then x.1 else 0) + x.2, sat := true }) ∧
    ∀ w ∈ [8, 16, 32, 64], enc (.int true w) (.inf n) = { code := if n then 2 ^ (w - 1) else 2 ^ (w - 1) - 1, sat := true } ∧
      enc (.int false w) (.inf n) = { code := if n then 0 else 2 ^ w - 1, sat := true }) ∧
  ∀ rm s, ∀ c < 64, encodeVal .lg6 rm s (decodeVal .lg6 c) = { code := if c % 32 = 0 then 0 else c }

/-- R80, R83, R92, R93, R118 to R124, R127 to R131: what the entries of the F, T and NARROW formats give, over the numbers and
codes of `NumberFormats`: the exact sum, product or accumulation, encoded once in the mode of MOD, with W into the wider format;
comparisons by the order of R93; conversions with their scales, events and bounds; the slots of packed tokens. Every result
goes to the output latch and to L[WL], with its bits of XF and its counts in TOKC. -/
def Obligations.ElementArithmetic : Prop :=
  ∀ (s : State) (t : Take) (e : Entry) (x y : Word), Holds e s.curBank = true → let k := s.curBank
  let f := fmtE e; let w := f.width; let cx := x.toNat % 2 ^ w; let cy := y.toNat % 2 ^ w; let a := decodeVal f cx; let b := decodeVal f cy
  let ft := 8 ≤ e.fmt.toNat ∧ e.fmt.toNat ≤ 14; let own := if e.wl = 0 then (0 : Word) else k.loc (e.wl.toNat % 4)
  let mode (n : Nat) : Rm := if n % 4 = 0 then .rne else if n % 4 = 1 then .rtz else if n % 4 = 2 then .rup else .rdn
  let rm := mode e.md.toNat; let sm := e.md.getLsbD 3
  let field (i : Nat) (v : Word) : Nat := v.toNat / 2 ^ (16 * i) % 2 ^ 16
  let gives (op : BitVec 6) (z : State) (g : Fmt) (c : Enc) (nar bd : Bool) : Prop :=
    ∃ r : Word, r.toNat % 2 ^ g.width = c.code ∧ Rewrites g r r ∧
    let xf : BitVec 4 := .ofNat 4 (8 * c.inv.toNat + 4 * (c.sat || c.clamp).toNat + 2 * nar.toNat + bd.toNat)
    let tk : BitVec 4 := .ofNat 4 (8 * c.sat.toNat + 4 * nar.toNat + 2 * c.clamp.toNat + bd.toNat)
    if cyclesOf op e = 1 then z.curBank.ol = r ∧ (e.wl ≠ 0 → z.curBank.loc (e.wl.toNat % 4) = r) ∧ z.curBank.xf = k.xf ||| xf ∧
      ∀ i < 4, field i z.curBank.tokc = min 0xFFFF (field i k.tokc + (tk.getLsbD i).toNat)
    else ∃ p, z.curBank.pend = some p ∧ p.result = r ∧ p.wl = e.wl ∧ p.xf = xf ∧ p.tokc = tk
  let enc (g : Fmt) (m : Rm) (sat : Bool) (v : Val) (inv : Bool) : Enc :=
    let c := encodeVal g m sat v; { c with inv := c.inv || inv && f.isIeee }
  let code (c : Nat) (inv : Bool) : Enc := { code := c, inv := inv }
  let nanE (inv : Bool) : Enc := enc f .rne false (.nan false false) inv
  let clash (a b : Val) : Bool := a.isSnan || b.isSnan || (a.isInf && b.isInf && a.neg? != b.neg?)
  let zeroInf (a b : Val) : Bool := (a.isInf && b.isZero) || (a.isZero && b.isInf)
  let does (i : Instr) (op : BitVec 6) (P : State → Prop) : Prop := CanFire s t op e x y → Goes (exec i s) P
  -- moves
  (ft → does (.entryMov e) 0x01 (gives 0x01 · f (code cx false) false false) ∧ does (.entryPass e) 0x02 (·.curBank.ol = x) ∧
    does (.entrySel e) 0x04 (gives 0x04 · f (code (if k.f then cx else cy) false) false false) ∧
    does (.entryCswp e) 0x05 fun z => ∃ (p : Bool) (lo hi : Word), z.curBank.ol = lo ∧ (e.wl ≠ 0 → z.curBank.loc (e.wl.toNat % 4) = hi) ∧
      Rewrites f (if p then y else x) lo ∧ Rewrites f (if p then x else y) hi ∧
      (p = true ↔ if f.isTap then f.less cy cx else b.isNan = false ∧ (a.isNan = true ∨ b.less a ∨
        a.isZero = true ∧ b.isZero = true ∧ b.neg? = true ∧ a.neg? = false))) ∧
  -- arithmetic
  (ft → does (.entryAdd e) 0x08 (fun z => ∃ v, Adds rm a b v ∧ gives 0x08 z f (enc f rm sm v (clash a b)) false false) ∧
    does (.entrySub e) 0x09 (fun z => ∃ v, Adds rm a (negVal b) v ∧ gives 0x09 z f (enc f rm sm v (clash a (negVal b))) false false) ∧
    let g := if e.md.getLsbD 2 then widened f else f; let c := decodeVal g (own.toNat % 2 ^ g.width)
    does (.entryMul e) 0x0a (fun z => ∃ v, Multiplies a b v ∧
      gives 0x0a z g (enc g rm sm v (a.isSnan || b.isSnan || zeroInf a b)) false false) ∧
    ∀ q ∈ ([(.entryMac e, 0x0c, id), (.entryMsb e, 0x0d, negVal)] : List (Instr × BitVec 6 × (Val → Val))),
      does q.1 q.2.1 fun z => ∃ p v, Multiplies a b p ∧ Adds rm c (q.2.2 p) v ∧
        gives q.2.1 z g (enc g rm sm v (a.isSnan || b.isSnan || c.isSnan || zeroInf a b || (!p.isNan && clash c (q.2.2 p)))) false false) ∧
  -- shaping
  (ft → f.isIeee = true →
    does (.entryAbs e) 0x10 (gives 0x10 · f (if a.isNan then nanE a.isSnan else code (cx % 2 ^ (w - 1)) false) false false) ∧
    does (.entryNeg e) 0x11 (gives 0x11 · f (if a.isNan then nanE a.isSnan else code ((cx + 2 ^ (w - 1)) % 2 ^ w) false) false false) ∧
    does (.entrySat e) 0x12 (gives 0x12 · f (if a.isNan then nanE a.isSnan
      else if a.isInf then { code := cx - 1, sat := true } else code cx false) false false) ∧
    ∀ mx : Bool, does (if mx then .entryMax e else .entryMin e) (if mx then 0x0f else 0x0e) fun z => ∃ p : Bool,
      gives (if mx then 0x0f else 0x0e) z f (if a.isNan && b.isNan then nanE (a.isSnan || b.isSnan)
        else code (if a.isNan then cy else if b.isNan then cx else if p == mx then cy else cx) (a.isSnan || b.isSnan)) false false ∧
      (a.isNan = false → b.isNan = false → cx ≠ cy → (p = true ↔ a.less b ∨ a.isZero = true ∧ b.isZero = true ∧ a.neg? = true))) ∧
  (ft → f.isTap = true → let v (c : Nat) : Int := (BitVec.ofNat w c).toInt
    (∀ q ∈ ([(.entryAbs e, 0x10, (if v cx < 0 then (2 ^ w - cx) % 2 ^ w else cx)), (.entryNeg e, 0x11, (2 ^ w - cx) % 2 ^ w),
      (.entrySat e, 0x12, cx), (.entryMin e, 0x0e, if v cx ≤ v cy then cx else cy),
      (.entryMax e, 0x0f, if v cx ≤ v cy then cy else cx)] : List (Instr × BitVec 6 × Nat)),
      does q.1 q.2.1 (gives q.2.1 · f (code q.2.2 false) false false))) ∧
  -- comparisons and running extremes
  (ft → let sig := f.isIeee && (a.isSnan || b.isSnan); let some' := a.isNan || b.isNan
    ∀ md < 8, e.md = .ofNat 4 md → does (.entryCmp e) 0x13 fun z => ∃ c : Bool,
      z.curBank.f = c ∧ z.curBank.ol = (if c then 1 else 0) ∧ z.curBank.xf = k.xf ||| (if sig then 8 else 0) ∧
      let lt := f.less cx cy; let gt := f.less cy cx; let eq := ¬lt ∧ ¬gt ∧ (f.isIeee = true → some' = false)
      (md = 0 → (c = true ↔ eq)) ∧ (md = 1 → (c = true ↔ ¬eq)) ∧ (md = 2 → (c = true ↔ lt)) ∧ (md = 3 → (c = true ↔ lt ∨ eq)) ∧
      (md = 4 → (c = true ↔ gt)) ∧ (md = 5 → (c = true ↔ gt ∨ eq)) ∧ (md = 6 → c = some') ∧ (md = 7 → c = !some')) ∧
  (ft → ∀ mx : Bool, let h := e.wl.toNat % 4; let h' := Nat.xor h 1
    let first := match f with
      | .ieee w eb fb => (if mx then 2 ^ (w - 1) else 0) + (2 ^ eb - 1) * 2 ^ fb
      | _ => if mx then 2 ^ (w - 1) else 2 ^ (w - 1) - 1
    let best := if e.wl = 0 then first else own.toNat % 2 ^ w
    does (if mx then .entryMaxi e else .entryMini e) (if mx then 0x15 else 0x16) fun z => ∃ (win : Bool) (r : Word),
      (win = true ↔ if mx then f.less best cx else f.less cx best) ∧ z.curBank.f = win ∧ Rewrites f x r ∧
      z.curBank.ol = (if win = true ∨ e.wl = 0 then y else k.loc h') ∧
      ∀ j < 4, z.curBank.loc j = if win = true ∧ e.wl ≠ 0 then (if j = h then r else if j = h' then y else k.loc j) else k.loc j) ∧
  -- rounding and conversions
  (ft → does (.entryRnd e) 0x2d fun z => ∃ v, (a.exact = false → v = a) ∧
    (a.exact = true → ∃ i, Rounds rm a.neg? (fun i => (i : ℚ)) (between fun i => (i : ℚ)) (|a.num| : ℚ) i ∧ v.exact = true ∧
      v.neg? = a.neg? ∧ |v.num| = i) ∧ gives 0x2d z f (enc f .rne false v a.isSnan) false false) ∧
  (let h := k.dhdr.toNat; let hf := h / 2 ^ 15 % 16; let hs := h / 2 ^ 19 % 8; let scv := k.dhdr.getLsbD 14; let scx := h / 2 ^ 40 % 256
    let bnd := e.imm.toNat / 4096
    (let g := fmtOf (.ofNat 4 (e.imm.toNat % 16)) (.ofNat 3 (e.imm.toNat / 16 % 8)); let c := x.toNat % 2 ^ g.width; let a := decodeVal g c
      let scaled := e.imm.toNat % 16 = 15 ∧ k.dv = true ∧ hf = 15 ∧ hs = e.imm.toNat / 16 % 8 ∧ scv = true
      let m := e.imm.toNat / 128 % 8; let rm := if m = 4 then .sr (y.toNat % 2 ^ 32) else mode m
      m ≤ 4 → (sm = true → regimeRun g c ≤ bnd) → does (.entryCvt e) 0x28 fun z => ∃ v, (if scaled then Scaled a v scx else v = a) ∧
        let d := encodeVal f rm false v
        gives 0x28 z f { d with inv := d.inv || a.isSnan } v.isNan (sm && regimeRun g c == bnd)) ∧
    (let hd := e.fmt = 15 ∧ k.dv = true; let g := if hd then fmtOf (.ofNat 4 hf) (.ofNat 3 hs) else f
      let c := x.toNat % 2 ^ g.width; let a := decodeVal g c; let eb := sm && e.fmt != 15
      let d := if g = t32 ∨ g = f32 ∨ g = f64 ∨ g = .int true 32 ∨ g = .int true 64 ∨ g = .int false 32 ∨ g = .int false 64 then f64 else f32
      12 ≤ e.fmt.toNat → (eb = true → regimeRun g c ≤ bnd) → does (.entryDec e) 0x29 fun z => ∃ v,
        (if hd ∧ scv = true then Scaled a v scx else v = a) ∧ let c' := encodeVal d .rne false v
        gives 0x29 z d { c' with inv := c'.inv || a.isSnan } v.isNan (eb && regimeRun g c == bnd)) ∧
    (let g := if f = t32 then f64 else f32; let a := decodeVal g (x.toNat % 2 ^ g.width); let d := encodeVal f (if e.fmt = 15 then .rne else rm) false a
      12 ≤ e.fmt.toNat → does (.entryEnc e) 0x2a (gives 0x2a · f { d with inv := d.inv || a.isSnan } a.isNan false)) ∧
    (let slots (g : Fmt) : Nat := if g.width = 6 then 10 else 64 / g.width; let j := y.toNat % 32
      let g := if k.dv then fmtOf (.ofNat 4 hf) (.ofNat 3 hs) else f
      e.fmt = 15 →
        does (.entryPack e) 0x2b (fun z => (e.wl ≠ 0 → z.curBank.loc (e.wl.toNat % 4) = z.curBank.ol) ∧ ∀ i < 64, z.curBank.ol.getLsbD i =
          if j < slots f ∧ w * j ≤ i ∧ i < w * j + w then x.getLsbD (i - w * j) else own.getLsbD i) ∧
        does (.entryUnpk e) 0x2c fun z => (e.wl ≠ 0 → z.curBank.loc (e.wl.toNat % 4) = z.curBank.ol) ∧
          z.curBank.ol = if j < slots g then .ofNat 64 (x.toNat / 2 ^ (g.width * j) % 2 ^ g.width) else 0))

/-- R92, R132, R134: RCP, RSQ, SQRT, DIV, EXP2 and LOG2 of the F and T formats: the exact result encoded once in the mode of MOD,
and the special cases of the two tables with their flags. With EB set, an entry whose significand has more groups of four bits
than its bound leaves an overrun with its pending result. Of EXP2 and LOG2 the special cases and the results that are exact are
said. (A NaR dividend over 0 is left out: log 42.) -/
def Obligations.ElementRoots : Prop :=
  ∀ (s : State) (t : Take) (e : Entry) (x y : Word), Holds e s.curBank = true → 8 ≤ e.fmt.toNat → e.fmt.toNat ≤ 14 →
  (e.md.getLsbD 3 = true → 4096 ≤ e.imm.toNat) →
  let f := fmtE e; let w := f.width; let cx := x.toNat % 2 ^ w; let cy := y.toNat % 2 ^ w; let a := decodeVal f cx; let b := decodeVal f cy
  let n := e.md.toNat % 4; let rm : Rm := if n = 0 then .rne else if n = 1 then .rtz else if n = 2 then .rup else .rdn
  -- the entry leaves the word of a code, with these events, pending
  let gives (c : Enc) (z : State) : Prop := ∃ (p : PendRes) (r : Word), z.curBank.pend = some p ∧ p.result = r ∧ p.wl = e.wl ∧
    r.toNat % 2 ^ w = c.code ∧ Rewrites f r r ∧
    p.xf.getLsbD 3 = c.inv ∧ p.xf.getLsbD 2 = (c.sat || c.clamp) ∧ p.xf.getLsbD 1 = false ∧
    p.tokc.getLsbD 3 = c.sat ∧ p.tokc.getLsbD 2 = false ∧ p.tokc.getLsbD 1 = c.clamp
  let exact (neg : Bool) (q : ℝ) (z : State) : Prop := ∃ c, f.Encodes rm false neg q c ∧ gives c z
  let val (v : Val) (inv : Bool) (z : State) : Prop := gives { encodeVal f rm false v with inv := inv } z
  let nan : Val := .nan false false
  let does (i : Instr) (op : BitVec 6) (P : State → Prop) : Prop := CanFire s t op e x y → Goes (exec i s) P
  let ar : ℝ := (a.num : ℚ); let br : ℝ := (b.num : ℚ)
  -- a NaN or NaR source
  (a.isNan = true → ∀ p ∈ ([(.entryRcp e, 0x30), (.entryRsq e, 0x31), (.entryExp2 e, 0x32), (.entryLog2 e, 0x33),
    (.entrySqrt e, 0x35)] : List (Instr × BitVec 6)), does p.1 p.2 (val nan a.isSnan)) ∧
  -- RCP
  (∀ q, does (.entryRcp e) 0x30 fun z => (a = .inf q → val (.fin q 0 0 false) false z) ∧
    (a.isZero = true → a.neg? = q → f.isTap = false → val (.inf q) false z) ∧ (a.isZero = true → f.isTap = true → val .nar true z) ∧
    (a.exact = true → a.num ≠ 0 → a.neg? = q → exact q (1 / |ar|) z)) ∧
  -- RSQ and SQRT
  (does (.entryRsq e) 0x31 fun z => (a = .inf false → val .zero false z) ∧ (a = .inf true → val nan true z) ∧
    (a.isZero = true → f.isTap = false → val (.inf a.neg?) false z) ∧ (a.isZero = true → f.isTap = true → val .nar true z) ∧
    (a.exact = true → a.num < 0 → val nan true z) ∧ (a.exact = true → 0 < a.num → exact false (1 / √ar) z)) ∧
  (does (.entrySqrt e) 0x35 fun z => (a = .inf false → val (.inf false) false z) ∧ (a = .inf true → val nan true z) ∧
    (a.isZero = true → val a false z) ∧ (a.exact = true → a.num < 0 → val nan true z) ∧
    (a.exact = true → 0 < a.num → exact false (√ar) z)) ∧
  -- DIV
  (does (.entryDiv e) 0x34 fun z => let q := a.neg? != b.neg?
    (a = .nar → b.isZero = false → val .nar false z) ∧ (b = .nar → val .nar false z) ∧
    (a ≠ .nar → b ≠ .nar → a.isNan = true ∨ b.isNan = true → val nan (a.isSnan || b.isSnan) z) ∧
    (a.isInf = true → b.isInf = true → val nan true z) ∧ (a.isInf = true → b.exact = true → val (.inf q) false z) ∧
    (a.exact = true → b.isInf = true → val (.fin q 0 0 false) false z) ∧
    (a.isZero = true → b.isZero = true → val nan true z) ∧ (a.isZero = true → b.exact = true → b.num ≠ 0 → val (.fin q 0 0 false) false z) ∧
    (a.exact = true → a.num ≠ 0 → b.isZero = true → if f.isTap then val nan true z else val (.inf q) false z) ∧
    (a.exact = true → a.num ≠ 0 → b.exact = true → b.num ≠ 0 → exact q (|ar| / |br|) z)) ∧
  -- EXP2 and LOG2
  (∀ i : Int, does (.entryExp2 e) 0x32 fun z => (a = .inf true → val .zero false z) ∧ (a = .inf false → val (.inf false) false z) ∧
    (a.exact = true → a.num = i → |i| ≤ 4096 → exact false ((2 : ℝ) ^ i) z) ∧ (a.exact = true → f.isTap = true → ∀ r, z.curBank.pend = some r →
      r.result.toNat % 2 ^ w ≠ 0 ∧ r.result.toNat % 2 ^ w ≠ 2 ^ (w - 1))) ∧
  (∀ i : Int, does (.entryLog2 e) 0x33 fun z => (a = .inf false → val (.inf false) false z) ∧ (a = .inf true → val nan true z) ∧
    (a.isZero = true → if f.isTap then val .nar true z else val (.inf true) false z) ∧ (a.exact = true → a.num < 0 → val nan true z) ∧
    (a.exact = true → a.num = 1 → val .zero false z) ∧
    (a.exact = true → a.num = (2 : ℚ) ^ i → i ≠ 0 → exact (decide (i < 0)) |(i : ℝ)| z)) ∧
  -- the length (R134): groups of four of the result's significand bits
  (∀ p ∈ ([(.entryRcp e, 0x30), (.entryRsq e, 0x31), (.entryDiv e, 0x34), (.entrySqrt e, 0x35)] : List (Instr × BitVec 6)),
    does p.1 p.2 fun z => ∀ r, z.curBank.pend = some r → let v := decodeVal f (r.result.toNat % 2 ^ w); let bnd := e.imm.toNat / 4096
      ∀ len, (v.exact = false ∨ v.num = 0 → len = 1) →
        (∀ (m : Nat) (i : Int), v.exact = true → |v.num| = (m : ℚ) * (2 : ℚ) ^ i → m % 2 = 1 → len = (Nat.log2 m + 1 + 3) / 4) →
        r.xf.getLsbD 0 = (e.md.getLsbD 3 && len == bnd) ∧ r.tokc.getLsbD 0 = r.xf.getLsbD 0 ∧
        r.ovr = if e.md.getLsbD 3 = true ∧ bnd < len then some (.bound len) else none)

/-- R20, R146, R153, R157, R331, R334, R335: a played cycle of a region in DELAY counts SOFF down and the last one brings it
to RUN; one in RUN advances CNT, and ITER at the end of the initiation interval, unless an entry with H holds the region; at
a restart point it saves the checkpoint first and its tokens become committable. A held start token is delivered when the
rail has settled at the floor, and a region in REPLAY goes on in RUN when the rail has settled at the raised voltage (log 25).
A firing
entry whose bank has an uncorrectable error raises the error interrupt, and the region rolls back to its restart point for cause
DATA (R331, R335). -/
def Obligations.PlayedCycles : Prop :=
  ∀ (s : State) (cl rid : Nat) (t : Take), let g := s.region cl rid; let go := exec (.playedCycle cl rid) s
  s.take? g.take = some t → t.active = true →
  let next (k : Region) : Region := { k with
    fresh := false, moved := true, held := false, cnt := if k.cnt.toNat + 1 = k.ii.toNat then 0 else k.cnt + 1
    iter := if k.cnt.toNat + 1 = k.ii.toNat then k.iter + 1 else k.iter }
  let plays := s.played g = true ∧ g.suspended = false
  (plays → g.rstate = .delay → 1 < g.soffLeft.toNat → Goes go fun u =>
    OnlyRegion s u cl rid { g with soffLeft := g.soffLeft - 1 }) ∧
  (s.played g = true → g.rstate = .delay → g.soffLeft.toNat ≤ 1 →
    (g.suspended = false → Goes go fun u => OnlyRegion s u cl rid { g with rstate := .run, soffLeft := 0, fresh := true }) ∧
    Goes (exec (.delayEnd cl rid) s) fun u => OnlyRegion s u cl rid { g with rstate := .run, soffLeft := 0, fresh := true }) ∧
  (plays → g.rstate = .run → g.atRestart = false →
    (badFiring (s.firings cl g) = false → (∃ f ∈ s.firings cl g, s.holds cl t (s.firings cl g) f = true) → Goes go fun u =>
      OnlyRegion s u cl rid { g with fresh := false, moved := false, held := true }) ∧
    (badFiring (s.firings cl g) = false → (∀ f ∈ s.firings cl g, s.holds cl t (s.firings cl g) f = false) → (∀ el ∈ g.els, (s.bank cl (g.bankNo el)).pend = none) →
      Goes go fun u => ∃ s1 y ok, OnlyRegion s s1 cl rid { g with fresh := false, moved := false, held := false } ∧
        s1.playWith cl rid t (s.firings cl g) [] = (y, ok) ∧ (ok = true → OnlyRegion y u cl rid (next (y.region cl rid))) ∧
        (ok = false → u = y)) ∧
    (s.firings cl g = [] → g.x0 + g.w ≤ 4 → (∀ el ∈ g.els, ∀ p, (s.bank cl (g.bankNo el)).pend = some p → 1 < p.count.toNat) →
      Goes go fun u => u.region cl rid = next g ∧ (∀ j, j ≠ rid → u.region cl j = s.region cl j) ∧
        (∀ n, u.bank cl n = if n ∈ g.els.map g.bankNo
          then { s.bank cl n with pend := (s.bank cl n).pend.map fun p => { p with count := p.count - 1 } } else s.bank cl n) ∧
        { u.cluster cl with regions := (s.cluster cl).regions, banks := (s.cluster cl).banks } = s.cluster cl ∧
        OnlyCluster s { u with fresh := s.fresh } cl)) ∧
  (plays → g.rstate = .run → g.atRestart = false → (∃ f ∈ s.firings cl g, f.bank.bad = true) → g.lostOnce = false →
    s.lostPort cl rid = none → Goes go fun u =>
    u.region cl rid = { g with rstate := if g.settleFor then .replay else .run, lostOnce := true, fresh := false, moved := false
                               held := false, cnt := g.rstamp, iter := g.riter } ∧
    (∀ el ∈ g.els, u.bank cl (g.bankNo el) = (s.bank cl (g.bankNo el)).restored (tget {} g.shadow el)) ∧
    ∃ l, u.outbox = s.outbox ++ .errorIrq (dieOf cl) :: l) ∧
  (plays → g.rstate = .run → g.atRestart = true → (∃ f ∈ s.firings cl g, f.bank.bad = true) → Goes go fun u =>
    u.region cl rid = { g with rstate := if g.settleFor then .replay else .run, lostOnce := true, fresh := false, moved := false
                               held := false, overAgain := false, rstamp := g.cnt, riter := g.iter
                               shadow := (u.region cl rid).shadow } ∧
    (∀ el ∈ g.els, tget {} (u.region cl rid).shadow el = { s.bank cl (g.bankNo el) with ents := [] }) ∧
    (∀ n, u.bank cl n = s.bank cl n) ∧
    (∀ p, u.outPort cl p = { s.outPort cl p with
      held := (s.outPort cl p).held.map fun x => if x.rid = some rid then { x with rid := none } else x }) ∧
    ∃ l, u.outbox = s.outbox ++ .errorIrq (dieOf cl) :: l) ∧
  (plays → g.rstate = .run → g.atRestart = true → s.firings cl g = [] → (∀ el ∈ g.els, (s.bank cl (g.bankNo el)).pend = none) →
    Goes go fun u =>
      u.region cl rid = { next g with
        shadow := (u.region cl rid).shadow, rstamp := g.cnt, riter := g.iter, overAgain := false, lostOnce := false } ∧
      (∀ el ∈ g.els, tget {} (u.region cl rid).shadow el = { s.bank cl (g.bankNo el) with ents := [] }) ∧
      (∀ j, j ≠ rid → u.region cl j = s.region cl j) ∧ (∀ n, u.bank cl n = s.bank cl n) ∧
      (∀ p, u.outPort cl p = { s.outPort cl p with
        held := (s.outPort cl p).held.map fun x => if x.rid = some rid then { x with rid := none } else x }) ∧
      { u.cluster cl with
        regions := (s.cluster cl).regions, inp := (s.cluster cl).inp, outp := (s.cluster cl).outp } = s.cluster cl ∧
      OnlyCluster s { u with fresh := s.fresh } cl) ∧
  (g.rstate = .armed → g.token = true → s.railOk cl g = true → Goes (exec (.startTokenDelivery cl rid) s) fun u =>
    OnlyRegion s u cl rid (if g.soff = 0 then { g with rstate := .run, token := false }
      else { g with rstate := .delay, soffLeft := g.soff, token := false })) ∧
  (g.rstate = .replay → (s.pair (pairOf cl)).settled = true → (s.pair (pairOf cl)).holdV.toNat ≤ (s.pair (pairOf cl)).vnow.toNat → Goes (exec (.replayResume cl rid) s) fun u =>
    OnlyRegion s u cl rid { g with rstate := .run, settleFor := false }) ∧
  (g.rstate = .replay → ((s.pair (pairOf cl)).settled = false ∨ (s.pair (pairOf cl)).vnow.toNat < (s.pair (pairOf cl)).holdV.toNat) →
    exec (.replayResume cl rid) s = .next s)

/-! ### Power, measurement, vault errors -/

/-- R22, R310, R311, R312: at a wrap of the slot pointer EMASK becomes the OR of PWR, ARB and DRP; a droop masks every region
of the pair at once for at least 64 cycles. In an arbiter window whose heavier stratum draws more than 1.10 times the lighter
every RUN region of the heavier gets one more ARB bit, at its lowest slot played, while it keeps half of its slots; at 1.05
and below every region loses its highest ARB bit. The currents are free values (log 10). -/
def Obligations.SlotMasks : Prop :=
  ∀ (s : State) (n cl rid : Nat), let g := s.region cl rid; let pw := (s.pair (pairOf cl)).pwrmask ||| s.bkmask
  let pwr := if g.slots &&& ~~~pw = 0 then (match highest 16 g.slots.getLsbD with
    | some i => setBit pw i false
    | none => pw) else pw
  (g.rstate ≠ .idle → s.slot = 0 → Goes (exec (.emaskApply cl rid) s) fun u => OnlyRegion s u cl rid { g with
    emask := if (s.pair (pairOf cl)).drp then .allOnes 16 else pwr ||| g.arb }) ∧
  (Goes (exec (.droop n) s) fun u => ∃ y, OnlyPair s y n { s.pair n with
      drp := true, drpEnd := s.cycle + 65, drpClear := false, drpcnt := satInc (s.pair n).drpcnt } ∧
    PairRegions y u n fun _ g => { g with emask := .allOnes 16 }) ∧
  ((s.pair n).drp = true → (s.pair n).drpEnd < s.cycle → Goes (exec (.droopHoldEnd n) s) fun u =>
    OnlyPair s u n { s.pair n with drpClear := true }) ∧
  (let lower := Config.stratumCurrent s.fresh + 1; let upper := Config.stratumCurrent (s.fresh + 1) + 1
   let ih := max lower upper; let il := min lower upper; let top := 2 * n + (if lower < upper then 1 else 0)
   let plays (g : Region) (arb : BitVec 16) := g.slots &&& ~~~(pwrFor ((s.pair n).pwrmask ||| s.bkmask) g.slots ||| arb)
   Goes (exec (.arbiterWindow n) s) fun u => ∃ y, OnlyPair { s with fresh := s.fresh + 2 } y n { s.pair n with
      heavy := decide (lower < upper), imbal := .ofNat 8 (min 255 (256 * (ih - il) / il)) } ∧
    (110 * il < 100 * ih → PairRegions y u n fun cl g =>
      if cl = top ∧ g.rstate = .run then (match lowest 16 (plays g g.arb).getLsbD with
        | some i => if popcount g.slots ≤ 2 * popcount (plays g (setBit g.arb i true)) then { g with arb := setBit g.arb i true } else g
        | none => g) else g) ∧
    (100 * ih ≤ 105 * il → PairRegions y u n fun _ g => match highest 16 g.arb.getLsbD with
      | some i => { g with arb := setBit g.arb i false }
      | none => g) ∧
    (100 * ih ≤ 110 * il → 105 * il < 100 * ih → u = y))

/-- R157, R374 to R377: the voltage of a pair is the highest of VREQ, the floor and a hold, and 0.80 V outside full service.
A write of PAIRV sets VREQ, clamped to 600 to 800 mV, and PWRMASK; the end of a hold gives it up; a rail within 2 mV of its
target for 600 cycles has settled, and frees the regions that wait for it where it is at or above the floor. In a clock cycle
the rail moves by at most 10 mV, and then not for 600 cycles; the cycles since which it has been within 2 mV of its target begin
again, and SETTLED ends, when it is not; and a hold begins its 2^20 cycles when the rail has settled at its voltage. The backstop
sets the lowest clear bit of its mask while PKGPWR exceeds PKGLIM, and clears the highest when it is below 95 %. (That the rail
moves in such steps, and when a hold begins and a region goes on, is the model's: log 25.) -/
def Obligations.Voltage : Prop :=
  ∀ (s : State) (n mv : Nat) (v : Word), let p := s.pair n
  (Goes (exec (.vreqWrite n v) s) fun u => OnlyPair s u n (follows s n { p with
    vreq := .ofNat 10 (min 800 (max 600 (v.toNat / 2 ^ 22 % 2 ^ 10))), pwrmask := v.setWidth 16 })) ∧
  (∀ c ≤ s.cycle, p.hold = true → p.holdEnd = some c →
    let waits := ∃ cl, cl / 2 = n ∧ ∃ rid < 64, let g := s.region cl rid
      g.rstate = .replay ∧ g.settleFor = true ∨ g.rstate = .run ∧ g.overAgain = true
    (¬ waits → Goes (exec (.overrunHoldEnd n) s) fun u =>
      OnlyPair s u n (follows s n { p with hold := false, holdV := 0, holdEnd := none })) ∧
    (waits → exec (.overrunHoldEnd n) s = .next s)) ∧
  (demanded s n p ≤ mv + 2 → mv ≤ demanded s n p + 2 → Goes (exec (.railSettled n mv) s) fun u => ∃ y,
    OnlyPair s y n { p with vnow := .ofNat 10 mv, settled := true } ∧ if s.floorOf n ≤ (BitVec.ofNat 10 mv).toNat
      then PairRegions y u n fun _ g => { g with railWait := false } else u = y) ∧
  (let q := (tick s).pair n;
    q.vnow.toNat ≤ p.vnow.toNat + 10 ∧ p.vnow.toNat ≤ q.vnow.toNat + 10 ∧
    (q.vnow ≠ p.vnow → p.rampAt ≤ s.cycle ∧ s.cycle + 600 ≤ q.rampAt) ∧
    let near := q.vnow.toNat ≤ q.aim.toNat + 2 ∧ q.aim.toNat ≤ q.vnow.toNat + 2
    (q.settled = true → p.settled = true ∧ near) ∧ (∀ c, q.since = some c → near ∧ (p.since = some c ∨ c = s.cycle)) ∧
    (near → q.since ≠ none) ∧ ∀ c, p.holdEnd = none → q.holdEnd = some c →
      c = s.cycle + 2 ^ 20 ∧ p.hold = true ∧ q.settled = true ∧ p.holdV.toNat ≤ q.vnow.toNat) ∧
  (s.pkglim < s.pkgpwr → ∀ i < 15, s.bkmask.getLsbD i = false → (∀ j < i, s.bkmask.getLsbD j = true) →
    Goes (exec .backstopWindow s) fun u => u = { s with bkmask := u.bkmask, bkwin := satInc s.bkwin } ∧
      ∀ j < 16, u.bkmask.getLsbD j = (s.bkmask.getLsbD j || j == i)) ∧
  (s.pkglim < s.pkgpwr → (∀ j < 15, s.bkmask.getLsbD j = true) → exec .backstopWindow s = .next s) ∧
  (100 * s.pkgpwr.toNat < 95 * s.pkglim.toNat → ∀ i < 16, s.bkmask.getLsbD i = true → (∀ j, i < j → j < 16 → s.bkmask.getLsbD j = false) →
    Goes (exec .backstopWindow s) fun u => u = { s with bkmask := u.bkmask } ∧
      ∀ j < 16, u.bkmask.getLsbD j = (s.bkmask.getLsbD j && j != i)) ∧
  exec .peakClear s = .next { s with peak := 0 }

/-- R378 to R381: an energy window charges every context that holds a take with its dynamic energy and an equal share of the
cluster's static power, of which the estimator's figures are free values (log 10); MW is the charge over the window; a PC
sample is written at the head of the function's ring, or counted lost when there is no ring or no room; the clock of a die
in FULL moves to 600 MHz, deferred while a pair of the die has DRP. -/
def Obligations.Measurement : Prop :=
  ∀ (s : State) (cl k d : Nat) (t : Take), let c := s.ctx cl k; let f := s.fn t.fn; let size := 256 * 2 ^ f.psz2.toNat
  (Goes (exec (.energyWindow cl) s) fun u => (∀ j < 4, ∃ e, let c := s.ctx cl j; let x := u.ctx cl j
      let held := ((List.range 4).filter fun j => (s.ctx cl j).kstate != .idle).length; let fast := (s.die (cl / 64)).fast
      let share := Config.staticPower cl s.cycle * 256 * 2 ^ 32 / ((if fast then 600 else 300) * held)
      let total := c.ecnt.toNat * 2 ^ 32 + c.efrac + (e + share)
      (c.free = true → x = c) ∧ (c.free = false → x.mw = .ofNat 32 ((e + share) * (if fast then 2343750 else 1171875) / (2 ^ 32 * 1000000))) ∧ (c.free = false → { x with ecnt := c.ecnt, esat := c.esat, efrac := c.efrac, mw := c.mw } = c ∧
        x.ecnt.toNat = min (total / 2 ^ 32) (2 ^ 48 - 1) ∧ x.efrac = total % 2 ^ 32 ∧
        (x.esat = true ↔ c.esat = true ∨ 2 ^ 48 ≤ total / 2 ^ 32))) ∧
    (∀ j, 4 ≤ j → u.ctx cl j = s.ctx cl j) ∧ { u.cluster cl with ctx := (s.cluster cl).ctx } = s.cluster cl ∧
    OnlyCluster s { u with fresh := s.fresh } cl) ∧
  (s.take? c.take = some t → c.kstate = .run ∨ c.kstate = .wait ∨ c.kstate = .trap →
    (f.psbase = 0 ∨ f.psen = false ∨ (f.pshead - f.pstail).toNat = size → Goes (exec (.pcSample cl k) s) fun u =>
      OnlyFn s u t.fn { f with pslost := satInc f.pslost }) ∧
    ∀ a b, f.psbase ≠ 0 → f.psen = true → (f.pshead - f.pstail).toNat ≠ size → s.refKey t.fn f.psbase = some b →
      s.refRuns t.fn f.psbase (16 * (f.pshead.toNat % size)) 16 = [(a, 16)] →
      Goes (exec (.pcSample cl k) s) fun u => ∃ y w0 w1, Stores s y a (wordBytes w0 ++ wordBytes w1) ∧
        OnlyFn y u t.fn { f with pshead := f.pshead + 1 } ∧
        w0.toNat / 2 ^ 32 = c.take % 2 ^ 32 ∧ w0.toNat / 2 ^ 24 % 256 = cl % 256 ∧ w0.toNat / 2 ^ 22 % 4 = k % 4 ∧
        w0.toNat % 2 ^ 16 = c.pc.toNat ∧ w1.toNat % 2 ^ 32 = c.mw.toNat) ∧
  ((s.die d).st = .full → (∀ i < 32, (s.pair (32 * d + i)).drp = false) → Goes (exec (.clockSourceChange d) s) fun u =>
    OnlyDie s u d { s.die d with fast := true, deferred := false }) ∧
  ((s.die d).st = .full → (∃ i < 32, (s.pair (32 * d + i)).drp = true) → Goes (exec (.clockSourceChange d) s) fun u =>
    OnlyDie s u d { s.die d with deferred := true })

/-- R262, R263, R264: a write of VBFAIL that would mark more than two banks of a group, check banks counted, is ignored; where a
bank that is marked or unmarked holds other bytes than the codes of its stripe give, reads give the others from then on;
clearing VERR clears a V bit with its count; a write that covers a stripe in part records an error that it corrects in the rest
(one: log 50); the scrubber makes the words that it corrects fresh, counts them in VERR and reports a stripe that it cannot
correct, which it leaves. -/
def Obligations.VaultErrors : Prop :=
  ∀ (s : State) (cl stripe : Nat) (v : Word), let c := s.cluster cl
  let marks (g : Nat) : Nat := (((List.range 16).map (16 * g + ·) ++ [32 + 2 * g, 33 + 2 * g]).filter fun i => v.getLsbD i).length
  let only (u : State) (c' : Cluster) : Prop := u.cluster cl = c' ∧ OnlyCluster s u cl
  ((2 < marks 0 ∨ 2 < marks 1) → exec (.vbfailWrite cl v) s = .next s) ∧
  (marks 0 ≤ 2 → marks 1 ≤ 2 → s.hid = [] → Goes (exec (.vbfailWrite cl v) s) (only · { c with vbfail := v.setWidth 36 })) ∧
  (marks 0 ≤ 2 → marks 1 ≤ 2 → (s.hid.map (·.1)).Nodup → Goes (exec (.vbfailWrite cl v) s) fun u =>
    u.cluster cl = { c with vbfail := v.setWidth 36 } ∧ ∀ a, let turns := isVault a = true ∧ vaultCl a = cl ∧ s.erasedAt a ≠ u.erasedAt a
      u.byte a = match tget none s.hid a with
        | some b => if turns then b else s.byte a
        | none => s.byte a) ∧
  (Goes (exec (.verrClear cl v) s) fun u => only u { c with verr := (u.cluster cl).verr } ∧ ∀ i < 64, (u.cluster cl).verr.getLsbD i =
    (c.verr.getLsbD i && !(v.getLsbD 63 && (i == 63 || i < 16)) && !(v.getLsbD 62 && (i == 62 || 16 ≤ i && i < 32)))) ∧
  (∀ a bytes u, s.tryWrite a bytes = some u → cl * 2 ^ 25 ≤ a → a + bytes.length ≤ cl * 2 ^ 25 + 2 ^ 25 → cl < 256 → bytes ≠ [] →
    let n := bytes.length; let whole (i : Nat) := a ≤ i ∧ i + 256 ≤ a + n
    (∀ i, i ∈ writeReads a n ↔ a / 256 ≤ i / 32 ∧ i / 32 * 256 < a + n ∧ ¬ whole (i / 32 * 256) ∧ ¬ (a ≤ 8 * i ∧ 8 * i + 8 ≤ a + n)) ∧
    (u.cluster cl).verr = match (writeReads a n).find? fun i => s.err i == .single || s.erasedAt (8 * i) with
      | none => c.verr
      | some i => let at' := 8 * i % 2 ^ 25; verrRecord c.verr false (sliceBank (at' / 256) (at' % 256 / 16)) (at' / 256)) ∧
  (s.rebuilds cl stripe = true → let l := (stripeWords cl stripe).filter fun x => s.err x.1 != .none && !c.vbfail.getLsbD x.2
    Goes (exec (.patrolScrub cl stripe) s) fun u =>
      (∀ i, u.err i = if i ∈ l.map (·.1) then .none else s.err i) ∧ (∀ a, u.byte a = s.byte a) ∧
      (u.cluster cl).verr = l.foldl (fun w x => verrRecord w false x.2 stripe) c.verr ∧
      { u.cluster cl with verr := c.verr } = c ∧ (∀ j, j ≠ cl → u.cluster j = s.cluster j) ∧
      (∀ a, let i := if isVault a then a / 8 else a
        tget none u.hid a = if s.err i = .double ∧ i ∈ l.map (·.1) then none else tget none s.hid a) ∧
      { u with clusters := s.clusters, errs := s.errs, hid := s.hid } = s) ∧
  (s.rebuilds cl stripe = false → (s.die (dieOf cl)).elogbase = 0 → cl * 2 ^ 25 + 256 * stripe < 2 ^ 33 → stripe < 2 ^ 17 →
    Goes (exec (.patrolScrub cl stripe) s) fun u =>
      (∀ i, u.err i = s.err i) ∧ u.outbox = s.outbox ++ [.errorIrq (dieOf cl)] ∧ (u.cluster cl).verr.getLsbD 63 = true ∧
      { u.cluster cl with verr := c.verr } = c ∧ (∀ j, j ≠ cl → u.cluster j = s.cluster j) ∧
      { u with clusters := s.clusters, outbox := s.outbox } = s)

/-! ### Takes: submission, leases, scheduling, ends -/

/-- R191: TAKE.SPAWN of a record in this package submits it with the context's priority as its cap and stalls; the reply,
when its record is the oldest of the function, accepts or refuses it and writes the take's identifier, or 0, into S[d]. R294
to R297, R340: LAUNCH, ignored through the function's reset, queues a reference, and sets BADW for one with a reserved space
or nonzero bits [7:2]. The stage manager takes the oldest record: it refuses it with the code of the first check that fails,
or accepts it as a QUEUED take with an identifier that is not 0 and that no take or kept fault record has, and writes the
completion record. Where nothing in memory is in error its reads change nothing (R265). (Which code some malformed fields get,
what is read, and TAKE.SPAWN's alignment, are deduced: log 14, 19.) -/
def Obligations.Submission : Prop :=
  (
  ∀ (s : State) (d b : Reg) (h : HReg) (t : Take),
  (∀ tid c off a, s.myTake = some t → s.form t { h := h, nc := 0, c0 := b, c1 := 0, c2 := 0, c3 := 0 } 0 1 = .ok tid c off →
    s.translate t (t.tensor tid) off true false false = .ok (.key a) → Goes (exec (.takeSpawn d h b) s) fun u => ∃ y,
      Becomes s y s.curCl s.curK { s.me with stall := some (.spawn d) } ∧ OnlyFn y u t.fn { s.fn t.fn with
        queue := (s.fn t.fn).queue ++ [⟨0, some a, some (s.curCl, s.curK), s.me.prio, decide (64 ≤ s.qdepth t.fn)⟩] }) ∧
  ∀ cl k x rest, let c := s.ctx cl k
    s.take? c.take = some t → c.stall = some (.spawn d) → (s.fn t.fn).queue = x :: rest → x.spawn = some (cl, k) →
    Goes (exec (.spawnReply cl k) s) fun u => ∃ y, OnlyFn s y t.fn { s.fn t.fn with queue := rest } ∧
      let z := (y.submit t.fn x).1; let v := BitVec.ofNat 64 (y.submit t.fn x).2
      (u.ctx cl k).reg d = (if d = 0 then 0 else v) ∧ (∀ r, r ≠ d → (u.ctx cl k).reg r = (z.ctx cl k).reg r) ∧
      Becomes z u cl k { z.ctx cl k with s := (u.ctx cl k).s, stall := none, pc := (z.ctx cl k).pc + 4 }
  ) ∧
  (
  ∀ (s : State) (fn : Nat) (ref : Word), let f := s.fn fn
  (s.resets fn = true → exec (.launch fn ref) s = .next s) ∧
  (s.resets fn = false → 2 ≤ ref.toNat % 4 ∨ ref.toNat / 4 % 64 ≠ 0 → Goes (exec (.launch fn ref) s) fun u => OnlyFn s u fn { f with badw := true }) ∧
  (s.resets fn = false → ref.toNat % 4 < 2 → ref.toNat / 4 % 64 = 0 → Goes (exec (.launch fn ref) s) fun u =>
    OnlyFn s u fn { f with queue := f.queue ++ [⟨ref, none, none, 3, decide (64 ≤ s.qdepth fn)⟩] }) ∧
  (∀ x rest, (s.die (linkDie fn)).st = .reduced ∨ (s.die (linkDie fn)).st = .full → f.queue = x :: rest → x.spawn = none →
    Goes (exec (.recordAccept fn) s) fun u => ∃ y, OnlyFn s y fn { f with queue := rest } ∧
      -- the machine when the record has been read, and what the reads have given (R265)
      let m := (y.readRecord fn x).1; let seen := (y.readRecord fn x).2; let w := seen.recordWord fn x; let h := parseHeader w
      (s.errs = [] → (∀ c, (s.cluster c).vbfail = 0) → m = y ∧ seen = y) ∧ (y.submitOk fn x = false → u = y) ∧
      (∀ r, y.submitOk fn x = true → seen.checkAll fn w x.cap x.full = .error r →
        u = m.complete fn h.cmpl h.vec.toNat (completion 2 r.code r.index 0) 0 r.detail 0) ∧
      (∀ t, y.submitOk fn x = true → seen.checkAll fn w x.cap x.full = .ok t → s.takes.length + s.frecs.length + 2 ≤ 2 ^ 32 →
        ∃ (z : State) (id : Nat), id ≠ 0 ∧ id < 2 ^ 32 ∧ (∀ t ∈ s.takes, t.id ≠ id) ∧ (∀ r ∈ s.frecs, r.take ≠ id) ∧
          z.takes = s.takes ++ [{ t with id := id }] ∧ t.st = .queued ∧ { z with takes := m.takes, fresh := m.fresh } = m ∧
          u = z.complete fn h.cmpl h.vec.toNat (completion 1 0 0 id) 0 0 0)) ∧
  ∀ vec w0 w1 w2 w3 a, ref ≠ 0 → s.resets fn = false → s.refKey fn ref = some a → ∃ y,
    Stores s y a (wordBytes w0 ++ wordBytes w1 ++ wordBytes w2 ++ wordBytes w3) ∧ s.complete fn ref vec w0 w1 w2 w3 = y.msix fn vec
  )

/-- R297, R316, R317, R320, R321, R338: a QUEUED take with its fault record whose leases other than those of vaults are all
granted becomes READY. Its HBM and host leases are granted together, within LSLIM, when its die is FULL: every leased plot
gets its entry, LSUSE counts them, and an HBM plot holds the object that RLOC names, then zeros.
(That they are granted together is deduced: log 18.) -/
def Obligations.LeaseGrants : Prop :=
  ∀ (s : State) (id : Nat) (t : Take), s.take? id = some t → t.st = .queued → t.frec ≠ 0 → let go := exec (.leaseGrant id) s
  ((∀ x ∈ t.tensors, x.2.res = 0 ∨ x.2.res ≠ 3 ∧ x.2.leased = true) → Goes go fun u =>
    OnlyTake s u id { t with st := .ready, since := s.cycle, order := s.cycle }) ∧
  ∀ x, (s.die (linkDie t.fn)).st = .full → s.plotsHeld t.fn + x.2.lcount ≤ (s.fn t.fn).lslim.toNat → 0 < x.2.lcount → s.errs = [] →
    (∀ y ∈ t.tensors, y.2.res ≠ 3 ∧ (y.1 = x.1 → y = x)) → x ∈ t.tensors →
    let granted (frame : Nat → Nat) (u : State) : Prop := ∃ v lease, u.take? id = some v ∧ (∀ j, j ≠ id → u.take? j = s.take? j) ∧
      (∀ y ∈ t.tensors, y.1 ≠ x.1 → v.tensor y.1 = t.tensor y.1) ∧ { v.tensor x.1 with plots := x.2.plots } = x.2 ∧
      (∀ i < x.2.lcount, (v.tensor x.1).entry (x.2.lfirst + i) = plotEntry x.2 lease (frame i)) ∧
      u.fn t.fn = { s.fn t.fn with lsuse := (s.fn t.fn).lsuse + .ofNat 32 x.2.lcount } ∧ (∀ j, j ≠ t.fn → u.fn j = s.fn j)
    (t.unleased 1 = [] → t.unleased 2 = [x] → Goes go fun u => granted (fun i => bits x.2.rloc 55 16 + i) u ∧
      ∀ a, u.byte a = s.byte a) ∧
    (t.unleased 1 = [x] → t.unleased 2 = [] → (s.fn t.fn).poolStarts s.usedRuns x.2.lcount ≠ [] → 
      (∀ a ∈ (s.fn t.fn).poolStarts s.usedRuns x.2.lcount, (s.die (hbmStack a / 2)).st = .full) →
      Goes go fun u => ∃ a ∈ (s.fn t.fn).poolStarts s.usedRuns x.2.lcount,
        granted (fun i => hbmStack a * 2 ^ 20 + hbmOff a / 65536 + i) u ∧
        (∀ b, b < a ∨ a + 65536 * x.2.lcount ≤ b → u.byte b = s.byte b) ∧
        ∀ i < 65536 * x.2.lcount, u.byte (a + i) = if x.2.rloc = 0 then 0 else
          (s.refPeek t.fn x.2.rloc 0 (min (65536 * x.2.lcount) (x.2.size - 65536 * x.2.lfirst))).getD i 0)

/-- R298, R302, R303, R304: a READY take that can be placed is dispatched: RUNNING at its places, each context with the
arguments in s1 to s8, the entry PC and RUN. A waiting take rises one level after 2^20 cycles. A take past its slice, not
exempt, is asked to give way to one of equal priority that cannot be placed; the allocator may ask a take to move.
(Which places a take may get is deduced: log 17.) -/
def Obligations.Scheduling : Prop :=
  ∀ (s : State) (id : Nat) (t : Take), s.take? id = some t →
  (∀ save frames y plans, t.st = .ready → s.mayDispatch t = some (save, frames, y) → y.plan t true (fun _ _ => true) = some plans →
    (plans.map fun p => p.place.cl).Nodup → Goes (exec (.dispatch id) s) fun u =>
      (∃ v, u.take? id = some v ∧ v.st = .running ∧ v.ran = s.cycle ∧ v.samp = 0 ∧ v.places = plans.map (·.place) ∧
        v.save = save ∧ v.saveFrames = frames ∧ v.why = t.why ∧ v.hdr = t.hdr) ∧
      (∀ j, j ≠ id → u.take? j = s.take? j) ∧
      ∀ p ∈ plans, let c := u.ctx p.place.cl p.place.k
        c.take = id ∧ c.kstate = .run ∧ c.pc = t.hdr.entry ∧ c.prio = t.prio ∧ c.aor = 1 ∧ c.wbase = .ofNat 16 p.wbase ∧ c.wsize = t.hdr.wsize ∧
        (∀ r : Reg, c.reg r = if 1 ≤ r.toNat ∧ r.toNat ≤ 8 then t.hdr.args.getD (r.toNat - 1) 0 else 0) ∧ c.p = 0 ∧
        c.stall = none ∧ c.wait = none ∧ c.pend = []) ∧
  (t.st = .ready ∨ t.st = .saved ∧ t.stopped = false → t.since + 2 ^ 20 ≤ s.cycle →
    Goes (exec (.priorityAgeing id) s) fun u =>
      OnlyTake s u id { t with prio := if t.prio = 3 then 3 else t.prio + 1, since := s.cycle }) ∧
  (∀ v ∈ s.takes, t.unasked = true → t.ran + 2 ^ 24 ≤ s.cycle → s.exempt t = false →
    (v.st = .ready ∨ v.st = .saved ∧ v.stopped = false) → v.prio = t.prio → s.placeable v = false →
    Goes (exec (.timeSliceEnd id) s) fun u => OnlyTake s u id { t with why := [.preempt] }) ∧
  ∀ lc dst, t.unasked = true → s.mayMove t lc = true → dst < 256 →
    Goes (exec (.move id lc dst) s) fun u => OnlyTake s u id { t with why := [.move lc dst] }

/-! ### The step, decoding, reset, memory -/

/-- R60, R70, R162, R164, R337, R20: a context that issues runs the instruction that the bytes at its PC decode to, once
every line that holds it is valid; it takes IFETCH-INVALID at an invalid line or past its window, and issues again at a line
that is being filled. An encoding that is not assigned is ILLEGAL-INSTR of its parcels. An element that fires runs its first
entry with the region's CNT as stamp. A turn of a device agent runs that agent's step. The order of the turns within a cycle
is the model's (log 1), and so is `withFetchWord` (log 13). -/
def Obligations.StepRunsDecoded : Prop :=
  (∀ s : State, s.agenda = [] → step s = .next (tick s)) ∧
  (∀ (s : State) turn rest, s.agenda = turn :: rest → let y : State := { s with agenda := rest }
    (∀ cl k, turn = .issue cl k → let z := ({ y with curCl := cl, curK := k } : State).onMe fun c => { c with retry := false }
      let c := s.cluster cl; let x := s.ctx cl k; let a := x.pc.toNat; let p := c.winParcel x a; let n := parcelsOf p
      let bytes := (List.range 12).map fun j => c.winByte x (a + j)
      let held := a + 4 * max 1 n ≤ x.wsize ∧ ∀ j < max 1 n, c.winLine x (a + 4 * j) = .valid
      (s.canIssue cl k = false → step s = .next y) ∧
      (s.canIssue cl k = true →
        (∀ i r, decode bytes = .ok (i, r) → held → step s = exec i z) ∧
        (∀ e, decode bytes = .error e → held →
          step s = exec (.unassignedInstruction p (if 2 ≤ n then c.winParcel x (a + 4) else 0)) z) ∧
        (x.wsize < a + 4 ∨ c.winLine x a = .invalid → CanTrap z 4 →
          Goes (step s) fun t => TakesTrap z t 4 (x.pc.setWidth 64) 0 x.pc) ∧
        (a + 4 ≤ x.wsize → c.winLine x a = .filling → step s = .next z))) ∧
    (∀ cl rid el, turn = .fire cl rid el → let z : State := { y with curCl := cl, curRid := rid, curEl := el }
      let g := s.region cl rid; let l := (s.bank cl (256 * g.ctx.toNat + el)).ents
      (∀ b w r i, l = b ++ w :: r → (∀ v ∈ b, v.extractLsb' 52 12 ≠ g.cnt) → w.extractLsb' 52 12 = g.cnt →
        decodeEntry w = some i → step s = exec i z) ∧
      ((∀ v ∈ l, v.extractLsb' 52 12 ≠ g.cnt) → step s = .next y)) ∧
    (∀ i, turn = .dev i → (isDeviceStep i = true → step s = exec i y) ∧
      (isDeviceStep i = false → step s = .fault .notADeviceStep))) ∧
  ∀ (s : State) nbits w i, decodeTableWord nbits w = some i →
    step (s.withFetchWord nbits w) = exec i { s.withFetchWord nbits w with agenda := [], curCl := 0, curK := 0 }

/-- R47, R60 to R69: words written out from the layouts decode to the instructions that they stand for. -/
def Obligations.EncodedWords : Prop :=
  (∀ p ∈ ([
    ([0x0018A404], .add 4 5 6), ([0x001C0098], .trap 7), ([0xFFFC4160], .beq 1 2 0x3FFF),
    ([0x2800A406, 0x00300000, 0x00000010], .ld96 4 ⟨3, 0, 5, 0, 0, 0⟩ .plain true .h .el 0x10)] : List (List Parcel × Instr)),
    decode (p.1.flatMap parcelBytes) = .ok (p.2, [])) ∧
  decodeEntry (5 <<< 52 ||| 8 <<< 44 ||| 2 <<< 40 ||| 2 <<< 32 ||| 4 <<< 29 ||| 1 <<< 28) = some (.entryAdd
    { stamp := 5, hold := false, chain := false, fmt := 2, sa := 0, sb := 2, wl := 4, route := 32, ps := 0, md := 0, imm := 0 }) ∧
  (∀ w : Word, w.extractLsb' 44 6 = 0 → decodeEntry w = none) ∧
  ∀ (p : Parcel) bs, p.extractLsb' 0 2 = 3 → decode (parcelBytes p ++ bs) = .error .length11

/-- R47 to R56, R60 to R69: for every well-formed cue instruction the decoder reads its words back as that instruction, and
leaves the bytes that follow; for every well-formed element entry it reads its word back as that entry. -/
def Obligations.RoundTrip : Prop :=
  (∀ (i : Instr) (rest : List Byte), i.wf = true → encodeCue i ≠ [] → decode (encode i ++ rest) = .ok (i, rest)) ∧
  ∀ (i : Instr) (w : Word), i.wf = true → encodeEntry i = some w → decodeEntry w = some i

/-- R46: after power-on reset every register, flag, buffer, port, plane, slot and byte is 0 or in its IDLE, UNBOUND, FREE or
empty value, and the vaults and accumulators hold zero. POWER_ON takes every state there; what the host's memory holds is
outside the package. (The voltages and the power limit have the reset values of their own rules; log 1 to 6 name those that
the spec does not give, and that a byte of HBM reads 0.) -/
def Obligations.Reset : Prop :=
  (let s := State.reset;
    Memory.wf s.mem = true ∧ s.takes = [] ∧ s.agenda = [] ∧ s.cycle = 0 ∧ s.slot = 0 ∧ (∀ a, s.byte a = 0) ∧ (∀ i, s.err i = .none) ∧
    (∀ cl k, let c := s.ctx cl k
      c.kstate = .idle ∧ c.take = 0 ∧ (∀ r, c.reg r = 0) ∧ (∀ n, c.prd n = (n == 0)) ∧ (∀ i (h : i < 16), c.h[i] = .empty) ∧
      c.pc = 0 ∧ c.epc = 0 ∧ c.ecause = 0 ∧ c.einfo = 0 ∧ c.einfo2 = 0 ∧ c.esave = 0 ∧ c.tvec = 0 ∧ c.fstat = 0 ∧ c.aor = 0 ∧
      c.cyc = 0 ∧ c.ecnt = 0 ∧ c.steps = 0 ∧ c.mon = none ∧ c.rmark = none ∧ c.pend = []) ∧
    (∀ cl n, let b := s.bank cl n
      b.l0 = 0 ∧ b.l1 = 0 ∧ b.l2 = 0 ∧ b.l3 = 0 ∧ b.f = false ∧ b.a = [] ∧ b.b = [] ∧ b.ol = 0 ∧ b.xf = 0 ∧ b.tokc = 0 ∧
      b.ents = [] ∧ b.dhdr = 0 ∧ b.dv = false ∧ b.pend = none) ∧
    (∀ cl r, let g := s.region cl r
      g.rstate = .idle ∧ g.ii = 0 ∧ g.cnt = 0 ∧ g.iter = 0 ∧ g.ioff = 0 ∧ g.width = 0 ∧ g.soff = 0 ∧ g.rstamp = 0 ∧ g.riter = 0 ∧
      g.slots = 0 ∧ g.emask = 0 ∧ g.arb = 0) ∧
    (∀ cl p, (s.inPort cl p).bound = none ∧ (s.outPort cl p).bound = none ∧ (s.outPort cl p).cseq = 0) ∧
    (∀ cl w, tget 0 (s.cluster cl).acc w = 0 ∧ tget none (s.cluster cl).accOwn w = none) ∧
    (∀ cl, let m := s.mxOf cl
      m.holder = none ∧ m.queue = [] ∧ m.mode = 0 ∧ m.sca = none ∧ m.scb = none ∧ m.live.pv = false ∧ m.shadow.pv = false) ∧
    (∀ cl z j, (s.zone cl z).open_ = false ∧ (tget {} (s.zone cl z).slots j).st = .free) ∧
    (∀ d, (s.die d).st = .reset) ∧ (∀ p, (s.svport p).st = .disabled) ∧
    ∀ p, (s.pair p).vreq = 800 ∧ (s.pair p).vnow = 800 ∧ (s.pair p).pwrmask = 0) ∧
  ∀ s : State, Goes (exec .powerOn s) fun t =>
    { t with mem := [], steward := {}, fresh := 0, outbox := [] } = State.reset ∧ t.steward = { rev := s.steward.rev } ∧
    t.outbox = s.outbox ∧ ∀ a, t.byte a = if 2 ^ 64 ≤ a then s.byte a else 0

/-- The memory keeps its one canonical form, so that equal memories are equal data: every step that goes on keeps it. -/
def Obligations.MemoryCanonical : Prop :=
  ∀ s t : State, Memory.wf s.mem = true → step s = .next t → Memory.wf t.mem = true

/-- R265, R331, R173, R221, R276, R224, R240, R337: an abort completion raises the error interrupt of the requester's die and
an event of kind UE of its take (R333), and its requester fares as R265 says. A stalled load takes DATA-ABORT; a posted write is
kept for the next report; the region of an element's reply replays from its checkpoint, and so does each region that would
receive an input port's token, whose other reads are given up; an output port stops and its context gets DATA-ABORT; the
matrix queue is discarded with MX-ABORT; a copy entry ends with ABORT; an overlay's fetch fails. An event is written at the head
of the function's ring, or counted lost without a ring or room. (That the abort of the read by which a ST covers a bounded
element of a peer's plot in part is a store's, and that the store is then not made, is deduced: log 32. That an atomic is the
write of EINFO[63] is the model's: log 45. Which memory was in error is not known: log 37.) -/
def Obligations.AbortCompletions : Prop :=
  (
  ∀ (s : State) (rq : Requester), let cl := reqCl rq; let d := s.detectReq rq (.ofNat 64 (2 ^ 63))
  let irq : State := { s with outbox := s.outbox ++ [.errorIrq (cl / 64)] }
  exec (.abortCompletion rq) s = .next (d.abortReq false rq) ∧
  (∃ l, d.outbox = s.outbox ++ .errorIrq (cl / 64) :: l) ∧ d.takes = s.takes ∧ d.reqs = s.reqs ∧ d.agenda = s.agenda ∧
  ((s.die (cl / 64)).elogbase = 0 → (s.take? (s.reqTake rq) = none → d = irq) ∧ ∀ t, s.take? (s.reqTake rq) = some t →
    d = irq.event t.fn (.ofNat 64 (2 ^ 56 + cl % 256 * 2 ^ 40 + t.id % 2 ^ 32)) (.ofNat 64 (2 ^ 63)) 0)
  ) ∧ (
  ∀ (s : State) (n : Nat) (w0 w1 w2 : Word), s.resets n = false → let f := s.fn n; let u := s.event n w0 w1 w2
  let full := (f.evhead - f.evtail).toNat = 16 * 2 ^ f.esz.toNat
  (f.evbase = 0 ∨ full → OnlyFn s u n { f with lost := true, lcnt := satInc f.lcnt }) ∧
  ∀ a b, f.evbase ≠ 0 → ¬ full → s.refKey n f.evbase = some b →
    s.refRuns n f.evbase (32 * (f.evhead.toNat % (16 * 2 ^ f.esz.toNat))) 32 = [(a, 32)] →
    ∃ y z, Stores s y a (wordBytes w0 ++ wordBytes w1 ++ wordBytes w2 ++ wordBytes 0) ∧
      OnlyFn y z n { f with evhead := f.evhead + 1 } ∧ u = z.msix n f.evvec.toNat
  ) ∧ (
  ∀ (s : State) (cl k : Nat), let c := s.ctx cl k
  (∀ n d sz u tid amo off, c.stall = some (.load n d sz u tid amo off) → CanTrap { s with curCl := cl, curK := k } 9 →
    TrapsAt s (s.abortReq false (.cueLoad cl k)) cl k 9 (.ofNat 64 ((if amo = none then 0 else 2 ^ 63) + tid.toNat)) 0 c.pc) ∧
  (∀ n v sz tid off base len, c.stall = some (.store n v sz tid off base len) → Becomes s (s.abortReq false (.cueLoad cl k)) cl k
    { c with stall := none, aborts := c.aborts ++ [⟨tid, none⟩], pc := c.pc + .ofNat 16 (4 * n) }) ∧
  (∀ l p r, c.posted = l ++ p :: r → (∀ x ∈ l, ¬ (x.tid = p.tid ∧ x.mx = p.mx)) →
    Becomes s (s.abortReq false (match p.mx with | none => .cueStore cl k p.tid | some q => .mxReadWrite cl k p.tid q)) cl k
      { c with posted := l ++ r, aborts := c.aborts ++ [⟨.ofNat 12 p.tid, p.mx⟩] }) ∧
  (∀ rid, let g := s.region cl rid
    (s.active g.take = true → s.abortReq false (.elemReply cl rid) = s.replay cl rid false) ∧
    (g.rstate = .run → g.settleFor = false → g.lostOnce = false → s.lostPort cl rid = none → let u := s.replay cl rid false
      u.region cl rid = { g with
        rstate := .run, settleFor := false, cnt := g.rstamp, iter := g.riter, moved := false, held := false, lostOnce := true } ∧
      (∀ j, j ≠ rid → u.region cl j = s.region cl j) ∧
      (∀ e ∈ g.els, let b := s.bank cl (g.bankNo e); u.bank cl (g.bankNo e) = { tget {} g.shadow e with
        adep := b.adep, bdep := b.bdep, afill := b.afill, bfill := b.bfill, ents := b.ents, live := b.live }) ∧
      (∀ n, (∀ e ∈ g.els, n ≠ g.bankNo e) → u.bank cl n = s.bank cl n) ∧
      (∀ p, u.inPort cl p = { s.inPort cl p with
        cons := (s.inPort cl p).cons.map fun x => if x.rid = rid then { x with rd := x.rptr } else x }) ∧
      (∀ p, g.fresh = true ∨ (∀ y ∈ (s.outPort cl p).held, y.rid ≠ some rid) → u.outPort cl p = s.outPort cl p) ∧
      (∀ p l y r, g.fresh = false → (s.outPort cl p).held = l ++ y :: r → (∀ z ∈ l, z.rid ≠ some rid) → y.rid = some rid →
        u.outPort cl p = { s.outPort cl p with held := l ++ r.filter fun z => z.rid != some rid, nacc := y.elem }) ∧
      u.takes = (s.takes.map fun t => if t.id = g.take then { t with fr := { t.fr with replays := satInc t.fr.replays } } else t) ∧
      OnlyFabric s { u with takes := s.takes } cl)) ∧
  (∀ p b t, (s.inPort cl p).bound = some b → s.take? b.take = some t → (s.inPort cl p).mxAsk = false →
    s.abortReq false (.inPort cl p) = (s.laneCons cl p (t.logical cl false p) ((s.inPort cl p).got % b.pat.lanes)).foldl
      (fun u rid => u.replay cl rid false)
      ((s.updIn cl p fun x => { x with part := [], asked := 0, mxAsk := false }).givesUp (.inPort cl p))) ∧
  (∀ p b t w rest x held, let o := s.outPort cl p
    o.bound = some b → o.wait = w :: rest → o.held = x :: held → s.take? b.take = some t → s.ctxOf cl t.id = some k → c.kstate ≠ .exited →
    let u := s.abortReq false (.outPort cl p)
    u.outPort cl p = { o with stop := true, wait := [], tile := 0 } ∧
    OnlyPort (s.givesUp (.outPort cl p)) u cl true p fun j y => if j = k then { y with pend := y.pend ++ [⟨9,
      .ofNat 64 (2 ^ 63 + 2 ^ 62 + x.elem % 2 ^ 16 * 2 ^ 32 + t.logical cl true p * 2 ^ 16 + b.tid.toNat), 0⟩] } else y) ∧
  (∀ t i rest row tid l r, let m := s.mxOf cl
    m.holder = some t.id → s.take? t.id = some t → m.queue = i :: rest → i.reads = l ++ ⟨tid, row, none⟩ :: r →
    (∀ x ∈ l, ¬ (x.tid = tid ∧ x.val = none)) → tid < 2 ^ 12 →
    s.ctxOf cl t.id = some k → c.kstate ≠ .exited → let u := s.abortReq false (.matrix cl tid)
    u.mxOf cl = { m with queue := [] } ∧ OnlyCluster s { u with reqs := s.reqs } cl ∧
    u.reqs = (s.reqs.map fun r => match r.rq with
      | .matrix c _ => if c = cl then { r with stale := true } else r
      | _ => r) ∧
    (∀ j, u.ctx cl j = if j = k then { c with pend := c.pend ++ [⟨35,
      .ofNat 64 (tid * 2 ^ 43 + row % 2 ^ 8 * 2 ^ 25 + i.next % 2 ^ 9 * 2 ^ 16 + i.pc.toNat), 0⟩] } else s.ctx cl j) ∧
    { u.cluster cl with ctx := (s.cluster cl).ctx, mx := (s.cluster cl).mx } = s.cluster cl) ∧
  (∀ t w e, let x := tget {} (s.copyOf cl t.id).ents e
    s.take? t.id = some t → t.sched[e]? = some w → x.st = .active → x.fin = none → x.stamp = none →
    OnlyEntry s (s.abortReq false (.copyEntry cl t.id e)) cl t.id e { x with fin := some 1, asked := 0, vals := [] }) ∧
  ∀ n, exec (.ovlFetchEnd cl k n false) s = .next (s.abortReq false (.overlay cl k n))
  )

/-- R19, R44, R45, R158, R163, R297, R302, R304, R305, R307, R308, R319, R329, R342: a RUNNING take that is asked to freeze
runs to the end of the cycle. It is FROZEN, and its regions with it, once none of them replays, and what is asked of it
follows when nothing of it is under way. An abort makes it ENDING, OUT-OF-LEASE before all else; a pre-emption saves it: its
image holds what its clusters held, its contexts read SAVED; a STOP saves it and marks it stopped; a move that may no longer
be made sets it and its regions going again. RESTORE brings a saved take back to RUNNING at new places with its contexts as
the image in its save area has them; one that needs a feature the package lacks stays SAVED for TAKECTL. (The layout within
the image's sections, what a freeze waits for, that a fault comes before a cancel and that ARMED regions are FROZEN too are
the model's: log 11, 22, 23, 49.) -/
def Obligations.FreezeRestore : Prop :=
  ∀ (s : State) (id : Nat) (t : Take), s.take? id = some t → let go := exec (.freeze id) s
  let replays := ∃ p ∈ t.places, ∃ x ∈ s.regionsOf p.cl id, x.2.rstate = .replay
  (t.st = .running → t.stops = false ∨ t.why = [] → go = .next s) ∧
  (t.st = .running → t.stops = true → t.why ≠ [] → (replays → go = .next s) ∧
    (¬ replays → Goes go fun u => OnlyTakeRegions s u t { t with st := .frozen } fun g =>
      if g.rstate = .armed ∨ g.rstate = .delay ∨ g.rstate = .run then { g with rstate := .frozen, was := some g.rstate, arb := 0 }
      else { g with arb := 0 })) ∧
  (t.st = .frozen → t.why ≠ [] → s.resets t.fn = false → t.id = id →
    (∀ p ∈ t.places, s.quiet t p = false → go = .next s) ∧
    ((∀ p ∈ t.places, s.quiet t p = true ∧ (s.ctx p.cl p.k).pend = [] ∧ ∀ q ∈ t.outPorts p.cl, s.dueTile p.cl q = []) →
      let y := t.places.foldl (fun s p => s.updCtx p.cl p.k fun c => { c with
        wait := none, stall := none, handler := false, retry := false, efrac := 0
        kstate := if c.kstate = .wait then if c.handler then .trap else .run else c.kstate }) s
      let l := t.places.map (s.share t)
      let saved (u : State) (v : Take) : Prop :=
        u.take? id = some v ∧ v.st = .saved ∧ v.why = [] ∧ v.places = [] ∧ v.image = some l ∧
        v.since = s.cycle ∧ v.order = s.cycle ∧ v.exits = t.exits ∧ v.hdr = t.hdr ∧
        -- what the registers held stands there until the context is given to another take
        ∀ p ∈ t.places, u.ctx p.cl p.k = { y.ctx p.cl p.k with
          take := id, kstate := .saved, mon := none, pend := [], wait := none, handler := false, stall := none, retry := false
          aborts := [], posted := [], ovl := [], ovlAgain := [] }
      (t.xabort = true → (∀ n, .abort n ∈ t.why → n ≤ 2) → Goes go fun u =>
        u.take? id = some { t with code := 2, st := .ending, why := [] } ∧ ∀ j, j ≠ id → u.take? j = s.take? j) ∧
      (t.xabort = false →
      (∀ n, t.why = [.abort n] → Goes go fun u => { u with takes := s.takes, agenda := s.agenda } = y ∧
        u.take? id = some { t with code := .ofNat 8 n, st := .ending, why := [] } ∧ (∀ j, j ≠ id → u.take? j = s.take? j) ∧
        u.agenda = s.agenda ++ [.dev (.takeEnd id)]) ∧
      (t.why = [.preempt] → t.exits.length ≠ t.places.length → t.image = none → Goes go fun u =>
        (∃ v, saved u v ∧ v.stopped = t.stopped) ∧ (∀ j, j ≠ id → u.take? j = s.take? j) ∧
        let w := ((t.imageWords l (y.imageSections t l)).take (8192 * t.saveFrames)).flatMap wordBytes
        (t.save = 0 → ∀ a, u.byte a = s.byte a) ∧ (t.save ≠ 0 → u.peek t.save w.length = w ∧
          ∀ a, a < t.save ∨ t.save + w.length ≤ a → u.byte a = s.byte a)) ∧
      (∀ n cl k epc i1 i2 nr, t.why = [.stop n cl k epc i1 i2 nr] → t.image = none → Goes go fun u =>
        (∃ v, saved u v ∧ v.stopped = true ∧ v.noResume = nr) ∧ ∀ j, j ≠ id → u.take? j = s.take? j) ∧
      ∀ lc dst, t.why = [.move lc dst] → t.exits.length ≠ t.places.length → y.mayMove t lc = false → Goes go fun u =>
        OnlyTakeRegions y u t { t with st := .running, why := [], stops := false } fun g => match g.rstate, g.was with
          | .frozen, some r => { g with rstate := r, was := none }
          | _, _ => g))) ∧
  ∀ l, t.st = .saved → t.stopped = false → t.image = some l → s.resets t.fn = false →
    -- the machine when FEAT has been read, and what the read has given (R265)
    let m := (s.readFeat t).1; let feat := (s.readFeat t).2.savedFeat t l
    (s.errs = [] → (∀ c, (s.cluster c).vbfail = 0) → m = s ∧ feat = s.savedFeat t l) ∧
    (feat &&& ~~~ 0xFF ≠ 0 → Goes (exec (.restore id) s) fun u =>
      u.take? id = some { t with stopped := true } ∧ (∀ j, j ≠ id → u.take? j = s.take? j) ∧
      ∀ cl k, { u.ctx cl k with mon := (s.ctx cl k).mon } = s.ctx cl k) ∧
    ∀ plans, feat &&& ~~~ 0xFF = 0 → m.plan t false (m.shareFits t l) = some plans →
      (plans.map fun p => p.place.cl).Nodup → t.exits.length < plans.length → Goes (exec (.restore id) s) fun u =>
        (∃ v, u.take? id = some v ∧ v.st = .running ∧ v.image = none ∧ v.why = [] ∧ v.stops = false ∧ v.places = plans.map (·.place) ∧
          v.ran = s.cycle ∧ v.samp = t.samp) ∧
        (∀ j, j ≠ id → u.take? j = s.take? j) ∧
        ∀ p ∈ plans, ∀ x, (m.readImage t l).2.find? (fun y => y.lc == p.place.lc) = some x → let c := u.ctx p.place.cl p.place.k
          c.take = x.ctx.take ∧ c.s = x.ctx.s ∧ c.p = x.ctx.p ∧ c.h = x.ctx.h ∧ c.pc = x.ctx.pc ∧ c.kstate = x.ctx.kstate ∧
          c.pend = x.ctx.pend ∧ c.rmark = x.ctx.rmark ∧ c.epc = x.ctx.epc ∧ c.tvec = x.ctx.tvec ∧ c.prio = t.prio ∧
          c.wbase = .ofNat 16 p.wbase ∧ c.wsize = t.hdr.wsize

/-- R195, R241, R296, R297, R308, R309, R329, R330, R332, R338: an ENDING take whose entries have ended and whose stamps are
written is gone at its end, its contexts IDLE with what their registers held, and its completion record says EXITED with the
first nonzero status in ascending cluster number, or ABORTED with its code, and the energy of its contexts; while an entry
waits for its writes the take stays. CANCEL drops a take that waits, asks a running one to freeze, ends a saved one, and
answers in CRES. TAKECTL resumes or aborts a take that is stopped, and aborts one stopped by DOUBLE-TRAP; FREL releases the
fault record of a take that has ended. (That FREL ignores a take that is alive is the model's: log 22.) -/
def Obligations.TakeEnds : Prop :=
  ∀ (s : State) (fn id : Nat), let f := s.fn fn; let answer (r : BitVec 2) : Fn := { f with ctake := .ofNat 32 id, cres := r }
  let ending (t : Take) (n : BitVec 8) : Take := { t with code := n, stopped := false, st := .ending, why := [] }
  let y : State := { s with agenda := s.agenda ++ [.dev (.takeEnd id)] }; let go := exec (.cancel fn id) s
  (s.resets fn = true → go = .next s) ∧
  (s.resets fn = false → s.take? id = none ∨ (∃ t, s.take? id = some t ∧ (t.fn ≠ fn ∨ t.st = .ending)) →
    Goes go fun u => OnlyFn s u fn (answer 0)) ∧
  (s.take? id = none → Goes (exec (.frel fn id) s) fun u =>
    u = { s with frecs := s.frecs.filter fun r => r.fn != fn || r.take != id }) ∧
  ∀ t, s.take? id = some t →
    exec (.frel fn id) s = .next s ∧
    (t.fn = fn →
      (s.resets fn = false → t.st = .queued ∨ t.st = .ready → Goes go fun u => ∃ z x,
        z.take? id = none ∧ (∀ j, j ≠ id → z.take? j = s.take? j) ∧ z.pleases = (s.pleases.filter fun p => p.take != id) ∧
        (∀ x, x ∈ z.rplots ↔ x ∈ s.rplots ∧ x.frame ∉ t.hbmFrames) ∧
        OnlyFn { s with takes := z.takes, pleases := z.pleases, rplots := z.rplots } z fn
          { f with lsuse := f.lsuse - .ofNat 32 t.leaseCount } ∧
        x = z.complete fn t.hdr.cmpl t.hdr.vec.toNat (completion 4 0 0 id) 0 0 0 ∧
        OnlyFn x u fn { x.fn fn with ctake := .ofNat 32 id, cres := 1 }) ∧
      (s.resets fn = false → t.st = .running ∨ t.st = .frozen → Goes go fun u =>
        ∃ z, OnlyTake s z id { t with why := t.why ++ [.abort 1] } ∧ OnlyFn z u fn (answer 2)) ∧
      (s.resets fn = false → t.st = .saved → Goes go fun u => ∃ z, OnlyTake y z id (ending t 1) ∧ OnlyFn z u fn (answer 2)) ∧
      (t.st = .saved → t.stopped = true →
        (Goes (exec (.takectlAbort fn id) s) fun u => OnlyTake y u id (ending t 2)) ∧
        (t.noResume = true → Goes (exec (.takectlResume fn id) s) fun u => OnlyTake y u id (ending t 2)) ∧
        (t.noResume = false → Goes (exec (.takectlResume fn id) s) fun u => OnlyTake s u id { t with stopped := false, since := s.cycle }))) ∧
    (t.fn ≠ fn ∨ t.st ≠ .saved ∨ t.stopped = false →
      exec (.takectlResume fn id) s = .next s ∧ exec (.takectlAbort fn id) s = .next s) ∧
    (s.resets t.fn = true → exec (.takeEnd id) s = .next s) ∧
    (∀ x ∈ s.shares t, ∀ e ∈ (s.copyOf x.cl id).ents, t.st = .ending → t.unwound = true → (s.copyOf x.cl id).ents.map (·.1) = [e.1] →
      e.2.st = .active → e.2.fin.isSome = true → e.2.posted ≠ [] → Goes (exec (.takeEnd id) s) fun u => ∃ v, u.take? id = some v) ∧
    (t.st = .ending → s.resets t.fn = false →
      (t.unwound = false → ∀ x ∈ s.shares t, ∀ e ∈ x.copy.ents, e.2.st ≠ .active ∧ e.2.stamp = none) →
      (t.unwound = true → ∀ x ∈ s.shares t, ∀ e ∈ (s.copyOf x.cl id).ents, e.2.st ≠ .active ∧ e.2.stamp = none) →
      Goes (exec (.takeEnd id) s) fun u => ∃ (z : State) (w d e : Word),
      z.take? id = none ∧ (∀ p ∈ t.places, let c := z.ctx p.cl p.k; let b := s.ctx p.cl p.k
        c.kstate = .idle ∧ c.take = 0 ∧ c.s = b.s ∧ c.p = b.p ∧ c.h = b.h ∧ c.pc = b.pc) ∧
      (let code := if t.xabort then 2 else t.code.toNat
       (code = 0 → u = z.complete t.fn t.hdr.cmpl t.hdr.vec.toNat (completion 3 0 0 id) w d e) ∧
       (code ≠ 0 → u = z.complete t.fn t.hdr.cmpl t.hdr.vec.toNat (completion 5 code 0 id) 0 d e)) ∧
      ((∀ x ∈ t.exits, x.2 = 0) → w = 0) ∧
      (∀ x ∈ t.exits, (t.exits.map (·.1)).Nodup → x.1 < 256 → x.2 ≠ 0 → (∀ y ∈ t.exits, y.2 ≠ 0 → x.1 ≤ y.1) → w = x.2.setWidth 64) ∧
      (d = 0 ∨ d = t.frecRef) ∧
      let sum := (s.shares t).foldl (fun n x => n + x.ctx.ecnt.toNat) 0
      (sum < 2 ^ 48 → (∀ x ∈ s.shares t, x.ctx.esat = false) → e = .ofNat 64 sum))

/-- R340, R360, R364: a function-level reset stops the function: a take on clusters is asked to freeze, any other goes no
further. Once those are at rest and no request with the function's tag is outstanding, its takes and fault records are gone,
its contexts and its launch, lease and fault blocks empty, and every frame leased to its takes is scrubbed; its clusters and
pool stay. The reset of a physical function resets its sixteen functions. (Which blocks it leaves alone is the model's: log
24.) -/
def Obligations.FunctionReset : Prop :=
  ∀ (s : State) (fn : Nat), let go := exec (.functionLevelReset fn) s
  let cleared (f : Fn) : Fn := { f with
    ctake := 0, cres := 0, badw := false, queue := [], lslim := 0, lsuse := 0, lsrmt := 0
    evbase := 0, esz := 0, evvec := 0, evhead := 0, evtail := 0, lost := false, lcnt := 0, flr := false }
  let placed (t : Take) : Prop := t.st = .running ∨ t.st = .frozen
  let stopped (n : Nat) (t : Take) : Take := if t.fn = n then (if t.st = .running || t.st = .frozen
    then { t with why := t.why ++ [.abort 3] } else { t with st := .ending, why := [], code := 3 }) else t
  (fn % 32 ≠ 0 →
    ((s.fn fn).flr = false → ((∃ t ∈ s.takes, t.fn = fn ∧ placed t) ∨ ∃ r ∈ s.reqs, r.fn = fn) → Goes go fun u =>
      u.takes = s.takes.map (stopped fn) ∧ u.fn fn = { s.fn fn with flr := true, queue := [] } ∧ (∀ j, j ≠ fn → u.fn j = s.fn j) ∧
      (∀ a, u.byte a = s.byte a) ∧ u.frecs = s.frecs ∧ u.reqs = s.reqs) ∧
    ((s.fn fn).flr = true → ((∃ t ∈ s.takes, t.fn = fn ∧ t.st ≠ .ending) ∨ ∃ r ∈ s.reqs, r.fn = fn) → go = .next s) ∧
    ((∀ t ∈ s.takes, t.fn = fn → if (s.fn fn).flr then t.st = .ending else ¬ placed t) → (∀ r ∈ s.reqs, r.fn ≠ fn) → Goes go fun u =>
      (∀ t ∈ u.takes, t.fn ≠ fn) ∧ (∀ r ∈ u.frecs, r.fn ≠ fn) ∧ u.fn fn = cleared (s.fn fn) ∧
      (∀ t ∈ s.takes, t.fn = fn → ∀ p ∈ t.places, u.ctx p.cl p.k = {}) ∧
      ((∀ cl z, (s.zone cl z).open_ = false) →
        (∀ id, (∀ t ∈ s.takes, t.fn = fn → t.id ≠ id) → u.take? id = s.take? id) ∧
        (∀ r ∈ s.resetRuns fn, ∀ i < r.2, u.byte (r.1 + i) = 0) ∧
        ∀ a, (∀ r ∈ s.resetRuns fn, a < r.1 ∨ r.1 + r.2 ≤ a) → u.byte a = s.byte a))) ∧
  (fn % 32 = 0 → (s.fn fn).flr = false → (∀ i < 16, (s.fn (fn + i)).flr = false) → Goes go fun u => ∀ i < 16,
    let f := s.fn (fn + i); let g := u.fn (fn + i)
    let drained := (∀ t ∈ s.takes, t.fn = fn + i → ¬ placed t) ∧ ∀ r ∈ s.reqs, r.fn ≠ fn + i
    (drained → (∀ t ∈ u.takes, t.fn ≠ fn + i) ∧ (∀ r ∈ u.frecs, r.fn ≠ fn + i) ∧ g = cleared g) ∧
    (¬ drained → g.flr = true ∧ g.queue = []) ∧
    g.clset = f.clset ∧ g.psz = f.psz ∧ g.pbase = f.pbase)

/-- R316, R317, R321 to R324: a target refuses a lease that its pool or limit can never give, lets one wait that it cannot
give now, a frame of a die that is not FULL among it (R381), and grants the rest for 2^24 cycles under an unused identifier,
counted in LSRMT, with the frames that the plots of the range have moved to; a lease for plots that the source holds already
takes the place of the older one. A grant makes the frames the source's plot entries, counts the first time in LSUSE, and
starts the term; the source renews a lease at half term, and one that is not renewed lapses. The recall of a plot of a take
on clusters moves it to a frame that is free, with its contents; where remote leases hold the frame it sets MOV and asks
their holders first; a plot that holds part of an open zone stays. The holder of a remote lease sets MOV, and once no access
to the plot is outstanding clears V and acknowledges, which the target counts. -/
def Obligations.RemoteLeases : Prop :=
  (
  ∀ (s : State),
  (∀ src take tid fn off first count, let f := s.fn fn; let w : RWait := ⟨src, take, tid, fn, off, first, count⟩
    let y : State := { s with rwaits := s.rwaits.filter fun x => x != w }
    let go := exec (.remoteLeaseRequest src take tid fn off first count) s
    let old := s.heldAgain src take tid first count
    (f.psz.toNat < 30 ∨ 2 ^ f.psz.toNat < 65536 * (off + count) ∨ f.lslim.toNat < count →
      Goes go fun u => u = y.send src clsMem (.leaseRefuse take tid)) ∧
    ∀ pool frames, f.poolFrames off count = some pool → count ≤ f.lslim.toNat → frames.length = pool.length →
      (∀ i (h : i < frames.length) (h' : i < pool.length), frames[i] =
        match s.rplots.find? fun x => x.src == src && x.take == take && x.tid == tid && x.fn == fn && x.pool == off + i && x.plot == first + i with
        | some x => x.frame
        | none => pool[i]) →
      (f.lslim.toNat < f.lsuse.toNat + f.lsrmt.toNat - old + count ∨
          (∃ x ∈ frames, s.heldRemote src take tid x = true ∨ (s.die (x / 2 ^ 20 / 2)).st ≠ .full) →
        Goes go fun u => u = { y with rwaits := y.rwaits ++ [w] }) ∧
      (f.lsuse.toNat + f.lsrmt.toNat - old + count ≤ f.lslim.toNat → (∀ x ∈ frames, s.heldRemote src take tid x = false ∧ (s.die (x / 2 ^ 20 / 2)).st = .full) →
        (∃ i < 32768, tget none s.rleases i = none) → Goes go fun u => ∃ (z : State) (id : Nat),
          id < 32768 ∧ tget none s.rleases id = none ∧ (∀ j, tget none z.rleases j = if j = id then some
            ⟨src, take, tid, fn, frames, s.cycle + 2 ^ 24, first, [], []⟩ else (tget none s.rleases j).map fun l =>
              { l with recalled := l.recalled ++ l.again src take tid first count }) ∧
          (∀ x ∈ z.rplots, x ∈ s.rplots ∨ ∃ i, ∃ h : i < frames.length, x = ⟨src, take, tid, fn, off + i, first + i, frames[i]⟩) ∧
          OnlyFn { y with fresh := z.fresh, rleases := z.rleases, rplots := z.rplots } z fn
            { f with lsrmt := f.lsrmt - .ofNat 32 old + .ofNat 32 count } ∧
          u = z.send src clsMem (.leaseGrant take tid id first frames))) ∧
  (∀ take tid lease first frames t p, s.take? take = some t → t.st = .running → (∃ x ∈ t.tensors, x.1 = tid) → p ∈ s.pleases →
    p.take = take → p.tid = tid → p.granted = false → p.first = first → p.count = frames.length → let ten := t.tensor tid
    Goes (exec (.remoteLeaseGrant take tid lease first frames) s) fun u => ∃ v, u.take? take = some v ∧
      { v with tensors := t.tensors, want := t.want } = t ∧
      v.want = (t.want.filter fun y => !(y.1 == tid && first ≤ y.2 && y.2 < first + frames.length)) ∧
      (∀ j, j ≠ take → u.take? j = s.take? j) ∧ (∀ j, j ≠ tid → v.tensor j = t.tensor j) ∧
      (∀ i (h : i < frames.length), (v.tensor tid).entry (first + i) =
        plotEntry ten lease (ten.peerPkg * 2 ^ 28 + 2 ^ 23 + frames[i] % 2 ^ 23)) ∧
      (∀ pl, pl < first ∨ first + frames.length ≤ pl → (v.tensor tid).entry pl = ten.entry pl) ∧
      { v.tensor tid with plots := ten.plots } = ten ∧
      u.pleases = (s.pleases.map fun q => if q.take = take ∧ q.tid = tid ∧ q.granted = false ∧ q.first = first ∧
        q.count = frames.length then { q with granted := true, lease := lease, until_ := s.cycle + 2 ^ 24 } else q) ∧
      u.fn t.fn = { s.fn t.fn with lsuse := (s.fn t.fn).lsuse + if ten.plots = [] then .ofNat 32 ten.lcount else 0 }) ∧
  (∀ pkg lease, let due (p : PLease) : Bool := p.granted && p.pkg == pkg && p.lease == lease && decide (p.until_ ≤ s.cycle + 2 ^ 23)
    let go := exec (.remoteLeaseRenewal pkg lease) s
    ((∀ p ∈ s.pleases, due p = false) → go = .next s) ∧
    let l := s.pleases.map fun p => if due p then { p with until_ := s.cycle + 2 ^ 24 } else p
    ((∃ p ∈ s.pleases, due p = true) → Goes go fun u =>
      u = ({ s with pleases := l } : State).send pkg clsMem (.leaseRenew lease))) ∧
  ∀ lease l, tget none s.rleases lease = some l → let go := exec (.remoteLeaseLapse lease) s
    (s.cycle < l.until_ → go = .next s) ∧
    (l.until_ ≤ s.cycle → Goes go fun u => (∀ j, tget none u.rleases j = if j = lease then none else tget none s.rleases j) ∧
      OnlyFn { s with rleases := u.rleases } u l.fn { s.fn l.fn with
        lsrmt := (s.fn l.fn).lsrmt - .ofNat 32 (l.frames.length - l.recalled.length) })
  ) ∧
  ∀ (s : State),
  (∀ id tid plot t old, let ten := t.tensor tid; let e := ten.entry plot; let go := exec (.leaseRecall id tid plot) s
    let only (u : State) (w : Word) : Prop := ∃ v, u.take? id = some v ∧ (v.tensor tid).entry plot = w ∧
      { v with tensors := t.tensors } = t ∧ (∀ j, j ≠ plot → (v.tensor tid).entry j = ten.entry j) ∧
      (∀ j, j ≠ tid → v.tensor j = t.tensor j) ∧ ∀ j, j ≠ id → u.take? j = s.take? j
    s.take? id = some t → t.st = .running ∨ t.st = .frozen → ten.res < 2 → entryV e = true → ten.place t.fn e (65536 * plot) = .key old →
    (s.zoneHolds old = true → go = .next s) ∧
    ((∀ p ∈ t.places, p.cl < 256) → ∀ new ∈ s.recallStarts t ten old, if isVault new then let st := (s.die (vaultCl new / 64)).st; st = .reduced ∨ st = .full
      else (s.die (hbmStack new / 2)).st = .full) ∧
    (s.zoneHolds old = false → s.recallStarts t ten old ≠ [] →
      (s.holders old = [] → s.errs = [] → (∀ c, (s.cluster c).vbfail = 0) → Goes go fun u => ∃ new ∈ s.recallStarts t ten old,
        only u (plotEntry ten (bits e 54 40) (if isVault new then vaultCl new * 512 + vaultAddr new / 65536
          else hbmStack new * 2 ^ 20 + hbmOff new / 65536)) ∧
        (∀ i < 65536, u.byte (new + i) = s.byte (old + i)) ∧ ∀ a, a < new ∨ new + 65536 ≤ a → u.byte a = s.byte a) ∧
      (∀ x, s.holders old = [x] → x.2.1.asked.contains x.2.2 = false → Goes go fun u => ∃ z, only z (e ||| BitVec.twoPow 64 55) ∧
        (tget none z.rleases x.1 = some { x.2.1 with asked := x.2.1.asked ++ [x.2.2] }) ∧
        (∀ j, j ≠ x.1 → tget none z.rleases j = tget none s.rleases j) ∧ (∀ a, z.byte a = s.byte a) ∧
        u = z.send x.2.1.src clsMem (.recall x.2.1.take x.2.1.tid x.2.2)))) ∧
  (∀ id tid plot t, let ten := t.tensor tid; let e := ten.entry plot; let go := exec (.remoteRecall id tid plot) s
    let gives (u : State) (w : Word) : Prop := ∃ v, OnlyTake s u id v ∧ (v.tensor tid).entry plot = w ∧
      (∀ j, j ≠ plot → (v.tensor tid).entry j = ten.entry j) ∧ { v with tensors := t.tensors } = t ∧ ∀ j, j ≠ tid → v.tensor j = t.tensor j
    s.take? id = some t → ten.res = 3 → entryV e = true →
    let busy := s.reqs.any fun r => r.pkg == ten.peerPkg && r.plots.contains (bits e 54 40, plot)
    (busy = true → Goes go fun u => gives u (e ||| BitVec.twoPow 64 55)) ∧
    (busy = false → Goes go fun u => ∃ z, gives z ((e ||| BitVec.twoPow 64 55) &&& ~~~ BitVec.twoPow 64 63) ∧
      u = z.send ten.peerPkg clsMem (.recallAck (bits e 54 40) plot))) ∧
  ∀ lease plot l, tget none s.rleases lease = some l → let go := exec (.recallAck lease plot) s
    (plot ∈ l.recalled → go = .next s) ∧
    (plot ∉ l.recalled → Goes go fun u =>
      (∀ j, tget none u.rleases j = if j = lease then some { l with recalled := l.recalled ++ [plot] } else tget none s.rleases j) ∧
      OnlyFn { s with rleases := u.rleases } u l.fn { s.fn l.fn with lsrmt := (s.fn l.fn).lsrmt - 1 })

/-- R316, R362, R363, R367, R381, R382: a released stage manager carries out the command that its mailbox runs: it answers in
RES and the arguments, LCMD names the command, and BUSY clears. SETFN gives a function that holds no take its limit, clusters
and pool, in frames of each stack that no other function's pool holds. A die leaves its self-test REDUCED or FAILED, and is
FULL once its HBM is trained. (Which RES code a refused command gets is the model's where R382 names none: log 26.) -/
def Obligations.StageCommands : Prop :=
  ∀ (s : State) (die : Nat), let d := s.die die; let b := d.box; let arg (i : Nat) : Word := b.args.toList.getD i 0
  let done (res : BitVec 8) (out : List Word) (d : Die) : Die := { d with box := { d.box with
    args := Vector.ofFn fun (i : Fin 8) => out.getD i.val d.box.args[i], busy := false, res := res, lcmd := d.box.cmd } }
  let runs (n : BitVec 8) : Prop := d.st ≠ .reset ∧ b.busy = true ∧ b.cmd = n
  let answers (i : Instr) (res : BitVec 8) (out : List Word) : Prop := Goes (exec i s) fun u => OnlyDie s u die (done res out d)
  let take := s.take? (arg 0).toNat
  (runs 1 → (take = none ∨ (∃ t, take = some t ∧ t.tensors.find? (fun y => y.1 == (arg 1).toNat) = none) →
      answers (.readplot die) 2 []) ∧
    ∀ t x, take = some t → t.tensors.find? (fun y => y.1 == (arg 1).toNat) = some x →
      ((arg 2).toNat < x.2.np → answers (.readplot die) 0 [x.2.entry (arg 2).toNat]) ∧
      (x.2.np ≤ (arg 2).toNat → answers (.readplot die) 2 [])) ∧
  (runs 2 → let fn := 32 * bits (arg 0) 4 4 + bits (arg 0) 3 0; let psz := (arg 2).toNat; let n := 2 ^ (psz - 3) / 65536
    let set (u : State) (l : List (BitVec 20)) : Prop := ∃ y, OnlyFn s y fn { s.fn fn with
        lslim := (arg 1).setWidth 32, psz := .ofNat 8 psz, pbase := l
        clset := .ofNat 256 ((arg 3).toNat + (arg 4).toNat * 2 ^ 64 + (arg 5).toNat * 2 ^ 128 + (arg 6).toNat * 2 ^ 192) } ∧
      OnlyDie y { u with fresh := s.fresh } die (done 0 ((List.range 8).map fun i => (l.getD i 0).setWidth 64) d)
    ((∃ t ∈ s.takes, t.fn = fn) → answers (.setfn die) 4 []) ∧
    ((∀ t ∈ s.takes, t.fn ≠ fn) →
      (psz ≠ 0 → psz < 30 ∨ 36 < psz → answers (.setfn die) 2 []) ∧
      (psz = 0 → Goes (exec (.setfn die) s) fun u => set u []) ∧
      (30 ≤ psz → psz ≤ 36 → s.chooseBases fn psz = none → Goes (exec (.setfn die) s) fun u =>
        OnlyDie s { u with fresh := s.fresh } die (done 2 [] d)) ∧
      ∀ l, 30 ≤ psz → psz ≤ 36 → s.chooseBases fn psz = some l → (Goes (exec (.setfn die) s) fun u => set u l) ∧
        l.length = 8 ∧ ∀ i (h : i < l.length), l[i].toNat + n ≤ 786432 ∧
          ∀ j c, j ≠ fn → 30 ≤ (s.fn j).psz.toNat → (s.fn j).pbase[i]? = some c →
            l[i].toNat + n ≤ c.toNat ∨ c.toNat + 2 ^ ((s.fn j).psz.toNat - 3) / 65536 ≤ l[i].toNat)) ∧
  (runs 3 → (take = none → answers (.recall die) 2 []) ∧
    ∀ t, take = some t → let ten := t.tensor (arg 1).toNat; let pl := (arg 2).toNat
      let placed := t.st = .running ∨ t.st = .frozen ∨ t.st = .ending
      (¬ placed → answers (.recall die) 4 []) ∧
      (placed → 2 ≤ ten.res ∨ entryV (ten.entry pl) = false → answers (.recall die) 2 []) ∧
      (placed → ten.res < 2 → entryV (ten.entry pl) = true → Goes (exec (.recall die) s) fun u => ∃ y,
        exec (.leaseRecall t.id (arg 1).toNat pl) s = .next y ∧ OnlyDie y u die (done 0 [] (y.die die)))) ∧
  (runs 4 → (take = none → answers (.takest die) 2 []) ∧ ∀ t, take = some t → answers (.takest die) 0 [match t.st with
    | .queued => 0 | .ready => 1 | .running => 2 | .frozen => 3 | .saved => 4 | .ending => 5]) ∧
  (∀ ok, d.st = .selftest → Goes (exec (.selftestDone die ok) s) fun u =>
    OnlyDie s u die { d with st := if ok then .reduced else .failed }) ∧
  (d.st = .reduced → Goes (exec (.hbmTrained die) s) fun u =>
    OnlyDie { s with agenda := s.agenda ++ [.dev (.clockSourceChange die)] } u die { d with st := .full })

/-- R382 to R385: the boot begins with the key set, measured in MREG0. The image of the phase is released, measured in its
register, and the next phase begins, or the boot stops with its cause; with the last image every die begins its self-test.
The root steward's mailbox loads the key set that the boot begins with and then images, extends a measurement register from
5 to 7 with 48 bytes, as a released stage manager's digest does, and writes a quote: 16 bytes, the eight registers, the
nonce, and the signatures. Whether a signature verifies, and the signatures' bytes, are free values; the layout of the quote
and RES codes that R382 does not name are the model's (log 12, 26, 27). -/
def Obligations.Boot : Prop :=
  ∀ (s : State), let w := s.steward; let b := w.box; let arg (i : Nat) : Word := b.args.toList.getD i 0
  let done (res : BitVec 8) (out : List Word) (b : Mailbox) : Mailbox := { b with
    args := Vector.ofFn fun (i : Fin 8) => out.getD i.val b.args[i], busy := false, res := res, lcmd := b.cmd }
  let answers (y u : State) (res : BitVec 8) (out : List Word) : Prop :=
    u = { y with steward := { y.steward with box := done res out y.steward.box } }
  let reads (r : Word) (n : Nat) (l : List Byte) : Prop := let runs := s.refRuns b.fn r 0 n
    (∀ x ∈ runs, s.readBad x.1 x.2 = false ∧ s.readCorrects x.1 x.2 = false) ∧ l = runs.flatMap fun x => s.peek x.1 x.2
  let aborted (r : Word) (n : Nat) : Prop := ∃ x ∈ s.refRuns b.fn r 0 n, s.readBad x.1 x.2 = true
  let mreg (i : Nat) (x : BitVec 384) : Vector (BitVec 384) 8 := Vector.ofFn fun (j : Fin 8) => if j.val = i then x else w.mreg[j]
  let old (i : Nat) : BitVec 384 := w.mreg.toList.getD i 0
  (∀ k, w.phase = 0 → Goes (exec (.imageSupply (.keySet k)) s) fun u =>
    u = { s with steward := { w with mreg := mreg 0 (extendMreg (old 0) (sha384 k)), keys := k, phase := 1 } }) ∧
  (∀ i d, 5 ≤ i → i ≤ 7 → (∃ j, (s.die j).st ≠ .reset) → Goes (exec (.imageSupply (.digest i d)) s) fun u =>
    u = { s with steward := { w with mreg := mreg i (extendMreg (old i) (mregBytes d)) } }) ∧
  (∀ im, 1 ≤ w.phase.toNat → w.phase.toNat ≤ 4 →
    let bad (n : BitVec 4) : State := { s with steward := { w with phase := 15, fcause := n } }
    let go := exec (.imageSupply (.image im)) s
    let rsa := Config.rsaVerifies w.keys im; let slh := Config.slhVerifies w.keys im
    (Config.imageWellFormed im = false → go = .next (bad 4)) ∧
    (Config.imageWellFormed im = true → (Config.keyInSet w.keys im = false → go = .next (bad 5)) ∧
      (Config.keyInSet w.keys im = true →
        (rsa = false → slh = true → go = .next (bad 1)) ∧ (rsa = true → slh = false → go = .next (bad 2)) ∧
        (rsa = false → slh = false → go = .next (bad 3)) ∧
        (rsa = true → slh = true → Goes go fun u =>
          u.steward = { w with mreg := mreg w.phase.toNat (extendMreg (old w.phase.toNat) (sha384 im)), phase := w.phase + 1 } ∧
          { u with steward := w, dies := s.dies } = s ∧
          ∀ d, u.die d = if w.phase = 4 ∧ d < 4 then { s.die d with st := .selftest } else s.die d)))) ∧
  (b.busy = true → b.cmd = 0x10 →
    (4 < w.phase.toNat → Goes (exec .loadimg s) fun u => answers s u 4 []) ∧
    (w.phase.toNat ≤ 4 → arg 0 = 0 ∨ s.refKey b.fn (arg 0) = none → Goes (exec .loadimg s) fun u => answers s u 2 []) ∧
    (w.phase.toNat ≤ 4 → arg 0 ≠ 0 → s.refKey b.fn (arg 0) ≠ none → aborted (arg 0) (arg 1).toNat →
      Goes (exec .loadimg s) fun u => ∃ y : State, y.steward = w ∧ answers y u 2 []) ∧
    ∀ im, w.phase.toNat ≤ 4 → arg 0 ≠ 0 → s.refKey b.fn (arg 0) ≠ none → reads (arg 0) (arg 1).toNat im →
      Goes (exec .loadimg s) fun u => ∃ z, exec (.imageSupply (if w.phase = 0 then .keySet im else .image im)) s = .next z ∧
        answers z u (if z.steward.phase = 15 then 3 else 0) []) ∧
  (b.busy = true → b.cmd = 0x11 → ∀ nonce key, arg 0 ≠ 0 → arg 1 ≠ 0 → s.refKey b.fn (arg 0) ≠ none → s.refKey b.fn (arg 1) ≠ none →
    reads (arg 0) 32 nonce → nonce.length = 32 → s.refRuns b.fn (arg 1) 0 17040 = [(key, 17040)] →
    Goes (exec .quote s) fun u => ∃ z, answers z u 0 [17040] ∧ ∃ head sigs, head.length = 16 ∧ sigs.length = 16608 ∧
      Stores s z key (head ++ w.mreg.toList.flatMap mregBytes ++ nonce ++ sigs)) ∧
  (b.busy = true → b.cmd = 0x12 →
    ((arg 0).toNat < 5 ∨ 7 < (arg 0).toNat → Goes (exec .extend s) fun u => answers s u 2 []) ∧
    ∀ d, 5 ≤ (arg 0).toNat → (arg 0).toNat ≤ 7 → arg 1 ≠ 0 → s.refKey b.fn (arg 1) ≠ none → reads (arg 1) 48 d →
      Goes (exec .extend s) fun u => answers { s with steward := { w with
        mreg := mreg (arg 0).toNat (extendMreg (old (arg 0).toNat) d) } } u 0 [])

/-! ### The host and the links -/

/-- R7, R294, R321, R329, R332, R360, R361, R364, R365, R386: a write of BAR0 acts as the block of its offset says: an event
register makes its event; a register that the host owns takes the value; LSLIM takes it from firmware only; W1C bits clear. A
virtual function reaches no block beyond its own, and what no table lists ignores the write. A write or read of the window is
performed at the pool's memory, or ends as an Unsupported Request, as every AtomicOp does. Unmasking a vector sends what is
pending. TAKECTL ignores a write narrower than 64 bits. A BAR register holds the address bits above its BAR's size, and an
unused one reads 0. (What a narrower write of another register does is the model's, and the layouts of the MSI-X table and of a
BAR register's low bits are presumed: log 6, 28.) -/
def Obligations.HostAccess : Prop :=
  ∀ (s : State) (fn : Nat) (v : Word) (fw : Bool), let f := s.fn fn; let n := v.toNat; let low := n % 2 ^ 32
  let go (off : Nat) := exec (.registerWrite fn off ⟨8, v⟩ fw) s
  let same (off : Nat) (i : Instr) : Prop := go off = exec i s
  let becomes (off : Nat) (g : Fn) : Prop := Goes (go off) fun u => OnlyFn s u fn g
  (¬ (fn < 64 ∧ fn % 32 < 16) → ∀ off, go off = .next s) ∧
  (∀ off k, 0x220 ≤ off → off < 0x228 → k < 8 → exec (.registerWrite fn off ⟨k, v⟩ fw) s = .next s) ∧
  (fn < 64 → fn % 32 < 16 → let reg := (s.barRegWrite fn 0 (v.setWidth 32)).barReg fn
    reg 0 = (v.setWidth 32 &&& ~~~ .ofNat 32 ((if fn % 32 = 0 then 2 ^ 26 else 2 ^ 16) - 1)) ||| 4 ∧
    (∀ i, 4 ≤ i → reg i = 0) ∧ (f.psz.toNat < 30 → reg 2 = 0 ∧ reg 3 = 0)) ∧
  (fn < 64 → fn % 32 < 16 →
    same 0x000 (.launch fn v) ∧ same 0x008 (.cancel fn low) ∧ same 0x228 (.frel fn low) ∧
    (n / 2 ^ 62 = 1 → same 0x220 (.takectlResume fn low)) ∧ (n / 2 ^ 62 = 2 → same 0x220 (.takectlAbort fn low)) ∧
    (n / 2 ^ 62 = 0 ∨ n / 2 ^ 62 = 3 → go 0x220 = .next s) ∧
    becomes 0x018 (if 2 ^ 63 ≤ n then { f with badw := false } else f) ∧
    becomes 0x100 (if fw then { f with lslim := .ofNat 32 n } else f) ∧
    becomes 0x200 { f with evbase := v } ∧
    becomes 0x208 { f with esz := .ofNat 4 (min 8 (n / 2 ^ 32 % 16)), evvec := .ofNat 16 n } ∧
    becomes 0x218 { f with evtail := .ofNat 32 n } ∧
    becomes 0x230 (if 2 ^ 63 ≤ n then { f with lost := false, lcnt := 0 } else f) ∧
    (∀ off, off ∈ [0x010, 0x108, 0x210, 0x300, 0x320, 0x2000, 0x400, 0x3000] → go off = .next s) ∧
    (fn % 32 ≠ 0 → ∀ off, 0x10000 ≤ off → go off = .next s) ∧
    (fn % 32 = 0 →
      (∀ d < 4, (∀ i < 32, same (0x20200 + 0x10000 * d + 8 * i) (.vreqWrite (32 * d + i) v)) ∧
        (fw = false → go (0x20010 + 0x10000 * d) = .next s)) ∧
      same 0x60008 .peakClear ∧ Goes (go 0x60000) (fun u => u = { s with pkglim := .ofNat 16 (min 1800 (n % 2 ^ 16)) }) ∧
      (∀ c < 256, same (0x1000500 + 0x10000 * c) (.verrClear c v) ∧
        (fw = true → same (0x1000508 + 0x10000 * c) (.vbfailWrite c v)) ∧ (fw = false → go (0x1000508 + 0x10000 * c) = .next s)) ∧
      (fw = true → same 0x100000 (.svdomWrite v) ∧ ∀ i < 4096, same (0x108000 + 8 * i) (.svrtWrite i v)) ∧
      (fw = true → ∀ p < 48, n / 2 ^ 62 % 2 = 0 → same (0x100800 + 8 * p) (.svctlEn p (decide (2 ^ 63 ≤ n)))) ∧
      (fw = false → ∀ off, 0x100800 ≤ off → off < 0x110000 → go off = .next s))) ∧
  (∀ off bytes, let act := exec (.windowWrite fn off bytes) s
    (s.windowRuns fn off bytes.length = none → act = .next (s.emit (.unsupported fn))) ∧
    ∀ a, s.windowRuns fn off bytes.length = some [(a, bytes.length)] → s.writeBad a bytes.length = false →
      Goes act fun u => Stores s u a bytes) ∧
  (∀ off len, let act := exec (.windowRead fn off len) s
    (s.windowRuns fn off len = none → act = .next (s.emit (.unsupported fn))) ∧
    ∀ a, s.windowRuns fn off len = some [(a, len)] →
      (s.readBad a len = false → Goes act fun u => ∃ y : State, u = y.emit (.readData fn (s.peek a len)) ∧
        { y with clusters := s.clusters } = s ∧ (s.readCorrects a len = false → y = s)) ∧
      (s.readBad a len = true → Goes act fun u => ∃ y : State, y.takes = s.takes ∧ u = y.emit (.readAbort fn))) ∧
  (∀ bar off, exec (.barAtomicop fn bar off) s = .next (s.emit (.unsupported fn))) ∧
  ∀ vec, vec < 64 → let x : Fn := { f with msixMask := setBit f.msixMask vec false }
    (f.msixPend.getLsbD vec = false → Goes (exec (.msixUnmask fn vec) s) fun u => OnlyFn s u fn x) ∧
    (f.msixPend.getLsbD vec = true → Goes (exec (.msixUnmask fn vec) s) fun u => ∃ y,
      OnlyFn s y fn { x with msixPend := setBit f.msixPend vec false } ∧ u = y.emit (.msix fn vec))

/-- R175, R247, R250, R264, R265, R324, R352, R353, R358: a flit is taken only on a port that is UP, passes its check, and
in the sequence of its package and class; with its last flit a message reaches its agent, reservations and arrivals of one
cycle in the order of their senders, and what a flit acknowledges leaves the retry buffer. A completion ends the oldest
request of its requester, and is discarded where the requester has given it up. A flit that fails its check is asked for
again, and the flits asked for are sent again and counted; when 8 sends of one flit in a row fail the port goes DOWN. A port
sends MGMT first, and LAND and MEM in turn. A request from another package is performed under its lease, or answered with an
abort; an error that it meets is detected here, and its event is the source's (R331). (How a message is cut into flits,
which class has credits, acknowledgements only in flits the other way, and how a sender learns that a send has passed are
the model's: log 21.)
R354 to R357, R359, R381: a port that fails is DOWN without lanes, counted in DOWNS; firmware's EN starts its training or
disables it; training that succeeds on two or four lanes brings it UP, where its die is FULL. Each change of a port, and
each package that becomes reachable or unreachable, is recorded in SVEVT where no record stands. A changed route moves what
is pinned to a lost port to another that is UP. A route that leaves a package no UP port makes it unreachable: its flits and
leases are forgotten and its plots lose V. SVDOM is written until it is locked. -/
def Obligations.Links : Prop :=
  (
  ∀ (s : State),
  (∀ port pkg cls seq ack (ok : Bool) (m : Payload), let go := exec (.flitReceive port pkg cls seq ack ok m) s
    let ix := 4 * pkg + cls; let x := s.pin ix
    let kept := x.retry.filter fun y => decide (ack ≤ y.1)
    let pinned (y u : State) (p : Pin) : Prop := u.pin ix = p ∧ (∀ j, j ≠ ix → u.pin j = y.pin j) ∧
      (∀ j, { u.svport j with fails := (y.svport j).fails } = y.svport j) ∧ { u with pins := y.pins, svports := y.svports } = y
    let q := s.svport port; let at' := 2 * (2 ^ 14 * seq + ix); let n := tget 0 q.fails at' + 1
    let passes (u : State) : Prop := ∀ j, j % 2 = 0 → tget 0 (u.svport port).fails j = if j = at' then 0 else tget 0 q.fails j
    (q.st ≠ .up → go = .next s) ∧
    (q.st = .up →
      (ok = false → (n < 8 → Goes go fun u =>
          u.outbox = s.outbox ++ [.errorIrq (port / 12), .resend port pkg cls seq] ∧
          u.svport port = { q with fails := tput 0 q.fails at' n } ∧ (∀ j, j ≠ port → u.svport j = s.svport j) ∧
          { u with outbox := s.outbox, svports := s.svports } = s) ∧
        (8 ≤ n → s.routesOver port = [] → Goes go fun u =>
          u.svport port = { q with st := .down, lanes := 0, sendq := [], fails := [], downs := satInc q.downs } ∧
          (∀ j, j ≠ port → u.svport j = s.svport j) ∧
          { u with svports := s.svports, svevt := s.svevt, fns := s.fns, outbox := s.outbox } = s)) ∧
      (ok = true → seq ≠ x.rcv → Goes go fun u => pinned s u { x with retry := kept } ∧ passes u) ∧
      (ok = true → seq = x.rcv → m.part + 1 ≠ m.parts → Goes go fun u => pinned s u { x with retry := kept, rcv := x.rcv + 1 } ∧ passes u) ∧
      (ok = true → seq = x.rcv → m.part + 1 = m.parts →
        let came (y : State) : Prop := pinned s y { x with retry := kept, rcv := x.rcv + 1 }
        (∀ i, (m.msg, i) ∈ (match m.msg with
            | .rsvReply cl k code size => [(m.msg, some (.reservationReply cl k code size))]
            | .rel cl z slot snd => [(m.msg, some (.releaseMessage cl z slot snd))]
            | .landAck cl take e r => [(m.msg, some (.landingAck cl take e r))]
            | .leaseAsk take tid fn off first count => [(m.msg, some (.remoteLeaseRequest pkg take tid fn off first count))]
            | .leaseGrant take tid lease first frames => [(m.msg, some (.remoteLeaseGrant take tid lease first frames))]
            | .recall take tid plot => [(m.msg, some (.remoteRecall take tid plot))]
            | .recallAck lease plot => [(m.msg, some (.recallAck lease plot))]
            | .mgmt _ => [(m.msg, none)]
            | _ => [] : List (LinkMsg × Option Instr)) →
          Goes go fun u => ∃ y, came y ∧ u = { y with agenda := y.agenda ++ (i.map Turn.dev).toList }) ∧
        (∀ cl z snd k, m.msg = .rsv cl z snd k → Goes go fun u => ∃ y a b, came y ∧ y.agenda = a ++ b ∧
          u = { y with agenda := a ++ .dev (.reservationRequest cl z snd k) :: b } ∧
          (∀ o j, .dev (.reservationRequest cl z o j) ∈ a → o.pkg < snd.pkg ∨ o.pkg = snd.pkg ∧ o.cl ≤ snd.cl) ∧
          (b = [] ∨ ∃ o j c, b = .dev (.reservationRequest cl z o j) :: c ∧ (snd.pkg < o.pkg ∨ snd.pkg = o.pkg ∧ snd.cl < o.cl))) ∧
        (∀ cl z slot snd take e off d last, m.msg = .land cl z slot snd take e off d last → Goes go fun u => ∃ y a b, came y ∧
          y.agenda = a ++ b ∧ u = { y with agenda := a ++ .dev (.landingArrival cl z slot snd take e off d last) :: b } ∧
          (∀ sl o t v w l f, .dev (.landingArrival cl z sl o t v w l f) ∈ a → o.pkg < snd.pkg ∨ o.pkg = snd.pkg ∧ o.cl ≤ snd.cl) ∧
          (b = [] ∨ ∃ sl o t v w l f c, b = .dev (.landingArrival cl z sl o t v w l f) :: c ∧
            (snd.pkg < o.pkg ∨ snd.pkg = o.pkg ∧ snd.cl < o.cl))) ∧
        (∀ rq lease off req, m.msg = .mem rq lease off req → Goes go fun u => ∃ y a b, came y ∧ y.agenda = a ++ b ∧
          u = { y with agenda := a ++ .dev (.remoteAccessRequest pkg rq lease off req) :: b }) ∧
        ∀ rq rep ue, m.msg = .memReply rq rep ue →
          ((∀ r ∈ s.reqs, ¬ (r.pkg = pkg ∧ r.rq = rq)) → Goes go came) ∧
          ∀ a r b, s.reqs = a ++ r :: b → r.pkg = pkg → r.rq = rq → (∀ z ∈ a, ¬ (z.pkg = pkg ∧ z.rq = rq)) →
            let left (y : State) : State := { y with reqs := a ++ b }
            -- the error met there is the source's event; that of a stamp's write raises the error interrupt here, too (R241)
            let heard (y : State) : State := match ue with
              | some w => (left y).ueEvent (reqCl rq) ((left y).reqTake rq) w
              | none => left y
            (rep ≠ .abort ∨ s.stamping rq = false → r.stale = true → Goes go fun u => ∃ y, came y ∧ u = heard y) ∧
            (rep = .abort → r.stale = false → s.stamping rq = false → Goes go fun u => ∃ y, came y ∧ u = (heard y).abortReq r.wr rq) ∧
            (rep = .abort → r.stale = false → s.stamping rq = true → Goes go fun u => ∃ y, came y ∧
              u = ((left y).detectReq rq (ue.getD (.ofNat 64 (2 ^ 63)))).abortReq r.wr rq) ∧
            ∀ cl k d, r.stale = false → rep = .data d → rq = .cueLoad cl k → ue = none → Goes go fun u => ∃ y, came y ∧
              u = { y with reqs := a ++ b, agenda := y.agenda ++ [.dev (.loadReply cl k d)] }))) ∧
  (∀ port pkg cls seq p, let x := s.pin (4 * pkg + cls); let at' := 2 * (2 ^ 14 * seq + (4 * pkg + cls)) + 1; x.port = some p →
    let v := tget 0 (s.svport port).fails at'; let n := (if v / 16 ≤ 1 then v % 16 else 0) + 1; let was := s.svport port
    let l := x.retry.filter fun y => decide (seq ≤ y.1) || s.svports.any fun q => q.2.sendq.any fun f =>
      f.pkg == pkg && f.cls == cls && f.seq == y.1
    (8 ≤ n → was.st = .up → s.routesOver port = [] → Goes (exec (.resendRequest port pkg cls seq) s) fun u =>
      u.svport port = { was with st := .down, lanes := 0, sendq := [], fails := [], downs := satInc was.downs } ∧
      (∀ j, j ≠ port → u.svport j = s.svport j) ∧ { u with svports := s.svports, svevt := s.svevt, fns := s.fns, outbox := s.outbox } = s) ∧
    (n < 8 → Goes (exec (.resendRequest port pkg cls seq) s) fun u => (u.svport port).fails = tput 0 was.fails at' n ∧
      (∀ j, let q := s.svport j; let left := q.sendq.filter fun f => f.pkg != pkg || f.cls != cls
        { u.svport j with fails := q.fails } = if j = p then { q with sendq := left ++ l.map fun y => ⟨pkg, cls, y.1, y.2⟩ }
          else { q with sendq := left }) ∧ { u with svports := s.svports } = s)) ∧
  (∀ port (f : QFlit), let x := s.pin (4 * f.pkg + f.cls); let q := s.svport port; let u := s.putFlit port f
    let at' := 2 * (2 ^ 14 * f.seq + (4 * f.pkg + f.cls)) + 1; let v := tget 0 q.fails at'
    u.svport port = { q with
      -- another send of a flit that has failed before
      fails := if v = 0 then q.fails else tput 0 q.fails at' (v + 16)
      sendq := q.sendq.erase f, rsnd := if f.seq < x.out then satInc q.rsnd else q.rsnd
      lastMem := if f.cls = clsMgmt then q.lastMem else f.cls == clsMem } ∧ (∀ j, j ≠ port → u.svport j = s.svport j) ∧
    u.pin (4 * f.pkg + f.cls) = { x with out := max x.out (f.seq + 1) } ∧
    (∀ j, j ≠ 4 * f.pkg + f.cls → u.pin j = s.pin j) ∧
    { u with svports := s.svports, pins := s.pins } =
      { s with outbox := s.outbox ++ [.flit port f.pkg s.pkgId.toNat f.cls f.seq x.rcv f.load] }) ∧
  (∀ (x : SvPort) (credit : Nat → Bool) (f : QFlit), x.pick credit = some f →
    credit f.cls = true ∧ x.sendq.find? (fun y => y.cls == f.cls) = some f ∧
    (credit clsMgmt = true → (∃ y ∈ x.sendq, y.cls = clsMgmt) → f.cls = clsMgmt) ∧
    (credit clsLand = true → credit clsMem = true → (∃ y ∈ x.sendq, y.cls = clsLand) → (∃ y ∈ x.sendq, y.cls = clsMem) →
      f.cls ≠ clsMgmt → f.cls = if x.lastMem then clsLand else clsMem)) ∧
  ∀ src rq lease off req, let go := exec (.remoteAccessRequest src rq lease off req) s
    let refused := Goes go fun u => u = s.send src clsMem (.memReply rq .abort none)
    ((∀ l, req ≠ .tile l) → (∀ l, tget none s.rleases lease = some l → l.src ≠ src ∨ l.until_ ≤ s.cycle ∨ off / 65536 ∈ l.recalled) →
      refused) ∧
    (∀ l x, req = .tile l → x ∈ l → s.remoteKey src x.lease x.off x.n = none → refused) ∧
    ∀ l f n, tget none s.rleases lease = some l → l.src = src → s.cycle < l.until_ → l.first ≤ off / 65536 → off / 65536 ∉ l.recalled →
      off % 65536 + n ≤ 65536 → l.frames[off / 65536 - l.first]? = some f → let a := hbmFrameKey f + off % 65536
      let found (u : State) : Prop := ∃ y : State, y.takes = s.takes ∧ (∃ o, y.outbox = s.outbox ++ .errorIrq (errDie a) :: o) ∧
        u = y.send src clsMem (.memReply rq .abort (some (ueInfo s a n)))
      (req = .read n → s.readBad a n = false → Goes go fun u => ∃ y : State,
        u = y.send src clsMem (.memReply rq (.data (s.peek a n)) none) ∧ { y with clusters := s.clusters } = s ∧
        (s.readCorrects a n = false → y = s)) ∧
      (req = .read n → s.readBad a n = true → Goes go found) ∧
      ∀ b, req = .write b → b.length = n →
        (s.writeBad a n = false → Goes go fun u => ∃ y, Stores s y a b ∧ u = y.send src clsMem (.memReply rq .ack none)) ∧
        (s.writeBad a n = true → Goes go found)
  ) ∧
  (
  ∀ (s : State) (p : Nat), let x := s.svport p; let full := (s.die (p / 12)).st = .full
  let event (kind port pkg : Nat) : Word := if 2 ^ 63 ≤ s.svevt.toNat then s.svevt else
    .ofNat 64 (2 ^ 63 + kind * 2 ^ 60 + port % 64 * 2 ^ 54 + pkg % 4096 * 2 ^ 42)
  let becomes (u : State) (y : SvPort) (e : Word) : Prop := u.svport p = y ∧ (∀ j, j ≠ p → u.svport j = s.svport j) ∧
    u.svevt = e ∧ { u with svports := s.svports, svevt := s.svevt, fns := s.fns, outbox := s.outbox } = s
  (s.routesOver p = [] →
    (∀ i ∈ ([.portDown p, .svctlDown p] : List Instr),
      (x.st = .disabled ∨ x.st = .down → exec i s = .next s) ∧
      (x.st = .training ∨ x.st = .up → Goes (exec i s) fun u =>
        becomes u { x with st := .down, lanes := 0, sendq := [], fails := [], downs := satInc x.downs } (event 1 p 0))) ∧
    (∀ lanes pp pt, x.en = true → x.st ≠ .up → lanes = 2 ∨ lanes = 4 → full → Goes (exec (.portUp p lanes pp pt) s) fun u =>
      becomes u { x with st := .up, lanes := .ofNat 3 lanes, ppkg := .ofNat 12 pp, pport := .ofNat 6 pt } (event 2 p 0)) ∧
    (∀ lanes pp pt, ¬ full → exec (.portUp p lanes pp pt) s = .next s) ∧
    (x.en = false → (full → Goes (exec (.svctlEn p true) s) fun u => becomes u { x with en := true, st := .training } s.svevt) ∧
      (¬ full → Goes (exec (.svctlEn p true) s) fun u => becomes u { x with en := true, st := .down } s.svevt)) ∧
    (x.en = true → Goes (exec (.svctlEn p true) s) fun u => becomes u x s.svevt) ∧
    Goes (exec (.svctlEn p false) s) fun u =>
      becomes u { x with en := false, st := .disabled, lanes := 0, sendq := [], fails := [] } s.svevt) ∧
  (∀ i m, let go := exec (.svrtWrite i m) s
    let routed (u : State) : Prop := ∀ j, tget 0 u.routes j = if j = i then m.setWidth 48 else tget 0 s.routes j
    let up := (List.range 48).filter fun q => m.getLsbD q && (s.svport q).st == .up
    let port (c : Nat) := (s.pin (4 * i + c)).port
    Goes go routed ∧
    (i = s.pkgId.toNat ∨ up = [] ∧ i ∉ s.reach → Goes go fun u => { u with routes := s.routes } = s) ∧
    (i ≠ s.pkgId.toNat → i ∈ s.reach → up ≠ [] →
      ((∀ c < 3, ∀ q, port c = some q → q ∈ up) → Goes go fun u => { u with routes := s.routes } = s) ∧
      Goes go fun u => ∀ c < 3, let y := s.pin (4 * i + c); let v := u.pin (4 * i + c)
        { v with port := y.port } = y ∧ ∀ q, port c = some q → q ∉ up → ∃ r ∈ up, v.port = some r ∧
          (u.svport r).sendq.filter (fun f => f.pkg == i && f.cls == c) = y.retry.map fun z => ⟨i, c, z.1, z.2⟩) ∧
    (i ≠ s.pkgId.toNat → up ≠ [] → i ∉ s.reach → Goes go fun u => u.reach = s.reach ++ [i] ∧ u.svevt = event 4 0 i ∧
      { u with routes := s.routes, reach := s.reach, svevt := s.svevt, fns := s.fns, outbox := s.outbox } = s) ∧
    (i ≠ s.pkgId.toNat → up = [] → i ∈ s.reach → Goes go fun u => i ∉ u.reach ∧ u.svevt = event 3 0 i ∧
      (∀ c < 3, u.pin (4 * i + c) = {}) ∧ (∀ q ∈ u.pleases, q.pkg ≠ i) ∧ (∀ r ∈ u.reqs, r.pkg ≠ i) ∧
      ∀ id t, s.take? id = some t → ∃ v, u.take? id = some v ∧ v.st = t.st ∧ ∀ y ∈ v.tensors,
        y.2.res = 3 → y.2.peerPkg = i → ∀ n, entryV (y.2.entry n) = false)) ∧
  ∀ v, Goes (exec (.svdomWrite v) s) fun u => u = { s with
    pkgId := if s.svLock then s.pkgId else .ofNat 12 v.toNat, svLock := s.svLock || v.getLsbD 63 }
  )
end

