-- ==== Sys2Proof/Laws/Table.lean ====
section
/-! SUPPORT. Tables: reading after writing, and the canonical form. -/

namespace Sys2Proof.Machine

variable {α : Type}

@[simp] theorem tget_nil (d : α) (k : Nat) : tget d [] k = d := rfl

theorem tget_tdel_same (d : α) (k : Nat) (t : Table α) : tget d (tdel k t) k = d := by
  induction t with
  | nil => rfl
  | cons x t ih => obtain ⟨j, v⟩ := x; by_cases h : j = k <;> simp [tdel, tget, h, ih]

theorem tget_tdel_other (d : α) {k j : Nat} (h : j ≠ k) (t : Table α) : tget d (tdel k t) j = tget d t j := by
  induction t with
  | nil => rfl
  | cons x t ih =>
    obtain ⟨i, v⟩ := x
    by_cases hi : i = k
    · have : i ≠ j := fun e => h (e ▸ hi)
      simp [tdel, tget, hi, ih]
      intro e; exact absurd e.symm h
    · simp [tdel, tget, hi, ih]

theorem tget_tins_other (d v : α) {k j : Nat} (h : j ≠ k) (t : Table α) : tget d (tins k v t) j = tget d t j := by
  induction t with
  | nil => simp [tins, tget, Ne.symm h]
  | cons x t ih =>
    obtain ⟨i, w⟩ := x
    by_cases hi : k < i <;> simp [tins, tget, hi, ih, Ne.symm h]

theorem tget_tins_same (d v : α) (k : Nat) (t : Table α) (h : ∀ x ∈ t, x.1 ≠ k) : tget d (tins k v t) k = v := by
  induction t with
  | nil => simp [tins, tget]
  | cons x t ih =>
    obtain ⟨i, w⟩ := x
    have hi : i ≠ k := h _ List.mem_cons_self
    by_cases hk : k < i
    · simp [tins, tget, hk]
    · simp [tins, tget, hk, hi, ih fun y hy => h y (List.mem_cons_of_mem _ hy)]

theorem tdel_ne (k : Nat) (t : Table α) : ∀ x ∈ tdel k t, x.1 ≠ k := by
  induction t with
  | nil => simp [tdel]
  | cons x t ih =>
    obtain ⟨j, v⟩ := x
    by_cases h : j = k
    · simpa [tdel, h] using ih
    · intro y hy
      simp only [tdel, if_neg h, List.mem_cons] at hy
      rcases hy with rfl | hy
      · exact h
      · exact ih y hy

/-- Every number of a table is above a bound. -/
def Table.above (n : Nat) (t : Table α) : Prop := ∀ x ∈ t, n < x.1

theorem Table.above_mono {m n : Nat} (h : m ≤ n) {t : Table α} (ht : Table.above n t) : Table.above m t :=
  fun x hx => Nat.lt_of_le_of_lt h (ht x hx)

theorem Table.above_tdel {n k : Nat} {t : Table α} (h : Table.above n t) : Table.above n (tdel k t) := by
  induction t with
  | nil => simpa [tdel] using h
  | cons x t ih =>
    obtain ⟨j, v⟩ := x
    have h' : Table.above n t := fun y hy => h y (List.mem_cons_of_mem _ hy)
    by_cases hj : j = k
    · simpa [tdel, hj] using ih h'
    · intro y hy
      simp only [tdel, if_neg hj, List.mem_cons] at hy
      rcases hy with rfl | hy
      · exact h _ List.mem_cons_self
      · exact ih h' y hy

theorem Table.above_tins {n k : Nat} {v : α} {t : Table α} (hk : n < k) (h : Table.above n t) : Table.above n (tins k v t) := by
  induction t with
  | nil => intro y hy; simp [tins] at hy; subst hy; exact hk
  | cons x t ih =>
    obtain ⟨j, w⟩ := x
    have h' : Table.above n t := fun y hy => h y (List.mem_cons_of_mem _ hy)
    by_cases hj : k < j
    · intro y hy
      simp only [tins, if_pos hj, List.mem_cons] at hy
      rcases hy with rfl | hy
      · exact hk
      · exact h y (by simpa using hy)
    · intro y hy
      simp only [tins, if_neg hj, List.mem_cons] at hy
      rcases hy with rfl | hy
      · exact h _ List.mem_cons_self
      · exact ih h' y hy

variable [DecidableEq α]

@[simp] theorem tget_tput_same (d : α) (t : Table α) (k : Nat) (v : α) : tget d (tput d t k v) k = v := by
  by_cases h : v = d
  · simp [tput, h, tget_tdel_same]
  · simp [tput, h, tget_tins_same d v k _ (tdel_ne k t)]

theorem tget_tput_other (d : α) (t : Table α) {k j : Nat} (v : α) (h : j ≠ k) : tget d (tput d t k v) j = tget d t j := by
  by_cases hv : v = d
  · simp [tput, hv, tget_tdel_other d h]
  · simp [tput, hv, tget_tins_other d v h, tget_tdel_other d h]

/-- Reading a table after one entry is set. -/
theorem tget_tput (d : α) (t : Table α) (k j : Nat) (v : α) : tget d (tput d t k v) j = if j = k then v else tget d t j := by
  by_cases h : j = k
  · subst h; simp
  · simp [tget_tput_other d t v h, h]

@[simp] theorem tget_tupd_same (d : α) (t : Table α) (k : Nat) (f : α → α) : tget d (tupd d t k f) k = f (tget d t k) := by
  simp [tupd]

theorem tget_tupd_other (d : α) (t : Table α) {k j : Nat} (f : α → α) (h : j ≠ k) : tget d (tupd d t k f) j = tget d t j := by
  simp [tupd, tget_tput_other d t _ h]

theorem tget_tupd (d : α) (t : Table α) (k j : Nat) (f : α → α) :
    tget d (tupd d t k f) j = if j = k then f (tget d t k) else tget d t j := tget_tput d t k j _

/-! ### The canonical form -/

theorem Table.wf_cons (d : α) (k : Nat) (v : α) (t : Table α) :
    Table.wf d ((k, v) :: t) = true ↔ v ≠ d ∧ Table.above k t ∧ Table.wf d t = true := by
  induction t generalizing k v with
  | nil => simp [Table.wf, Table.above]
  | cons x t ih =>
    obtain ⟨j, w⟩ := x
    rw [Table.wf]
    simp only [Bool.and_eq_true, bne_iff_ne, decide_eq_true_eq]
    constructor
    · rintro ⟨⟨hv, hk⟩, h⟩
      refine ⟨hv, ?_, h⟩
      intro y hy
      rcases List.mem_cons.1 hy with rfl | hy
      · exact hk
      · exact Nat.lt_trans hk (((ih j w).1 h).2.1 y hy)
    · rintro ⟨hv, ha, h⟩
      exact ⟨⟨hv, ha _ List.mem_cons_self⟩, h⟩

theorem Table.wf_tdel (d : α) (k : Nat) {t : Table α} (h : Table.wf d t = true) : Table.wf d (tdel k t) = true := by
  induction t with
  | nil => rfl
  | cons x t ih =>
    obtain ⟨j, v⟩ := x
    obtain ⟨hv, ha, ht⟩ := (Table.wf_cons d j v t).1 h
    by_cases hj : j = k
    · simpa [tdel, hj] using ih ht
    · rw [tdel, if_neg hj, Table.wf_cons]
      exact ⟨hv, Table.above_tdel ha, ih ht⟩

theorem Table.wf_tins (d v : α) (k : Nat) {t : Table α} (hv : v ≠ d) (hk : ∀ x ∈ t, x.1 ≠ k) (h : Table.wf d t = true) :
    Table.wf d (tins k v t) = true := by
  induction t with
  | nil => simpa [tins, Table.wf] using hv
  | cons x t ih =>
    obtain ⟨j, w⟩ := x
    obtain ⟨hw, ha, ht⟩ := (Table.wf_cons d j w t).1 h
    have hj : j ≠ k := hk _ List.mem_cons_self
    by_cases hlt : k < j
    · rw [tins, if_pos hlt, Table.wf_cons]
      refine ⟨hv, ?_, h⟩
      intro y hy
      rcases List.mem_cons.1 hy with rfl | hy
      · exact hlt
      · exact Nat.lt_trans hlt (ha y hy)
    · rw [tins, if_neg hlt, Table.wf_cons]
      exact ⟨hw, Table.above_tins (by omega) ha, ih (fun y hy => hk y (List.mem_cons_of_mem _ hy)) ht⟩

/-- Setting an entry keeps the canonical form. -/
theorem Table.wf_tput (d : α) (k : Nat) (v : α) {t : Table α} (h : Table.wf d t = true) : Table.wf d (tput d t k v) = true := by
  by_cases hv : v = d
  · simpa [tput, hv] using Table.wf_tdel d k h
  · simpa [tput, hv] using Table.wf_tins d v k hv (tdel_ne k t) (Table.wf_tdel d k h)

/-- Keeping some of the entries keeps the canonical form. -/
theorem Table.wf_filter (d : α) (p : Nat × α → Bool) {t : Table α} (h : Table.wf d t = true) : Table.wf d (t.filter p) = true := by
  induction t with
  | nil => rfl
  | cons x t ih =>
    obtain ⟨j, v⟩ := x
    obtain ⟨hv, ha, ht⟩ := (Table.wf_cons d j v t).1 h
    by_cases hp : p (j, v)
    · rw [List.filter_cons_of_pos hp, Table.wf_cons]
      exact ⟨hv, fun y hy => ha y (List.mem_filter.1 hy).1, ih ht⟩
    · rw [List.filter_cons_of_neg hp]; exact ih ht

/-! ### Changing every value -/

/-- A change that keeps the default reads as the change of what was read. -/
theorem tget_tmap (d : α) (f : Nat → α → α) (hd : ∀ k, f k d = d) (t : Table α) (k : Nat) :
    tget d (tmap d f t) k = f k (tget d t k) := by
  induction t with
  | nil => exact (hd k).symm
  | cons x t ih =>
    obtain ⟨j, v⟩ := x
    by_cases hk : j = k
    · subst hk
      by_cases hv : f j v = d
      · simp [tmap, hv, tget_tdel_same, tget]
      · simp [tmap, hv, tget]
    · by_cases hv : f j v = d
      · simp [tmap, hv, tget_tdel_other d (Ne.symm hk), tget, hk, ih]
      · simp [tmap, hv, tget, hk, ih]

theorem Table.above_tmap {n : Nat} (d : α) (f : Nat → α → α) {t : Table α} (h : Table.above n t) : Table.above n (tmap d f t) := by
  induction t with
  | nil => exact h
  | cons x t ih =>
    obtain ⟨j, v⟩ := x
    have ih := ih fun y hy => h y (List.mem_cons_of_mem _ hy)
    by_cases hv : f j v = d
    · rw [tmap, if_pos hv]; exact Table.above_tdel ih
    · rw [tmap, if_neg hv]
      intro y hy
      rcases List.mem_cons.1 hy with rfl | hy
      · exact h (j, v) List.mem_cons_self
      · exact ih y hy

/-- Changing every value keeps the canonical form. -/
theorem Table.wf_tmap (d : α) (f : Nat → α → α) {t : Table α} (h : Table.wf d t = true) : Table.wf d (tmap d f t) = true := by
  induction t with
  | nil => rfl
  | cons x t ih =>
    obtain ⟨j, v⟩ := x
    obtain ⟨-, ha, ht⟩ := (Table.wf_cons d j v t).1 h
    by_cases hv : f j v = d
    · rw [tmap, if_pos hv]; exact Table.wf_tdel d j (ih ht)
    · rw [tmap, if_neg hv, Table.wf_cons]; exact ⟨hv, Table.above_tmap d f ha, ih ht⟩

end Sys2Proof.Machine
end

