-- ==== Sys2Proof/Laws/State.lean ====
section
/-! SUPPORT. What each update of the state leaves of the other fields, and reading back what it wrote. -/

namespace Sys2Proof.Machine

variable (s : State)

/-! ### updCluster -/

@[simp] theorem State.updCluster_agenda (cl : Nat) (f : Cluster → Cluster) : (s.updCluster cl f).agenda = s.agenda := rfl
@[simp] theorem State.updCluster_curCl (cl : Nat) (f : Cluster → Cluster) : (s.updCluster cl f).curCl = s.curCl := rfl
@[simp] theorem State.updCluster_curK (cl : Nat) (f : Cluster → Cluster) : (s.updCluster cl f).curK = s.curK := rfl
@[simp] theorem State.updCluster_curRid (cl : Nat) (f : Cluster → Cluster) : (s.updCluster cl f).curRid = s.curRid := rfl
@[simp] theorem State.updCluster_curEl (cl : Nat) (f : Cluster → Cluster) : (s.updCluster cl f).curEl = s.curEl := rfl
@[simp] theorem State.updCluster_fresh (cl : Nat) (f : Cluster → Cluster) : (s.updCluster cl f).fresh = s.fresh := rfl
@[simp] theorem State.updCluster_outbox (cl : Nat) (f : Cluster → Cluster) : (s.updCluster cl f).outbox = s.outbox := rfl
@[simp] theorem State.updCluster_cycle (cl : Nat) (f : Cluster → Cluster) : (s.updCluster cl f).cycle = s.cycle := rfl
@[simp] theorem State.updCluster_slot (cl : Nat) (f : Cluster → Cluster) : (s.updCluster cl f).slot = s.slot := rfl
@[simp] theorem State.updCluster_mem (cl : Nat) (f : Cluster → Cluster) : (s.updCluster cl f).mem = s.mem := rfl
@[simp] theorem State.updCluster_errs (cl : Nat) (f : Cluster → Cluster) : (s.updCluster cl f).errs = s.errs := rfl
@[simp] theorem State.updCluster_hid (cl : Nat) (f : Cluster → Cluster) : (s.updCluster cl f).hid = s.hid := rfl
@[simp] theorem State.updCluster_takes (cl : Nat) (f : Cluster → Cluster) : (s.updCluster cl f).takes = s.takes := rfl
@[simp] theorem State.updCluster_frecs (cl : Nat) (f : Cluster → Cluster) : (s.updCluster cl f).frecs = s.frecs := rfl
@[simp] theorem State.updCluster_fns (cl : Nat) (f : Cluster → Cluster) : (s.updCluster cl f).fns = s.fns := rfl
@[simp] theorem State.updCluster_dies (cl : Nat) (f : Cluster → Cluster) : (s.updCluster cl f).dies = s.dies := rfl
@[simp] theorem State.updCluster_pairs (cl : Nat) (f : Cluster → Cluster) : (s.updCluster cl f).pairs = s.pairs := rfl
@[simp] theorem State.updCluster_pkgId (cl : Nat) (f : Cluster → Cluster) : (s.updCluster cl f).pkgId = s.pkgId := rfl
@[simp] theorem State.updCluster_svLock (cl : Nat) (f : Cluster → Cluster) : (s.updCluster cl f).svLock = s.svLock := rfl
@[simp] theorem State.updCluster_svports (cl : Nat) (f : Cluster → Cluster) : (s.updCluster cl f).svports = s.svports := rfl
@[simp] theorem State.updCluster_routes (cl : Nat) (f : Cluster → Cluster) : (s.updCluster cl f).routes = s.routes := rfl
@[simp] theorem State.updCluster_pins (cl : Nat) (f : Cluster → Cluster) : (s.updCluster cl f).pins = s.pins := rfl
@[simp] theorem State.updCluster_reach (cl : Nat) (f : Cluster → Cluster) : (s.updCluster cl f).reach = s.reach := rfl
@[simp] theorem State.updCluster_svevt (cl : Nat) (f : Cluster → Cluster) : (s.updCluster cl f).svevt = s.svevt := rfl
@[simp] theorem State.updCluster_svvec (cl : Nat) (f : Cluster → Cluster) : (s.updCluster cl f).svvec = s.svvec := rfl
@[simp] theorem State.updCluster_rleases (cl : Nat) (f : Cluster → Cluster) : (s.updCluster cl f).rleases = s.rleases := rfl
@[simp] theorem State.updCluster_rwaits (cl : Nat) (f : Cluster → Cluster) : (s.updCluster cl f).rwaits = s.rwaits := rfl
@[simp] theorem State.updCluster_rplots (cl : Nat) (f : Cluster → Cluster) : (s.updCluster cl f).rplots = s.rplots := rfl
@[simp] theorem State.updCluster_pleases (cl : Nat) (f : Cluster → Cluster) : (s.updCluster cl f).pleases = s.pleases := rfl
@[simp] theorem State.updCluster_reqs (cl : Nat) (f : Cluster → Cluster) : (s.updCluster cl f).reqs = s.reqs := rfl
@[simp] theorem State.updCluster_pkglim (cl : Nat) (f : Cluster → Cluster) : (s.updCluster cl f).pkglim = s.pkglim := rfl
@[simp] theorem State.updCluster_pkgpwr (cl : Nat) (f : Cluster → Cluster) : (s.updCluster cl f).pkgpwr = s.pkgpwr := rfl
@[simp] theorem State.updCluster_peak (cl : Nat) (f : Cluster → Cluster) : (s.updCluster cl f).peak = s.peak := rfl
@[simp] theorem State.updCluster_bkmask (cl : Nat) (f : Cluster → Cluster) : (s.updCluster cl f).bkmask = s.bkmask := rfl
@[simp] theorem State.updCluster_bkwin (cl : Nat) (f : Cluster → Cluster) : (s.updCluster cl f).bkwin = s.bkwin := rfl
@[simp] theorem State.updCluster_steward (cl : Nat) (f : Cluster → Cluster) : (s.updCluster cl f).steward = s.steward := rfl

/-! ### updCtx -/

@[simp] theorem State.updCtx_agenda (cl k : Nat) (f : CueCtx → CueCtx) : (s.updCtx cl k f).agenda = s.agenda := rfl
@[simp] theorem State.updCtx_curCl (cl k : Nat) (f : CueCtx → CueCtx) : (s.updCtx cl k f).curCl = s.curCl := rfl
@[simp] theorem State.updCtx_curK (cl k : Nat) (f : CueCtx → CueCtx) : (s.updCtx cl k f).curK = s.curK := rfl
@[simp] theorem State.updCtx_curRid (cl k : Nat) (f : CueCtx → CueCtx) : (s.updCtx cl k f).curRid = s.curRid := rfl
@[simp] theorem State.updCtx_curEl (cl k : Nat) (f : CueCtx → CueCtx) : (s.updCtx cl k f).curEl = s.curEl := rfl
@[simp] theorem State.updCtx_fresh (cl k : Nat) (f : CueCtx → CueCtx) : (s.updCtx cl k f).fresh = s.fresh := rfl
@[simp] theorem State.updCtx_outbox (cl k : Nat) (f : CueCtx → CueCtx) : (s.updCtx cl k f).outbox = s.outbox := rfl
@[simp] theorem State.updCtx_cycle (cl k : Nat) (f : CueCtx → CueCtx) : (s.updCtx cl k f).cycle = s.cycle := rfl
@[simp] theorem State.updCtx_slot (cl k : Nat) (f : CueCtx → CueCtx) : (s.updCtx cl k f).slot = s.slot := rfl
@[simp] theorem State.updCtx_mem (cl k : Nat) (f : CueCtx → CueCtx) : (s.updCtx cl k f).mem = s.mem := rfl
@[simp] theorem State.updCtx_errs (cl k : Nat) (f : CueCtx → CueCtx) : (s.updCtx cl k f).errs = s.errs := rfl
@[simp] theorem State.updCtx_hid (cl k : Nat) (f : CueCtx → CueCtx) : (s.updCtx cl k f).hid = s.hid := rfl
@[simp] theorem State.updCtx_takes (cl k : Nat) (f : CueCtx → CueCtx) : (s.updCtx cl k f).takes = s.takes := rfl
@[simp] theorem State.updCtx_frecs (cl k : Nat) (f : CueCtx → CueCtx) : (s.updCtx cl k f).frecs = s.frecs := rfl
@[simp] theorem State.updCtx_fns (cl k : Nat) (f : CueCtx → CueCtx) : (s.updCtx cl k f).fns = s.fns := rfl
@[simp] theorem State.updCtx_dies (cl k : Nat) (f : CueCtx → CueCtx) : (s.updCtx cl k f).dies = s.dies := rfl
@[simp] theorem State.updCtx_pairs (cl k : Nat) (f : CueCtx → CueCtx) : (s.updCtx cl k f).pairs = s.pairs := rfl
@[simp] theorem State.updCtx_pkgId (cl k : Nat) (f : CueCtx → CueCtx) : (s.updCtx cl k f).pkgId = s.pkgId := rfl
@[simp] theorem State.updCtx_svLock (cl k : Nat) (f : CueCtx → CueCtx) : (s.updCtx cl k f).svLock = s.svLock := rfl
@[simp] theorem State.updCtx_svports (cl k : Nat) (f : CueCtx → CueCtx) : (s.updCtx cl k f).svports = s.svports := rfl
@[simp] theorem State.updCtx_routes (cl k : Nat) (f : CueCtx → CueCtx) : (s.updCtx cl k f).routes = s.routes := rfl
@[simp] theorem State.updCtx_pins (cl k : Nat) (f : CueCtx → CueCtx) : (s.updCtx cl k f).pins = s.pins := rfl
@[simp] theorem State.updCtx_reach (cl k : Nat) (f : CueCtx → CueCtx) : (s.updCtx cl k f).reach = s.reach := rfl
@[simp] theorem State.updCtx_svevt (cl k : Nat) (f : CueCtx → CueCtx) : (s.updCtx cl k f).svevt = s.svevt := rfl
@[simp] theorem State.updCtx_svvec (cl k : Nat) (f : CueCtx → CueCtx) : (s.updCtx cl k f).svvec = s.svvec := rfl
@[simp] theorem State.updCtx_rleases (cl k : Nat) (f : CueCtx → CueCtx) : (s.updCtx cl k f).rleases = s.rleases := rfl
@[simp] theorem State.updCtx_rwaits (cl k : Nat) (f : CueCtx → CueCtx) : (s.updCtx cl k f).rwaits = s.rwaits := rfl
@[simp] theorem State.updCtx_rplots (cl k : Nat) (f : CueCtx → CueCtx) : (s.updCtx cl k f).rplots = s.rplots := rfl
@[simp] theorem State.updCtx_pleases (cl k : Nat) (f : CueCtx → CueCtx) : (s.updCtx cl k f).pleases = s.pleases := rfl
@[simp] theorem State.updCtx_reqs (cl k : Nat) (f : CueCtx → CueCtx) : (s.updCtx cl k f).reqs = s.reqs := rfl
@[simp] theorem State.updCtx_pkglim (cl k : Nat) (f : CueCtx → CueCtx) : (s.updCtx cl k f).pkglim = s.pkglim := rfl
@[simp] theorem State.updCtx_pkgpwr (cl k : Nat) (f : CueCtx → CueCtx) : (s.updCtx cl k f).pkgpwr = s.pkgpwr := rfl
@[simp] theorem State.updCtx_peak (cl k : Nat) (f : CueCtx → CueCtx) : (s.updCtx cl k f).peak = s.peak := rfl
@[simp] theorem State.updCtx_bkmask (cl k : Nat) (f : CueCtx → CueCtx) : (s.updCtx cl k f).bkmask = s.bkmask := rfl
@[simp] theorem State.updCtx_bkwin (cl k : Nat) (f : CueCtx → CueCtx) : (s.updCtx cl k f).bkwin = s.bkwin := rfl
@[simp] theorem State.updCtx_steward (cl k : Nat) (f : CueCtx → CueCtx) : (s.updCtx cl k f).steward = s.steward := rfl

/-! ### updRegion -/

@[simp] theorem State.updRegion_agenda (cl r : Nat) (f : Region → Region) : (s.updRegion cl r f).agenda = s.agenda := rfl
@[simp] theorem State.updRegion_curCl (cl r : Nat) (f : Region → Region) : (s.updRegion cl r f).curCl = s.curCl := rfl
@[simp] theorem State.updRegion_curK (cl r : Nat) (f : Region → Region) : (s.updRegion cl r f).curK = s.curK := rfl
@[simp] theorem State.updRegion_curRid (cl r : Nat) (f : Region → Region) : (s.updRegion cl r f).curRid = s.curRid := rfl
@[simp] theorem State.updRegion_curEl (cl r : Nat) (f : Region → Region) : (s.updRegion cl r f).curEl = s.curEl := rfl
@[simp] theorem State.updRegion_fresh (cl r : Nat) (f : Region → Region) : (s.updRegion cl r f).fresh = s.fresh := rfl
@[simp] theorem State.updRegion_outbox (cl r : Nat) (f : Region → Region) : (s.updRegion cl r f).outbox = s.outbox := rfl
@[simp] theorem State.updRegion_cycle (cl r : Nat) (f : Region → Region) : (s.updRegion cl r f).cycle = s.cycle := rfl
@[simp] theorem State.updRegion_slot (cl r : Nat) (f : Region → Region) : (s.updRegion cl r f).slot = s.slot := rfl
@[simp] theorem State.updRegion_mem (cl r : Nat) (f : Region → Region) : (s.updRegion cl r f).mem = s.mem := rfl
@[simp] theorem State.updRegion_errs (cl r : Nat) (f : Region → Region) : (s.updRegion cl r f).errs = s.errs := rfl
@[simp] theorem State.updRegion_hid (cl r : Nat) (f : Region → Region) : (s.updRegion cl r f).hid = s.hid := rfl
@[simp] theorem State.updRegion_takes (cl r : Nat) (f : Region → Region) : (s.updRegion cl r f).takes = s.takes := rfl
@[simp] theorem State.updRegion_frecs (cl r : Nat) (f : Region → Region) : (s.updRegion cl r f).frecs = s.frecs := rfl
@[simp] theorem State.updRegion_fns (cl r : Nat) (f : Region → Region) : (s.updRegion cl r f).fns = s.fns := rfl
@[simp] theorem State.updRegion_dies (cl r : Nat) (f : Region → Region) : (s.updRegion cl r f).dies = s.dies := rfl
@[simp] theorem State.updRegion_pairs (cl r : Nat) (f : Region → Region) : (s.updRegion cl r f).pairs = s.pairs := rfl
@[simp] theorem State.updRegion_pkgId (cl r : Nat) (f : Region → Region) : (s.updRegion cl r f).pkgId = s.pkgId := rfl
@[simp] theorem State.updRegion_svLock (cl r : Nat) (f : Region → Region) : (s.updRegion cl r f).svLock = s.svLock := rfl
@[simp] theorem State.updRegion_svports (cl r : Nat) (f : Region → Region) : (s.updRegion cl r f).svports = s.svports := rfl
@[simp] theorem State.updRegion_routes (cl r : Nat) (f : Region → Region) : (s.updRegion cl r f).routes = s.routes := rfl
@[simp] theorem State.updRegion_pins (cl r : Nat) (f : Region → Region) : (s.updRegion cl r f).pins = s.pins := rfl
@[simp] theorem State.updRegion_reach (cl r : Nat) (f : Region → Region) : (s.updRegion cl r f).reach = s.reach := rfl
@[simp] theorem State.updRegion_svevt (cl r : Nat) (f : Region → Region) : (s.updRegion cl r f).svevt = s.svevt := rfl
@[simp] theorem State.updRegion_svvec (cl r : Nat) (f : Region → Region) : (s.updRegion cl r f).svvec = s.svvec := rfl
@[simp] theorem State.updRegion_rleases (cl r : Nat) (f : Region → Region) : (s.updRegion cl r f).rleases = s.rleases := rfl
@[simp] theorem State.updRegion_rwaits (cl r : Nat) (f : Region → Region) : (s.updRegion cl r f).rwaits = s.rwaits := rfl
@[simp] theorem State.updRegion_rplots (cl r : Nat) (f : Region → Region) : (s.updRegion cl r f).rplots = s.rplots := rfl
@[simp] theorem State.updRegion_pleases (cl r : Nat) (f : Region → Region) : (s.updRegion cl r f).pleases = s.pleases := rfl
@[simp] theorem State.updRegion_reqs (cl r : Nat) (f : Region → Region) : (s.updRegion cl r f).reqs = s.reqs := rfl
@[simp] theorem State.updRegion_pkglim (cl r : Nat) (f : Region → Region) : (s.updRegion cl r f).pkglim = s.pkglim := rfl
@[simp] theorem State.updRegion_pkgpwr (cl r : Nat) (f : Region → Region) : (s.updRegion cl r f).pkgpwr = s.pkgpwr := rfl
@[simp] theorem State.updRegion_peak (cl r : Nat) (f : Region → Region) : (s.updRegion cl r f).peak = s.peak := rfl
@[simp] theorem State.updRegion_bkmask (cl r : Nat) (f : Region → Region) : (s.updRegion cl r f).bkmask = s.bkmask := rfl
@[simp] theorem State.updRegion_bkwin (cl r : Nat) (f : Region → Region) : (s.updRegion cl r f).bkwin = s.bkwin := rfl
@[simp] theorem State.updRegion_steward (cl r : Nat) (f : Region → Region) : (s.updRegion cl r f).steward = s.steward := rfl

/-! ### updBank -/

@[simp] theorem State.updBank_agenda (cl n : Nat) (f : Bank → Bank) : (s.updBank cl n f).agenda = s.agenda := rfl
@[simp] theorem State.updBank_curCl (cl n : Nat) (f : Bank → Bank) : (s.updBank cl n f).curCl = s.curCl := rfl
@[simp] theorem State.updBank_curK (cl n : Nat) (f : Bank → Bank) : (s.updBank cl n f).curK = s.curK := rfl
@[simp] theorem State.updBank_curRid (cl n : Nat) (f : Bank → Bank) : (s.updBank cl n f).curRid = s.curRid := rfl
@[simp] theorem State.updBank_curEl (cl n : Nat) (f : Bank → Bank) : (s.updBank cl n f).curEl = s.curEl := rfl
@[simp] theorem State.updBank_fresh (cl n : Nat) (f : Bank → Bank) : (s.updBank cl n f).fresh = s.fresh := rfl
@[simp] theorem State.updBank_outbox (cl n : Nat) (f : Bank → Bank) : (s.updBank cl n f).outbox = s.outbox := rfl
@[simp] theorem State.updBank_cycle (cl n : Nat) (f : Bank → Bank) : (s.updBank cl n f).cycle = s.cycle := rfl
@[simp] theorem State.updBank_slot (cl n : Nat) (f : Bank → Bank) : (s.updBank cl n f).slot = s.slot := rfl
@[simp] theorem State.updBank_mem (cl n : Nat) (f : Bank → Bank) : (s.updBank cl n f).mem = s.mem := rfl
@[simp] theorem State.updBank_errs (cl n : Nat) (f : Bank → Bank) : (s.updBank cl n f).errs = s.errs := rfl
@[simp] theorem State.updBank_hid (cl n : Nat) (f : Bank → Bank) : (s.updBank cl n f).hid = s.hid := rfl
@[simp] theorem State.updBank_takes (cl n : Nat) (f : Bank → Bank) : (s.updBank cl n f).takes = s.takes := rfl
@[simp] theorem State.updBank_frecs (cl n : Nat) (f : Bank → Bank) : (s.updBank cl n f).frecs = s.frecs := rfl
@[simp] theorem State.updBank_fns (cl n : Nat) (f : Bank → Bank) : (s.updBank cl n f).fns = s.fns := rfl
@[simp] theorem State.updBank_dies (cl n : Nat) (f : Bank → Bank) : (s.updBank cl n f).dies = s.dies := rfl
@[simp] theorem State.updBank_pairs (cl n : Nat) (f : Bank → Bank) : (s.updBank cl n f).pairs = s.pairs := rfl
@[simp] theorem State.updBank_pkgId (cl n : Nat) (f : Bank → Bank) : (s.updBank cl n f).pkgId = s.pkgId := rfl
@[simp] theorem State.updBank_svLock (cl n : Nat) (f : Bank → Bank) : (s.updBank cl n f).svLock = s.svLock := rfl
@[simp] theorem State.updBank_svports (cl n : Nat) (f : Bank → Bank) : (s.updBank cl n f).svports = s.svports := rfl
@[simp] theorem State.updBank_routes (cl n : Nat) (f : Bank → Bank) : (s.updBank cl n f).routes = s.routes := rfl
@[simp] theorem State.updBank_pins (cl n : Nat) (f : Bank → Bank) : (s.updBank cl n f).pins = s.pins := rfl
@[simp] theorem State.updBank_reach (cl n : Nat) (f : Bank → Bank) : (s.updBank cl n f).reach = s.reach := rfl
@[simp] theorem State.updBank_svevt (cl n : Nat) (f : Bank → Bank) : (s.updBank cl n f).svevt = s.svevt := rfl
@[simp] theorem State.updBank_svvec (cl n : Nat) (f : Bank → Bank) : (s.updBank cl n f).svvec = s.svvec := rfl
@[simp] theorem State.updBank_rleases (cl n : Nat) (f : Bank → Bank) : (s.updBank cl n f).rleases = s.rleases := rfl
@[simp] theorem State.updBank_rwaits (cl n : Nat) (f : Bank → Bank) : (s.updBank cl n f).rwaits = s.rwaits := rfl
@[simp] theorem State.updBank_rplots (cl n : Nat) (f : Bank → Bank) : (s.updBank cl n f).rplots = s.rplots := rfl
@[simp] theorem State.updBank_pleases (cl n : Nat) (f : Bank → Bank) : (s.updBank cl n f).pleases = s.pleases := rfl
@[simp] theorem State.updBank_reqs (cl n : Nat) (f : Bank → Bank) : (s.updBank cl n f).reqs = s.reqs := rfl
@[simp] theorem State.updBank_pkglim (cl n : Nat) (f : Bank → Bank) : (s.updBank cl n f).pkglim = s.pkglim := rfl
@[simp] theorem State.updBank_pkgpwr (cl n : Nat) (f : Bank → Bank) : (s.updBank cl n f).pkgpwr = s.pkgpwr := rfl
@[simp] theorem State.updBank_peak (cl n : Nat) (f : Bank → Bank) : (s.updBank cl n f).peak = s.peak := rfl
@[simp] theorem State.updBank_bkmask (cl n : Nat) (f : Bank → Bank) : (s.updBank cl n f).bkmask = s.bkmask := rfl
@[simp] theorem State.updBank_bkwin (cl n : Nat) (f : Bank → Bank) : (s.updBank cl n f).bkwin = s.bkwin := rfl
@[simp] theorem State.updBank_steward (cl n : Nat) (f : Bank → Bank) : (s.updBank cl n f).steward = s.steward := rfl

/-! ### updIn -/

@[simp] theorem State.updIn_agenda (cl p : Nat) (f : InPort → InPort) : (s.updIn cl p f).agenda = s.agenda := rfl
@[simp] theorem State.updIn_curCl (cl p : Nat) (f : InPort → InPort) : (s.updIn cl p f).curCl = s.curCl := rfl
@[simp] theorem State.updIn_curK (cl p : Nat) (f : InPort → InPort) : (s.updIn cl p f).curK = s.curK := rfl
@[simp] theorem State.updIn_curRid (cl p : Nat) (f : InPort → InPort) : (s.updIn cl p f).curRid = s.curRid := rfl
@[simp] theorem State.updIn_curEl (cl p : Nat) (f : InPort → InPort) : (s.updIn cl p f).curEl = s.curEl := rfl
@[simp] theorem State.updIn_fresh (cl p : Nat) (f : InPort → InPort) : (s.updIn cl p f).fresh = s.fresh := rfl
@[simp] theorem State.updIn_outbox (cl p : Nat) (f : InPort → InPort) : (s.updIn cl p f).outbox = s.outbox := rfl
@[simp] theorem State.updIn_cycle (cl p : Nat) (f : InPort → InPort) : (s.updIn cl p f).cycle = s.cycle := rfl
@[simp] theorem State.updIn_slot (cl p : Nat) (f : InPort → InPort) : (s.updIn cl p f).slot = s.slot := rfl
@[simp] theorem State.updIn_mem (cl p : Nat) (f : InPort → InPort) : (s.updIn cl p f).mem = s.mem := rfl
@[simp] theorem State.updIn_errs (cl p : Nat) (f : InPort → InPort) : (s.updIn cl p f).errs = s.errs := rfl
@[simp] theorem State.updIn_hid (cl p : Nat) (f : InPort → InPort) : (s.updIn cl p f).hid = s.hid := rfl
@[simp] theorem State.updIn_takes (cl p : Nat) (f : InPort → InPort) : (s.updIn cl p f).takes = s.takes := rfl
@[simp] theorem State.updIn_frecs (cl p : Nat) (f : InPort → InPort) : (s.updIn cl p f).frecs = s.frecs := rfl
@[simp] theorem State.updIn_fns (cl p : Nat) (f : InPort → InPort) : (s.updIn cl p f).fns = s.fns := rfl
@[simp] theorem State.updIn_dies (cl p : Nat) (f : InPort → InPort) : (s.updIn cl p f).dies = s.dies := rfl
@[simp] theorem State.updIn_pairs (cl p : Nat) (f : InPort → InPort) : (s.updIn cl p f).pairs = s.pairs := rfl
@[simp] theorem State.updIn_pkgId (cl p : Nat) (f : InPort → InPort) : (s.updIn cl p f).pkgId = s.pkgId := rfl
@[simp] theorem State.updIn_svLock (cl p : Nat) (f : InPort → InPort) : (s.updIn cl p f).svLock = s.svLock := rfl
@[simp] theorem State.updIn_svports (cl p : Nat) (f : InPort → InPort) : (s.updIn cl p f).svports = s.svports := rfl
@[simp] theorem State.updIn_routes (cl p : Nat) (f : InPort → InPort) : (s.updIn cl p f).routes = s.routes := rfl
@[simp] theorem State.updIn_pins (cl p : Nat) (f : InPort → InPort) : (s.updIn cl p f).pins = s.pins := rfl
@[simp] theorem State.updIn_reach (cl p : Nat) (f : InPort → InPort) : (s.updIn cl p f).reach = s.reach := rfl
@[simp] theorem State.updIn_svevt (cl p : Nat) (f : InPort → InPort) : (s.updIn cl p f).svevt = s.svevt := rfl
@[simp] theorem State.updIn_svvec (cl p : Nat) (f : InPort → InPort) : (s.updIn cl p f).svvec = s.svvec := rfl
@[simp] theorem State.updIn_rleases (cl p : Nat) (f : InPort → InPort) : (s.updIn cl p f).rleases = s.rleases := rfl
@[simp] theorem State.updIn_rwaits (cl p : Nat) (f : InPort → InPort) : (s.updIn cl p f).rwaits = s.rwaits := rfl
@[simp] theorem State.updIn_rplots (cl p : Nat) (f : InPort → InPort) : (s.updIn cl p f).rplots = s.rplots := rfl
@[simp] theorem State.updIn_pleases (cl p : Nat) (f : InPort → InPort) : (s.updIn cl p f).pleases = s.pleases := rfl
@[simp] theorem State.updIn_reqs (cl p : Nat) (f : InPort → InPort) : (s.updIn cl p f).reqs = s.reqs := rfl
@[simp] theorem State.updIn_pkglim (cl p : Nat) (f : InPort → InPort) : (s.updIn cl p f).pkglim = s.pkglim := rfl
@[simp] theorem State.updIn_pkgpwr (cl p : Nat) (f : InPort → InPort) : (s.updIn cl p f).pkgpwr = s.pkgpwr := rfl
@[simp] theorem State.updIn_peak (cl p : Nat) (f : InPort → InPort) : (s.updIn cl p f).peak = s.peak := rfl
@[simp] theorem State.updIn_bkmask (cl p : Nat) (f : InPort → InPort) : (s.updIn cl p f).bkmask = s.bkmask := rfl
@[simp] theorem State.updIn_bkwin (cl p : Nat) (f : InPort → InPort) : (s.updIn cl p f).bkwin = s.bkwin := rfl
@[simp] theorem State.updIn_steward (cl p : Nat) (f : InPort → InPort) : (s.updIn cl p f).steward = s.steward := rfl

/-! ### updOut -/

@[simp] theorem State.updOut_agenda (cl p : Nat) (f : OutPort → OutPort) : (s.updOut cl p f).agenda = s.agenda := rfl
@[simp] theorem State.updOut_curCl (cl p : Nat) (f : OutPort → OutPort) : (s.updOut cl p f).curCl = s.curCl := rfl
@[simp] theorem State.updOut_curK (cl p : Nat) (f : OutPort → OutPort) : (s.updOut cl p f).curK = s.curK := rfl
@[simp] theorem State.updOut_curRid (cl p : Nat) (f : OutPort → OutPort) : (s.updOut cl p f).curRid = s.curRid := rfl
@[simp] theorem State.updOut_curEl (cl p : Nat) (f : OutPort → OutPort) : (s.updOut cl p f).curEl = s.curEl := rfl
@[simp] theorem State.updOut_fresh (cl p : Nat) (f : OutPort → OutPort) : (s.updOut cl p f).fresh = s.fresh := rfl
@[simp] theorem State.updOut_outbox (cl p : Nat) (f : OutPort → OutPort) : (s.updOut cl p f).outbox = s.outbox := rfl
@[simp] theorem State.updOut_cycle (cl p : Nat) (f : OutPort → OutPort) : (s.updOut cl p f).cycle = s.cycle := rfl
@[simp] theorem State.updOut_slot (cl p : Nat) (f : OutPort → OutPort) : (s.updOut cl p f).slot = s.slot := rfl
@[simp] theorem State.updOut_mem (cl p : Nat) (f : OutPort → OutPort) : (s.updOut cl p f).mem = s.mem := rfl
@[simp] theorem State.updOut_errs (cl p : Nat) (f : OutPort → OutPort) : (s.updOut cl p f).errs = s.errs := rfl
@[simp] theorem State.updOut_hid (cl p : Nat) (f : OutPort → OutPort) : (s.updOut cl p f).hid = s.hid := rfl
@[simp] theorem State.updOut_takes (cl p : Nat) (f : OutPort → OutPort) : (s.updOut cl p f).takes = s.takes := rfl
@[simp] theorem State.updOut_frecs (cl p : Nat) (f : OutPort → OutPort) : (s.updOut cl p f).frecs = s.frecs := rfl
@[simp] theorem State.updOut_fns (cl p : Nat) (f : OutPort → OutPort) : (s.updOut cl p f).fns = s.fns := rfl
@[simp] theorem State.updOut_dies (cl p : Nat) (f : OutPort → OutPort) : (s.updOut cl p f).dies = s.dies := rfl
@[simp] theorem State.updOut_pairs (cl p : Nat) (f : OutPort → OutPort) : (s.updOut cl p f).pairs = s.pairs := rfl
@[simp] theorem State.updOut_pkgId (cl p : Nat) (f : OutPort → OutPort) : (s.updOut cl p f).pkgId = s.pkgId := rfl
@[simp] theorem State.updOut_svLock (cl p : Nat) (f : OutPort → OutPort) : (s.updOut cl p f).svLock = s.svLock := rfl
@[simp] theorem State.updOut_svports (cl p : Nat) (f : OutPort → OutPort) : (s.updOut cl p f).svports = s.svports := rfl
@[simp] theorem State.updOut_routes (cl p : Nat) (f : OutPort → OutPort) : (s.updOut cl p f).routes = s.routes := rfl
@[simp] theorem State.updOut_pins (cl p : Nat) (f : OutPort → OutPort) : (s.updOut cl p f).pins = s.pins := rfl
@[simp] theorem State.updOut_reach (cl p : Nat) (f : OutPort → OutPort) : (s.updOut cl p f).reach = s.reach := rfl
@[simp] theorem State.updOut_svevt (cl p : Nat) (f : OutPort → OutPort) : (s.updOut cl p f).svevt = s.svevt := rfl
@[simp] theorem State.updOut_svvec (cl p : Nat) (f : OutPort → OutPort) : (s.updOut cl p f).svvec = s.svvec := rfl
@[simp] theorem State.updOut_rleases (cl p : Nat) (f : OutPort → OutPort) : (s.updOut cl p f).rleases = s.rleases := rfl
@[simp] theorem State.updOut_rwaits (cl p : Nat) (f : OutPort → OutPort) : (s.updOut cl p f).rwaits = s.rwaits := rfl
@[simp] theorem State.updOut_rplots (cl p : Nat) (f : OutPort → OutPort) : (s.updOut cl p f).rplots = s.rplots := rfl
@[simp] theorem State.updOut_pleases (cl p : Nat) (f : OutPort → OutPort) : (s.updOut cl p f).pleases = s.pleases := rfl
@[simp] theorem State.updOut_reqs (cl p : Nat) (f : OutPort → OutPort) : (s.updOut cl p f).reqs = s.reqs := rfl
@[simp] theorem State.updOut_pkglim (cl p : Nat) (f : OutPort → OutPort) : (s.updOut cl p f).pkglim = s.pkglim := rfl
@[simp] theorem State.updOut_pkgpwr (cl p : Nat) (f : OutPort → OutPort) : (s.updOut cl p f).pkgpwr = s.pkgpwr := rfl
@[simp] theorem State.updOut_peak (cl p : Nat) (f : OutPort → OutPort) : (s.updOut cl p f).peak = s.peak := rfl
@[simp] theorem State.updOut_bkmask (cl p : Nat) (f : OutPort → OutPort) : (s.updOut cl p f).bkmask = s.bkmask := rfl
@[simp] theorem State.updOut_bkwin (cl p : Nat) (f : OutPort → OutPort) : (s.updOut cl p f).bkwin = s.bkwin := rfl
@[simp] theorem State.updOut_steward (cl p : Nat) (f : OutPort → OutPort) : (s.updOut cl p f).steward = s.steward := rfl

/-! ### updZone -/

@[simp] theorem State.updZone_agenda (cl z : Nat) (f : Zone → Zone) : (s.updZone cl z f).agenda = s.agenda := rfl
@[simp] theorem State.updZone_curCl (cl z : Nat) (f : Zone → Zone) : (s.updZone cl z f).curCl = s.curCl := rfl
@[simp] theorem State.updZone_curK (cl z : Nat) (f : Zone → Zone) : (s.updZone cl z f).curK = s.curK := rfl
@[simp] theorem State.updZone_curRid (cl z : Nat) (f : Zone → Zone) : (s.updZone cl z f).curRid = s.curRid := rfl
@[simp] theorem State.updZone_curEl (cl z : Nat) (f : Zone → Zone) : (s.updZone cl z f).curEl = s.curEl := rfl
@[simp] theorem State.updZone_fresh (cl z : Nat) (f : Zone → Zone) : (s.updZone cl z f).fresh = s.fresh := rfl
@[simp] theorem State.updZone_outbox (cl z : Nat) (f : Zone → Zone) : (s.updZone cl z f).outbox = s.outbox := rfl
@[simp] theorem State.updZone_cycle (cl z : Nat) (f : Zone → Zone) : (s.updZone cl z f).cycle = s.cycle := rfl
@[simp] theorem State.updZone_slot (cl z : Nat) (f : Zone → Zone) : (s.updZone cl z f).slot = s.slot := rfl
@[simp] theorem State.updZone_mem (cl z : Nat) (f : Zone → Zone) : (s.updZone cl z f).mem = s.mem := rfl
@[simp] theorem State.updZone_errs (cl z : Nat) (f : Zone → Zone) : (s.updZone cl z f).errs = s.errs := rfl
@[simp] theorem State.updZone_hid (cl z : Nat) (f : Zone → Zone) : (s.updZone cl z f).hid = s.hid := rfl
@[simp] theorem State.updZone_takes (cl z : Nat) (f : Zone → Zone) : (s.updZone cl z f).takes = s.takes := rfl
@[simp] theorem State.updZone_frecs (cl z : Nat) (f : Zone → Zone) : (s.updZone cl z f).frecs = s.frecs := rfl
@[simp] theorem State.updZone_fns (cl z : Nat) (f : Zone → Zone) : (s.updZone cl z f).fns = s.fns := rfl
@[simp] theorem State.updZone_dies (cl z : Nat) (f : Zone → Zone) : (s.updZone cl z f).dies = s.dies := rfl
@[simp] theorem State.updZone_pairs (cl z : Nat) (f : Zone → Zone) : (s.updZone cl z f).pairs = s.pairs := rfl
@[simp] theorem State.updZone_pkgId (cl z : Nat) (f : Zone → Zone) : (s.updZone cl z f).pkgId = s.pkgId := rfl
@[simp] theorem State.updZone_svLock (cl z : Nat) (f : Zone → Zone) : (s.updZone cl z f).svLock = s.svLock := rfl
@[simp] theorem State.updZone_svports (cl z : Nat) (f : Zone → Zone) : (s.updZone cl z f).svports = s.svports := rfl
@[simp] theorem State.updZone_routes (cl z : Nat) (f : Zone → Zone) : (s.updZone cl z f).routes = s.routes := rfl
@[simp] theorem State.updZone_pins (cl z : Nat) (f : Zone → Zone) : (s.updZone cl z f).pins = s.pins := rfl
@[simp] theorem State.updZone_reach (cl z : Nat) (f : Zone → Zone) : (s.updZone cl z f).reach = s.reach := rfl
@[simp] theorem State.updZone_svevt (cl z : Nat) (f : Zone → Zone) : (s.updZone cl z f).svevt = s.svevt := rfl
@[simp] theorem State.updZone_svvec (cl z : Nat) (f : Zone → Zone) : (s.updZone cl z f).svvec = s.svvec := rfl
@[simp] theorem State.updZone_rleases (cl z : Nat) (f : Zone → Zone) : (s.updZone cl z f).rleases = s.rleases := rfl
@[simp] theorem State.updZone_rwaits (cl z : Nat) (f : Zone → Zone) : (s.updZone cl z f).rwaits = s.rwaits := rfl
@[simp] theorem State.updZone_rplots (cl z : Nat) (f : Zone → Zone) : (s.updZone cl z f).rplots = s.rplots := rfl
@[simp] theorem State.updZone_pleases (cl z : Nat) (f : Zone → Zone) : (s.updZone cl z f).pleases = s.pleases := rfl
@[simp] theorem State.updZone_reqs (cl z : Nat) (f : Zone → Zone) : (s.updZone cl z f).reqs = s.reqs := rfl
@[simp] theorem State.updZone_pkglim (cl z : Nat) (f : Zone → Zone) : (s.updZone cl z f).pkglim = s.pkglim := rfl
@[simp] theorem State.updZone_pkgpwr (cl z : Nat) (f : Zone → Zone) : (s.updZone cl z f).pkgpwr = s.pkgpwr := rfl
@[simp] theorem State.updZone_peak (cl z : Nat) (f : Zone → Zone) : (s.updZone cl z f).peak = s.peak := rfl
@[simp] theorem State.updZone_bkmask (cl z : Nat) (f : Zone → Zone) : (s.updZone cl z f).bkmask = s.bkmask := rfl
@[simp] theorem State.updZone_bkwin (cl z : Nat) (f : Zone → Zone) : (s.updZone cl z f).bkwin = s.bkwin := rfl
@[simp] theorem State.updZone_steward (cl z : Nat) (f : Zone → Zone) : (s.updZone cl z f).steward = s.steward := rfl

/-! ### updMx -/

@[simp] theorem State.updMx_agenda (cl : Nat) (f : Mx → Mx) : (s.updMx cl f).agenda = s.agenda := rfl
@[simp] theorem State.updMx_curCl (cl : Nat) (f : Mx → Mx) : (s.updMx cl f).curCl = s.curCl := rfl
@[simp] theorem State.updMx_curK (cl : Nat) (f : Mx → Mx) : (s.updMx cl f).curK = s.curK := rfl
@[simp] theorem State.updMx_curRid (cl : Nat) (f : Mx → Mx) : (s.updMx cl f).curRid = s.curRid := rfl
@[simp] theorem State.updMx_curEl (cl : Nat) (f : Mx → Mx) : (s.updMx cl f).curEl = s.curEl := rfl
@[simp] theorem State.updMx_fresh (cl : Nat) (f : Mx → Mx) : (s.updMx cl f).fresh = s.fresh := rfl
@[simp] theorem State.updMx_outbox (cl : Nat) (f : Mx → Mx) : (s.updMx cl f).outbox = s.outbox := rfl
@[simp] theorem State.updMx_cycle (cl : Nat) (f : Mx → Mx) : (s.updMx cl f).cycle = s.cycle := rfl
@[simp] theorem State.updMx_slot (cl : Nat) (f : Mx → Mx) : (s.updMx cl f).slot = s.slot := rfl
@[simp] theorem State.updMx_mem (cl : Nat) (f : Mx → Mx) : (s.updMx cl f).mem = s.mem := rfl
@[simp] theorem State.updMx_errs (cl : Nat) (f : Mx → Mx) : (s.updMx cl f).errs = s.errs := rfl
@[simp] theorem State.updMx_hid (cl : Nat) (f : Mx → Mx) : (s.updMx cl f).hid = s.hid := rfl
@[simp] theorem State.updMx_takes (cl : Nat) (f : Mx → Mx) : (s.updMx cl f).takes = s.takes := rfl
@[simp] theorem State.updMx_frecs (cl : Nat) (f : Mx → Mx) : (s.updMx cl f).frecs = s.frecs := rfl
@[simp] theorem State.updMx_fns (cl : Nat) (f : Mx → Mx) : (s.updMx cl f).fns = s.fns := rfl
@[simp] theorem State.updMx_dies (cl : Nat) (f : Mx → Mx) : (s.updMx cl f).dies = s.dies := rfl
@[simp] theorem State.updMx_pairs (cl : Nat) (f : Mx → Mx) : (s.updMx cl f).pairs = s.pairs := rfl
@[simp] theorem State.updMx_pkgId (cl : Nat) (f : Mx → Mx) : (s.updMx cl f).pkgId = s.pkgId := rfl
@[simp] theorem State.updMx_svLock (cl : Nat) (f : Mx → Mx) : (s.updMx cl f).svLock = s.svLock := rfl
@[simp] theorem State.updMx_svports (cl : Nat) (f : Mx → Mx) : (s.updMx cl f).svports = s.svports := rfl
@[simp] theorem State.updMx_routes (cl : Nat) (f : Mx → Mx) : (s.updMx cl f).routes = s.routes := rfl
@[simp] theorem State.updMx_pins (cl : Nat) (f : Mx → Mx) : (s.updMx cl f).pins = s.pins := rfl
@[simp] theorem State.updMx_reach (cl : Nat) (f : Mx → Mx) : (s.updMx cl f).reach = s.reach := rfl
@[simp] theorem State.updMx_svevt (cl : Nat) (f : Mx → Mx) : (s.updMx cl f).svevt = s.svevt := rfl
@[simp] theorem State.updMx_svvec (cl : Nat) (f : Mx → Mx) : (s.updMx cl f).svvec = s.svvec := rfl
@[simp] theorem State.updMx_rleases (cl : Nat) (f : Mx → Mx) : (s.updMx cl f).rleases = s.rleases := rfl
@[simp] theorem State.updMx_rwaits (cl : Nat) (f : Mx → Mx) : (s.updMx cl f).rwaits = s.rwaits := rfl
@[simp] theorem State.updMx_rplots (cl : Nat) (f : Mx → Mx) : (s.updMx cl f).rplots = s.rplots := rfl
@[simp] theorem State.updMx_pleases (cl : Nat) (f : Mx → Mx) : (s.updMx cl f).pleases = s.pleases := rfl
@[simp] theorem State.updMx_reqs (cl : Nat) (f : Mx → Mx) : (s.updMx cl f).reqs = s.reqs := rfl
@[simp] theorem State.updMx_pkglim (cl : Nat) (f : Mx → Mx) : (s.updMx cl f).pkglim = s.pkglim := rfl
@[simp] theorem State.updMx_pkgpwr (cl : Nat) (f : Mx → Mx) : (s.updMx cl f).pkgpwr = s.pkgpwr := rfl
@[simp] theorem State.updMx_peak (cl : Nat) (f : Mx → Mx) : (s.updMx cl f).peak = s.peak := rfl
@[simp] theorem State.updMx_bkmask (cl : Nat) (f : Mx → Mx) : (s.updMx cl f).bkmask = s.bkmask := rfl
@[simp] theorem State.updMx_bkwin (cl : Nat) (f : Mx → Mx) : (s.updMx cl f).bkwin = s.bkwin := rfl
@[simp] theorem State.updMx_steward (cl : Nat) (f : Mx → Mx) : (s.updMx cl f).steward = s.steward := rfl

/-! ### updCopy -/

@[simp] theorem State.updCopy_agenda (cl t : Nat) (f : CopyEng → CopyEng) : (s.updCopy cl t f).agenda = s.agenda := rfl
@[simp] theorem State.updCopy_curCl (cl t : Nat) (f : CopyEng → CopyEng) : (s.updCopy cl t f).curCl = s.curCl := rfl
@[simp] theorem State.updCopy_curK (cl t : Nat) (f : CopyEng → CopyEng) : (s.updCopy cl t f).curK = s.curK := rfl
@[simp] theorem State.updCopy_curRid (cl t : Nat) (f : CopyEng → CopyEng) : (s.updCopy cl t f).curRid = s.curRid := rfl
@[simp] theorem State.updCopy_curEl (cl t : Nat) (f : CopyEng → CopyEng) : (s.updCopy cl t f).curEl = s.curEl := rfl
@[simp] theorem State.updCopy_fresh (cl t : Nat) (f : CopyEng → CopyEng) : (s.updCopy cl t f).fresh = s.fresh := rfl
@[simp] theorem State.updCopy_outbox (cl t : Nat) (f : CopyEng → CopyEng) : (s.updCopy cl t f).outbox = s.outbox := rfl
@[simp] theorem State.updCopy_cycle (cl t : Nat) (f : CopyEng → CopyEng) : (s.updCopy cl t f).cycle = s.cycle := rfl
@[simp] theorem State.updCopy_slot (cl t : Nat) (f : CopyEng → CopyEng) : (s.updCopy cl t f).slot = s.slot := rfl
@[simp] theorem State.updCopy_mem (cl t : Nat) (f : CopyEng → CopyEng) : (s.updCopy cl t f).mem = s.mem := rfl
@[simp] theorem State.updCopy_errs (cl t : Nat) (f : CopyEng → CopyEng) : (s.updCopy cl t f).errs = s.errs := rfl
@[simp] theorem State.updCopy_hid (cl t : Nat) (f : CopyEng → CopyEng) : (s.updCopy cl t f).hid = s.hid := rfl
@[simp] theorem State.updCopy_takes (cl t : Nat) (f : CopyEng → CopyEng) : (s.updCopy cl t f).takes = s.takes := rfl
@[simp] theorem State.updCopy_frecs (cl t : Nat) (f : CopyEng → CopyEng) : (s.updCopy cl t f).frecs = s.frecs := rfl
@[simp] theorem State.updCopy_fns (cl t : Nat) (f : CopyEng → CopyEng) : (s.updCopy cl t f).fns = s.fns := rfl
@[simp] theorem State.updCopy_dies (cl t : Nat) (f : CopyEng → CopyEng) : (s.updCopy cl t f).dies = s.dies := rfl
@[simp] theorem State.updCopy_pairs (cl t : Nat) (f : CopyEng → CopyEng) : (s.updCopy cl t f).pairs = s.pairs := rfl
@[simp] theorem State.updCopy_pkgId (cl t : Nat) (f : CopyEng → CopyEng) : (s.updCopy cl t f).pkgId = s.pkgId := rfl
@[simp] theorem State.updCopy_svLock (cl t : Nat) (f : CopyEng → CopyEng) : (s.updCopy cl t f).svLock = s.svLock := rfl
@[simp] theorem State.updCopy_svports (cl t : Nat) (f : CopyEng → CopyEng) : (s.updCopy cl t f).svports = s.svports := rfl
@[simp] theorem State.updCopy_routes (cl t : Nat) (f : CopyEng → CopyEng) : (s.updCopy cl t f).routes = s.routes := rfl
@[simp] theorem State.updCopy_pins (cl t : Nat) (f : CopyEng → CopyEng) : (s.updCopy cl t f).pins = s.pins := rfl
@[simp] theorem State.updCopy_reach (cl t : Nat) (f : CopyEng → CopyEng) : (s.updCopy cl t f).reach = s.reach := rfl
@[simp] theorem State.updCopy_svevt (cl t : Nat) (f : CopyEng → CopyEng) : (s.updCopy cl t f).svevt = s.svevt := rfl
@[simp] theorem State.updCopy_svvec (cl t : Nat) (f : CopyEng → CopyEng) : (s.updCopy cl t f).svvec = s.svvec := rfl
@[simp] theorem State.updCopy_rleases (cl t : Nat) (f : CopyEng → CopyEng) : (s.updCopy cl t f).rleases = s.rleases := rfl
@[simp] theorem State.updCopy_rwaits (cl t : Nat) (f : CopyEng → CopyEng) : (s.updCopy cl t f).rwaits = s.rwaits := rfl
@[simp] theorem State.updCopy_rplots (cl t : Nat) (f : CopyEng → CopyEng) : (s.updCopy cl t f).rplots = s.rplots := rfl
@[simp] theorem State.updCopy_pleases (cl t : Nat) (f : CopyEng → CopyEng) : (s.updCopy cl t f).pleases = s.pleases := rfl
@[simp] theorem State.updCopy_reqs (cl t : Nat) (f : CopyEng → CopyEng) : (s.updCopy cl t f).reqs = s.reqs := rfl
@[simp] theorem State.updCopy_pkglim (cl t : Nat) (f : CopyEng → CopyEng) : (s.updCopy cl t f).pkglim = s.pkglim := rfl
@[simp] theorem State.updCopy_pkgpwr (cl t : Nat) (f : CopyEng → CopyEng) : (s.updCopy cl t f).pkgpwr = s.pkgpwr := rfl
@[simp] theorem State.updCopy_peak (cl t : Nat) (f : CopyEng → CopyEng) : (s.updCopy cl t f).peak = s.peak := rfl
@[simp] theorem State.updCopy_bkmask (cl t : Nat) (f : CopyEng → CopyEng) : (s.updCopy cl t f).bkmask = s.bkmask := rfl
@[simp] theorem State.updCopy_bkwin (cl t : Nat) (f : CopyEng → CopyEng) : (s.updCopy cl t f).bkwin = s.bkwin := rfl
@[simp] theorem State.updCopy_steward (cl t : Nat) (f : CopyEng → CopyEng) : (s.updCopy cl t f).steward = s.steward := rfl

/-! ### updEnt -/

@[simp] theorem State.updEnt_agenda (cl t e : Nat) (f : CopyEnt → CopyEnt) : (s.updEnt cl t e f).agenda = s.agenda := rfl
@[simp] theorem State.updEnt_curCl (cl t e : Nat) (f : CopyEnt → CopyEnt) : (s.updEnt cl t e f).curCl = s.curCl := rfl
@[simp] theorem State.updEnt_curK (cl t e : Nat) (f : CopyEnt → CopyEnt) : (s.updEnt cl t e f).curK = s.curK := rfl
@[simp] theorem State.updEnt_curRid (cl t e : Nat) (f : CopyEnt → CopyEnt) : (s.updEnt cl t e f).curRid = s.curRid := rfl
@[simp] theorem State.updEnt_curEl (cl t e : Nat) (f : CopyEnt → CopyEnt) : (s.updEnt cl t e f).curEl = s.curEl := rfl
@[simp] theorem State.updEnt_fresh (cl t e : Nat) (f : CopyEnt → CopyEnt) : (s.updEnt cl t e f).fresh = s.fresh := rfl
@[simp] theorem State.updEnt_outbox (cl t e : Nat) (f : CopyEnt → CopyEnt) : (s.updEnt cl t e f).outbox = s.outbox := rfl
@[simp] theorem State.updEnt_cycle (cl t e : Nat) (f : CopyEnt → CopyEnt) : (s.updEnt cl t e f).cycle = s.cycle := rfl
@[simp] theorem State.updEnt_slot (cl t e : Nat) (f : CopyEnt → CopyEnt) : (s.updEnt cl t e f).slot = s.slot := rfl
@[simp] theorem State.updEnt_mem (cl t e : Nat) (f : CopyEnt → CopyEnt) : (s.updEnt cl t e f).mem = s.mem := rfl
@[simp] theorem State.updEnt_errs (cl t e : Nat) (f : CopyEnt → CopyEnt) : (s.updEnt cl t e f).errs = s.errs := rfl
@[simp] theorem State.updEnt_hid (cl t e : Nat) (f : CopyEnt → CopyEnt) : (s.updEnt cl t e f).hid = s.hid := rfl
@[simp] theorem State.updEnt_takes (cl t e : Nat) (f : CopyEnt → CopyEnt) : (s.updEnt cl t e f).takes = s.takes := rfl
@[simp] theorem State.updEnt_frecs (cl t e : Nat) (f : CopyEnt → CopyEnt) : (s.updEnt cl t e f).frecs = s.frecs := rfl
@[simp] theorem State.updEnt_fns (cl t e : Nat) (f : CopyEnt → CopyEnt) : (s.updEnt cl t e f).fns = s.fns := rfl
@[simp] theorem State.updEnt_dies (cl t e : Nat) (f : CopyEnt → CopyEnt) : (s.updEnt cl t e f).dies = s.dies := rfl
@[simp] theorem State.updEnt_pairs (cl t e : Nat) (f : CopyEnt → CopyEnt) : (s.updEnt cl t e f).pairs = s.pairs := rfl
@[simp] theorem State.updEnt_pkgId (cl t e : Nat) (f : CopyEnt → CopyEnt) : (s.updEnt cl t e f).pkgId = s.pkgId := rfl
@[simp] theorem State.updEnt_svLock (cl t e : Nat) (f : CopyEnt → CopyEnt) : (s.updEnt cl t e f).svLock = s.svLock := rfl
@[simp] theorem State.updEnt_svports (cl t e : Nat) (f : CopyEnt → CopyEnt) : (s.updEnt cl t e f).svports = s.svports := rfl
@[simp] theorem State.updEnt_routes (cl t e : Nat) (f : CopyEnt → CopyEnt) : (s.updEnt cl t e f).routes = s.routes := rfl
@[simp] theorem State.updEnt_pins (cl t e : Nat) (f : CopyEnt → CopyEnt) : (s.updEnt cl t e f).pins = s.pins := rfl
@[simp] theorem State.updEnt_reach (cl t e : Nat) (f : CopyEnt → CopyEnt) : (s.updEnt cl t e f).reach = s.reach := rfl
@[simp] theorem State.updEnt_svevt (cl t e : Nat) (f : CopyEnt → CopyEnt) : (s.updEnt cl t e f).svevt = s.svevt := rfl
@[simp] theorem State.updEnt_svvec (cl t e : Nat) (f : CopyEnt → CopyEnt) : (s.updEnt cl t e f).svvec = s.svvec := rfl
@[simp] theorem State.updEnt_rleases (cl t e : Nat) (f : CopyEnt → CopyEnt) : (s.updEnt cl t e f).rleases = s.rleases := rfl
@[simp] theorem State.updEnt_rwaits (cl t e : Nat) (f : CopyEnt → CopyEnt) : (s.updEnt cl t e f).rwaits = s.rwaits := rfl
@[simp] theorem State.updEnt_rplots (cl t e : Nat) (f : CopyEnt → CopyEnt) : (s.updEnt cl t e f).rplots = s.rplots := rfl
@[simp] theorem State.updEnt_pleases (cl t e : Nat) (f : CopyEnt → CopyEnt) : (s.updEnt cl t e f).pleases = s.pleases := rfl
@[simp] theorem State.updEnt_reqs (cl t e : Nat) (f : CopyEnt → CopyEnt) : (s.updEnt cl t e f).reqs = s.reqs := rfl
@[simp] theorem State.updEnt_pkglim (cl t e : Nat) (f : CopyEnt → CopyEnt) : (s.updEnt cl t e f).pkglim = s.pkglim := rfl
@[simp] theorem State.updEnt_pkgpwr (cl t e : Nat) (f : CopyEnt → CopyEnt) : (s.updEnt cl t e f).pkgpwr = s.pkgpwr := rfl
@[simp] theorem State.updEnt_peak (cl t e : Nat) (f : CopyEnt → CopyEnt) : (s.updEnt cl t e f).peak = s.peak := rfl
@[simp] theorem State.updEnt_bkmask (cl t e : Nat) (f : CopyEnt → CopyEnt) : (s.updEnt cl t e f).bkmask = s.bkmask := rfl
@[simp] theorem State.updEnt_bkwin (cl t e : Nat) (f : CopyEnt → CopyEnt) : (s.updEnt cl t e f).bkwin = s.bkwin := rfl
@[simp] theorem State.updEnt_steward (cl t e : Nat) (f : CopyEnt → CopyEnt) : (s.updEnt cl t e f).steward = s.steward := rfl

/-! ### onMe -/

@[simp] theorem State.onMe_agenda (f : CueCtx → CueCtx) : (s.onMe f).agenda = s.agenda := rfl
@[simp] theorem State.onMe_curCl (f : CueCtx → CueCtx) : (s.onMe f).curCl = s.curCl := rfl
@[simp] theorem State.onMe_curK (f : CueCtx → CueCtx) : (s.onMe f).curK = s.curK := rfl
@[simp] theorem State.onMe_curRid (f : CueCtx → CueCtx) : (s.onMe f).curRid = s.curRid := rfl
@[simp] theorem State.onMe_curEl (f : CueCtx → CueCtx) : (s.onMe f).curEl = s.curEl := rfl
@[simp] theorem State.onMe_fresh (f : CueCtx → CueCtx) : (s.onMe f).fresh = s.fresh := rfl
@[simp] theorem State.onMe_outbox (f : CueCtx → CueCtx) : (s.onMe f).outbox = s.outbox := rfl
@[simp] theorem State.onMe_cycle (f : CueCtx → CueCtx) : (s.onMe f).cycle = s.cycle := rfl
@[simp] theorem State.onMe_slot (f : CueCtx → CueCtx) : (s.onMe f).slot = s.slot := rfl
@[simp] theorem State.onMe_mem (f : CueCtx → CueCtx) : (s.onMe f).mem = s.mem := rfl
@[simp] theorem State.onMe_errs (f : CueCtx → CueCtx) : (s.onMe f).errs = s.errs := rfl
@[simp] theorem State.onMe_hid (f : CueCtx → CueCtx) : (s.onMe f).hid = s.hid := rfl
@[simp] theorem State.onMe_takes (f : CueCtx → CueCtx) : (s.onMe f).takes = s.takes := rfl
@[simp] theorem State.onMe_frecs (f : CueCtx → CueCtx) : (s.onMe f).frecs = s.frecs := rfl
@[simp] theorem State.onMe_fns (f : CueCtx → CueCtx) : (s.onMe f).fns = s.fns := rfl
@[simp] theorem State.onMe_dies (f : CueCtx → CueCtx) : (s.onMe f).dies = s.dies := rfl
@[simp] theorem State.onMe_pairs (f : CueCtx → CueCtx) : (s.onMe f).pairs = s.pairs := rfl
@[simp] theorem State.onMe_pkgId (f : CueCtx → CueCtx) : (s.onMe f).pkgId = s.pkgId := rfl
@[simp] theorem State.onMe_svLock (f : CueCtx → CueCtx) : (s.onMe f).svLock = s.svLock := rfl
@[simp] theorem State.onMe_svports (f : CueCtx → CueCtx) : (s.onMe f).svports = s.svports := rfl
@[simp] theorem State.onMe_routes (f : CueCtx → CueCtx) : (s.onMe f).routes = s.routes := rfl
@[simp] theorem State.onMe_pins (f : CueCtx → CueCtx) : (s.onMe f).pins = s.pins := rfl
@[simp] theorem State.onMe_reach (f : CueCtx → CueCtx) : (s.onMe f).reach = s.reach := rfl
@[simp] theorem State.onMe_svevt (f : CueCtx → CueCtx) : (s.onMe f).svevt = s.svevt := rfl
@[simp] theorem State.onMe_svvec (f : CueCtx → CueCtx) : (s.onMe f).svvec = s.svvec := rfl
@[simp] theorem State.onMe_rleases (f : CueCtx → CueCtx) : (s.onMe f).rleases = s.rleases := rfl
@[simp] theorem State.onMe_rwaits (f : CueCtx → CueCtx) : (s.onMe f).rwaits = s.rwaits := rfl
@[simp] theorem State.onMe_rplots (f : CueCtx → CueCtx) : (s.onMe f).rplots = s.rplots := rfl
@[simp] theorem State.onMe_pleases (f : CueCtx → CueCtx) : (s.onMe f).pleases = s.pleases := rfl
@[simp] theorem State.onMe_reqs (f : CueCtx → CueCtx) : (s.onMe f).reqs = s.reqs := rfl
@[simp] theorem State.onMe_pkglim (f : CueCtx → CueCtx) : (s.onMe f).pkglim = s.pkglim := rfl
@[simp] theorem State.onMe_pkgpwr (f : CueCtx → CueCtx) : (s.onMe f).pkgpwr = s.pkgpwr := rfl
@[simp] theorem State.onMe_peak (f : CueCtx → CueCtx) : (s.onMe f).peak = s.peak := rfl
@[simp] theorem State.onMe_bkmask (f : CueCtx → CueCtx) : (s.onMe f).bkmask = s.bkmask := rfl
@[simp] theorem State.onMe_bkwin (f : CueCtx → CueCtx) : (s.onMe f).bkwin = s.bkwin := rfl
@[simp] theorem State.onMe_steward (f : CueCtx → CueCtx) : (s.onMe f).steward = s.steward := rfl

/-! ### updFn -/

@[simp] theorem State.updFn_agenda (n : Nat) (g : Fn → Fn) : (s.updFn n g).agenda = s.agenda := rfl
@[simp] theorem State.updFn_curCl (n : Nat) (g : Fn → Fn) : (s.updFn n g).curCl = s.curCl := rfl
@[simp] theorem State.updFn_curK (n : Nat) (g : Fn → Fn) : (s.updFn n g).curK = s.curK := rfl
@[simp] theorem State.updFn_curRid (n : Nat) (g : Fn → Fn) : (s.updFn n g).curRid = s.curRid := rfl
@[simp] theorem State.updFn_curEl (n : Nat) (g : Fn → Fn) : (s.updFn n g).curEl = s.curEl := rfl
@[simp] theorem State.updFn_fresh (n : Nat) (g : Fn → Fn) : (s.updFn n g).fresh = s.fresh := rfl
@[simp] theorem State.updFn_outbox (n : Nat) (g : Fn → Fn) : (s.updFn n g).outbox = s.outbox := rfl
@[simp] theorem State.updFn_cycle (n : Nat) (g : Fn → Fn) : (s.updFn n g).cycle = s.cycle := rfl
@[simp] theorem State.updFn_slot (n : Nat) (g : Fn → Fn) : (s.updFn n g).slot = s.slot := rfl
@[simp] theorem State.updFn_mem (n : Nat) (g : Fn → Fn) : (s.updFn n g).mem = s.mem := rfl
@[simp] theorem State.updFn_errs (n : Nat) (g : Fn → Fn) : (s.updFn n g).errs = s.errs := rfl
@[simp] theorem State.updFn_hid (n : Nat) (g : Fn → Fn) : (s.updFn n g).hid = s.hid := rfl
@[simp] theorem State.updFn_clusters (n : Nat) (g : Fn → Fn) : (s.updFn n g).clusters = s.clusters := rfl
@[simp] theorem State.updFn_takes (n : Nat) (g : Fn → Fn) : (s.updFn n g).takes = s.takes := rfl
@[simp] theorem State.updFn_frecs (n : Nat) (g : Fn → Fn) : (s.updFn n g).frecs = s.frecs := rfl
@[simp] theorem State.updFn_dies (n : Nat) (g : Fn → Fn) : (s.updFn n g).dies = s.dies := rfl
@[simp] theorem State.updFn_pairs (n : Nat) (g : Fn → Fn) : (s.updFn n g).pairs = s.pairs := rfl
@[simp] theorem State.updFn_pkgId (n : Nat) (g : Fn → Fn) : (s.updFn n g).pkgId = s.pkgId := rfl
@[simp] theorem State.updFn_svLock (n : Nat) (g : Fn → Fn) : (s.updFn n g).svLock = s.svLock := rfl
@[simp] theorem State.updFn_svports (n : Nat) (g : Fn → Fn) : (s.updFn n g).svports = s.svports := rfl
@[simp] theorem State.updFn_routes (n : Nat) (g : Fn → Fn) : (s.updFn n g).routes = s.routes := rfl
@[simp] theorem State.updFn_pins (n : Nat) (g : Fn → Fn) : (s.updFn n g).pins = s.pins := rfl
@[simp] theorem State.updFn_reach (n : Nat) (g : Fn → Fn) : (s.updFn n g).reach = s.reach := rfl
@[simp] theorem State.updFn_svevt (n : Nat) (g : Fn → Fn) : (s.updFn n g).svevt = s.svevt := rfl
@[simp] theorem State.updFn_svvec (n : Nat) (g : Fn → Fn) : (s.updFn n g).svvec = s.svvec := rfl
@[simp] theorem State.updFn_rleases (n : Nat) (g : Fn → Fn) : (s.updFn n g).rleases = s.rleases := rfl
@[simp] theorem State.updFn_rwaits (n : Nat) (g : Fn → Fn) : (s.updFn n g).rwaits = s.rwaits := rfl
@[simp] theorem State.updFn_rplots (n : Nat) (g : Fn → Fn) : (s.updFn n g).rplots = s.rplots := rfl
@[simp] theorem State.updFn_pleases (n : Nat) (g : Fn → Fn) : (s.updFn n g).pleases = s.pleases := rfl
@[simp] theorem State.updFn_reqs (n : Nat) (g : Fn → Fn) : (s.updFn n g).reqs = s.reqs := rfl
@[simp] theorem State.updFn_pkglim (n : Nat) (g : Fn → Fn) : (s.updFn n g).pkglim = s.pkglim := rfl
@[simp] theorem State.updFn_pkgpwr (n : Nat) (g : Fn → Fn) : (s.updFn n g).pkgpwr = s.pkgpwr := rfl
@[simp] theorem State.updFn_peak (n : Nat) (g : Fn → Fn) : (s.updFn n g).peak = s.peak := rfl
@[simp] theorem State.updFn_bkmask (n : Nat) (g : Fn → Fn) : (s.updFn n g).bkmask = s.bkmask := rfl
@[simp] theorem State.updFn_bkwin (n : Nat) (g : Fn → Fn) : (s.updFn n g).bkwin = s.bkwin := rfl
@[simp] theorem State.updFn_steward (n : Nat) (g : Fn → Fn) : (s.updFn n g).steward = s.steward := rfl

/-! ### updDie -/

@[simp] theorem State.updDie_agenda (d : Nat) (g : Die → Die) : (s.updDie d g).agenda = s.agenda := rfl
@[simp] theorem State.updDie_curCl (d : Nat) (g : Die → Die) : (s.updDie d g).curCl = s.curCl := rfl
@[simp] theorem State.updDie_curK (d : Nat) (g : Die → Die) : (s.updDie d g).curK = s.curK := rfl
@[simp] theorem State.updDie_curRid (d : Nat) (g : Die → Die) : (s.updDie d g).curRid = s.curRid := rfl
@[simp] theorem State.updDie_curEl (d : Nat) (g : Die → Die) : (s.updDie d g).curEl = s.curEl := rfl
@[simp] theorem State.updDie_fresh (d : Nat) (g : Die → Die) : (s.updDie d g).fresh = s.fresh := rfl
@[simp] theorem State.updDie_outbox (d : Nat) (g : Die → Die) : (s.updDie d g).outbox = s.outbox := rfl
@[simp] theorem State.updDie_cycle (d : Nat) (g : Die → Die) : (s.updDie d g).cycle = s.cycle := rfl
@[simp] theorem State.updDie_slot (d : Nat) (g : Die → Die) : (s.updDie d g).slot = s.slot := rfl
@[simp] theorem State.updDie_mem (d : Nat) (g : Die → Die) : (s.updDie d g).mem = s.mem := rfl
@[simp] theorem State.updDie_errs (d : Nat) (g : Die → Die) : (s.updDie d g).errs = s.errs := rfl
@[simp] theorem State.updDie_hid (d : Nat) (g : Die → Die) : (s.updDie d g).hid = s.hid := rfl
@[simp] theorem State.updDie_clusters (d : Nat) (g : Die → Die) : (s.updDie d g).clusters = s.clusters := rfl
@[simp] theorem State.updDie_takes (d : Nat) (g : Die → Die) : (s.updDie d g).takes = s.takes := rfl
@[simp] theorem State.updDie_frecs (d : Nat) (g : Die → Die) : (s.updDie d g).frecs = s.frecs := rfl
@[simp] theorem State.updDie_fns (d : Nat) (g : Die → Die) : (s.updDie d g).fns = s.fns := rfl
@[simp] theorem State.updDie_pairs (d : Nat) (g : Die → Die) : (s.updDie d g).pairs = s.pairs := rfl
@[simp] theorem State.updDie_pkgId (d : Nat) (g : Die → Die) : (s.updDie d g).pkgId = s.pkgId := rfl
@[simp] theorem State.updDie_svLock (d : Nat) (g : Die → Die) : (s.updDie d g).svLock = s.svLock := rfl
@[simp] theorem State.updDie_svports (d : Nat) (g : Die → Die) : (s.updDie d g).svports = s.svports := rfl
@[simp] theorem State.updDie_routes (d : Nat) (g : Die → Die) : (s.updDie d g).routes = s.routes := rfl
@[simp] theorem State.updDie_pins (d : Nat) (g : Die → Die) : (s.updDie d g).pins = s.pins := rfl
@[simp] theorem State.updDie_reach (d : Nat) (g : Die → Die) : (s.updDie d g).reach = s.reach := rfl
@[simp] theorem State.updDie_svevt (d : Nat) (g : Die → Die) : (s.updDie d g).svevt = s.svevt := rfl
@[simp] theorem State.updDie_svvec (d : Nat) (g : Die → Die) : (s.updDie d g).svvec = s.svvec := rfl
@[simp] theorem State.updDie_rleases (d : Nat) (g : Die → Die) : (s.updDie d g).rleases = s.rleases := rfl
@[simp] theorem State.updDie_rwaits (d : Nat) (g : Die → Die) : (s.updDie d g).rwaits = s.rwaits := rfl
@[simp] theorem State.updDie_rplots (d : Nat) (g : Die → Die) : (s.updDie d g).rplots = s.rplots := rfl
@[simp] theorem State.updDie_pleases (d : Nat) (g : Die → Die) : (s.updDie d g).pleases = s.pleases := rfl
@[simp] theorem State.updDie_reqs (d : Nat) (g : Die → Die) : (s.updDie d g).reqs = s.reqs := rfl
@[simp] theorem State.updDie_pkglim (d : Nat) (g : Die → Die) : (s.updDie d g).pkglim = s.pkglim := rfl
@[simp] theorem State.updDie_pkgpwr (d : Nat) (g : Die → Die) : (s.updDie d g).pkgpwr = s.pkgpwr := rfl
@[simp] theorem State.updDie_peak (d : Nat) (g : Die → Die) : (s.updDie d g).peak = s.peak := rfl
@[simp] theorem State.updDie_bkmask (d : Nat) (g : Die → Die) : (s.updDie d g).bkmask = s.bkmask := rfl
@[simp] theorem State.updDie_bkwin (d : Nat) (g : Die → Die) : (s.updDie d g).bkwin = s.bkwin := rfl
@[simp] theorem State.updDie_steward (d : Nat) (g : Die → Die) : (s.updDie d g).steward = s.steward := rfl

/-! ### updPair -/

@[simp] theorem State.updPair_agenda (p : Nat) (g : Pair → Pair) : (s.updPair p g).agenda = s.agenda := rfl
@[simp] theorem State.updPair_curCl (p : Nat) (g : Pair → Pair) : (s.updPair p g).curCl = s.curCl := rfl
@[simp] theorem State.updPair_curK (p : Nat) (g : Pair → Pair) : (s.updPair p g).curK = s.curK := rfl
@[simp] theorem State.updPair_curRid (p : Nat) (g : Pair → Pair) : (s.updPair p g).curRid = s.curRid := rfl
@[simp] theorem State.updPair_curEl (p : Nat) (g : Pair → Pair) : (s.updPair p g).curEl = s.curEl := rfl
@[simp] theorem State.updPair_fresh (p : Nat) (g : Pair → Pair) : (s.updPair p g).fresh = s.fresh := rfl
@[simp] theorem State.updPair_outbox (p : Nat) (g : Pair → Pair) : (s.updPair p g).outbox = s.outbox := rfl
@[simp] theorem State.updPair_cycle (p : Nat) (g : Pair → Pair) : (s.updPair p g).cycle = s.cycle := rfl
@[simp] theorem State.updPair_slot (p : Nat) (g : Pair → Pair) : (s.updPair p g).slot = s.slot := rfl
@[simp] theorem State.updPair_mem (p : Nat) (g : Pair → Pair) : (s.updPair p g).mem = s.mem := rfl
@[simp] theorem State.updPair_errs (p : Nat) (g : Pair → Pair) : (s.updPair p g).errs = s.errs := rfl
@[simp] theorem State.updPair_hid (p : Nat) (g : Pair → Pair) : (s.updPair p g).hid = s.hid := rfl
@[simp] theorem State.updPair_clusters (p : Nat) (g : Pair → Pair) : (s.updPair p g).clusters = s.clusters := rfl
@[simp] theorem State.updPair_takes (p : Nat) (g : Pair → Pair) : (s.updPair p g).takes = s.takes := rfl
@[simp] theorem State.updPair_frecs (p : Nat) (g : Pair → Pair) : (s.updPair p g).frecs = s.frecs := rfl
@[simp] theorem State.updPair_fns (p : Nat) (g : Pair → Pair) : (s.updPair p g).fns = s.fns := rfl
@[simp] theorem State.updPair_dies (p : Nat) (g : Pair → Pair) : (s.updPair p g).dies = s.dies := rfl
@[simp] theorem State.updPair_pkgId (p : Nat) (g : Pair → Pair) : (s.updPair p g).pkgId = s.pkgId := rfl
@[simp] theorem State.updPair_svLock (p : Nat) (g : Pair → Pair) : (s.updPair p g).svLock = s.svLock := rfl
@[simp] theorem State.updPair_svports (p : Nat) (g : Pair → Pair) : (s.updPair p g).svports = s.svports := rfl
@[simp] theorem State.updPair_routes (p : Nat) (g : Pair → Pair) : (s.updPair p g).routes = s.routes := rfl
@[simp] theorem State.updPair_pins (p : Nat) (g : Pair → Pair) : (s.updPair p g).pins = s.pins := rfl
@[simp] theorem State.updPair_reach (p : Nat) (g : Pair → Pair) : (s.updPair p g).reach = s.reach := rfl
@[simp] theorem State.updPair_svevt (p : Nat) (g : Pair → Pair) : (s.updPair p g).svevt = s.svevt := rfl
@[simp] theorem State.updPair_svvec (p : Nat) (g : Pair → Pair) : (s.updPair p g).svvec = s.svvec := rfl
@[simp] theorem State.updPair_rleases (p : Nat) (g : Pair → Pair) : (s.updPair p g).rleases = s.rleases := rfl
@[simp] theorem State.updPair_rwaits (p : Nat) (g : Pair → Pair) : (s.updPair p g).rwaits = s.rwaits := rfl
@[simp] theorem State.updPair_rplots (p : Nat) (g : Pair → Pair) : (s.updPair p g).rplots = s.rplots := rfl
@[simp] theorem State.updPair_pleases (p : Nat) (g : Pair → Pair) : (s.updPair p g).pleases = s.pleases := rfl
@[simp] theorem State.updPair_reqs (p : Nat) (g : Pair → Pair) : (s.updPair p g).reqs = s.reqs := rfl
@[simp] theorem State.updPair_pkglim (p : Nat) (g : Pair → Pair) : (s.updPair p g).pkglim = s.pkglim := rfl
@[simp] theorem State.updPair_pkgpwr (p : Nat) (g : Pair → Pair) : (s.updPair p g).pkgpwr = s.pkgpwr := rfl
@[simp] theorem State.updPair_peak (p : Nat) (g : Pair → Pair) : (s.updPair p g).peak = s.peak := rfl
@[simp] theorem State.updPair_bkmask (p : Nat) (g : Pair → Pair) : (s.updPair p g).bkmask = s.bkmask := rfl
@[simp] theorem State.updPair_bkwin (p : Nat) (g : Pair → Pair) : (s.updPair p g).bkwin = s.bkwin := rfl
@[simp] theorem State.updPair_steward (p : Nat) (g : Pair → Pair) : (s.updPair p g).steward = s.steward := rfl

/-! ### updPort -/

@[simp] theorem State.updPort_agenda (p : Nat) (g : SvPort → SvPort) : (s.updPort p g).agenda = s.agenda := rfl
@[simp] theorem State.updPort_curCl (p : Nat) (g : SvPort → SvPort) : (s.updPort p g).curCl = s.curCl := rfl
@[simp] theorem State.updPort_curK (p : Nat) (g : SvPort → SvPort) : (s.updPort p g).curK = s.curK := rfl
@[simp] theorem State.updPort_curRid (p : Nat) (g : SvPort → SvPort) : (s.updPort p g).curRid = s.curRid := rfl
@[simp] theorem State.updPort_curEl (p : Nat) (g : SvPort → SvPort) : (s.updPort p g).curEl = s.curEl := rfl
@[simp] theorem State.updPort_fresh (p : Nat) (g : SvPort → SvPort) : (s.updPort p g).fresh = s.fresh := rfl
@[simp] theorem State.updPort_outbox (p : Nat) (g : SvPort → SvPort) : (s.updPort p g).outbox = s.outbox := rfl
@[simp] theorem State.updPort_cycle (p : Nat) (g : SvPort → SvPort) : (s.updPort p g).cycle = s.cycle := rfl
@[simp] theorem State.updPort_slot (p : Nat) (g : SvPort → SvPort) : (s.updPort p g).slot = s.slot := rfl
@[simp] theorem State.updPort_mem (p : Nat) (g : SvPort → SvPort) : (s.updPort p g).mem = s.mem := rfl
@[simp] theorem State.updPort_errs (p : Nat) (g : SvPort → SvPort) : (s.updPort p g).errs = s.errs := rfl
@[simp] theorem State.updPort_hid (p : Nat) (g : SvPort → SvPort) : (s.updPort p g).hid = s.hid := rfl
@[simp] theorem State.updPort_clusters (p : Nat) (g : SvPort → SvPort) : (s.updPort p g).clusters = s.clusters := rfl
@[simp] theorem State.updPort_takes (p : Nat) (g : SvPort → SvPort) : (s.updPort p g).takes = s.takes := rfl
@[simp] theorem State.updPort_frecs (p : Nat) (g : SvPort → SvPort) : (s.updPort p g).frecs = s.frecs := rfl
@[simp] theorem State.updPort_fns (p : Nat) (g : SvPort → SvPort) : (s.updPort p g).fns = s.fns := rfl
@[simp] theorem State.updPort_dies (p : Nat) (g : SvPort → SvPort) : (s.updPort p g).dies = s.dies := rfl
@[simp] theorem State.updPort_pairs (p : Nat) (g : SvPort → SvPort) : (s.updPort p g).pairs = s.pairs := rfl
@[simp] theorem State.updPort_pkgId (p : Nat) (g : SvPort → SvPort) : (s.updPort p g).pkgId = s.pkgId := rfl
@[simp] theorem State.updPort_svLock (p : Nat) (g : SvPort → SvPort) : (s.updPort p g).svLock = s.svLock := rfl
@[simp] theorem State.updPort_routes (p : Nat) (g : SvPort → SvPort) : (s.updPort p g).routes = s.routes := rfl
@[simp] theorem State.updPort_pins (p : Nat) (g : SvPort → SvPort) : (s.updPort p g).pins = s.pins := rfl
@[simp] theorem State.updPort_reach (p : Nat) (g : SvPort → SvPort) : (s.updPort p g).reach = s.reach := rfl
@[simp] theorem State.updPort_svevt (p : Nat) (g : SvPort → SvPort) : (s.updPort p g).svevt = s.svevt := rfl
@[simp] theorem State.updPort_svvec (p : Nat) (g : SvPort → SvPort) : (s.updPort p g).svvec = s.svvec := rfl
@[simp] theorem State.updPort_rleases (p : Nat) (g : SvPort → SvPort) : (s.updPort p g).rleases = s.rleases := rfl
@[simp] theorem State.updPort_rwaits (p : Nat) (g : SvPort → SvPort) : (s.updPort p g).rwaits = s.rwaits := rfl
@[simp] theorem State.updPort_rplots (p : Nat) (g : SvPort → SvPort) : (s.updPort p g).rplots = s.rplots := rfl
@[simp] theorem State.updPort_pleases (p : Nat) (g : SvPort → SvPort) : (s.updPort p g).pleases = s.pleases := rfl
@[simp] theorem State.updPort_reqs (p : Nat) (g : SvPort → SvPort) : (s.updPort p g).reqs = s.reqs := rfl
@[simp] theorem State.updPort_pkglim (p : Nat) (g : SvPort → SvPort) : (s.updPort p g).pkglim = s.pkglim := rfl
@[simp] theorem State.updPort_pkgpwr (p : Nat) (g : SvPort → SvPort) : (s.updPort p g).pkgpwr = s.pkgpwr := rfl
@[simp] theorem State.updPort_peak (p : Nat) (g : SvPort → SvPort) : (s.updPort p g).peak = s.peak := rfl
@[simp] theorem State.updPort_bkmask (p : Nat) (g : SvPort → SvPort) : (s.updPort p g).bkmask = s.bkmask := rfl
@[simp] theorem State.updPort_bkwin (p : Nat) (g : SvPort → SvPort) : (s.updPort p g).bkwin = s.bkwin := rfl
@[simp] theorem State.updPort_steward (p : Nat) (g : SvPort → SvPort) : (s.updPort p g).steward = s.steward := rfl

/-! ### updPin -/

@[simp] theorem State.updPin_agenda (n : Nat) (g : Pin → Pin) : (s.updPin n g).agenda = s.agenda := rfl
@[simp] theorem State.updPin_curCl (n : Nat) (g : Pin → Pin) : (s.updPin n g).curCl = s.curCl := rfl
@[simp] theorem State.updPin_curK (n : Nat) (g : Pin → Pin) : (s.updPin n g).curK = s.curK := rfl
@[simp] theorem State.updPin_curRid (n : Nat) (g : Pin → Pin) : (s.updPin n g).curRid = s.curRid := rfl
@[simp] theorem State.updPin_curEl (n : Nat) (g : Pin → Pin) : (s.updPin n g).curEl = s.curEl := rfl
@[simp] theorem State.updPin_fresh (n : Nat) (g : Pin → Pin) : (s.updPin n g).fresh = s.fresh := rfl
@[simp] theorem State.updPin_outbox (n : Nat) (g : Pin → Pin) : (s.updPin n g).outbox = s.outbox := rfl
@[simp] theorem State.updPin_cycle (n : Nat) (g : Pin → Pin) : (s.updPin n g).cycle = s.cycle := rfl
@[simp] theorem State.updPin_slot (n : Nat) (g : Pin → Pin) : (s.updPin n g).slot = s.slot := rfl
@[simp] theorem State.updPin_mem (n : Nat) (g : Pin → Pin) : (s.updPin n g).mem = s.mem := rfl
@[simp] theorem State.updPin_errs (n : Nat) (g : Pin → Pin) : (s.updPin n g).errs = s.errs := rfl
@[simp] theorem State.updPin_hid (n : Nat) (g : Pin → Pin) : (s.updPin n g).hid = s.hid := rfl
@[simp] theorem State.updPin_clusters (n : Nat) (g : Pin → Pin) : (s.updPin n g).clusters = s.clusters := rfl
@[simp] theorem State.updPin_takes (n : Nat) (g : Pin → Pin) : (s.updPin n g).takes = s.takes := rfl
@[simp] theorem State.updPin_frecs (n : Nat) (g : Pin → Pin) : (s.updPin n g).frecs = s.frecs := rfl
@[simp] theorem State.updPin_fns (n : Nat) (g : Pin → Pin) : (s.updPin n g).fns = s.fns := rfl
@[simp] theorem State.updPin_dies (n : Nat) (g : Pin → Pin) : (s.updPin n g).dies = s.dies := rfl
@[simp] theorem State.updPin_pairs (n : Nat) (g : Pin → Pin) : (s.updPin n g).pairs = s.pairs := rfl
@[simp] theorem State.updPin_pkgId (n : Nat) (g : Pin → Pin) : (s.updPin n g).pkgId = s.pkgId := rfl
@[simp] theorem State.updPin_svLock (n : Nat) (g : Pin → Pin) : (s.updPin n g).svLock = s.svLock := rfl
@[simp] theorem State.updPin_svports (n : Nat) (g : Pin → Pin) : (s.updPin n g).svports = s.svports := rfl
@[simp] theorem State.updPin_routes (n : Nat) (g : Pin → Pin) : (s.updPin n g).routes = s.routes := rfl
@[simp] theorem State.updPin_reach (n : Nat) (g : Pin → Pin) : (s.updPin n g).reach = s.reach := rfl
@[simp] theorem State.updPin_svevt (n : Nat) (g : Pin → Pin) : (s.updPin n g).svevt = s.svevt := rfl
@[simp] theorem State.updPin_svvec (n : Nat) (g : Pin → Pin) : (s.updPin n g).svvec = s.svvec := rfl
@[simp] theorem State.updPin_rleases (n : Nat) (g : Pin → Pin) : (s.updPin n g).rleases = s.rleases := rfl
@[simp] theorem State.updPin_rwaits (n : Nat) (g : Pin → Pin) : (s.updPin n g).rwaits = s.rwaits := rfl
@[simp] theorem State.updPin_rplots (n : Nat) (g : Pin → Pin) : (s.updPin n g).rplots = s.rplots := rfl
@[simp] theorem State.updPin_pleases (n : Nat) (g : Pin → Pin) : (s.updPin n g).pleases = s.pleases := rfl
@[simp] theorem State.updPin_reqs (n : Nat) (g : Pin → Pin) : (s.updPin n g).reqs = s.reqs := rfl
@[simp] theorem State.updPin_pkglim (n : Nat) (g : Pin → Pin) : (s.updPin n g).pkglim = s.pkglim := rfl
@[simp] theorem State.updPin_pkgpwr (n : Nat) (g : Pin → Pin) : (s.updPin n g).pkgpwr = s.pkgpwr := rfl
@[simp] theorem State.updPin_peak (n : Nat) (g : Pin → Pin) : (s.updPin n g).peak = s.peak := rfl
@[simp] theorem State.updPin_bkmask (n : Nat) (g : Pin → Pin) : (s.updPin n g).bkmask = s.bkmask := rfl
@[simp] theorem State.updPin_bkwin (n : Nat) (g : Pin → Pin) : (s.updPin n g).bkwin = s.bkwin := rfl
@[simp] theorem State.updPin_steward (n : Nat) (g : Pin → Pin) : (s.updPin n g).steward = s.steward := rfl

/-! ### updTake -/

@[simp] theorem State.updTake_agenda (id : Nat) (f : Take → Take) : (s.updTake id f).agenda = s.agenda := rfl
@[simp] theorem State.updTake_curCl (id : Nat) (f : Take → Take) : (s.updTake id f).curCl = s.curCl := rfl
@[simp] theorem State.updTake_curK (id : Nat) (f : Take → Take) : (s.updTake id f).curK = s.curK := rfl
@[simp] theorem State.updTake_curRid (id : Nat) (f : Take → Take) : (s.updTake id f).curRid = s.curRid := rfl
@[simp] theorem State.updTake_curEl (id : Nat) (f : Take → Take) : (s.updTake id f).curEl = s.curEl := rfl
@[simp] theorem State.updTake_fresh (id : Nat) (f : Take → Take) : (s.updTake id f).fresh = s.fresh := rfl
@[simp] theorem State.updTake_outbox (id : Nat) (f : Take → Take) : (s.updTake id f).outbox = s.outbox := rfl
@[simp] theorem State.updTake_cycle (id : Nat) (f : Take → Take) : (s.updTake id f).cycle = s.cycle := rfl
@[simp] theorem State.updTake_slot (id : Nat) (f : Take → Take) : (s.updTake id f).slot = s.slot := rfl
@[simp] theorem State.updTake_mem (id : Nat) (f : Take → Take) : (s.updTake id f).mem = s.mem := rfl
@[simp] theorem State.updTake_errs (id : Nat) (f : Take → Take) : (s.updTake id f).errs = s.errs := rfl
@[simp] theorem State.updTake_hid (id : Nat) (f : Take → Take) : (s.updTake id f).hid = s.hid := rfl
@[simp] theorem State.updTake_clusters (id : Nat) (f : Take → Take) : (s.updTake id f).clusters = s.clusters := rfl
@[simp] theorem State.updTake_frecs (id : Nat) (f : Take → Take) : (s.updTake id f).frecs = s.frecs := rfl
@[simp] theorem State.updTake_fns (id : Nat) (f : Take → Take) : (s.updTake id f).fns = s.fns := rfl
@[simp] theorem State.updTake_dies (id : Nat) (f : Take → Take) : (s.updTake id f).dies = s.dies := rfl
@[simp] theorem State.updTake_pairs (id : Nat) (f : Take → Take) : (s.updTake id f).pairs = s.pairs := rfl
@[simp] theorem State.updTake_pkgId (id : Nat) (f : Take → Take) : (s.updTake id f).pkgId = s.pkgId := rfl
@[simp] theorem State.updTake_svLock (id : Nat) (f : Take → Take) : (s.updTake id f).svLock = s.svLock := rfl
@[simp] theorem State.updTake_svports (id : Nat) (f : Take → Take) : (s.updTake id f).svports = s.svports := rfl
@[simp] theorem State.updTake_routes (id : Nat) (f : Take → Take) : (s.updTake id f).routes = s.routes := rfl
@[simp] theorem State.updTake_pins (id : Nat) (f : Take → Take) : (s.updTake id f).pins = s.pins := rfl
@[simp] theorem State.updTake_reach (id : Nat) (f : Take → Take) : (s.updTake id f).reach = s.reach := rfl
@[simp] theorem State.updTake_svevt (id : Nat) (f : Take → Take) : (s.updTake id f).svevt = s.svevt := rfl
@[simp] theorem State.updTake_svvec (id : Nat) (f : Take → Take) : (s.updTake id f).svvec = s.svvec := rfl
@[simp] theorem State.updTake_rleases (id : Nat) (f : Take → Take) : (s.updTake id f).rleases = s.rleases := rfl
@[simp] theorem State.updTake_rwaits (id : Nat) (f : Take → Take) : (s.updTake id f).rwaits = s.rwaits := rfl
@[simp] theorem State.updTake_rplots (id : Nat) (f : Take → Take) : (s.updTake id f).rplots = s.rplots := rfl
@[simp] theorem State.updTake_pleases (id : Nat) (f : Take → Take) : (s.updTake id f).pleases = s.pleases := rfl
@[simp] theorem State.updTake_reqs (id : Nat) (f : Take → Take) : (s.updTake id f).reqs = s.reqs := rfl
@[simp] theorem State.updTake_pkglim (id : Nat) (f : Take → Take) : (s.updTake id f).pkglim = s.pkglim := rfl
@[simp] theorem State.updTake_pkgpwr (id : Nat) (f : Take → Take) : (s.updTake id f).pkgpwr = s.pkgpwr := rfl
@[simp] theorem State.updTake_peak (id : Nat) (f : Take → Take) : (s.updTake id f).peak = s.peak := rfl
@[simp] theorem State.updTake_bkmask (id : Nat) (f : Take → Take) : (s.updTake id f).bkmask = s.bkmask := rfl
@[simp] theorem State.updTake_bkwin (id : Nat) (f : Take → Take) : (s.updTake id f).bkwin = s.bkwin := rfl
@[simp] theorem State.updTake_steward (id : Nat) (f : Take → Take) : (s.updTake id f).steward = s.steward := rfl

/-! ### putByte -/

@[simp] theorem State.putByte_agenda (a : Nat) (v : Byte) : (s.putByte a v).agenda = s.agenda := rfl
@[simp] theorem State.putByte_curCl (a : Nat) (v : Byte) : (s.putByte a v).curCl = s.curCl := rfl
@[simp] theorem State.putByte_curK (a : Nat) (v : Byte) : (s.putByte a v).curK = s.curK := rfl
@[simp] theorem State.putByte_curRid (a : Nat) (v : Byte) : (s.putByte a v).curRid = s.curRid := rfl
@[simp] theorem State.putByte_curEl (a : Nat) (v : Byte) : (s.putByte a v).curEl = s.curEl := rfl
@[simp] theorem State.putByte_fresh (a : Nat) (v : Byte) : (s.putByte a v).fresh = s.fresh := rfl
@[simp] theorem State.putByte_outbox (a : Nat) (v : Byte) : (s.putByte a v).outbox = s.outbox := rfl
@[simp] theorem State.putByte_cycle (a : Nat) (v : Byte) : (s.putByte a v).cycle = s.cycle := rfl
@[simp] theorem State.putByte_slot (a : Nat) (v : Byte) : (s.putByte a v).slot = s.slot := rfl
@[simp] theorem State.putByte_errs (a : Nat) (v : Byte) : (s.putByte a v).errs = s.errs := rfl
@[simp] theorem State.putByte_hid (a : Nat) (v : Byte) : (s.putByte a v).hid = s.hid := rfl
@[simp] theorem State.putByte_clusters (a : Nat) (v : Byte) : (s.putByte a v).clusters = s.clusters := rfl
@[simp] theorem State.putByte_takes (a : Nat) (v : Byte) : (s.putByte a v).takes = s.takes := rfl
@[simp] theorem State.putByte_frecs (a : Nat) (v : Byte) : (s.putByte a v).frecs = s.frecs := rfl
@[simp] theorem State.putByte_fns (a : Nat) (v : Byte) : (s.putByte a v).fns = s.fns := rfl
@[simp] theorem State.putByte_dies (a : Nat) (v : Byte) : (s.putByte a v).dies = s.dies := rfl
@[simp] theorem State.putByte_pairs (a : Nat) (v : Byte) : (s.putByte a v).pairs = s.pairs := rfl
@[simp] theorem State.putByte_pkgId (a : Nat) (v : Byte) : (s.putByte a v).pkgId = s.pkgId := rfl
@[simp] theorem State.putByte_svLock (a : Nat) (v : Byte) : (s.putByte a v).svLock = s.svLock := rfl
@[simp] theorem State.putByte_svports (a : Nat) (v : Byte) : (s.putByte a v).svports = s.svports := rfl
@[simp] theorem State.putByte_routes (a : Nat) (v : Byte) : (s.putByte a v).routes = s.routes := rfl
@[simp] theorem State.putByte_pins (a : Nat) (v : Byte) : (s.putByte a v).pins = s.pins := rfl
@[simp] theorem State.putByte_reach (a : Nat) (v : Byte) : (s.putByte a v).reach = s.reach := rfl
@[simp] theorem State.putByte_svevt (a : Nat) (v : Byte) : (s.putByte a v).svevt = s.svevt := rfl
@[simp] theorem State.putByte_svvec (a : Nat) (v : Byte) : (s.putByte a v).svvec = s.svvec := rfl
@[simp] theorem State.putByte_rleases (a : Nat) (v : Byte) : (s.putByte a v).rleases = s.rleases := rfl
@[simp] theorem State.putByte_rwaits (a : Nat) (v : Byte) : (s.putByte a v).rwaits = s.rwaits := rfl
@[simp] theorem State.putByte_rplots (a : Nat) (v : Byte) : (s.putByte a v).rplots = s.rplots := rfl
@[simp] theorem State.putByte_pleases (a : Nat) (v : Byte) : (s.putByte a v).pleases = s.pleases := rfl
@[simp] theorem State.putByte_reqs (a : Nat) (v : Byte) : (s.putByte a v).reqs = s.reqs := rfl
@[simp] theorem State.putByte_pkglim (a : Nat) (v : Byte) : (s.putByte a v).pkglim = s.pkglim := rfl
@[simp] theorem State.putByte_pkgpwr (a : Nat) (v : Byte) : (s.putByte a v).pkgpwr = s.pkgpwr := rfl
@[simp] theorem State.putByte_peak (a : Nat) (v : Byte) : (s.putByte a v).peak = s.peak := rfl
@[simp] theorem State.putByte_bkmask (a : Nat) (v : Byte) : (s.putByte a v).bkmask = s.bkmask := rfl
@[simp] theorem State.putByte_bkwin (a : Nat) (v : Byte) : (s.putByte a v).bkwin = s.bkwin := rfl
@[simp] theorem State.putByte_steward (a : Nat) (v : Byte) : (s.putByte a v).steward = s.steward := rfl

/-! ### post -/

@[simp] theorem State.post_curCl (t : Turn) : (s.post t).curCl = s.curCl := rfl
@[simp] theorem State.post_curK (t : Turn) : (s.post t).curK = s.curK := rfl
@[simp] theorem State.post_curRid (t : Turn) : (s.post t).curRid = s.curRid := rfl
@[simp] theorem State.post_curEl (t : Turn) : (s.post t).curEl = s.curEl := rfl
@[simp] theorem State.post_fresh (t : Turn) : (s.post t).fresh = s.fresh := rfl
@[simp] theorem State.post_outbox (t : Turn) : (s.post t).outbox = s.outbox := rfl
@[simp] theorem State.post_cycle (t : Turn) : (s.post t).cycle = s.cycle := rfl
@[simp] theorem State.post_slot (t : Turn) : (s.post t).slot = s.slot := rfl
@[simp] theorem State.post_mem (t : Turn) : (s.post t).mem = s.mem := rfl
@[simp] theorem State.post_errs (t : Turn) : (s.post t).errs = s.errs := rfl
@[simp] theorem State.post_hid (t : Turn) : (s.post t).hid = s.hid := rfl
@[simp] theorem State.post_clusters (t : Turn) : (s.post t).clusters = s.clusters := rfl
@[simp] theorem State.post_takes (t : Turn) : (s.post t).takes = s.takes := rfl
@[simp] theorem State.post_frecs (t : Turn) : (s.post t).frecs = s.frecs := rfl
@[simp] theorem State.post_fns (t : Turn) : (s.post t).fns = s.fns := rfl
@[simp] theorem State.post_dies (t : Turn) : (s.post t).dies = s.dies := rfl
@[simp] theorem State.post_pairs (t : Turn) : (s.post t).pairs = s.pairs := rfl
@[simp] theorem State.post_pkgId (t : Turn) : (s.post t).pkgId = s.pkgId := rfl
@[simp] theorem State.post_svLock (t : Turn) : (s.post t).svLock = s.svLock := rfl
@[simp] theorem State.post_svports (t : Turn) : (s.post t).svports = s.svports := rfl
@[simp] theorem State.post_routes (t : Turn) : (s.post t).routes = s.routes := rfl
@[simp] theorem State.post_pins (t : Turn) : (s.post t).pins = s.pins := rfl
@[simp] theorem State.post_reach (t : Turn) : (s.post t).reach = s.reach := rfl
@[simp] theorem State.post_svevt (t : Turn) : (s.post t).svevt = s.svevt := rfl
@[simp] theorem State.post_svvec (t : Turn) : (s.post t).svvec = s.svvec := rfl
@[simp] theorem State.post_rleases (t : Turn) : (s.post t).rleases = s.rleases := rfl
@[simp] theorem State.post_rwaits (t : Turn) : (s.post t).rwaits = s.rwaits := rfl
@[simp] theorem State.post_rplots (t : Turn) : (s.post t).rplots = s.rplots := rfl
@[simp] theorem State.post_pleases (t : Turn) : (s.post t).pleases = s.pleases := rfl
@[simp] theorem State.post_reqs (t : Turn) : (s.post t).reqs = s.reqs := rfl
@[simp] theorem State.post_pkglim (t : Turn) : (s.post t).pkglim = s.pkglim := rfl
@[simp] theorem State.post_pkgpwr (t : Turn) : (s.post t).pkgpwr = s.pkgpwr := rfl
@[simp] theorem State.post_peak (t : Turn) : (s.post t).peak = s.peak := rfl
@[simp] theorem State.post_bkmask (t : Turn) : (s.post t).bkmask = s.bkmask := rfl
@[simp] theorem State.post_bkwin (t : Turn) : (s.post t).bkwin = s.bkwin := rfl
@[simp] theorem State.post_steward (t : Turn) : (s.post t).steward = s.steward := rfl

/-! ### postDev -/

@[simp] theorem State.postDev_curCl (i : Instr) : (s.postDev i).curCl = s.curCl := rfl
@[simp] theorem State.postDev_curK (i : Instr) : (s.postDev i).curK = s.curK := rfl
@[simp] theorem State.postDev_curRid (i : Instr) : (s.postDev i).curRid = s.curRid := rfl
@[simp] theorem State.postDev_curEl (i : Instr) : (s.postDev i).curEl = s.curEl := rfl
@[simp] theorem State.postDev_fresh (i : Instr) : (s.postDev i).fresh = s.fresh := rfl
@[simp] theorem State.postDev_outbox (i : Instr) : (s.postDev i).outbox = s.outbox := rfl
@[simp] theorem State.postDev_cycle (i : Instr) : (s.postDev i).cycle = s.cycle := rfl
@[simp] theorem State.postDev_slot (i : Instr) : (s.postDev i).slot = s.slot := rfl
@[simp] theorem State.postDev_mem (i : Instr) : (s.postDev i).mem = s.mem := rfl
@[simp] theorem State.postDev_errs (i : Instr) : (s.postDev i).errs = s.errs := rfl
@[simp] theorem State.postDev_hid (i : Instr) : (s.postDev i).hid = s.hid := rfl
@[simp] theorem State.postDev_clusters (i : Instr) : (s.postDev i).clusters = s.clusters := rfl
@[simp] theorem State.postDev_takes (i : Instr) : (s.postDev i).takes = s.takes := rfl
@[simp] theorem State.postDev_frecs (i : Instr) : (s.postDev i).frecs = s.frecs := rfl
@[simp] theorem State.postDev_fns (i : Instr) : (s.postDev i).fns = s.fns := rfl
@[simp] theorem State.postDev_dies (i : Instr) : (s.postDev i).dies = s.dies := rfl
@[simp] theorem State.postDev_pairs (i : Instr) : (s.postDev i).pairs = s.pairs := rfl
@[simp] theorem State.postDev_pkgId (i : Instr) : (s.postDev i).pkgId = s.pkgId := rfl
@[simp] theorem State.postDev_svLock (i : Instr) : (s.postDev i).svLock = s.svLock := rfl
@[simp] theorem State.postDev_svports (i : Instr) : (s.postDev i).svports = s.svports := rfl
@[simp] theorem State.postDev_routes (i : Instr) : (s.postDev i).routes = s.routes := rfl
@[simp] theorem State.postDev_pins (i : Instr) : (s.postDev i).pins = s.pins := rfl
@[simp] theorem State.postDev_reach (i : Instr) : (s.postDev i).reach = s.reach := rfl
@[simp] theorem State.postDev_svevt (i : Instr) : (s.postDev i).svevt = s.svevt := rfl
@[simp] theorem State.postDev_svvec (i : Instr) : (s.postDev i).svvec = s.svvec := rfl
@[simp] theorem State.postDev_rleases (i : Instr) : (s.postDev i).rleases = s.rleases := rfl
@[simp] theorem State.postDev_rwaits (i : Instr) : (s.postDev i).rwaits = s.rwaits := rfl
@[simp] theorem State.postDev_rplots (i : Instr) : (s.postDev i).rplots = s.rplots := rfl
@[simp] theorem State.postDev_pleases (i : Instr) : (s.postDev i).pleases = s.pleases := rfl
@[simp] theorem State.postDev_reqs (i : Instr) : (s.postDev i).reqs = s.reqs := rfl
@[simp] theorem State.postDev_pkglim (i : Instr) : (s.postDev i).pkglim = s.pkglim := rfl
@[simp] theorem State.postDev_pkgpwr (i : Instr) : (s.postDev i).pkgpwr = s.pkgpwr := rfl
@[simp] theorem State.postDev_peak (i : Instr) : (s.postDev i).peak = s.peak := rfl
@[simp] theorem State.postDev_bkmask (i : Instr) : (s.postDev i).bkmask = s.bkmask := rfl
@[simp] theorem State.postDev_bkwin (i : Instr) : (s.postDev i).bkwin = s.bkwin := rfl
@[simp] theorem State.postDev_steward (i : Instr) : (s.postDev i).steward = s.steward := rfl

/-! ### emit -/

@[simp] theorem State.emit_agenda (m : OutMsg) : (s.emit m).agenda = s.agenda := rfl
@[simp] theorem State.emit_curCl (m : OutMsg) : (s.emit m).curCl = s.curCl := rfl
@[simp] theorem State.emit_curK (m : OutMsg) : (s.emit m).curK = s.curK := rfl
@[simp] theorem State.emit_curRid (m : OutMsg) : (s.emit m).curRid = s.curRid := rfl
@[simp] theorem State.emit_curEl (m : OutMsg) : (s.emit m).curEl = s.curEl := rfl
@[simp] theorem State.emit_fresh (m : OutMsg) : (s.emit m).fresh = s.fresh := rfl
@[simp] theorem State.emit_cycle (m : OutMsg) : (s.emit m).cycle = s.cycle := rfl
@[simp] theorem State.emit_slot (m : OutMsg) : (s.emit m).slot = s.slot := rfl
@[simp] theorem State.emit_mem (m : OutMsg) : (s.emit m).mem = s.mem := rfl
@[simp] theorem State.emit_errs (m : OutMsg) : (s.emit m).errs = s.errs := rfl
@[simp] theorem State.emit_hid (m : OutMsg) : (s.emit m).hid = s.hid := rfl
@[simp] theorem State.emit_clusters (m : OutMsg) : (s.emit m).clusters = s.clusters := rfl
@[simp] theorem State.emit_takes (m : OutMsg) : (s.emit m).takes = s.takes := rfl
@[simp] theorem State.emit_frecs (m : OutMsg) : (s.emit m).frecs = s.frecs := rfl
@[simp] theorem State.emit_fns (m : OutMsg) : (s.emit m).fns = s.fns := rfl
@[simp] theorem State.emit_dies (m : OutMsg) : (s.emit m).dies = s.dies := rfl
@[simp] theorem State.emit_pairs (m : OutMsg) : (s.emit m).pairs = s.pairs := rfl
@[simp] theorem State.emit_pkgId (m : OutMsg) : (s.emit m).pkgId = s.pkgId := rfl
@[simp] theorem State.emit_svLock (m : OutMsg) : (s.emit m).svLock = s.svLock := rfl
@[simp] theorem State.emit_svports (m : OutMsg) : (s.emit m).svports = s.svports := rfl
@[simp] theorem State.emit_routes (m : OutMsg) : (s.emit m).routes = s.routes := rfl
@[simp] theorem State.emit_pins (m : OutMsg) : (s.emit m).pins = s.pins := rfl
@[simp] theorem State.emit_reach (m : OutMsg) : (s.emit m).reach = s.reach := rfl
@[simp] theorem State.emit_svevt (m : OutMsg) : (s.emit m).svevt = s.svevt := rfl
@[simp] theorem State.emit_svvec (m : OutMsg) : (s.emit m).svvec = s.svvec := rfl
@[simp] theorem State.emit_rleases (m : OutMsg) : (s.emit m).rleases = s.rleases := rfl
@[simp] theorem State.emit_rwaits (m : OutMsg) : (s.emit m).rwaits = s.rwaits := rfl
@[simp] theorem State.emit_rplots (m : OutMsg) : (s.emit m).rplots = s.rplots := rfl
@[simp] theorem State.emit_pleases (m : OutMsg) : (s.emit m).pleases = s.pleases := rfl
@[simp] theorem State.emit_reqs (m : OutMsg) : (s.emit m).reqs = s.reqs := rfl
@[simp] theorem State.emit_pkglim (m : OutMsg) : (s.emit m).pkglim = s.pkglim := rfl
@[simp] theorem State.emit_pkgpwr (m : OutMsg) : (s.emit m).pkgpwr = s.pkgpwr := rfl
@[simp] theorem State.emit_peak (m : OutMsg) : (s.emit m).peak = s.peak := rfl
@[simp] theorem State.emit_bkmask (m : OutMsg) : (s.emit m).bkmask = s.bkmask := rfl
@[simp] theorem State.emit_bkwin (m : OutMsg) : (s.emit m).bkwin = s.bkwin := rfl
@[simp] theorem State.emit_steward (m : OutMsg) : (s.emit m).steward = s.steward := rfl

/-! ### result -/

@[simp] theorem State.result_agenda (n : Nat) (d : Reg) (v : Word) : (s.result n d v).agenda = s.agenda := rfl
@[simp] theorem State.result_curCl (n : Nat) (d : Reg) (v : Word) : (s.result n d v).curCl = s.curCl := rfl
@[simp] theorem State.result_curK (n : Nat) (d : Reg) (v : Word) : (s.result n d v).curK = s.curK := rfl
@[simp] theorem State.result_curRid (n : Nat) (d : Reg) (v : Word) : (s.result n d v).curRid = s.curRid := rfl
@[simp] theorem State.result_curEl (n : Nat) (d : Reg) (v : Word) : (s.result n d v).curEl = s.curEl := rfl
@[simp] theorem State.result_fresh (n : Nat) (d : Reg) (v : Word) : (s.result n d v).fresh = s.fresh := rfl
@[simp] theorem State.result_outbox (n : Nat) (d : Reg) (v : Word) : (s.result n d v).outbox = s.outbox := rfl
@[simp] theorem State.result_cycle (n : Nat) (d : Reg) (v : Word) : (s.result n d v).cycle = s.cycle := rfl
@[simp] theorem State.result_slot (n : Nat) (d : Reg) (v : Word) : (s.result n d v).slot = s.slot := rfl
@[simp] theorem State.result_mem (n : Nat) (d : Reg) (v : Word) : (s.result n d v).mem = s.mem := rfl
@[simp] theorem State.result_errs (n : Nat) (d : Reg) (v : Word) : (s.result n d v).errs = s.errs := rfl
@[simp] theorem State.result_hid (n : Nat) (d : Reg) (v : Word) : (s.result n d v).hid = s.hid := rfl
@[simp] theorem State.result_takes (n : Nat) (d : Reg) (v : Word) : (s.result n d v).takes = s.takes := rfl
@[simp] theorem State.result_frecs (n : Nat) (d : Reg) (v : Word) : (s.result n d v).frecs = s.frecs := rfl
@[simp] theorem State.result_fns (n : Nat) (d : Reg) (v : Word) : (s.result n d v).fns = s.fns := rfl
@[simp] theorem State.result_dies (n : Nat) (d : Reg) (v : Word) : (s.result n d v).dies = s.dies := rfl
@[simp] theorem State.result_pairs (n : Nat) (d : Reg) (v : Word) : (s.result n d v).pairs = s.pairs := rfl
@[simp] theorem State.result_pkgId (n : Nat) (d : Reg) (v : Word) : (s.result n d v).pkgId = s.pkgId := rfl
@[simp] theorem State.result_svLock (n : Nat) (d : Reg) (v : Word) : (s.result n d v).svLock = s.svLock := rfl
@[simp] theorem State.result_svports (n : Nat) (d : Reg) (v : Word) : (s.result n d v).svports = s.svports := rfl
@[simp] theorem State.result_routes (n : Nat) (d : Reg) (v : Word) : (s.result n d v).routes = s.routes := rfl
@[simp] theorem State.result_pins (n : Nat) (d : Reg) (v : Word) : (s.result n d v).pins = s.pins := rfl
@[simp] theorem State.result_reach (n : Nat) (d : Reg) (v : Word) : (s.result n d v).reach = s.reach := rfl
@[simp] theorem State.result_svevt (n : Nat) (d : Reg) (v : Word) : (s.result n d v).svevt = s.svevt := rfl
@[simp] theorem State.result_svvec (n : Nat) (d : Reg) (v : Word) : (s.result n d v).svvec = s.svvec := rfl
@[simp] theorem State.result_rleases (n : Nat) (d : Reg) (v : Word) : (s.result n d v).rleases = s.rleases := rfl
@[simp] theorem State.result_rwaits (n : Nat) (d : Reg) (v : Word) : (s.result n d v).rwaits = s.rwaits := rfl
@[simp] theorem State.result_rplots (n : Nat) (d : Reg) (v : Word) : (s.result n d v).rplots = s.rplots := rfl
@[simp] theorem State.result_pleases (n : Nat) (d : Reg) (v : Word) : (s.result n d v).pleases = s.pleases := rfl
@[simp] theorem State.result_reqs (n : Nat) (d : Reg) (v : Word) : (s.result n d v).reqs = s.reqs := rfl
@[simp] theorem State.result_pkglim (n : Nat) (d : Reg) (v : Word) : (s.result n d v).pkglim = s.pkglim := rfl
@[simp] theorem State.result_pkgpwr (n : Nat) (d : Reg) (v : Word) : (s.result n d v).pkgpwr = s.pkgpwr := rfl
@[simp] theorem State.result_peak (n : Nat) (d : Reg) (v : Word) : (s.result n d v).peak = s.peak := rfl
@[simp] theorem State.result_bkmask (n : Nat) (d : Reg) (v : Word) : (s.result n d v).bkmask = s.bkmask := rfl
@[simp] theorem State.result_bkwin (n : Nat) (d : Reg) (v : Word) : (s.result n d v).bkwin = s.bkwin := rfl
@[simp] theorem State.result_steward (n : Nat) (d : Reg) (v : Word) : (s.result n d v).steward = s.steward := rfl

/-! ### goOn -/

@[simp] theorem State.goOn_agenda (n : Nat) : (s.goOn n).agenda = s.agenda := rfl
@[simp] theorem State.goOn_curCl (n : Nat) : (s.goOn n).curCl = s.curCl := rfl
@[simp] theorem State.goOn_curK (n : Nat) : (s.goOn n).curK = s.curK := rfl
@[simp] theorem State.goOn_curRid (n : Nat) : (s.goOn n).curRid = s.curRid := rfl
@[simp] theorem State.goOn_curEl (n : Nat) : (s.goOn n).curEl = s.curEl := rfl
@[simp] theorem State.goOn_fresh (n : Nat) : (s.goOn n).fresh = s.fresh := rfl
@[simp] theorem State.goOn_outbox (n : Nat) : (s.goOn n).outbox = s.outbox := rfl
@[simp] theorem State.goOn_cycle (n : Nat) : (s.goOn n).cycle = s.cycle := rfl
@[simp] theorem State.goOn_slot (n : Nat) : (s.goOn n).slot = s.slot := rfl
@[simp] theorem State.goOn_mem (n : Nat) : (s.goOn n).mem = s.mem := rfl
@[simp] theorem State.goOn_errs (n : Nat) : (s.goOn n).errs = s.errs := rfl
@[simp] theorem State.goOn_hid (n : Nat) : (s.goOn n).hid = s.hid := rfl
@[simp] theorem State.goOn_takes (n : Nat) : (s.goOn n).takes = s.takes := rfl
@[simp] theorem State.goOn_frecs (n : Nat) : (s.goOn n).frecs = s.frecs := rfl
@[simp] theorem State.goOn_fns (n : Nat) : (s.goOn n).fns = s.fns := rfl
@[simp] theorem State.goOn_dies (n : Nat) : (s.goOn n).dies = s.dies := rfl
@[simp] theorem State.goOn_pairs (n : Nat) : (s.goOn n).pairs = s.pairs := rfl
@[simp] theorem State.goOn_pkgId (n : Nat) : (s.goOn n).pkgId = s.pkgId := rfl
@[simp] theorem State.goOn_svLock (n : Nat) : (s.goOn n).svLock = s.svLock := rfl
@[simp] theorem State.goOn_svports (n : Nat) : (s.goOn n).svports = s.svports := rfl
@[simp] theorem State.goOn_routes (n : Nat) : (s.goOn n).routes = s.routes := rfl
@[simp] theorem State.goOn_pins (n : Nat) : (s.goOn n).pins = s.pins := rfl
@[simp] theorem State.goOn_reach (n : Nat) : (s.goOn n).reach = s.reach := rfl
@[simp] theorem State.goOn_svevt (n : Nat) : (s.goOn n).svevt = s.svevt := rfl
@[simp] theorem State.goOn_svvec (n : Nat) : (s.goOn n).svvec = s.svvec := rfl
@[simp] theorem State.goOn_rleases (n : Nat) : (s.goOn n).rleases = s.rleases := rfl
@[simp] theorem State.goOn_rwaits (n : Nat) : (s.goOn n).rwaits = s.rwaits := rfl
@[simp] theorem State.goOn_rplots (n : Nat) : (s.goOn n).rplots = s.rplots := rfl
@[simp] theorem State.goOn_pleases (n : Nat) : (s.goOn n).pleases = s.pleases := rfl
@[simp] theorem State.goOn_reqs (n : Nat) : (s.goOn n).reqs = s.reqs := rfl
@[simp] theorem State.goOn_pkglim (n : Nat) : (s.goOn n).pkglim = s.pkglim := rfl
@[simp] theorem State.goOn_pkgpwr (n : Nat) : (s.goOn n).pkgpwr = s.pkgpwr := rfl
@[simp] theorem State.goOn_peak (n : Nat) : (s.goOn n).peak = s.peak := rfl
@[simp] theorem State.goOn_bkmask (n : Nat) : (s.goOn n).bkmask = s.bkmask := rfl
@[simp] theorem State.goOn_bkwin (n : Nat) : (s.goOn n).bkwin = s.bkwin := rfl
@[simp] theorem State.goOn_steward (n : Nat) : (s.goOn n).steward = s.steward := rfl

/-! ### Reading back -/

theorem State.cluster_updCluster (cl c : Nat) (f : Cluster → Cluster) :
    (s.updCluster cl f).cluster c = if c = cl then f (s.cluster cl) else s.cluster c := tget_tupd _ _ _ _ _
@[simp] theorem State.cluster_updCluster_same (cl : Nat) (f : Cluster → Cluster) :
    (s.updCluster cl f).cluster cl = f (s.cluster cl) := tget_tupd_same _ _ _ _
theorem State.cluster_updCluster_other {cl c : Nat} (h : c ≠ cl) (f : Cluster → Cluster) :
    (s.updCluster cl f).cluster c = s.cluster c := tget_tupd_other _ _ _ h
@[simp] theorem State.ctx_updCtx_same (cl k : Nat) (f : CueCtx → CueCtx) : (s.updCtx cl k f).ctx cl k = f (s.ctx cl k) := by
  simp [State.ctx, State.updCtx]
theorem State.ctx_updCtx_other {cl k c j : Nat} (h : c ≠ cl ∨ j ≠ k) (f : CueCtx → CueCtx) :
    (s.updCtx cl k f).ctx c j = s.ctx c j := by
  by_cases hc : c = cl
  · subst hc
    have hj : j ≠ k := h.resolve_left fun e => e rfl
    simp [State.ctx, State.updCtx, tget_tupd_other _ _ _ hj]
  · simp [State.ctx, State.updCtx, State.cluster_updCluster_other s hc]
@[simp] theorem State.region_updRegion_same (cl r : Nat) (f : Region → Region) :
    (s.updRegion cl r f).region cl r = f (s.region cl r) := by simp [State.region, State.updRegion]
@[simp] theorem State.bank_updBank_same (cl n : Nat) (f : Bank → Bank) : (s.updBank cl n f).bank cl n = f (s.bank cl n) := by
  simp [State.bank, State.updBank]
@[simp] theorem State.inPort_updIn_same (cl p : Nat) (f : InPort → InPort) : (s.updIn cl p f).inPort cl p = f (s.inPort cl p) := by
  simp [State.inPort, State.updIn]
@[simp] theorem State.outPort_updOut_same (cl p : Nat) (f : OutPort → OutPort) :
    (s.updOut cl p f).outPort cl p = f (s.outPort cl p) := by simp [State.outPort, State.updOut]
@[simp] theorem State.zone_updZone_same (cl z : Nat) (f : Zone → Zone) : (s.updZone cl z f).zone cl z = f (s.zone cl z) := by
  simp [State.zone, State.updZone]
@[simp] theorem State.mxOf_updMx_same (cl : Nat) (f : Mx → Mx) : (s.updMx cl f).mxOf cl = f (s.mxOf cl) := by
  simp [State.mxOf, State.updMx]
@[simp] theorem State.copyOf_updCopy_same (cl t : Nat) (f : CopyEng → CopyEng) :
    (s.updCopy cl t f).copyOf cl t = f (s.copyOf cl t) := by simp [State.copyOf, State.updCopy]
@[simp] theorem State.fn_updFn_same (n : Nat) (g : Fn → Fn) : (s.updFn n g).fn n = g (s.fn n) := tget_tupd_same _ _ _ _
theorem State.fn_updFn_other {n m : Nat} (h : m ≠ n) (g : Fn → Fn) : (s.updFn n g).fn m = s.fn m := tget_tupd_other _ _ _ h
@[simp] theorem State.die_updDie_same (d : Nat) (g : Die → Die) : (s.updDie d g).die d = g (s.die d) := tget_tupd_same _ _ _ _
theorem State.die_updDie_other {d e : Nat} (h : e ≠ d) (g : Die → Die) : (s.updDie d g).die e = s.die e := tget_tupd_other _ _ _ h
@[simp] theorem State.pair_updPair_same (p : Nat) (g : Pair → Pair) : (s.updPair p g).pair p = g (s.pair p) :=
  tget_tupd_same _ _ _ _
theorem State.pair_updPair_other {p q : Nat} (h : q ≠ p) (g : Pair → Pair) : (s.updPair p g).pair q = s.pair q :=
  tget_tupd_other _ _ _ h
@[simp] theorem State.svport_updPort_same (p : Nat) (g : SvPort → SvPort) : (s.updPort p g).svport p = g (s.svport p) :=
  tget_tupd_same _ _ _ _
@[simp] theorem State.pin_updPin_same (n : Nat) (g : Pin → Pin) : (s.updPin n g).pin n = g (s.pin n) := tget_tupd_same _ _ _ _

/-! ### The current context -/

@[simp] theorem State.me_onMe (f : CueCtx → CueCtx) : (s.onMe f).me = f s.me := by simp [State.me, State.onMe]
@[simp] theorem State.me_goOn (n : Nat) : (s.goOn n).me = s.me.advance n := State.me_onMe s _
@[simp] theorem State.me_result (n : Nat) (d : Reg) (v : Word) : (s.result n d v).me = (s.me.setReg d v).advance n := State.me_onMe s _

end Sys2Proof.Machine
end

