-- ==== Sys2Proof/Laws/Frames.lean ====
section
/-! SUPPORT. The frames of Safety.lean: what holds of every state, how they compose, and which of them the updates of the
state and the trap of the current context meet. -/

namespace Sys2Proof.Machine

variable (s : State)

theorem SamePackage.refl : SamePackage s s := ⟨rfl, fun _ => rfl⟩
theorem OnlyCluster.refl (cl : Nat) : OnlyCluster s s cl := ⟨.refl s, fun _ _ => rfl⟩
theorem OnlyCtx.refl (cl k : Nat) : OnlyCtx s s cl k := ⟨.refl s cl, rfl, fun _ _ => rfl⟩

variable {s}

theorem SamePackage.trans {t u : State} (h : SamePackage s t) (g : SamePackage t u) : SamePackage s u where
  rest := by
    have h := h.rest; have g := g.rest
    rw [← g] at h; exact h
  bytes a := (g.bytes a).trans (h.bytes a)

theorem OnlyCluster.trans {t u : State} {cl : Nat} (h : OnlyCluster s t cl) (g : OnlyCluster t u cl) : OnlyCluster s u cl :=
  ⟨h.package.trans g.package, fun j hj => (g.others j hj).trans (h.others j hj)⟩

theorem OnlyCtx.trans {t u : State} {cl k : Nat} (h : OnlyCtx s t cl k) (g : OnlyCtx t u cl k) : OnlyCtx s u cl k where
  outside := h.outside.trans g.outside
  shared := by
    have h := h.shared; have g := g.shared
    rw [← g] at h; exact h
  contexts j hj := (g.contexts j hj).trans (h.contexts j hj)

theorem Becomes.trans {t u : State} {cl k : Nat} {c d : CueCtx} (h : Becomes s t cl k c) (g : Becomes t u cl k d) :
    Becomes s u cl k d := ⟨g.value, h.only.trans g.only⟩

/-- An outcome that is `next t` has what `t` has. -/
theorem Goes.next {t : State} {P : State → Prop} (h : P t) : Goes (.next t) P := ⟨t, rfl, h⟩

theorem Goes.mono {o : Out} {P Q : State → Prop} (h : Goes o P) (pq : ∀ t, P t → Q t) : Goes o Q := by
  obtain ⟨t, rfl, ht⟩ := h; exact ⟨t, rfl, pq t ht⟩

variable (s)

theorem onlyCluster_updCluster (cl : Nat) (f : Cluster → Cluster) : OnlyCluster s (s.updCluster cl f) cl :=
  ⟨⟨rfl, fun _ => rfl⟩, fun _ hj => State.cluster_updCluster_other s hj f⟩

/-- A region's halt, at once or asked for, changes nothing outside its cluster. -/
theorem onlyCluster_haltRegion (cl rid : Nat) : OnlyCluster s (s.haltRegion cl rid) cl := by
  simp only [State.haltRegion]
  split
  · exact .refl s cl
  · exact ((onlyCluster_updCluster s cl _).trans (onlyCluster_updCluster _ cl _)).trans (onlyCluster_updCluster _ cl _)
theorem onlyCluster_askHalt (cl rid : Nat) : OnlyCluster s (s.askHalt cl rid) cl := by
  simp only [State.askHalt]
  split
  · exact .refl s cl
  · split
    · exact onlyCluster_haltRegion s cl rid
    · exact onlyCluster_updCluster s cl _

theorem becomes_updCtx (cl k : Nat) (f : CueCtx → CueCtx) : Becomes s (s.updCtx cl k f) cl k (f (s.ctx cl k)) where
  value := State.ctx_updCtx_same s cl k f
  only := ⟨onlyCluster_updCluster s cl _, by rw [State.updCtx, State.cluster_updCluster_same],
    fun _ hj => State.ctx_updCtx_other s (.inr hj) f⟩

theorem becomes_onMe (f : CueCtx → CueCtx) : Becomes s (s.onMe f) s.curCl s.curK (f s.me) := becomes_updCtx s _ _ f

/-- An update matters only at the context it updates. -/
theorem State.updCtx_congr {cl k : Nat} {f g : CueCtx → CueCtx} (h : f (s.ctx cl k) = g (s.ctx cl k)) :
    s.updCtx cl k f = s.updCtx cl k g := by
  have h' : f (tget {} (tget {} s.clusters cl).ctx k) = g (tget {} (tget {} s.clusters cl).ctx k) := h
  unfold State.updCtx State.updCluster tupd
  simp only [h']
theorem State.onMe_congr {f g : CueCtx → CueCtx} (h : f s.me = g s.me) : s.onMe f = s.onMe g := State.updCtx_congr s h

/-- A context that becomes what it was is left alone. -/
theorem becomes_self (cl k : Nat) : Becomes s s cl k (s.ctx cl k) := ⟨rfl, .refl s cl k⟩

theorem movesOn_goOn (n : Nat) : MovesOn s (s.goOn n) n := becomes_onMe s _

theorem CueCtx.reg_zero (c : CueCtx) : c.reg 0 = 0 := rfl
theorem CueCtx.reg_pos (c : CueCtx) {r : Reg} (h : r ≠ 0) : c.reg r = c.s[r.toNat] := if_neg h
theorem CueCtx.reg_setReg_same (c : CueCtx) (d : Reg) (v : Word) : (c.setReg d v).reg d = if d = 0 then 0 else v := by
  by_cases h : d = 0
  · subst h; rfl
  · rw [if_neg h, CueCtx.reg_pos _ h]; simp only [CueCtx.setReg, if_neg h]; exact Vector.getElem_set_self _
theorem CueCtx.reg_setReg_other (c : CueCtx) {d r : Reg} (v : Word) (h : r ≠ d) : (c.setReg d v).reg r = c.reg r := by
  by_cases hr : r = 0
  · subst hr; rfl
  · rw [CueCtx.reg_pos _ hr, CueCtx.reg_pos _ hr]
    by_cases hd : d = 0
    · simp only [CueCtx.setReg, if_pos hd]
    · simp only [CueCtx.setReg, if_neg hd]
      exact Vector.getElem_set_ne _ _ fun e => h (BitVec.eq_of_toNat_eq e.symm)
@[simp] theorem CueCtx.reg_advance (c : CueCtx) (n : Nat) (r : Reg) : (c.advance n).reg r = c.reg r := rfl
@[simp] theorem CueCtx.reg_released (c : CueCtx) (r : Reg) : c.released.reg r = c.reg r := rfl
@[simp] theorem CueCtx.reg_savedFor (c : CueCtx) (take : Nat) (r : Reg) : (c.savedFor take).reg r = c.reg r := rfl

/-- Writing a register leaves the rest of the context. -/
theorem CueCtx.setReg_rest (c : CueCtx) (d : Reg) (v : Word) : { c.setReg d v with s := c.s } = c := by
  unfold CueCtx.setReg; split <;> rfl
theorem CueCtx.setReg_pc (c : CueCtx) (d : Reg) (v : Word) : (c.setReg d v).pc = c.pc := by
  unfold CueCtx.setReg; split <;> rfl

theorem CueCtx.prd_zero (c : CueCtx) : c.prd 0 = true := rfl
theorem CueCtx.prd_pos (c : CueCtx) {r : PReg} (h : r ≠ 0) : c.prd r = c.p.getLsbD r.toNat := by
  have : (r == 0) = false := by simpa using h
  rw [CueCtx.prd, this, Bool.false_or]
theorem getLsbD_setBit {w : Nat} (m : BitVec w) (i j : Nat) (b : Bool) :
    (setBit m i b).getLsbD j = if i = j ∧ j < w then b else m.getLsbD j := by
  cases b <;> simp only [setBit, if_true, if_false, Bool.false_eq_true] <;> by_cases h : i = j ∧ j < w
  · simp [h]
  · simp only [BitVec.getLsbD_and, BitVec.getLsbD_not, BitVec.getLsbD_twoPow, h, if_false]
    by_cases hj : j < w
    · have : ¬ i = j := fun e => h ⟨e, hj⟩
      simp [hj, this]
    · simp [hj, BitVec.getLsbD_of_ge m j (by omega)]
  · simp [h]
  · simp only [BitVec.getLsbD_or, BitVec.getLsbD_twoPow, h, if_false]
    by_cases hj : j < w
    · have : ¬ i = j := fun e => h ⟨e, hj⟩
      simp [hj, this]
    · simp [BitVec.getLsbD_of_ge m j (by omega)]; omega
theorem CueCtx.prd_setPrd_same (c : CueCtx) (d : PReg) (v : Bool) : (c.setPrd d v).prd d = (d == 0 || v) := by
  by_cases h : d = 0
  · subst h; rfl
  · have : (d == 0) = false := by simpa using h
    rw [CueCtx.prd_pos _ h, this, Bool.false_or]
    simp only [CueCtx.setPrd, if_neg h]
    rw [getLsbD_setBit, if_pos ⟨rfl, d.isLt⟩]
theorem CueCtx.prd_setPrd_other (c : CueCtx) {d r : PReg} (v : Bool) (h : r ≠ d) : (c.setPrd d v).prd r = c.prd r := by
  by_cases hr : r = 0
  · subst hr; rfl
  · rw [CueCtx.prd_pos _ hr, CueCtx.prd_pos _ hr]
    by_cases hd : d = 0
    · simp only [CueCtx.setPrd, if_pos hd]
    · simp only [CueCtx.setPrd, if_neg hd, getLsbD_setBit]
      exact if_neg fun e => h (BitVec.eq_of_toNat_eq e.1.symm)
@[simp] theorem CueCtx.prd_advance (c : CueCtx) (n : Nat) (r : PReg) : (c.advance n).prd r = c.prd r := rfl

theorem writesReg_result (n : Nat) (d : Reg) (v : Word) : WritesReg s (s.result n d v) d v n where
  result := by rw [State.reg, State.me_result, CueCtx.reg_advance, CueCtx.reg_setReg_same]
  regs r h := by rw [State.reg, State.me_result, CueCtx.reg_advance, CueCtx.reg_setReg_other _ _ h]; rfl
  pc := by rw [State.me_result, CueCtx.advance, CueCtx.setReg_pc]
  rest := by rw [State.me_result]; unfold CueCtx.advance CueCtx.setReg; split <;> rfl
  only := (becomes_onMe s _).only

/-- A write of P[d] by an instruction of one parcel. -/
theorem writesPrd_onMe (d : PReg) (v : Bool) : WritesPrd s (s.onMe fun x => (x.setPrd d v).advance 1) d v where
  result := by rw [State.prd, State.me_onMe, CueCtx.prd_advance, CueCtx.prd_setPrd_same]
  prds r h := by rw [State.prd, State.me_onMe, CueCtx.prd_advance, CueCtx.prd_setPrd_other _ _ h]; rfl
  pc := by rw [State.me_onMe]; unfold CueCtx.advance CueCtx.setPrd; split <;> rfl
  rest := by rw [State.me_onMe]; unfold CueCtx.advance CueCtx.setPrd; split <;> rfl
  only := (becomes_onMe s _).only

/-- A trap of a context that may take it in its handler. -/
theorem takesTrap_takeTrap {code : Nat} (h : CanTrap s code) (info info2 : Word) (epc : BitVec 16) :
    TakesTrap s (s.takeTrap s.curCl s.curK code info info2 epc) code info info2 epc := by
  obtain ⟨⟨t, ht, ha⟩, hk, hh⟩ := h
  have ht' : s.take? (s.ctx s.curCl s.curK).take = some t := ht
  have hk' : (s.ctx s.curCl s.curK).kstate ≠ .trap := hk
  have hh' : (s.ctx s.curCl s.curK).handler = false := hh
  simp only [State.takeTrap, ht', hk', hh', ha, decide_false, Bool.or_false, Bool.false_eq_true, if_false, if_true]
  exact becomes_updCtx s _ _ _

end Sys2Proof.Machine
end

