-- ==== Sys2Proof/Laws/Memory.lean ====
section
/-! SUPPORT. Memory: reading a byte after a write, what a write leaves alone, and the canonical form, which every operation
over memory keeps. -/

namespace Sys2Proof.Machine

variable (s : State)

/-! ### Reading after writing -/

theorem State.byte_putByte (a b : Nat) (v : Byte) : (s.putByte a v).byte b = if b = a then v else s.byte b := tget_tput 0 s.mem a b v

theorem State.byte_poke_before {a b : Nat} (h : b < a) (l : List Byte) : (s.poke a l).byte b = s.byte b := by
  induction l generalizing s a with
  | nil => rfl
  | cons v l ih => rw [State.poke, ih _ (by omega), State.byte_putByte, if_neg (by omega)]

theorem State.byte_poke_after {a b : Nat} {l : List Byte} (h : a + l.length ≤ b) : (s.poke a l).byte b = s.byte b := by
  induction l generalizing s a with
  | nil => rfl
  | cons v l ih =>
    rw [List.length_cons] at h
    rw [State.poke, ih _ (by omega), State.byte_putByte, if_neg (by omega)]

theorem State.byte_poke_in (a : Nat) (l : List Byte) (i : Nat) (h : i < l.length) : (s.poke a l).byte (a + i) = l[i] := by
  induction l generalizing s a i with
  | nil => exact absurd h (by simp)
  | cons v l ih =>
    rw [State.poke]
    match i with
    | 0 => rw [State.byte_poke_before _ (by omega), State.byte_putByte, if_pos (by omega)]; rfl
    | i + 1 =>
      rw [show a + (i + 1) = a + 1 + i by omega, ih _ _ _ (by simpa using h)]; rfl

/-- Storing bytes changes memory and nothing else. -/
theorem State.poke_rest (a : Nat) (l : List Byte) : { s.poke a l with mem := s.mem } = s := by
  induction l generalizing s a with
  | nil => rfl
  | cons v l ih =>
    have := ih (s.putByte a v) (a + 1)
    rw [State.poke]
    generalize (s.putByte a v).poke (a + 1) l = t at this ⊢
    have h : { t with mem := s.mem } = { s.putByte a v with mem := s.mem } := by rw [← this]
    rw [h]; rfl

theorem State.length_peek (a n : Nat) : (s.peek a n).length = n := by
  induction n generalizing a with
  | zero => rfl
  | succ n ih => simp [State.peek, ih]

theorem State.peek_getElem (a n i : Nat) (h : i < n) : (s.peek a n)[i]? = some (s.byte (a + i)) := by
  induction n generalizing a i with
  | zero => omega
  | succ n ih =>
    match i with
    | 0 => rfl
    | i + 1 => simp [State.peek, ih (a + 1) i (by omega), Nat.add_assoc, Nat.add_comm 1]

/-! ### Monitors, errors, writes -/

@[simp] theorem State.fireMons_mem (a n : Nat) : (s.fireMons a n).mem = s.mem := rfl
@[simp] theorem State.fireMons_byte (a n b : Nat) : (s.fireMons a n).byte b = s.byte b := rfl
@[simp] theorem State.clearErrs_mem (a n : Nat) : (s.clearErrs a n).mem = s.mem := rfl
@[simp] theorem State.clearChk_mem (a n : Nat) : (s.clearChk a n).mem = s.mem := by unfold State.clearChk; split <;> rfl

theorem State.cluster_fireMons (a n cl : Nat) : (s.fireMons a n).cluster cl =
    { s.cluster cl with ctx := tmap {} (fun _ x => x.fireMon a n) (s.cluster cl).ctx } :=
  tget_tmap ({} : Cluster) (fun _ (c : Cluster) => { c with ctx := tmap {} (fun _ x => x.fireMon a n) c.ctx }) (fun _ => rfl) s.clusters cl

theorem State.ctx_fireMons (a n cl k : Nat) : (s.fireMons a n).ctx cl k = (s.ctx cl k).fireMon a n := by
  unfold State.ctx; rw [State.cluster_fireMons]
  exact tget_tmap ({} : CueCtx) (fun _ (x : CueCtx) => x.fireMon a n) (fun _ => rfl) (s.cluster cl).ctx k

/-- Firing monitors changes the monitors and nothing else. -/
theorem State.fireMons_rest (a n : Nat) : { s.fireMons a n with clusters := s.clusters } = s := rfl

@[simp] theorem State.hide_mem (a : Nat) (l : List Byte) : (s.hide a l).mem = s.mem := by
  unfold State.hide; dsimp only; split <;> rfl

@[simp] theorem State.noteErr_mem (ue : Bool) (a n : Nat) : (s.noteErr ue a n).mem = s.mem := by unfold State.noteErr; split <;> rfl
@[simp] theorem State.noteWrite_mem (a n : Nat) : (s.noteWrite a n).mem = s.mem := by
  unfold State.noteWrite; split
  · split
    · exact State.noteErr_mem s _ _ _
    · rfl
  · rfl

/-- What storing bytes makes of memory rests on memory alone. -/
theorem State.poke_congr {s t : State} (h : s.mem = t.mem) (a : Nat) (l : List Byte) : (s.poke a l).mem = (t.poke a l).mem := by
  induction l generalizing s t a with
  | nil => exact h
  | cons v l ih => exact ih (by rw [State.putByte, State.putByte, h]) _

@[simp] theorem State.write_mem (a : Nat) (l : List Byte) : (s.write a l).mem = (s.poke a l).mem := by
  simpa [State.write] using State.poke_congr ((State.hide_mem _ a l).trans (s.noteWrite_mem a l.length)) a l
@[simp] theorem State.write_byte (a : Nat) (l : List Byte) (b : Nat) : (s.write a l).byte b = (s.poke a l).byte b := by
  unfold State.byte; rw [State.write_mem]

/-! ### The canonical form -/

theorem putByte_wf (a : Nat) (v : Byte) (h : Memory.wf s.mem = true) : Memory.wf (s.putByte a v).mem = true := Table.wf_tput 0 a v h
theorem poke_wf (a : Nat) (l : List Byte) (h : Memory.wf s.mem = true) : Memory.wf (s.poke a l).mem = true := by
  induction l generalizing s a with
  | nil => exact h
  | cons v l ih => exact ih _ _ (putByte_wf s a v h)
theorem write_wf (a : Nat) (l : List Byte) (h : Memory.wf s.mem = true) : Memory.wf (s.write a l).mem = true := by
  rw [State.write_mem]; exact poke_wf s a l h
theorem tryWrite_wf {a : Nat} {l : List Byte} {t : State} (h : Memory.wf s.mem = true) (ht : s.tryWrite a l = some t) :
    Memory.wf t.mem = true := by
  unfold State.tryWrite at ht; split at ht
  · cases ht
  · cases ht; exact write_wf s a l h
theorem writeWords_wf (a : Nat) (l : List Word) (h : Memory.wf s.mem = true) : Memory.wf (s.writeWords a l).mem = true :=
  write_wf s a _ h
theorem State.msix_mem (f v : Nat) : (s.msix f v).mem = s.mem := by
  unfold State.msix; split
  · rfl
  · split <;> rfl
theorem pokeRuns_wf (r : List (Nat × Nat)) (l : List Byte) (h : Memory.wf s.mem = true) : Memory.wf (s.pokeRuns r l).mem = true := by
  induction r generalizing s l with
  | nil => exact h
  | cons x r ih => exact ih _ _ (write_wf s _ _ h)
theorem refWrite_wf (f : Nat) (r : Word) (o : Nat) (l : List Byte) (h : Memory.wf s.mem = true) :
    Memory.wf (s.refWrite f r o l).mem = true := pokeRuns_wf s _ l h
theorem event_wf (f : Nat) (w0 w1 w2 : Word) (h : Memory.wf s.mem = true) : Memory.wf (s.event f w0 w1 w2).mem = true := by
  unfold State.event; simp only
  split
  · exact h
  · split
    · exact h
    · split
      · exact h
      · rw [State.msix_mem, State.updFn_mem]; exact refWrite_wf s _ _ _ _ h
theorem elog_wf (d cl t : Nat) (i : Word) (h : Memory.wf s.mem = true) : Memory.wf (s.elog d cl t i).mem = true := by
  unfold State.elog; simp only
  split
  · exact h
  · split
    · exact h
    · rw [State.updDie_mem]; exact refWrite_wf s _ _ _ _ h
theorem ueEvent_wf (cl t : Nat) (i : Word) (h : Memory.wf s.mem = true) : Memory.wf (s.ueEvent cl t i).mem = true := by
  unfold State.ueEvent; split
  · exact event_wf _ _ _ _ _ h
  · exact h
theorem detectUe_wf (d cl t : Nat) (i : Word) (h : Memory.wf s.mem = true) : Memory.wf (s.detectUe d cl t i).mem = true :=
  ueEvent_wf _ cl t i (elog_wf (s.errorIrq d) d cl t i h)
theorem uncorrectable_wf (a n cl t : Nat) (h : Memory.wf s.mem = true) : Memory.wf (s.uncorrectable a n cl t).mem = true :=
  detectUe_wf _ _ _ _ _ (by rw [State.noteErr_mem]; exact h)
theorem noteRead_mem (a n : Nat) : (s.noteRead a n).mem = s.mem := by
  unfold State.noteRead; split
  · exact State.noteErr_mem s _ _ _
  · rfl
theorem read_wf (a n cl t : Nat) (h : Memory.wf s.mem = true) : Memory.wf (s.read a n cl t).1.mem = true := by
  unfold State.read; split
  · exact uncorrectable_wf s _ _ _ _ h
  · exact (noteRead_mem s a n).symm ▸ h
theorem freeBytes_mem (n : Nat) : (s.freeBytes n).1.mem = s.mem := rfl
/-- The stage manager's reads leave memory as it is, but for the records of errors. -/
theorem seen_wf (cl t : Nat) (v : State) (l : List (Nat × Nat)) (h : Memory.wf s.mem = true) :
    Memory.wf (s.seen cl t v l).1.mem = true := by
  induction l generalizing s v with
  | nil => exact h
  | cons x l ih =>
    unfold State.seen; split
    · exact ih _ _ (uncorrectable_wf s _ _ _ _ h)
    · exact ih _ _ ((noteRead_mem s x.1 x.2).symm ▸ h)
/-- Where nothing of what is read is in error, the stage manager sees memory as it is. -/
theorem seen_good (cl t : Nat) (v : State) (l : List (Nat × Nat)) (h : ∀ x ∈ l, s.readBad x.1 x.2 = false ∧ s.readCorrects x.1 x.2 = false) :
    s.seen cl t v l = (s, v) := by
  induction l with
  | nil => rfl
  | cons x l ih =>
    have hx := h x (List.mem_cons_self ..)
    simp [State.seen, State.noteRead, hx.1, hx.2, ih fun y hy => h y (List.mem_cons_of_mem x hy)]
theorem noteReads_mem (l : List (Nat × Nat)) (s : State) : (l.foldl (fun s x => s.noteRead x.1 x.2) s).mem = s.mem := by
  induction l generalizing s with
  | nil => rfl
  | cons x t ih => exact (ih _).trans (noteRead_mem s x.1 x.2)
theorem readRuns_wf (l : List (Nat × Nat)) (cl t : Nat) (h : Memory.wf s.mem = true) : Memory.wf (s.readRuns l cl t).1.mem = true := by
  unfold State.readRuns; split
  · exact uncorrectable_wf s _ _ _ _ h
  · exact (noteReads_mem l s).symm ▸ h

/-- Memory is in canonical form after reset: nothing is listed. -/
theorem reset_wf : Memory.wf State.reset.mem = true := rfl

end Sys2Proof.Machine
end

