-- ==== Sys2Proof/Tests/Slice0.lean ====
section
/-! SUPPORT. Tests: ill-formed terms, words written out from the spec's encodings, one step of instructions with worked
examples in the spec, and for every statement a state and operands that meet the hypotheses of each of its clauses. -/

namespace Sys2Proof.Tests
open Sys2Proof Sys2Proof.Machine
set_option Elab.async false

/-! ### Small states -/

/-- Eight N64 elements in the memory of a residence, in the frame of the given plot entry, with every permission. -/
def words (res : Nat) (entry : Word) : Tensor :=
  { w0 := 7 <<< 12, w1 := 8 ||| 1 <<< 32, w2 := 1 ||| 1 <<< 32, low := 0, high := 0
    w5 := BitVec.ofNat 64 (res <<< 49) ||| 7 <<< 53, w6 := 1 <<< 32, rloc := 0, plots := [(0, entry)] }
/-- A plot entry with V set: residence and frame. -/
def plot (res fr : Nat) : Word := flag true 63 ||| at_ res 59 ||| at_ fr 0
/-- h0 names tensor 0. -/
def ctx : CueCtx := { take := 1, kstate := .run, wsize := 4096, h := Vector.ofFn fun i => if i.val = 0 then .tensor 0 else .empty }
def place : Place := { lc := 0, cl := 0, k := 0, spots := [], inMap := [(0, 0)], outMap := [(0, 0)] }
/-- A running take on cluster 0, whose traps go to its handler; tensor 0 lies in the cluster's vault, tensor 1 in a peer. -/
def take : Take :=
  { id := 1, fn := 0, hdr := {}, tensors := [(0, words 0 (plot 0 0)), (1, words 3 (plot 3 (5 * 2 ^ 28)))], sched := [],
    traps := List.replicate 64 1, fix := [none], prio := 0
    reel := { ref := 0, savesz := 0, scenes := [], ovls := [] }, st := .running, places := [place] }
/-- K0 of cluster 0 as given, in a cluster as given. -/
def state (c : CueCtx := ctx) (t : Take := take) (cl : Cluster := {}) : State :=
  { takes := [t], clusters := [(0, { cl with ctx := [(0, c)] })] }
/-- A tensor access of h0 at the element that s1 names, 0. -/
def op : MemOp := ⟨0, 0, 1, 0, 0, 0⟩

def trapsNow (s : State) (code : Nat) : Bool :=
  match s.myTake with
  | some t => t.act code == 1 && s.me.kstate != .trap && !s.me.handler
  | none => false
theorem canTrap {s : State} {code : Nat} (h : trapsNow s code = true) : CanTrap s code := by
  unfold trapsNow at h
  split at h
  · simp only [Bool.and_eq_true, beq_iff_eq, bne_iff_ne, ne_eq, Bool.not_eq_true'] at h
    exact ⟨⟨_, ‹_›, h.1.1⟩, h.1.2, h.2⟩
  · cases h
theorem quiet {s : State} (h : s.me.posted = []) (g : s.me.aborts = []) : Quiet s := ⟨by simp [h], by simp [g]⟩

/-! ### Witnesses: branches, ordering, system registers, traps -/

theorem witness_jr :
    let s := state { ctx with s := ctx.s.set 3 65532 }; (s.reg 3).toNat < 65536 ∧ (s.reg 3).toNat % 4 = 0 := by decide +kernel
theorem witness_jr_trap :
    let s := state { ctx with s := ctx.s.set 3 65536 }; 65536 ≤ (s.reg 3).toNat ∧ CanTrap s 3 :=
  ⟨by decide +kernel, canTrap (by decide +kernel)⟩
theorem witness_jr_misaligned :
    let s := state { ctx with s := ctx.s.set 3 2 }; (s.reg 3).toNat % 4 ≠ 0 ∧ CanTrap s 3 :=
  ⟨by decide +kernel, canTrap (by decide +kernel)⟩
/-- An MX.READ write outstanding is no store of the context. -/
theorem witness_fence :
    let s := state { ctx with posted := [⟨5, 1, 0, some .v, false⟩] }
    (∀ x ∈ s.me.posted, x.mx ≠ none) ∧ s.myStreams = false ∧ s.me.aborts = [] := by decide +kernel
theorem witness_fence_waits : ∃ x ∈ (state { ctx with posted := [⟨5, 1, 0, none, false⟩] }).me.posted, x.mx = none :=
  ⟨⟨5, 1, 0, none, false⟩, by decide +kernel, rfl⟩
theorem witness_fence_reports :
    let s := state { ctx with aborts := [⟨0, some .v⟩, ⟨1, none⟩] }
    (∀ y ∈ s.me.posted, y.mx ≠ none) ∧ s.myStreams = false ∧ s.me.aborts = ⟨0, some .v⟩ :: [⟨1, none⟩] ∧ CanTrap s 9 :=
  ⟨by decide +kernel, by decide +kernel, by decide +kernel, canTrap (by decide +kernel)⟩
theorem witness_drain :
    state.myTake = some take ∧ (state.copyOf 0 1).ents = [] ∧ (∀ p ∈ take.outPorts 0, (state.outPort 0 p).held = []) ∧
      (∀ i ∈ (state.mxOf 0).queue, i.k ≠ 0) ∧ state.me.posted = [] ∧ state.me.aborts = [] := by decide +kernel
theorem witness_drain_stalls :
    let s := state { ctx with posted := [⟨5, 1, 0, none, false⟩] }
    s.myTake = some take ∧ s.drainStall 0 take .p = .drain .p [] [] ∧ s.drained 0 0 .p [] [] = false := by decide +kernel
theorem witness_drain_completes :
    let s := state { ctx with stall := some (.drain .v [] []) }
    (s.ctx 0 0).stall = some (.drain .v [] []) ∧ s.drained 0 0 .v [] [] = true ∧
      ∀ x ∈ (s.ctx 0 0).aborts, x.mx ≠ none ∧ x.mx ≠ some .v := by decide +kernel
theorem witness_mwait_stays : ∃ x ∈ (state { ctx with posted := [⟨5, 1, 0, none, false⟩] }).me.posted, x.mx = none := witness_fence_waits
theorem witness_mwait : Quiet state ∧ state.me.mon = none := ⟨quiet rfl rfl, rfl⟩
theorem witness_mwait_fired :
    let s := state { ctx with mon := some ⟨0, 8, true⟩ }; Quiet s ∧ s.me.mon = some ⟨0, 8, true⟩ := ⟨quiet rfl rfl, rfl⟩
theorem witness_mwait_waits :
    let s := state { ctx with mon := some ⟨0, 8, false⟩ }; Quiet s ∧ s.me.mon = some ⟨0, 8, false⟩ := ⟨quiet rfl rfl, rfl⟩
theorem witness_mwait_wakes :
    let s := state { ctx with kstate := .wait, wait := some (.mwait 3 false .el), mon := some ⟨0, 8, true⟩ }
    (s.ctx 0 0).wait = some (.mwait 3 false .el) ∧ (s.ctx 0 0).mon = some ⟨0, 8, true⟩ := by decide +kernel
theorem witness_mwait_wakes_invalid :
    let s := state { ctx with kstate := .wait, wait := some (.mwait 3 false .el) }
    (s.ctx 0 0).wait = some (.mwait 3 false .el) ∧ (s.ctx 0 0).mon = none := by decide +kernel
theorem witness_marm :
    state.myTake = some take ∧ state.form take op 0 8 = .ok 0 ⟨0, 0, 0, 0⟩ 0 ∧ (take.tensor 0).res = 0 ∧
      state.translate take (take.tensor 0) 0 false false false = .ok (.key 0) := by decide +kernel
/-- h0 names tensor 1, of a peer. -/
def peerCtx : CueCtx := { ctx with h := ctx.h.set 0 (.tensor 1) }
theorem witness_marm_residence :
    let s := state peerCtx; s.myTake = some take ∧ s.form take op 0 8 = .ok 1 ⟨0, 0, 0, 0⟩ 0 ∧ (take.tensor 1).res ≠ 0 ∧ CanTrap s 11 :=
  ⟨by decide +kernel, by decide +kernel, by decide +kernel, canTrap (by decide +kernel)⟩
theorem witness_sysRd : state.myTake = some take := by decide +kernel
theorem witness_sysWr_ro : CanTrap state 2 := canTrap (by decide +kernel)
theorem witness_trap : CanTrap state 20 ∧ CanTrap state 1 ∧ state.me.kstate ≠ .trap :=
  ⟨canTrap (by decide +kernel), canTrap (by decide +kernel), by decide +kernel⟩
/-- A context in its handler. -/
def inTrap : CueCtx := { ctx with kstate := .trap, epc := 0x10003 }
theorem witness_eret : (state inTrap).me.kstate = .trap := by decide +kernel
theorem witness_brk : state.myTake = some take ∧ state.me.kstate ≠ .trap ∧ state.me.handler = false := by decide +kernel
theorem witness_double_trap : let s := state inTrap; s.myTake = some take ∧ s.me.kstate = .trap := by decide +kernel
theorem witness_trapTake :
    let s := state { ctx with kstate := .wait, wait := some .mxWait, pend := [⟨9, 1, 0⟩] }; let c := s.ctx 0 0
    s.take? c.take = some take ∧ take.active = true ∧ take.act 9 = 1 ∧ c.pend = ⟨9, 1, 0⟩ :: [] ∧ c.stall = none ∧ c.retry = false ∧
      c.handler = false ∧ c.kstate = .wait := by decide +kernel

/-! ### Witnesses: tensor accesses -/

theorem witness_form_kind : ∀ tid, state.handle 1 ≠ .tensor tid := by
  have : state.handle 1 = .empty := by decide +kernel
  exact fun tid h => absurd (this.symm.trans h) (by simp)
theorem witness_form_range :
    let s := state { ctx with s := ctx.s.set 1 8 }
    s.handle 0 = .tensor 0 ∧ ((take.tensor 0).ext 0 : Int) ≤ 8 ∧ s.form take op 0 8 = .trap 6 (8 <<< 32) := by decide +kernel
theorem witness_form_ok :
    let s := state { ctx with s := ctx.s.set 1 7 }
    s.handle 0 = .tensor 0 ∧ (7 : Int) < (take.tensor 0).ext 0 ∧ s.form take op 0 8 = .ok 0 ⟨7, 0, 0, 0⟩ 56 := by decide +kernel
theorem witness_access_trap :
    let s := state { ctx with s := ctx.s.set 1 8 }
    s.myTake = some take ∧ s.form take op 0 8 = .trap 6 (8 <<< 32) ∧ CanTrap s 6 :=
  ⟨by decide +kernel, by decide +kernel, canTrap (by decide +kernel)⟩
/-- Tensor 0 with the given plot entry and permissions (R, W, A). -/
def takeWith (e : Word) (perm : Nat := 7) : Take :=
  { take with tensors := [(0, { words 0 e with w5 := BitVec.ofNat 64 (perm <<< 53) })] }
theorem witness_access_waits :
    let t := takeWith 0; let s := state ctx t
    s.myTake = some t ∧ s.form t op 0 8 = .ok 0 ⟨0, 0, 0, 0⟩ 0 ∧ Quiet s ∧ s.myStreams = false ∧ (t.tensor 0).res = 0 ∧
      s.translate t (t.tensor 0) 0 true false false = .wait :=
  ⟨by decide +kernel, by decide +kernel, quiet rfl rfl, by decide +kernel, by decide +kernel, by decide +kernel⟩
theorem witness_access_fault :
    let t := takeWith (plot 0 0) 0; let s := state ctx t
    s.myTake = some t ∧ s.form t op 0 8 = .ok 0 ⟨0, 0, 0, 0⟩ 0 ∧ Quiet s ∧ s.myStreams = false ∧ (t.tensor 0).res = 0 ∧
      s.translate t (t.tensor 0) 0 true false false = .fault 1 :=
  ⟨by decide +kernel, by decide +kernel, quiet rfl rfl, by decide +kernel, by decide +kernel, by decide +kernel⟩
/-- A matrix instruction of the context that reads the SO plot is queued. -/
theorem witness_access_soWaits :
    let s := state ctx take { mx := { holder := some 1, queue := [⟨.pin 7 0 0 0 0 0 0, 0, 0, 0, []⟩] } }
    s.myTake = some take ∧ s.form take op 0 8 = .ok 0 ⟨0, 0, 0, 0⟩ 0 ∧ Quiet s ∧ s.myStreams = false ∧ (take.tensor 0).res ≠ 2 ∧
      s.translate take (take.tensor 0) 0 true false false = .ok (.key 0) ∧ s.soWaits take (take.tensor 0) = true :=
  ⟨by decide +kernel, by decide +kernel, quiet rfl rfl, by decide +kernel, by decide +kernel, by decide +kernel, by decide +kernel⟩
/-- The peer plot has no translation. -/
theorem witness_access_wants :
    let t : Take := { take with tensors := [(0, words 0 (plot 0 0)), (1, { words 3 0 with w0 := 1 ||| 7 <<< 12, rloc := 5 <<< 52 })] }
    let s := { state peerCtx t with reach := [5] }
    s.myTake = some t ∧ s.form t op 0 8 = .ok 1 ⟨0, 0, 0, 0⟩ 0 ∧ Quiet s ∧ s.myStreams = false ∧ (t.tensor 1).res = 3 ∧ (t.tensor 1).tid.toNat = 1 ∧
      s.translate t (t.tensor 1) 0 true false false = .wait :=
  ⟨by decide +kernel, by decide +kernel, quiet rfl rfl, by decide +kernel, by decide +kernel, by decide +kernel, by decide +kernel⟩
theorem witness_load :
    state.myTake = some take ∧ state.form take op 0 8 = .ok 0 ⟨0, 0, 0, 0⟩ 0 ∧ state.soWaits take (take.tensor 0) = false ∧
      state.translate take (take.tensor 0) 0 true false false = .ok (.key 0) ∧ state.readBad 0 8 = false := by decide +kernel
/-- Three banks of one codeword of the first stripe are lost: its words cannot be rebuilt. -/
def lost : Cluster := { vbfail := 7 }
theorem witness_load_abort :
    let s := state ctx take lost
    s.myTake = some take ∧ s.form take op 0 8 = .ok 0 ⟨0, 0, 0, 0⟩ 0 ∧
      s.soWaits take (take.tensor 0) = false ∧
      s.translate take (take.tensor 0) 0 true false false = .ok (.key 0) ∧ s.readBad 0 8 = true ∧ CanTrap s 9 :=
  ⟨by decide +kernel, by decide +kernel, by decide +kernel, by decide +kernel, by decide +kernel, canTrap (by decide +kernel)⟩
theorem witness_load_peer :
    let s := state peerCtx
    s.form take op 0 8 = .ok 1 ⟨0, 0, 0, 0⟩ 0 ∧ s.soWaits take (take.tensor 1) = false ∧
      s.translate take (take.tensor 1) 0 true false false = .ok (.peer 5 0 0) := by decide +kernel
theorem witness_load_reply :
    let s := state { ctx with stall := some (.load 2 3 .h true 1 none 0) }
    [(1 : Byte), 2].length = sizeBytes .h ∧ (s.ctx 0 0).stall = some (.load 2 3 .h true 1 none 0) := by decide +kernel
theorem witness_store :
    state.myTake = some take ∧ state.form take op 0 8 = .ok 0 ⟨0, 0, 0, 0⟩ 0 ∧ Quiet state ∧ state.myStreams = false ∧
      state.soWaits take (take.tensor 0) = false ∧ state.streamPorts 0 take.id 0 = [] ∧
      state.translate take (take.tensor 0) 0 false true false = .ok (.key 0) ∧ (take.tensor 0).act = 0 ∧
      (take.tensor 0).check 0 (toBytes 8 5) (fun o => state.byte o) = some ⟨0, toBytes 8 5, []⟩ ∧ state.writeBad 0 8 = false :=
  ⟨by decide +kernel, by decide +kernel, quiet rfl rfl, by decide +kernel, by decide +kernel, by decide +kernel, by decide +kernel,
    by decide +kernel, by decide +kernel, by decide +kernel⟩
theorem witness_store_peer :
    let s := state peerCtx
    s.myTake = some take ∧ s.form take op 0 8 = .ok 1 ⟨0, 0, 0, 0⟩ 0 ∧ s.soWaits take (take.tensor 1) = false ∧
      (take.tensor 1).act = 0 ∧ s.streamPorts 0 take.id 1 = [] ∧
      s.translate take (take.tensor 1) 0 false true false = .ok (.peer 5 0 0) := by decide +kernel
/-- One byte of a bounded element of eight, in a peer. -/
theorem witness_store_peer_part :
    let t : Take := { take with tensors := [(1, { words 3 (plot 3 (5 * 2 ^ 28)) with w0 := 3 <<< 30 ||| 7 <<< 12 })] }; let s := state peerCtx t
    s.myTake = some t ∧ s.form t op 0 1 = .ok 1 ⟨0, 0, 0, 0⟩ 0 ∧ s.soWaits t (t.tensor 1) = false ∧ (t.tensor 1).act ≠ 0 ∧
      1 % (t.tensor 1).unit ≠ 0 ∧ s.translate t (t.tensor 1) 0 false true false = .ok (.peer 5 0 0) := by decide +kernel
/-- Tensor 0 traps on anything but 0. -/
def bounded : Take := { take with tensors := [(0, { words 0 (plot 0 0) with w0 := 3 <<< 30 ||| 7 <<< 12 })] }
theorem witness_store_bound :
    let s := state ctx bounded
    s.myTake = some bounded ∧ s.form bounded op 0 8 = .ok 0 ⟨0, 0, 0, 0⟩ 0 ∧ s.soWaits bounded (bounded.tensor 0) = false ∧
      s.translate bounded (bounded.tensor 0) 0 false true false = .ok (.key 0) ∧
      (bounded.tensor 0).check 0 (toBytes 8 5) (fun o => s.byte o) = none ∧ CanTrap s 8 :=
  ⟨by decide +kernel, by decide +kernel, by decide +kernel, by decide +kernel, by decide +kernel, canTrap (by decide +kernel)⟩
theorem witness_amo :
    state.myTake = some take ∧ state.form take op 0 8 = .ok 0 ⟨0, 0, 0, 0⟩ 0 ∧ (take.tensor 0).res ≠ 2 ∧
      state.soWaits take (take.tensor 0) = false ∧ state.streamPorts 0 take.id 0 = [] ∧
      state.translate take (take.tensor 0) 0 false false true = .ok (.key 0) ∧ state.readBad 0 8 = false ∧
      state.writeBad 0 8 = false ∧ state.peek 0 8 = toBytes 8 0 ∧ Quiet state ∧ state.myStreams = false :=
  ⟨by decide +kernel, by decide +kernel, by decide +kernel, by decide +kernel, by decide +kernel, by decide +kernel,
    by decide +kernel, by decide +kernel, by decide +kernel, quiet rfl rfl, by decide +kernel⟩
theorem witness_cas :
    let s := state { ctx with s := ctx.s.set 2 1 }
    BitVec.ofNat 64 (ofBytes (s.peek 0 8)) = s.reg 1 ∧ BitVec.ofNat 64 (ofBytes (s.peek 0 8)) ≠ s.reg 2 := by decide +kernel
theorem witness_amo_host :
    let t : Take := { take with tensors := [(0, words 2 (plot 2 1))] }; let s := state ctx t
    s.form t op 0 1 = .ok 0 ⟨0, 0, 0, 0⟩ 0 ∧ (t.tensor 0).res = 2 ∧ ¬ (AmoOp.add ∈ [AmoOp.add, .swap, .cas] ∧ Size.b ∈ [Size.w, .d]) ∧
      CanTrap s 10 := ⟨by decide +kernel, by decide +kernel, by decide, canTrap (by decide +kernel)⟩

/-! ### Witnesses: ports -/

/-- A pattern of in0 or out0 for tensor 0 as a STREAM, of one lane, unpacked. -/
def pattern (out : Bool) : Pattern := ⟨flag out 59, 0⟩
def slate : Slate := { vbin := 0, pats := [pattern false, pattern true], zones := [], psets := [], regions := [] }
def scene : Scene := { slate := slate, entry := 64, cueOff := 0, cueLen := 0 }
/-- The take with two scenes. -/
def played : Take := { take with reel := { ref := 0, savesz := 0, scenes := [scene, scene], ovls := [] } }
def binding (out : Bool) : Binding := ⟨1, 0, .stream, 0, pattern out, if out then 1 else 0, 0, 8⟩
/-- h1 is a handle of the bound stream. -/
def streamCtx (out : Bool) : CueCtx := { ctx with h := ctx.h.set 1 (.stream out .stream 0 0) }
def withIn (i : InPort) : Cluster := { inp := [(0, i)] }
def withOut (o : OutPort) : Cluster := { outp := [(0, o)] }

theorem witness_bind (out : Bool) :
    let s := state ctx played
    s.myTake = some played ∧ s.handle 0 = .tensor 0 ∧ s.handle 1 = .empty ∧
      played.slate.pats[if out then 1 else 0]? = some (pattern out) ∧ played.physical s.curCl out 0 = some 0 ∧
      (pattern out).port = 0 ∧ (pattern out).dir = out ∧ (pattern out).tid = 0 ∧ (pattern out).node = 0 ∧
      (s.inPort 0 0).cmds = [] ∧ (s.inPort 0 0).bound = none ∧ (s.outPort 0 0).cmds = [] ∧ (s.outPort 0 0).bound = none := by
  cases out <;> decide +kernel
/-- Bound, with an unbind before: a BIND is queued. -/
theorem witness_bind_queued :
    let s := state ctx played { withIn { bound := some (binding false), cmds := [.unbind] } with
      outp := [(0, { bound := some (binding true), cmds := [.unbind] })] }
    (s.inPort 0 0).cmds ≠ [] ∧ willBind (s.inPort 0 0).bound.isSome (s.inPort 0 0).cmds = false ∧
      (s.outPort 0 0).cmds ≠ [] ∧ willBind (s.outPort 0 0).bound.isSome (s.outPort 0 0).cmds = false := by decide +kernel
theorem witness_bind_kinds :
    let s := state (streamCtx false) played
    (∀ tid, s.handle 2 ≠ .tensor tid) ∧ s.handle 0 = .tensor 0 ∧ s.handle 1 ≠ .empty ∧ CanTrap s 5 := by
  have h : (state (streamCtx false) played).handle 2 = .empty := by decide +kernel
  exact ⟨fun tid g => absurd (h.symm.trans g) (by simp), by decide +kernel, by decide +kernel, canTrap (by decide +kernel)⟩
/-- The slate lists patterns 0 and 1; pattern 1 is not in0's. -/
theorem witness_bind_pattern :
    let s := state ctx played
    played.slate.pats[2]? = none ∧ (pattern true).dir ≠ false ∧ CanTrap s 13 := ⟨by decide +kernel, by decide, canTrap (by decide +kernel)⟩
theorem witness_bind_busy (out : Bool) :
    let s := state ctx played { withIn { bound := some (binding false) } with outp := [(0, { cmds := [.bind (binding true)] })] }
    (if out then willBind (s.outPort 0 0).bound.isSome (s.outPort 0 0).cmds
      else willBind (s.inPort 0 0).bound.isSome (s.inPort 0 0).cmds) = true ∧ CanTrap s 12 := by
  cases out <;> exact ⟨by decide +kernel, canTrap (by decide +kernel)⟩
theorem witness_unbind (out : Bool) :
    let s := state (streamCtx out) played
    s.handle 1 = .stream out .stream 0 0 ∧ played.physical s.curCl out 0 = some 0 ∧ (s.inPort 0 0).cmds = [] ∧
      (s.outPort 0 0).cmds = [] ∧ (s.outPort 0 0).held = [] ∧ (s.outPort 0 0).wait = [] := by
  cases out <;> decide +kernel
theorem witness_unbind_kind :
    let s := state ctx played; (∀ q n r x, s.handle 0 ≠ .stream q n r x) ∧ CanTrap s 5 := by
  have h : (state ctx played).handle 0 = .tensor 0 := by decide +kernel
  exact ⟨fun q n r x g => absurd (h.symm.trans g) (by simp), canTrap (by decide +kernel)⟩
theorem witness_command_queued :
    let s := state (streamCtx true) played { withIn { cmds := [.barrier] } with outp := [(0, { cmds := [.barrier] })] }
    (s.inPort 0 0).cmds ≠ [] ∧ (s.outPort 0 0).cmds ≠ [] ∧ (s.inPort 0 0).cmds = .barrier :: [] ∧ (s.outPort 0 0).cmds = .barrier :: [] := by
  decide +kernel
theorem witness_bindTakeEffect :
    let s := state ctx played { withIn { cmds := [.bind (binding false)] } with outp := [(0, { cmds := [.bind (binding true)] })] }
    (s.inPort 0 0).cmds = .bind (binding false) :: [] ∧ s.take? (binding false).take = some played ∧
      (s.outPort 0 0).cmds = .bind (binding true) :: [] := by decide +kernel
theorem witness_unbindComplete :
    let s := state ctx played { withIn { cmds := [.unbind] } with
      outp := [(0, { cmds := [.unbind] }), (1, { cmds := [.unbind], held := [⟨0, false, none, 0, none, 0⟩] }),
        (2, { cmds := [.unbind], held := [⟨0, false, none, 0, none, 0⟩], stop := true })] }
    (s.inPort 0 0).cmds = .unbind :: [] ∧ (s.outPort 0 0).cmds = .unbind :: [] ∧ (s.outPort 0 0).stop = false ∧
      (s.outPort 0 0).held = [] ∧ (s.outPort 0 0).wait = [] ∧ (s.outPort 0 1).held ≠ [] ∧ (s.outPort 0 1).stop = false ∧
      (s.outPort 0 2).stop = true := by decide +kernel
theorem witness_portWait :
    let s := state ctx played (withIn {}); s.myTake = some played ∧ played.physical s.curCl false 0 = some 0 ∧
      (s.inPort 0 0).cmds.length = 0 ∧ (s.inPort 0 0).bound.isNone ∧ (s.outPort 0 0).bound.isNone := by decide +kernel
theorem witness_portWait_absent : played.physical state.curCl false 1 = none := by decide
theorem witness_portWait_waits :
    let s := state ctx played { withIn { bound := some (binding false) } with outp := [(0, { cmds := [.barrier] })] }
    s.portEnded s.curCl false 0 = false ∧ (s.outPort 0 0).cmds.length ≠ 0 := by decide +kernel
theorem witness_portWait_ended :
    let s := state ctx played (withIn { bound := some (binding false), got := 8, pos := 8, base := 8 })
    (s.inPort 0 0).cmds.length = 0 ∧ s.portEnded s.curCl false 0 = true := by decide +kernel
theorem witness_portWaitWake :
    let s := state { ctx with kstate := .wait, wait := some (.portWait false 0 0) } played
    (s.ctx 0 0).wait = some (.portWait false 0 0) ∧ s.portEnded 0 false (0 : BitVec 4).toNat = true := by decide +kernel
def held (m : Mx) : Cluster := { mx := { m with holder := some 1 } }
/-- A store of the context to a peer is outstanding, which MX.WAIT does not wait for. -/
theorem witness_mxWait :
    let s := state { ctx with posted := [⟨5, 1, 0, none, false⟩] } take (held {})
    s.myTake = some take ∧ (s.mxOf s.curCl).holder = some take.id ∧ (∀ i ∈ (s.mxOf 0).queue, i.k ≠ 0) ∧
      (∀ x ∈ (s.ctx 0 0).posted, x.mx = none) ∧ ∀ x ∈ s.me.aborts, x.mx = none := by decide +kernel
theorem witness_mxWait_waits :
    let s := state { ctx with posted := [⟨5, 1, 0, some .v, false⟩] } take (held {})
    ¬ ((∀ i ∈ (s.mxOf 0).queue, i.k ≠ 0) ∧ ∀ x ∈ (s.ctx 0 0).posted, x.mx = none) := by decide +kernel
theorem witness_mxWaitWake :
    let s := state { ctx with kstate := .wait, wait := some .mxWait } take (held {})
    (s.ctx 0 0).wait = some .mxWait ∧ (∀ i ∈ (s.mxOf 0).queue, i.k ≠ 0) ∧ (∀ x ∈ (s.ctx 0 0).posted, x.mx = none) ∧
      (s.ctx 0 0).pend = [] ∧ ∀ x ∈ (s.ctx 0 0).aborts, x.mx = none := by decide +kernel

/-- A region of one page, playing, whose element 0 fills its buffer A from in0 lane 0. -/
def region : Region :=
  { take := 1, rstate := .run, w := 1, h := 1, ii := 1, width := 1, slots := 0xFFFF,
    emask := 0xFFFF }
def fed : Bank := { adep := 4, afill := 256 }
def fabric (i : InPort) : Cluster := { withIn i with regions := [(0, region)], banks := [(0, fed)] }
theorem witness_inputPortRead :
    let s := state ctx played (fabric { bound := some (binding false), cons := [⟨0, 0, 0, false⟩] })
    let b := binding false; let ten := played.tensor 0
    (s.inPort 0 0).bound = some b ∧ s.take? b.take = some played ∧ played.active = true ∧
      s.mayFetch 0 0 played b = true ∧
      s.spread played ten true false false (((b.walk ten).span 0).map (b.coord ten (b.walk ten))) = .keys [(⟨0, 0, 0, 0⟩, 0)] ∧
      s.readBad 0 ten.unit = false ∧ s.readCorrects 0 ten.unit = false := by decide +kernel
/-- The reads of port 0 are issued later than those of port 1, whose one token has come, and go on; those of port 1 issued in
the same cycle hold nothing up; and earlier reads of port 1 do. -/
theorem witness_inputPortRead_streams :
    let x : InPort := { bound := some (binding false), cons := [⟨0, 0, 0, false⟩], began := some 9 }
    let s (n got : Nat) := state ctx played { fabric x with inp := [(0, x), (1, { x with began := some n, got := got, cons := [] })] }
    let b := binding false; let y := ((s 8 0).inPort 0 1)
    b.node = .stream ∧ (played.tensor 0).kind = 0 ∧ (s 8 8).mayFetch 0 0 played b = true ∧ (s 9 0).mayFetch 0 0 played b = true ∧
      y.began = some 8 ∧ y.streams played.id (fun _ => true) = true ∧ (s 8 0).readsOn played y = true ∧ (s 8 0).mayFetch 0 0 played b = false := by
  decide +kernel
/-- A read of the context's stream, which has started, is to come; and none, with the consumer not started. -/
theorem witness_fence_streams :
    let c := fabric { bound := some (binding false), cons := [⟨0, 0, 0, false⟩] }
    let s := state ctx played c; let u := state ctx played { c with regions := [(0, { region with rstate := .armed })] }
    s.myStreams = true ∧ (s.me.posted = []) ∧ FenceKind.rel ≠ .acq ∧ (u.cluster 0).inp ≠ [] ∧
      ∀ y ∈ (u.cluster 0).inp, ∀ c ∈ y.2.cons, (u.region 0 c.rid).rstate = .armed := by decide +kernel
/-- A token is due, and the buffer has room for one more. -/
theorem witness_inputTokenArrival :
    let s := state ctx played { fabric { bound := some (binding false), got := 1, buf := [7], cons := [⟨0, 0, 0, false⟩] } with
      banks := [(0, { fed with a := [1, 2, 3] })] }
    let x := s.inPort 0 0; let rids := (x.cons.map (·.rid)).filter fun r => s.namesLane 0 (s.region 0 r) 0 0
    rids = [0] ∧ (∀ c ∈ x.cons, x.pos ≤ c.rd) ∧ x.pos < x.got ∧ s.canDeliver 0 0 0 0 = true ∧ x.pulled = false ∧
      (rids.flatMap fun r => (s.region 0 r).els.map (s.region 0 r).bankNo).Nodup := by decide +kernel
theorem witness_tileCommit :
    let s := state ctx played (withOut { bound := some (binding true), held := [⟨7, true, none, 0, none, 0⟩], nacc := 1 })
    let b := binding true; let ten := played.tensor 0; let tile : List OutTok := [⟨7, true, none, 0, none, 0⟩]
    (s.outPort 0 0).bound = some b ∧ s.take? b.take = some played ∧ played.active = true ∧ s.dueTile 0 0 = tile ∧ b.node = .stream ∧
      checkElems ten (tileElems b ten tile) = some ([(⟨0, 0, 0, 0⟩, 7)], []) ∧
      s.spread played ten false true false [⟨0, 0, 0, 0⟩] = .keys [(⟨0, 0, 0, 0⟩, 0)] ∧
      (s.putElems ten none 0 1 0 [(⟨0, 0, 0, 0⟩, 0)] [7]).isSome = true ∧ ten.elemFmt.whole = true ∧ s.writeBad 0 ten.unit = false := by
  decide +kernel

/-! ### Witnesses: banks, scenes, overlays, exit -/

theorem witness_accTake :
    let s := state ctx take { accOwn := [(0, some (9, 0))] }
    let free (i : Nat) := i + 255 ≤ 256 ∧ ∀ j < 255, (s.cluster 0).bankOwner (i + j) = none
    free 1 ∧ ∀ j < 1, ¬ free j := by decide +kernel
theorem witness_accTake_none :
    let s := state ctx take { accOwn := [(0, some (9, 0))] }
    ∀ i < 256, ¬ (i + 256 ≤ 256 ∧ ∀ j < 256, (s.cluster 0).bankOwner (i + j) = none) := by decide +kernel
/-- K0 holds bank 255. -/
def lastBank (m : Mx) : Cluster := { held m with accOwn := [(255, some (1, 0))] }
theorem witness_accFree :
    let s := state { ctx with s := ctx.s.set 3 255 } take (lastBank {})
    (∀ j < 1, (s.reg 3).toNat + j < 256 ∧ (s.cluster 0).bankOwner ((s.reg 3).toNat + j) = some (s.me.take, s.curK)) ∧
      s.banksBusy 0 255 1 = false := by decide +kernel
theorem witness_accFree_stalls :
    (state { ctx with s := ctx.s.set 3 255 } take (lastBank { queue := [⟨.zero 255 1, 0, 0, 0, []⟩] })).banksBusy 0 255 1 = true := by
  decide +kernel
theorem witness_accFree_foreign :
    let s := state { ctx with s := ctx.s.set 3 255 } take (lastBank {})
    ¬ ((s.reg 3).toNat + 1 < 256 ∧ (s.cluster 0).bankOwner ((s.reg 3).toNat + 1) = some (s.me.take, s.curK)) ∧
      (∀ m < 1, (s.reg 3).toNat + m < 256 ∧ (s.cluster 0).bankOwner ((s.reg 3).toNat + m) = some (s.me.take, s.curK)) ∧ CanTrap s 19 :=
  ⟨by decide +kernel, by decide +kernel, canTrap (by decide +kernel)⟩
theorem witness_accFreeComplete :
    let s := state { ctx with stall := some (.accFree 255 1) } take (lastBank {})
    (s.ctx 0 0).stall = some (.accFree 255 1) ∧ s.banksBusy 0 255 1 = false := by decide +kernel
theorem witness_sceneGo :
    let s := state ctx played; s.myTake = some played ∧ (0 : BitVec 14).toNat = played.scene ∧
      (1 : BitVec 14).toNat ≠ played.scene ∧ CanTrap s 14 := ⟨by decide +kernel, rfl, by decide, canTrap (by decide +kernel)⟩
def oneRegion : Take := { played with reel := { played.reel with scenes := [{ scene with slate := { slate with
  regions := [⟨false, 0, 0, [], 1, 1, 0, 0, 0, []⟩] } }] } }
theorem witness_regionHalt :
    let s := state ctx oneRegion
    s.myTake = some oneRegion ∧ (0 : BitVec 6).toNat < oneRegion.slate.regions.length ∧
      oneRegion.slate.regions.length ≤ (1 : BitVec 6).toNat ∧ CanTrap s 15 :=
  ⟨by decide +kernel, by decide, by decide, canTrap (by decide +kernel)⟩
/-- A region that is to halt, of which an element has a result pending; one in a hold; and one that plays. -/
theorem witness_regionHalts :
    let s := state ctx oneRegion { regions := [(0, { region with halting := true }), (1, { region with held := true }), (2, region)], banks := [
      (0, { pend := some ⟨7, 0, 0, false, none, 0, 0, none, 0, 0, 2⟩ })] }
    let g := s.region 0 0
    liveRegions s 0 1 (fun g => g.rix == 0) = [0, 1, 2] ∧ g.halting = true ∧ g.rstate ≠ .halted ∧ g.rstate ≠ .idle ∧
      g.els.any (fun e => (s.bank 0 (g.bankNo e)).pend.isSome) = true ∧ (s.region 0 1).held = true ∧ (s.region 0 2).held = false ∧
      (s.region 0 2).halting = false := by decide +kernel
/-- R186: a region in a hold halts at once, and one that plays with the cycle boundary. -/
theorem test_regionHalt :
    let s := state ctx oneRegion { regions := [(0, region), (1, { region with held := true })] }
    (match exec (.regionHalt 0) s with
    | .next u => ((u.region 0 0).rstate, (u.region 0 1).rstate, ((tick u).region 0 0).rstate)
    | _ => (.idle, .idle, .idle)) = (.run, .halted, .halted) := by decide +kernel
theorem witness_splice :
    let s := state ctx oneRegion
    (state ctx played).myTake = some played ∧ played.nextScene = some scene ∧ s.myTake = some oneRegion ∧
      oneRegion.nextScene = none ∧ CanTrap s 16 :=
  ⟨by decide +kernel, by decide, by decide +kernel, by decide, canTrap (by decide +kernel)⟩
theorem witness_spliceComplete :
    let s := state { ctx with stall := some .splice } played
    s.take? 1 = some played ∧ played.active = true ∧ played.nextScene = some scene ∧
      ∀ p ∈ played.places, s.spliceReady played p = true ∧ (s.ctx p.cl p.k).aborts = [] := by decide +kernel
/-- Overlay 3: 8 bytes at window offset 64. -/
def laid : Take := { take with reel := { take.reel with ovls := [⟨3, 64, 0, 8⟩] } }
theorem witness_ovlFetch :
    let s := state ctx laid; let f := state { ctx with ovl := [(3, .fetching)] } laid
    s.myTake = some laid ∧ laid.reel.overlay 3 = some ⟨3, 64, 0, 8⟩ ∧ tget .never s.me.ovl 3 ≠ .fetching ∧
      tget .never f.me.ovl 3 = .fetching ∧ laid.reel.overlay 4 = none ∧ CanTrap s 17 :=
  ⟨by decide +kernel, by decide, by decide +kernel, by decide +kernel, by decide, canTrap (by decide +kernel)⟩
theorem witness_ovlFetchEnd :
    let s := state { ctx with ovl := [(3, .fetching)] } laid; let o : Overlay := ⟨3, 64, 0, 8⟩; let c := s.ctx 0 0
    s.take? c.take = some laid ∧ laid.reel.overlay o.n = some o ∧ tget .never c.ovl o.n = .fetching ∧ o.n ∉ c.ovlAgain ∧
      ∀ x ∈ s.refRuns laid.fn laid.reel.ref o.off o.len, s.readBad x.1 x.2 = false := by decide +kernel
theorem witness_ovlWait :
    let s := state { ctx with ovl := [(1, .ok), (2, .fetching), (3, .failed)] } laid
    tget .never s.me.ovl 0 = .never ∧ tget .never s.me.ovl 1 = .ok ∧ tget .never s.me.ovl 2 = .fetching ∧
      tget .never s.me.ovl 3 = .failed ∧ CanTrap s 18 :=
  ⟨by decide +kernel, by decide +kernel, by decide +kernel, by decide +kernel, canTrap (by decide +kernel)⟩
theorem witness_ovlWaitWake (st : OvlSt) (h : st = .ok ∨ st = .failed) :
    let s := state { ctx with kstate := .wait, wait := some (.ovlWait 3), ovl := [(3, st)] } laid; let c := s.ctx 0 0
    c.wait = some (.ovlWait 3) ∧ tget .never c.ovl 3 = st ∧ s.take? c.take = some laid ∧ laid.act 18 = 1 ∧ c.handler = false := by
  rcases h with rfl | rfl <;> decide +kernel
theorem witness_exit :
    let s := state { ctx with stall := some (.exit 7 none) }; let c := s.ctx 0 0
    state.myTake = some take ∧ s.take? c.take = some take ∧ take.unasked = true ∧ c.stall = some (.exit 7 none) ∧ s.portsDone 0 take = true ∧
      s.entsDone 0 take.id (s.writingEnts 0 take fun _ => true) = true ∧ (∀ i ∈ (s.mxOf 0).queue, i.k ≠ 0) ∧ c.posted = [] ∧
      c.aborts = [] ∧ c.pend = [] := by decide +kernel

/-! ### Witnesses: the matrix engine -/

/-- The full queue but one: 15 items. -/
def queue15 : List MxItem := List.replicate 15 ⟨.swap, 0, 0, 0, []⟩
def mxState (c : CueCtx := ctx) (m : Mx := {}) : State := state c take { held m with accOwn := [(0, some (1, 0)), (255, some (1, 0))] }
/-- One row of N64 from bank 255. -/
def tile : TileRow := ⟨0, 0, 0, 0, 0, 0, 0, 7, 255⟩
theorem witness_mxIssue :
    let s := mxState { ctx with s := ctx.s.set 3 0x733 } { queue := queue15 }; let v := s.reg 3
    s.myTake = some take ∧ (s.mxOf s.curCl).holder = some take.id ∧ (s.mxOf s.curCl).queue.length < 16 ∧ v.toNat < 2 ^ 11 ∧
      (∀ b ∈ [2, 3, 6, 7], v.getLsbD b = false) ∧ s.form take op 0 1 = .ok 0 ⟨0, 0, 0, 0⟩ 0 ∧ (take.tensor 0).fmt = 7 ∧
      s.form take op 0 256 = .ok 0 ⟨0, 0, 0, 0⟩ 0 ∧ s.mxWaits take (.pin 7 0 0 0 0 0 0) = false := by decide +kernel
/-- A store of the context to a peer is outstanding, which an instruction that reads memory waits for. -/
theorem witness_mxIssue_waits :
    let s := mxState { ctx with posted := [⟨5, 1, 0, none, false⟩] }; let m := MxOp.pin 7 0 0 0 0 0 0
    m.readsMem = true ∧ s.mxWaits take m = true ∧ s.form take op 0 1 = .ok 0 ⟨0, 0, 0, 0⟩ 0 ∧ (take.tensor 0).fmt = 7 ∧
      s.mxWaits take (.step false true tile (.tensor 0) 0 0) = true := by decide +kernel
theorem witness_mxZero :
    let s := mxState { ctx with s := ctx.s.set 3 255 }
    ∀ j < (1 : BitVec 14).toNat, (s.reg 3).toNat + j < 256 ∧
      (s.cluster s.curCl).bankOwner ((s.reg 3).toNat + j) = some (take.id, s.curK) := by decide +kernel
def fits (s : State) (r : TileRow) (words : Nat) : Prop :=
  ∀ i ≤ r.rows.toNat, ∀ j ≤ (if r.selc = 1 then r.rpt.toNat else 0), ∀ w < words,
    let bank := (512 * r.bank.toNat + (j * (r.rows.toNat + 1) + i) * words + w) / 512
    bank < 256 ∧ (s.cluster s.curCl).bankOwner bank = some (take.id, s.curK)
theorem witness_mxStep_issue :
    let s := mxState
    s.handle tile.h = .tensor 0 ∧ (take.tensor 0).fmt = tile.afmt ∧ (tile.afmt = 15 → (take.tensor 0).sub = tile.sub) ∧
      (∀ sp, s.mxWaits take (.step sp true tile (.tensor 0) 0 0) = false) ∧
      fits s tile (native (fmtOf tile.afmt tile.sub)).2.2 ∧ fits s tile (rdSrc (s.mxOf s.curCl).tailMode).pitch := by
  refine ⟨by decide +kernel, by decide +kernel, by decide, by decide +kernel, ?_, ?_⟩ <;> unfold fits <;> decide +kernel
theorem witness_mxStep_port (out : Bool) :
    let s := mxState { ctx with h := ctx.h.set 0 (.stream out .stream 0 0) }
    s.handle tile.h = .stream out .stream 0 0 ∧ s.noPack take out 0 = false ∧ (take.tensor 0).fmt = tile.afmt ∧
      s.mxWaits take (.step false false tile (.stream out .stream 0 0) 0 0) = false ∧ fits s tile (native (fmtOf tile.afmt tile.sub)).2.2 := by
  cases out <;> (refine ⟨by decide +kernel, by decide +kernel, by decide +kernel, by decide +kernel, ?_⟩; unfold fits; decide +kernel)
theorem witness_mxNoengine : (state.mxOf state.curCl).holder ≠ some take.id ∧ CanTrap state 26 :=
  ⟨by decide +kernel, canTrap (by decide +kernel)⟩
theorem witness_mxFull : 16 ≤ ((mxState ctx { queue := queue15 ++ [⟨.swap, 0, 0, 0, []⟩] }).mxOf 0).queue.length := by
  decide +kernel
theorem witness_mxMode_trap :
    let s := mxState { ctx with s := (ctx.s.set 3 0x800).set 4 4 }
    2 ^ 11 ≤ (s.reg 3).toNat ∧ (∃ b ∈ [2, 3, 6, 7], (s.reg 4).getLsbD b = true) ∧ CanTrap s 28 :=
  ⟨by decide +kernel, by decide +kernel, canTrap (by decide +kernel)⟩
theorem witness_mxStep_kind :
    (mxState.handle tile.h).kind ≠ (if false then 1 else 2) ∧ (mxState.handle 1).kind ≠ (if true then 1 else 2) ∧ CanTrap mxState 5 :=
  ⟨by decide +kernel, by decide +kernel, canTrap (by decide +kernel)⟩
theorem witness_mxPin_format : (take.tensor 0).fmt ≠ 4 ∧ CanTrap mxState 27 := ⟨by decide +kernel, canTrap (by decide +kernel)⟩
def item (op : MxOp) : MxItem := ⟨op, 0, 0, 0, []⟩
theorem witness_mxQueue (op : MxOp)
    (h : op = .swap ∨ op = .scale false ⟨0, 0, 0, 0, 0⟩ ∨ op = .scale true ⟨0, 0, 0, 0, 0⟩ ∨ op = .mode 3 ∨ op = .zero 255 1) :
    (mxState ctx { queue := [item op] }).mxReady 0 = some (take, item op) := by
  rcases h with rfl | rfl | rfl | rfl | rfl <;> decide +kernel
/-- Tensor 0 of eight elements of a format. -/
def typed (f : BitVec 4) (sub : BitVec 3) : Take :=
  { take with tensors := [(0, { words 0 (plot 0 0) with w0 := BitVec.ofNat 64 (f.toNat * 2 ^ 12 + sub.toNat * 2 ^ 16) })] }
/-- Of I8. -/
def bytes8 : Take := typed 0 0
theorem witness_mxPin :
    let i := item (.pin 0 0 0 7 0 0 0); let s := state ctx bytes8 (held { queue := [i] })
    let ten := bytes8.tensor 0; let nat := native (fmtOf 0 0)
    s.mxReady 0 = some (bytes8, i) ∧ min nat.1 (ten.ext 1 - 0) = 1 ∧ min nat.2.1 (ten.ext 0 - 7) = 1 ∧
      ten.inExtents ⟨7, 0, 0, 0⟩ = true ∧ s.translate bytes8 ten (ten.offset ⟨7, 0, 0, 0⟩) true false false = .ok (.key 7) ∧
      s.readBad 7 ten.unit = false ∧ s.readCorrects 7 ten.unit = false := by decide +kernel
/-- One row of I8 from tensor 0, against a plane of one weight. -/
def row8 : TileRow := { tile with afmt := 0 }
def plane : Plane := { pfmt := 0, pk := 1, pn := 1, pv := true, cells := [(0, 3)] }
/-- I8, E4M3, LG6, F32 and F64, each with itself, and the words of its result hold no error. -/
def pairings : List (BitVec 4 × BitVec 3 × BitVec 5) := [(0, 0, 0), (15, 0, 16), (15, 5, 21), (8, 0, 8), (10, 0, 10), (11, 0, 11)]
theorem witness_mxInterval : pairings.all (fun (f : BitVec 4 × BitVec 3 × BitVec 5) =>
    let t := typed f.1 f.2.1; let r := { tile with afmt := f.1, sub := f.2.1 }; let i := item (.step false true r (.tensor 0) 0 0)
    let s := state ctx t (held { queue := [i], live := { plane with pfmt := f.2.2 } })
    let m := s.mxOf 0; let fa := fmtOf f.1 f.2.1
    let a := (⟨s, [], [], none⟩ : Gather).rows 0 0 t (t.tensor 0) false true r 0 0 0 1 [] (List.range 1)
    decide (s.mxReady 0 = some (t, i) ∧ m.live.pv = true ∧ pairingRuns false fa (fmtOf m.live.fmt m.live.sub) = true ∧ (s.cluster 0).accBad = [] ∧
      m.mode.getLsbD 0 = false ∧ m.mode.getLsbD 1 = false ∧ a.1.stop = none ∧ a.1.asks = [])) = true := by decide +kernel
/-- A sparse step, whose metadata byte follows the two kept values. -/
theorem witness_mxInterval_sparse :
    let t := typed 15 0; let r := { tile with afmt := 15 }; let i := item (.step true true r (.tensor 0) 0 0)
    let s := (state ctx t (held { queue := [i], live := { plane with pfmt := 16 } })).poke 2 [0x44]
    let a := (⟨s, [], [], none⟩ : Gather).rows 0 0 t (t.tensor 0) true true r 0 0 0 1 [] (List.range 1)
    s.mxReady 0 = some (t, i) ∧ pairingRuns true (fmtOf 15 0) (fmtOf 15 0) = true ∧ (s.cluster 0).accBad = [] ∧ a.1.stop = none ∧ a.1.asks = [] := by
  decide +kernel
theorem witness_mxInterval_port :
    let h : Handle := .stream false .stream 0 0; let i := item (.step false false row8 h 0 0)
    let s := state ctx bytes8 { held { queue := [i], live := plane } with inp := [(0, {
      bound := some { binding false with pat := ⟨flag true 56, 0⟩ }, got := 1, buf := [5] })] }
    let x := s.mxTokens 0 bytes8 h 1 1
    let a := Gather.rows ⟨x.1, [], [], none⟩ 0 0 bytes8 (bytes8.tensor 0) false false row8 0 0 0 1 x.2.1 (List.range 1)
    s.mxReady 0 = some (bytes8, i) ∧ rowTokens false (fmtOf 0 0) 1 = 1 ∧ (s.cluster 0).accBad = [] ∧ x.2.2 = none ∧ x.2.1 = [5] ∧ a.1.stop = none ∧ a.1.asks = [] := by
  decide +kernel
theorem witness_mxInterval_noplane :
    let i := item (.step false true row8 (.tensor 0) 0 0); let s := state ctx bytes8 (held { queue := [i] })
    s.mxReady 0 = some (bytes8, i) ∧ (s.mxOf 0).live.pv = false ∧ s.ctxOf 0 bytes8.id = some 0 ∧ (s.ctx 0 0).kstate ≠ .exited := by
  decide +kernel
/-- The row of MX.READ that starts at the last element of tensor 0: one element lies in its extents. -/
theorem witness_mxRead :
    let i := item (.read row8 (.tensor 0) 0 7); let s := state ctx bytes8 (held { queue := [i] }); let ten := bytes8.tensor 0
    let src := rdSrc (s.mxOf 0).mode; let q := rowSel row8 0 src.pitch 0 0
    let els := (readRow (s.cluster 0).acc src (fmtOf 0 0) (Rm.ofNat 0) q.2.2).zipIdx.filterMap fun e =>
      let c : Coord := ⟨7 + e.2, q.1, q.2.1, 0⟩
      if ten.inExtents c then some (c, e.1.code) else none
    s.mxReady 0 = some (bytes8, i) ∧ (s.cluster 0).accBad = [] ∧ (s.ctx 0 i.k).posted = [] ∧ checkElems ten els = some ([(⟨7, 0, 0, 0⟩, 0)], []) ∧
      s.spread bytes8 ten false true false [⟨7, 0, 0, 0⟩] = .keys [(⟨7, 0, 0, 0⟩, 7)] := by decide +kernel
/-- A write of an earlier read is outstanding, and tensor 0 is SO. -/
theorem witness_mxRead_waits :
    let i := item (.read row8 (.tensor 0) 0 7); let s := state { ctx with posted := [⟨5, 1, 0, some .v, false⟩] } bytes8 (held { queue := [i] })
    s.mxReady 0 = some (bytes8, i) ∧ (∃ x ∈ (s.ctx 0 i.k).posted, x.mx ≠ none) ∧ (bytes8.tensor 0).kind = 0 ∧
      s.spread bytes8 (bytes8.tensor 0) false true false [⟨7, 0, 0, 0⟩] = .keys [(⟨7, 0, 0, 0⟩, 7)] :=
  ⟨by decide +kernel, ⟨⟨5, 1, 0, some .v, false⟩, by decide +kernel, by decide⟩, by decide +kernel, by decide +kernel⟩
theorem witness_mxRead_port :
    let h : Handle := .stream true .stream 0 0; let i := item (.read row8 h 0 0)
    let s := state ctx bytes8 { held { queue := [i] } with outp := [(0, { bound := some (binding true) })] }
    s.mxReady 0 = some (bytes8, i) ∧ (s.cluster 0).accBad = [] ∧ bytes8.physical 0 true 0 = some 0 ∧ s.portBlocks 0 0 bytes8 = false := by
  decide +kernel

/-! ### Witnesses: the copy engine -/

/-- Zone 7 of the take, two slots of 256 bytes at 0, status word at 8,192. -/
def zone (word : Word := 0) (got : Nat := 0) : Zone :=
  { open_ := true, ssize := 1, nslot := 2, owner := 1, zsw := 8192, word := word, zgot := .ofNat 48 got }
def zoned (z : Zone) : Cluster := { zones := [(7, z)] }

/-- A BOX entry of stage 0 that copies 8 bytes of tensor 0 from element 0 to element 4. -/
def sched : Sched := ⟨8, 0, 0, 0, 0, 0, 4, 0⟩
def copying (w : Sched) : Take := { take with sched := [w] }
def engine (c : CopyEng) : Cluster := { copy := [(1, some c)] }
theorem witness_cpAdv :
    let s := state ctx (copying sched) (engine { stage := 254 }); let c := s.copyOf 0 1
    s.myTake = some (copying sched) ∧ c.stage.toNat + (1 : BitVec 14).toNat ≤ 255 ∧ 255 < c.stage.toNat + (2 : BitVec 14).toNat ∧
      CanTrap s 22 ∧ (copying sched).sched[0]? = some sched ∧ sched.tcl = (copying sched).lcOf 0 ∧
      sched.stage ≤ c.stage.toNat + 1 ∧ (tget {} c.ents 0).st = .pending ∧ (∀ x ∈ s.me.posted, x.mx ≠ none) ∧
      s.advWaits (copying sched) 255 = false :=
  ⟨by decide +kernel, by decide +kernel, by decide +kernel, canTrap (by decide +kernel), by decide +kernel, by decide +kernel,
    by decide +kernel, by decide +kernel, by decide +kernel, by decide +kernel⟩
theorem witness_cpAdv_waits : ∃ x ∈ (state { ctx with posted := [⟨5, 1, 0, none, true⟩] } (copying sched)).me.posted, x.mx = none :=
  ⟨⟨5, 1, 0, none, true⟩, by decide +kernel, rfl⟩
/-- A matrix instruction of the context that reads the SO plot is queued. -/
theorem witness_cpAdv_waits_reads :
    (state ctx (copying sched) { engine {} with mx := { queue := [item (.pin 7 0 0 0 0 0 0)] } }).advWaits (copying sched) 0 = true := by
  decide +kernel
/-- BYTES is no whole number of elements. -/
theorem witness_cpAdv_range :
    let w := { sched with w0 := 7 }; let t := copying w; 8 * w.bytes % (flowOf t w w.opr 0).win ≠ 0 ∧ t.sched[0]? = some w := by decide +kernel
/-- A source of the landed slots of a zone. -/
theorem witness_cpAdv_slots :
    let w := { sched with s0 := 3 <<< 60 ||| 7 <<< 48 }; let t := copying w
    let s := state ctx t (zoned { zone with slots := [(0, { st := .landed, scl := 9 }), (1, { st := .landed, scl := 3 })] })
    let z := s.zone 0 w.src.slotZone.toNat
    w.src.kind = 3 ∧ z.open_ = true ∧ z.nslot ≤ 64 ∧ (z.slot 0).st = .landed ∧ (z.slot 1).scl ≤ (z.slot 0).scl := by decide +kernel
/-- Of another cluster of the take. -/
def elsewhere : Sched := { sched with w1 := 1 <<< 56 }
theorem witness_cpStat : elsewhere.tcl ≠ (copying elsewhere).lcOf 0 ∧ (copying elsewhere).sched[0]? = some elsewhere := by decide +kernel
def active : CopyEng := { ents := [(0, { st := .active })] }
theorem witness_copySector :
    let t := copying sched; let s := state ctx t (engine active); let x : CopyEnt := { st := .active }; let f := flowOf t sched 0 0
    s.movable 0 1 0 = some (t, sched, x, f) ∧ x.asked = x.vals.length ∧ s.reduceWaits t 0 sched f x.rows = false ∧ sched.dst.kind ≠ 2 ∧
      (s.moveElems 0 t 0 f 0 (f.sectorElems 0 - 0)).2 = .ok ∧
      (tget {} ((s.moveElems 0 t 0 f 0 (f.sectorElems 0 - 0)).1.copyOf 0 1).ents 0).posted = [] := by decide +kernel
theorem witness_copySector_element :
    let t := copying sched; let s := state ctx t (engine active); let x : CopyEnt := { st := .active }; let f := flowOf t sched 0 0
    let ten := t.tensor 0; let at' (p : CPat) : Coord := ⟨p.c0 + (p.rowCol 0).2, p.c1 + (p.rowCol 0).1, p.c2, p.c3⟩
    sched.src.kind = 0 ∧ sched.dst.kind = 0 ∧ x.opr = 0 ∧ x.posted = [] ∧ x.vals = [] ∧ f.sectorElems x.doneb.toNat = x.pos + 1 ∧
      ten.inExtents (at' sched.src) = true ∧ ten.elemFmt.whole = true ∧ ten.act = 0 ∧
      s.translate t ten (ten.offset (at' sched.src)) true false false = .ok (.key 0) ∧ s.readBad 0 ten.unit = false ∧
      s.readCorrects 0 ten.unit = false ∧ s.translate t ten (ten.offset (at' sched.dst)) false true false = .ok (.key 32) ∧
      s.writeBad 32 ten.unit = false := by decide +kernel
/-- One element of tensor 0 combined with one of tensor 2 by each operator, with the codes of the formats it takes. -/
def operators : List (Nat × BitVec 4 × BitVec 4) := [
  (1, 10, 10), (2, 9, 9), (3, 13, 13), (4, 2, 2), (5, 10, 10), (6, 10, 10), (7, 2, 2), (8, 2, 2), (9, 13, 13), (10, 13, 13), (11, 13, 10),
  (12, 10, 13), (13, 13, 10), (14, 10, 13)]
def reducing (w : Sched) (src dst : BitVec 4) : Take :=
  { copying w with tensors := (typed src 0).tensors ++ [(2, { (typed dst 0).tensor 0 with plots := [(0, plot 0 1)] })] }
theorem witness_copySector_reduces : operators.all (fun o =>
    let f := fmtOf o.2.1 0; let g := fmtOf o.2.2 0; let w := { sched with w0 := BitVec.ofNat 64 (o.1 * 2 ^ 52 + f.width / 8), d0 := 2 <<< 48 }
    let t := reducing w o.2.1 o.2.2; let x : CopyEnt := { st := .active, opr := .ofNat 4 o.1 }
    let s := state ctx t (engine { ents := [(0, x)] }); let fl := flowOf t w x.opr 0
    let src := t.tensor w.src.tid; let dst := t.tensor w.dst.tid
    let at' (p : CPat) : Coord := ⟨p.c0 + (p.rowCol 0).2, p.c1 + (p.rowCol 0).1, p.c2, p.c3⟩
    decide (s.movable 0 1 0 = some (t, w, x, fl) ∧ x.asked = x.vals.length ∧ s.reduceWaits t 0 w fl x.rows = false ∧ w.src.kind = 0 ∧ w.dst.kind = 0 ∧
      x.posted = [] ∧ x.vals = [] ∧ fl.sectorElems x.doneb.toNat = x.pos + 1 ∧ x.opr.toNat = o.1 ∧ src.elemFmt = f ∧ dst.elemFmt = g ∧
      src.inExtents (at' w.src) = true ∧ dst.inExtents (at' w.dst) = true ∧ dst.act = 0) &&
    decide (s.translate t src (src.offset (at' w.src)) true false false = .ok (.key 0) ∧ s.readBad 0 src.unit = false ∧
      s.readCorrects 0 src.unit = false ∧ s.readBad (65536 + 4 * g.width / 8) dst.unit = false ∧
      s.translate t dst (dst.offset (at' w.dst)) false true false = .ok (.key (65536 + 4 * g.width / 8)) ∧
      s.translate t dst (dst.offset (at' w.dst)) true false false = .ok (.key (65536 + 4 * g.width / 8)) ∧
      s.readCorrects (65536 + 4 * g.width / 8) dst.unit = false ∧ s.writeBad (65536 + 4 * g.width / 8) dst.unit = false)) = true := by
  decide +kernel
/-- The source begins one past the last element. -/
theorem witness_copySector_fails :
    let w := { sched with s1 := 8 }; let t := copying w; let s := state ctx t (engine active); let f := flowOf t w 0 0
    s.movable 0 1 0 = some (t, w, { st := .active }, f) ∧ w.dst.kind ≠ 2 ∧ (s.moveElems 0 t 0 f 0 (f.sectorElems 0 - 0)).2 = .fail 6 := by
  decide +kernel
/-- Tensor 1 is a peer's: the write is posted. -/
theorem witness_copySector_posts :
    let w := { sched with d0 := 1 <<< 48 }; let t := copying w; let s := state ctx t (engine active); let f := flowOf t w 0 0
    let y := s.moveElems 0 t 0 f 0 (f.sectorElems 0 - 0)
    s.movable 0 1 0 = some (t, w, { st := .active }, f) ∧ y.2 = .ok ∧ (tget {} (y.1.copyOf 0 1).ents 0).posted ≠ [] := by decide +kernel
/-- An entry that lands 8 bytes in zone 2 of cluster 3 of this package. -/
def landing : Sched := { sched with d0 := 2 <<< 60 ||| 3 <<< 40 ||| 2 <<< 37, d1 := 0 }
theorem witness_copySector_lands :
    let t := copying landing; let s := state ctx t (engine { ents := [(0, { st := .active, land := some 5 })] })
    let x : CopyEnt := { st := .active, land := some 5 }; let f := flowOf t landing 0 0
    s.movable 0 1 0 = some (t, landing, x, f) ∧ landing.dst.kind = 2 ∧ x.land = some 5 ∧ x.posted = [] ∧
      (s.moveElems 0 t 0 f 0 (f.sectorElems 0 - 0)).2 = .ok := by decide +kernel
/-- The elements of a 16 KiB slot of T16 that a conversion to F32 sends, with those of another slot, to one landing. -/
def converting : Sched := { landing with w0 := 16384 ||| 13 <<< 52, s0 := 3 <<< 60 ||| 7 <<< 48 }
def converted (x : CopyEnt) : State := state ctx (copying converting) (engine { ents := [(0, { x with st := .active, opr := 13, slots := [0, 1], land := some 5 })] })
/-- An element for a landing without an operator, and elements of the first and of the last slot. -/
theorem witness_copySector_lands_element :
    let t := copying landing; let s := state ctx t (engine active); let f := flowOf t landing 0 0
    let r := copying converting; let u := converted {}; let g := flowOf r converting 13 2
    f.dst.kind = 2 ∧ (s.moveElem 0 t 0 f 0).2 = .ok ∧ t.id = 1 ∧ f.op = 0 ∧
      g.dst.kind = 2 ∧ g.op ≠ 0 ∧ (u.moveElem 0 r 0 g 0).2 = .ok ∧ 0 + g.e < g.n ∧ (u.moveElem 0 r 0 g g.e).2 = .ok ∧ g.n ≤ g.e + g.e := by
  decide +kernel
/-- The last element of the first sector, which has nothing to send, as none of its elements is of the last slot. -/
theorem witness_copySector_lands_none :
    let x : CopyEnt := { st := .active, opr := 13, slots := [0, 1], land := some 5, pos := 2047 }; let s := converted { pos := 2047 }
    let r := copying converting; let f := flowOf r converting 13 2; let y := s.moveElems 0 r 0 f 2047 (f.sectorElems 0 - 2047)
    s.movable 0 1 0 = some (r, converting, x, f) ∧ x.asked = x.vals.length ∧ x.land = some 5 ∧ x.posted = [] ∧ y.2 = .ok ∧
      f.sectorElems 0 < f.n ∧ (tget {} (y.1.copyOf 0 1).ents 0).obits < 8 := by decide +kernel
/-- The slot has just the bytes, and one byte too few. -/
theorem witness_landEntryStart :
    let t := copying landing; let r : Rsv := ⟨0, 3, 2, 5, 8, false⟩
    let s := state ctx t (engine { active with rsvs := [⟨0, 3, 1, 0, 256, false⟩, r] }); let f := flowOf t landing 0 0
    let hit (r : Rsv) := r.pkg = landing.dst.pkg ∧ r.cl = landing.dst.cl ∧ r.z = landing.dst.landZone
    s.movable 0 1 0 = some (t, landing, { st := .active }, f) ∧ (s.copyOf 0 1).rsvs = [⟨0, 3, 1, 0, 256, false⟩] ++ r :: [] ∧
      ¬ hit ⟨0, 3, 1, 0, 256, false⟩ ∧ hit r ∧ landing.dst.off + landing.bytes ≤ r.size ∧ 7 < landing.dst.off + landing.bytes := by decide +kernel
/-- The package of the zone is out of reach, and the package that it is in has a route. -/
theorem witness_landEntryStart_link :
    let w := { landing with d0 := 2 <<< 60 ||| 6 <<< 48 ||| 3 <<< 40 ||| 2 <<< 37 }; let t := copying w
    let s := state ctx t (engine active); let f := flowOf t w 0 0
    s.movable 0 1 0 = some (t, w, { st := .active }, f) ∧ w.dst.kind = 2 ∧ w.dst.pkg ≠ s.pkgId ∧ w.dst.pkg.toNat ∉ s.reach ∧
      w.dst.pkg.toNat ∈ ({ s with reach := [6] } : State).reach := by decide +kernel
/-- An entry that has met its end waits for a write. -/
theorem witness_landingAck_fin :
    let t := copying landing; let s := state ctx t (engine { ents := [(0, { st := .active, posted := [0, 5], fin := some 1 })] })
    let x := tget {} (s.copyOf 0 1).ents 0
    s.take? 1 = some t ∧ t.sched[0]? = some landing ∧ x.st = .active ∧ x.fin = some 1 ∧ x.posted ≠ [] := by decide +kernel
theorem witness_landingAck :
    let t := copying landing; let s := state ctx t (engine { ents := [(0, { st := .active, posted := [0] })] })
    let x := tget {} (s.copyOf 0 1).ents 0
    s.take? 1 = some t ∧ t.sched[0]? = some landing ∧ x.st = .active ∧ x.fin = none ∧ x.posted ≠ [] := by decide +kernel
theorem witness_copyEntryDone :
    let w := { sched with w0 := 8 ||| flag true 51 }; let t := copying w
    let s := state ctx t (engine { ents := [(0, { st := .active, fin := some 0 })] }); let x := tget {} (s.copyOf 0 1).ents 0
    s.take? 1 = some t ∧ t.sched[0]? = some w ∧ t.active = true ∧ x.st = .active ∧ x.fin = some 0 ∧
      sched.sen = false ∧ w.sen = true ∧ (w.src.kind ≠ 3 ∨ w.src.free = false) ∧
      s.translate t (t.tensor w.stid) w.stoff false true false = .ok (.key 0) ∧ s.writeBad 0 8 = false := by decide +kernel
/-- The stamp goes to a peer; the entry ends in an error. -/
theorem witness_copyEntryDone_peer :
    let w := { sched with w0 := 8 ||| flag true 51, w1 := 1 <<< 44 }; let t := copying w
    let s := state ctx t (engine { ents := [(0, { st := .active, fin := some 1 })] }); let x := tget {} (s.copyOf 0 1).ents 0
    s.take? 1 = some t ∧ t.sched[0]? = some w ∧ x.st = .active ∧ x.fin = some 1 ∧ x.posted = [] ∧ w.sen = true ∧ w.src.kind ≠ 3 ∧
      s.translate t (t.tensor w.stid) w.stoff false true false = .ok (.peer 5 0 0) := by decide +kernel

/-! ### Witnesses: landing zones -/

/-- Tensor 0 of 8 × 128 elements of 8 bytes: 8,192 bytes. -/
def area : Take := { take with tensors := [(0, { words 0 (plot 0 0) with w1 := 8 ||| 128 <<< 32 })] }
/-- A zone of the last slot count and one of 256 bytes: 31 slots in 7,936 bytes, its status word in the last 8 bytes of the tensor. -/
theorem witness_zoneOpen :
    let s := state { ctx with s := (ctx.s.set 2 256).set 3 (8184 <<< 32) } area; let t := area
    let ha := s.handle ((s.reg 1).setWidth 4); let hb := s.handle ((s.reg 3).setWidth 4)
    s.myTake = some t ∧ ha = .tensor 0 ∧ hb = .tensor 0 ∧ (s.zone 0 7).open_ = false ∧ (s.reg 2).toNat = 256 ∧
      (s.reg 1).toNat / 2 ^ 32 = 0 ∧ (s.reg 3).toNat / 2 ^ 32 = 8184 ∧ 8184 < (t.tensor 0).size ∧ 8184 % 8 = 0 ∧
      s.areaMoves t (t.tensor 0) 0 (31 * 256) = false ∧ s.areaMoves t (t.tensor 0) 8184 8 = false ∧
      s.homeArea t (t.tensor 0) 0 0 (31 * 256) = some 0 ∧ (s.cluster 0).meetsZone 0 (31 * 256) = false ∧
      s.homeArea t (t.tensor 0) 0 8184 8 = some 8184 ∧ (s.cluster 0).meetsZone 8184 8 = false ∧ 0 + 31 * 256 ≤ 8184 ∧
      s.writeBad (0 * 2 ^ 25 + 8184 % 2 ^ 25) 8 = false := by decide +kernel
/-- The plot of the zone is being moved. -/
theorem witness_zoneOpen_waits :
    let t := { area with tensors := [(0, { words 0 (plot 0 0 ||| BitVec.twoPow 64 55) with w1 := 8 ||| 128 <<< 32 })] }
    let s := state { ctx with s := (ctx.s.set 2 256).set 3 (8184 <<< 32) } t
    s.myTake = some t ∧ s.handle 0 = .tensor 0 ∧ (s.zone 0 7).open_ = false ∧ 8184 < (t.tensor 0).size ∧
      s.areaMoves t (t.tensor 0) 0 (31 * 256) = true := by decide +kernel
theorem witness_zoneArm :
    let s := state { ctx with s := ctx.s.set 3 256 } take (zoned (zone 0 256)); let x := s.zone 0 7
    x.open_ = true ∧ x.owner = s.me.take ∧ (s.reg 3).toNat < 2 ^ 48 ∧ s.writeBad (x.wordKey 0) 8 = false ∧
      x.zgot.toNat = (s.reg 3).toNat ∧ (zone 0 257).zgot.toNat > (s.reg 3).toNat ∧ (zone 0 255).zgot.toNat < (s.reg 3).toNat := by
  decide +kernel
theorem witness_zoneControl :
    let s := state ctx take (zoned zone); let x := s.zone 0 7
    (7 : BitVec 14).toNat = 7 ∧ x.open_ = true ∧ x.owner = s.me.take ∧ s.writeBad (x.wordKey 0) 8 = false ∧
      (s.zone 0 6).open_ = false ∧ CanTrap s 23 :=
  ⟨by decide +kernel, by decide +kernel, by decide +kernel, by decide +kernel, by decide +kernel, canTrap (by decide +kernel)⟩
theorem witness_zoneControl_foreign :
    let x := (state ctx take (zoned { zone with owner := 2 })).zone 0 7; x.open_ = true ∧ x.owner ≠ 1 := by decide +kernel
theorem witness_zoneCloseComplete :
    let s := state { ctx with stall := some (.zoneClose 7) } take (zoned { zone with closing := true }); let x := s.zone 0 7
    x.open_ = true ∧ x.closing = true ∧ s.writeBad (x.wordKey 0) 8 = false ∧ (s.ctx 0 0).stall = some (.zoneClose (.ofNat 3 7)) ∧
      s.take? x.owner = some take ∧ s.resets take.fn = false := by
  decide +kernel
theorem witness_zoneRsv_full :
    16 ≤ ((state ctx take (engine { rsvs := List.replicate 16 ⟨0, 0, 0, 0, 0, false⟩ })).copyOf 0 1).rsvs.length := by decide +kernel
theorem witness_zoneRsv :
    let s := { state with reach := [6] }
    s.myTake = some take ∧ (s.copyOf 0 1).rsvs.length < 16 ∧ (0 : BitVec 12) = s.pkgId ∧ (5 : BitVec 12) ≠ s.pkgId ∧
      (5 : BitVec 12).toNat ∉ s.reach ∧ (6 : BitVec 12) ≠ s.pkgId ∧ (6 : BitVec 12).toNat ∈ s.reach := by decide +kernel
/-- Slot 0 is held; slot 1, the last, is free; and no slot is. -/
theorem witness_reservationRequest :
    let x := { zone with slots := [(0, { st := .held })] }; let y := { zone with slots := [(0, { st := .held }), (1, { st := .landed })] }
    x.open_ = true ∧ x.closing = false ∧ 1 < x.nslot.toNat ∧ (x.slot 1).st = .free ∧ (∀ j < 1, (x.slot j).st ≠ .free) ∧
      (∀ i < y.nslot.toNat, (y.slot i).st ≠ .free) ∧ (state.zone 0 0).open_ = false := by decide +kernel
theorem witness_reservationReply :
    let s := state { ctx with stall := some (.rsv 3 5 0 7) }
    (s.ctx 0 0).stall = some (.rsv 3 5 0 7) ∧ (5 : BitVec 12) ≠ s.pkgId ∧ (5 : BitVec 12).toNat ∉ s.reach := by decide +kernel
theorem witness_zoneRel :
    let s := state ctx take (zoned { zone with slots := [(0, { st := .held }), (1, { st := .filling })] }); let x := s.zone 0 7
    s.myTake = some take ∧ (0 : BitVec 12) = s.pkgId ∧ (0 : BitVec 8).toNat = s.curCl ∧ x.open_ = true ∧ x.owner = take.id ∧
      (x.slot 0).st = .held ∧ (x.slot 1).st ≠ .held ∧ (x.slot 1).st ≠ .landed := by decide +kernel
theorem witness_zoneRel_reserved :
    let s := state ctx take (engine { rsvs := [⟨0, 3, 2, 5, 8, false⟩] })
    let hit (r : Rsv) (slot : BitVec 6) := r.pkg = (0 : BitVec 12) ∧ r.cl = (3 : BitVec 8) ∧ r.z = (2 : BitVec 3) ∧ r.slot = slot
    ¬ ((3 : BitVec 8).toNat = s.curCl) ∧ (s.copyOf 0 1).rsvs = [] ++ ⟨0, 3, 2, 5, 8, false⟩ :: [] ∧ hit ⟨0, 3, 2, 5, 8, false⟩ 5 ∧
      ∀ r ∈ (s.copyOf 0 1).rsvs, ¬ hit r 4 := by decide +kernel
theorem witness_releaseMessage :
    let x := { zone with slots := [(0, { st := .held, spkg := 5, scl := 2, sfn := 1 })] }; let snd : Sender := ⟨5, 2, 1⟩
    x.open_ = true ∧ (x.slot 0).st = .held ∧ (x.slot 0).spkg.toNat = snd.pkg ∧ (x.slot 0).scl.toNat = snd.cl ∧
      (x.slot 0).sfn.toNat = snd.fn ∧ (x.slot 1).st ≠ .held := by decide +kernel
/-- The armed zone lacks 8 bytes, all of which arrive. -/
theorem witness_landingArrival :
    let x : Slot := { st := .held, scl := 2 }; let z := { zone (flag true 60) 248 with zarm := 256, slots := [(1, x)] }
    let s := state ctx take (zoned z); let snd : Sender := ⟨0, 2, 0⟩
    snd.pkg = s.pkgId.toNat ∧ (s.zone 0 7) = z ∧ z.closing = false ∧ 1 < z.nslot.toNat ∧ z.nslot.toNat ≤ 2 ∧ (z.slot 1).cut = false ∧
      (z.slot 1).st = .held ∧ x.spkg.toNat = snd.pkg ∧ x.scl.toNat = snd.cl ∧ x.sfn.toNat = snd.fn ∧ s.errs = [] ∧
      z.armed = true ∧ z.opened = false ∧ 8 ≤ z.zarm.toNat - z.zgot.toNat ∧ z.zgot + .ofNat 48 8 = z.zarm ∧
      z.zgot + .ofNat 48 7 ≠ z.zarm := by decide +kernel
theorem witness_landingArrival_vaults : ∀ c, ((state ctx take (zoned zone)).cluster c).vbfail = 0 := by
  intro c
  cases c <;> rfl

/-! ### Witnesses: elements and regions -/

/-- An entry at stamp 0 that adds L1 to L0, on N64. -/
def add : Entry :=
  { stamp := 0, hold := false, chain := false, fmt := 7, sa := 4, sb := 5, wl := 0, route := 0, ps := 0, md := 0, imm := 0 }
/-- The slate has one region record; the fabric is the region with one bank. -/
def firing (b : Bank) : State := state ctx oneRegion { regions := [(0, region)], banks := [(0, b)] }
theorem hasRoom_unrouted (s : State) (cl : Nat) (g : Region) (el : Nat) : HasRoom s cl g el 0 := by
  have h (n : Nat) (f : BitVec 9) (d : BitVec 5) : fedBy g el 0 n f d = false := by simp [fedBy, drives]
  exact fun n => ⟨fun g => absurd g (by rw [h]; simp), fun g => absurd g (by rw [h]; simp)⟩
def reads (s : State) (e : Entry) (code : BitVec 4) (pa pb : Nat) (w : Word) : Bool :=
  let b := s.curBank; let n := code.toNat
  (n > 1 || b.a[pa]? == some w) && (!(n == 2 || n == 3) || b.b[pb]? == some w) && (n != 4 || w == b.l0) && (n != 5 || w == b.l1) &&
    (n != 6 || w == b.l2) && (n != 7 || w == b.l3) && (n < 8 || 14 ≤ n) && (n != 14 || w == immWord e) && (n != 15 || w == 0)
theorem reads_spec {s : State} {e : Entry} {code : BitVec 4} {pa pb : Nat} {w : Word} (h : reads s e code pa pb w = true) :
    Reads s e code pa pb w := by
  simp only [reads, Bool.and_eq_true, Bool.or_eq_true, decide_eq_true_eq, Bool.not_eq_true', beq_iff_eq, bne_iff_ne,
    Bool.or_eq_false_iff] at h
  obtain ⟨⟨⟨⟨⟨⟨⟨⟨h0, h1⟩, h4⟩, h5⟩, h6⟩, h7⟩, h8⟩, h14⟩, h15⟩ := h
  refine ⟨fun g => h0.resolve_left (by omega), fun g => h1.resolve_left ?_, fun g => h4.resolve_left (by simp [g]),
    fun g => h5.resolve_left (by simp [g]), fun g => h6.resolve_left (by simp [g]), fun g => h7.resolve_left (by simp [g]),
    fun i hi g => absurd g (by omega), fun g => h14.resolve_left (by simp [g]), fun g => h15.resolve_left (by simp [g])⟩
  rintro ⟨g2, g3⟩
  rw [beq_eq_false_iff_ne] at g2 g3
  omega
theorem canFire {s : State} {t : Take} {op : BitVec 6} {e : Entry} {x y : Word} (hr : e.route = 0)
    (h : (s.take? s.curRegion.take = some t ∧ t.hdr.debug = false ∧ s.curBank.bad = false ∧
      (s.curEl ∈ s.curRegion.els ∧ s.curRegion.x0 + s.curRegion.w ≤ 4 ∧ s.curRegion.y0 + s.curRegion.h ≤ 4)) ∧
      reads s e e.sa 0 0 x = true ∧ reads s e e.sb (popsA e.sa) (popsB e.sa) y = true ∧
      (¬ (e.ps = 3 ∨ e.ps = 4)) ∧ endGrain op e s.curBank x (binAt (s.pair (pairOf s.curCl)).vnow.toNat) ≤ 60 ∧
      s.curBank.pend = none) : CanFire s t op e x y := by
  obtain ⟨⟨h1, h2, hb, h3⟩, h4, h5, h6, h7, h8⟩ := h
  refine ⟨h1, h2, hb, h3, reads_spec h4, reads_spec h5, fun g => absurd g h6, h7, .inr fun i hi g => ?_, fun _ => h8,
    .inr (.inr (hr ▸ hasRoom_unrouted _ _ _ _))⟩
  rw [hr] at g
  simp [drives] at g
/-- Entries that fire on L0 and L1, each with its opcode, bank and format. -/
def fire (l : List (BitVec 6 × Entry × Bank)) : Prop :=
  ∀ p ∈ l, CanFire (firing p.2.2) oneRegion p.1 p.2.1 p.2.2.l0 p.2.2.l1 ∧ Holds p.2.1 (firing p.2.2).curBank = true
def firesAll (l : List (BitVec 6 × Entry × Bank)) : Bool := l.all fun p =>
  let s := firing p.2.2; let e := p.2.1; let x := p.2.2.l0; let y := p.2.2.l1
  decide (e.route = 0) && Holds e s.curBank && decide ((s.take? s.curRegion.take = some oneRegion ∧ oneRegion.hdr.debug = false ∧ s.curBank.bad = false ∧
      (s.curEl ∈ s.curRegion.els ∧ s.curRegion.x0 + s.curRegion.w ≤ 4 ∧ s.curRegion.y0 + s.curRegion.h ≤ 4)) ∧
      reads s e e.sa 0 0 x = true ∧ reads s e e.sb (popsA e.sa) (popsB e.sa) y = true ∧
      (¬ (e.ps = 3 ∨ e.ps = 4)) ∧ endGrain p.1 e s.curBank x (binAt (s.pair (pairOf s.curCl)).vnow.toNat) ≤ 60 ∧ s.curBank.pend = none)
theorem fire_of {l : List (BitVec 6 × Entry × Bank)} (h : firesAll l = true) : fire l := by
  intro p hp
  have g := List.all_eq_true.1 h p hp
  simp only [Bool.and_eq_true, decide_eq_true_eq] at g
  exact ⟨canFire g.1.1 g.2, g.1.2⟩
theorem witness_fire :
    let s := firing { l0 := 3, l1 := 4 }
    CanFire s oneRegion 0x08 add 3 4 ∧ cyclesOf 0x08 add = 1 ∧ Holds add s.curBank = true := by
  refine ⟨canFire rfl (by decide +kernel), by decide +kernel, by decide +kernel⟩
theorem witness_fire_effect :
    let s := firing { l0 := 3, l1 := 4 }; let o := effect 0x08 add ⟨3, 4, s.curBank, s.curRegion.index, 0, 0, 0⟩
    o.trap = none ∧ o.ovr = none ∧ o.res = 7 := by decide +kernel
/-- A T16 source whose regime has more bits than the bound of the entry. -/
theorem witness_fire_overrun :
    let e := { add with fmt := 13, md := 8, imm := 0x1000 }; let s := firing { l0 := 0x7F00 }
    CanFire s oneRegion 0x29 e 0x7F00 0 ∧ cyclesOf 0x29 e = 1 ∧ Holds e s.curBank = true ∧
      (effect 0x29 e ⟨0x7F00, 0, s.curBank, s.curRegion.index, 0, 0, 0⟩).trap = none ∧
      (effect 0x29 e ⟨0x7F00, 0, s.curBank, s.curRegion.index, 0, 0, 0⟩).ovr.isSome = true ∧
      s.ctxOf s.curCl oneRegion.id = some 0 ∧ (s.ctx s.curCl 0).kstate ≠ .exited :=
  ⟨canFire rfl (by decide +kernel), by decide +kernel, by decide +kernel, by decide +kernel, by decide +kernel, by decide +kernel,
    by decide +kernel⟩
/-- F is clear and the entry is predicated on F. -/
theorem witness_fire_not :
    let e := { add with ps := 1 }; let s := firing { l0 := 3, l1 := 4 }
    CanFire s oneRegion 0x08 e 3 4 ∧ Holds e s.curBank = false :=
  ⟨canFire rfl (by decide +kernel), by decide +kernel⟩
theorem witness_fire_multi :
    let s := firing { l0 := 3, l1 := 4 }; CanFire s oneRegion 0x34 add 3 4 ∧ 1 < cyclesOf 0x34 add :=
  ⟨canFire rfl (by decide +kernel), by decide +kernel⟩
/-- A header word that is malformed. -/
theorem witness_fire_header :
    let s := firing { l0 := BitVec.allOnes 64 }; let e := { add with sb := 15 }
    CanFire s oneRegion 0x07 { e with md := 0 } (BitVec.allOnes 64) 0 ∧
      (effect 0x07 { e with md := 0 } ⟨BitVec.allOnes 64, 0, s.curBank, s.curRegion.index, 0, 0, 0⟩).trap.isSome = true ∧
      s.ctxOf s.curCl oneRegion.id = some 0 ∧ (s.ctx s.curCl 0).kstate ≠ .exited :=
  ⟨canFire rfl (by decide +kernel), by decide +kernel, by decide +kernel, by decide +kernel⟩
theorem witness_fire_send :
    let e := { add with sb := 15, imm := 0 }
    let s := state ctx oneRegion { regions := [(0, region)], banks := [(0, { l0 := 3 })], outp := [(0, { bound := some (binding true) })] }
    CanFire s oneRegion 0x06 e 3 0 ∧ Holds e s.curBank = true ∧ oneRegion.physical s.curCl true (e.imm.extractLsb' 0 4) = some 0 ∧
      s.canAccept s.curCl 0 = true ∧ s.curRegion.wild = false :=
  ⟨canFire rfl (by decide +kernel), by decide +kernel, by decide +kernel, by decide +kernel, by decide +kernel⟩
theorem witness_pendDelivery :
    let r : PendRes := ⟨7, 0, 0, false, none, 0, 0, none, 0, 0, 1⟩; let s := firing { pend := some r }; let g := s.region 0 0
    s.take? g.take = some oneRegion ∧ oneRegion.active = true ∧ oneRegion.hdr.debug = false ∧ g.rstate = .run ∧
      InRegion g 0 ∧ (s.bank 0 (g.bankNo 0)).pend = some r ∧ r.count.toNat ≤ 1 ∧ r.ovr = none ∧ HasRoom s 0 g 0 r.route :=
  ⟨by decide +kernel, by decide, by decide, by decide +kernel, by unfold InRegion; decide +kernel, by decide +kernel,
    by decide, rfl, hasRoom_unrouted _ _ _ _⟩
/-- A result whose overrun is found at its delivery: a bound, and timing at 0.80 V and below. -/
theorem witness_pendDelivery_overrun :
    let r (o : Overrun) : PendRes := ⟨7, 0, 0, false, none, 0, 0, some o, 3, 0, 1⟩; let s := firing { pend := some (r .timing) }
    let u : State := { s with pairs := [(0, { vnow := 600 })] }; let g := s.region 0 0
    (s.bank 0 (g.bankNo 0)).pend = some (r .timing) ∧ (r (.bound 4)).count.toNat ≤ 1 ∧ 800 ≤ (s.pair (pairOf 0)).vnow.toNat ∧
      s.ctxOf 0 oneRegion.id = some 0 ∧ (s.ctx 0 0).kstate ≠ .exited ∧ ¬ 800 ≤ (u.pair (pairOf 0)).vnow.toNat ∧ g.overAgain = false ∧
      u.lostPort 0 0 = none := by decide +kernel
/-- The least and the greatest S64 (format 3), where the sum wraps or saturates; each opcode of the I formats. -/
def ints : Bank := { l0 := BitVec.ofNat 64 (2 ^ 63), l1 := BitVec.allOnes 64 }
theorem witness_integers : fire ([(0x08, { add with fmt := 3 }, ints), (0x08, { add with fmt := 3, md := 1 }, ints), (0x12, add, ints),
    (0x0a, { add with fmt := 2, md := 2 }, ints), (0x0a, { add with fmt := 2, md := 3 }, ints), (0x05, add, ints), (0x14, add, ints),
    (0x13, { add with md := 7 }, ints), (0x15, add, ints), (0x16, { add with fmt := 0, wl := 4 }, ints),
    (0x1d, add, { l0 := 5, l1 := 63 }), (0x1e, add, { l0 := 5, l1 := 63 }), (0x34, add, { l0 := 1 }), (0x34, { add with fmt := 3, md := 1 }, ints),
    (0x36, add, ints), (0x38, { add with md := 3 }, ints), (0x39, add, ints), (0x39, { add with fmt := 6 }, ints), (0x3a, add, ints),
    (0x07, add, {}), (0x07, { add with md := 1 }, {})]) := fire_of (by decide +kernel)
/-- F32 and T16 entries, and the NARROW forms with and without a header in force. -/
theorem witness_arithmetic :
    let b : Bank := { l0 := 0x3F800000, l1 := 0x7FC00000 }; let h : Bank := { b with dhdr := 0x78000, dv := true }
    fire ((([0x01, 0x02, 0x04, 0x05, 0x08, 0x09, 0x0a, 0x0c, 0x0d, 0x0e, 0x0f, 0x10, 0x11, 0x12, 0x13, 0x15, 0x16, 0x2d] : List (BitVec 6)).flatMap fun op =>
      [(op, { add with fmt := 10 }, b), (op, { add with fmt := 13 }, b)]) ++
      [(0x28, { add with fmt := 10, imm := 0x0A }, b), (0x28, { add with fmt := 13, imm := 0xF00D, md := 8 }, b), (0x28, { add with fmt := 10, imm := 0x20F }, h),
        (0x29, { add with fmt := 13, imm := 0xF000, md := 8 }, b), (0x29, { add with fmt := 15 }, h), (0x2a, { add with fmt := 14 }, b), (0x2a, { add with fmt := 15 }, b),
        (0x2b, { add with fmt := 15 }, b), (0x2c, { add with fmt := 15 }, h)]) := fire_of (by decide +kernel)
/-- The operands of every row: 1, −1, 0, infinity, NaN; a bound of one group. -/
theorem witness_roots :
    fire (([0x30, 0x31, 0x32, 0x33, 0x34, 0x35] : List (BitVec 6)).flatMap fun op =>
      ([0x3F800000, 0xBF800000, 0, 0x7F800000, 0x7FC00000] : List Word).flatMap fun x =>
        [(op, { add with fmt := 10 }, { l0 := x, l1 := 0x3F800000 }), (op, { add with fmt := 10, md := if op = 0x32 ∨ op = 0x33 then 0 else 8, imm := 0x1000 }, { l0 := x })]) :=
  fire_of (by decide +kernel)

def playing (g : Region) (b : Bank := {}) : State := state ctx oneRegion { regions := [(0, { g with emask := 0 })], banks := [(0, b)] }
theorem witness_playedCycle_delay :
    let s := playing { region with rstate := .delay, soffLeft := 2 }; let g := s.region 0 0
    s.take? g.take = some oneRegion ∧ s.played g = true ∧ g.suspended = false ∧ g.rstate = .delay ∧ 1 < g.soffLeft.toNat := by decide +kernel
theorem witness_delayEnd :
    let s := playing { region with rstate := .delay, soffLeft := 1 }; let g := s.region 0 0
    s.played g = true ∧ g.suspended = false ∧ g.rstate = .delay ∧ g.soffLeft.toNat ≤ 1 := by decide +kernel
/-- The word of `add` at stamp `n`, with or without H, reading buffer A. -/
def addWord (n : Nat) (hold : Bool) : Word := at_ n 52 ||| flag hold 51 ||| at_ 8 44 ||| at_ 7 40 ||| at_ (if hold then 1 else 4) 36 ||| at_ 5 32
theorem witness_playedCycle_holds :
    let s := playing { region with fresh := false, ii := 2 } { ents := [addWord 0 true] }; let g := s.region 0 0
    s.played g = true ∧ g.suspended = false ∧ g.rstate = .run ∧ g.atRestart = false ∧
      badFiring (s.firings 0 g) = false ∧ ∃ f ∈ s.firings 0 g, s.holds 0 oneRegion (s.firings 0 g) f = true := by decide +kernel
theorem witness_playedCycle :
    let s := playing { region with fresh := false, ii := 2 } { ents := [addWord 0 false] }; let g := s.region 0 0
    s.played g = true ∧ g.rstate = .run ∧ g.atRestart = false ∧ (s.firings 0 g).length = 1 ∧
      badFiring (s.firings 0 g) = false ∧
      (∀ f ∈ s.firings 0 g, s.holds 0 oneRegion (s.firings 0 g) f = false) ∧ ∀ el ∈ g.els, (s.bank 0 (g.bankNo el)).pend = none := by decide +kernel
theorem witness_playedCycle_quiet :
    let s := playing { region with fresh := false, ii := 2 } { pend := some ⟨7, 0, 0, false, none, 0, 0, none, 0, 0, 2⟩ }
    let g := s.region 0 0
    s.firings 0 g = [] ∧ g.x0 + g.w ≤ 4 ∧ ∀ el ∈ g.els, ∀ p, (s.bank 0 (g.bankNo el)).pend = some p → 1 < p.count.toNat := by
  refine ⟨by decide +kernel, by decide +kernel, ?_⟩
  have h : ∀ el ∈ ((playing { region with fresh := false, ii := 2 } { pend := some ⟨7, 0, 0, false, none, 0, 0, none, 0, 0, 2⟩ }).region 0 0).els,
      ((((playing { region with fresh := false, ii := 2 } { pend := some ⟨7, 0, 0, false, none, 0, 0, none, 0, 0, 2⟩ }).bank 0
        (((playing { region with fresh := false, ii := 2 } { pend := some ⟨7, 0, 0, false, none, 0, 0, none, 0, 0, 2⟩ }).region 0 0).bankNo el)).pend).all
        fun p => decide (1 < p.count.toNat)) = true := by decide +kernel
  intro el hel p hp
  have := h el hel
  rw [hp] at this
  simpa using this
theorem witness_playedCycle_data :
    let s := playing { region with fresh := false, ii := 2 } { ents := [addWord 0 false], bad := true }; let g := s.region 0 0
    s.played g = true ∧ g.suspended = false ∧ g.rstate = .run ∧ g.atRestart = false ∧ (∃ f ∈ s.firings 0 g, f.bank.bad = true) ∧
      g.lostOnce = false ∧ s.lostPort 0 0 = none := by decide +kernel
/-- Of its first cycle, in which it had met an error before. -/
theorem witness_playedCycle_data_restart :
    let s := playing { region with ii := 2, lostOnce := true } { ents := [addWord 0 false], bad := true }; let g := s.region 0 0
    s.played g = true ∧ g.suspended = false ∧ g.rstate = .run ∧ g.atRestart = true ∧ ∃ f ∈ s.firings 0 g, f.bank.bad = true := by decide +kernel
theorem witness_playedCycle_restart :
    let s := playing { region with ii := 2 }; let g := s.region 0 0
    s.played g = true ∧ g.suspended = false ∧ g.rstate = .run ∧ g.atRestart = true ∧ s.firings 0 g = [] ∧
      ∀ el ∈ g.els, (s.bank 0 (g.bankNo el)).pend = none := by decide +kernel
theorem witness_startToken :
    let s := playing { region with rstate := .armed, token := true }; let g := s.region 0 0
    s.take? g.take = some oneRegion ∧ oneRegion.active = true ∧ g.rstate = .armed ∧ g.token = true ∧
      s.railOk 0 g = true := by decide +kernel
theorem witness_replayResume :
    let s := playing { region with rstate := .replay }
    (s.region 0 0).rstate = .replay ∧ (s.pair (pairOf 0)).settled = true ∧ (s.pair (pairOf 0)).holdV.toNat ≤ (s.pair (pairOf 0)).vnow.toNat := by
  decide +kernel
/-- The rail has not reached the voltage of the hold. -/
theorem witness_replayResume_waits :
    let s := { playing { region with rstate := .replay } with pairs := [(pairOf 0, { hold := true, holdV := 800, vnow := 798 })] }
    (s.region 0 0).rstate = .replay ∧ (s.pair (pairOf 0)).vnow.toNat < (s.pair (pairOf 0)).holdV.toNat := by decide +kernel

/-! ### Witnesses: power, measurement, vaults -/

theorem witness_emaskApply : let s := playing region; (s.region 0 0).rstate ≠ .idle ∧ s.slot = 0 := by decide +kernel
theorem witness_droopHoldEnd :
    let s := { state with pairs := [(3, { drp := true, drpEnd := 65 })], cycle := 66 }; (s.pair 3).drp = true ∧ (s.pair 3).drpEnd < s.cycle := by
  decide +kernel
theorem witness_overrunHoldEnd :
    let s := { state with pairs := [(3, { hold := true, holdV := 800, holdEnd := some 9 })], cycle := 9 }
    (s.pair 3).hold = true ∧ (s.pair 3).holdEnd = some 9 ∧ 9 ≤ s.cycle ∧
      ¬ ∃ cl, cl / 2 = 3 ∧ ∃ rid < 64, let g := s.region cl rid
        g.rstate = .replay ∧ g.settleFor = true ∨ g.rstate = .run ∧ g.overAgain = true := by
  refine ⟨by decide +kernel, by decide +kernel, by decide +kernel, ?_⟩
  rintro ⟨cl, h, rid, _, h'⟩
  have : ¬ 0 = cl := by omega
  simp [State.region, State.cluster, state, tget, this] at h'
/-- A region waits for the rail to settle; another has gone on and is short of where it failed. -/
theorem witness_overrunHoldEnd_waits (g : Region) (h : g = { rstate := .replay, settleFor := true } ∨ g = { overAgain := true, rstate := .run }) :
    let s := { state ctx take { regions := [(63, g)] } with pairs := [(0, { hold := true, holdV := 800, holdEnd := some 9 })], cycle := 9 }
    (s.pair 0).holdEnd = some 9 ∧ (let g := s.region 0 63; g.rstate = .replay ∧ g.settleFor = true ∨ g.rstate = .run ∧ g.overAgain = true) := by
  rcases h with rfl | rfl <;> decide +kernel
theorem witness_railSettled :
    let d := demanded State.reset 3 (State.reset.pair 3); d ≤ 798 + 2 ∧ 802 ≤ d + 2 := by decide +kernel
/-- The rail of a pair that has reached the voltage of its hold. -/
theorem witness_rail :
    let s : State := { pairs := [(3, { hold := true, holdV := 800 })] }; let u := tick { s with pairs := [(3, { vnow := 700, aim := 750, vreq := 750 })] }
    (s.pair 3).holdEnd = none ∧ (((tick s).pair 3).holdEnd) = some (2 ^ 20) ∧ ((tick s).pair 3).settled = true ∧ (u.pair 3).vnow ≠ 700 := by
  decide +kernel
theorem witness_backstop :
    let s := { state with pkgpwr := 1801 }; s.pkglim < s.pkgpwr ∧ s.bkmask.getLsbD 0 = false := by decide +kernel
theorem witness_backstop_full :
    let s := { state with pkgpwr := 1801, bkmask := 0x7FFF }; s.pkglim < s.pkgpwr ∧ ∀ j < 15, s.bkmask.getLsbD j = true := by decide +kernel
theorem witness_backstop_clears :
    let s := { state with pkgpwr := 1709, bkmask := 0x7FFF }
    100 * s.pkgpwr.toNat < 95 * s.pkglim.toNat ∧ s.bkmask.getLsbD 14 = true ∧ ∀ j < 16, 14 < j → s.bkmask.getLsbD j = false := by decide +kernel
/-- A sampling ring in host memory with room for one more entry. -/
theorem witness_pcSample :
    let s : State := { state with fns := [(0, { psbase := 4096, psen := true, pshead := 255, pstail := 0 })] }; let f := s.fn 0
    s.take? (s.ctx 0 0).take = some take ∧ (s.ctx 0 0).kstate = .run ∧ f.psbase ≠ 0 ∧ f.psen = true ∧
      (f.pshead - f.pstail).toNat ≠ 256 * 2 ^ f.psz2.toNat ∧ s.refKey 0 f.psbase = some (hostKey 0 4096) ∧
      s.refRuns 0 f.psbase (16 * (f.pshead.toNat % (256 * 2 ^ f.psz2.toNat))) 16 = [(hostKey 0 (4096 + 16 * 255), 16)] := by decide +kernel
theorem witness_pcSample_lost :
    let f : Fn := { psbase := 4096, psen := true, pshead := 256, pstail := 0 }; (f.pshead - f.pstail).toNat = 256 * 2 ^ f.psz2.toNat := by decide +kernel
theorem witness_clock :
    let s := { state with dies := [(1, { st := .full })] }; let u := { s with pairs := [(63, { drp := true })] }
    (s.die 1).st = .full ∧ (∀ i < 32, (s.pair (32 * 1 + i)).drp = false) ∧ (u.die 1).st = .full ∧
      ∃ i < 32, (u.pair (32 * 1 + i)).drp = true := by decide +kernel
/-- Two marks, and three, of group 0: banks 0, 1 and check bank 32. -/
theorem witness_vbfail :
    let marks (v : Word) (g : Nat) : Nat := (((List.range 16).map (16 * g + ·) ++ [32 + 2 * g, 33 + 2 * g]).filter fun i => v.getLsbD i).length
    marks 3 0 ≤ 2 ∧ marks 3 1 ≤ 2 ∧ 2 < marks (3 + 2 ^ 32) 0 := by decide +kernel
/-- What bank 0 holds of byte 0 differs from what the codes give. -/
theorem witness_vbfail_hidden :
    let s : State := { hid := [(0, some 5)] }
    (s.hid.map (·.1)).Nodup ∧ isVault 0 = true ∧ vaultCl 0 = 0 ∧ s.erasedAt 0 = false ∧
      ({ s with clusters := [(0, { vbfail := 1 })] } : State).erasedAt 0 = true := by decide +kernel
/-- A write of bytes 4 to 15 of a vault: word 2 of its stripe holds an error that the write corrects, and none does. -/
theorem witness_vaultWrite :
    let s : State := { state with errs := [(2, .single)] }
    (s.tryWrite 4 (List.replicate 12 0)).isSome = true ∧ (writeReads 4 12).find? (fun i => s.err i == .single || s.erasedAt (8 * i)) = some 2 ∧
      (state.tryWrite 4 (List.replicate 12 0)).isSome = true ∧
      (writeReads 4 12).find? (fun i => state.err i == .single || state.erasedAt (8 * i)) = none ∧ 0 ∈ writeReads 4 12 ∧ 1 ∉ writeReads 4 12 := by
  decide +kernel
theorem witness_patrolScrub : state.rebuilds 0 0 = true ∧ (state ctx take lost).rebuilds 0 0 = false ∧
    ((state ctx take lost).die (dieOf 0)).elogbase = 0 ∧ 0 * 2 ^ 25 + 256 * 0 < 2 ^ 33 := by decide +kernel

/-! ### Witnesses: submission, leases, scheduling -/

theorem witness_takeSpawn :
    let s := state; s.myTake = some take ∧ s.form take { h := 0, nc := 0, c0 := 1, c1 := 0, c2 := 0, c3 := 0 } 0 1 = .ok 0 ⟨0, 0, 0, 0⟩ 0 ∧
      s.translate take (take.tensor 0) 0 true false false = .ok (.key 0) := by decide +kernel
theorem witness_spawnReply :
    let x : Submit := ⟨0, some 0, some (0, 0), 0, false⟩
    let s : State := { state { ctx with stall := some (.spawn 3) } with fns := [(0, { queue := [x] })] }; let c := s.ctx 0 0
    s.take? c.take = some take ∧ c.stall = some (.spawn 3) ∧ (s.fn take.fn).queue = x :: [] ∧ x.spawn = some (0, 0) := by decide +kernel
theorem witness_launch : 2 ≤ (2 : Word).toNat % 4 ∧ (4 : Word).toNat / 4 % 64 ≠ 0 ∧ (0x101 : Word).toNat % 4 < 2 ∧ (0x101 : Word).toNat / 4 % 64 = 0 := by
  decide
/-- A launch record at 0x1000 of host memory, with its reel, tensor list and placement list. -/
def launched : State :=
  let s : State := { dies := [(0, { st := .full })], fns := [(0, { lslim := 1, clset := 1, queue := [⟨0x1000, none, none, 3, false⟩] })] }
  let put (s : State) (a : Nat) (l : List Word) : State := s.poke (hostKey 0 a) (l.flatMap wordBytes)
  let s := put s 0x1000 [1 <<< 56, 0x2000, 0x3000, 0, 0x4000, 0, 0x5000, 1 <<< 48]
  let s := put s 0x2000 [0x0101000000000070, 1 <<< 48, 0, 64, 0, 0, 0, 0, 96, 8, 104, 4, 0, 0]
  put s 0x3000 [7 <<< 12, 8 ||| 1 <<< 32, 1 ||| 1 <<< 32, 0, 0, 1 <<< 49 ||| 7 <<< 53, 1 <<< 32, 0]
def accepted : Ck Take → Bool
  | .ok t => t.id == 0 && t.hdr.cmpl == 0x5000
  | .error _ => false
def refusedBy (code : Nat) : Ck Take → Bool
  | .ok _ => false
  | .error r => r.code == code
theorem witness_recordAccept :
    let s := launched; let x : Submit := ⟨0x1000, none, none, 3, false⟩; let y := s.updFn 0 fun f => { f with queue := [] }
    (s.die (linkDie 0)).st = .full ∧ (s.fn 0).queue = x :: [] ∧ x.spawn = none ∧ y.submitOk 0 x = true ∧
      (let r := (y.readRecord 0 x).2; accepted (r.checkAll 0 (r.recordWord 0 x) x.cap x.full)) = true ∧ s.errs = [] ∧ s.takes.length + s.frecs.length + 2 ≤ 2 ^ 32 := by decide +kernel
theorem witness_recordAccept_refused :
    let s : State := { launched with fns := [(0, { queue := [⟨0x1000, none, none, 3, false⟩, ⟨0, none, none, 3, false⟩] })] }
    let x : Submit := ⟨0x1000, none, none, 3, false⟩
    (let r := (s.readRecord 0 x).2; refusedBy 7 (r.checkAll 0 (r.recordWord 0 x) x.cap x.full)) = true ∧ s.submitOk 0 ⟨0, none, none, 3, false⟩ = false := by decide +kernel
theorem witness_complete : (0x5000 : Word) ≠ 0 ∧ launched.refKey 0 0x5000 = some (hostKey 0 0x5000) := by decide +kernel

/-- A QUEUED take with a fault record, whose only tensor is in residence `res` with 2,048 leased plots, a whole part of the pool, that have no entry. -/
def asked (res : Nat) : Tensor := { words res 0 with w6 := 2048 <<< 32 }
def asking (res : Nat) : Take := { take with st := .queued, frec := hbmKey 8 0, tensors := [(0, asked res)], places := [] }
def pool (lim : Nat) : Fn := { lslim := .ofNat 32 lim, psz := 30, pbase := [0, 0, 0, 0, 0, 0, 0, 0] }
def fullPackage (t : Take) (lim : Nat := 2048) : State :=
  { takes := [t], fns := [(0, pool lim)], dies := (List.range 4).map fun d => (d, { st := .full }) }
theorem witness_leaseGrant_ready :
    let t := asking 0; let s := fullPackage t
    s.take? 1 = some t ∧ t.st = .queued ∧ t.frec ≠ 0 ∧ ∀ x ∈ t.tensors, x.2.res = 0 ∨ x.2.res ≠ 3 ∧ x.2.leased = true := by decide +kernel
/-- LSUSE reaches LSLIM with this lease. -/
theorem witness_leaseGrant (res : Nat) (h : res = 1 ∨ res = 2) :
    let t := asking res; let s := fullPackage t; let x := (0, asked res)
    s.take? 1 = some t ∧ (s.die (linkDie t.fn)).st = .full ∧ (s.fn t.fn).lsuse.toNat + x.2.lcount ≤ (s.fn t.fn).lslim.toNat ∧
      0 < x.2.lcount ∧ (∀ y ∈ t.tensors, y.2.res ≠ 3 ∧ (y.1 = x.1 → y = x)) ∧ x ∈ t.tensors ∧
      (if res = 1 then t.unleased 1 = [x] ∧ t.unleased 2 = [] else t.unleased 1 = [] ∧ t.unleased 2 = [x]) := by
  rcases h with rfl | rfl <;> decide +kernel
theorem witness_leaseGrant_pool :
    let s := fullPackage (asking 1)
    (s.fn 0).poolStarts s.usedRuns 2048 ≠ [] ∧ ((s.fn 0).poolStarts s.usedRuns 2048).all (fun a => decide ((s.die (hbmStack a / 2)).st = .full)) = true := by
  decide +kernel

/-- A READY take of one cluster, and the function may use cluster 0. -/
def ready : Take := { take with st := .ready, hdr := { wsz := 4 }, places := [], tensors := [(0, words 1 (plot 1 0))], reel := { ref := 0, savesz := 0, scenes := [scene], ovls := [] } }
def idle (t : Take) (cycle : Nat) (set : Nat := 1) : State := { takes := [t], fns := [(0, { clset := .ofNat 256 set })], dies := [(0, { st := .full })], cycle := cycle }
theorem plan_ready : ∃ p, (idle ready 0).plan ready true (fun _ _ => true) = some [p] ∧ p.place.cl = 0 := by
  have h : (idle ready 0).clustersFor ready (fun _ _ => true) [] 0 = [0] := by decide +kernel
  have w : (idle ready 0).windows 0 ready.hdr.wsize = [0] := by decide +kernel
  have k : (List.range 4).find? (fun k => ((idle ready 0).ctx 0 k).free) = some 0 := by decide +kernel
  have r : List.range ready.hdr.clusters = [0] := by decide +kernel
  refine ⟨⟨⟨0, 0, 0, [], [(0, 0)], [(0, 0)]⟩, 0, []⟩, ?_, rfl⟩
  have o : (idle ready 0).planOn ready true 0 0 = some ⟨⟨0, 0, 0, [], [(0, 0)], [(0, 0)]⟩, 0, []⟩ := by
    unfold State.planOn
    simp only [w, k, List.length_singleton, Nat.mod_one]
    rfl
  simp [State.plan, r, State.planFrom, h, o]
theorem witness_dispatch :
    let s := idle ready 0
    s.take? 1 = some ready ∧ ready.st = .ready ∧ s.mayDispatch ready = some (0, 0, s) := by decide +kernel
theorem witness_priorityAgeing : let s := idle ready (2 ^ 20); ready.st = .ready ∧ ready.since + 2 ^ 20 ≤ s.cycle := by decide +kernel
/-- Another take of the same priority is READY, and no cluster is free for it. -/
theorem witness_timeSliceEnd :
    let v := { ready with id := 2 }
    let s : State := { idle take (2 ^ 24) with takes := [take, v], clusters := [(0, { ctx := (List.range 4).map fun k => (k, ctx) })] }
    s.take? 1 = some take ∧ take.unasked = true ∧ take.ran + 2 ^ 24 ≤ s.cycle ∧ s.exempt take = false ∧ v ∈ s.takes ∧
      v.st = .ready ∧ v.prio = take.prio ∧ s.placeable v = false := by decide +kernel
theorem witness_move : state.mayMove take 0 = true ∧ 255 < 256 ∧ take.unasked = true := by decide +kernel

/-! ### Witnesses: aborts, freezing, ends, resets -/

/-- With no error log, and with a take; and of a take that is gone. -/
theorem witness_abort_detected :
    (state.die 0).elogbase = 0 ∧ state.take? (state.reqTake (.cueLoad 0 0)) = some take ∧ state.take? (state.reqTake (.cueLoad 1 0)) = none := by
  decide +kernel
/-- A ring of 16 events in host memory, empty, and full. -/
theorem witness_event :
    let f : Fn := { evbase := 4096, evhead := 15, evtail := 15 }; let s : State := { fns := [(0, f)] }
    s.resets 0 = false ∧ f.evbase ≠ 0 ∧ (f.evhead - f.evtail).toNat ≠ 16 * 2 ^ f.esz.toNat ∧ s.refKey 0 f.evbase = some (hostKey 0 4096) ∧
      s.refRuns 0 f.evbase (32 * (f.evhead.toNat % (16 * 2 ^ f.esz.toNat))) 32 = [(hostKey 0 (4096 + 32 * 15), 32)] ∧
      (({ f with evtail := 31 } : Fn).evtail - 15).toNat = 16 * 2 ^ f.esz.toNat := by decide +kernel
/-- The current context reads what it waits for from a peer. -/
def loading : CueCtx := { ctx with stall := some (.load 1 3 .d false 1 none 0) }
theorem witness_abort_load :
    let s := state loading; s.ctx 0 0 = loading ∧ CanTrap { s with curCl := 0, curK := 0 } 9 :=
  ⟨by decide +kernel, canTrap (by decide +kernel)⟩
theorem witness_abort_store :
    let c := { ctx with stall := some (.store 3 5 .b 1 0 0 8) }
    ((state c).ctx 0 0).stall = some (.store 3 5 .b 1 0 0 8) := by decide +kernel
theorem witness_abort_posted :
    let s := state { ctx with posted := [⟨5, 2, 0, none, false⟩, ⟨5, 1, 0, none, false⟩] }; let p : Posted := ⟨5, 1, 0, none, false⟩
    (s.ctx 0 0).posted = [⟨5, 2, 0, none, false⟩] ++ p :: [] ∧ ∀ x ∈ [(⟨5, 2, 0, none, false⟩ : Posted)], ¬ (x.tid = p.tid ∧ x.mx = p.mx) := by
  decide +kernel
theorem witness_abort_replay (fresh : Bool) :
    let s := state ctx played { fabric { bound := some (binding false), cons := [⟨0, 0, 0, false⟩] } with
      regions := [(0, { region with fresh := fresh })]
      outp := [(0, { bound := some (binding true), held := [⟨1, false, none, 0, none, 0⟩, ⟨2, false, some 0, 1, none, 0⟩] })] }
    let g := s.region 0 0
    s.active g.take = true ∧ g.rstate = .run ∧ g.settleFor = false ∧ g.fresh = fresh ∧ g.lostOnce = false ∧ s.lostPort 0 0 = none ∧
      (s.outPort 0 0).held = [⟨1, false, none, 0, none, 0⟩] ++ ⟨2, false, some 0, 1, none, 0⟩ :: [] ∧
      (∀ y ∈ (s.outPort 0 1).held, y.rid ≠ some 0) ∧ (s.inPort 0 0).bound = some (binding false) ∧
      s.take? (binding false).take = some played ∧ s.laneCons 0 0 (played.logical 0 false 0) 0 = [0] := by
  cases fresh <;> decide +kernel
theorem witness_abort_in :
    let s := state ctx played (withIn { bound := some (binding false) })
    (s.inPort 0 0).bound = some (binding false) ∧ (s.inPort 0 0).mxAsk = false ∧ s.take? 1 = some played ∧
      s.laneCons 0 0 (played.logical 0 false 0) 0 = [] := by
  decide +kernel
theorem witness_abort_out :
    let s := state ctx played (withOut { bound := some (binding true), held := [⟨1, true, none, 0, none, 0⟩], wait := [none] }); let o := s.outPort 0 0
    o.bound = some (binding true) ∧ o.wait = none :: [] ∧ o.held = ⟨1, true, none, 0, none, 0⟩ :: [] ∧ s.take? (binding true).take = some played ∧
      s.ctxOf 0 1 = some 0 ∧ (s.ctx 0 0).kstate ≠ .exited := by decide +kernel
theorem witness_abort_matrix :
    let i : MxItem := { item .swap with reads := [⟨0, 3, none⟩] }; let s := state ctx take (held { queue := [i] })
    (s.mxOf 0).holder = some take.id ∧ s.take? take.id = some take ∧ (s.mxOf 0).queue = i :: [] ∧ i.reads = [] ++ ⟨0, 3, none⟩ :: [] ∧
      4095 < 2 ^ 12 ∧ s.ctxOf 0 take.id = some 0 ∧ (s.ctx 0 0).kstate ≠ .exited := by decide +kernel
theorem witness_abort_copy :
    let t := copying sched; let s := state ctx t (engine active); let x := tget {} (s.copyOf 0 t.id).ents 0
    s.take? t.id = some t ∧ t.sched[0]? = some sched ∧ x.st = .active ∧ x.fin = none ∧ x.stamp = none := by decide +kernel

def asked' (w : Why) : Take := { take with why := [w] }
theorem witness_freeze :
    let t := { asked' .preempt with stops := true }; let s := state ctx t { regions := [(0, region)] }
    let r := state ctx t { regions := [(0, { region with rstate := .replay })] }
    s.take? 1 = some t ∧ t.st = .running ∧ t.why ≠ [] ∧ t.stops = true ∧ (asked' .preempt).stops = false ∧
      (∀ p ∈ t.places, ∀ x ∈ s.regionsOf p.cl 1, x.2.rstate = .run) ∧ s.regionsOf 0 1 = [(0, region)] ∧
      r.regionsOf 0 1 = [(0, { region with rstate := .replay })] := by decide +kernel
/-- The take once it is frozen. -/
def frozen (w : Why) : Take := { asked' w with st := .frozen }
theorem witness_freeze_done (w : Why) (h : w = .abort 2 ∨ w = .preempt ∨ w = .stop 20 0 0 0 0 0 false ∨ w = .move 1 2) :
    let t := frozen w; let s := state ctx t
    s.take? 1 = some t ∧ t.st = .frozen ∧ t.why = [w] ∧ t.why ≠ [] ∧ t.xabort = false ∧ s.resets t.fn = false ∧ t.exits.length ≠ t.places.length ∧
      t.image = none ∧ t.save = 0 ∧ s.mayMove t 1 = false ∧
      ∀ p ∈ t.places, s.quiet t p = true ∧ (s.ctx p.cl p.k).pend = [] ∧ ∀ q ∈ t.outPorts p.cl, s.dueTile p.cl q = [] := by
  rcases h with rfl | rfl | rfl | rfl <;> decide +kernel
/-- A tile of the take was out of its lease when it was to be cancelled. -/
theorem witness_freeze_fault :
    let t := { frozen (.abort 1) with xabort := true }; let s := state ctx t
    s.take? 1 = some t ∧ t.st = .frozen ∧ t.xabort = true ∧ (∀ n, .abort n ∈ t.why → n ≤ 2) ∧
      ∀ p ∈ t.places, s.quiet t p = true ∧ (s.ctx p.cl p.k).pend = [] ∧ ∀ q ∈ t.outPorts p.cl, s.dueTile p.cl q = [] := by
  refine ⟨by decide +kernel, rfl, rfl, fun n h => ?_, by decide +kernel⟩
  simp only [frozen, asked', List.mem_singleton, Why.abort.injEq] at h
  omega
/-- With a save area of one frame. -/
theorem witness_freeze_image : let t := { frozen .preempt with save := hbmKey 0 65536, saveFrames := 1 }
    (state ctx t).take? 1 = some t ∧ t.save ≠ 0 ∧ ∀ p ∈ t.places, (state ctx t).quiet t p = true := by decide +kernel
theorem witness_freeze_waits : ∃ p ∈ take.places, (state loading (frozen .preempt)).quiet (frozen .preempt) p = false := by decide +kernel
/-- A saved share of one idle context. -/
def share : Share :=
  { lc := 0, ctx := { ctx with kstate := .run }, regions := [], inp := [], outp := [], acc := [], mx := none, copy := {}, lands := false, cl := 0 }
def saved : Take := { ready with st := .saved, image := some [share] }
theorem witness_restore :
    let s := idle saved 0
    s.take? 1 = some saved ∧ saved.st = .saved ∧ saved.stopped = false ∧ saved.image = some [share] ∧ s.resets saved.fn = false ∧
      (s.readFeat saved).2.savedFeat saved [share] &&& ~~~ 0xFF = 0 ∧ ((s.readFeat saved).1.readImage saved [share]).2.find? (fun y => y.lc == 0) = some share ∧
      ∃ p, (s.readFeat saved).1.plan saved false ((s.readFeat saved).1.shareFits saved [share]) = some [p] ∧
        ([p].map fun p => p.place.cl).Nodup ∧ saved.exits.length < [p].length := by
  have h : (idle saved 0).clustersFor saved ((idle saved 0).shareFits saved [share]) [] 0 = [0] := by decide +kernel
  have w : (idle saved 0).windows 0 saved.hdr.wsize = [0] := by decide +kernel
  have k : (List.range 4).find? (fun k => ((idle saved 0).ctx 0 k).free) = some 0 := by decide +kernel
  have r : List.range saved.hdr.clusters = [0] := by decide +kernel
  have e : (idle saved 0).readFeat saved = (idle saved 0, idle saved 0) := rfl
  refine ⟨by decide +kernel, by decide +kernel, by decide +kernel, by decide +kernel, by decide +kernel, by decide +kernel, by decide +kernel,
    ⟨⟨0, 0, 0, [], [(0, 0)], [(0, 0)]⟩, 0, []⟩, ?_, by simp, by decide⟩
  have o : (idle saved 0).planOn saved false 0 0 = some ⟨⟨0, 0, 0, [], [(0, 0)], [(0, 0)]⟩, 0, []⟩ := by
    unfold State.planOn
    simp only [w, k, List.length_singleton, Nat.mod_one]
    rfl
  simp [e, State.plan, r, State.planFrom, h, o]
/-- The image's FEAT word, in the save area, has a bit that the package lacks. -/
theorem witness_restore_refused :
    let t := { saved with save := hbmKey 0 0 }; let s := (idle t 0).poke (hbmKey 0 0 + 8) (wordBytes 0x101)
    s.take? 1 = some t ∧ s.resets t.fn = false ∧ s.errs = [] ∧ (s.readFeat t).2.savedFeat t [share] &&& ~~~ 0xFF ≠ 0 := by decide +kernel
theorem witness_cancel :
    let s := state; let f : State := { s with takes := [frozen .preempt] }; let x : State := { s with fns := [(0, { flr := true })] }
    s.take? 2 = none ∧ s.take? 1 = some take ∧ take.fn = 0 ∧ take.fn ≠ 3 ∧ take.st = .running ∧ ready.st = .ready ∧ s.resets 0 = false ∧
      (idle ready 0).take? 1 = some ready ∧ (idle saved 0).take? 1 = some saved ∧ (idle ready 0).resets 0 = false ∧
      f.take? 1 = some (frozen .preempt) ∧ x.resets 0 = true := by decide +kernel
def stopped (nr : Bool) : Take := { saved with stopped := true, noResume := nr }
theorem witness_takectl (nr : Bool) :
    let t := stopped nr; (idle t 0).take? 1 = some t ∧ t.st = .saved ∧ t.stopped = true ∧ t.noResume = nr ∧ saved.stopped = false := by
  cases nr <;> decide +kernel
theorem witness_takeEnd (code : BitVec 8) (h : code = 0 ∨ code = 2) :
    let t := { take with st := .ending, code := code, exits := [(0, 7)] }; let s := state ctx t
    s.take? 1 = some t ∧ t.st = .ending ∧ s.resets t.fn = false ∧ t.unwound = false ∧ (∀ x ∈ s.shares t, x.copy.ents = []) ∧
      (∀ y ∈ t.exits, y.2 ≠ 0 → 0 ≤ y.1) ∧ (t.exits.map (·.1)).Nodup ∧
      ((s.shares t).foldl (fun n x => n + x.ctx.ecnt.toNat) 0) < 2 ^ 48 ∧ ∀ x ∈ s.shares t, x.ctx.esat = false := by
  rcases h with rfl | rfl <;> decide +kernel
/-- The end has begun with an entry that waits for a write to a peer, and with none. -/
theorem witness_takeEnd_unwound :
    let e : CopyEnt := { st := .active, fin := some 1, posted := [5] }; let t := { take with st := .ending, unwound := true }
    let s := state ctx t (engine { ents := [(0, e)] }); let u := state ctx t
    (s.shares t).map (·.cl) = [0] ∧ (s.copyOf 0 1).ents = [(0, e)] ∧ t.unwound = true ∧
      ∀ x ∈ u.shares t, (u.copyOf x.cl 1).ents = [] := by decide +kernel
/-- A take of function 1 on clusters; one that waits, with a request outstanding. -/
theorem witness_flr :
    let a := { take with fn := 1 }; let s := state ctx a; let q : Req := { pkg := 5, rq := .cueLoad 0 0, fn := 1 }
    let b : State := { fullPackage { asking 1 with fn := 1, st := .ending } with reqs := [q], fns := [(1, { flr := true })] }
    1 % 32 ≠ 0 ∧ (s.fn 1).flr = false ∧ a ∈ s.takes ∧ a.fn = 1 ∧ a.st = .running ∧ (b.fn 1).flr = true ∧ q ∈ b.reqs ∧ q.fn = 1 := by
  decide +kernel
theorem witness_flr_drained :
    let s := fullPackage { asking 1 with fn := 1 }; let b : State := { fullPackage { asking 1 with fn := 1, st := .ending } with fns := [(1, { flr := true })] }
    (s.fn 1).flr = false ∧ (∀ t ∈ s.takes, t.st = .queued) ∧ s.reqs = [] ∧ (b.fn 1).flr = true ∧ (∀ t ∈ b.takes, t.fn = 1 → t.st = .ending) ∧
      b.reqs = [] ∧ s.resetRuns 1 = [] := by decide +kernel
theorem witness_flr_physical :
    let s := fullPackage { asking 1 with fn := 1 }; 32 % 32 = 0 ∧ ∀ i < 16, (s.fn (32 + i)).flr = false := by decide +kernel
theorem witness_flr_zones : ∀ cl z, (State.reset.zone cl z).open_ = false := fun _ _ => rfl

/-! ### Witnesses: leases between packages, recalls -/

/-- Function 0 has a pool of 2^30 bytes, 16,384 plots, and may lease one. -/
theorem witness_remoteLease_refused :
    (pool 1).psz.toNat = 30 ∧ (2 ^ 30 < 65536 * (16384 + 1)) ∧ (pool 1).lslim.toNat < 2 ∧ (pool 0).lslim.toNat < 1 := by decide +kernel
theorem witness_remoteLease :
    let s : State := { fns := [(0, pool 1)], dies := [(3, { st := .full })] }
    (s.fn 0).poolFrames 16383 1 = some [7 * 2 ^ 20 + 2047] ∧ 1 ≤ (s.fn 0).lslim.toNat ∧
      s.heldAgain 5 1 1 0 1 = 0 ∧
      (s.fn 0).lsuse.toNat + (s.fn 0).lsrmt.toNat - s.heldAgain 5 1 1 0 1 + 1 ≤ (s.fn 0).lslim.toNat ∧ s.rplots = [] ∧
      (∀ x ∈ [7 * 2 ^ 20 + 2047], s.heldRemote 5 1 1 x = false ∧ (s.die (x / 2 ^ 20 / 2)).st = .full) ∧ tget none s.rleases 0 = none := by decide +kernel
def lease : RLease := ⟨5, 1, 1, 0, [7 * 2 ^ 20 + 2047], 2 ^ 24, 0, [], []⟩
theorem witness_remoteLease_waits :
    let s : State := { fns := [(0, { pool 1 with lsrmt := 1 })], rleases := [(3, some lease)] }
    (s.fn 0).lslim.toNat < (s.fn 0).lsuse.toNat + (s.fn 0).lsrmt.toNat - s.heldAgain 5 2 1 0 1 + 1 ∧
      s.heldRemote 5 2 1 (7 * 2 ^ 20 + 2047) = true := by decide +kernel
/-- Die 3, of the frame's stack, is not FULL. -/
theorem witness_remoteLease_reduced : (({ fns := [(0, pool 1)], dies := [(3, { st := .reduced })] } : State).die ((7 * 2 ^ 20 + 2047) / 2 ^ 20 / 2)).st ≠ .full := by
  decide +kernel
/-- The source asks again for the plot that it holds, and that a recall has moved. -/
theorem witness_remoteLease_again :
    let s : State := { fns := [(0, { pool 1 with lsrmt := 1 })], rleases := [(3, some lease)], dies := [(3, { st := .full })]
                       rplots := [⟨5, 1, 1, 0, 0, 0, 7 * 2 ^ 20 + 9⟩] }
    s.heldAgain 5 1 1 0 1 = 1 ∧ (s.fn 0).lsuse.toNat + (s.fn 0).lsrmt.toNat - s.heldAgain 5 1 1 0 1 + 1 ≤ (s.fn 0).lslim.toNat ∧
      s.rplots.find? (fun x => x.src == 5 && x.take == 1 && x.tid == 1 && x.fn == 0 && x.pool == 0 + 0 && x.plot == 0 + 0) =
        some ⟨5, 1, 1, 0, 0, 0, 7 * 2 ^ 20 + 9⟩ ∧
      s.heldRemote 5 1 1 (7 * 2 ^ 20 + 9) = false ∧ (s.die ((7 * 2 ^ 20 + 9) / 2 ^ 20 / 2)).st = .full ∧ tget none s.rleases 0 = none := by decide +kernel
theorem witness_remoteLeaseGrant :
    let p : PLease := ⟨5, 1, 1, 0, 1, false, 0, 0⟩; let s := { state ctx { take with want := [(1, 0)] } with pleases := [p] }; let take := { take with want := [(1, 0)] }
    s.take? 1 = some take ∧ take.st = .running ∧ (∃ x ∈ take.tensors, x.1 = 1) ∧ p ∈ s.pleases ∧ p.granted = false ∧
      p.count = [0].length := by decide +kernel
/-- Half the term has passed. -/
theorem witness_remoteLeaseRenewal :
    let p : PLease := ⟨5, 1, 1, 0, 1, true, 7, 2 ^ 24⟩; let s : State := { pleases := [p], cycle := 2 ^ 23 }
    p.granted = true ∧ p.pkg = 5 ∧ p.lease = 7 ∧ p.until_ ≤ s.cycle + 2 ^ 23 ∧ ¬ p.until_ ≤ (2 ^ 23 - 1) + 2 ^ 23 := by decide +kernel
theorem witness_remoteLeaseLapse :
    let s : State := { rleases := [(3, some lease)], cycle := 2 ^ 24 }
    tget none s.rleases 3 = some lease ∧ lease.until_ ≤ s.cycle ∧ 2 ^ 24 - 1 < lease.until_ := by decide +kernel
/-- Die 0, whose vaults serve. -/
def served : State := { state with dies := [(0, { st := .reduced })] }
theorem witness_leaseRecall :
    let s := served; let ten := take.tensor 0; let e := ten.entry 0
    s.take? 1 = some take ∧ (∀ p ∈ take.places, p.cl < 256) ∧ take.st = .running ∧ ten.res < 2 ∧ entryV e = true ∧ ten.place take.fn e 0 = .key 0 ∧
      s.zoneHolds 0 = false ∧ s.holders 0 = [] ∧ s.errs = [] ∧ s.clusters.all (fun c => c.2.vbfail == 0) = true := by decide +kernel
theorem witness_leaseRecall_room : (served.recallStarts take (take.tensor 0) 0).length ≠ 0 := by
  have h : (served.recallStarts take (take.tensor 0) 0).head? = some (vaultKey 1 0) := by decide +kernel
  intro g
  rw [List.length_eq_zero_iff.1 g] at h
  cases h
theorem witness_leaseRecall_zone : (state ctx take (zoned zone)).zoneHolds 0 = true := by decide +kernel
/-- A plot of HBM that a remote lease of package 5 holds too. -/
theorem witness_leaseRecall_holder :
    let t := { take with tensors := [(0, words 1 (plot 1 (7 * 2 ^ 20 + 2047)))] }; let key := hbmFrameKey (7 * 2 ^ 20 + 2047)
    let s := { state ctx t with fns := [(0, pool 1)], rleases := [(3, some lease)] }
    (t.tensor 0).place t.fn ((t.tensor 0).entry 0) 0 = .key key ∧ s.holders key = [(3, lease, 0)] ∧ lease.asked.contains 0 = false := by
  decide +kernel
theorem witness_remoteRecall :
    let ten := take.tensor 1; let e := ten.entry 0
    state.take? 1 = some take ∧ ten.res = 3 ∧ entryV e = true ∧ state.reqs = [] ∧
      ({ state with reqs := [{ pkg := ten.peerPkg, rq := .cueLoad 0 0, fn := 0, plots := [(bits e 54 40, 0)] }] } : State).reqs.any
        (fun r => r.pkg == ten.peerPkg && r.plots.contains (bits e 54 40, 0)) = true := by decide +kernel
theorem witness_recallAck :
    let s : State := { rleases := [(3, some lease)] }; tget none s.rleases 3 = some lease ∧ 0 ∉ lease.recalled ∧
      0 ∈ ({ lease with recalled := [0] } : RLease).recalled := by decide +kernel

/-! ### Witnesses: mailboxes, boot -/

def box (cmd : BitVec 8) (l : List Word) : Mailbox := { args := Vector.ofFn fun i => l.getD i.val 0, busy := true, cmd := cmd }
def commanded (b : Mailbox) (s : State := state) (st : DState := .full) : State := { s with dies := [(2, { st := st, box := b })] }
theorem witness_readplot :
    let s := commanded (box 1 [1, 0, 0]); let d := s.die 2
    d.st ≠ .reset ∧ d.box.busy = true ∧ d.box.cmd = 1 ∧ s.take? 1 = some take ∧ s.take? 0 = none ∧
      take.tensors.find? (fun y => y.1 == 0) = some (0, words 0 (plot 0 0)) ∧ take.tensors.find? (fun y => y.1 == 7) = none ∧ (0 : Word).toNat < (words 0 (plot 0 0)).np ∧
      (words 0 (plot 0 0)).np ≤ (1 : Word).toNat := by decide +kernel
theorem witness_setfn_refused :
    let s := commanded (box 2 [0, 0, 37]); (∃ t ∈ s.takes, t.fn = 0) ∧ (∀ t ∈ s.takes, t.fn ≠ 1) ∧
      (37 : Word).toNat ≠ 0 ∧ 36 < (37 : Word).toNat ∧ (29 : Word).toNat < 30 := by decide +kernel
/-- Five other functions' pools of 2^36 bytes leave the frames of a sixth. -/
def crowded : State := { fns := (List.range 5).map fun i => (i, { psz := 36, pbase := List.replicate 8 (.ofNat 20 (131072 * i)) }) }
def parts : List (Nat × Nat) := (List.range 5).map fun i => (131072 * i, 131072)
theorem chooseBase_one (pick : Nat) : chooseBase pick parts 131072 = some 655360 := by
  have g : (0 :: parts.map fun p => p.1 + p.2).filter (fun a =>
    131072 ≤ parts.foldl (fun m p => if a < p.1 + p.2 && p.1 < m then max p.1 a else m) stackFrames - a) = [655360] := by decide +kernel
  have e : parts.foldl (fun m p => if 655360 < p.1 + p.2 && p.1 < m then max p.1 655360 else m) stackFrames - 655360 - 131072 + 1 = 1 := by
    decide +kernel
  simp only [chooseBase, g, List.length_singleton, Nat.mod_one, List.getElem?_cons_zero, Option.map_some, e, Nat.add_zero]
theorem mapM_const {α β : Type} (f : α → Option β) (b : β) (l : List α) (h : ∀ x ∈ l, f x = some b) : l.mapM f = some (l.map fun _ => b) := by
  induction l with
  | nil => rfl
  | cons a l ih => simp [List.mapM_cons, h a, ih fun x hx => h x (List.mem_cons_of_mem a hx)]
theorem witness_setfn : crowded.chooseBases 7 36 = some ((List.range 8).map fun _ => 655360) := by
  refine mapM_const _ _ _ fun st hst => ?_
  have p : ∀ st ∈ List.range 8, crowded.poolParts 7 st = parts := by decide +kernel
  have n : 2 ^ (36 - 3) / frameBytes = 131072 := by decide
  rw [p st hst, n, chooseBase_one]
  rfl
/-- A sixth pool of 2^36 bytes leaves no frames. -/
def fullStacks : State := { fns := crowded.fns ++ [(5, { psz := 36, pbase := List.replicate 8 655360 })] }
def allParts : List (Nat × Nat) := parts ++ [(655360, 131072)]
theorem chooseBase_none (pick : Nat) : chooseBase pick allParts 131072 = none := by
  have g : (0 :: allParts.map fun p => p.1 + p.2).filter (fun a =>
    131072 ≤ allParts.foldl (fun m p => if a < p.1 + p.2 && p.1 < m then max p.1 a else m) stackFrames - a) = [] := by decide +kernel
  simp only [chooseBase, g, List.getElem?_nil, Option.map_none]
theorem witness_setfn_full : fullStacks.chooseBases 7 36 = none := by
  have p : fullStacks.poolParts 7 0 = allParts := by decide +kernel
  have n : 2 ^ (36 - 3) / frameBytes = 131072 := by decide
  have l : List.range 8 = 0 :: [1, 2, 3, 4, 5, 6, 7] := rfl
  rw [State.chooseBases, l, List.mapM_cons, p, n, chooseBase_none]
  rfl
theorem witness_recall :
    let s := commanded (box 3 [1, 0, 0]); let t := take; let ten := t.tensor 0
    s.take? 1 = some t ∧ t.st = .running ∧ ten.res < 2 ∧ entryV (ten.entry 0) = true ∧ 2 ≤ (t.tensor 1).res ∧ ready.st = .ready := by
  decide +kernel
theorem witness_dies : ((commanded {} state .selftest).die 2).st = .selftest ∧ ((commanded {} state .reduced).die 2).st = .reduced := by
  decide +kernel
theorem witness_boot :
    let w : Steward := { phase := 4, box := box 0x10 [0x100, 64] }; let s : State := { steward := w }
    State.reset.steward.phase = 0 ∧ 1 ≤ w.phase.toNat ∧ w.phase.toNat ≤ 4 ∧ w.box.busy = true ∧ w.box.cmd = 0x10 ∧
      s.refKey 0 0x100 ≠ none ∧ 4 < (5 : BitVec 4).toNat ∧ s.refRuns w.box.fn 0x100 0 64 = [(hostKey 0 0x100, 64)] ∧
      s.readBad (hostKey 0 0x100) 64 = false ∧ s.readCorrects (hostKey 0 0x100) 64 = false ∧
      ({ w with phase := 0 } : Steward).phase.toNat ≤ 4 ∧ (commanded {} state .selftest).die 2 ≠ {} := by decide +kernel
/-- The first word of function 0's pool cannot be read. -/
theorem witness_boot_aborted :
    let s : State := { fns := [(0, pool 1)], errs := [(hbmKey 0 0 / 8, .double)], steward := { box := box 0x10 [1, 8] } }
    s.refKey 0 1 ≠ none ∧ s.refRuns 0 1 0 8 = [(hbmKey 0 0, 8)] ∧ s.readBad (hbmKey 0 0) 8 = true := by decide +kernel
theorem witness_quote :
    let s : State := { steward := { box := box 0x11 [0x100, 0x10000] } }
    s.refKey 0 0x100 ≠ none ∧ s.refKey 0 0x10000 ≠ none ∧ s.refRuns 0 0x10000 0 17040 = [(hostKey 0 0x10000, 17040)] ∧
      s.refRuns 0 0x100 0 32 = [(hostKey 0 0x100, 32)] ∧ s.readBad (hostKey 0 0x100) 32 = false ∧ s.readCorrects (hostKey 0 0x100) 32 = false ∧
      (s.peek (hostKey 0 0x100) 32).length = 32 := by decide +kernel
theorem witness_extend :
    let s : State := { steward := { box := box 0x12 [5, 0x100] } }
    s.steward.box.busy = true ∧ s.steward.box.cmd = 0x12 ∧ 5 ≤ (5 : Word).toNat ∧ (7 : Word).toNat ≤ 7 ∧ (4 : Word).toNat < 5 ∧
      7 < (8 : Word).toNat ∧ s.refKey 0 0x100 ≠ none ∧ s.refRuns 0 0x100 0 48 = [(hostKey 0 0x100, 48)] ∧
      s.readBad (hostKey 0 0x100) 48 = false ∧ s.readCorrects (hostKey 0 0x100) 48 = false := by decide +kernel

/-! ### Witnesses: the host and the links -/

/-- The last 8 bytes of the first part of function 0's pool, and 8 bytes past the pool. -/
theorem witness_window :
    let s : State := { fns := [(0, pool 1)] }
    s.windowRuns 0 (2 ^ 27 - 8) 8 = some [(hbmKey 0 (2 ^ 27 - 8), 8)] ∧ s.writeBad (hbmKey 0 (2 ^ 27 - 8)) 8 = false ∧
      s.readBad (hbmKey 0 (2 ^ 27 - 8)) 8 = false ∧ s.windowRuns 0 (2 ^ 30) 8 = none := by decide +kernel
theorem witness_window_error :
    let s : State := { fns := [(0, pool 1)], errs := [(hbmKey 0 0 / 8, .double)] }
    s.windowRuns 0 0 8 = some [(hbmKey 0 0, 8)] ∧ s.readBad (hbmKey 0 0) 8 = true := by decide +kernel
/-- A word that the read corrects. -/
theorem witness_window_corrected :
    let s : State := { fns := [(0, pool 1)], errs := [(hbmKey 0 0 / 8, .single)] }
    s.windowRuns 0 0 8 = some [(hbmKey 0 0, 8)] ∧ s.readBad (hbmKey 0 0) 8 = false ∧ s.writeBad (hbmKey 0 0) 8 = false := by decide +kernel
theorem witness_registerWrite : (0x220 ≤ 0x220 ∧ 0x220 < 0x228 ∧ 4 < 8) ∧ (State.reset.fn 0).psz.toNat < 30 ∧ 0 < 64 ∧ 0 % 32 < 16 := by decide
theorem witness_msix : (State.reset.fn 0).msixPend.getLsbD 63 = false ∧ ({ msixPend := 1 } : Fn).msixPend.getLsbD 0 = true := by decide +kernel
/-- Port 3 is UP, and four flits of package 5 in class 0 have been accepted. -/
def linked : State := { svports := [(3, { st := .up, lanes := 4, en := true })], pins := [(20, { port := some 3, rcv := 4, retry := [(0, ⟨.recallAck 0 0, 0, 1⟩), (1, ⟨.recallAck 0 1, 0, 1⟩)] })] }
/-- The payload of a message in one flit. -/
def one (m : LinkMsg) : Payload := ⟨m, 0, 1⟩
theorem witness_flit_parts : (⟨.mgmt [], 0, 2⟩ : Payload).part + 1 ≠ (⟨.mgmt [], 0, 2⟩ : Payload).parts ∧ (one (.mgmt [])).part + 1 = (one (.mgmt [])).parts := by decide
/-- The check has failed seven times in a row for the flit of number 4. -/
theorem witness_flit_eighth :
    let at' := 2 * (2 ^ 14 * 4 + 20); let s : State := { linked with svports := [(3, { st := .up, fails := [(at', 7)] })] }
    (s.svport 3).st = .up ∧ 8 ≤ tget 0 (s.svport 3).fails at' + 1 ∧ tget 0 (linked.svport 3).fails at' + 1 < 8 ∧
      s.routesOver 3 = [] := by
  decide +kernel
/-- Flit 4 to package 5 has failed seven sends in a row, and is sent for the eighth time; then one more of it, which fails: the
eighth has passed. -/
theorem witness_flit_resend :
    let at' := 2 * (2 ^ 14 * 4 + 20) + 1; let n (v : Nat) := (if v / 16 ≤ 1 then v % 16 else 0) + 1
    let s (v : Nat) : State := { linked with svports := [(3, { st := .up, fails := [(at', v)] })] }
    let v (s : State) := tget 0 (s.svport 3).fails at'
    (linked.pin (4 * 5 + 0)).port = some 3 ∧ n (v linked) = 1 ∧ 8 ≤ n (v (s 23)) ∧ ((s 23).svport 3).st = .up ∧ (s 23).routesOver 3 = [] ∧
      n (v (s 39)) = 1 ∧ v linked = 0 ∧ v (s 7) ≠ 0 ∧ v ((s 7).putFlit 3 ⟨5, 0, 4, one (.mgmt [])⟩) = 23 := by decide +kernel
/-- A reservation message meets two of its cycle. -/
theorem witness_flit_order :
    let a := Turn.dev (.reservationRequest 0 7 ⟨5, 1, 0⟩ 0); let b := Turn.dev (.reservationRequest 0 7 ⟨5, 9, 0⟩ 0)
    [a, b] = [a] ++ [b] ∧ (1 < 2 ∧ 2 < 9) := ⟨rfl, by decide⟩
/-- Two requests of one requester are outstanding; the second cannot be the one that a completion ends. -/
theorem witness_flit_reply (stale : Bool) :
    let r : Req := ⟨5, .cueLoad 0 0, 0, [], false, stale⟩; let o : Req := ⟨6, .cueLoad 0 0, 0, [], false, false⟩
    let s : State := { linked with reqs := [o, r, r] }
    s.reqs = [o] ++ r :: [r] ∧ r.pkg = 5 ∧ r.rq = .cueLoad 0 0 ∧ (∀ z ∈ [o], ¬ (z.pkg = 5 ∧ z.rq = .cueLoad 0 0)) ∧ r.stale = stale ∧
      s.stamping r.rq = false ∧ (∀ z ∈ s.reqs, ¬ (z.pkg = 7 ∧ z.rq = .cueLoad 0 0)) := by
  cases stale <;> decide +kernel
/-- The write of a sequence stamp is outstanding. -/
theorem witness_flit_stamp :
    let s := state ctx (copying landing) (engine { ents := [(0, { st := .active, fin := some 0, stamp := some 1, posted := [5] })] })
    s.stamping (.copyEntry 0 1 0) = true := by decide +kernel
/-- A port with flits of MGMT and MEM, and one with LAND and MEM. -/
theorem witness_pick :
    let f (c n : Nat) : QFlit := ⟨5, c, n, one (.mgmt [])⟩
    let x : SvPort := { sendq := [f clsMem 0, f clsMgmt 0] }; let y : SvPort := { sendq := [f clsMem 0, f clsLand 0], lastMem := true }
    x.pick (fun _ => true) = some (f clsMgmt 0) ∧ y.pick (fun _ => true) = some (f clsLand 0) ∧
      ({ y with lastMem := false } : SvPort).pick (fun _ => true) = some (f clsMem 0) ∧ x.pick (fun c => c == clsMem) = some (f clsMem 0) := by
  decide +kernel
theorem witness_flit :
    (linked.svport 3).st = .up ∧ (linked.svport 2).st ≠ .up ∧ 4 = (linked.pin (4 * 5 + 0)).rcv ∧ 3 ≠ (linked.pin (4 * 5 + 0)).rcv ∧
      (linked.pin (4 * 5 + 0)).port = some 3 ∧ linked.routesOver 3 = [] := by decide +kernel
theorem witness_remoteAccess :
    let s : State := { rleases := [(3, some lease)] }; let e := { s with cycle := 2 ^ 24 }; let key := hbmFrameKey (7 * 2 ^ 20 + 2047)
    tget none s.rleases 3 = some lease ∧ lease.src = 5 ∧ s.cycle < lease.until_ ∧ lease.first ≤ 65528 / 65536 ∧
      65528 / 65536 ∉ lease.recalled ∧ 65528 % 65536 + 8 ≤ 65536 ∧ lease.frames[65528 / 65536 - lease.first]? = some (7 * 2 ^ 20 + 2047) ∧
      s.readBad (key + 65528) 8 = false ∧ s.readCorrects (key + 65528) 8 = false ∧ s.writeBad (key + 65528) 8 = false ∧
      tget none e.rleases 3 = some lease ∧ lease.until_ ≤ e.cycle ∧ tget none s.rleases 4 = none := by decide +kernel
/-- A tile with an element past the lease. -/
theorem witness_remoteAccess_tile :
    let s : State := { rleases := [(3, some lease)] }; let x : TileElem := ⟨3, 65536, 8, 0, 64, 0, none⟩
    x ∈ [x] ∧ s.remoteKey 5 x.lease x.off x.n = none := by decide +kernel
theorem witness_remoteAccess_abort :
    let key := hbmFrameKey (7 * 2 ^ 20 + 2047); let s : State := { rleases := [(3, some lease)], errs := [(key / 8, .double)] }
    tget none s.rleases 3 = some lease ∧ lease.frames[0 - lease.first]? = some (7 * 2 ^ 20 + 2047) ∧ s.writeBad key 1 = true ∧
      s.readBad key 1 = true := by decide +kernel
theorem witness_portUp :
    let s : State := { svports := [(3, { st := .training, en := true })], dies := [(0, { st := .full })] }; let x := s.svport 3
    (s.die (3 / 12)).st = .full ∧ (s.die (12 / 12)).st ≠ .full ∧ s.routesOver 3 = [] ∧ x.en = true ∧ x.st ≠ .up ∧ x.st = .training ∧ (s.svport 2).en = false ∧ (s.svport 2).st = .disabled := by decide +kernel
theorem witness_svrt :
    let up (s : State) (m : Word) := (List.range 48).filter fun q => m.getLsbD q && (s.svport q).st == .up
    let r := { linked with reach := [6] }
    5 ≠ linked.pkgId.toNat ∧ up linked 8 ≠ [] ∧ 5 ∉ linked.reach ∧ up r 4 = [] ∧ 6 ∈ r.reach ∧ 6 ≠ r.pkgId.toNat ∧ up linked 4 = [] := by decide +kernel
/-- Package 5 is reachable over ports 3 and 4, and what is pinned to port 3 must move when its route names port 4 only. -/
theorem witness_svrt_repin :
    let s : State := { linked with svports := [(3, { st := .up }), (4, { st := .up })], reach := [5] }
    ((List.range 48).filter fun q => (16 : Word).getLsbD q && (s.svport q).st == .up) = [4] ∧ (s.pin (4 * 5 + 0)).port = some 3 ∧ 3 ∉ [4] ∧
      ((List.range 48).filter fun q => (24 : Word).getLsbD q && (s.svport q).st == .up) = [3, 4] := by decide +kernel

/-! ### Witnesses: the step -/

/-- The decoder reads the instruction and leaves `n` bytes. -/
def decodesTo (bytes : List Byte) (i : Instr) (n : Nat) : Bool :=
  match decode bytes with
  | .ok (j, r) => decide (j = i) && r.length == n
  | .error _ => false
def rejects (bytes : List Byte) : Bool :=
  match decode bytes with
  | .ok _ => false
  | .error _ => true
/-- The context's window holds ADD s4, s5, s6 (R167) at 0. -/
def stepping (t : Turn) : State :=
  { state ctx take { scratch := [(0, 0x04), (1, 0xA4), (2, 0x18)] } with agenda := [t] }
theorem witness_step_issue :
    let s := stepping (.issue 0 0); let c := s.cluster 0; let x := s.ctx 0 0
    s.canIssue 0 0 = true ∧ decodesTo ((List.range 12).map fun j => c.winByte x (0 + j)) (.add 4 5 6) 8 = true ∧
      parcelsOf (c.winParcel x 0) = 1 ∧ 0 + 4 * max 1 1 ≤ x.wsize ∧ c.winLine x 0 = .valid ∧ s.canIssue 0 1 = false := by decide +kernel
theorem witness_step_unassigned :
    let s := { stepping (.issue 0 0) with clusters := [(0, { ctx := [(0, ctx)], scratch := [(0, 3)] })] }; let c := s.cluster 0
    rejects ((List.range 12).map fun j => c.winByte (s.ctx 0 0) (0 + j)) = true := by decide +kernel
/-- At the end of the window, and at lines that are invalid and being filled. -/
theorem witness_step_invalid :
    let s := state { ctx with pc := 4096 }; let c : Cluster := { lines := [(0, .invalid), (1, .filling)] }
    (s.ctx 0 0).wsize < 4096 + 4 ∧ CanTrap s 4 ∧ c.winLine ctx 0 = .invalid ∧ c.winLine ctx 64 = .filling :=
  ⟨by decide +kernel, canTrap (by decide +kernel), by decide +kernel, by decide +kernel⟩
def oneFires : State := { firing { ents := [addWord 1 false, addWord 0 false] } with agenda := [.fire 0 0 0] }
theorem witness_step_fire :
    (oneFires.bank 0 (256 * (oneFires.region 0 0).ctx.toNat + 0)).ents = [addWord 1 false] ++ addWord 0 false :: [] := by decide +kernel
theorem witness_step_fire_stamps :
    (addWord 1 false).extractLsb' 52 12 ≠ (oneFires.region 0 0).cnt ∧ (addWord 0 false).extractLsb' 52 12 = (oneFires.region 0 0).cnt := by
  decide +kernel
theorem witness_step_fire_decodes : (decodeEntry (addWord 0 false)).isSome = true := by decide +kernel
theorem witness_step_device : isDeviceStep .peakClear = true ∧ isDeviceStep (.add 0 0 0) = false := by decide +kernel
theorem witness_table_word : decodeTableWord 32 0x0018A404 = some (.add 4 5 6) := by decide +kernel
theorem witness_roundTrip :
    Instr.wf (.add 31 31 31) = true ∧ encodeCue (.add 31 31 31) ≠ [] ∧ Instr.wf (.entryAdd add) = true ∧
      (encodeEntry (.entryAdd add)).isSome = true := by decide +kernel
theorem witness_memory : Memory.wf State.reset.mem = true ∧ step State.reset = .next (tick State.reset) := ⟨rfl, rfl⟩

/-! ### Ill-formed terms, one for each check -/

def mem : MemOp := ⟨2, 1, 4, 5, 0, 0⟩
def plain : Entry :=
  { stamp := 0, hold := false, chain := false, fmt := 7, sa := 0, sb := 15, wl := 0, route := 0, ps := 0, md := 0, imm := 0 }
/-- A coordinate beyond NC (R62); LD with REL, ST with ACQ, a plain access with a scope (R68); sizes of FADD and MARM
(R70, R178); a w register without CAS (R68). -/
theorem illFormed_memory : ∀ i ∈ [
    Instr.ld 3 { mem with c2 := 1 } .plain false .w .el, .ld 3 { mem with c3 := 1 } .plain false .w .el, .ld 3 { mem with nc := 0 } .plain false .w .el,
    .ld 3 mem .rel false .w .el, .ld 3 mem .plain false .w .cl, .ld96 3 mem .ar false .w .el 0, .st mem 1 .acq .d .el, .st96 mem 1 .plain .d .sy 0,
    .amo 0 mem 1 0 .plain .h .faddF32 .el, .amo 0 mem 1 0 .plain .w .faddBf16 .el, .amo96 0 mem 1 2 .plain .d .add .el 0, .marm mem .h, .marm96 mem .b 0],
    i.wf = false := by decide
/-- Formats of the matrix engine (R205), selectors (R211), MX.STEPS in E4M3 only (R216). -/
theorem illFormed_matrix : ∀ i ∈ [
    Instr.mxPin mem 1 0, .mxPin mem 8 1, .mxPin mem 15 6, .mxScale true { mem with c3 := 2 }, .mxStep true { tile with sela := 4, afmt := 8 },
    .mxStep true { tile with selc := 2, afmt := 8 }, .mxStep true { tile with afmt := 4 }, .mxSteps true { tile with afmt := 15, sub := 1 },
    .mxSteps true { tile with afmt := 8 }, .mxRead { tile with afmt := 8, sub := 1 }, .mxRead { tile with sela := 9 }], i.wf = false := by decide
/-- Unused predicate and register fields (R168, R177, R179), counts and numbers out of range (R189, R190, R219, R237, R238,
R243, R253). -/
theorem illFormed_numbers : ∀ i ∈ [
    Instr.plog .not 1 1 1, .plog .mov 1 1 1, .plog .set 1 1 0, .plog .clr 1 0 1, .fence .ar .cl 1, .mwait 3 false .cl 0, .mwait 3 true .cl 1,
    .accTake 1 0, .accTake 1 257, .accFree 1 0, .accFree 1 257, .mxZero 1 0, .mxZero 1 257, .cpAdv 0, .cpAdv 256, .cpStat 1 256,
    .cpRedop 15, .zoneStat 1 8, .zoneSweep 8, .zoneClose 8], i.wf = false := by decide
/-- PS and WL codes, formats and modifiers of element entries (R49 to R54). -/
theorem illFormed_entries : ∀ i ∈ [
    Instr.entryAdd { plain with ps := 5 }, .entryAdd { plain with wl := 3 }, .entryMov { plain with fmt := 15 }, .entryMov { plain with md := 1 },
    .entryAnd { plain with fmt := 10 }, .entryDec { plain with fmt := 10 }, .entryPack { plain with fmt := 12 }, .entryRnd { plain with fmt := 3 },
    .entryCnt { plain with fmt := 0 }, .entryCnt { plain with md := 4 }, .entryHash { plain with fmt := 2 }, .entryStat { plain with fmt := 6 },
    .entryHdrLoad { plain with md := 1 }, .entryHdrBuild { plain with fmt := 3 }, .entryAdd { plain with md := 2 }, .entryMul { plain with md := 4 },
    .entryShl { plain with md := 2 }, .entryCmp { plain with md := 6 }, .entryCmp { plain with md := 8 }, .entryCmp { plain with fmt := 15 },
    .entrySend { plain with imm := 0x100 }, .entrySend { plain with md := 2 }, .entryDec { plain with fmt := 13, md := 8 },
    .entryDec { plain with fmt := 13, md := 8, imm := 0x3001 }, .entryRcp { plain with fmt := 10, md := 8 },
    .entryCvt { plain with imm := 0x400 }, .entryCvt { plain with imm := 0x280 }, .entryCvt { plain with imm := 0x10 },
    .entryCvt { plain with md := 1 }, .entryCvt { plain with imm := 0x1000 }, .entryCvt { plain with sa := 14 }], i.wf = false := by decide

/-! ### Words that the spec writes out (the tables of the rules named) -/

def readsAs (l : List (List Parcel × Instr)) : Bool := l.all fun p => decodesTo (p.1.flatMap parcelBytes) p.2 0
/-- R70, R167. -/
theorem words_arithmetic : readsAs [
    ([0x0018A404], .add 4 5 6), ([0x032D4904], .divu 9 10 11), ([0x00A4E704], .sub 7 7 9), ([0x08EB7B04], .or 27 27 26),
    ([0xFFFCE708], .addi 7 7 0x3FFF), ([0x01FD2910], .andi 9 9 0x7F), ([0x00148328], .shli 3 4 5), ([0x00C1092C], .shri 9 8 48),
    ([0x00004226, 0x0000FFFF, 0], .andl 2 2 0x0000FFFF00000000), ([0x00000522, 1, 0x80000000], .addl 5 0 0x180000000)] = true := by
  decide +kernel
/-- R168, R194. -/
theorem words_predicates : readsAs [
    ([0x02082540], .pcmp .ltu 5 1 2), ([0x01913B44], .pcmpi .ge 3 9 100), ([0x01882348], .plog .andn 3 1 2), ([0x0120E64C], .selp 6 7 8 2),
    ([0x00000250], .pget 2), ([0x00006054], .pput 3), ([0x00000058], .nop)] = true := by decide +kernel
/-- R70, R171. -/
theorem words_branches : readsAs [
    ([0x000D2268], .blt 2 9 3), ([0x0010086C], .bge 8 0 4), ([0xFFF80B78], .bnp 3 0x3FFE), ([0xFFE8067C], .loop 6 0x3FFA), ([0x00281F80], .jal 31 10),
    ([0x0003E084], .jr 0 31)] = true := by decide +kernel
/-- R70, R173, R176, R179. -/
theorem words_memory : readsAs [
    ([0x10148305, 0x01200000], .ld 3 mem .plain false .w .el), ([0x2800A406, 0x00300000, 0x10], .ld96 4 ⟨3, 0, 5, 0, 0, 0⟩ .plain true .h .el 0x10),
    ([0x980C4009, 0x09101C00], .st ⟨1, 1, 2, 3, 0, 0⟩ 7 .rel .d .cl), ([0x005FA00A, 0x01206400, 1], .st96 ⟨2, 1, 29, 23, 0, 0⟩ 25 .plain .b .el 1),
    ([0xDC80C50D, 0x14441C00], .amo 5 ⟨4, 0, 6, 0, 0, 0⟩ 7 8 .ar .d .cas .pk), ([0x0E80600D, 0x04201000], .amo 0 ⟨2, 0, 3, 0, 0, 0⟩ 4 0 .plain .h .faddT16 .rg),
    ([0x18004011, 0x00500000], .marm ⟨5, 0, 2, 0, 0, 0⟩ .d), ([0x12800088], .fence .rel .pk 0), ([0x0B006088], .fence .acq .pr 3),
    ([0x0900098C], .mwait 9 true .cl 0), ([0x01800090], .drain .x)] = true := by decide +kernel
/-- R184, R187, R188, R190, R191. -/
theorem words_streams : readsAs [
    ([0x00008021, 0x00013083], .bind 4 0 2 6 1 .stream false 3), ([0x00044021, 0x00001090], .bind 2 1 0 2 1 .stream true 0), ([0x0000C0A0], .unbind 6),
    ([0x090000A4], .portWait true 2), ([0x018000A8], .barrier false 3), ([0x000400AC], .sceneGo 1), ([0x000800B0], .regionHalt 2), ([0x000000B4], .splice),
    ([0x001400B8], .ovlFetch 5), ([0x001400BC], .ovlWait 5), ([0x002004C0], .accTake 4 8), ([0x002080C4], .accFree 4 8), ([0x002CEAC8], .takeSpawn 10 7 11)]
    = true := by decide +kernel
/-- R195. -/
theorem words_system : readsAs [
    ([0x004805F8], .sysRd 5 0x012), ([0x0040C0FC], .sysWr 0x010 6), ([0x001C0098], .trap 7), ([0x0000009C], .brk 0), ([0x000C0094], .rstp 3), ([0x00000038], .eret),
    ([0x0000203C], .exit 1)] = true := by decide +kernel
/-- R206 to R222. -/
theorem words_matrix : readsAs [
    ([0x07948041, 0x01300000], .mxPin ⟨3, 1, 4, 5, 0, 0⟩ 15 0), ([0x000000CC], .mxSwap), ([0x0080E045, 0x00600000], .mxScale true ⟨6, 0, 7, 0, 0, 0⟩),
    ([0x000120D4], .mxMode 9), ([0x9F984049, 0x01888F10], .mxStep true ⟨2, 6, 63, 3, 1, 1, 0, 15, 16⟩), ([0x008CA04D, 0x00000F00], .mxSteps false ⟨5, 3, 1, 0, 0, 0, 0, 15, 0⟩),
    ([0x002080D0], .mxZero 4 8), ([0x1FA0E051, 0x01888910], .mxRead ⟨7, 8, 63, 3, 1, 1, 0, 9, 16⟩), ([0x000000D8], .mxWait)] = true := by decide +kernel
/-- R238, R243, R245, R247, R249, R251, R253 to R255. -/
theorem words_copy : readsAs [
    ([0x000400DC], .cpAdv 1), ([0x000C07E0], .cpStat 7 3), ([0x002C00E4], .cpRedop 11), ([0x0398A461, 0x00000010], .zoneOpen 4 5 6 7 2),
    ([0x00000865, 0x00543010], .zoneRsv 8 5 0x43 2), ([0x00000069, 0x005430D0], .zoneRel 5 0x43 3 2), ([0x0100A0E8], .zoneArm 2 5), ([0x000809EC], .zoneStat 9 2),
    ([0x000800F0], .zoneSweep 2), ([0x000800F4], .zoneClose 2)] = true := by decide +kernel
/-- R58, R117. -/
theorem words_entries : ([
    (0x011C820B88000000, .entryAdd ⟨17, true, true, 2, 0, 11, 4, 16, 0, 0, 0⟩), (0x0820FD6EC1200040, .entryMax ⟨130, false, false, 13, 6, 14, 6, 2, 2, 0, 0x40⟩),
    (0x00228F020800020A, .entryCvt ⟨2, false, false, 15, 0, 2, 0, 16, 0, 0, 0x20A⟩), (0x0050C102A0020000, .entryMac ⟨5, false, false, 1, 0, 2, 5, 0, 0, 2, 0⟩),
    (0x00313D1E00024000, .entryCmp ⟨3, false, false, 13, 1, 14, 0, 0, 0, 2, 0x4000⟩), (0x00A06A6F00010013, .entrySend ⟨10, false, false, 10, 6, 15, 0, 0, 0, 1, 0x13⟩),
    (0x00069D0F08083000, .entryDec ⟨0, false, true, 13, 0, 15, 0, 16, 0, 8, 0x3000⟩), (0x0083960704000000, .entryHash ⟨8, false, false, 6, 0, 7, 0, 8, 0, 0, 0⟩),
    (0x00C15D0280000000, .entryMaxi ⟨12, false, false, 13, 0, 2, 4, 0, 0, 0, 0⟩)] : List (Word × Instr)).all
    (fun p => decide (decodeEntry p.1 = some p.2)) = true := by decide +kernel
/-- R70: a reserved length, an unassigned major, and an instruction cut short. -/
theorem words_refused : ([[0xFFFFFFFF], [0x00000000], [0x10148305]] : List (List Parcel)).all (fun l => rejects (l.flatMap parcelBytes)) = true := by
  decide +kernel

/-! ### Worked examples -/

/-- The context after one instruction. -/
def after (i : Instr) (s : State) : CueCtx :=
  match exec i s with
  | .next t => t.ctx 0 0
  | _ => {}
def minus7 (b : Word) : State := state { ctx with s := (ctx.s.set 5 (-7)).set 6 b }
/-- R167: the edge cases with s5 = −7. -/
theorem test_div : (after (.div 4 5 6) (minus7 2)).reg 4 = -3 ∧ (after (.divu 4 5 6) (minus7 0)).reg 4 = 0xFFFFFFFFFFFFFFFF := by decide +kernel
theorem test_rem : (after (.rem 4 5 6) (minus7 2)).reg 4 = -1 ∧ (after (.remu 4 5 6) (minus7 0)).reg 4 = -7 := by decide +kernel
/-- R23: a write to s0 is discarded, and PC advances. -/
theorem test_s0 : (after (.addi 0 5 1) (minus7 2)).reg 0 = 0 ∧ (after (.addi 0 5 1) (minus7 2)).pc = 4 := by decide +kernel
/-- The result of an entry on two source words, in an empty bank. -/
def result (op : BitVec 6) (e : Entry) (x y : Word) : Word := (effect op e ⟨x, y, {}, 0, 0, 0, 0⟩).res
/-- R94: F32 1.0 and NaN in T16, and the tie of 1.03125 in T8. -/
theorem test_cvt_t16 : (result 0x28 { plain with fmt := 13, imm := 0x00A } 0x3F800000 0).setWidth 16 = (0x4000 : BitVec 16) ∧
    (result 0x28 { plain with fmt := 13, imm := 0x00A } 0xFFC00000 0).setWidth 16 = (0x8000 : BitVec 16) := by decide +kernel
theorem test_cvt_t8 : (result 0x28 { plain with fmt := 12, imm := 0x00A } 0x3F840000 0).setWidth 8 = (0x40 : BitVec 8) ∧
    (result 0x28 { plain with fmt := 12, imm := 0x00A } 0xBF800000 0).setWidth 8 = (0xC0 : BitVec 8) := by decide +kernel
/-- R256, the example after it: package 1's bytes open the barrier of an armed zone. -/
theorem test_zone_opens :
    let x : Slot := { st := .held, scl := 2 }
    let z : Zone := { zone (0x1000000000000020) 64 with zarm := 96, slots := [(1, x)] }
    (match exec (.landingArrival 0 7 1 ⟨0, 2, 0⟩ 1 0 0 (List.replicate 32 1) true) (state ctx take (zoned z)) with
      | .next t => (t.zone 0 7).word
      | _ => 0) = 0x9000000000000000 := by decide +kernel

end Sys2Proof.Tests
end

section
/-! PROOFS. Host register and window accesses (O59): what a write of memory leaves alone, what detecting an error leaves of the
takes, the blocks of BAR0, the BAR registers, the window and MSI-X. -/

namespace Sys2Proof.Machine

section
variable (s : State)

/-! ### What a write of memory leaves alone (R262 to R264) -/

/-- Noting an error writes VERR of the vault's cluster. -/
theorem State.cluster_noteErr (ue : Bool) (a n cl : Nat) : (s.noteErr ue a n).cluster cl =
    if isVault a = true ∧ cl = vaultCl a then
      { s.cluster cl with verr := verrRecord (s.cluster cl).verr ue (s.badPlace ue a n).1 (s.badPlace ue a n).2 }
    else s.cluster cl := by
  by_cases hv : isVault a = true
  · simp only [State.noteErr, hv, if_true, true_and, State.cluster_updCluster]
    split
    next h => rw [h]
    next => rfl
  · simp [State.noteErr, hv]

theorem State.noteErr_rest (ue : Bool) (a n : Nat) : { s.noteErr ue a n with clusters := s.clusters } = s := by
  unfold State.noteErr; split <;> rfl

theorem State.noteRead_rest (a n : Nat) : { s.noteRead a n with clusters := s.clusters } = s := by
  unfold State.noteRead; split
  · exact s.noteErr_rest _ _ _
  · rfl

theorem State.hide_rest (a : Nat) (l : List Byte) : { s.hide a l with hid := s.hid } = s := by
  unfold State.hide; dsimp only; split <;> rfl

theorem State.clearChk_rest (a n : Nat) : { s.clearChk a n with errs := s.errs } = s := by
  unfold State.clearChk; split <;> rfl

@[simp] theorem State.hide_clusters (a : Nat) (l : List Byte) : (s.hide a l).clusters = s.clusters := by
  have h := congrArg State.clusters (s.hide_rest a l); exact h
@[simp] theorem State.poke_clusters (a : Nat) (l : List Byte) : (s.poke a l).clusters = s.clusters := by
  have h := congrArg State.clusters (s.poke_rest a l); exact h
@[simp] theorem State.clearErrs_clusters (a n : Nat) : (s.clearErrs a n).clusters = s.clusters := rfl
@[simp] theorem State.clearChk_clusters (a n : Nat) : (s.clearChk a n).clusters = s.clusters := by
  have h := congrArg State.clusters (s.clearChk_rest a n); exact h

/-- What a write notes is an error in a word that it reads (R262). -/
theorem State.noteWrite_cases (a n : Nat) : s.noteWrite a n = s ∨
    isVault a = true ∧ ∃ i ∈ writeReads a n, s.noteWrite a n = s.noteErr false (8 * i) 8 := by
  unfold State.noteWrite
  split
  next h =>
    split
    next i hi => exact .inr ⟨(Bool.and_eq_true_iff.1 h).1, i, List.mem_of_find?_eq_some hi, rfl⟩
    next => exact .inl rfl
  next => exact .inl rfl

theorem State.noteWrite_rest (a n : Nat) : { s.noteWrite a n with clusters := s.clusters } = s := by
  obtain h | ⟨-, i, -, h⟩ := s.noteWrite_cases a n <;> rw [h]
  exact s.noteErr_rest _ _ _

/-- Of a cluster a write notes its error in VERR and nothing else. -/
theorem State.cluster_noteWrite (a n cl : Nat) :
    (s.noteWrite a n).cluster cl = { s.cluster cl with verr := ((s.noteWrite a n).cluster cl).verr } := by
  obtain h | ⟨-, i, -, h⟩ := s.noteWrite_cases a n <;> rw [h]
  rw [State.cluster_noteErr]; split <;> rfl

/-- The units of a range lie between those of its first and of its last byte. -/
theorem mem_unitsOf {u a n i : Nat} (h : i ∈ unitsOf u a n) : n ≠ 0 ∧ a / u ≤ i ∧ i ≤ (a + n - 1) / u := by
  unfold unitsOf at h
  split at h
  next => exact absurd h List.not_mem_nil
  next hn =>
    obtain ⟨j, hj, rfl⟩ := List.mem_map.1 h
    have := List.mem_range.1 hj
    have := Nat.div_le_div_right (c := u) (show a ≤ a + n - 1 by omega)
    exact ⟨hn, by omega, by omega⟩

/-- A word that a write reads lies in a stripe that the write touches and does not cover. -/
theorem mem_writeReads {a n w : Nat} (h : w ∈ writeReads a n) :
    n ≠ 0 ∧ a / 256 ≤ w / 32 ∧ w / 32 ≤ (a + n - 1) / 256 ∧ ¬ (a ≤ 256 * (w / 32) ∧ 256 * (w / 32) + 256 ≤ a + n) := by
  obtain ⟨i, hi, hw⟩ := List.mem_flatMap.1 h
  obtain ⟨hn, hlo, hhi⟩ := mem_unitsOf hi
  split at hw
  next => exact absurd hw List.not_mem_nil
  next hc =>
    obtain ⟨hw, -⟩ := List.mem_filter.1 hw
    obtain ⟨j, hj, rfl⟩ := List.mem_map.1 hw
    have hj := List.mem_range.1 hj
    have hi : (32 * i + j) / 32 = i := by omega
    rw [hi]
    exact ⟨hn, hlo, hhi, by simpa using hc⟩

/-- The state with the memory of `s`, its errors and its clusters. -/
def State.withMemoryOf (t s : State) : State := { t with mem := s.mem, errs := s.errs, hid := s.hid, clusters := s.clusters }

/-- A write leaves everything but memory, its errors and the clusters as it was. -/
theorem State.write_rest (a : Nat) (l : List Byte) : (s.write a l).withMemoryOf s = s :=
  let noted := s.noteWrite a l.length
  let hidden := noted.hide a l
  let stored := hidden.poke a l
  calc (s.write a l).withMemoryOf s
    _ = ((stored.clearErrs a l.length).clearChk a l.length).withMemoryOf s := rfl
    _ = (stored.clearErrs a l.length).withMemoryOf s := congrArg (·.withMemoryOf s) (State.clearChk_rest _ a l.length)
    _ = stored.withMemoryOf s := rfl
    _ = hidden.withMemoryOf s := congrArg (·.withMemoryOf s) (hidden.poke_rest a l)
    _ = noted.withMemoryOf s := congrArg (·.withMemoryOf s) (noted.hide_rest a l)
    _ = s := congrArg (·.withMemoryOf s) (s.noteWrite_rest a l.length)

/-- A write reaches the clusters by what it notes and by the monitors that it fires. -/
theorem State.cluster_write (a : Nat) (l : List Byte) (cl : Nat) : (s.write a l).cluster cl =
    { s.cluster cl with
      ctx := tmap {} (fun _ x => x.fireMon a l.length) (s.cluster cl).ctx
      verr := ((s.noteWrite a l.length).cluster cl).verr } := by
  have h : (s.write a l).cluster cl = { (s.noteWrite a l.length).cluster cl with
      ctx := tmap {} (fun _ x => x.fireMon a l.length) ((s.noteWrite a l.length).cluster cl).ctx } := by
    rw [State.write, State.cluster_fireMons]; simp [State.cluster]
  rw [h, s.cluster_noteWrite a l.length cl]

/-- The error that a write notes is a corrected one, in the cluster of its first byte, and the write is one of a part of a
stripe, where its bytes lie in one cluster (R262, R263). -/
theorem State.verr_noteWrite (a n cl : Nat) (h : isVault a = true → (a + n - 1) / 2 ^ 25 = a / 2 ^ 25) :
    ((s.noteWrite a n).cluster cl).verr = (s.cluster cl).verr ∨ ∃ bank stripe, cl = a / 2 ^ 25 ∧
      (a % 256 ≠ 0 ∨ n % 256 ≠ 0) ∧
      ((s.noteWrite a n).cluster cl).verr = verrRecord (s.cluster cl).verr false bank stripe := by
  obtain hw | ⟨hv, i, hi, hw⟩ := s.noteWrite_cases a n <;> rw [hw]
  · exact .inl rfl
  · rw [State.cluster_noteErr]
    split
    next hc =>
      obtain ⟨pos, lo, hi, part⟩ := mem_writeReads hi
      have one := h hv
      have cl_eq : cl = 8 * i / 2 ^ 25 := hc.2
      exact .inr ⟨_, _, by omega, by omega, rfl⟩
    next => exact .inl rfl

theorem State.ctx_write (a : Nat) (l : List Byte) (cl k : Nat) : (s.write a l).ctx cl k = (s.ctx cl k).fireMon a l.length := by
  rw [State.ctx, State.cluster_write]
  exact tget_tmap ({} : CueCtx) (fun _ x => x.fireMon a l.length) (fun _ => rfl) (s.cluster cl).ctx k

/-- A write of bytes that, in a vault, lie in one cluster is performed as `Stores` says. -/
theorem stores_write (a : Nat) (l : List Byte) (h : isVault a = true → (a + l.length - 1) / 2 ^ 25 = a / 2 ^ 25) :
    Stores s (s.write a l) a l where
  inside i hi := by rw [State.write_byte, State.byte_poke_in]
  before b hb := by rw [State.write_byte, State.byte_poke_before s hb]
  after b hb := by rw [State.write_byte, State.byte_poke_after s hb]
  contexts cl k := by
    rw [State.ctx_write]; simp [CueCtx.fireMon, overlaps]
  shared cl := by
    rw [State.cluster_write]
  noted cl := by
    rw [State.cluster_write]; exact s.verr_noteWrite a l.length cl h
  rest := s.write_rest a l

/-! ### Takes stay as they were (R331 to R333) -/

@[simp] theorem State.write_takes (a : Nat) (l : List Byte) : (s.write a l).takes = s.takes := by
  have h := congrArg State.takes (s.write_rest a l); exact h

theorem State.refWrite_takes (f : Nat) (r : Word) (o : Nat) (l : List Byte) : (s.refWrite f r o l).takes = s.takes := by
  unfold State.refWrite
  induction s.refRuns f r o l.length generalizing s l with
  | nil => rfl
  | cons x rest ih => exact (ih _ _).trans (s.write_takes _ _)

theorem State.msix_takes (f v : Nat) : (s.msix f v).takes = s.takes := by
  unfold State.msix; split
  · rfl
  · split <;> rfl

theorem State.event_takes (f : Nat) (w0 w1 w2 : Word) : (s.event f w0 w1 w2).takes = s.takes := by
  unfold State.event; simp only
  split
  · rfl
  · split
    · rfl
    · split
      · rfl
      · rw [State.msix_takes, State.updFn_takes, State.refWrite_takes]

theorem State.elog_takes (d cl t : Nat) (i : Word) : (s.elog d cl t i).takes = s.takes := by
  unfold State.elog; simp only
  split
  · rfl
  · split
    · rfl
    · rw [State.updDie_takes, State.refWrite_takes]

theorem State.ueEvent_takes (cl t : Nat) (i : Word) : (s.ueEvent cl t i).takes = s.takes := by
  unfold State.ueEvent; split
  · exact State.event_takes s _ _ _ _
  · rfl

/-- The detection of an uncorrectable error changes no take. -/
theorem State.uncorrectable_takes (a n cl t : Nat) : (s.uncorrectable a n cl t).takes = s.takes := by
  rw [State.uncorrectable, State.detectUe, State.ueEvent_takes, State.elog_takes, State.errorIrq, State.emit_takes]
  have h := congrArg State.takes (s.noteErr_rest true a n); exact h

/-! ### Functions -/

theorem OnlyFn.refl (n : Nat) : OnlyFn s s n (s.fn n) := ⟨rfl, fun _ _ => rfl, rfl⟩

theorem OnlyFn.trans {s t u : State} {n : Nat} {f g : Fn} (h : OnlyFn s t n f) (k : OnlyFn t u n g) : OnlyFn s u n g where
  fn := k.fn
  others j hj := (k.others j hj).trans (h.others j hj)
  rest := by
    have h := h.rest; have k := k.rest
    rw [← k] at h; exact h

theorem onlyFn_updFn (n : Nat) (g : Fn → Fn) : OnlyFn s (s.updFn n g) n (g (s.fn n)) :=
  ⟨s.fn_updFn_same n g, fun _ hj => s.fn_updFn_other hj g, rfl⟩

end

section
variable (v : Word)

/-! ### Bits of a register -/

theorem bits_31_0 : bits v 31 0 = v.toNat % 2 ^ 32 := by simp [bits]
theorem bits_63_62 : bits v 63 62 = v.toNat / 2 ^ 62 := by
  have := v.isLt
  exact Nat.mod_eq_of_lt (by omega)
theorem bit_62 : bit v 62 = decide (v.toNat / 2 ^ 62 % 2 = 1) := by
  rw [bit, ← BitVec.testBit_toNat, Nat.testBit_eq_decide_div_mod_eq]
theorem bit_63 : bit v 63 = decide (2 ^ 63 ≤ v.toNat) := by
  have := v.isLt
  rw [bit, ← BitVec.testBit_toNat, Nat.testBit_eq_decide_div_mod_eq]
  exact decide_eq_decide.2 (by omega)

end

section
variable (s : State) {fn : Nat} (v : Word) (fw : Bool)

/-! ### The blocks of BAR0 (R386) -/

theorem isFunction_iff : isFunction fn = true ↔ fn < 64 ∧ fn % 32 < 16 := by simp [isFunction]
theorem isPhysical_iff : isPhysical fn = true ↔ isFunction fn = true ∧ fn % 32 = 0 := by simp [isPhysical]

theorem registerWrite_noFunction (hf : isFunction fn = false) (off : Nat) (d : RegData) :
    exec (.registerWrite fn off d fw) s = .next s := by
  change execRegisterWrite fn off d fw s = _
  simp [execRegisterWrite, hf]

/-- R332: TAKECTL ignores a write narrower than 64 bits. -/
theorem registerWrite_takectl_narrow {off : Nat} {d : RegData} (h : off / 8 * 8 = 0x220) (hd : d.n < 8) :
    exec (.registerWrite fn off d fw) s = .next s := by
  change execRegisterWrite fn off d fw s = _
  simp [execRegisterWrite, h, Nat.not_le.2 hd]

/-- A write of 64 bits reaches the block of its offset. -/
theorem registerWrite_word (hf : isFunction fn = true) (off : Nat) :
    exec (.registerWrite fn off ⟨8, v⟩ fw) s = s.barWrite fn off v fw := by
  change execRegisterWrite fn off ⟨8, v⟩ fw s = _
  simp [execRegisterWrite, hf]

theorem registerWrite_own {off : Nat} (hf : isFunction fn = true) (h : off < 0x10000) :
    exec (.registerWrite fn off ⟨8, v⟩ fw) s = s.ownWrite fn off v fw := by
  rw [registerWrite_word s v fw hf]; simp [State.barWrite, h]

/-- A virtual function reaches no block beyond its own. -/
theorem registerWrite_virtual {off : Nat} (hf : isFunction fn = true) (hv : fn % 32 ≠ 0) (h : 0x10000 ≤ off) :
    exec (.registerWrite fn off ⟨8, v⟩ fw) s = .next s := by
  rw [registerWrite_word s v fw hf]
  have hp : isPhysical fn = false := Bool.eq_false_iff.2 fun hp => hv (isPhysical_iff.1 hp).2
  simp [State.barWrite, hp, Nat.not_lt.2 h]

section
variable (hp : isPhysical fn = true)
include hp

theorem registerWrite_stage {off d o : Nat} (h : off = 0x20000 + 0x10000 * d + o) (hd : d < 4) (ho : o < 0x10000) :
    exec (.registerWrite fn off ⟨8, v⟩ fw) s = s.stageWrite d fn o v fw := by
  have die : (off - 0x20000) / 0x10000 = d := by omega
  have place : off % 0x10000 = o := by omega
  rw [registerWrite_word s v fw (isPhysical_iff.1 hp).1]
  simp only [State.barWrite, hp, die, place]
  rw [if_neg (by omega), if_neg (by simp), if_neg (by omega), if_pos (by omega)]

theorem registerWrite_power {o : Nat} (ho : o < 0x10000) :
    exec (.registerWrite fn (0x60000 + o) ⟨8, v⟩ fw) s = s.powerWrite o v := by
  rw [registerWrite_word s v fw (isPhysical_iff.1 hp).1]
  simp only [State.barWrite, hp, Nat.add_sub_cancel_left]
  rw [if_neg (by omega), if_neg (by simp), if_neg (by omega), if_neg (by omega), if_pos (by omega)]

theorem registerWrite_silvis {off o : Nat} (h : off = 0x100000 + o) (ho : o < 0x10000) :
    exec (.registerWrite fn off ⟨8, v⟩ fw) s = s.silvisWrite o v fw := by
  subst h
  rw [registerWrite_word s v fw (isPhysical_iff.1 hp).1]
  simp only [State.barWrite, hp, Nat.add_sub_cancel_left]
  rw [if_neg (by omega), if_neg (by simp), if_neg (by omega), if_neg (by omega), if_neg (by omega), if_neg (by omega),
    if_neg (by omega), if_pos (by omega)]

theorem registerWrite_cluster {off c o : Nat} (h : off = 0x1000000 + 0x10000 * c + o) (hc : c < 256) (ho : o < 0x10000) :
    exec (.registerWrite fn off ⟨8, v⟩ fw) s = s.clusterWrite c o v fw := by
  have cluster : (off - 0x1000000) / 0x10000 = c := by omega
  have place : off % 0x10000 = o := by omega
  rw [registerWrite_word s v fw (isPhysical_iff.1 hp).1]
  simp only [State.barWrite, hp, cluster, place]
  rw [if_neg (by omega), if_neg (by simp), if_neg (by omega), if_neg (by omega), if_neg (by omega), if_neg (by omega),
    if_neg (by omega), if_neg (by omega), if_neg (by omega), if_pos (by omega)]

end

/-! ### What a block does with a write -/

/-- A register that the function owns. -/
theorem goes_updFn {o : Out} {n : Nat} {g : Fn → Fn} {f : Fn} (h : o = .next (s.updFn n g)) (hg : g (s.fn n) = f) :
    Goes o fun u => OnlyFn s u n f := by
  subst h hg; exact Goes.next (onlyFn_updFn s n g)

theorem takectlWrite_resume (h : v.toNat / 2 ^ 62 = 1) : s.takectlWrite fn v = exec (.takectlResume fn (v.toNat % 2 ^ 32)) s := by
  rw [State.takectlWrite, bits_63_62, bits_31_0, h]; rfl
theorem takectlWrite_abort (h : v.toNat / 2 ^ 62 = 2) : s.takectlWrite fn v = exec (.takectlAbort fn (v.toNat % 2 ^ 32)) s := by
  rw [State.takectlWrite, bits_63_62, bits_31_0, h]; rfl
theorem takectlWrite_ignored (h : v.toNat / 2 ^ 62 = 0 ∨ v.toNat / 2 ^ 62 = 3) : s.takectlWrite fn v = .next s := by
  rw [State.takectlWrite, bits_63_62]; obtain h | h := h <;> rw [h] <;> rfl

theorem ownWrite_cancel : s.ownWrite fn 0x008 v fw = exec (.cancel fn (v.toNat % 2 ^ 32)) s := by rw [← bits_31_0]; rfl
theorem ownWrite_frel : s.ownWrite fn 0x228 v fw = exec (.frel fn (v.toNat % 2 ^ 32)) s := by rw [← bits_31_0]; rfl

theorem ownWrite_badw : s.ownWrite fn 0x018 v fw =
    .next (s.updFn fn fun f => if 2 ^ 63 ≤ v.toNat then { f with badw := false } else f) := by
  change Host.Outcome.next (s.updFn fn fun f => if bit v 63 then { f with badw := false } else f) = _
  simp only [bit_63, decide_eq_true_eq]
theorem ownWrite_lost : s.ownWrite fn 0x230 v fw =
    .next (s.updFn fn fun f => if 2 ^ 63 ≤ v.toNat then { f with lost := false, lcnt := 0 } else f) := by
  change Host.Outcome.next (s.updFn fn fun f => f.clearLost v) = _
  simp only [Fn.clearLost, bit_63, decide_eq_true_eq]
theorem ownWrite_evring : s.ownWrite fn 0x208 v fw = .next (s.updFn fn fun f =>
    { f with esz := .ofNat 4 (min 8 (v.toNat / 2 ^ 32 % 16)), evvec := .ofNat 16 v.toNat }) := by
  rw [BitVec.ofNat_toNat]; rfl

/-- Registers that are read-only, and offsets of a function's own blocks that no table lists. -/
theorem ownWrite_ignored {off : Nat} (h : off ∈ [0x010, 0x108, 0x210, 0x300, 0x320, 0x2000, 0x400, 0x3000]) :
    s.ownWrite fn off v fw = .next s := by
  simp only [List.mem_cons, List.not_mem_nil, or_false] at h
  obtain rfl | rfl | rfl | rfl | rfl | rfl | rfl | rfl := h <;> rfl

section
variable (hp : isPhysical fn = true)
include hp

theorem registerWrite_vreq {d i : Nat} (hd : d < 4) (hi : i < 32) :
    exec (.registerWrite fn (0x20200 + 0x10000 * d + 8 * i) ⟨8, v⟩ fw) s = exec (.vreqWrite (32 * d + i) v) s := by
  refine (registerWrite_stage s v fw hp (o := 0x200 + 8 * i) (by omega) hd (by omega)).trans ?_
  have pair : (0x200 + 8 * i - 0x200) / 8 = i := by omega
  rw [State.stageWrite, if_neg (by omega), if_neg (by simp; omega), if_pos (by simp; omega), pair]
  rfl

/-- The base of the error log is firmware's. -/
theorem registerWrite_elogbase_host {d : Nat} (hd : d < 4) :
    exec (.registerWrite fn (0x20010 + 0x10000 * d) ⟨8, v⟩ false) s = .next s :=
  registerWrite_stage s v false hp (o := 0x010) (by omega) hd (by decide)

theorem registerWrite_pkglim : exec (.registerWrite fn 0x60000 ⟨8, v⟩ fw) s =
    .next { s with pkglim := .ofNat 16 (min 1800 (v.toNat % 2 ^ 16)) } := by
  have low : bits v 15 0 = v.toNat % 2 ^ 16 := by simp [bits]
  rw [← low]
  exact registerWrite_power s v fw hp (o := 0) (by decide)

theorem registerWrite_vbfail {c : Nat} (hc : c < 256) : exec (.registerWrite fn (0x1000508 + 0x10000 * c) ⟨8, v⟩ fw) s =
    if fw then exec (.vbfailWrite c v) s else .next s :=
  registerWrite_cluster s v fw hp (o := 0x508) (by omega) hc (by decide)

theorem registerWrite_svrt {i : Nat} (hi : i < 4096) :
    exec (.registerWrite fn (0x108000 + 8 * i) ⟨8, v⟩ true) s = exec (.svrtWrite i v) s := by
  refine (registerWrite_silvis s v true hp (o := 0x8000 + 8 * i) (by omega) (by omega)).trans ?_
  have entry : (0x8000 + 8 * i - 0x8000) / 8 = i := by omega
  rw [State.silvisWrite, if_neg (by omega), if_neg (by omega), if_neg (by simp; omega), if_neg (by omega), if_neg (by omega),
    if_neg (by simp; omega), if_pos (by simp; omega), if_pos rfl, entry]
  rfl

/-- A write of SVCTL whose bit 62 is 0 sets or clears EN. -/
theorem registerWrite_svctl {p : Nat} (hp48 : p < 48) (h : v.toNat / 2 ^ 62 % 2 = 0) :
    exec (.registerWrite fn (0x100800 + 8 * p) ⟨8, v⟩ true) s = exec (.svctlEn p (decide (2 ^ 63 ≤ v.toNat))) s := by
  refine (registerWrite_silvis s v true hp (o := 0x800 + 8 * p) (by omega) (by omega)).trans ?_
  have port : (0x800 + 8 * p - 0x800) / 8 = p := by omega
  have keeps : bit v 62 = false := by rw [bit_62, h]; rfl
  change _ = execSvctlEn p (decide (2 ^ 63 ≤ v.toNat)) s
  rw [State.silvisWrite, if_neg (by omega), if_neg (by omega), if_neg (by simp; omega), if_neg (by omega), if_neg (by omega),
    if_pos (by simp; omega), if_pos rfl, port, State.svctlWrite, bit_63, keeps]
  cases execSvctlEn p (decide (2 ^ 63 ≤ v.toNat)) s <;> rfl

/-- SVCTL and the routes are firmware's. -/
theorem registerWrite_silvis_host {off : Nat} (lo : 0x100800 ≤ off) (hi : off < 0x110000) :
    exec (.registerWrite fn off ⟨8, v⟩ false) s = .next s := by
  refine (registerWrite_silvis s v false hp (o := off - 0x100000) (by omega) (by omega)).trans ?_
  unfold State.silvisWrite
  split
  · rfl
  · rw [if_neg (by omega), if_neg (by simp; omega), if_neg (by omega), if_neg (by omega)]
    simp

end

/-! ### The BAR registers (R361) -/

theorem barKind_barRegWrite (i j : Nat) (w : BitVec 32) : (s.barRegWrite fn i w).barKind fn j = s.barKind fn j := by
  unfold State.barRegWrite
  split
  · simp [State.barKind]
  · rfl

theorem barReg_unused {i : Nat} (h : s.barKind fn (i / 2 * 2) = none) : s.barReg fn i = 0 := by rw [State.barReg, h]

theorem barKind_beyond {j : Nat} (h : 4 ≤ j) : s.barKind fn j = none := by
  unfold State.barKind
  split
  · rfl
  · rw [if_neg (by omega), if_neg (by simp; omega)]
theorem barKind_noPool (h : (s.fn fn).psz.toNat < 30) : s.barKind fn 2 = none := by
  simp [State.barKind, h]

/-- The lower half of an address, cut to its BAR's size. -/
theorem setWidth_address (hi lo : BitVec 32) (n : Nat) :
    ((hi ++ lo) &&& ~~~ BitVec.ofNat 64 n).setWidth 32 = lo &&& ~~~ BitVec.ofNat 32 n := by
  rw [BitVec.setWidth_and, BitVec.setWidth_not (by decide), BitVec.setWidth_ofNat_of_le (by decide),
    BitVec.setWidth_append_eq_right]

/-- What BAR0's lower register reads after a write: the address bits above the size, and the type of a 64-bit BAR. -/
theorem barReg_written (hf : isFunction fn = true) (w : BitVec 32) : (s.barRegWrite fn 0 w).barReg fn 0 =
    (w &&& ~~~ .ofNat 32 ((if fn % 32 = 0 then 2 ^ 26 else 2 ^ 16) - 1)) ||| 4 := by
  have size : (if isPhysical fn = true then 2 ^ 26 else 2 ^ 16) = if fn % 32 = 0 then 2 ^ 26 else 2 ^ 16 := by
    simp [isPhysical, hf]
  have kind : s.barKind fn 0 = some (if fn % 32 = 0 then 2 ^ 26 else 2 ^ 16, false) := by
    rw [State.barKind, hf, ← size]; rfl
  have held : tget 0 ((s.barRegWrite fn 0 w).fn fn).bars 0 = w := by
    simp [State.barRegWrite, kind]
  have read : (s.barRegWrite fn 0 w).barReg fn 0 =
      ((tget 0 ((s.barRegWrite fn 0 w).fn fn).bars 1 ++ tget 0 ((s.barRegWrite fn 0 w).fn fn).bars 0) &&&
        ~~~ BitVec.ofNat 64 ((if fn % 32 = 0 then 2 ^ 26 else 2 ^ 16) - 1)).setWidth 32 ||| 4 := by
    rw [State.barReg, barKind_barRegWrite, kind]; exact BitVec.or_zero
  rw [read, setWidth_address, held]

/-! ### The window (R361, R362, R366) -/

theorem isVault_hbmKey (stack off : Nat) : isVault (hbmKey stack off) = false :=
  decide_eq_false (by unfold hbmKey; omega)

/-- A function's pool lies in HBM. -/
theorem poolKey_not_vault {f : Fn} {o a : Nat} (h : f.poolKey o = some a) : isVault a = false := by
  unfold Fn.poolKey at h
  split at h
  · cases h
  · dsimp only at h
    split at h
    · cases h; exact isVault_hbmKey _ _
    · cases h

theorem poolRuns_not_vault {f : Fn} {o n k : Nat} {x : Nat × Nat} (h : x ∈ f.poolRuns o n k) : isVault x.1 = false := by
  induction k generalizing o n with
  | zero => exact absurd h List.not_mem_nil
  | succ k ih =>
    unfold Fn.poolRuns at h
    dsimp only at h
    split at h
    next a ha =>
      have first : isVault a = false := poolKey_not_vault ha
      split at h
      · obtain rfl | h := List.mem_cons.1 h
        · exact first
        · exact ih h
      · obtain rfl := List.mem_singleton.1 h
        exact first
    next => exact absurd h List.not_mem_nil

theorem windowRuns_not_vault {off n : Nat} {l : List (Nat × Nat)} (h : s.windowRuns fn off n = some l) :
    ∀ x ∈ l, isVault x.1 = false := by
  unfold State.windowRuns at h
  dsimp only at h
  split at h
  · cases h; exact fun x hx => poolRuns_not_vault hx
  · cases h

theorem windowWrite_outside {off : Nat} {b : List Byte} (h : s.windowRuns fn off b.length = none) :
    exec (.windowWrite fn off b) s = .next (s.emit (.unsupported fn)) := by
  change execWindowWrite fn off b s = _
  rw [execWindowWrite, h]

theorem windowWrite_stores {off a : Nat} {b : List Byte} (h : s.windowRuns fn off b.length = some [(a, b.length)])
    (hb : s.writeBad a b.length = false) : Goes (exec (.windowWrite fn off b) s) fun u => Stores s u a b := by
  have hv : isVault a = false := windowRuns_not_vault s h _ (List.mem_singleton.2 rfl)
  refine ⟨s.write a b, ?_, stores_write s a b fun h => absurd h (by simp [hv])⟩
  change execWindowWrite fn off b s = _
  simp [execWindowWrite, h, State.writeRuns, State.tryWrite, hb]

theorem windowRead_outside {off n : Nat} (h : s.windowRuns fn off n = none) :
    exec (.windowRead fn off n) s = .next (s.emit (.unsupported fn)) := by
  change execWindowRead fn off n s = _
  rw [execWindowRead, h]

theorem windowRead_data {off n a : Nat} (h : s.windowRuns fn off n = some [(a, n)]) (hb : s.readBad a n = false) :
    exec (.windowRead fn off n) s = .next ((s.noteRead a n).emit (.readData fn (s.peek a n))) := by
  change execWindowRead fn off n s = _
  simp [execWindowRead, h, State.readRuns, hb]

theorem windowRead_abort {off n a : Nat} (h : s.windowRuns fn off n = some [(a, n)]) (hb : s.readBad a n = true) :
    exec (.windowRead fn off n) s = .next ((s.uncorrectable a n 0 0).emit (.readAbort fn)) := by
  change execWindowRead fn off n s = _
  simp [execWindowRead, h, State.readRuns, hb]

/-! ### MSI-X (R365) -/

theorem msixUnmask_eq {vec : Nat} (h : vec < 64) : exec (.msixUnmask fn vec) s = .next (s.msixMaskWrite fn vec false) := by
  change execMsixUnmask fn vec s = _
  rw [execMsixUnmask, if_pos h]

theorem msixUnmask_quiet {vec : Nat} (h : (s.fn fn).msixPend.getLsbD vec = false) :
    s.msixMaskWrite fn vec false = s.updFn fn fun f => { f with msixMask := setBit f.msixMask vec false } := by
  simp [State.msixMaskWrite, maskBit, h]
theorem msixUnmask_pending {vec : Nat} (h : (s.fn fn).msixPend.getLsbD vec = true) :
    s.msixMaskWrite fn vec false = ((s.updFn fn fun f => { f with msixMask := setBit f.msixMask vec false }).updFn fn
      fun f => { f with msixPend := setBit f.msixPend vec false }).emit (.msix fn vec) := by
  simp [State.msixMaskWrite, maskBit, h]

/-- Unmasking a vector that is not pending, and one that is. -/
theorem msixUnmask_goes {vec : Nat} (hvec : vec < 64) :
    let f := s.fn fn; let x : Fn := { f with msixMask := setBit f.msixMask vec false }
    (f.msixPend.getLsbD vec = false → Goes (exec (.msixUnmask fn vec) s) fun u => OnlyFn s u fn x) ∧
    (f.msixPend.getLsbD vec = true → Goes (exec (.msixUnmask fn vec) s) fun u => ∃ y,
      OnlyFn s y fn { x with msixPend := setBit f.msixPend vec false } ∧ u = y.emit (.msix fn vec)) := by
  dsimp only
  rw [msixUnmask_eq s hvec]
  constructor <;> intro h
  · rw [msixUnmask_quiet s h]
    exact Goes.next (onlyFn_updFn s fn _)
  · rw [msixUnmask_pending s h]
    let unmasked := s.updFn fn fun f => { f with msixMask := setBit f.msixMask vec false }
    have sent := (onlyFn_updFn s fn _).trans (onlyFn_updFn unmasked fn fun f => { f with msixPend := setBit f.msixPend vec false })
    rw [State.fn_updFn_same] at sent
    exact Goes.next ⟨_, sent, rfl⟩

end

/-- Settles O59: a write of a register by the block that its offset lies in, the window by the runs of the function's pool. -/
theorem hostAccess : Obligations.HostAccess := by
  intro s fn v fw f n low go same becomes
  refine ⟨?noFunction, ?narrow, ?bars, ?registers, ?windowWrite, ?windowRead, fun _ _ => rfl,
    fun vec hvec => msixUnmask_goes s hvec⟩
  case noFunction =>
    intro h off
    exact registerWrite_noFunction s fw (Bool.eq_false_iff.2 fun hf => h (isFunction_iff.1 hf)) off _
  case narrow =>
    intro off k lo hi hk
    exact registerWrite_takectl_narrow s fw (by omega) hk
  case bars =>
    intro hfn hslot
    refine ⟨barReg_written s (isFunction_iff.2 ⟨hfn, hslot⟩) _, fun i hi => barReg_unused _ (barKind_beyond _ (by omega)),
      fun hz => ?_⟩
    have noPool : (s.barRegWrite fn 0 (v.setWidth 32)).barKind fn 2 = none := by
      rw [barKind_barRegWrite]; exact barKind_noPool s hz
    exact ⟨barReg_unused _ noPool, barReg_unused _ noPool⟩
  case registers =>
    intro hfn hslot
    have hf : isFunction fn = true := isFunction_iff.2 ⟨hfn, hslot⟩
    have own {off : Nat} (h : off < 0x10000) : go off = s.ownWrite fn off v fw := registerWrite_own s v fw hf h
    refine ⟨own (by decide), (own (by decide)).trans (ownWrite_cancel s v fw), (own (by decide)).trans (ownWrite_frel s v fw),
      fun h => (own (by decide)).trans (takectlWrite_resume s v h), fun h => (own (by decide)).trans (takectlWrite_abort s v h),
      fun h => (own (by decide)).trans (takectlWrite_ignored s v h), ?badw, ?lslim, ?evbase, ?evring, ?evtail, ?lost, ?ignored,
      fun hv off => registerWrite_virtual s v fw hf hv, ?physical⟩
    case badw => exact goes_updFn s ((own (by decide)).trans (ownWrite_badw s v fw)) rfl
    case lslim =>
      cases fw with
      | false => exact ⟨s, own (by decide), OnlyFn.refl s fn⟩
      | true => exact goes_updFn s (own (by decide)) (by rw [BitVec.ofNat_toNat]; rfl)
    case evbase => exact goes_updFn s (own (by decide)) rfl
    case evring => exact goes_updFn s ((own (by decide)).trans (ownWrite_evring s v fw)) rfl
    case evtail => exact goes_updFn s (own (by decide)) (by rw [BitVec.ofNat_toNat])
    case lost => exact goes_updFn s ((own (by decide)).trans (ownWrite_lost s v fw)) rfl
    case ignored =>
      intro off h
      have inOwn : ∀ x ∈ [0x010, 0x108, 0x210, 0x300, 0x320, 0x2000, 0x400, 0x3000], x < 0x10000 := by decide
      exact (own (inOwn off h)).trans (ownWrite_ignored s v fw h)
    case physical =>
      intro h0
      have hp : isPhysical fn = true := isPhysical_iff.2 ⟨hf, h0⟩
      have verr {c : Nat} (hc : c < 256) : same (0x1000500 + 0x10000 * c) (.verrClear c v) :=
        registerWrite_cluster s v fw hp (o := 0x500) (by omega) hc (by decide)
      refine ⟨fun d hd => ⟨fun i hi => registerWrite_vreq s v fw hp hd hi, ?_⟩,
        registerWrite_power s v fw hp (o := 8) (by decide), ⟨_, registerWrite_pkglim s v fw hp, rfl⟩,
        fun c hc => ⟨verr hc, fun hfw => (registerWrite_vbfail s v fw hp hc).trans (if_pos hfw),
          fun hfw => (registerWrite_vbfail s v fw hp hc).trans (if_neg (by simp [hfw]))⟩, ?_, ?_, ?_⟩
      · rintro rfl
        exact registerWrite_elogbase_host s v hp hd
      · rintro rfl
        exact ⟨registerWrite_silvis s v true hp (o := 0) rfl (by decide), fun i hi => registerWrite_svrt s v hp hi⟩
      · rintro rfl p hp48 hn
        exact registerWrite_svctl s v hp hp48 hn
      · rintro rfl off lo hi
        exact registerWrite_silvis_host s v hp lo hi
  case windowWrite =>
    intro off bytes
    exact ⟨windowWrite_outside s, fun a => windowWrite_stores s⟩
  case windowRead =>
    intro off len
    refine ⟨windowRead_outside s, fun a h => ⟨fun hb => ?_, fun hb => ?_⟩⟩
    · refine ⟨_, windowRead_data s h hb, _, rfl, s.noteRead_rest a len, fun hc => ?_⟩
      simp [State.noteRead, hc]
    · exact ⟨_, windowRead_abort s h hb, _, s.uncorrectable_takes a len 0 0, rfl⟩

end Sys2Proof.Machine
end

section
/-! PROOFS. The encodings of R47 to R69 (O48, O49): the fields of each layout read back, every instruction's parcels decode to it,
every entry's word to the entry. (Widths stay sums, `-Nat.reduceAdd`: the lemmas about appended bits match on them.) -/

namespace Sys2Proof
open BitVec

/-! ### Fields of the layouts of one parcel (R61) -/

section
variable (fn : BitVec 9) (b a d : Reg) (major : BitVec 6) (len : BitVec 2) (imm : BitVec 14)

theorem fLen_c32r : fLen (c32r fn b a d major len) = len := by
  simp [fLen, fld, c32r, extractLsb'_append_eq_right, -Nat.reduceAdd]
theorem fMajor_c32r : fMajor (c32r fn b a d major len) = major := by
  simp [fMajor, fld, c32r, extractLsb'_append_eq_of_le, extractLsb'_append_eq_right, -Nat.reduceAdd]
theorem fD_c32r : fD (c32r fn b a d major len) = d := by
  simp [fD, fld, c32r, extractLsb'_append_eq_of_le, extractLsb'_append_eq_right, -Nat.reduceAdd]
theorem fA_c32r : fA (c32r fn b a d major len) = a := by
  simp [fA, fld, c32r, extractLsb'_append_eq_of_le, extractLsb'_append_eq_right, -Nat.reduceAdd]
theorem fB_c32r : fB (c32r fn b a d major len) = b := by
  simp [fB, fld, c32r, extractLsb'_append_eq_of_le, extractLsb'_append_eq_right, -Nat.reduceAdd]
theorem fFn_c32r : fFn (c32r fn b a d major len) = fn := by
  simp [fFn, fld, c32r, extractLsb'_append_eq_of_le, -Nat.reduceAdd]

theorem fLen_c32i : fLen (c32i imm a d major) = 0 := by
  simp [fLen, fld, c32i, extractLsb'_append_eq_right, -Nat.reduceAdd]
theorem fMajor_c32i : fMajor (c32i imm a d major) = major := by
  simp [fMajor, fld, c32i, extractLsb'_append_eq_of_le, extractLsb'_append_eq_right, -Nat.reduceAdd]
theorem fD_c32i : fD (c32i imm a d major) = d := by
  simp [fD, fld, c32i, extractLsb'_append_eq_of_le, extractLsb'_append_eq_right, -Nat.reduceAdd]
theorem fA_c32i : fA (c32i imm a d major) = a := by
  simp [fA, fld, c32i, extractLsb'_append_eq_of_le, extractLsb'_append_eq_right, -Nat.reduceAdd]
theorem fImm_c32i : fImm (c32i imm a d major) = imm := by
  simp [fImm, fld, c32i, extractLsb'_append_eq_of_le, -Nat.reduceAdd]

/-- A part of a field of a parcel. -/
theorem fld_within (p : Parcel) {lo n k m : Nat} (h : k + m ≤ n) : fld p (k + lo) m = (fld p lo n).extractLsb' k m := by
  refine eq_of_getLsbD_eq fun i hi => ?_
  have inside : k + i < n := by omega
  simp [fld, hi, inside, Nat.add_comm, Nat.add_left_comm]
theorem fld_c32r_fn {k n : Nat} (h : k + n ≤ 9) : fld (c32r fn b a d major len) (k + 23) n = fn.extractLsb' k n := by
  rw [fld_within _ h]; exact congrArg _ (fFn_c32r ..)
theorem fld_c32r_a {k n : Nat} (h : k + n ≤ 5) : fld (c32r fn b a d major len) (k + 13) n = a.extractLsb' k n := by
  rw [fld_within _ h]; exact congrArg _ (fA_c32r ..)

end

/-! ### Fields of the second parcel (R62) -/

section
variable (sc : BitVec 4) (m : MemOp) (w v : Reg)

theorem memOpOf_c64m (fn : BitVec 9) (d : Reg) (major : BitVec 6) (len : BitVec 2) :
    memOpOf (c32r fn m.c1 m.c0 d major len) (c64m sc m w v) = m := by
  rw [memOpOf, fA_c32r, fB_c32r]
  simp [fld, c64m, extractLsb'_append_eq_of_le, extractLsb'_append_eq_right, -Nat.reduceAdd]
theorem fld_c64m_v : fld (c64m sc m w v) 10 5 = v := by
  simp [fld, c64m, extractLsb'_append_eq_of_le, extractLsb'_append_eq_right, -Nat.reduceAdd]
theorem fld_c64m_w : fld (c64m sc m w v) 15 5 = w := by
  simp [fld, c64m, extractLsb'_append_eq_of_le, extractLsb'_append_eq_right, -Nat.reduceAdd]
theorem fld_c64m_scope : fld (c64m sc m w v) 26 4 = sc := by
  simp [fld, c64m, extractLsb'_append_eq_of_le, extractLsb'_append_eq_right, -Nat.reduceAdd]
theorem fld_c64m_top : fld (c64m sc m w v) 30 2 = 0 := by
  simp [fld, c64m, extractLsb'_append_eq_of_le, -Nat.reduceAdd]
/-- A form that names no register in the second parcel has both fields at 0. -/
theorem fld_c64m_noRegs : fld (c64m sc m 0#5 0#5) 10 10 = 0 :=
  (extractLsb'_append_extractLsb'_eq_extractLsb' (start₁ := 10) (len₁ := 5) rfl).symm.trans
    (congrArg₂ (· ++ ·) (fld_c64m_w sc m 0 0) (fld_c64m_v sc m 0 0))
/-- A form that names no scope has its field at 0. -/
theorem fld_c64m_noScope : fld (c64m 0#4 m w v) 26 6 = 0 :=
  (extractLsb'_append_extractLsb'_eq_extractLsb' (start₁ := 26) (len₁ := 4) rfl).symm.trans
    (congrArg₂ (· ++ ·) (fld_c64m_top 0 m w v) (fld_c64m_scope 0 m w v))

variable (src : Bool) (t : TileRow) (major : BitVec 6)

theorem fMajor_tileP0 : fMajor (tileP0 src t major) = major := fMajor_c32r ..
theorem fD_tileP0 : fD (tileP0 src t major) = 0 := fD_c32r ..
theorem fld_tileP0_src : fld (tileP0 src t major) 31 1 = BitVec.ofBool src := by
  rw [tileP0, fld_c32r_fn (k := 8) (h := by decide)]
  simp [extractLsb'_append_eq_of_le, -Nat.reduceAdd]
theorem fld_tileP0_zero : fld (tileP0 src t major) 17 1 = 0 := by
  rw [tileP0, fld_c32r_a (k := 4) (h := by decide)]
  simp [extractLsb'_append_eq_of_le, -Nat.reduceAdd]
theorem tileRowOf_c64t : tileRowOf (tileP0 src t major) (c64t t) = t := by
  have handle : fld (tileP0 src t major) 13 4 = t.h := by
    rw [tileP0, fld_c32r_a (k := 0) (h := by decide), extractLsb'_append_eq_right]
  have rows : fld (tileP0 src t major) 23 8 = t.rows := by
    rw [tileP0, fld_c32r_fn (k := 0) (h := by decide), extractLsb'_append_eq_right]
  have b : fB (tileP0 src t major) = t.b := fB_c32r ..
  rw [tileRowOf, handle, rows, b]
  simp [fld, c64t, extractLsb'_append_eq_of_le, extractLsb'_append_eq_right, -Nat.reduceAdd]

variable (pkg : BitVec 12) (cl : BitVec 8) (slot : BitVec 6) (z : BitVec 3)

theorem fld_c64z_pkg : fld (c64z pkg cl slot z) 20 12 = pkg := by
  simp [fld, c64z, extractLsb'_append_eq_of_le, -Nat.reduceAdd]
theorem fld_c64z_cl : fld (c64z pkg cl slot z) 12 8 = cl := by
  simp [fld, c64z, extractLsb'_append_eq_of_le, extractLsb'_append_eq_right, -Nat.reduceAdd]
theorem fld_c64z_slot : fld (c64z pkg cl slot z) 6 6 = slot := by
  simp [fld, c64z, extractLsb'_append_eq_of_le, extractLsb'_append_eq_right, -Nat.reduceAdd]
theorem fld_c64z_z : fld (c64z pkg cl slot z) 3 3 = z := by
  simp [fld, c64z, extractLsb'_append_eq_of_le, extractLsb'_append_eq_right, -Nat.reduceAdd]
theorem fld_c64z_low : fld (c64z pkg cl slot z) 0 3 = 0 := by
  simp [fld, c64z, extractLsb'_append_eq_right, -Nat.reduceAdd]
/-- ZONE.OPEN names only the zone. -/
theorem fld_c64z_onlyZone : fld (c64z 0#12 0#8 0#6 z) 6 26 = 0 := by
  simp [fld, c64z, extractLsb'_append_eq_of_le, -Nat.reduceAdd]

end

/-! ### Codes (R65, R68) -/

@[simp] theorem PCond.ofBits_bits (c : PCond) : PCond.ofBits c.bits = some c := by cases c <;> rfl
@[simp] theorem PICond.ofBits_bits (c : PICond) : PICond.ofBits c.bits = some c := by cases c <;> rfl
@[simp] theorem PlogOp.ofBits_bits (op : PlogOp) : PlogOp.ofBits op.bits = some op := by cases op <;> rfl
@[simp] theorem FenceKind.ofBits_bits (k : FenceKind) : FenceKind.ofBits k.bits = some k := by cases k <;> rfl
@[simp] theorem Path.ofBits_bits (q : Path) : Path.ofBits q.bits = some q := by cases q <;> rfl
@[simp] theorem Ord.ofBits_bits (o : Ord) : Ord.ofBits o.bits = some o := by cases o <;> rfl
@[simp] theorem Size.ofBits_bits (sz : Size) : Size.ofBits sz.bits = some sz := by cases sz <;> rfl
@[simp] theorem AmoOp.ofBits_bits (op : AmoOp) : AmoOp.ofBits op.bits = some op := by cases op <;> rfl
@[simp] theorem Scope.ofBits_bits (sc : Scope) : Scope.ofBits sc.bits = some sc := by cases sc <;> rfl
@[simp] theorem Node.ofBits_bits (n : Node) : Node.ofBits n.bits = some n := by cases n <;> rfl
@[simp] theorem ofBool_beq_one (b : Bool) : (BitVec.ofBool b == 1#1) = b := by cases b <;> rfl

@[simp] theorem withCode_some {α : Type} (x : α) (k : α → Decoded) : withCode (some x) k = k x := rfl
theorem accept_true {i : Instr} (h : i.wf = true) : accept true i = .ok i := by rw [accept, h]; rfl

/-! ### The memory forms (R67 to R69) -/

section
variable (m : MemOp) (d v w : Reg) (o : Ord) (u : Bool) (sz : Size) (op : AmoOp) (sc : Scope) (major : BitVec 6) (len : BitVec 2)

theorem ldFn_ord : (ldFn o u sz).extractLsb' 7 2 = o.bits := by
  simp [ldFn, extractLsb'_append_eq_of_le, -Nat.reduceAdd]
theorem ldFn_u : (ldFn o u sz).extractLsb' 6 1 = BitVec.ofBool u := by
  simp [ldFn, extractLsb'_append_eq_of_le, extractLsb'_append_eq_right, -Nat.reduceAdd]
theorem ldFn_size : (ldFn o u sz).extractLsb' 4 2 = sz.bits := by
  simp [ldFn, extractLsb'_append_eq_of_le, extractLsb'_append_eq_right, -Nat.reduceAdd]
theorem ldFn_low : (ldFn o u sz).extractLsb' 0 4 = 0 := extractLsb'_append_eq_right
/-- MARM has ORD and U at 0. -/
theorem ldFn_plain : (ldFn .plain false sz).extractLsb' 6 3 = 0 := by cases sz <;> rfl

theorem amoFn_ord : (amoFn o sz op).extractLsb' 7 2 = o.bits := by
  simp [amoFn, extractLsb'_append_eq_of_le, -Nat.reduceAdd]
theorem amoFn_zero : (amoFn o sz op).extractLsb' 6 1 = 0 := by
  simp [amoFn, extractLsb'_append_eq_of_le, extractLsb'_append_eq_right, -Nat.reduceAdd]
theorem amoFn_size : (amoFn o sz op).extractLsb' 4 2 = sz.bits := by
  simp [amoFn, extractLsb'_append_eq_of_le, extractLsb'_append_eq_right, -Nat.reduceAdd]
theorem amoFn_op : (amoFn o sz op).extractLsb' 0 4 = op.bits := extractLsb'_append_eq_right

theorem decodeLd_encoded (k : Reg → MemOp → Ord → Bool → Size → Scope → Instr) :
    decodeLd (c32r (ldFn o u sz) m.c1 m.c0 d major len) (c64m sc.bits m 0 0) k = accept true (k d m o u sz sc) := by
  simp [decodeLd, fD_c32r, fld_c32r_fn, ldFn_ord, ldFn_u, ldFn_size, ldFn_low, memOpOf_c64m, fld_c64m_scope, fld_c64m_top,
    fld_c64m_v, fld_c64m_w]
theorem decodeSt_encoded (k : MemOp → Reg → Ord → Size → Scope → Instr) :
    decodeSt (c32r (ldFn o false sz) m.c1 m.c0 0 major len) (c64m sc.bits m 0 v) k = accept true (k m v o sz sc) := by
  simp [decodeSt, fD_c32r, fld_c32r_fn, ldFn_ord, ldFn_u, ldFn_size, ldFn_low, memOpOf_c64m, fld_c64m_scope, fld_c64m_top,
    fld_c64m_v, fld_c64m_w]
theorem decodeAmo_encoded (k : Reg → MemOp → Reg → Reg → Ord → Size → AmoOp → Scope → Instr) :
    decodeAmo (c32r (amoFn o sz op) m.c1 m.c0 d major len) (c64m sc.bits m w v) k = accept true (k d m v w o sz op sc) := by
  simp [decodeAmo, fD_c32r, fld_c32r_fn, amoFn_ord, amoFn_zero, amoFn_size, amoFn_op, memOpOf_c64m, fld_c64m_scope,
    fld_c64m_top, fld_c64m_v, fld_c64m_w]
theorem decodeMarm_encoded (k : MemOp → Size → Instr) :
    decodeMarm (c32r (ldFn .plain false sz) m.c1 m.c0 0 major len) (c64m 0 m 0 0) k = accept true (k m sz) := by
  simp [decodeMarm, fD_c32r, fld_c32r_fn, ldFn_plain, ldFn_size, ldFn_low, memOpOf_c64m, fld_c64m_noRegs, fld_c64m_noScope]

end

/-! ### Every instruction's parcels decode to it -/

/-- The decoder reads the parcels as the instruction, and the length bits of the first are their number (R60). -/
def ReadsBack (ps : List Parcel) (i : Instr) : Prop :=
  parcelsOf (ps.getD 0 0) = ps.length ∧ decodeParcels (ps.getD 0 0) (ps.getD 1 0) (ps.getD 2 0) = .ok i

section
variable {fn : BitVec 9} {b a d : Reg} {major : BitVec 6} {imm : BitVec 14} {q r : Parcel} {i : Instr}

theorem readsBack_c32r (h : decode1 (c32r fn b a d major 0) = .ok i) : ReadsBack [c32r fn b a d major 0] i := by
  have one : parcelsOf (c32r fn b a d major 0) = 1 := by rw [parcelsOf, fLen_c32r]; rfl
  exact ⟨one, by rw [← h]; simp only [decodeParcels, List.getD_cons_zero, one]⟩
theorem readsBack_c32i (h : decode1 (c32i imm a d major) = .ok i) : ReadsBack [c32i imm a d major] i := by
  have one : parcelsOf (c32i imm a d major) = 1 := by rw [parcelsOf, fLen_c32i]; rfl
  exact ⟨one, by rw [← h]; simp only [decodeParcels, List.getD_cons_zero, one]⟩
theorem readsBack_two (h : decode2 (c32r fn b a d major 1) q = .ok i) : ReadsBack [c32r fn b a d major 1, q] i := by
  have two : parcelsOf (c32r fn b a d major 1) = 2 := by rw [parcelsOf, fLen_c32r]; rfl
  exact ⟨two, by rw [← h]; simp only [decodeParcels, List.getD_cons_zero, List.getD_cons_succ, two]⟩
theorem readsBack_three (h : decode3 (c32r fn b a d major 2) q r = .ok i) : ReadsBack [c32r fn b a d major 2, q, r] i := by
  have three : parcelsOf (c32r fn b a d major 2) = 3 := by rw [parcelsOf, fLen_c32r]; rfl
  exact ⟨three, by rw [← h]; simp only [decodeParcels, List.getD_cons_zero, List.getD_cons_succ, three]⟩

theorem decode1_alu : decode1 (c32r fn b a d 0x01 0) = decodeAlu fn d a b := by
  rw [decode1, fMajor_c32r, fFn_c32r, fD_c32r, fA_c32r, fB_c32r]; rfl

end

theorem word_halves (k : Word) : (k.extractLsb' 32 32 ++ k.extractLsb' 0 32 : Word) = k :=
  (extractLsb'_append_extractLsb'_eq_extractLsb' rfl).trans extractLsb'_eq_self

/-- The instructions by the layout of their parcels: whole fields, fields of which the form names a part, memory forms, tile
rows, zones. -/
theorem readsBack_encodeCue {i : Instr} (hwf : i.wf = true) (hne : encodeCue i ≠ []) : ReadsBack (encodeCue i) i := by
  cases i
  case add | sub | mul | mulh | mulhu | div | divu | rem | remu | and | or | xor | andn | shl | shr | sar | rot | min | max
      | minu | maxu | seq | sne | slt | sltu | clz | ctz | popc | brev =>
    exact readsBack_c32r decode1_alu
  case pget | pput | nop | jr | eret | exit | splice | mxSwap | mxMode | mxWait =>
    refine readsBack_c32r ?_
    rw [decode1, fMajor_c32r, fFn_c32r, fD_c32r, fA_c32r, fB_c32r]; rfl
  case pcmp | plog | selp | fence | mwait | drain | unbind | portWait | barrier | takeSpawn | zoneArm =>
    refine readsBack_c32r ?_
    rw [decode1, fMajor_c32r, fFn_c32r, fD_c32r, fA_c32r, fB_c32r]
    simp [extractLsb'_append_eq_of_le, extractLsb'_append_eq_of_add_le, accept, hwf, -Nat.reduceAdd]
  case addi | muli | andi | ori | xori | slti | sltui | seqi | beq | bne | blt | bge | bltu | bgeu | loop | jal | rstp | trap
      | brk | sceneGo | ovlFetch | ovlWait =>
    refine readsBack_c32i ?_
    rw [decode1, fMajor_c32i, fD_c32i, fA_c32i, fImm_c32i]; rfl
  case accTake | accFree | mxZero | cpAdv | cpStat | zoneStat | zoneSweep | zoneClose =>
    refine readsBack_c32i ?_
    rw [decode1, fMajor_c32i, fD_c32i, fA_c32i, fImm_c32i]
    exact accept_true hwf
  case shli | shri | sari | roti | pcmpi | bp | bnp | regionHalt | cpRedop | sysRd | sysWr =>
    refine readsBack_c32i ?_
    rw [decode1, fMajor_c32i, fD_c32i, fA_c32i, fImm_c32i]
    simp [extractLsb'_append_eq_of_le, extractLsb'_append_eq_right, accept, hwf, -Nat.reduceAdd]
  case addl | andl | orl | xorl =>
    refine readsBack_three ?_
    rw [decode3, fMajor_c32r, fFn_c32r, fD_c32r, fA_c32r, fB_c32r, word_halves]; rfl
  case ld =>
    exact readsBack_two (by rw [decode2, fMajor_c32r]; exact (decodeLd_encoded ..).trans (accept_true hwf))
  case st =>
    exact readsBack_two (by rw [decode2, fMajor_c32r]; exact (decodeSt_encoded ..).trans (accept_true hwf))
  case amo =>
    exact readsBack_two (by rw [decode2, fMajor_c32r]; exact (decodeAmo_encoded ..).trans (accept_true hwf))
  case marm =>
    exact readsBack_two (by rw [decode2, fMajor_c32r]; exact (decodeMarm_encoded ..).trans (accept_true hwf))
  case ld96 lit =>
    exact readsBack_three (by rw [decode3, fMajor_c32r]; exact (decodeLd_encoded ..).trans (accept_true hwf))
  case st96 lit =>
    exact readsBack_three (by rw [decode3, fMajor_c32r]; exact (decodeSt_encoded ..).trans (accept_true hwf))
  case amo96 lit =>
    exact readsBack_three (by rw [decode3, fMajor_c32r]; exact (decodeAmo_encoded ..).trans (accept_true hwf))
  case marm96 lit =>
    exact readsBack_three (by rw [decode3, fMajor_c32r]; exact (decodeMarm_encoded ..).trans (accept_true hwf))
  case mxPin | mxScale =>
    refine readsBack_two ?_
    rw [decode2, fMajor_c32r]
    simp [fD_c32r, fld_c32r_fn, memOpOf_c64m, fld_c64m_noRegs, fld_c64m_noScope, extractLsb'_append_eq_of_le,
      extractLsb'_append_eq_of_add_le, accept_true hwf, -Nat.reduceAdd]
  case mxStep | mxSteps | mxRead =>
    refine readsBack_two ?_
    rw [← tileP0, decode2, fMajor_tileP0, fD_tileP0, fld_tileP0_src, fld_tileP0_zero, tileRowOf_c64t]
    simp [accept_true hwf]
  case bind =>
    refine readsBack_two ?_
    rw [decode2, fMajor_c32r, fFn_c32r, fD_c32r, fA_c32r, fB_c32r]
    simp [fld, extractLsb'_append_eq_of_le, extractLsb'_append_eq_right, accept_true hwf, -Nat.reduceAdd]
  case zoneOpen | zoneRsv | zoneRel =>
    refine readsBack_two ?_
    rw [decode2, fMajor_c32r]
    simp [fFn_c32r, fD_c32r, fA_c32r, fB_c32r, fld_c32r_fn, fld_c64z_pkg, fld_c64z_cl, fld_c64z_slot, fld_c64z_z, fld_c64z_low,
      fld_c64z_onlyZone, extractLsb'_append_eq_of_le, extractLsb'_append_eq_right, accept_true hwf, -Nat.reduceAdd]
  all_goals exact absurd rfl hne

/-! ### Bytes (R60) -/

theorem parcelOfBytes_fld (p : Parcel) : parcelOfBytes (fld p 0 8) (fld p 8 8) (fld p 16 8) (fld p 24 8) = p := by
  have high : fld p 24 8 ++ fld p 16 8 = p.extractLsb' 16 16 := extractLsb'_append_extractLsb'_eq_extractLsb' rfl
  have upper : p.extractLsb' 16 16 ++ fld p 8 8 = p.extractLsb' 8 24 := extractLsb'_append_extractLsb'_eq_extractLsb' rfl
  have whole : p.extractLsb' 8 24 ++ fld p 0 8 = p.extractLsb' 0 32 := extractLsb'_append_extractLsb'_eq_extractLsb' rfl
  rw [parcelOfBytes, high]
  exact (congrArg (· ++ fld p 0 8) upper).trans (whole.trans extractLsb'_eq_self)

theorem takeParcels_cons (n : Nat) (p : Parcel) (bs : List Byte) :
    takeParcels (n + 1) (parcelBytes p ++ bs) = (takeParcels n bs).map fun r => (p :: r.1, r.2) := by
  simp only [parcelBytes, List.cons_append, List.nil_append, takeParcels, parcelOfBytes_fld]

/-- The bytes of parcels are those parcels again. -/
theorem takeParcels_flatMap (ps : List Parcel) (rest : List Byte) :
    takeParcels ps.length (ps.flatMap parcelBytes ++ rest) = some (ps, rest) := by
  induction ps with
  | nil => rfl
  | cons p ps ih => rw [List.flatMap_cons, List.append_assoc, List.length_cons, takeParcels_cons, ih]; rfl

/-- The first parcel of the bytes, which gives the number of parcels. -/
theorem takeParcels_first (p : Parcel) (bs : List Byte) : takeParcels 1 (parcelBytes p ++ bs) = some ([p], bs) :=
  takeParcels_cons 0 p bs

theorem decode_of_readsBack {ps : List Parcel} {i : Instr} (h : ReadsBack ps i) (hne : ps ≠ []) (rest : List Byte) :
    decode (ps.flatMap parcelBytes ++ rest) = .ok (i, rest) := by
  obtain ⟨count, reads⟩ := h
  cases ps with
  | nil => exact absurd rfl hne
  | cons p ps =>
    have taken := takeParcels_flatMap (p :: ps) rest
    rw [List.flatMap_cons, List.append_assoc, List.length_cons] at taken
    rw [List.getD_cons_zero] at count reads
    rw [List.flatMap_cons, List.append_assoc]
    simp only [decode, takeParcels_first, count, List.length_cons, taken, reads]
    rfl

theorem decode_length11 {p : Parcel} (h : p.extractLsb' 0 2 = 3) (bs : List Byte) :
    decode (parcelBytes p ++ bs) = .error .length11 := by
  have reserved : parcelsOf p = 0 := by rw [parcelsOf, fLen, fld, h]; rfl
  simp only [decode, takeParcels_first, reserved]

theorem decode_encode {i : Instr} (hwf : i.wf = true) (hne : encodeCue i ≠ []) (rest : List Byte) :
    decode (encode i ++ rest) = .ok (i, rest) := decode_of_readsBack (readsBack_encodeCue hwf hne) hne rest

/-! ### Element entries (R47, R52) -/

theorem opcode_encodeEntryWord (op : BitVec 6) (e : Entry) : (encodeEntryWord op e).extractLsb' 44 6 = op := by
  simp [encodeEntryWord, extractLsb'_append_eq_of_le, extractLsb'_append_eq_right, -Nat.reduceAdd]

theorem entryOf_encodeEntryWord (op : BitVec 6) (e : Entry) : entryOf (encodeEntryWord op e) = e := by
  have hold : (encodeEntryWord op e).extractLsb' 51 1 = BitVec.ofBool e.hold := by
    simp [encodeEntryWord, extractLsb'_append_eq_of_le, extractLsb'_append_eq_right, -Nat.reduceAdd]
  have chain : (encodeEntryWord op e).extractLsb' 50 1 = BitVec.ofBool e.chain := by
    simp [encodeEntryWord, extractLsb'_append_eq_of_le, extractLsb'_append_eq_right, -Nat.reduceAdd]
  have hold : (encodeEntryWord op e).getLsbD 51 = e.hold := by simpa using congrArg (getLsbD · 0) hold
  have chain : (encodeEntryWord op e).getLsbD 50 = e.chain := by simpa using congrArg (getLsbD · 0) chain
  rw [entryOf, hold, chain]
  simp [encodeEntryWord, extractLsb'_append_eq_of_le, extractLsb'_append_eq_right, -Nat.reduceAdd]

theorem entryCtor_entryParts {i : Instr} {op : BitVec 6} {e : Entry} (hwf : i.wf = true) (h : i.entryParts = some (op, e)) :
    entryCtor op e = some i := by
  cases i
  case entryHdrLoad =>
    cases h
    have form : (e.md == 0) = true := (Bool.and_eq_true_iff.1 hwf).2
    exact if_pos form
  case entryHdrBuild =>
    cases h
    have form : e.md = 1 := eq_of_beq (Bool.and_eq_true_iff.1 hwf).2
    simp [entryCtor, form]
  all_goals cases h <;> rfl

theorem decodeEntry_encodeEntry {i : Instr} {w : Word} (hwf : i.wf = true) (h : encodeEntry i = some w) :
    decodeEntry w = some i := by
  obtain ⟨⟨op, e⟩, parts, rfl⟩ := Option.map_eq_some_iff.1 h
  rw [decodeEntry, opcode_encodeEntryWord, entryOf_encodeEntryWord, entryCtor_entryParts hwf parts]
  exact if_pos hwf

theorem decodeEntry_void {w : Word} (h : w.extractLsb' 44 6 = 0) : decodeEntry w = none := by rw [decodeEntry, h]; rfl

/-- Settles O49: the parcels of every instruction read back, and the word of every entry. -/
theorem roundTrip : Obligations.RoundTrip :=
  ⟨fun _ rest hwf hne => decode_encode hwf hne rest, fun _ _ hwf h => decodeEntry_encodeEntry hwf h⟩

/-- Settles O48: the cue instructions' words are their encodings, so that they decode by the round trip; the entry's is one
word, and what is reserved is refused. -/
theorem encodedWords : Obligations.EncodedWords := by
  refine ⟨fun p hp => ?cue, by decide, fun w => decodeEntry_void, fun p bs h => decode_length11 h bs⟩
  simp only [List.mem_cons, List.not_mem_nil, or_false] at hp
  have reads {ps : List Parcel} {i : Instr} (word : encodeCue i = ps) (hne : ps ≠ []) (hwf : i.wf = true) :
      decode (ps.flatMap parcelBytes) = .ok (i, []) := by
    subst word
    rw [← List.append_nil (List.flatMap ..)]
    exact decode_encode hwf hne []
  obtain rfl | rfl | rfl | rfl := hp <;> exact reads (by decide) (by decide) (by decide)

end Sys2Proof
end

section
/-! PROOFS. TRAP, BRK, ERET, RSTP, unassigned encodings and pending traps (O8): what an escalation leaves in the take, and what
taking a trap comes to in a handler, outside one, and between two instructions. -/

namespace Sys2Proof.Machine

section
variable (s : State)

/-! ### Escalation (R165, R327 to R330, R338) -/

/-- The record names another trap when the take is dying, or, for a stop, being stopped (R338). -/
theorem beingEnded_eq (x : Take) (act : Nat) : beingEnded x act = (x.dying || (act = 2 && x.stopping)) := by
  have other {w : Why} (h : w ≠ .abort 2) : (Why.abort 2 == w) = false := beq_eq_false_iff_ne.2 h.symm
  unfold beingEnded Take.dying Take.stopping
  rw [List.contains_eq_any_beq, Bool.or_assoc]
  congr 1
  induction x.why with
  | nil => simp
  | cons w l ih =>
    simp only [List.any_cons, ih]
    cases w with
    | preempt => simp [other]
    | move => simp [other]
    | stop => by_cases h : act = 2 <;> simp [other, h]
    | abort n => by_cases h : n = 2 <;> simp [other, h]

/-- An escalation from the current context: one pass over the takes, where the model makes two. -/
theorem escalates_escalate (id code : Nat) (epc : BitVec 16) (info info2 : Word) (act : Nat) :
    Escalates s (s.escalate id s.curCl s.curK code epc info info2 act) id code epc info info2 act := by
  unfold Escalates State.escalate State.askFreeze State.updTake
  simp only [List.map_map]
  congr 1
  refine List.map_congr_left fun x _ => ?_
  by_cases hid : x.id = id
  · have running : (x.st = .running || x.st = .frozen) = true ↔ x.st = .running ∨ x.st = .frozen := by simp
    have region : (codePortUnbound ≤ code && code ≤ codeSchedHazard) = true ↔ 37 ≤ code ∧ code ≤ 40 := by
      simp only [Bool.and_eq_true, decide_eq_true_eq]; rfl
    have first : (code = codeChainOverrun && x.fr.odet0 = 0 && x.fr.odet1 = 0) = true ↔
        code = 39 ∧ x.fr.odet0 = 0 ∧ x.fr.odet1 = 0 := by
      simp only [Bool.and_eq_true, decide_eq_true_eq, and_assoc]; rfl
    simp only [Function.comp, hid, if_true, running, region, first, ← beingEnded_eq]
    split_ifs <;> rfl
  · simp [hid]

variable {s}

/-- A trap that the take's table sends to its handler is taken there (R165). -/
theorem trapsAt_takeTrap {cl k code : Nat} {t : Take} (ht : s.take? (s.ctx cl k).take = some t) (hact : t.act code = 1)
    (hk : (s.ctx cl k).kstate ≠ .trap) (hh : (s.ctx cl k).handler = false) (info info2 : Word) (epc : BitVec 16) :
    TrapsAt s (s.takeTrap cl k code info info2 epc) cl k code info info2 epc := by
  simp only [State.takeTrap, ht, hk, hh, hact, decide_false, Bool.or_false, Bool.false_eq_true, if_false, if_true]
  exact becomes_updCtx s cl k _

/-- A trap of a context in its handler is escalated as DOUBLE-TRAP (R330). -/
theorem takeTrap_inTrap {cl k : Nat} {t : Take} (ht : s.take? (s.ctx cl k).take = some t) (hk : (s.ctx cl k).kstate = .trap)
    (code : Nat) (info info2 : Word) (epc : BitVec 16) :
    s.takeTrap cl k code info info2 epc = s.escalate t.id cl k codeDoubleTrap epc info info2 (t.act codeDoubleTrap) := by
  simp [State.takeTrap, ht, hk]

/-- BRK outside a handler is escalated, with PC at the next instruction (R193, R329). -/
theorem takeTrap_break {cl k : Nat} {t : Take} (ht : s.take? (s.ctx cl k).take = some t) (hk : (s.ctx cl k).kstate ≠ .trap)
    (hh : (s.ctx cl k).handler = false) (info info2 : Word) (epc : BitVec 16) :
    s.takeTrap cl k codeBreak info info2 epc =
      (s.updCtx cl k fun c => { c with pc := epc }).escalate t.id cl k codeBreak epc info info2 (t.act codeBreak) := by
  have never : t.act codeBreak ≠ 1 := by
    change (if t.hdr.debug then 2 else 3) ≠ 1
    split <;> decide
  simp [State.takeTrap, ht, hk, hh, never]

theorem escalates_inTrap {t : Take} (ht : s.myTake = some t) (hk : s.me.kstate = .trap) (code : Nat) (info info2 : Word)
    (epc : BitVec 16) : Escalates s (s.takeTrap s.curCl s.curK code info info2 epc) t.id 41 epc info info2
      (if t.hdr.debug then 2 else 3) := by
  rw [takeTrap_inTrap ht hk]
  exact escalates_escalate s t.id codeDoubleTrap epc info info2 _

theorem escalates_break {t : Take} (ht : s.myTake = some t) (hk : s.me.kstate ≠ .trap) (hh : s.me.handler = false)
    (info : Word) : Escalates (s.onMe fun c => { c with pc := c.pc + 4 })
      (s.takeTrap s.curCl s.curK codeBreak info 0 (s.me.pc + 4)) t.id 21 (s.me.pc + 4) info 0 (if t.hdr.debug then 2 else 3) := by
  have next : (s.updCtx s.curCl s.curK fun c => { c with pc := s.me.pc + 4 }) = s.onMe fun c => { c with pc := c.pc + 4 } :=
    s.onMe_congr rfl
  rw [takeTrap_break ht hk hh, next]
  exact escalates_escalate (s.onMe _) t.id codeBreak (s.me.pc + 4) info 0 _

/-! ### ILLEGAL-INSTR and ERET (R70, R193) -/

/-- EINFO of ILLEGAL-INSTR: the second parcel above the first (R70). -/
theorem illegal_info (p0 p1 : Parcel) : p0.setWidth 64 ||| at_ p1.toNat 32 = .ofNat 64 (p1.toNat * 2 ^ 32 + p0.toNat) := by
  rw [at_, ← BitVec.ofNat_toNat, ← BitVec.ofNat_or, Nat.or_comm, ← Nat.shiftLeft_add_eq_or_of_lt p0.isLt, Nat.shiftLeft_eq]

theorem takesTrap_illegal (p0 p1 : Parcel) (h : CanTrap s 1) :
    TakesTrap s (s.illegal p0 p1) 1 (.ofNat 64 (p1.toNat * 2 ^ 32 + p0.toNat)) 0 s.me.pc := by
  rw [← illegal_info]
  exact takesTrap_takeTrap s h _ 0 _

/-- ERET's PC is bits [15:2] of EPC, times 4 (R193). -/
theorem epc_and_mask (epc : Word) : epc.setWidth 16 &&& 0xFFFC = BitVec.ofNat 16 (epc.toNat % 65536 / 4 * 4) := by
  have mask : ∀ i < 16, (0xFFFC : BitVec 16).getLsbD i = decide (2 ≤ i) := by decide
  refine BitVec.eq_of_getLsbD_eq fun i hi => ?_
  have div : epc.toNat % 65536 / 4 = epc.toNat % 2 ^ 16 / 2 ^ 2 := rfl
  have mul : ∀ n, n * 4 = n * 2 ^ 2 := fun _ => rfl
  rw [BitVec.getLsbD_and, mask i hi, BitVec.getLsbD_ofNat, div, mul, Nat.testBit_mul_two_pow, Nat.testBit_div_two_pow,
    Nat.testBit_mod_two_pow, BitVec.getLsbD_setWidth, BitVec.testBit_toNat]
  by_cases h : 2 ≤ i <;> simp [h, hi]

theorem becomes_eret : Becomes s (s.onMe CueCtx.eret) s.curCl s.curK
    { s.me with pc := .ofNat 16 (s.me.epc.toNat % 65536 / 4 * 4), kstate := .run } := by
  rw [← epc_and_mask]
  exact becomes_onMe s CueCtx.eret

theorem exec_eret_outside (h : s.me.kstate ≠ .trap) : exec .eret s = .next (s.illegal 0x38 0) := if_neg h
theorem exec_eret_inTrap (h : s.me.kstate = .trap) : exec .eret s = .next (s.onMe CueCtx.eret) := if_pos h

/-! ### Pending traps (R165, R328) -/

theorem exec_trapTake_stalled {cl k : Nat} (h : (s.ctx cl k).stall ≠ none ∨ (s.ctx cl k).retry = true) :
    exec (.trapTake cl k) s = .next s := by
  have waits : (s.ctx cl k).takesTraps = false := by
    obtain h | h := h <;> simp [CueCtx.takesTraps, h]
  have same : s.takePend cl k = s := by
    unfold State.takePend
    dsimp only
    split
    · rfl
    · rw [waits]; rfl
  change (if s.active _ then _ else _) = _
  rw [same, ite_self]

theorem becomes_takePend {cl k : Nat} {p : Pend} {rest : List Pend} {t : Take} (ht : s.take? (s.ctx cl k).take = some t)
    (hact : t.act p.code = 1) (hpend : (s.ctx cl k).pend = p :: rest) (hstall : (s.ctx cl k).stall = none)
    (hretry : (s.ctx cl k).retry = false) (hhandler : (s.ctx cl k).handler = false)
    (hstate : (s.ctx cl k).kstate = .run ∨ (s.ctx cl k).kstate = .wait) :
    Becomes s (s.takePend cl k) cl k { s.ctx cl k with
      pend := rest, wait := none, stall := none, kstate := .trap, pc := (s.ctx cl k).tvec.setWidth 16
      epc := (s.ctx cl k).pc.setWidth 64, ecause := BitVec.ofNat 64 p.code, einfo := p.info, einfo2 := p.info2 } := by
  have takes : (s.ctx cl k).takesTraps = true := by
    obtain h | h := hstate <;> simp [CueCtx.takesTraps, hstall, hretry, hhandler, h]
  let ready : State := s.updCtx cl k fun c => { c with pend := rest, wait := none, kstate := .run }
  have popped : Becomes s ready cl k { s.ctx cl k with pend := rest, wait := none, kstate := .run } := becomes_updCtx s cl k _
  have taken : s.takePend cl k = ready.takeTrap cl k p.code p.info p.info2 (s.ctx cl k).pc := by
    simp only [State.takePend, hpend, takes, if_true, ready]
  have own : ready.take? (ready.ctx cl k).take = some t := by rw [popped.value]; exact ht
  have trapped := trapsAt_takeTrap own hact (by rw [popped.value]; simp) (by rw [popped.value]; exact hhandler) p.info p.info2
    (s.ctx cl k).pc
  rw [TrapsAt, popped.value] at trapped
  rw [taken]
  exact popped.trans trapped

end

/-- Settles O8: outside a handler by the take's trap table, in a handler by escalation, between two instructions by popping the
oldest pending trap and taking it. -/
theorem traps : Obligations.Traps := by
  refine ⟨fun s n p0 p1 => ⟨fun h => ?trap, fun h => ?unassigned, fun hk h => ?eretOutside, fun hk => ?eret, ?rstp⟩,
    fun s n t ht => ⟨fun hk hh => ?brk, fun hk => ?brkInTrap, fun hk => ?trapInTrap⟩,
    fun s cl k p rest t ht hactive hact hpend hstall hretry hhandler hstate => ?pending,
    fun s cl k h => exec_trapTake_stalled h⟩
  case trap => exact Goes.next (takesTrap_takeTrap s h _ 0 _)
  case unassigned => exact Goes.next (takesTrap_illegal p0 p1 h)
  case eretOutside =>
    rw [exec_eret_outside hk]
    exact Goes.next (takesTrap_illegal 0x38 0 h)
  case eret =>
    rw [exec_eret_inTrap hk]
    exact Goes.next becomes_eret
  case rstp => exact Goes.next (becomes_onMe s _)
  case brk => exact Goes.next (escalates_break ht hk hh _)
  case brkInTrap => exact Goes.next (escalates_inTrap ht hk _ _ _ _)
  case trapInTrap => exact Goes.next (escalates_inTrap ht hk _ _ _ _)
  case pending =>
    have active : s.active (s.ctx cl k).take = true := by rw [State.active, ht]; exact hactive
    have taken : exec (.trapTake cl k) s = .next (s.takePend cl k) := if_pos active
    rw [taken]
    exact Goes.next (becomes_takePend ht hact hpend hstall hretry hhandler hstate)

end Sys2Proof.Machine
end

section
/-! PROOFS. Digits and rounding (R81 to R84, R97, R98): a number held by its digits, rounding among the magnitudes of a format, and the
encodings into the binary formats and the integers. -/

namespace Sys2Proof.Machine

section

/-- The number `q` has the digits `m` in units of 2^e; `st` says that it lies strictly between `m` and `m + 1` units. -/
def Digits (m : Nat) (e : Int) (st : Bool) (q : ℝ) : Prop :=
  if st then (m : ℝ) * (2 : ℝ) ^ e < q ∧ q < ((m + 1 : Nat) : ℝ) * (2 : ℝ) ^ e else q = (m : ℝ) * (2 : ℝ) ^ e

/-- `q` lies at place `P` among increasing numbers `V`, or with `st` between `P` and the next. -/
structure At (V : Nat → ℝ) (P : Nat) (st : Bool) (q : ℝ) (T : Nat) : Prop where
  lt : q < V T ↔ P < T
  eq : q = V T ↔ P = T ∧ st = false

variable {m : Nat} {e : Int} {st : Bool} {q : ℝ}

theorem digits_exact : Digits m e false q ↔ q = (m : ℝ) * (2 : ℝ) ^ e := by simp [Digits]

theorem Digits.le (h : Digits m e st q) : (m : ℝ) * (2 : ℝ) ^ e ≤ q := by
  unfold Digits at h
  split at h
  · exact h.1.le
  · exact h.ge

theorem Digits.lt_succ (h : Digits m e st q) : q < ((m + 1 : Nat) : ℝ) * (2 : ℝ) ^ e := by
  unfold Digits at h
  split at h
  · exact h.2
  · rw [h]
    exact mul_lt_mul_of_pos_right (by exact_mod_cast Nat.lt_succ_self m) (by positivity)

/-- Any strictly increasing numbers that hold the digits at `P`, and the next unit at `P + 1`, hold `q` at `P`. -/
theorem at_of_digits (h : Digits m e st q) {V : Nat → ℝ} {P T : Nat} (hP : V P = (m : ℝ) * (2 : ℝ) ^ e)
    (hS : st = true → P < T → ((m + 1 : Nat) : ℝ) * (2 : ℝ) ^ e ≤ V T) (below : T < P → V T < V P) (above : P < T → V P < V T) :
    At V P st q T := by
  obtain lt | rfl | gt := lt_trichotomy P T
  · have less : q < V T := by
      cases st with
      | false => rw [digits_exact.1 h, ← hP]; exact above lt
      | true => exact h.lt_succ.trans_le (hS rfl lt)
    exact ⟨by simp [less, lt], by simp [less.ne, lt.ne]⟩
  · cases st with
    | false => rw [digits_exact.1 h, ← hP]; exact ⟨by simp, by simp⟩
    | true =>
      have more : V P < q := by rw [hP]; exact h.1
      exact ⟨iff_of_false more.le.not_gt (lt_irrefl P), iff_of_false more.ne' (by simp)⟩
  · have more : V T < q := (below gt).trans_le (hP ▸ h.le)
    exact ⟨iff_of_false more.le.not_gt gt.le.not_gt, by simp [more.ne', gt.ne']⟩

/-- `q` among the multiples of its unit. -/
theorem Digits.at (h : Digits m e st q) (T : Nat) : At (fun i => (i : ℝ) * (2 : ℝ) ^ e) m st q T := by
  have pos : (0 : ℝ) < (2 : ℝ) ^ e := by positivity
  refine at_of_digits h rfl (fun _ lt => ?_) (fun lt => ?_) (fun lt => ?_)
  · exact mul_le_mul_of_nonneg_right (by exact_mod_cast lt) pos.le
  · exact mul_lt_mul_of_pos_right (by exact_mod_cast lt) pos
  · exact mul_lt_mul_of_pos_right (by exact_mod_cast lt) pos

theorem At.le {V : Nat → ℝ} {P T : Nat} (h : At V P st q T) : V T ≤ q ↔ T ≤ P := by
  rw [← not_lt, h.lt, not_lt]

/-- R97, R98: rounding at bit `j` of a place rounds to one of the neighbours whose places are multiples of 2^j, the number halfway
being at the place halfway. -/
theorem rounds_roundMag {V : Nat → ℝ} {mag mid : Nat → ℚ} {P j : Nat} {rm : Rm} {neg : Bool}
    (hj : st = true → 1 ≤ j) (low : At V P st q (P / 2 ^ j * 2 ^ j)) (next : q < mag (P / 2 ^ j + 1))
    (half : 1 ≤ j → At V P st q ((2 * (P / 2 ^ j) + 1) * 2 ^ (j - 1)))
    (hmag : (mag (P / 2 ^ j) : ℝ) = V (P / 2 ^ j * 2 ^ j))
    (hmid : 1 ≤ j → (mid (P / 2 ^ j) : ℝ) = V ((2 * (P / 2 ^ j) + 1) * 2 ^ (j - 1)))
    (random : ∀ r, rm = .sr r → q ≠ mag (P / 2 ^ j) → ⌊2 ^ 32 * (q - mag (P / 2 ^ j)) / (mag (P / 2 ^ j + 1) - mag (P / 2 ^ j))⌋ =
      ((P % 2 ^ j * 2 ^ 32 / 2 ^ j : Nat) : Int)) :
    Rounds rm neg mag mid q (roundMag rm neg P j st) := by
  have split : P / 2 ^ j * 2 ^ j + P % 2 ^ j = P := by rw [Nat.mul_comm]; exact Nat.div_add_mod P _
  have on : q = mag (P / 2 ^ j) ↔ P % 2 ^ j = 0 ∧ st = false := by
    rw [hmag, low.eq]
    exact and_congr_left' (by omega)
  refine ⟨P / 2 ^ j, by rw [hmag, low.le]; omega, next, fun h => ?_, fun h => ?_⟩
  · obtain ⟨hr, hst⟩ := on.1 h
    simp [roundMag, hr, hst]
  · have off : (decide (P % 2 ^ j = 0) && !st) = false := by
      have := mt on.2 h
      by_cases hr : P % 2 ^ j = 0 <;> cases st <;> simp_all
    unfold roundMag
    simp only [off, Bool.false_eq_true, if_false]
    cases rm with
    | rne =>
      have pos : 1 ≤ j := by
        by_contra hj0
        obtain rfl : j = 0 := by omega
        cases st with
        | true => exact absurd (hj rfl) (by omega)
        | false => exact h (on.2 ⟨by simp [Nat.mod_one], rfl⟩)
      have two : 2 ^ j = 2 * 2 ^ (j - 1) := by rw [← pow_succ']; congr 1; omega
      have place : (2 * (P / 2 ^ j) + 1) * 2 ^ (j - 1) = P / 2 ^ j * 2 ^ j + 2 ^ (j - 1) := by
        conv_rhs => rw [two]
        conv_lhs => rw [two]
        ring
      have hlt : q < mid (P / 2 ^ j) ↔ 2 * (P % 2 ^ j) < 2 ^ j := by
        rw [hmid pos, (half pos).lt, place]; omega
      have heq : q = mid (P / 2 ^ j) ↔ 2 * (P % 2 ^ j) = 2 ^ j ∧ st = false := by
        rw [hmid pos, (half pos).eq, place]
        exact and_congr_left' (by omega)
      have hgt : (mid (P / 2 ^ j) : ℝ) < q ↔ 2 ^ j < 2 * (P % 2 ^ j) ∨ 2 * (P % 2 ^ j) = 2 ^ j ∧ st = true := by
        rw [← not_le, le_iff_lt_or_eq, hlt, heq]
        cases st <;> simp <;> omega
      have hj0 : j ≠ 0 := by omega
      simp only [hlt, heq, hgt, hj0, if_false]
      clear two
      constructor
      · rintro (lt | ⟨⟨eq, hst⟩, even⟩)
        · rw [if_neg]; simp only [Bool.or_eq_true, Bool.and_eq_true, decide_eq_true_eq, beq_iff_eq, not_or, not_and]; omega
        · rw [if_neg]; simp [eq, hst, even]
      · rintro ((gt | ⟨eq, hst⟩) | ⟨⟨eq, hst⟩, odd⟩) <;> rw [if_pos] <;> simp [*]
    | rtz => rfl
    | rup => cases neg <;> rfl
    | rdn => cases neg <;> rfl
    | sr r =>
      simp only [random r rfl h]
      norm_cast
      simp only [decide_eq_true_eq]

end

section

variable {m : Nat} {e p : Int} {st : Bool} {q : ℝ} {rm : Rm} {neg : Bool}

/-- Rounding to a multiple of 2^p is rounding at a bit of the digits, in a unit that may be finer. -/
theorem roundAt_eq_roundMag (h : Digits m e st q) (hst : st = true → e < p) (rm : Rm) (neg : Bool) :
    ∃ M j : Nat, roundAt rm neg m e p st = roundMag rm neg M j st ∧ Digits M (p - j) st q ∧ (st = true → 1 ≤ j) := by
  unfold roundAt
  by_cases hpe : p ≤ e
  · obtain rfl : st = false := by cases st with
      | false => rfl
      | true => exact absurd (hst rfl) (by omega)
    obtain ⟨n, rfl⟩ : ∃ n : Nat, e = p + n := ⟨(e - p).toNat, by omega⟩
    refine ⟨m * 2 ^ n, 0, by simp [shl], ?_, by simp⟩
    rw [digits_exact] at h ⊢
    rw [h, zpow_add₀ (by norm_num)]
    push_cast
    simp
    ring
  · refine ⟨m, (p - e).toNat, by simp [hpe], ?_, fun _ => by omega⟩
    rwa [show p - ((p - e).toNat : Int) = e by omega]

/-- A rounding among the magnitudes from an even number on is one among all. -/
theorem rounds_shift {mag : Nat → ℚ} {c k : Nat} (hc : c % 2 = 0)
    (h : Rounds rm neg (fun i => mag (c + i)) (fun i => between mag (c + i)) q k) : Rounds rm neg mag (between mag) q (c + k) := by
  obtain ⟨lo, low, high, on, off⟩ := h
  refine ⟨c + lo, low, high, fun hq => congrArg (c + ·) (on hq), fun hq => ?_⟩
  have off := off hq
  have parity : (c + lo) % 2 = lo % 2 := by omega
  cases rm with
  | rne => simpa only [parity, Nat.add_assoc, Nat.add_right_inj] using off
  | rtz => exact congrArg (c + ·) off
  | rup => cases neg <;> exact congrArg (c + ·) off
  | rdn => cases neg <;> exact congrArg (c + ·) off
  | sr r =>
    simp only at off ⊢
    rw [off]
    simp only [Nat.add_assoc]
    split <;> rfl

/-- The whole part of a quotient of naturals, as the model divides. -/
theorem floor_natCast_div (a b : Nat) : ⌊(a : ℝ) / b⌋ = ((a / b : Nat) : Int) := by
  rw [← Nat.floor_div_eq_div (K := ℝ), Int.natCast_floor_eq_floor (by positivity)]

/-- R97, R98: where the magnitudes number `c + i` next to `q` are `i` units of 2^p, rounding to a unit is rounding among the
magnitudes. -/
theorem rounds_roundAt (h : Digits m e st q) (hst : st = true → e < p) (hr : ∀ r, rm = .sr r → st = false) {mag : Nat → ℚ} {c : Nat}
    (hc : c % 2 = 0) (hmag : ∀ i : Nat, (i : ℝ) * (2 : ℝ) ^ p ≤ q → q < ((i + 1 : Nat) : ℝ) * (2 : ℝ) ^ p →
      mag (c + i) = (i : ℚ) * (2 : ℚ) ^ p ∧ mag (c + (i + 1)) = ((i + 1 : Nat) : ℚ) * (2 : ℚ) ^ p) :
    Rounds rm neg mag (between mag) q (c + roundAt rm neg m e p st) := by
  obtain ⟨M, j, eq, hM, hj⟩ := roundAt_eq_roundMag h hst rm neg
  have unit (T : Nat) : ((T * 2 ^ j : Nat) : ℝ) * (2 : ℝ) ^ (p - j) = T * (2 : ℝ) ^ p := by
    rw [zpow_sub₀ (by norm_num), zpow_natCast]
    push_cast
    field_simp
  have low : ((M / 2 ^ j : Nat) : ℝ) * (2 : ℝ) ^ p ≤ q := by
    rw [← unit, (hM.at _).le]
    exact Nat.div_mul_le_self _ _
  have high : q < ((M / 2 ^ j + 1 : Nat) : ℝ) * (2 : ℝ) ^ p := by
    rw [← unit, (hM.at _).lt]
    exact Nat.lt_mul_of_div_lt (Nat.lt_succ_self _) (by positivity)
  obtain ⟨mag0, mag1⟩ := hmag _ low high
  rw [eq]
  refine rounds_shift hc (rounds_roundMag (V := fun T => (T : ℝ) * (2 : ℝ) ^ (p - j)) hj (hM.at _) ?_ (fun _ => hM.at _) ?_ ?_ ?_)
  · rw [mag1]; push_cast at high ⊢; exact high
  · rw [mag0, unit]; push_cast; ring
  · intro pos
    have two : ((2 * (M / 2 ^ j) + 1) * 2 ^ (j - 1) : Nat) * (2 : ℝ) ^ (p - j) * 2 = (2 * (M / 2 ^ j) + 1 : Nat) * (2 : ℝ) ^ p := by
      obtain ⟨k, rfl⟩ : ∃ k, j = k + 1 := ⟨j - 1, by omega⟩
      rw [← unit, Nat.add_sub_cancel, pow_succ 2 k]
      push_cast
      ring
    rw [between, Nat.add_assoc, mag0, mag1]
    push_cast at two ⊢
    linarith
  · intro r hrm _
    obtain rfl := hr r hrm
    rw [digits_exact] at hM
    rw [mag0, mag1, ← floor_natCast_div]
    congr 1
    have hq : q = ((M / 2 ^ j : Nat) : ℝ) * (2 : ℝ) ^ p + ((M % 2 ^ j : Nat) : ℝ) * (2 : ℝ) ^ (p - j) := by
      rw [hM, ← unit, ← add_mul, ← Nat.cast_add, Nat.mul_comm (M / 2 ^ j), Nat.div_add_mod]
    rw [hq, zpow_sub₀ (by norm_num), zpow_natCast]
    push_cast
    field_simp
    ring

/-! ### Binary floating formats (R82, R84) -/

/-- The magnitude number `t 2^fb + i` of a binary format within a binade, its lower ones with the subnormals. -/
theorem binNum_add (eb : Nat) {fb t i : Nat} (h : t = 0 ∨ 2 ^ fb ≤ i) (hi : i ≤ 2 ^ (fb + 1)) :
    binNum eb fb (t * 2 ^ fb + i) = (i : ℚ) * (2 : ℚ) ^ ((t : Int) + (1 - (2 ^ (eb - 1) - 1)) - fb) := by
  have hb : (0 : Nat) < 2 ^ fb := by positivity
  have hb' : (2 : ℚ) ^ fb ≠ 0 := by positivity
  simp only [binNum, Nat.mul_comm t, Nat.mul_add_div hb, Nat.mul_add_mod_self_left]
  rw [pow_succ] at hi
  generalize (2 ^ (eb - 1) - 1 : Int) = bias
  obtain lt | ⟨ge, lt⟩ | rfl : i < 2 ^ fb ∨ (2 ^ fb ≤ i ∧ i < 2 * 2 ^ fb) ∨ i = 2 * 2 ^ fb := by omega
  · obtain rfl : t = 0 := h.resolve_right (by omega)
    rw [Nat.div_eq_of_lt lt, Nat.mod_eq_of_lt lt, if_pos rfl, Nat.cast_zero, zero_add, zpow_sub₀ (by norm_num) _ (fb : Int), zpow_natCast]
    ring
  · have quot : i / 2 ^ fb = 1 := Nat.div_eq_of_lt_le (by omega) (by omega)
    have rest : ((i % 2 ^ fb : Nat) : ℚ) = i - 2 ^ fb := by
      rw [Nat.mod_eq_sub_mod ge, Nat.mod_eq_of_lt (by omega), Nat.cast_sub ge]; push_cast; rfl
    rw [quot, if_neg (by omega), rest, show ((t : Int) + (1 - bias) - fb) = (t + 1 - bias : Int) - fb by ring,
      zpow_sub₀ (by norm_num) _ (fb : Int), zpow_natCast]
    push_cast
    field_simp
    ring
  · rw [Nat.mul_div_cancel _ hb, Nat.mul_mod_left, if_neg (by omega),
      show ((t : Int) + (1 - bias) - fb) = (t + 2 - bias : Int) - 1 - fb by ring, zpow_sub₀ (by norm_num) _ (fb : Int),
      zpow_sub₀ (by norm_num) _ (1 : Int), zpow_natCast]
    push_cast
    field_simp
    ring

/-- The binade of digits. -/
theorem Digits.binade (h : Digits m e st q) (hm : m ≠ 0) :
    (2 : ℝ) ^ ((m.log2 : Int) + e) ≤ q ∧ q < (2 : ℝ) ^ ((m.log2 : Int) + e + 1) := by
  constructor
  · refine le_trans ?_ h.le
    rw [zpow_add₀ (by norm_num), zpow_natCast]
    exact mul_le_mul_of_nonneg_right (by exact_mod_cast Nat.log2_self_le hm) (by positivity)
  · refine h.lt_succ.trans_le ?_
    rw [show ((m.log2 : Int) + e + 1) = ((m.log2 + 1 : Nat) : Int) + e by push_cast; ring, zpow_add₀ (by norm_num), zpow_natCast]
    exact mul_le_mul_of_nonneg_right (by exact_mod_cast Nat.lt_log2_self) (by positivity)

/-- R97, R98: the code of a magnitude, the range of exponents unbounded above, is that of its rounding. -/
theorem rounds_binCode (eb : Nat) {fb : Nat} (hfb : 1 ≤ fb) (h : Digits m e st q) (hm : m ≠ 0) (hst : st = true → fb < m.log2)
    (hr : ∀ r, rm = .sr r → st = false) :
    Rounds rm neg (binNum eb fb) (between (binNum eb fb)) q (binCode eb fb rm neg m e st) := by
  obtain ⟨low, high⟩ := h.binade hm
  unfold binCode
  simp only [hm, decide_false, Bool.false_or, decide_eq_true_eq]
  generalize hE : (m.log2 : Int) + e = E at low high ⊢
  generalize hmin : (1 - (2 ^ (eb - 1) - 1) : Int) = emin
  -- the exponent of the binade, or that of the subnormals
  obtain ⟨t, ht, hE', hsub⟩ : ∃ t : Nat, (if E < emin then emin else E) = emin + t ∧ E ≤ emin + t ∧ (t = 0 ∨ E = emin + t) := by
    split
    · exact ⟨0, by simp, by omega, .inl rfl⟩
    · exact ⟨(E - emin).toNat, by omega, by omega, .inr (by omega)⟩
  rw [ht, show (emin + t - fb - (emin - fb) : Int).toNat = t by omega]
  have even : t * 2 ^ fb % 2 = 0 := by
    rw [show fb = (fb - 1) + 1 by omega, pow_succ, ← Nat.mul_assoc, Nat.mul_mod_left]
  have unit : (0 : ℝ) < (2 : ℝ) ^ (emin + t - fb : Int) := by positivity
  have scale (n : Int) : (2 : ℝ) ^ n = (2 : ℝ) ^ (n - (emin + t - fb)) * (2 : ℝ) ^ (emin + t - fb : Int) := by
    rw [← zpow_add₀ (by norm_num)]; congr 1; ring
  refine rounds_roundAt h (fun hs => by have := hst hs; omega) hr even fun i hlo hhi => ?_
  have top : i < 2 ^ (fb + 1) := by
    have lt : (i : ℝ) * (2 : ℝ) ^ (emin + t - fb : Int) < (2 : ℝ) ^ ((fb + 1 : Nat) : Int) * (2 : ℝ) ^ (emin + t - fb : Int) := by
      refine hlo.trans_lt (high.trans_le ?_)
      rw [scale (E + 1)]
      exact mul_le_mul_of_nonneg_right (zpow_le_zpow_right₀ (by norm_num) (by push_cast; omega)) unit.le
    have := lt_of_mul_lt_mul_right lt unit.le
    rw [zpow_natCast] at this
    exact_mod_cast this
  have bottom : t = 0 ∨ 2 ^ fb ≤ i := by
    refine hsub.imp_right fun hE => ?_
    have lt : (2 : ℝ) ^ (fb : Int) * (2 : ℝ) ^ (emin + t - fb : Int) < ((i + 1 : Nat) : ℝ) * (2 : ℝ) ^ (emin + t - fb : Int) := by
      refine lt_of_le_of_lt ?_ hhi
      rw [scale E] at low
      rwa [show E - (emin + t - fb) = (fb : Int) by omega] at low
    have := lt_of_mul_lt_mul_right lt unit.le
    rw [zpow_natCast] at this
    exact Nat.lt_succ_iff.1 (by exact_mod_cast this)
  rw [binNum_add eb bottom (by omega), binNum_add eb (bottom.imp_right (by omega)) (by omega), hmin, show (t : Int) + emin - fb = emin + t - fb by ring]
  exact ⟨rfl, rfl⟩

end

section

variable {m : Nat} {e : Int} {st : Bool} {q : ℝ} {rm : Rm} {neg : Bool}

/-- R82, R83, R98: the encoding into an IEEE format. -/
theorem encodes_ieee (w eb : Nat) {fb : Nat} (hfb : 1 ≤ fb) (h : Digits m e st q) (hm : m ≠ 0) (hst : st = true → fb < m.log2)
    (hr : ∀ r, rm = .sr r → st = false) (s : Bool) :
    (Fmt.ieee w eb fb).Encodes rm s neg q (encodeIeee w eb fb rm s (.fin neg m e st)) := by
  refine ⟨_, rounds_binCode eb hfb h hm hst hr, ?_⟩
  simp only [encodeIeee, Fmt.code, Fmt.width, hm, decide_false, Bool.false_and, Bool.false_eq_true, if_false]
  generalize binCode eb fb rm neg m e st = k
  split
  · rfl
  · cases rm <;> cases neg <;> cases s <;> rfl

/-- R84, R95: the encoding into a narrow E format. -/
theorem encodes_mx (w eb top : Nat) {fb : Nat} (hfb : 1 ≤ fb) (h : Digits m e st q) (hm : m ≠ 0) (hst : st = true → fb < m.log2)
    (hr : ∀ r, rm = .sr r → st = false) (s : Bool) :
    (Fmt.mx w eb fb top).Encodes rm s neg q (encodeMx w eb fb top rm (.fin neg m e st)) := by
  refine ⟨_, rounds_binCode eb hfb h hm hst hr, ?_⟩
  simp only [encodeMx, Fmt.code, Fmt.width, hm, decide_false, Bool.false_and, Bool.false_eq_true, if_false]
  generalize binCode eb fb rm neg m e st = k
  by_cases hk : k ≤ top
  · rw [if_pos hk, if_neg hk.not_gt]
  · rw [if_neg hk, if_pos (Nat.lt_of_not_le hk)]

/-- Rounding to an integer. -/
theorem rounds_int (h : Digits m e false q) :
    Rounds rm neg (fun i => (i : ℚ)) (between fun i => (i : ℚ)) q (roundAt rm neg m e 0 false) := by
  have := rounds_roundAt (p := 0) (mag := fun i => (i : ℚ)) (c := 0) (rm := rm) (neg := neg) h (by simp) (fun _ _ => rfl) rfl
    fun i _ _ => by simp
  simpa using this

/-- R81, R95: the encoding into an integer format. -/
theorem encodes_int (sg : Bool) {w : Nat} (hw : 1 ≤ w) (h : Digits m e false q) (hm : m ≠ 0) (s : Bool) :
    (Fmt.int sg w).Encodes rm s neg q (encodeInt sg w rm (.fin neg m e false)) := by
  refine ⟨_, rounds_int h, ?_⟩
  have half : 2 ^ w - 2 ^ (w - 1) = 2 ^ (w - 1) := by
    obtain ⟨v, rfl⟩ : ∃ v, w = v + 1 := ⟨w - 1, by omega⟩
    rw [Nat.add_sub_cancel, pow_succ]; omega
  have low : 2 ^ (w - 1) % 2 ^ w = 2 ^ (w - 1) := Nat.mod_eq_of_lt (Nat.pow_lt_pow_right (by norm_num) (by omega))
  simp only [encodeInt, Fmt.code, hm, decide_false, Bool.false_and, Bool.false_eq_true, if_false]
  generalize roundAt rm neg m e 0 false = k
  cases neg <;> cases sg <;> simp only [Bool.true_and, Bool.false_and, Bool.not_true, Bool.not_false, if_true, if_false,
    Bool.false_eq_true, half, low, ← not_lt, ite_not]

end

end Sys2Proof.Machine
end

section
/-! PROOFS. The tapered formats (R90, R91): the numbers of their codes increase, a code with one more digit stands for the same number,
and encoding rounds the exact pattern to a neighbour. -/

namespace Sys2Proof.Machine

section

/-! ### Runs of bits -/

/-- The length of a run that ends. -/
theorem length_takeWhile_range {p : Nat → Bool} {m n : Nat} (hm : m ≤ n) (run : ∀ i < m, p i = true) (stop : m < n → p m = false) :
    ((List.range n).takeWhile p).length = m := by
  obtain ⟨d, rfl⟩ := Nat.exists_eq_add_of_le hm
  rw [List.range_add, List.takeWhile_append_of_pos (by simpa using run)]
  have rest : ((List.range d).map (m + ·)).takeWhile p = [] := by
    cases d with
    | zero => rfl
    | succ d => rw [List.range_succ_eq_map, List.map_cons, Nat.add_zero, List.takeWhile_cons_of_neg (by simp [stop])]
  rw [rest, List.append_nil, List.length_range]

/-- The model's run, counted from bit `i` down, is that of the rules. -/
theorem runLen_eq (x : Nat) (b : Bool) (i : Nat) :
    runLen x b.toNat i = ((List.range (i + 1)).takeWhile fun j => x.testBit (i - j) == b).length := by
  have test (k : Nat) : (x / 2 ^ k % 2 = b.toNat) ↔ (x.testBit k == b) = true := by
    rw [beq_iff_eq, Nat.testBit_eq_decide_div_mod_eq]
    cases b <;> simp
  induction i with
  | zero =>
    have := test 0
    by_cases h : x.testBit 0 == b <;> simp_all [runLen]
  | succ i ih =>
    rw [runLen, ih, List.range_succ_eq_map (n := i + 1), List.takeWhile_cons, List.takeWhile_map, Nat.sub_zero]
    by_cases h : (x.testBit (i + 1) == b) = true
    · rw [if_pos ((test _).2 h), if_pos h, List.length_cons, List.length_map, Nat.add_comm]
      simp [Function.comp_def]
    · rw [if_neg (mt (test _).1 h), if_neg h]; rfl

/-! ### The low part of a tapered code: exponent and fraction (R90) -/

/-- Exponent and fraction of a tapered code from the `L` digits below its regime, those that are missing being 0. -/
def tapLow (es L y : Nat) : ℚ :=
  let ne := min es L; let nf := L - ne
  (2 : ℚ) ^ (y / 2 ^ nf * 2 ^ (es - ne)) * (1 + ((y % 2 ^ nf : Nat) : ℚ) / 2 ^ nf)

variable {es L y z : Nat}

theorem fraction_bounds (nf y : Nat) : (1 : ℚ) ≤ 1 + ((y % 2 ^ nf : Nat) : ℚ) / 2 ^ nf ∧ 1 + ((y % 2 ^ nf : Nat) : ℚ) / 2 ^ nf < 2 := by
  have lt : ((y % 2 ^ nf : Nat) : ℚ) < 2 ^ nf := by exact_mod_cast Nat.mod_lt y (Nat.two_pow_pos nf)
  have frac : ((y % 2 ^ nf : Nat) : ℚ) / 2 ^ nf < 1 := (div_lt_one (by positivity)).2 lt
  exact ⟨by simp; positivity, by linarith⟩

theorem one_le_tapLow (es L y : Nat) : 1 ≤ tapLow es L y :=
  one_le_mul_of_one_le_of_one_le (one_le_pow₀ (by norm_num)) (fraction_bounds _ y).1

/-- The low part is below the next exponent. -/
theorem tapLow_lt_succ (es L y : Nat) : tapLow es L y < (2 : ℚ) ^ ((y / 2 ^ (L - min es L) + 1) * 2 ^ (es - min es L)) := by
  have step : y / 2 ^ (L - min es L) * 2 ^ (es - min es L) + 1 ≤ (y / 2 ^ (L - min es L) + 1) * 2 ^ (es - min es L) := by
    rw [Nat.add_mul]; have := Nat.one_le_two_pow (n := es - min es L); omega
  calc tapLow es L y < (2 : ℚ) ^ (y / 2 ^ (L - min es L) * 2 ^ (es - min es L)) * 2 :=
        mul_lt_mul_of_pos_left (fraction_bounds _ y).2 (by positivity)
    _ = (2 : ℚ) ^ (y / 2 ^ (L - min es L) * 2 ^ (es - min es L) + 1) := (pow_succ _ _).symm
    _ ≤ _ := pow_le_pow_right₀ (by norm_num) step

theorem tapLow_lt (hy : y < 2 ^ L) : tapLow es L y < (2 : ℚ) ^ 2 ^ es := by
  refine (tapLow_lt_succ es L y).trans_le (pow_le_pow_right₀ (by norm_num) ?_)
  have ex : y / 2 ^ (L - min es L) + 1 ≤ 2 ^ min es L := by
    refine Nat.succ_le_of_lt (Nat.div_lt_of_lt_mul ?_)
    rwa [← pow_add, Nat.sub_add_cancel (Nat.min_le_right _ _)]
  calc _ ≤ 2 ^ min es L * 2 ^ (es - min es L) := Nat.mul_le_mul_right _ ex
    _ = 2 ^ es := by rw [← pow_add]; congr 1; omega

theorem tapLow_strictMono (es L : Nat) {y z : Nat} (h : y < z) : tapLow es L y < tapLow es L z := by
  obtain lt | eq := (Nat.div_le_div_right (c := 2 ^ (L - min es L)) h.le).lt_or_eq
  · refine (tapLow_lt_succ es L y).trans_le ?_
    calc _ ≤ (2 : ℚ) ^ (z / 2 ^ (L - min es L) * 2 ^ (es - min es L)) := pow_le_pow_right₀ (by norm_num) (Nat.mul_le_mul_right _ lt)
      _ ≤ tapLow es L z := le_mul_of_one_le_right (by positivity) (fraction_bounds _ z).1
  · have rest : y % 2 ^ (L - min es L) < z % 2 ^ (L - min es L) := by
      have hy := Nat.div_add_mod y (2 ^ (L - min es L)); have hz := Nat.div_add_mod z (2 ^ (L - min es L))
      rw [eq] at hy; omega
    simp only [tapLow, eq]
    refine mul_lt_mul_of_pos_left ?_ (by positivity)
    have : ((y % 2 ^ (L - min es L) : Nat) : ℚ) < (z % 2 ^ (L - min es L) : Nat) := by exact_mod_cast rest
    gcongr

/-- One more digit, a zero, changes nothing. -/
theorem tapLow_double (es L y : Nat) : tapLow es (L + 1) (2 * y) = tapLow es L y := by
  simp only [tapLow]
  by_cases h : L < es
  · rw [Nat.min_eq_right h.le, Nat.min_eq_right (show L + 1 ≤ es by omega), show es - L = (es - (L + 1)) + 1 by omega]
    simp only [Nat.sub_self, pow_zero, Nat.div_one, Nat.mod_one, pow_succ]
    congr 2
    ring
  · rw [Nat.min_eq_left (show es ≤ L by omega), Nat.min_eq_left (show es ≤ L + 1 by omega), show L + 1 - es = (L - es) + 1 by omega,
      pow_succ' 2 (L - es), Nat.mul_div_mul_left _ _ (by norm_num), Nat.mul_mod_mul_left]
    push_cast
    rw [pow_succ', mul_div_mul_left _ _ (by norm_num)]

/-- A whole exponent and a fraction; a fraction of 1 carries into the exponent. -/
theorem tapLow_full (es bl ee : Nat) {f : Nat} (hf : f ≤ 2 ^ bl) :
    tapLow es (es + bl) (ee * 2 ^ bl + f) = (2 : ℚ) ^ ee * (1 + (f : ℚ) / 2 ^ bl) := by
  have pos := Nat.two_pow_pos bl
  simp only [tapLow, Nat.min_eq_left (Nat.le_add_right es bl), Nat.add_sub_cancel_left, Nat.sub_self, pow_zero, Nat.mul_one]
  obtain lt | rfl := hf.lt_or_eq
  · rw [Nat.mul_comm ee, Nat.mul_add_div pos, Nat.mul_add_mod, Nat.div_eq_of_lt lt, Nat.mod_eq_of_lt lt, Nat.add_zero]
  · rw [← Nat.succ_mul, Nat.mul_div_cancel _ pos, Nat.mul_mod_left]
    push_cast
    rw [div_self (by positivity), pow_succ]
    ring

/-! ### Regimes (R90, R91) -/

/-- The digits of regime `k` and how many they are. -/
def tapRl (k : Int) : Nat := if 0 ≤ k then k.toNat + 2 else (-k).toNat + 1
def tapReg (k : Int) : Nat := if 0 ≤ k then 2 ^ tapRl k - 2 else 1

theorem tapRl_neg (m : Nat) : tapRl (-(m + 1 : Nat)) = m + 2 := by unfold tapRl; rw [if_neg (by omega)]; omega
theorem tapRl_nonneg (m : Nat) : tapRl m = m + 2 := by unfold tapRl; rw [if_pos (by omega)]; omega
theorem tapReg_neg (m : Nat) : tapReg (-(m + 1 : Nat)) = 1 := by unfold tapReg; rw [if_neg (by omega)]
theorem tapReg_nonneg (m : Nat) : tapReg m = 2 * (2 ^ (m + 1) - 1) := by
  unfold tapReg; rw [if_pos (by omega), tapRl_nonneg, pow_succ]; omega
theorem int_cases (k : Int) : (∃ m : Nat, k = -(m + 1 : Nat)) ∨ ∃ m : Nat, k = m := by
  rcases k with m | m
  · exact .inr ⟨m, rfl⟩
  · exact .inl ⟨m, rfl⟩

theorem testBit_ones (m j : Nat) : (2 * (2 ^ m - 1)).testBit j = (decide (1 ≤ j) && decide (j - 1 < m)) := by
  cases j with
  | zero => simp
  | succ j => rw [Nat.mul_comm, Nat.testBit_succ, Nat.mul_div_cancel _ (by norm_num), Nat.testBit_two_pow_sub_one]; simp

/-- The number of a code from its run. -/
theorem tapNum_of_run {N L a : Nat} {r : Bool} {m : Nat} (hN : N = m + 2 + L) (hy : y < 2 ^ L)
    (first : (2 ^ L * a + y).testBit (N - 2) = r)
    (run : ∀ i < m, (2 ^ L * a + y).testBit (N - 2 - i) = r) (stop : (2 ^ L * a + y).testBit L = !r) :
    tapNum N es (2 ^ L * a + y) = (2 : ℚ) ^ ((if r then (m : Int) - 1 else -(m : Int)) * 2 ^ es) * tapLow es L y := by
  have len : ((List.range (N - 1)).takeWhile fun i => (2 ^ L * a + y).testBit (N - 2 - i) == r).length = m := by
    refine length_takeWhile_range (by omega) (fun i hi => by simp [run i hi]) fun _ => ?_
    rw [show N - 2 - m = L by omega, stop]; cases r <;> rfl
  have parts : 2 ^ L = 2 ^ (L - min es L) * 2 ^ min es L := by rw [← pow_add]; congr 1; omega
  have ex : (2 ^ L * a + y) / 2 ^ (L - min es L) % 2 ^ min es L = y / 2 ^ (L - min es L) := by
    have hq : y / 2 ^ (L - min es L) < 2 ^ min es L := Nat.div_lt_of_lt_mul (parts ▸ hy)
    rw [parts, Nat.mul_assoc, Nat.mul_add_div (by positivity), Nat.mul_add_mod, Nat.mod_eq_of_lt hq]
  have fr : (2 ^ L * a + y) % 2 ^ (L - min es L) = y % 2 ^ (L - min es L) := by
    rw [parts, Nat.mul_assoc, Nat.mul_add_mod]
  simp only [tapNum, first, len, show N - 2 - m = L by omega, ex, fr, tapLow]
  rw [← mul_assoc, ← zpow_natCast (2 : ℚ) (_ * _), ← zpow_add₀ (by norm_num)]

/-- R90: the number of the code of a regime and the digits below it. -/
theorem tapNum_regime (k : Int) (hy : y < 2 ^ L) :
    tapNum (tapRl k + L + 1) es (tapReg k * 2 ^ L + y) = (2 : ℚ) ^ (k * 2 ^ es) * tapLow es L y := by
  rw [Nat.mul_comm (tapReg k)]
  have bit (a j : Nat) := Nat.testBit_two_pow_mul_add a hy j
  obtain ⟨m, rfl⟩ | ⟨m, rfl⟩ := int_cases k
  · rw [tapRl_neg, tapReg_neg, tapNum_of_run (r := false) (m := m + 1) (by omega) hy]
    · simp
    · rw [bit, if_neg (by omega)]; exact Nat.testBit_lt_two_pow (Nat.one_lt_two_pow (by omega))
    · intro i hi
      rw [bit, if_neg (by omega)]; exact Nat.testBit_lt_two_pow (Nat.one_lt_two_pow (by omega))
    · rw [bit, if_neg (by omega)]; simp
  · rw [tapRl_nonneg, tapReg_nonneg, tapNum_of_run (r := true) (m := m + 1) (by omega) hy]
    · simp
    · rw [bit, if_neg (by omega), testBit_ones]; simp
    · intro i hi
      rw [bit, if_neg (by omega), testBit_ones]; simp; omega
    · rw [bit, if_neg (by omega), testBit_ones]; simp

/-- The largest code (R90). -/
theorem tapNum_top (es : Nat) {D : Nat} (hD : 1 ≤ D) : tapNum (D + 1) es (2 ^ D - 1) = (2 : ℚ) ^ (((D : Int) - 1) * 2 ^ es) := by
  have bit (i : Nat) : (2 ^ D - 1).testBit (D + 1 - 2 - i) = true := by rw [Nat.testBit_two_pow_sub_one]; simp; omega
  have first := bit 0
  rw [Nat.sub_zero] at first
  have len : ((List.range (D + 1 - 1)).takeWhile fun i => (2 ^ D - 1).testBit (D + 1 - 2 - i) == true).length = D :=
    length_takeWhile_range (by omega) (fun i _ => beq_iff_eq.2 (bit i)) (by omega)
  have left : D + 1 - 2 - D = 0 := by omega
  simp only [tapNum, first, len, left, Nat.min_zero, Nat.sub_self, pow_zero, Nat.mod_one]
  norm_num

/-- The regimes follow one another: the code after the last of a regime begins the next. -/
theorem tapNum_carry (k : Int) (hL : 1 ≤ L) :
    tapNum (tapRl k + L + 1) es ((tapReg k + 1) * 2 ^ L) = (2 : ℚ) ^ ((k + 1) * 2 ^ es) := by
  have start (k : Int) (L : Nat) : tapNum (tapRl k + L + 1) es (tapReg k * 2 ^ L) = (2 : ℚ) ^ (k * 2 ^ es) := by
    have := tapNum_regime (es := es) k (Nat.two_pow_pos L)
    rw [← Nat.add_zero (tapReg k * 2 ^ L), this]; simp [tapLow]
  obtain ⟨_ | m, rfl⟩ | ⟨m, rfl⟩ := int_cases k
  · have := start 0 L
    rwa [show tapReg 0 = 2 from tapReg_nonneg 0, show tapRl 0 = 2 from tapRl_nonneg 0] at this
  · have := start (-(m + 1 : Nat)) (L + 1)
    rw [tapReg_neg, tapRl_neg, one_mul] at this
    rw [tapReg_neg, tapRl_neg, show (1 + 1) * 2 ^ L = 2 ^ (L + 1) by rw [pow_succ]; ring, show m + 1 + 2 + L + 1 = m + 2 + (L + 1) + 1 by ring,
      this]
    push_cast; ring_nf
  · obtain ⟨l, rfl⟩ : ∃ l, L = l + 1 := ⟨L - 1, by omega⟩
    have := start ((m + 1 : Nat) : Int) l
    rw [tapReg_nonneg, tapRl_nonneg] at this
    rw [tapReg_nonneg, tapRl_nonneg, show m + 2 + (l + 1) + 1 = m + 1 + 2 + l + 1 by ring]
    have digits : (2 * (2 ^ (m + 1) - 1) + 1) * 2 ^ (l + 1) = 2 * (2 ^ (m + 1 + 1) - 1) * 2 ^ l := by
      have := Nat.one_le_two_pow (n := m + 1)
      rw [pow_succ 2 (m + 1), show 2 * (2 ^ (m + 1) - 1) + 1 = 2 ^ (m + 1) * 2 - 1 by omega, pow_succ 2 l]
      ring
    rw [digits, this]
    push_cast; rfl

/-- Every positive code is the largest, or a regime with digits below it. -/
theorem tap_forms {D x : Nat} (h1 : 1 ≤ x) (h2 : x < 2 ^ D) :
    x = 2 ^ D - 1 ∨ ∃ (k : Int) (L y : Nat), y < 2 ^ L ∧ D = tapRl k + L ∧ x = tapReg k * 2 ^ L + y := by
  by_cases half : x < 2 ^ (D - 1)
  · right
    have hx : x ≠ 0 := by omega
    have hlow := Nat.log2_self_le hx
    have hhigh := Nat.lt_log2_self (n := x)
    have hL : x.log2 < D - 1 := (Nat.log2_lt hx).2 half
    refine ⟨-((D - 2 - x.log2) + 1 : Nat), x.log2, x - 2 ^ x.log2, by rw [pow_succ] at hhigh; omega, ?_, ?_⟩
    · rw [tapRl_neg]; omega
    · rw [tapReg_neg]; omega
  · by_cases top : x = 2 ^ D - 1
    · exact .inl top
    · right
      -- the complement's leading one is the regime's terminating zero
      have hc : 2 ^ D - 1 - x ≠ 0 := by omega
      have hD : 1 ≤ D := by
        by_contra h; obtain rfl : D = 0 := by omega
        simp at h2; omega
      have two : 2 ^ D = 2 * 2 ^ (D - 1) := by rw [← pow_succ']; congr 1; omega
      have hlow := Nat.log2_self_le hc
      have hhigh := Nat.lt_log2_self (n := 2 ^ D - 1 - x)
      generalize hL : (2 ^ D - 1 - x).log2 = L at hlow hhigh
      have hL' : L < D - 1 := hL ▸ (Nat.log2_lt hc).2 (by omega)
      have digits : 2 * (2 ^ (D - 2 - L + 1) - 1) * 2 ^ L = 2 ^ D - 2 ^ (L + 1) := by
        rw [Nat.mul_assoc, Nat.sub_mul, ← pow_add, Nat.mul_sub, ← pow_succ', one_mul, ← pow_succ']; congr 2; omega
      have le : 2 ^ (L + 1) ≤ 2 ^ D := Nat.pow_le_pow_right (by norm_num) (by omega)
      rw [pow_succ] at hhigh
      refine ⟨((D - 2 - L : Nat) : Int), L, x - (2 ^ D - 2 ^ (L + 1)), ?_, ?_, ?_⟩
      · rw [pow_succ] at le ⊢; omega
      · rw [tapRl_nonneg]; omega
      · rw [tapReg_nonneg, digits]; rw [pow_succ] at le ⊢; omega

end

section

variable {es D x y : Nat}

theorem zpow_two_strictMono {a b : Int} (h : a < b) : (2 : ℚ) ^ a < (2 : ℚ) ^ b := zpow_lt_zpow_right₀ (by norm_num) h
theorem zpow_two_mono {a b : Int} (h : a ≤ b) : (2 : ℚ) ^ a ≤ (2 : ℚ) ^ b := zpow_le_zpow_right₀ (by norm_num) h

/-- The bounds of a regime. -/
theorem regime_bounds (k : Int) {L : Nat} (hy : y < 2 ^ L) :
    (2 : ℚ) ^ (k * 2 ^ es) ≤ (2 : ℚ) ^ (k * 2 ^ es) * tapLow es L y ∧
      (2 : ℚ) ^ (k * 2 ^ es) * tapLow es L y < (2 : ℚ) ^ ((k + 1) * 2 ^ es) := by
  constructor
  · exact le_mul_of_one_le_right (by positivity) (one_le_tapLow es L y)
  · rw [add_mul, one_mul, zpow_add₀ (by norm_num)]
    exact mul_lt_mul_of_pos_left (by exact_mod_cast tapLow_lt hy) (by positivity)

/-- Of two codes the one of the lower regime is the lower. -/
theorem regime_le {k k' : Int} {L L' y y' : Nat} (hy' : y' < 2 ^ L') (hD : tapRl k + L = tapRl k' + L')
    (h : tapReg k * 2 ^ L + y < tapReg k' * 2 ^ L' + y') : k ≤ k' := by
  by_contra lt
  obtain ⟨m, rfl⟩ | ⟨m, rfl⟩ := int_cases k <;> obtain ⟨m', rfl⟩ | ⟨m', rfl⟩ := int_cases k'
  · rw [tapRl_neg, tapRl_neg] at hD
    rw [tapReg_neg, tapReg_neg] at h
    have := Nat.pow_le_pow_right (n := 2) (by norm_num) (show L' + 1 ≤ L by omega)
    rw [pow_succ] at this
    omega
  · omega
  · rw [tapRl_nonneg, tapRl_neg] at hD
    rw [tapReg_nonneg, tapReg_neg] at h
    have := Nat.pow_le_pow_right (n := 2) (by norm_num) (show L' + 1 ≤ m + 1 + L by omega)
    have one := Nat.one_le_two_pow (n := m + 1)
    have big : 2 ^ (m + 1) * 2 ^ L ≤ 2 * (2 ^ (m + 1) - 1) * 2 ^ L := Nat.mul_le_mul_right _ (by rw [pow_succ] at one ⊢; omega)
    rw [pow_succ, pow_add] at this
    omega
  · rw [tapRl_nonneg, tapRl_nonneg] at hD
    rw [tapReg_nonneg, tapReg_nonneg] at h
    have whole (m L : Nat) : 2 * (2 ^ (m + 1) - 1) * 2 ^ L = 2 ^ (m + 2 + L) - 2 ^ (L + 1) := by
      rw [Nat.mul_sub, ← pow_succ', Nat.sub_mul, ← pow_add, mul_one, ← pow_succ']
    rw [whole, whole, hD] at h
    have le := Nat.pow_le_pow_right (n := 2) (by norm_num) (show L + 1 ≤ L' by omega)
    have le' := Nat.pow_le_pow_right (n := 2) (by norm_num) (show L' + 1 ≤ m' + 2 + L' by omega)
    rw [pow_succ 2 L'] at h le'
    omega

/-- R90, R93: the numbers of the positive codes increase. -/
theorem tapNum_strictMono (h1 : 1 ≤ x) (h : x < y) (h2 : y < 2 ^ D) : tapNum (D + 1) es x < tapNum (D + 1) es y := by
  obtain rfl | ⟨k, L, u, hu, hD, rfl⟩ := tap_forms h1 (h.trans h2)
  · omega
  · have low := regime_bounds (es := es) k hu
    rw [hD, tapNum_regime k hu]
    obtain rfl | ⟨k', L', v, hv, hD', rfl⟩ := tap_forms (h1.trans h.le) h2
    · rw [← hD, tapNum_top es (by unfold tapRl at hD; split at hD <;> omega)]
      refine low.2.trans_le (zpow_two_mono (mul_le_mul_of_nonneg_right ?_ (by positivity)))
      unfold tapRl at hD; split at hD <;> omega
    · have le := regime_le hv (hD.symm.trans hD') h
      rw [← hD, hD', tapNum_regime k' hv]
      obtain lt | rfl := le.lt_or_eq
      · refine low.2.trans_le (le_trans ?_ (regime_bounds k' hv).1)
        exact zpow_two_mono (mul_le_mul_of_nonneg_right (by omega) (by positivity))
      · obtain rfl : L = L' := by omega
        exact mul_lt_mul_of_pos_left (tapLow_strictMono es L (by omega)) (by positivity)

/-- A code with one more digit, a zero, stands for the same number. -/
theorem tapNum_double (h1 : 1 ≤ x) (h2 : x < 2 ^ D) : tapNum (D + 1 + 1) es (2 * x) = tapNum (D + 1) es x := by
  obtain rfl | ⟨k, L, u, hu, rfl, rfl⟩ := tap_forms h1 h2
  · have hD : 1 ≤ D := by
      by_contra h; obtain rfl : D = 0 := by omega
      simp at h1
    obtain ⟨m, rfl⟩ : ∃ m, D = m + 1 := ⟨D - 1, by omega⟩
    have last := tapNum_regime (es := es) (L := 0) (y := 0) (m : Int) (by norm_num)
    rw [tapRl_nonneg, tapReg_nonneg] at last
    simp only [Nat.add_zero, pow_zero, Nat.mul_one] at last
    rw [tapNum_top es hD, last]
    simp [tapLow]
  · have := tapNum_regime (es := es) (L := L + 1) (y := 2 * u) k (by rw [pow_succ]; omega)
    rw [show tapRl k + L + 1 + 1 = tapRl k + (L + 1) + 1 by ring,
      show 2 * (tapReg k * 2 ^ L + u) = tapReg k * 2 ^ (L + 1) + 2 * u by rw [pow_succ]; ring, this, tapLow_double, tapNum_regime k hu]

theorem tapNum_shift (h1 : 1 ≤ x) (h2 : x < 2 ^ D) (j : Nat) : tapNum (D + j + 1) es (x * 2 ^ j) = tapNum (D + 1) es x := by
  induction j with
  | zero => simp
  | succ j ih =>
    rw [← ih, pow_succ, ← mul_assoc, mul_comm _ 2, show D + (j + 1) + 1 = D + j + 1 + 1 by ring]
    refine tapNum_double (Nat.mul_pos h1 (Nat.two_pow_pos j)) ?_
    rw [pow_add]
    exact Nat.mul_lt_mul_of_pos_right h2 (Nat.two_pow_pos j)

/-! ### Decoding (R90) -/

/-- The model's magnitude of a positive code is the number of the rules. -/
theorem tapMag_num {n x : Nat} (hn : 2 ≤ n) : ((tapMag n es x).1 : ℚ) * (2 : ℚ) ^ (tapMag n es x).2 = tapNum n es x := by
  have hr : x / 2 ^ (n - 2) % 2 = (x.testBit (n - 2)).toNat := by
    rw [Nat.testBit_eq_decide_div_mod_eq]
    have := Nat.mod_lt (x / 2 ^ (n - 2)) (show 2 > 0 by norm_num)
    by_cases h : x / 2 ^ (n - 2) % 2 = 1
    · simp [h]
    · simp [show x / 2 ^ (n - 2) % 2 = 0 by omega]
  have hm := runLen_eq x (x.testBit (n - 2)) (n - 2)
  rw [show n - 2 + 1 = n - 1 by omega] at hm
  simp only [tapMag, tapNum, hr, hm]
  generalize ((List.range (n - 1)).takeWhile fun j => x.testBit (n - 2 - j) == x.testBit (n - 2)).length = m
  have hne : (if n - 2 - m < es then n - 2 - m else es) = min es (n - 2 - m) := by split <;> omega
  rw [hne]
  generalize hl : n - 2 - m = left
  have parts : 2 ^ left = 2 ^ (left - min es left) * 2 ^ min es left := by rw [← pow_add]; congr 1; omega
  have ex : x % 2 ^ left / 2 ^ (left - min es left) = x / 2 ^ (left - min es left) % 2 ^ min es left := by
    rw [parts, Nat.mod_mul_right_div_self]
  have fr : x % 2 ^ left % 2 ^ (left - min es left) = x % 2 ^ (left - min es left) := by
    rw [parts, Nat.mod_mul_right_mod]
  have hk : (if (x.testBit (n - 2)).toNat = 1 then (m : Int) - 1 else -(m : Int)) =
      if x.testBit (n - 2) then (m : Int) - 1 else -(m : Int) := by cases x.testBit (n - 2) <;> rfl
  rw [ex, fr, hk, zpow_sub₀ (by norm_num) _ ((left - min es left : Nat) : Int), zpow_natCast]
  push_cast
  field_simp

/-! ### Encoding (R91) -/

variable {m : Nat} {e : Int}

/-- R91: the exact pattern of a magnitude, and with `c` 1 that of the next unit where it has as many digits, stands for it. -/
theorem tapNum_tapPattern (es : Nat) {m : Nat} (hm : m ≠ 0) (e : Int) {c : Nat} (hc : c = 0 ∨ c = 1 ∧ 1 ≤ m.log2)
    (h : (tapPattern es m e).1 + c < 2 ^ (tapPattern es m e).2) :
    tapNum ((tapPattern es m e).2 + 1) es ((tapPattern es m e).1 + c) = ((m + c : Nat) : ℚ) * (2 : ℚ) ^ e := by
  have low := Nat.log2_self_le hm
  have high := Nat.lt_log2_self (n := m)
  have two : ((2 ^ es : Nat) : Int) ≠ 0 := by positivity
  have hE := Int.ediv_mul_add_emod ((m.log2 : Int) + e) ((2 ^ es : Nat) : Int)
  have hee0 := Int.emod_nonneg ((m.log2 : Int) + e) two
  have hee1 := Int.emod_lt_of_pos ((m.log2 : Int) + e) (show (0 : Int) < ((2 ^ es : Nat) : Int) by positivity)
  have digits (k : Int) : (if 0 ≤ k then k.toNat + 2 else (-k).toNat + 1) = tapRl k := rfl
  have regime (k : Int) : (if 0 ≤ k then 2 ^ tapRl k - 2 else 1) = tapReg k := rfl
  simp only [tapPattern, digits, regime] at h ⊢
  generalize hbl : m.log2 = bl at *
  generalize ((bl : Int) + e) / ((2 ^ es : Nat) : Int) = k at *
  obtain ⟨ee, hee⟩ := Int.eq_ofNat_of_zero_le hee0
  rw [hee] at hE hee1 h ⊢
  rw [Int.toNat_natCast] at h ⊢
  have ee_lt : ee < 2 ^ es := by exact_mod_cast hee1
  obtain ⟨f, hf⟩ := Nat.exists_eq_add_of_le low
  rw [pow_succ] at high
  have hfc : f + c ≤ 2 ^ bl := by omega
  have value : (2 : ℚ) ^ (k * 2 ^ es) * ((2 : ℚ) ^ ee * (1 + ((f + c : Nat) : ℚ) / 2 ^ bl)) = ((m + c : Nat) : ℚ) * (2 : ℚ) ^ e := by
    have he : e = k * 2 ^ es + ee - bl := by push_cast at hE; omega
    rw [he, hf, zpow_sub₀ (by norm_num), zpow_add₀ (by norm_num), zpow_natCast, zpow_natCast]
    push_cast
    field_simp
    ring
  have shape : (tapReg k * 2 ^ es + ee) * 2 ^ bl + (m - 2 ^ bl) + c = tapReg k * 2 ^ (es + bl) + (ee * 2 ^ bl + (f + c)) := by
    rw [hf, pow_add]; rw [Nat.add_sub_cancel_left]; ring
  have low_lt : ee * 2 ^ bl + (f + c) ≤ 2 ^ (es + bl) := by
    calc _ ≤ (ee + 1) * 2 ^ bl := by rw [Nat.add_mul]; omega
      _ ≤ 2 ^ es * 2 ^ bl := Nat.mul_le_mul_right _ ee_lt
      _ = _ := (pow_add _ _ _).symm
  rw [shape, show tapRl k + es + bl + 1 = tapRl k + (es + bl) + 1 by ring]
  obtain lt | eq := low_lt.lt_or_eq
  · rw [tapNum_regime k lt, tapLow_full es bl ee hfc, value]
  · have carry : f + c = 2 ^ bl ∧ ee + 1 = 2 ^ es := by
      have h1 : (ee + 1) * 2 ^ bl ≤ 2 ^ es * 2 ^ bl := Nat.mul_le_mul_right _ ee_lt
      rw [pow_add] at eq
      have h2 : f + c = 2 ^ bl := by rw [Nat.add_mul] at h1; omega
      refine ⟨h2, Nat.eq_of_mul_eq_mul_right (Nat.two_pow_pos bl) ?_⟩
      rw [← eq, h2]; ring
    have one : 1 ≤ es + bl := by
      rcases hc with rfl | ⟨-, hc⟩
      · omega
      · omega
    rw [eq, show tapReg k * 2 ^ (es + bl) + 2 ^ (es + bl) = (tapReg k + 1) * 2 ^ (es + bl) by ring, tapNum_carry k one, ← value,
      carry.1]
    push_cast
    rw [div_self (by positivity), show (1 : ℚ) + 1 = 2 by norm_num, ← pow_succ, carry.2, add_mul, one_mul, zpow_add₀ (by norm_num)]
    norm_cast

end

section

variable {n es m P D : Nat} {e : Int} {st : Bool} {q : ℝ} {rm : Rm} {neg : Bool}

/-- The pattern of a magnitude lies between the least and the greatest of its digits. -/
theorem tapPattern_bounds (es : Nat) {m : Nat} (hm : m ≠ 0) (e : Int) :
    1 ≤ (tapPattern es m e).1 ∧ (tapPattern es m e).1 + 1 < 2 ^ (tapPattern es m e).2 ∧ m.log2 ≤ (tapPattern es m e).2 := by
  have low := Nat.log2_self_le hm
  have high := Nat.lt_log2_self (n := m)
  have digits (k : Int) : (if 0 ≤ k then k.toNat + 2 else (-k).toNat + 1) = tapRl k := rfl
  have regime (k : Int) : (if 0 ≤ k then 2 ^ tapRl k - 2 else 1) = tapReg k := rfl
  have two : (0 : Int) < ((2 ^ es : Nat) : Int) := by positivity
  have hee0 := Int.emod_nonneg ((m.log2 : Int) + e) two.ne'
  have hee1 := Int.emod_lt_of_pos ((m.log2 : Int) + e) two
  simp only [tapPattern, digits, regime]
  generalize m.log2 = bl at *
  generalize ((bl : Int) + e) / ((2 ^ es : Nat) : Int) = k
  generalize ((bl : Int) + e) % ((2 ^ es : Nat) : Int) = r at *
  have hreg : 1 ≤ tapReg k ∧ tapReg k + 2 ≤ 2 ^ tapRl k := by
    obtain ⟨m, rfl⟩ | ⟨m, rfl⟩ := int_cases k
    · rw [tapReg_neg, tapRl_neg]; have := Nat.one_le_two_pow (n := m); rw [pow_add]; omega
    · rw [tapReg_nonneg, tapRl_nonneg]; have := Nat.one_le_two_pow (n := m); rw [pow_succ 2 (m + 1), pow_succ]; omega
  have hr : r.toNat + 1 ≤ 2 ^ es := by
    have : (r.toNat : Int) < ((2 ^ es : Nat) : Int) := by rwa [Int.toNat_of_nonneg hee0]
    exact_mod_cast this
  have one := Nat.one_le_two_pow (n := bl)
  rw [pow_succ] at high
  refine ⟨?_, ?_, by omega⟩
  · have : 1 * 1 ≤ (tapReg k * 2 ^ es + r.toNat) * 2 ^ bl :=
      Nat.mul_le_mul (le_trans (Nat.mul_pos hreg.1 (Nat.two_pow_pos es)) (Nat.le_add_right _ _)) one
    omega
  · calc (tapReg k * 2 ^ es + r.toNat) * 2 ^ bl + (m - 2 ^ bl) + 1 ≤ (tapReg k * 2 ^ es + (r.toNat + 1)) * 2 ^ bl := by
          rw [← Nat.add_assoc, Nat.add_mul _ 1]; omega
      _ ≤ (tapReg k + 1) * 2 ^ es * 2 ^ bl := Nat.mul_le_mul_right _ (by rw [Nat.add_mul]; omega)
      _ < (tapReg k + 2) * 2 ^ es * 2 ^ bl := by gcongr; norm_num
      _ ≤ 2 ^ tapRl k * 2 ^ es * 2 ^ bl := by gcongr; exact hreg.2
      _ = _ := by rw [← pow_add, ← pow_add]

/-- `q` among the codes of as many digits as its pattern has. -/
theorem at_tapPattern (es : Nat) (h : Digits m e st q) (hm : m ≠ 0) (hst : st = true → 1 ≤ m.log2) {T : Nat} (h1 : 1 ≤ T)
    (h2 : T < 2 ^ (tapPattern es m e).2) :
    At (fun T => (tapNum ((tapPattern es m e).2 + 1) es T : ℝ)) (tapPattern es m e).1 st q T := by
  obtain ⟨pos, lt, -⟩ := tapPattern_bounds es hm e
  refine at_of_digits h ?_ (fun hs hT => ?_) (fun hT => ?_) fun hT => ?_
  · rw [← Nat.add_zero (tapPattern es m e).1, tapNum_tapPattern es hm e (.inl rfl) (by omega)]
    push_cast; simp
  · have next := tapNum_tapPattern es hm e (.inr ⟨rfl, hst hs⟩) lt
    have le : tapNum ((tapPattern es m e).2 + 1) es ((tapPattern es m e).1 + 1) ≤ tapNum ((tapPattern es m e).2 + 1) es T := by
      obtain hT | hT := Nat.lt_or_eq_of_le (Nat.succ_le_of_lt hT)
      · exact (tapNum_strictMono (by omega) hT h2).le
      · rw [← hT]
    have := (Rat.cast_le (K := ℝ)).2 (next ▸ le)
    push_cast at this ⊢
    exact this
  · exact_mod_cast tapNum_strictMono h1 hT (by omega)
  · exact_mod_cast tapNum_strictMono pos hT h2

/-- The magnitudes of a tapered format with 0 below and a bound above them. -/
def tapLadder (n es k : Nat) : ℚ := if k = 0 then 0 else if k ≤ 2 ^ (n - 1) - 1 then tapNum n es k else (2 : ℚ) ^ ((n : Int) * 2 ^ es)

theorem tapLadder_code {k : Nat} (h1 : 1 ≤ k) (h2 : k < 2 ^ (n - 1)) : tapLadder n es k = tapNum n es k := by
  rw [tapLadder, if_neg (by omega), if_pos (by omega)]

theorem tapLadder_one (hn : 3 ≤ n) : tapLadder n es 1 = (2 : ℚ) ^ (-(((n : Int) - 2) * ((2 ^ es : Nat) : Int))) := by
  obtain ⟨k, rfl⟩ : ∃ k, n = k + 3 := ⟨n - 3, by omega⟩
  have := tapNum_regime (es := es) (L := 0) (y := 0) (-(k + 1 : Nat)) (by norm_num)
  rw [tapRl_neg, tapReg_neg] at this
  have one : tapNum (k + 3) es 1 = _ := this
  rw [tapLadder_code le_rfl (Nat.one_lt_two_pow (by omega)), one, show tapLow es 0 0 = 1 by simp [tapLow]]
  push_cast
  rw [mul_one]
  congr 1
  ring

theorem tapLadder_top (hn : 3 ≤ n) : tapLadder n es (2 ^ (n - 1) - 1) = (2 : ℚ) ^ (((n : Int) - 2) * ((2 ^ es : Nat) : Int)) := by
  have two := Nat.one_lt_two_pow (n := n - 1) (by omega)
  have top := tapNum_top es (D := n - 1) (by omega)
  rw [show n - 1 + 1 = n by omega] at top
  rw [tapLadder_code (by omega) (by omega), top]
  push_cast [Nat.cast_sub (show 1 ≤ n by omega)]
  congr 1
  ring

/-- Above the largest code the bound is above its number. -/
theorem lt_tapLadder_bound (hn : 3 ≤ n) (h : q ≤ tapLadder n es (2 ^ (n - 1) - 1)) : q < tapLadder n es (2 ^ (n - 1)) := by
  refine h.trans_lt ?_
  have two := Nat.two_pow_pos (n - 1)
  have bound : tapLadder n es (2 ^ (n - 1)) = (2 : ℚ) ^ ((n : Int) * 2 ^ es) := by
    rw [tapLadder, if_neg (by omega), if_neg (by omega)]
  rw [tapLadder_top hn, bound]
  refine Rat.cast_lt.2 (zpow_two_strictMono ?_)
  have pos : (0 : Int) < 2 ^ es := by positivity
  push_cast
  rw [sub_mul]
  omega

/-! ### Clamping (R91) -/

/-- Comparing a magnitude with a power of two. -/
theorem magGt_one (h : Digits m e st q) (hm : m ≠ 0) (t : Int) : magGt m e st 1 t = true ↔ (2 : ℝ) ^ t < q := by
  by_cases het : e ≤ t
  · obtain ⟨j, rfl⟩ : ∃ j : Nat, t = e + j := ⟨(t - e).toNat, by omega⟩
    have here := h.at (2 ^ j)
    have place : ((2 ^ j : Nat) : ℝ) * (2 : ℝ) ^ e = (2 : ℝ) ^ (e + j) := by rw [zpow_add₀ (by norm_num), zpow_natCast]; push_cast; ring
    rw [← place, ← not_le, le_iff_lt_or_eq, here.lt, here.eq]
    have min : (if e < e + (j : Int) then e else e + j) = e := by split <;> omega
    simp only [magGt, min, shl, sub_self, Int.toNat_zero, pow_zero, mul_one, one_mul, add_sub_cancel_left, Int.toNat_natCast]
    cases st <;> simp only [Bool.true_and, Bool.false_and, Bool.or_false, Bool.or_eq_true, decide_eq_true_eq, beq_iff_eq] <;>
      simp <;> omega
  · obtain ⟨j, rfl⟩ : ∃ j : Nat, e = t + (j + 1 : Nat) := ⟨(e - t - 1).toNat, by omega⟩
    have min : (if t + ((j + 1 : Nat) : Int) < t then t + ((j + 1 : Nat) : Int) else t) = t := by split <;> omega
    have big : 1 < m * 2 ^ (j + 1) := by
      have := Nat.mul_le_mul (Nat.one_le_iff_ne_zero.2 hm) (Nat.pow_le_pow_right (n := 2) (by norm_num) (show 1 ≤ j + 1 by omega))
      omega
    refine iff_of_true ?_ (lt_of_lt_of_le ?_ h.le)
    · simp only [magGt, min, shl, sub_self, Int.toNat_zero, pow_zero, add_sub_cancel_left, Int.toNat_natCast]
      simp [big]
    · rw [zpow_add₀ (by norm_num), zpow_natCast, ← mul_assoc, mul_comm (m : ℝ), mul_assoc]
      exact lt_mul_of_one_lt_right (by positivity) (by exact_mod_cast big)

theorem magLt_one (h : Digits m e st q) (hm : m ≠ 0) (t : Int) : magLt m e 1 t = true ↔ q < (2 : ℝ) ^ t := by
  by_cases het : e ≤ t
  · obtain ⟨j, rfl⟩ : ∃ j : Nat, t = e + j := ⟨(t - e).toNat, by omega⟩
    have place : ((2 ^ j : Nat) : ℝ) * (2 : ℝ) ^ e = (2 : ℝ) ^ (e + j) := by rw [zpow_add₀ (by norm_num), zpow_natCast]; push_cast; ring
    rw [← place, (h.at (2 ^ j)).lt]
    have min : (if e < e + (j : Int) then e else e + j) = e := by split <;> omega
    simp only [magLt, min, shl, sub_self, Int.toNat_zero, pow_zero, mul_one, one_mul, add_sub_cancel_left, Int.toNat_natCast,
      decide_eq_true_eq]
  · obtain ⟨j, rfl⟩ : ∃ j : Nat, e = t + j := ⟨(e - t).toNat, by omega⟩
    have min : (if t + (j : Int) < t then t + (j : Int) else t) = t := by split <;> omega
    have big : 1 ≤ m * 2 ^ j := Nat.mul_pos (Nat.pos_of_ne_zero hm) (Nat.two_pow_pos j)
    refine iff_of_false ?_ (le_trans ?_ h.le).not_gt
    · simp only [magLt, min, shl, sub_self, Int.toNat_zero, pow_zero, add_sub_cancel_left, Int.toNat_natCast, decide_eq_true_eq]
      omega
    · rw [zpow_add₀ (by norm_num), zpow_natCast, ← mul_assoc, mul_comm (m : ℝ), mul_assoc]
      exact le_mul_of_one_le_right (by positivity) (by exact_mod_cast big)

/-! ### Rounding a pattern (R91, R98) -/

/-- The rounding of an exact pattern `P` of `D` digits to the digits of a format, as the model encodes it. -/
def tapRound (n es : Nat) (rm : Rm) (neg : Bool) (m : Nat) (e : Int) (st : Bool) : Nat :=
  let p := tapPattern es m e
  if p.2 ≤ n - 1 then roundMag rm neg (p.1 * 2 ^ (n - 1 - p.2)) 0 st
  else
    match rm with
    | .sr r =>
      let lo := p.1 / 2 ^ (p.2 - (n - 1))
      if p.1 % 2 ^ (p.2 - (n - 1)) = 0 then lo
      else
        let a := tapMag n es lo
        let b := tapMag n es (lo + 1)
        let e0 := if e < a.2 then (if e < b.2 then e else b.2) else (if a.2 < b.2 then a.2 else b.2)
        let xa := shl a.1 (a.2 - e0)
        let g := (shl m (e - e0) - xa) * 2 ^ 32 / (shl b.1 (b.2 - e0) - xa)
        if 2 ^ 32 ≤ g + r % 2 ^ 32 then lo + 1 else lo
    | _ => roundMag rm neg p.1 (p.2 - (n - 1)) st

/-- R91, R95: a magnitude that is not 0 clamps at the ends of the range and is rounded between them. -/
theorem encodeTap_fin (n es : Nat) (rm : Rm) (neg : Bool) {m : Nat} (hm : m ≠ 0) (e : Int) (st : Bool) :
    let top : Int := ((n : Int) - 2) * ((2 ^ es : Nat) : Int)
    let sg (c : Nat) : Nat := if neg then 2 ^ n - c else c
    encodeTap n es rm (.fin neg m e st) =
      if magGt m e st 1 top then { code := sg (2 ^ (n - 1) - 1), clamp := true }
      else if magLt m e 1 (-top) then { code := sg 1, clamp := true }
      else { code := sg (tapRound n es rm neg m e st) } := by
  simp only [encodeTap, hm, decide_false, Bool.false_and, Bool.false_or, Bool.false_eq_true, if_false]
  split
  · rfl
  · split
    · rfl
    · rfl

theorem roundMag_bounds (rm : Rm) (neg : Bool) (P j : Nat) (st : Bool) :
    P / 2 ^ j ≤ roundMag rm neg P j st ∧ roundMag rm neg P j st ≤ P / 2 ^ j + 1 := by
  have up (b : Bool) (k : Nat) : k ≤ (if b then k + 1 else k) ∧ (if b then k + 1 else k) ≤ k + 1 := by cases b <;> simp
  unfold roundMag
  dsimp only
  split
  · omega
  · exact up _ _

theorem roundMag_zero (rm : Rm) (neg : Bool) (P : Nat) : roundMag rm neg P 0 false = P := by simp [roundMag, Nat.mod_one]

end

section

variable {n es m P D : Nat} {e : Int} {st : Bool} {q : ℝ} {rm : Rm} {neg : Bool}

/-- The codes with the digits of a longer pattern. -/
theorem tapLadder_shift (hn : 3 ≤ n) {k j : Nat} (h1 : 1 ≤ k) (h2 : k < 2 ^ (n - 1)) :
    tapNum (n - 1 + j + 1) es (k * 2 ^ j) = tapLadder n es k := by
  rw [tapNum_shift h1 h2, tapLadder_code h1 h2, show n - 1 + 1 = n by omega]

/-- R98: SR goes by the distance in value, which the model measures in a common unit. -/
theorem floor_distance {a b m : Nat} {ea eb e e0 : Int} {A B : ℚ} (ha : (a : ℚ) * (2 : ℚ) ^ ea = A) (hb : (b : ℚ) * (2 : ℚ) ^ eb = B)
    (hq : q = (m : ℝ) * (2 : ℝ) ^ e) (h0a : e0 ≤ ea) (h0b : e0 ≤ eb) (h0 : e0 ≤ e) (hA : (A : ℝ) ≤ q) (hAB : A < B) :
    ⌊2 ^ 32 * (q - A) / (B - A)⌋ = (((shl m (e - e0) - shl a (ea - e0)) * 2 ^ 32 / (shl b (eb - e0) - shl a (ea - e0)) : Nat) : Int) := by
  have unit (x : Nat) {ex : Int} (hx : e0 ≤ ex) : (x : ℝ) * (2 : ℝ) ^ ex = (shl x (ex - e0) : ℝ) * (2 : ℝ) ^ e0 := by
    obtain ⟨j, rfl⟩ : ∃ j : Nat, ex = e0 + j := ⟨(ex - e0).toNat, by omega⟩
    rw [shl, add_sub_cancel_left, Int.toNat_natCast, zpow_add₀ (by norm_num), zpow_natCast]; push_cast; ring
  have pos : (0 : ℝ) < (2 : ℝ) ^ e0 := by positivity
  have hA' : (A : ℝ) = (shl a (ea - e0) : ℝ) * (2 : ℝ) ^ e0 := by rw [← unit a h0a, ← ha]; push_cast; rfl
  have hB' : (B : ℝ) = (shl b (eb - e0) : ℝ) * (2 : ℝ) ^ e0 := by rw [← unit b h0b, ← hb]; push_cast; rfl
  rw [unit m h0] at hq
  have le : shl a (ea - e0) ≤ shl m (e - e0) := by
    rw [hA', hq] at hA; exact_mod_cast le_of_mul_le_mul_right hA pos
  have lt : shl a (ea - e0) < shl b (eb - e0) := by
    have : (A : ℝ) < B := by exact_mod_cast hAB
    rw [hA', hB'] at this; exact_mod_cast lt_of_mul_lt_mul_right this pos.le
  rw [← floor_natCast_div, hA', hB', hq]
  rw [Nat.cast_mul, Nat.cast_sub le, Nat.cast_sub lt.le]
  congr 1
  rw [← sub_mul, ← sub_mul, ← mul_assoc, mul_div_mul_right _ _ pos.ne', mul_comm, Nat.cast_pow, Nat.cast_ofNat]

/-- `q` lies at the pattern `P` of `j` digits more than the codes of a format have, within the format's range. -/
structure InPattern (n es j P : Nat) (st : Bool) (q : ℝ) : Prop where
  three : 3 ≤ n
  digits : P < 2 ^ (n - 1 + j)
  at' : ∀ T, 1 ≤ T → T < 2 ^ (n - 1 + j) → At (fun T => (tapNum (n - 1 + j + 1) es T : ℝ)) P st q T
  least : tapLadder n es 1 ≤ q
  most : q ≤ tapLadder n es (2 ^ (n - 1) - 1)

section
variable {j : Nat} (h : InPattern n es j P st q)
include h

/-- The pattern reaches down to the smallest code. -/
theorem InPattern.pos : 1 ≤ P / 2 ^ j := by
  have two := Nat.one_lt_two_pow (n := n - 1) (by have := h.three; omega)
  have one := tapLadder_shift (es := es) (j := j) h.three le_rfl two
  rw [one_mul] at one
  rw [Nat.one_le_div_iff (Nat.two_pow_pos j), ← (h.at' (2 ^ j) Nat.one_le_two_pow
    (Nat.pow_lt_pow_right (by norm_num) (by have := h.three; omega))).le, one]
  exact h.least

theorem InPattern.lt : P / 2 ^ j < 2 ^ (n - 1) := Nat.div_lt_of_lt_mul (by rw [← pow_add, Nat.add_comm]; exact h.digits)

/-- The code below. -/
theorem InPattern.low : (tapLadder n es (P / 2 ^ j) : ℝ) = tapNum (n - 1 + j + 1) es (P / 2 ^ j * 2 ^ j) ∧
    At (fun T => (tapNum (n - 1 + j + 1) es T : ℝ)) P st q (P / 2 ^ j * 2 ^ j) := by
  refine ⟨by rw [tapLadder_shift h.three h.pos h.lt], h.at' _ (Nat.mul_pos h.pos (Nat.two_pow_pos j)) ?_⟩
  rw [pow_add]
  exact Nat.mul_lt_mul_of_pos_right h.lt (Nat.two_pow_pos j)

theorem InPattern.low_le : (tapLadder n es (P / 2 ^ j) : ℝ) ≤ q := by
  rw [h.low.1, h.low.2.le]
  exact Nat.div_mul_le_self _ _

theorem InPattern.on : q = tapLadder n es (P / 2 ^ j) ↔ P % 2 ^ j = 0 ∧ st = false := by
  have split : P / 2 ^ j * 2 ^ j + P % 2 ^ j = P := by rw [Nat.mul_comm]; exact Nat.div_add_mod P _
  rw [h.low.1, h.low.2.eq]
  exact and_congr_left' (by omega)

/-- Between two codes the next is one, too. -/
theorem InPattern.next (hq : q ≠ tapLadder n es (P / 2 ^ j)) : P / 2 ^ j + 1 < 2 ^ (n - 1) := by
  by_contra hge
  have lt := h.lt
  have two := Nat.two_pow_pos (n - 1)
  refine hq (le_antisymm ?_ h.low_le)
  rw [show P / 2 ^ j = 2 ^ (n - 1) - 1 by omega]
  exact h.most

theorem InPattern.lt_next : q < tapLadder n es (P / 2 ^ j + 1) := by
  obtain eq | lt := (Nat.succ_le_of_lt h.lt).eq_or_lt
  · rw [Nat.succ_eq_add_one] at eq
    rw [eq]
    exact lt_tapLadder_bound h.three h.most
  · rw [← tapLadder_shift (j := j) h.three (Nat.succ_pos _) lt]
    refine (h.at' _ (Nat.mul_pos (Nat.succ_pos _) (Nat.two_pow_pos j)) ?_).lt.2
      (Nat.lt_mul_of_div_lt (Nat.lt_succ_self _) (Nat.two_pow_pos j))
    rw [pow_add]
    exact Nat.mul_lt_mul_of_pos_right lt (Nat.two_pow_pos j)

/-- The code of one more digit halfway to the next. -/
theorem InPattern.half (hj : 1 ≤ j) :
    (tapNum (n + 1) es (2 * (P / 2 ^ j) + 1) : ℝ) = tapNum (n - 1 + j + 1) es ((2 * (P / 2 ^ j) + 1) * 2 ^ (j - 1)) ∧
    At (fun T => (tapNum (n - 1 + j + 1) es T : ℝ)) P st q ((2 * (P / 2 ^ j) + 1) * 2 ^ (j - 1)) := by
  have three := h.three
  have lt := h.lt
  have odd : 2 * (P / 2 ^ j) + 1 < 2 ^ n := by
    have : 2 ^ n = 2 * 2 ^ (n - 1) := by rw [← pow_succ']; congr 1; omega
    omega
  refine ⟨?_, h.at' _ (Nat.mul_pos (Nat.succ_pos _) (Nat.two_pow_pos _)) ?_⟩
  · have := tapNum_shift (es := es) (Nat.succ_pos _) odd (j - 1)
    rw [show n + (j - 1) + 1 = n - 1 + j + 1 by omega] at this
    exact congrArg _ this.symm
  · rw [show n - 1 + j = n + (j - 1) by omega, pow_add]
    exact Nat.mul_lt_mul_of_pos_right odd (Nat.two_pow_pos _)

/-- R97: a mode but SR rounds the pattern. -/
theorem InPattern.rounds (hj : 1 ≤ j) (hrm : ∀ r, rm ≠ .sr r) :
    Rounds rm neg (tapLadder n es) (fun k => tapNum (n + 1) es (2 * k + 1)) q (roundMag rm neg P j st) :=
  rounds_roundMag (fun _ => hj) h.low.2 h.lt_next (fun _ => (h.half hj).2) h.low.1 (fun _ => (h.half hj).1) fun r hr _ => absurd hr (hrm r)

end

/-- R91: a pattern that fits is a code. -/
theorem ladder_tapPattern (hn : 3 ≤ n) (h : Digits m e false q) (hm : m ≠ 0) (short : (tapPattern es m e).2 ≤ n - 1) :
    let k := (tapPattern es m e).1 * 2 ^ (n - 1 - (tapPattern es m e).2); 1 ≤ k ∧ k < 2 ^ (n - 1) ∧ q = tapLadder n es k := by
  obtain ⟨pos, lt, -⟩ := tapPattern_bounds es hm e
  have on := (at_tapPattern es h hm (by simp) pos (by omega)).eq.2 ⟨rfl, rfl⟩
  generalize (tapPattern es m e).1 = P at *
  generalize (tapPattern es m e).2 = D at *
  obtain ⟨j, hj⟩ := Nat.exists_eq_add_of_le short
  rw [show n - 1 - D = j by omega]
  have code : P * 2 ^ j < 2 ^ (n - 1) := by
    rw [hj, pow_add]; exact Nat.mul_lt_mul_of_pos_right (by omega) (Nat.two_pow_pos j)
  have shift := tapNum_shift (es := es) pos (show P < 2 ^ D by omega) j
  rw [show D + j + 1 = n by omega] at shift
  refine ⟨Nat.mul_pos pos (Nat.two_pow_pos j), code, ?_⟩
  rw [on, tapLadder_code (Nat.mul_pos pos (Nat.two_pow_pos j)) code, shift]

/-- The numbers of the codes increase. -/
theorem tapLadder_lt_succ (hn : 3 ≤ n) {k : Nat} (h1 : 1 ≤ k) (h2 : k < 2 ^ (n - 1)) (hq : q = tapLadder n es k)
    (hh : q ≤ tapLadder n es (2 ^ (n - 1) - 1)) : q < tapLadder n es (k + 1) := by
  obtain eq | lt := (Nat.succ_le_of_lt h2).eq_or_lt
  · rw [Nat.succ_eq_add_one] at eq
    rw [eq]
    exact lt_tapLadder_bound hn hh
  · rw [hq, tapLadder_code h1 h2, tapLadder_code (Nat.succ_pos k) lt]
    have := tapNum_strictMono (es := es) h1 (Nat.lt_succ_self k) lt
    rw [show n - 1 + 1 = n by omega] at this
    exact_mod_cast this

/-- R91, R97, R98: between the ends of the range a magnitude rounds to a neighbour in the order of the codes. -/
theorem rounds_tapRound (hn : 3 ≤ n) (h : Digits m e st q) (hm : m ≠ 0) (hst : st = true → n ≤ m.log2)
    (hr : ∀ r, rm = .sr r → st = false) (hl : tapLadder n es 1 ≤ q) (hh : q ≤ tapLadder n es (2 ^ (n - 1) - 1)) :
    Rounds rm neg (tapLadder n es) (fun k => tapNum (n + 1) es (2 * k + 1)) q (tapRound n es rm neg m e st) := by
  obtain ⟨pos, lt, len⟩ := tapPattern_bounds es hm e
  have here {T : Nat} := at_tapPattern es h hm (fun hs => by have := hst hs; omega) (T := T)
  unfold tapRound
  by_cases short : (tapPattern es m e).2 ≤ n - 1
  · obtain rfl : st = false := by cases st with
      | false => rfl
      | true => have := hst rfl; omega
    obtain ⟨k1, k2, on⟩ := ladder_tapPattern hn h hm short
    simp only [short, if_true, roundMag_zero]
    exact ⟨_, on.ge, tapLadder_lt_succ hn k1 k2 on hh, fun _ => rfl, fun ne => absurd on ne⟩
  · simp only [short, if_false]
    generalize (tapPattern es m e).1 = P at *
    generalize (tapPattern es m e).2 = D at *
    obtain ⟨j, rfl⟩ := Nat.exists_eq_add_of_le (show n - 1 ≤ D by omega)
    rw [Nat.add_sub_cancel_left]
    have hP : InPattern n es j P st q := ⟨hn, by omega, fun T => here, hl, hh⟩
    cases rm with
    | rne => exact hP.rounds (by omega) (by simp)
    | rtz => exact hP.rounds (by omega) (by simp)
    | rup => exact hP.rounds (by omega) (by simp)
    | rdn => exact hP.rounds (by omega) (by simp)
    | sr r =>
      obtain rfl := hr r rfl
      refine ⟨P / 2 ^ j, hP.low_le, hP.lt_next, fun hq => if_pos (hP.on.1 hq).1, fun hq => ?_⟩
      have next := hP.next hq
      have grows := tapNum_strictMono (es := es) hP.pos (Nat.lt_add_one _) next
      rw [show n - 1 + 1 = n by omega] at grows
      have low := hP.low_le
      rw [tapLadder_code hP.pos hP.lt] at low ⊢
      rw [tapLadder_code (Nat.succ_pos _) next]
      have dist := floor_distance (tapMag_num (by omega)) (tapMag_num (by omega)) (digits_exact.1 h)
        (e0 := if e < (tapMag n es (P / 2 ^ j)).2 then
            (if e < (tapMag n es (P / 2 ^ j + 1)).2 then e else (tapMag n es (P / 2 ^ j + 1)).2)
          else (if (tapMag n es (P / 2 ^ j)).2 < (tapMag n es (P / 2 ^ j + 1)).2 then (tapMag n es (P / 2 ^ j)).2
            else (tapMag n es (P / 2 ^ j + 1)).2))
        (by split_ifs <;> omega) (by split_ifs <;> omega) (by split_ifs <;> omega) low grows
      have off : P % 2 ^ j ≠ 0 := fun h0 => hq (hP.on.2 ⟨h0, rfl⟩)
      simp only [off, if_false, dist]
      norm_cast

/-- A rounding is to one of the two neighbours, and to the lower one when it is met. -/
theorem Rounds.neighbour {mag mid : Nat → ℚ} {k : Nat} (h : Rounds rm neg mag mid q k) :
    ∃ lo, (mag lo : ℝ) ≤ q ∧ q < mag (lo + 1) ∧ (k = lo ∨ k = lo + 1 ∧ q ≠ mag lo) := by
  obtain ⟨lo, low, high, on, off⟩ := h
  refine ⟨lo, low, high, ?_⟩
  by_cases hq : q = mag lo
  · exact .inl (on hq)
  · have off := off hq
    cases rm with
    | rne =>
      obtain lt | eq | gt := lt_trichotomy q (mid lo : ℝ)
      · exact .inl (off.1 (.inl lt))
      · obtain even | odd := Nat.mod_two_eq_zero_or_one lo
        · exact .inl (off.1 (.inr ⟨eq, even⟩))
        · exact .inr ⟨off.2 (.inr ⟨eq, odd⟩), hq⟩
      · exact .inr ⟨off.2 (.inl gt), hq⟩
    | rtz => exact .inl off
    | rup => cases neg <;> simp only [Bool.false_eq_true, if_true, if_false] at off <;> simp [off, hq]
    | rdn => cases neg <;> simp only [Bool.false_eq_true, if_true, if_false] at off <;> simp [off, hq]
    | sr r => simp only at off; rw [off]; split <;> simp [hq]

/-- Within the range a rounding gives a positive code. -/
theorem rounds_tapLadder {mid : Nat → ℚ} {k : Nat} (hn : 3 ≤ n) (h : Rounds rm neg (tapLadder n es) mid q k)
    (hl : tapLadder n es 1 ≤ q) (hh : q ≤ tapLadder n es (2 ^ (n - 1) - 1)) : 1 ≤ k ∧ k < 2 ^ (n - 1) := by
  obtain ⟨lo, low, high, hk⟩ := h.neighbour
  have pos : 1 ≤ lo := by
    by_contra h0
    obtain rfl : lo = 0 := by omega
    exact absurd high hl.not_gt
  have two := Nat.one_lt_two_pow (n := n - 1) (by omega)
  have below : lo < 2 ^ (n - 1) := by
    by_contra hge
    have bound : tapLadder n es lo = tapLadder n es (2 ^ (n - 1)) := by
      rw [tapLadder, tapLadder, if_neg (by omega), if_neg (by omega), if_neg (by omega), if_neg (by omega)]
    rw [bound] at low
    exact absurd (lt_tapLadder_bound hn hh) low.not_gt
  obtain rfl | ⟨rfl, ne⟩ := hk
  · exact ⟨pos, below⟩
  · refine ⟨by omega, ?_⟩
    by_contra hge
    rw [show lo = 2 ^ (n - 1) - 1 by omega] at low ne
    exact ne (le_antisymm hh low)

/-- R91, R95, R98: the encoding into a tapered format. -/
theorem encodes_tap (hn : 3 ≤ n) (h : Digits m e st q) (hm : m ≠ 0) (hst : st = true → n ≤ m.log2)
    (hr : ∀ r, rm = .sr r → st = false) (s : Bool) : (Fmt.tap n es).Encodes rm s neg q (encodeTap n es rm (.fin neg m e st)) := by
  have sign {c : Nat} (hc : 1 ≤ c) : (if neg then 2 ^ n - c else c) = (Fmt.tap n es).code neg c := by
    cases neg
    · rfl
    · exact (Nat.mod_eq_of_lt (Nat.sub_lt (Nat.two_pow_pos n) hc)).symm
  have two := Nat.one_lt_two_pow (n := n - 1) (by omega)
  have gt := magGt_one h hm (((n : Int) - 2) * ((2 ^ es : Nat) : Int))
  have lt := magLt_one h hm (-(((n : Int) - 2) * ((2 ^ es : Nat) : Int)))
  have top : (tapLadder n es (2 ^ (n - 1) - 1) : ℝ) = (2 : ℝ) ^ (((n : Int) - 2) * ((2 ^ es : Nat) : Int)) := by
    rw [tapLadder_top hn]; push_cast; rfl
  have one : (tapLadder n es 1 : ℝ) = (2 : ℝ) ^ (-(((n : Int) - 2) * ((2 ^ es : Nat) : Int))) := by
    rw [tapLadder_one hn]; push_cast; rfl
  have order : (tapLadder n es 1 : ℝ) ≤ tapLadder n es (2 ^ (n - 1) - 1) := by
    rw [tapLadder_one hn, tapLadder_top hn]
    refine Rat.cast_le.2 (zpow_two_mono ?_)
    have : 0 ≤ ((n : Int) - 2) * ((2 ^ es : Nat) : Int) := mul_nonneg (by omega) (by positivity)
    omega
  rw [← top] at gt
  rw [← one] at lt
  simp only [encodeTap_fin n es rm neg hm e st]
  change (q < tapLadder n es 1 → _) ∧ (tapLadder n es (2 ^ (n - 1) - 1) < q → _) ∧
    (tapLadder n es 1 ≤ q → q ≤ tapLadder n es (2 ^ (n - 1) - 1) → ∃ k, Rounds rm neg (tapLadder n es) _ q k ∧ _)
  refine ⟨fun hq => ?_, fun hq => ?_, fun hl hh => ?_⟩
  · rw [if_neg (mt gt.1 (hq.trans_le order).not_gt), if_pos (lt.2 hq), sign le_rfl]
  · rw [if_pos (gt.2 hq), sign (by omega)]
  · have rounds := rounds_tapRound (neg := neg) hn h hm hst hr hl hh
    rw [if_neg (mt gt.1 hh.not_gt), if_neg (mt lt.1 hl.not_gt), sign (rounds_tapLadder hn rounds hl hh).1]
    exact ⟨_, rounds, rfl⟩

end

end Sys2Proof.Machine
end

section
/-! PROOFS. The number formats (O36): the value of every code, and the table of R95. -/

namespace Sys2Proof.Machine

section

/-! ### Decoding (R81, R82, R84, R86, R90) -/

/-- What `NumberFormats` says of the value of a code: the number that the rules give it, with its sign, or a special value. -/
def Fmt.Decodes (f : Fmt) (c : Nat) : Prop :=
  let v := decodeVal f c; let neg := c.testBit (f.width - 1)
  match f.num c with
  | some q => v.exact = true ∧ v.num = q ∧ (f.isTap = false → f.isInt = false → f ≠ .lg6 ∨ q ≠ 0 → v.neg? = neg)
  | none => match f with
    | .ieee _ _ fb => v = if c % 2 ^ fb = 0 then .inf neg else .nan (!c.testBit (fb - 1)) neg
    | .mx _ 4 _ _ => v = .nan false neg
    | .mx _ _ _ _ => v = if c % 128 = 0x7C then .inf neg else .nan false neg
    | _ => v = .nar

theorem testBit_eq_beq (c i : Nat) : (c / 2 ^ i % 2 == 1) = c.testBit i := by
  rw [Nat.testBit_eq_decide_div_mod_eq]; rfl

theorem testBit_eq_beq_zero (c i : Nat) : (c / 2 ^ i % 2 == 0) = !c.testBit i := by
  rw [Nat.testBit_eq_decide_div_mod_eq]
  obtain h | h := Nat.mod_two_eq_zero_or_one (c / 2 ^ i) <;> simp [h]

/-- A code that stands for a number. -/
theorem Fmt.Decodes.number {f : Fmt} {c : Nat} {q : ℚ} (hnum : f.num c = some q) (exact : (decodeVal f c).exact = true)
    (num : (decodeVal f c).num = q)
    (neg : f.isTap = false → f.isInt = false → f ≠ .lg6 ∨ q ≠ 0 → (decodeVal f c).neg? = c.testBit (f.width - 1)) : f.Decodes c := by
  simp only [Fmt.Decodes, hnum]
  exact ⟨exact, num, neg⟩

/-- The value of a binary code that is no special one. -/
theorem decodeBin_num {w eb fb : Nat} (hw : w = 1 + eb + fb) (c : Nat) :
    (decodeBin w eb fb c).exact = true ∧
      (decodeBin w eb fb c).num = (if c.testBit (w - 1) then -binNum eb fb (c % 2 ^ (w - 1)) else binNum eb fb (c % 2 ^ (w - 1))) ∧
      (decodeBin w eb fb c).neg? = c.testBit (w - 1) := by
  have parts : 2 ^ (w - 1) = 2 ^ fb * 2 ^ eb := by rw [← pow_add]; congr 1; omega
  have ex : c % 2 ^ (w - 1) / 2 ^ fb = c / 2 ^ fb % 2 ^ eb := by rw [parts, Nat.mod_mul_right_div_self]
  have fr : c % 2 ^ (w - 1) % 2 ^ fb = c % 2 ^ fb := by rw [parts, Nat.mod_mul_right_mod]
  have sign (q : ℚ) : (if c.testBit (w - 1) then -q else q) = (if c.testBit (w - 1) then -1 else 1) * q := by split <;> ring
  rw [sign]
  simp only [decodeBin, binNum, ex, fr]
  split
  · refine ⟨rfl, ?_, testBit_eq_beq c _⟩
    simp only [Val.num, testBit_eq_beq]
    rw [zpow_sub₀ (by norm_num) _ (fb : Int), zpow_natCast]
    ring
  · refine ⟨rfl, ?_, testBit_eq_beq c _⟩
    simp only [Val.num, testBit_eq_beq]
    rw [zpow_sub₀ (by norm_num) _ (fb : Int), zpow_natCast]
    push_cast
    field_simp
    ring

/-- R82: IEEE 754. -/
theorem decodes_ieee {w eb fb : Nat} (hw : w = 1 + eb + fb) (c : Nat) : (Fmt.ieee w eb fb).Decodes c := by
  obtain ⟨exact, num, neg⟩ := decodeBin_num hw c
  by_cases h : c / 2 ^ fb % 2 ^ eb = 2 ^ eb - 1
  · have hnum : (Fmt.ieee w eb fb).num c = none := if_pos h
    simp only [Fmt.Decodes, hnum, decodeVal, h, if_true, testBit_eq_beq, testBit_eq_beq_zero, Fmt.width]
  · have hnum : (Fmt.ieee w eb fb).num c = some _ := if_neg h
    have val : decodeVal (.ieee w eb fb) c = decodeBin w eb fb c := if_neg h
    exact .number hnum (val ▸ exact) (val ▸ num) fun _ _ _ => val ▸ neg

/-- R84: a narrow E format whose codes up to `top` are numbers. -/
theorem decodes_mx_number {w eb fb top : Nat} (hw : w = 1 + eb + fb) {c : Nat} (h : c % 2 ^ (w - 1) ≤ top)
    (val : decodeVal (.mx w eb fb top) c = decodeBin w eb fb c) : (Fmt.mx w eb fb top).Decodes c := by
  obtain ⟨exact, num, neg⟩ := decodeBin_num hw c
  have hnum : (Fmt.mx w eb fb top).num c = some _ := if_neg h.not_gt
  exact .number hnum (val ▸ exact) (val ▸ num) fun _ _ _ => val ▸ neg

theorem decodes_e4m3 (c : Nat) : (Fmt.mx 8 4 3 0x7E).Decodes c := by
  by_cases h : c % 128 ≤ 0x7E
  · have ne : c % 128 ≠ 127 := by omega
    exact decodes_mx_number (w := 8) (eb := 4) (fb := 3) rfl h (by simp [decodeVal, ne])
  · have eq : c % 128 = 127 := by omega
    have hnum : (Fmt.mx 8 4 3 0x7E).num c = none := if_pos (by simp [eq])
    simp only [Fmt.Decodes, hnum, decodeVal]
    simp [eq, ← testBit_eq_beq, Fmt.width]

theorem decodes_e5m2 (c : Nat) : (Fmt.mx 8 5 2 0x7B).Decodes c := by
  by_cases h : c % 128 ≤ 0x7B
  · have ne : c % 128 ≠ 124 := by omega
    have le : c % 128 ≤ 124 := by omega
    exact decodes_mx_number (w := 8) (eb := 5) (fb := 2) rfl h (by simp [decodeVal, ne, le])
  · have lt : 123 < c % 128 := by omega
    have hnum : (Fmt.mx 8 5 2 0x7B).num c = none := if_pos (by simp [lt])
    simp only [Fmt.Decodes, hnum, decodeVal]
    by_cases inf : c % 128 = 124
    · simp [inf, ← testBit_eq_beq, Fmt.width]
    · have gt : 124 < c % 128 := by omega
      simp [inf, gt, ← testBit_eq_beq, Fmt.width]

/-- R86: LG6. -/
theorem decodes_lg6 (c : Nat) : Fmt.lg6.Decodes c := by
  by_cases h : c % 32 = 0
  · have hnum : Fmt.lg6.num c = some 0 := congrArg some (if_pos h)
    have val : decodeVal .lg6 c = .zero := if_pos h
    simp [Fmt.Decodes, hnum, val, Val.zero, Val.exact, Val.num]
  · have hnum : Fmt.lg6.num c = some _ := congrArg some (if_neg h)
    have val : decodeVal .lg6 c = .fin (c / 32 % 2 == 1) (lgMag (c % 32)).1 (lgMag (c % 32)).2 false := if_neg h
    have sign : (c / 32 % 2 == 1) = c.testBit 5 := testBit_eq_beq c 5
    have mag : ((lgMag (c % 32)).1 : ℚ) * (2 : ℚ) ^ (lgMag (c % 32)).2 = lgNum (c % 32) := by
      have hj0 := Int.emod_nonneg (((c % 32 : Nat) : Int) - 16) (show (4 : Int) ≠ 0 by norm_num)
      have hj1 := Int.emod_lt_of_pos (((c % 32 : Nat) : Int) - 16) (show (0 : Int) < 4 by norm_num)
      simp only [lgMag, lgNum]
      rw [Int.toNat_of_nonneg hj0, zpow_sub₀ (by norm_num)]
      generalize (((c % 32 : Nat) : Int) - 16) % 4 = j at *
      have frac : (lgFrac j.toNat : ℚ) = if j = 0 then 0 else if j = 1 then 0x3070 else if j = 2 then 0x6A0A else 0xAE8A := by
        obtain rfl | rfl | rfl | rfl : j = 0 ∨ j = 1 ∨ j = 2 ∨ j = 3 := by omega
        all_goals simp [lgFrac, show Int.toNat 2 = 2 from rfl, show Int.toNat 3 = 3 from rfl]
      push_cast
      rw [frac]
      norm_num
      ring
    refine .number hnum (val ▸ rfl) ?_ fun _ _ _ => val ▸ sign
    rw [val, sign, Val.num, ← mag]
    dsimp only
    split <;> ring

/-- R81: the integers. -/
theorem decodes_int (sg : Bool) {w : Nat} (hw : 1 ≤ w) (c : Nat) : (Fmt.int sg w).Decodes c := by
  cases sg with
  | false =>
    have hnum : (Fmt.int false w).num c = some ((c % 2 ^ w : Nat) : ℚ) := rfl
    simp [Fmt.Decodes, hnum, decodeVal, Val.exact, Val.num, Fmt.isInt]
  | true =>
    have two : 2 ^ w = 2 * 2 ^ (w - 1) := by rw [← pow_succ']; congr 1; omega
    have lt := Nat.mod_lt c (Nat.two_pow_pos w)
    refine .number (q := ((BitVec.ofNat w c).toInt : Int)) rfl ?_ ?_ fun _ h => by simp [Fmt.isInt] at h
    · simp only [decodeVal]; split <;> rfl
    · rw [BitVec.toInt_eq_toNat_cond, BitVec.toNat_ofNat]
      simp only [decodeVal]
      generalize c % 2 ^ w = d at *
      split
      next h =>
        rw [if_pos (by omega)]
        simp [Val.num]
      next h =>
        rw [if_neg (by omega)]
        simp [Val.num, Nat.cast_sub lt.le]

/-- R90: the tapered formats. -/
theorem decodes_tap (es : Nat) {n : Nat} (hn : 2 ≤ n) {c : Nat} (hc : c < 2 ^ n) : (Fmt.tap n es).Decodes c := by
  have mod : c % 2 ^ n = c := Nat.mod_eq_of_lt hc
  have half := Nat.two_pow_pos (n - 1)
  by_cases nar : c = 2 ^ (n - 1)
  · have hnum : (Fmt.tap n es).num c = none := if_pos (by rw [mod, nar])
    have val : decodeVal (.tap n es) c = .nar := by
      simp only [decodeVal, decodeTap, mod]
      rw [if_neg (by omega), if_pos nar]
    simp [Fmt.Decodes, hnum, val]
  · by_cases zero : c = 0
    · have hnum : (Fmt.tap n es).num c = some 0 := by
        simp only [Fmt.num]
        rw [if_neg (by rw [mod]; exact nar), if_pos (by rw [mod]; exact zero)]
      have val : decodeVal (.tap n es) c = .zero := by
        simp only [decodeVal, decodeTap, mod]
        rw [if_pos zero]
      simp [Fmt.Decodes, hnum, val, Val.zero, Val.exact, Val.num, Fmt.isTap]
    · have two : 2 ^ n = 2 * 2 ^ (n - 1) := by rw [← pow_succ']; congr 1; omega
      have quot : c / 2 ^ (n - 1) < 2 := Nat.div_lt_of_lt_mul (by omega)
      have sign : (c / 2 ^ (n - 1) == 1) = c.testBit (n - 1) := by rw [← testBit_eq_beq, Nat.mod_eq_of_lt quot]
      have hnum : (Fmt.tap n es).num c = some (if c.testBit (n - 1) then -tapNum n es (2 ^ n - c) else tapNum n es c) := by
        simp only [Fmt.num, mod]
        rw [if_neg nar, if_neg zero]
        congr 1
        split <;> rfl
      have val : decodeVal (.tap n es) c = .fin (c.testBit (n - 1)) (tapMag n es (if c.testBit (n - 1) then 2 ^ n - c else c)).1
          (tapMag n es (if c.testBit (n - 1) then 2 ^ n - c else c)).2 false := by
        simp only [decodeVal, decodeTap, mod]
        rw [if_neg zero, if_neg nar, sign]
      refine .number hnum (val ▸ rfl) ?_ fun h => by simp [Fmt.isTap] at h
      rw [val, Val.num, mul_assoc, tapMag_num hn]
      split <;> ring

end

section

/-! ### The table of R95 -/

/-- R86: a decoded LG6 value is found among the codes, whatever the mode. -/
theorem encodeLg6_decodeVal (rm : Rm) {c : Nat} (hc : c < 64) :
    encodeLg6 rm (decodeVal .lg6 c) = { code := if c % 32 = 0 then 0 else c } := by
  have found : ∀ c < 64, c % 32 ≠ 0 → ((List.range 31).find? fun i => !false &&
      (let p := lgMag (i + 1)
       let e0 := if (lgMag (c % 32)).2 < p.2 then (lgMag (c % 32)).2 else p.2
       shl (lgMag (c % 32)).1 ((lgMag (c % 32)).2 - e0) == shl p.1 (p.2 - e0))) = some (c % 32 - 1) := by decide +kernel
  by_cases h : c % 32 = 0
  · have val : decodeVal .lg6 c = .zero := if_pos h
    rw [val, if_pos h]
    rfl
  · have val : decodeVal .lg6 c = .fin (c / 32 % 2 == 1) (lgMag (c % 32)).1 (lgMag (c % 32)).2 false := if_neg h
    have pos : (lgMag (c % 32)).1 ≠ 0 := by simp only [lgMag]; omega
    rw [val, if_neg h]
    simp only [encodeLg6, pos, decide_false, Bool.false_and, Bool.false_eq_true, if_false, found c hc h]
    congr 1
    by_cases sign : c / 32 % 2 = 1
    · simp [sign]; omega
    · simp [sign]; omega

/-- The formats whose codes stand for rational numbers exactly. -/
def exactFmts : List Fmt :=
  [f16, bf16, f32, f64, e4m3, e5m2, e3m2, e2m3, e2m1, t8, t16, t32] ++ [8, 16, 32, 64].flatMap fun w => [.int true w, .int false w]

theorem mem_exactFmts {f : Fmt} : f ∈ exactFmts ↔
    ((f = f16 ∨ f = bf16 ∨ f = f32 ∨ f = f64) ∨ (f = e4m3 ∨ f = e5m2 ∨ f = e3m2 ∨ f = e2m3 ∨ f = e2m1) ∨ f = t8 ∨ f = t16 ∨ f = t32) ∨
    ∃ sg, f = .int sg 8 ∨ f = .int sg 16 ∨ f = .int sg 32 ∨ f = .int sg 64 := by
  simp only [exactFmts, List.flatMap_cons, List.flatMap_nil, List.mem_append, List.mem_cons, List.not_mem_nil, Bool.exists_bool]
  tauto

/-- R81, R82, R84, R90: decoding, one lemma for each kind of format. -/
theorem decodes_of_mem_exactFmts {f : Fmt} (hf : f ∈ exactFmts) {c : Nat} (hc : c < 2 ^ f.width) : f.Decodes c := by
  rcases mem_exactFmts.1 hf with
    ((rfl | rfl | rfl | rfl) | (rfl | rfl | rfl | rfl | rfl) | rfl | rfl | rfl) | ⟨sg, rfl | rfl | rfl | rfl⟩
  iterate 4 exact decodes_ieee rfl c
  · exact decodes_e4m3 c
  · exact decodes_e5m2 c
  · exact decodes_mx_number (w := 6) (eb := 3) (fb := 2) rfl (Nat.le_of_lt_succ (Nat.mod_lt c (by norm_num))) rfl
  · exact decodes_mx_number (w := 6) (eb := 2) (fb := 3) rfl (Nat.le_of_lt_succ (Nat.mod_lt c (by norm_num))) rfl
  · exact decodes_mx_number (w := 4) (eb := 2) (fb := 1) rfl (Nat.le_of_lt_succ (Nat.mod_lt c (by norm_num))) rfl
  · exact decodes_tap 1 (by norm_num) hc
  · exact decodes_tap 1 (by norm_num) hc
  · exact decodes_tap 2 (by norm_num) hc
  iterate 4 exact decodes_int _ (by norm_num) c

/-- R81 to R84, R91, R98: the encoding of an exact number, one lemma for each kind of format. -/
theorem encodes_of_mem_exactFmts {f : Fmt} (hf : f ∈ exactFmts) (rm : Rm) (s neg : Bool) {m : Nat} {e : Int} (hm : m ≠ 0) :
    f.Encodes rm s neg ((m : ℝ) * (2 : ℝ) ^ e) (encodeVal f rm s (.fin neg m e false)) := by
  have digits : Digits m e false ((m : ℝ) * (2 : ℝ) ^ e) := digits_exact.2 rfl
  rcases mem_exactFmts.1 hf with
    ((rfl | rfl | rfl | rfl) | (rfl | rfl | rfl | rfl | rfl) | rfl | rfl | rfl) | ⟨sg, rfl | rfl | rfl | rfl⟩
  iterate 4 exact encodes_ieee _ _ (by norm_num) digits hm (by simp) (by simp) s
  iterate 5 exact encodes_mx _ _ _ (by norm_num) digits hm (by simp) (by simp) s
  iterate 3 exact encodes_tap (by norm_num) digits hm (by simp) (by simp) s
  iterate 4 exact encodes_int _ (by norm_num) digits hm s

/-- R95: the code of a zero, which keeps its sign in the formats of sign and magnitude. -/
def zeroCode (f : Fmt) (neg : Bool) : Nat :=
  match f with
  | .ieee w _ _ | .mx w _ _ _ => if neg then 2 ^ (w - 1) else 0
  | _ => 0

theorem encodeVal_zero_of_mem_exactFmts {f : Fmt} (hf : f ∈ exactFmts) (rm : Rm) (s neg : Bool) (e : Int) :
    encodeVal f rm s (.fin neg 0 e false) = { code := zeroCode f neg } := by
  rcases mem_exactFmts.1 hf with
    ((rfl | rfl | rfl | rfl) | (rfl | rfl | rfl | rfl | rfl) | rfl | rfl | rfl) | ⟨sg, rfl | rfl | rfl | rfl⟩ <;> rfl

/-- Settles O36: each kind of format has its lemmas about decoding and encoding; the table of R95 is evaluated. -/
theorem numberFormats : Obligations.NumberFormats := by
  refine ⟨fun f hf c hc => ?_, fun f hf rm s neg m e => ⟨encodes_of_mem_exactFmts hf rm s neg, ?_⟩, fun rm s n => ?_,
    fun rm s c hc => encodeLg6_decodeVal rm hc⟩
  · change f.Decodes c
    by_cases lg : f = .lg6
    · exact lg ▸ decodes_lg6 c
    · refine decodes_of_mem_exactFmts ?_ hc
      simpa [exactFmts, lg] using hf
  · rintro rfl
    rw [encodeVal_zero_of_mem_exactFmts hf]
    cases f <;> rfl
  · refine ⟨fun v hv => ?_, ?_, rfl, ?_, fun w hw => ?_⟩
    · simp only [List.mem_cons, List.not_mem_nil, or_false] at hv
      rcases hv with rfl | rfl | rfl <;> exact ⟨rfl, rfl, fun w _ => rfl⟩
    · cases n <;> rfl
    · cases n <;> rfl
    · exact ⟨by cases n <;> rfl, by cases n <;> rfl⟩

end

end Sys2Proof.Machine
end

section
/-! PROOFS. Matrix steps (O25): the state that refutes the statement. -/

namespace Sys2Proof.Machine

section

/-! ### A T32 step of a compressed row (R104, R211) -/

/-- Sixteen E4M3 elements in the cluster's own vault, with every permission. -/
def t32Tensor : Tensor :=
  { w0 := 15 <<< 12, w1 := 16 ||| 1 <<< 32, w2 := 1 ||| 1 <<< 32, low := 0, high := 0, w5 := 7 <<< 53, w6 := 1 <<< 32, rloc := 0
    plots := [(0, 1 <<< 63)] }
/-- A running take that holds the matrix engine of cluster 0. -/
def t32Take : Take :=
  { id := 1, fn := 0, hdr := {}, tensors := [(0, t32Tensor)], sched := [], traps := List.replicate 64 1, fix := [none], prio := 0
    reel := { ref := 0, savesz := 0, scenes := [], ovls := [] }, st := .running
    places := [{ lc := 0, cl := 0, k := 0, spots := [], inMap := [], outMap := [] }] }
/-- The rows of an MX.STEPS of two intervals, one T32 row each. -/
def t32Row : TileRow := ⟨0, 0, 0, 1, 0, 0, 0, 14, 0⟩
/-- The step takes its rows compressed, from tensor 0. -/
def t32Item : MxItem := { op := .step true true t32Row (.tensor 0) 0 0, pc := 0, k := 0 }
/-- The step is at the head of the queue; the plane has 17 rows of one E4M3 weight, which takes a scale of tensor 0. The metadata
of the compressed row, at bytes 10 to 12 of the tensor, is legal. -/
def t32State : State :=
  let mx : Mx := {
    holder := some 1, live := { pfmt := 16, pk := 17, pn := 1, pv := true }, mode := 2, scb := some ⟨0, 0, 0, 0, 0⟩, queue := [t32Item] }
  ({ takes := [t32Take], clusters := [(0, { mx := mx, ctx := [(0, { take := 1, kstate := .run, wsize := 4096 })] })] } : State).poke 10
    [0x44, 0x44, 0x44]

theorem t32State_ready : t32State.mxReady 0 = some (t32Take, t32Item) := by decide +kernel

/-- The gathering after the rows of the step, and the B scales of its first `groups` groups, as the statement takes them. -/
def t32Rows : Gather :=
  ((⟨t32State, [], [], none⟩ : Gather).rows 0 0 t32Take (t32Take.tensor 0) true true t32Row 0 0 0 17 [] (List.range 1)).1
def t32Scales (groups : Nat) : Gather := (t32Rows.bscales 0 0 t32Take (t32State.mxOf 0).scb 1 (List.range groups)).1

/-- In groups of 32 the 17 rows of the plane are one group, whose B scale lies in the tensor: nothing stops the step. -/
theorem t32Scales_one : (t32Scales 1).stop = none ∧ (t32Scales 1).asks = [] := by decide +kernel

/-- The statement's queue after the step: its second interval is left. -/
theorem t32Scales_queueNext : queueNext ((t32Scales 1).s.mxOf 0) (t32Row.rpt.toNat + 1) ≠ [] := by decide +kernel

/-- The engine cuts the plane into groups of 16 and asks for the B scales of two; the second lies outside the tensor, and
MX-RANGE discards the queue. -/
theorem t32Step_traps : ∀ u, exec (.mxInterval 0) t32State = .next u → (u.mxOf 0).queue = [] := by
  intro u hu
  have h : (match exec (.mxInterval 0) t32State with | .next u => (u.mxOf 0).queue | _ => []) = [] := by decide +kernel
  rwa [hu] at h

/-- Refutes O25: for T32 (AFMT 14, which no encoding of MX.STEPS has) the statement takes groups of 32 where the engine takes 16,
so a step of a compressed row whose scales the statement has gathered stops at the scale of a second group. -/
theorem not_matrixStep : ¬ Obligations.MatrixStep := by
  unfold Obligations.MatrixStep
  intro h
  have hs := (h t32State 0 t32Take t32Item true true t32Row (.tensor 0) 0 0 t32State_ready rfl).1 (by decide +kernel) (by decide +kernel)
    t32State [] 0 (.inl ⟨rfl, rfl, rfl, rfl⟩)
  obtain ⟨u, hu, -, -, hq, -⟩ := hs t32Scales_one.1 t32Scales_one.2 (by decide +kernel)
  rw [t32Step_traps u hu] at hq
  exact t32Scales_queueNext hq.symm
end

end Sys2Proof.Machine
end

section
/-! PROOFS. The voltage of a pair and the backstop (O41): pairs and the regions on them, the rail in a clock cycle, the first
and last numbers with a property. -/

namespace Sys2Proof.Machine

section
variable (s : State)

/-! ### Pairs and the regions on them -/

theorem OnlyPair.refl (n : Nat) : OnlyPair s s n (s.pair n) := ⟨rfl, fun _ _ => rfl, rfl⟩

theorem OnlyPair.trans {s t u : State} {n : Nat} {p q : Pair} (h : OnlyPair s t n p) (k : OnlyPair t u n q) : OnlyPair s u n q where
  pair := k.pair
  others j hj := (k.others j hj).trans (h.others j hj)
  rest := by
    have h := h.rest; have k := k.rest
    rw [← k] at h; exact h

theorem onlyPair_updPair (n : Nat) (g : Pair → Pair) : OnlyPair s (s.updPair n g) n (g (s.pair n)) :=
  ⟨s.pair_updPair_same n g, fun _ hj => s.pair_updPair_other hj g, rfl⟩

/-- A table after every listed value is changed: an entry is changed, or was not listed. -/
theorem tget_tmap_cases {α : Type} [DecidableEq α] (d : α) (f : Nat → α → α) (t : Table α) (k : Nat) :
    tget d (tmap d f t) k = f k (tget d t k) ∨ tget d t k = d ∧ tget d (tmap d f t) k = d := by
  induction t with
  | nil => exact .inr ⟨rfl, rfl⟩
  | cons x t ih =>
    obtain ⟨j, v⟩ := x
    by_cases hk : j = k
    · subst hk
      left
      by_cases hv : f j v = d
      · simp [tmap, hv, tget_tdel_same, tget]
      · simp [tmap, hv, tget]
    · by_cases hv : f j v = d <;> simpa [tmap, hv, tget_tdel_other d (Ne.symm hk), tget, hk] using ih

/-- The regions of a cluster of the pair are changed, those of another are not. -/
theorem State.cluster_mapPair (n : Nat) (f : Nat → Region → Region) (cl : Nat) :
    (s.mapPair n f).cluster cl = if cl = 2 * n ∨ cl = 2 * n + 1
      then { s.cluster cl with regions := tmap {} (fun _ g => f cl g) (s.cluster cl).regions } else s.cluster cl := by
  by_cases h0 : cl = 2 * n
  · subst h0; simp [State.mapPair, State.cluster_updCluster]
  · by_cases h1 : cl = 2 * n + 1
    · subst h1; simp [State.mapPair, State.cluster_updCluster]
    · simp [State.mapPair, State.cluster_updCluster, h0, h1]

theorem pairRegions_mapPair (n : Nat) (f : Nat → Region → Region) : PairRegions s (s.mapPair n f) n f := by
  have on (cl r : Nat) (h : cl = 2 * n ∨ cl = 2 * n + 1) : (s.mapPair n f).region cl r = f cl (s.region cl r) ∨
      s.region cl r = {} ∧ (s.mapPair n f).region cl r = {} := by
    rw [State.region, State.cluster_mapPair, if_pos h]
    exact tget_tmap_cases _ _ _ _
  refine ⟨fun cl r h live => (on cl r h).resolve_right fun e => live (e.1 ▸ rfl), fun cl r => ?_, fun cl => ?_, fun _ => rfl, rfl⟩
  · by_cases h : cl = 2 * n ∨ cl = 2 * n + 1
    · exact (on cl r h).elim (fun e => .inr ⟨h, e⟩) fun e => .inl (e.2.trans e.1.symm)
    · left; rw [State.region, State.cluster_mapPair, if_neg h]; rfl
  · rw [State.cluster_mapPair]; split <;> rfl

/-- No region of the pair waits for the rail any longer, where it is at or above the floor (R146). -/
theorem State.railFree_eq (n : Nat) : s.railFree n =
    if s.floorOf n ≤ (s.pair n).vnow.toNat then s.mapPair n fun _ g => { g with railWait := false } else s := rfl

/-! ### The voltage follows what is demanded (R375) -/

/-- A rail that is to have what is demanded of its pair. -/
theorem move_demanded (n : Nat) (p : Pair) : p.move (demanded s n p) s.cycle = follows s n p := by
  unfold Pair.move Pair.judge Pair.near follows
  simp only [BitVec.toNat_ofNat]
  split
  next near => simp [near]
  next far => simp [far]

/-- A change of a pair, after which its voltage follows what is then demanded. -/
theorem onlyPair_retarget (n : Nat) (g : Pair → Pair) :
    OnlyPair s ((s.updPair n g).retarget n) n (follows s n (g (s.pair n))) := by
  have hp : (s.updPair n g).pair n = g (s.pair n) := s.pair_updPair_same n g
  have aimed : (s.updPair n g).target n = demanded s n (g (s.pair n)) := by rw [State.target, hp]; rfl
  have h := (onlyPair_updPair s n g).trans (onlyPair_updPair _ n fun p => p.move ((s.updPair n g).target n) s.cycle)
  rw [hp, aimed, move_demanded] at h
  rwa [State.retarget, aimed]

/-- Some region of the pair has a replay for TIMING before it or under way (R157). -/
theorem State.replaying_iff (n : Nat) : s.replaying n = true ↔ ∃ cl, cl / 2 = n ∧ ∃ rid < 64, let g := s.region cl rid
    g.rstate = .replay ∧ g.settleFor = true ∨ g.rstate = .run ∧ g.overAgain = true := by
  have pair (cl : Nat) : cl / 2 = n ↔ cl = 2 * n ∨ cl = 2 * n + 1 := by omega
  simp [State.replaying, pair]

theorem exec_overrunHoldEnd {n c : Nat} (hc : c ≤ s.cycle) (hold : (s.pair n).hold = true) (hend : (s.pair n).holdEnd = some c) :
    exec (.overrunHoldEnd n) s = if s.replaying n then .next s else
      .next ((s.updPair n fun p => { p with hold := false, holdV := 0, holdEnd := none }).retarget n) := by
  change execOverrunHoldEnd n s = _
  rw [execOverrunHoldEnd, hold, hend]
  cases s.replaying n <;> simp [hc]

theorem exec_railSettled {n mv : Nat} (lo : demanded s n (s.pair n) ≤ mv + 2) (hi : mv ≤ demanded s n (s.pair n) + 2) :
    exec (.railSettled n mv) s =
      .next ((s.updPair n fun p => { p with vnow := .ofNat 10 mv, settled := true }).railFree n) := by
  have h : (s.target n ≤ mv + 2 && mv ≤ s.target n + 2) = true := by
    rw [Bool.and_eq_true, decide_eq_true_eq, decide_eq_true_eq]; exact ⟨lo, hi⟩
  exact if_pos h

end

section
variable {p q r : Pair} {now : Nat}

/-! ### The rail in a clock cycle (R157, R374) -/

theorem Pair.near_iff : p.near = true ↔ p.vnow.toNat ≤ p.aim.toNat + 2 ∧ p.aim.toNat ≤ p.vnow.toNat + 2 := by
  simp [Pair.near]

/-- R374: SETTLED, and the cycle since which the rail has been near its target, stand in `q` only while it is near, and come from
`p` or, the cycle, from this one. -/
structure Judged (p q : Pair) (now : Nat) : Prop where
  settled : q.settled = true → p.settled = true ∧ q.near = true
  since   : ∀ c, q.since = some c → q.near = true ∧ (p.since = some c ∨ c = now)
  begun   : q.near = true → q.since ≠ none

theorem Judged.trans (h : Judged p q now) (k : Judged q r now) : Judged p r now where
  settled hr := ⟨(h.settled (k.settled hr).1).1, (k.settled hr).2⟩
  since c hc := ⟨(k.since c hc).1, (k.since c hc).2.elim (fun hq => (h.since c hq).2) .inr⟩
  begun := k.begun

/-- A judgement (R374) touches nothing but SETTLED and the cycle it rests on. -/
theorem Pair.judge_rest (p : Pair) (now : Nat) : { p.judge now with settled := p.settled, since := p.since } = p := by
  unfold Pair.judge; split <;> rfl

@[simp] theorem Pair.judge_vnow : (p.judge now).vnow = p.vnow := (congrArg Pair.vnow (p.judge_rest now) :)
@[simp] theorem Pair.judge_aim : (p.judge now).aim = p.aim := (congrArg Pair.aim (p.judge_rest now) :)
@[simp] theorem Pair.judge_rampAt : (p.judge now).rampAt = p.rampAt := (congrArg Pair.rampAt (p.judge_rest now) :)
@[simp] theorem Pair.judge_hold : (p.judge now).hold = p.hold := (congrArg Pair.hold (p.judge_rest now) :)
@[simp] theorem Pair.judge_holdV : (p.judge now).holdV = p.holdV := (congrArg Pair.holdV (p.judge_rest now) :)
@[simp] theorem Pair.judge_holdEnd : (p.judge now).holdEnd = p.holdEnd := (congrArg Pair.holdEnd (p.judge_rest now) :)

@[simp] theorem Pair.move_vnow {mv : Nat} : (p.move mv now).vnow = p.vnow := Pair.judge_vnow
@[simp] theorem Pair.move_rampAt {mv : Nat} : (p.move mv now).rampAt = p.rampAt := Pair.judge_rampAt
@[simp] theorem Pair.move_hold {mv : Nat} : (p.move mv now).hold = p.hold := Pair.judge_hold
@[simp] theorem Pair.move_holdV {mv : Nat} : (p.move mv now).holdV = p.holdV := Pair.judge_holdV
@[simp] theorem Pair.move_holdEnd {mv : Nat} : (p.move mv now).holdEnd = p.holdEnd := Pair.judge_holdEnd

/-- What was settled, and since when, before a judgement is what the judgement starts from. -/
theorem judged_judge (hs : q.settled = p.settled) (hc : q.since = p.since) : Judged p (q.judge now) now := by
  have near : (q.judge now).near = q.near := by simp [Pair.near]
  cases h : q.near with
  | false =>
    have e : q.judge now = { q with settled := false, since := none } := if_neg (by simp [h])
    refine ⟨fun hr => ?_, fun c hr => ?_, fun hr => ?_⟩
    · simp [e] at hr
    · simp [e] at hr
    · simp [near, h] at hr
  | true =>
    have e : q.judge now = { q with since := some (q.since.getD now) } := if_pos h
    have hnear := near.trans h
    rw [e] at hnear ⊢
    refine ⟨fun hr => ⟨hs ▸ hr, hnear⟩, fun c hr => ⟨hnear, ?_⟩, fun _ => Option.some_ne_none _⟩
    cases hq : p.since with
    | none => right; simpa [hc, hq] using hr.symm
    | some b => left; simpa [hc, hq] using hr

/-- R374: a rail on its way stands, or makes at most 10 mV and is judged anew. -/
theorem Pair.ramp_cases (p : Pair) (n now : Nat) : p.ramp n now = p ∨ ∃ v : BitVec 10, ∃ e,
    p.rampAt ≤ now ∧ v.toNat ≤ p.vnow.toNat + 10 ∧ p.vnow.toNat ≤ v.toNat + 10 ∧
    p.ramp n now = ({ p with vnow := v, rampAt := now + 600 + e } : Pair).judge now := by
  by_cases h : (p.vnow == p.aim || decide (now < p.rampAt)) = true
  · exact .inl (if_pos h)
  · right
    have hr : p.rampAt ≤ now := by
      simp only [Bool.or_eq_true, decide_eq_true_eq, not_or, not_lt] at h; exact h.2
    have ha := p.aim.isLt
    have hv := p.vnow.isLt
    refine ⟨_, Config.railExtra n now, hr, ?_, ?_, if_neg h⟩
    · simp only [BitVec.toNat_ofNat, BitVec.lt_def]; split <;> omega
    · simp only [BitVec.toNat_ofNat, BitVec.lt_def]; split <;> omega

/-- What a clock cycle does to the rail of a pair (R157, R374): the clauses of O41 on it. -/
structure RailTick (p q : Pair) (now : Nat) : Prop where
  up      : q.vnow.toNat ≤ p.vnow.toNat + 10
  down    : p.vnow.toNat ≤ q.vnow.toNat + 10
  paced   : q.vnow ≠ p.vnow → p.rampAt ≤ now ∧ now + 600 ≤ q.rampAt
  judged  : Judged p q now
  holds   : ∀ c, p.holdEnd = none → q.holdEnd = some c →
    c = now + 2 ^ 20 ∧ p.hold = true ∧ q.settled = true ∧ p.holdV.toNat ≤ q.vnow.toNat

/-- A pair as at reset rests at its target. -/
theorem railTick_default (now : Nat) : RailTick {} {} now where
  up := by decide
  down := by decide
  paced h := absurd rfl h
  judged := ⟨fun _ => ⟨rfl, rfl⟩, fun _ h => ⟨rfl, .inl h⟩, fun _ => Option.some_ne_none _⟩
  holds _ _ h := nomatch h

/-- The rail after it follows a voltage `mv` and makes its step; the hold stays as it was in that. -/
theorem railTick_ramp (p : Pair) (mv n now : Nat) : let q := (p.move mv now).ramp n now
    RailTick p q now ∧ q.hold = p.hold ∧ q.holdV = p.holdV := by
  have moved : Judged p (p.move mv now) now := judged_judge rfl rfl
  rcases (p.move mv now).ramp_cases n now with e | ⟨v, w, ready, up, down, e⟩
  · rw [e]
    refine ⟨⟨by simp, by simp, fun h => absurd Pair.move_vnow h, moved, fun c h0 h1 => ?_⟩, Pair.move_hold, Pair.move_holdV⟩
    simp [h0] at h1
  · rw [e]
    simp only [Pair.move_vnow, Pair.move_rampAt] at ready up down
    refine ⟨⟨by simpa using up, by simpa using down, fun _ => ⟨ready, ?_⟩, moved.trans (judged_judge rfl rfl), fun c h0 h1 => ?_⟩,
      by simp, by simp⟩
    · rw [Pair.judge_rampAt]; exact Nat.le_add_right _ _
    · simp [h0] at h1

/-- R157: a hold begins its 2^20 cycles once the rail has settled at its voltage; nothing of the rail changes in that. -/
theorem RailTick.startHold (h : RailTick p q now) (hhold : q.hold = p.hold) (hholdV : q.holdV = p.holdV) :
    RailTick p (q.startHold now) now := by
  unfold Pair.startHold
  split
  next hs =>
    obtain ⟨⟨hh, -⟩, hset, hv⟩ : (q.hold = true ∧ q.holdEnd.isNone = true) ∧ q.settled = true ∧ q.holdV.toNat ≤ q.vnow.toNat := by
      simpa [Pair.holds] using hs
    refine ⟨h.up, h.down, h.paced, ⟨h.judged.settled, h.judged.since, h.judged.begun⟩, fun c _ hc => ?_⟩
    exact ⟨(Option.some.inj hc).symm, hhold ▸ hh, hset, hholdV ▸ hv⟩
  next => exact h

/-- The end of a droop (R311) leaves the rail alone. -/
theorem RailTick.wrap (h : RailTick p q now) (t : Nat) : RailTick p (q.wrap t) now := by
  unfold Pair.wrap
  split
  · exact ⟨h.up, h.down, h.paced, ⟨h.judged.settled, h.judged.since, h.judged.begun⟩, h.holds⟩
  · exact h

theorem railTick_tickPair (s : State) (n : Nat) (p : Pair) : RailTick p (s.tickPair n p) s.cycle :=
  let ⟨h, hhold, hholdV⟩ := railTick_ramp p (s.target n) n s.cycle
  h.startHold hhold hholdV

end

section
variable (s : State)

/-! ### The pairs in a clock cycle -/

theorem SamePackage.foldl {α : Type} {f : State → α → State} (h : ∀ s x, SamePackage s (f s x)) (l : List α) (s : State) :
    SamePackage s (l.foldl f s) := by
  induction l generalizing s with
  | nil => exact .refl s
  | cons x l ih => exact (h s x).trans (ih _)

theorem samePackage_haltAsked : SamePackage s s.haltAsked := by
  refine .foldl (fun s c => .foldl (fun s g => ?_) _ s) _ s
  split
  · exact ((onlyCluster_updCluster s c.1 _).trans (onlyCluster_haltRegion _ c.1 g.1)).package
  · exact .refl s

theorem State.haltAsked_cycle : s.haltAsked.cycle = s.cycle := (congrArg State.cycle (samePackage_haltAsked s).rest :)
theorem State.haltAsked_pair (n : Nat) : s.haltAsked.pair n = s.pair n :=
  (congrArg (State.pair · n) (samePackage_haltAsked s).rest :)

theorem State.unknownCmds_pairs : s.unknownCmds.pairs = s.pairs := by
  unfold State.unknownCmds; dsimp only; split <;> rfl

theorem State.sendOne_pairs (p : Nat) : (s.sendOne p).pairs = s.pairs := by
  unfold State.sendOne; dsimp only
  split
  · rfl
  · split <;> rfl

theorem State.sendAll_pairs : s.sendAll.pairs = s.pairs :=
  List.foldlRecOn (motive := fun t : State => t.pairs = s.pairs) s.svports _ rfl fun t h x _ => (t.sendOne_pairs x.1).trans h

/-- Of what a clock cycle does only the counters touch the pairs. -/
theorem tick_pairs : (tick s).pairs = s.haltAsked.count.pairs :=
  (State.sendAll_pairs _).trans (State.unknownCmds_pairs _)

theorem railTick_tick (n : Nat) : RailTick (s.pair n) ((tick s).pair n) s.cycle := by
  change RailTick (s.pair n) (tget {} (tick s).pairs n) s.cycle
  rw [tick_pairs, ← s.haltAsked_cycle, ← s.haltAsked_pair n]
  generalize s.haltAsked = s
  rcases tget_tmap_cases {} (fun n p => if s.slot + 1 = 0 then (s.tickPair n p).wrap (s.cycle + 1) else s.tickPair n p) s.pairs n
    with h | ⟨hp, hq⟩
  · have h : tget {} s.count.pairs n = if s.slot + 1 = 0 then (s.tickPair n (s.pair n)).wrap (s.cycle + 1) else s.tickPair n (s.pair n) := h
    rw [h]
    split
    · exact (railTick_tickPair s n _).wrap _
    · exact railTick_tickPair s n _
  · have hp : s.pair n = {} := hp
    have hq : tget {} s.count.pairs n = {} := hq
    rw [hp, hq]
    exact railTick_default _

end

section
variable {n i : Nat} {f : Nat → Bool}

/-! ### The first and last numbers with a property -/

theorem lowest_eq_some (hi : i < n) (h : f i = true) (before : ∀ j < i, f j = false) : lowest n f = some i := by
  rw [lowest, List.find?_range_eq_some]
  exact ⟨h, List.mem_range.2 hi, fun j hj => by simp [before j hj]⟩

theorem lowest_eq_none (h : ∀ j < n, f j = false) : lowest n f = none := by
  rw [lowest, List.find?_eq_none]
  intro j hj
  simp [h j (List.mem_range.1 hj)]

theorem highest_eq_some (hi : i < n) (h : f i = true) (after : ∀ j, i < j → j < n → f j = false) : highest n f = some i := by
  induction n with
  | zero => omega
  | succ n ih =>
    rw [highest, List.range_succ, List.reverse_append, List.reverse_singleton, List.singleton_append]
    by_cases hin : i = n
    · subst hin; exact List.find?_cons_of_pos h
    · rw [List.find?_cons_of_neg (by simp [after n (by omega) (by omega)])]
      exact ih (by omega) fun j h1 h2 => after j h1 (by omega)

end

section
variable {s : State} {i : Nat}

/-! ### The backstop (R377) -/

theorem exec_backstopWindow_sets (above : s.pkglim < s.pkgpwr) (h : (lowest 15 fun i => !maskBit s.bkmask i) = some i) :
    exec .backstopWindow s = .next { s with bkmask := setBit s.bkmask i true, bkwin := satInc s.bkwin } := by
  change execBackstopWindow s = _
  rw [execBackstopWindow, if_pos above, h]

theorem exec_backstopWindow_full (above : s.pkglim < s.pkgpwr) (h : (lowest 15 fun i => !maskBit s.bkmask i) = none) :
    exec .backstopWindow s = .next s := by
  change execBackstopWindow s = _
  rw [execBackstopWindow, if_pos above, h]

theorem exec_backstopWindow_clears (below : 100 * s.pkgpwr.toNat < 95 * s.pkglim.toNat)
    (h : highest 16 s.bkmask.getLsbD = some i) :
    exec .backstopWindow s = .next { s with bkmask := setBit s.bkmask i false } := by
  have notAbove : ¬ s.pkglim < s.pkgpwr := by rw [BitVec.lt_def]; omega
  change execBackstopWindow s = _
  rw [execBackstopWindow, if_neg notAbove, if_pos below, h]

theorem getLsbD_setBit_true {w j : Nat} (m : BitVec w) (i : Nat) (hj : j < w) :
    (setBit m i true).getLsbD j = (m.getLsbD j || j == i) := by
  rw [getLsbD_setBit]
  by_cases h : i = j
  · simp [h, hj]
  · simp [h, Ne.symm h]

theorem getLsbD_setBit_false {w j : Nat} (m : BitVec w) (i : Nat) (hj : j < w) :
    (setBit m i false).getLsbD j = (m.getLsbD j && j != i) := by
  rw [getLsbD_setBit]
  by_cases h : i = j
  · simp [h, hj]
  · simp [h, Ne.symm h]

end

/-- Settles O41: what each operation leaves of the pair, the rail in a clock cycle (`railTick_tick`), and the bit of the mask
that the backstop finds. -/
theorem voltage : Obligations.Voltage := by
  unfold Obligations.Voltage
  intro s n mv v
  refine ⟨?_, ?_, ?_, ?_, ?_, ?_, ?_, rfl⟩
  · exact .next (onlyPair_retarget s n _)
  · intro c hc hold hend
    refine ⟨fun still => ?_, fun waits => ?_⟩
    · have h : s.replaying n = false := Bool.eq_false_iff.2 fun h => still ((s.replaying_iff n).1 h)
      rw [exec_overrunHoldEnd s hc hold hend, h]
      exact .next (onlyPair_retarget s n _)
    · rw [exec_overrunHoldEnd s hc hold hend, (s.replaying_iff n).2 waits]
      rfl
  · intro lo hi
    rw [exec_railSettled s lo hi]
    refine .next ⟨_, onlyPair_updPair s n fun p => { p with vnow := .ofNat 10 mv, settled := true }, ?_⟩
    rw [State.railFree_eq, State.pair_updPair_same]
    have floor (g : Pair → Pair) : (s.updPair n g).floorOf n = s.floorOf n := rfl
    rw [floor]
    split
    · exact pairRegions_mapPair _ n _
    · rfl
  · obtain ⟨up, down, paced, ⟨settled, since, begun⟩, holds⟩ := railTick_tick s n
    simp only [Pair.near_iff] at settled since begun
    exact ⟨up, down, paced, settled, since, begun, holds⟩
  · intro above i hi clear set
    have found : (lowest 15 fun i => !maskBit s.bkmask i) = some i :=
      lowest_eq_some hi (by simp [maskBit, clear]) fun j hj => by simp [maskBit, set j hj]
    rw [exec_backstopWindow_sets above found]
    exact .next ⟨rfl, fun j hj => getLsbD_setBit_true _ i hj⟩
  · intro above set
    exact exec_backstopWindow_full above (lowest_eq_none fun j hj => by simp [maskBit, set j hj])
  · intro below i hi set clear
    rw [exec_backstopWindow_clears below (highest_eq_some hi set clear)]
    exact .next ⟨rfl, fun j hj => getLsbD_setBit_false _ i hj⟩

end Sys2Proof.Machine
end

section
/-! PROOFS. Integer arithmetic, immediate forms, predicates and branches (O1 to O4): the value of each function by the numbers that its
operands stand for, and where a branch goes. -/

namespace Sys2Proof.Machine

/-! ### The functions of the ALU major (R166) -/

section
variable (x y : Word)

theorem ofInt_toInt_sub : BitVec.ofInt 64 (x.toInt - y.toInt) = x - y :=
  BitVec.eq_of_toInt_eq (by rw [BitVec.toInt_ofInt, BitVec.toInt_sub])

theorem ofInt_toInt_mul : BitVec.ofInt 64 (x.toInt * y.toInt) = x * y := by
  rw [BitVec.ofInt_mul, BitVec.ofInt_toInt, BitVec.ofInt_toInt]

/-- The high half of a number's low 128 bits. -/
theorem extractLsb'_ofInt (i : Int) : (BitVec.ofInt 128 i).extractLsb' 64 64 = BitVec.ofInt 64 (i / 2 ^ 64) := by
  apply BitVec.eq_of_toNat_eq
  rw [BitVec.extractLsb'_toNat, BitVec.toNat_ofInt, BitVec.toNat_ofInt, Nat.shiftRight_eq_div_pow]
  omega

theorem mulhuW_eq : mulhuW x y = .ofNat 64 (x.toNat * y.toNat / 2 ^ 64) := by
  apply BitVec.eq_of_toNat_eq
  rw [mulhuW, BitVec.extractLsb'_toNat, BitVec.toNat_ofNat, BitVec.toNat_ofNat, Nat.shiftRight_eq_div_pow]
  omega

theorem sdiv_eq_ofInt : x.sdiv y = .ofInt 64 (x.toInt.tdiv y.toInt) :=
  BitVec.eq_of_toInt_eq (by rw [BitVec.toInt_sdiv, BitVec.toInt_ofInt])

theorem sremW_eq : sremW x y = if y = 0 then x else .ofInt 64 (x.toInt.tmod y.toInt) := by
  have rem : x.toInt.tmod y.toInt = x.toInt + -(y.toInt * x.toInt.tdiv y.toInt) := by rw [Int.tmod_def, Int.sub_eq_add_neg]
  unfold sremW sdivW
  split
  · rfl
  · rw [rem, BitVec.ofInt_add, BitVec.ofInt_neg, BitVec.ofInt_mul, BitVec.ofInt_toInt, BitVec.ofInt_toInt, sdiv_eq_ofInt,
      BitVec.sub_eq_add_neg]

theorem udivW_eq : udivW x y = if y = 0 then .allOnes 64 else .ofNat 64 (x.toNat / y.toNat) := by
  have h : x / y = .ofNat 64 (x.toNat / y.toNat) := BitVec.eq_of_toNat_eq (by
    rw [BitVec.toNat_udiv, BitVec.toNat_ofNat, Nat.mod_eq_of_lt (Nat.lt_of_le_of_lt (Nat.div_le_self _ _) x.isLt)])
  rw [← h]; rfl

theorem uremW_eq : uremW x y = if y = 0 then x else .ofNat 64 (x.toNat % y.toNat) := by
  unfold uremW
  split
  · rfl
  next h =>
    have div := Nat.div_add_mod x.toNat y.toNat
    rw [udivW_eq, if_neg h, sub_eq_iff_eq_add]
    apply BitVec.eq_of_toNat_eq
    rw [BitVec.toNat_add, BitVec.toNat_mul, BitVec.toNat_ofNat, BitVec.toNat_ofNat, Nat.mul_mod_mod, ← Nat.add_mod,
      Nat.add_comm, div, Nat.mod_eq_of_lt x.isLt]

variable (n : Nat)

theorem shl_eq : x <<< n = .ofNat 64 (x.toNat * 2 ^ n) :=
  BitVec.eq_of_toNat_eq (by rw [BitVec.toNat_shiftLeft, Nat.shiftLeft_eq, BitVec.toNat_ofNat])

theorem shr_eq : x >>> n = .ofNat 64 (x.toNat / 2 ^ n) := BitVec.eq_of_toNat_eq (by
  rw [BitVec.toNat_ushiftRight, Nat.shiftRight_eq_div_pow, BitVec.toNat_ofNat,
    Nat.mod_eq_of_lt (Nat.lt_of_le_of_lt (Nat.div_le_self _ _) x.isLt)])

theorem sar_eq : x.sshiftRight n = .ofInt 64 (x.toInt / 2 ^ n) := by
  rw [BitVec.sshiftRight, Int.shiftRight_eq_div_pow]; rfl

theorem rot_eq {n : Nat} (h : n < 64) :
    x.rotateLeft n = .ofNat 64 (x.toNat * 2 ^ n) ||| .ofNat 64 (x.toNat / 2 ^ (64 - n)) := by
  rw [BitVec.rotateLeft_def, Nat.mod_eq_of_lt h, shl_eq, shr_eq]

theorem shcnt_lt : shcnt y < 64 := Nat.mod_lt _ (by decide)

theorem smin_eq : (if x.slt y then x else y) = .ofInt 64 (min x.toInt y.toInt) := by
  simp only [BitVec.slt_iff_toInt_lt]
  split
  · rw [min_eq_left (by omega), BitVec.ofInt_toInt]
  · rw [min_eq_right (by omega), BitVec.ofInt_toInt]

theorem smax_eq : (if x.slt y then y else x) = .ofInt 64 (max x.toInt y.toInt) := by
  simp only [BitVec.slt_iff_toInt_lt]
  split
  · rw [max_eq_right (by omega), BitVec.ofInt_toInt]
  · rw [max_eq_left (by omega), BitVec.ofInt_toInt]

theorem umin_eq : (if x.ult y then x else y) = .ofNat 64 (min x.toNat y.toNat) := by
  simp only [BitVec.ult_iff_lt, BitVec.lt_def]
  split
  · rw [min_eq_left (by omega), BitVec.ofNat_toNat, BitVec.setWidth_eq]
  · rw [min_eq_right (by omega), BitVec.ofNat_toNat, BitVec.setWidth_eq]

theorem umax_eq : (if x.ult y then y else x) = .ofNat 64 (max x.toNat y.toNat) := by
  simp only [BitVec.ult_iff_lt, BitVec.lt_def]
  split
  · rw [max_eq_right (by omega), BitVec.ofNat_toNat, BitVec.setWidth_eq]
  · rw [max_eq_left (by omega), BitVec.ofNat_toNat, BitVec.setWidth_eq]

/-- A flag as a word, by the proposition that it decides. -/
theorem boolWord_eq {b : Bool} {p : Prop} [Decidable p] (h : b = true ↔ p) : boolWord b = if p then 1 else 0 := by
  unfold boolWord; simp only [h]

theorem boolWord_bne : boolWord (x != y) = if x = y then 0 else 1 := by
  by_cases h : x = y <;> simp [boolWord, h]

/-! ### Counts of bits -/

theorem clzN_eq (w v : Nat) : clzN w v = ((List.range w).reverse.takeWhile fun j => !v.testBit j).length := by
  induction w with
  | zero => rfl
  | succ w ih =>
    rw [clzN, List.range_succ, List.reverse_append, List.reverse_singleton, List.singleton_append, List.takeWhile_cons,
      Nat.testBit_eq_decide_div_mod_eq]
    split
    next h => simp [h]
    next h => simp [h, ih, Nat.add_comm]

theorem ctzN_eq (w v : Nat) : ctzN w v = ((List.range w).takeWhile fun j => !v.testBit j).length := by
  induction w generalizing v with
  | zero => rfl
  | succ w ih =>
    rw [ctzN, List.range_succ_eq_map, List.takeWhile_cons, Nat.testBit_zero, List.takeWhile_map, ih]
    have higher : ((fun j => !v.testBit j) ∘ Nat.succ) = fun j => !(v / 2).testBit j := by
      funext j; simp [Nat.testBit_succ]
    split
    next h => simp [h]
    next h => simp [h, higher, Nat.add_comm]

theorem popN_eq (w v : Nat) : popN w v = ((List.range w).filter fun j => v.testBit j).length := by
  induction w generalizing v with
  | zero => rfl
  | succ w ih =>
    have higher : ((fun j => v.testBit j) ∘ Nat.succ) = fun j => (v / 2).testBit j := by
      funext j; simp [Nat.testBit_succ]
    rw [popN, List.range_succ_eq_map, List.filter_cons, Nat.testBit_zero, List.filter_map, ih, higher]
    split
    next h => simp at h; simp [h, Nat.add_comm]
    next h => simp at h; simp [h]

theorem brevN_lt (w v : Nat) : brevN w v < 2 ^ w := by
  induction w generalizing v with
  | zero => exact Nat.one_pos
  | succ w ih =>
    have := ih (v / 2)
    have low : v % 2 ≤ 1 := by omega
    have := Nat.mul_le_mul_right (2 ^ w) low
    rw [brevN, Nat.pow_succ]; omega

theorem testBit_brevN (w v i : Nat) (h : i < w) : (brevN w v).testBit i = v.testBit (w - 1 - i) := by
  induction w generalizing v with
  | zero => exact absurd h (Nat.not_lt_zero i)
  | succ w ih =>
    rw [brevN, Nat.mul_comm, Nat.testBit_two_pow_mul_add _ (brevN_lt w _)]
    split
    next hi =>
      have : w + 1 - 1 - i = w - 1 - i + 1 := by omega
      rw [ih _ hi, this, Nat.testBit_succ]
    next hi =>
      obtain rfl : i = w := by omega
      simp

theorem brev_eq : BitVec.ofNat 64 (brevN 64 x.toNat) = x.reverse := by
  refine BitVec.eq_of_getLsbD_eq fun i hi => ?_
  rw [BitVec.getLsbD_ofNat, testBit_brevN 64 _ i hi, BitVec.getLsbD_reverse, BitVec.getMsbD, BitVec.testBit_toNat]

end

/-- An instruction of `n` parcels that gives S[d] a value, by another name for the value. -/
theorem goes_result {s : State} {i : Instr} {n : Nat} {d : Reg} {v w : Word} (h : exec i s = .next (s.result n d v)) (e : v = w) :
    Goes (exec i s) fun t => WritesReg s t d w n := by
  rw [h, ← e]; exact Goes.next (writesReg_result s n d v)

/-- Settles O1: each function's value by its equation, the frame by that of a write of S[d]. -/
theorem aluRegister : Obligations.AluRegister := by
  intro s d a b x y n
  simp only [List.forall_mem_cons, List.not_mem_nil, false_imp_iff, implies_true, and_true]
  refine ⟨goes_result rfl (BitVec.add_def x y), goes_result rfl (ofInt_toInt_sub x y).symm, goes_result rfl rfl,
    goes_result rfl (extractLsb'_ofInt _), goes_result rfl (mulhuW_eq x y), goes_result rfl ?div, goes_result rfl (udivW_eq x y),
    goes_result rfl (sremW_eq x y), goes_result rfl (uremW_eq x y), goes_result rfl rfl, goes_result rfl rfl, goes_result rfl rfl,
    goes_result rfl rfl, goes_result rfl (shl_eq x _), goes_result rfl (shr_eq x _), goes_result rfl (sar_eq x _),
    goes_result rfl (rot_eq x (shcnt_lt y)), goes_result rfl (smin_eq x y), goes_result rfl (smax_eq x y),
    goes_result rfl (umin_eq x y), goes_result rfl (umax_eq x y), goes_result rfl (boolWord_eq beq_iff_eq),
    goes_result rfl (boolWord_bne x y), goes_result rfl (boolWord_eq BitVec.slt_iff_toInt_lt),
    goes_result rfl (boolWord_eq BitVec.ult_iff_lt), goes_result rfl ?clz, goes_result rfl ?ctz, goes_result rfl ?popc,
    goes_result rfl (brev_eq x)⟩
  case div => unfold sdivW; rw [sdiv_eq_ofInt]
  case clz => rw [clzN_eq]; simp only [BitVec.testBit_toNat]; rfl
  case ctz => rw [ctzN_eq]; simp only [BitVec.testBit_toNat]; rfl
  case popc => rw [popN_eq]; simp only [BitVec.testBit_toNat]; rfl

/-! ### Immediates (R167) -/

theorem immW_eq (imm : BitVec 14) : immW imm = .ofInt 64 imm.toInt := rfl
@[simp] theorem toInt_immW (imm : BitVec 14) : (immW imm).toInt = imm.toInt := BitVec.toInt_signExtend_of_le (by decide)

theorem toInt_eq_imm_iff {x : Word} {imm : BitVec 14} : x = immW imm ↔ x.toInt = imm.toInt := by
  rw [← BitVec.toInt_inj, toInt_immW]

/-- Settles O2: the equations of O1, with the immediate's number for the operand's. -/
theorem aluImmediate : Obligations.AluImmediate := by
  intro s d a imm c k x i y n
  simp only [List.forall_mem_cons, List.not_mem_nil, false_imp_iff, implies_true, and_true]
  refine ⟨goes_result rfl ?add, goes_result rfl ?mul, goes_result rfl rfl, goes_result rfl rfl, goes_result rfl rfl,
    goes_result rfl (boolWord_eq ?slt), goes_result rfl (boolWord_eq ?ult), goes_result rfl (boolWord_eq ?eq),
    goes_result rfl (shl_eq x _), goes_result rfl (shr_eq x _), goes_result rfl (sar_eq x _), goes_result rfl (rot_eq x c.isLt),
    goes_result rfl (BitVec.add_def x k), goes_result rfl rfl, goes_result rfl rfl, goes_result rfl rfl⟩
  case add => rw [BitVec.ofInt_add, BitVec.ofInt_toInt]; rfl
  case mul => rw [BitVec.ofInt_mul, BitVec.ofInt_toInt]; rfl
  case slt => rw [BitVec.slt_iff_toInt_lt, toInt_immW]
  case ult => rw [BitVec.ult_iff_lt, BitVec.lt_def, immW_eq, BitVec.toNat_ofInt]; rfl
  case eq => rw [beq_iff_eq, toInt_eq_imm_iff]

/-! ### Predicates (R168) -/

/-- An instruction of one parcel that gives P[d] a value, by the proposition that the value decides. -/
theorem goes_prd {s : State} {i : Instr} {d : PReg} {v : Bool} {p : Prop}
    (h : exec i s = .next (s.onMe fun x => (x.setPrd d v).advance 1)) (e : v = true ↔ p) :
    Goes (exec i s) fun t => ∃ w : Bool, (w ↔ p) ∧ WritesPrd s t d w := by
  rw [h]; exact Goes.next ⟨v, e, writesPrd_onMe s d v⟩

variable (s : State) (d a b : Reg) (pd pa pb : PReg) (imm : BitVec 14)

theorem exec_pcmp (c : PCond) : exec (.pcmp c pd a b) s =
    .next (s.onMe fun x => (x.setPrd pd (PCond.holds c (s.reg a) (s.reg b))).advance 1) :=
  congrArg Host.Outcome.next (s.onMe_congr rfl)
theorem exec_pcmpi (c : PICond) : exec (.pcmpi c pd a imm) s =
    .next (s.onMe fun x => (x.setPrd pd (PICond.holds c (s.reg a) (immW imm))).advance 1) :=
  congrArg Host.Outcome.next (s.onMe_congr rfl)
theorem exec_plog (op : PlogOp) : exec (.plog op pd pa pb) s =
    .next (s.onMe fun x => (x.setPrd pd (PlogOp.result op (s.prd pa) (s.prd pb))).advance 1) :=
  congrArg Host.Outcome.next (s.onMe_congr rfl)

theorem not_slt_iff {x y : Word} : (!x.slt y) = true ↔ y.toInt ≤ x.toInt := by
  rw [Bool.not_eq_true', BitVec.slt_eq_decide, decide_eq_false_iff_not, Int.not_lt]
theorem not_ult_iff {x y : Word} : (!x.ult y) = true ↔ y.toNat ≤ x.toNat := by
  rw [Bool.not_eq_true', BitVec.ult_eq_decide, decide_eq_false_iff_not, Nat.not_lt]

/-- The bits of PGET's word (R168). -/
theorem getLsbD_pget (j : PReg) : ((s.me.p ||| 1).setWidth 64 : Word).getLsbD j.toNat = s.prd j := by
  have hj : j.toNat < 8 := j.isLt
  have one : ∀ i < 8, (1 : BitVec 8).getLsbD i = decide (i = 0) := by decide
  have zero : (j == 0) = decide (j.toNat = 0) := by
    rw [beq_eq_decide, decide_eq_decide]; exact ⟨fun h => h ▸ rfl, fun h => BitVec.eq_of_toNat_eq h⟩
  rw [BitVec.getLsbD_setWidth, BitVec.getLsbD_or, State.prd, CueCtx.prd, one _ hj, zero, decide_eq_true (by omega : j.toNat < 64),
    Bool.true_and, Bool.or_comm]

/-- The bits that PPUT leaves in p1 to p7 (R168). -/
theorem getLsbD_pput (x : Word) (p : BitVec 8) (j : Nat) (h : j < 8) (h0 : j ≠ 0) :
    ((x.setWidth 8 &&& 0xFE) ||| (p &&& 1)).getLsbD j = x.getLsbD j := by
  have one : (1 : BitVec 8).getLsbD j = false := (by decide : ∀ i < 8, i ≠ 0 → (1 : BitVec 8).getLsbD i = false) j h h0
  have mask : (0xFE : BitVec 8).getLsbD j = true := (by decide : ∀ i < 8, i ≠ 0 → (0xFE : BitVec 8).getLsbD i = true) j h h0
  rw [BitVec.getLsbD_or, BitVec.getLsbD_and, BitVec.getLsbD_and, BitVec.getLsbD_setWidth, one, mask]
  simp [h]

/-- Settles O3: the condition of each compare and the function of each PLOG, PGET and PPUT bit by bit. -/
theorem predicates : Obligations.Predicates := by
  intro s d a b pd pa pb n imm x y i u v
  refine ⟨?conditions, goes_result rfl rfl, ?pget, ?pput⟩
  case conditions =>
    have cmp (c : PCond) {p : Prop} (e : PCond.holds c x y = true ↔ p) := goes_prd (exec_pcmp s a b pd c) e
    have cmpi (c : PICond) {p : Prop} (e : PICond.holds c x (immW imm) = true ↔ p) := goes_prd (exec_pcmpi s a pd imm c) e
    have log (op : PlogOp) {p : Prop} (e : PlogOp.result op u v = true ↔ p) := goes_prd (exec_plog s pd pa pb op) e
    simp only [List.forall_mem_cons, List.not_mem_nil, false_imp_iff, implies_true, and_true]
    refine ⟨cmp .eq beq_iff_eq, cmp .ne bne_iff_ne, cmp .lt BitVec.slt_iff_toInt_lt, cmp .ge not_slt_iff, cmp .ltu BitVec.ult_iff_lt,
      cmp .geu not_ult_iff, cmpi .eq ?_, cmpi .ne ?_, cmpi .lt ?_, cmpi .ge ?_, log .and ?_, log .or ?_, log .xor ?_, log .andn ?_,
      log .not ?_, log .mov ?_, log .set ?_, log .clr ?_⟩
    · exact beq_iff_eq.trans toInt_eq_imm_iff
    · exact bne_iff_ne.trans (not_congr toInt_eq_imm_iff)
    · exact BitVec.slt_iff_toInt_lt.trans (by rw [toInt_immW])
    · exact not_slt_iff.trans (by rw [toInt_immW])
    all_goals simp [PlogOp.result]
  case pget =>
    refine Goes.next ⟨_, writesReg_result s 1 d _, ?_, getLsbD_pget s⟩
    have := (s.me.p ||| 1).isLt
    rw [BitVec.toNat_setWidth]; omega
  case pput =>
    refine Goes.next ⟨fun j => ?_, ?_⟩
    · rw [State.prd, State.me_onMe, CueCtx.prd_advance]
      split
      next h => subst h; rfl
      next h =>
        rw [CueCtx.prd_pos _ h]
        exact getLsbD_pput x s.me.p j.toNat j.isLt fun e => h (BitVec.eq_of_toNat_eq e)
    · rw [State.me_onMe]; exact becomes_onMe s _

/-! ### Branches (R169 to R171) -/

theorem branchTarget_eq (pc : BitVec 16) (off : BitVec 14) : branchTarget pc off = .ofInt 16 (pc.toNat + 4 * off.toInt) := by
  rw [BitVec.ofInt_add, BitVec.ofInt_mul, BitVec.ofInt_natCast, BitVec.ofNat_toNat, BitVec.setWidth_eq]; rfl

/-- A conditional branch, by the proposition that its condition decides (R169). -/
theorem goes_branch {s : State} {i : Instr} {off : BitVec 14} {c : Bool} {p : Prop} (h : exec i s = .next (s.branch c off))
    (e : c = true ↔ p) : Goes (exec i s) fun t =>
      (p → JumpsTo s t (.ofInt 16 (s.me.pc.toNat + 4 * off.toInt))) ∧ (¬ p → MovesOn s t 1) := by
  rw [h]
  refine Goes.next ⟨fun hp => ?_, fun hp => ?_⟩
  · rw [State.branch, if_pos (e.2 hp), JumpsTo, ← branchTarget_eq]; exact becomes_onMe s _
  · rw [State.branch, if_neg (mt e.1 hp)]; exact movesOn_goOn s 1

/-- A write of S[d] with a jump: the registers, and the context but for them and PC. -/
theorem lands_onMe (v : Word) (p : BitVec 16) : let t := s.onMe fun c => { c.setReg d v with pc := p }
    t.reg d = (if d = 0 then 0 else v) ∧ (∀ q, q ≠ d → t.reg q = s.reg q) ∧
      Becomes s t s.curCl s.curK { s.me with s := t.me.s, pc := p } := by
  intro t
  have me : t.me = { s.me.setReg d v with pc := p } := State.me_onMe s _
  refine ⟨?_, fun q hq => ?_, ?_⟩
  · rw [State.reg, me]; exact CueCtx.reg_setReg_same _ _ _
  · rw [State.reg, me]; exact CueCtx.reg_setReg_other _ _ hq
  · have rest : { s.me with s := (s.me.setReg d v).s, pc := p } = { s.me.setReg d v with pc := p } := by
      unfold CueCtx.setReg; split <;> rfl
    rw [me, rest]; exact becomes_onMe s _

/-- The address of the next instruction, as JAL and JR write it (R162, R171). -/
theorem link_eq (pc : BitVec 16) : (pc + 4).setWidth 64 = BitVec.ofNat 64 ((pc.toNat + 4) % 65536) := by
  apply BitVec.eq_of_toNat_eq
  rw [BitVec.toNat_setWidth, BitVec.toNat_add, BitVec.toNat_ofNat]; rfl

/-- JR's test of its target (R171). -/
theorem badTarget_iff (x : Word) : (bits x 1 0 ≠ 0 || bits x 63 16 ≠ 0) = true ↔ 65536 ≤ x.toNat ∨ x.toNat % 4 ≠ 0 := by
  have := x.isLt
  rw [Bool.or_eq_true, decide_eq_true_iff, decide_eq_true_iff]
  simp only [bits]
  omega

theorem exec_loop_zero (off : BitVec 14) (h : s.reg a = 0) : exec (.loop a off) s = .next (s.goOn 1) := if_pos h
theorem exec_loop_one (off : BitVec 14) (h : s.reg a = 1) : exec (.loop a off) s = .next (s.result 1 a 0) := by
  change execLoop a off s = _
  simp [execLoop, h, State.result]
theorem exec_loop_more (off : BitVec 14) (h : 1 < (s.reg a).toNat) : exec (.loop a off) s =
    .next (s.onMe fun c => { c.setReg a (s.reg a - 1) with pc := .ofInt 16 (s.me.pc.toNat + 4 * off.toInt) }) := by
  have h0 : s.reg a ≠ 0 := fun e => by rw [e] at h; exact absurd h (by decide)
  have h1 : s.reg a - 1 ≠ 0 := fun e => by rw [sub_eq_zero.1 e] at h; exact absurd h (by decide)
  change execLoop a off s = _
  simp only [execLoop, h0, h1, if_false]
  refine congrArg Host.Outcome.next (s.onMe_congr ?_)
  rw [← branchTarget_eq, CueCtx.setReg_pc]

theorem exec_jal (off : BitVec 14) : exec (.jal a off) s = .next (s.onMe fun c =>
    { c.setReg a (.ofNat 64 ((s.me.pc.toNat + 4) % 65536)) with pc := .ofInt 16 (s.me.pc.toNat + 4 * off.toInt) }) := by
  rw [← link_eq, ← branchTarget_eq]
  exact congrArg Host.Outcome.next (s.onMe_congr rfl)
theorem exec_jr (h : (s.reg a).toNat < 65536) (h4 : (s.reg a).toNat % 4 = 0) : exec (.jr d a) s = .next (s.onMe fun c =>
    { c.setReg d (.ofNat 64 ((s.me.pc.toNat + 4) % 65536)) with pc := .ofNat 16 (s.reg a).toNat }) := by
  rw [← link_eq, BitVec.ofNat_toNat]
  refine (if_neg fun hb => ?_).trans (congrArg Host.Outcome.next (s.onMe_congr rfl))
  have := (badTarget_iff _).1 hb
  omega
theorem exec_jr_bad (h : 65536 ≤ (s.reg a).toNat ∨ (s.reg a).toNat % 4 ≠ 0) :
    exec (.jr d a) s = .next (s.trap codeBadTarget (s.reg a)) := if_pos ((badTarget_iff _).2 h)

/-- Settles O4: branches by their condition, LOOP by its counter, JAL and JR by the address that they write and go to. -/
theorem controlFlow : Obligations.ControlFlow := by
  refine ⟨fun s a b n off => ⟨?branches, Goes.next (movesOn_goOn s 1)⟩, fun s a off => ?loop, fun s d a off =>
    ⟨?jal, fun h h4 => ?jr, fun h trap => ?jrBad⟩⟩
  case branches =>
    simp only [List.forall_mem_cons, List.not_mem_nil, false_imp_iff, implies_true, and_true]
    exact ⟨goes_branch rfl beq_iff_eq, goes_branch rfl bne_iff_ne, goes_branch rfl BitVec.slt_iff_toInt_lt,
      goes_branch rfl not_slt_iff, goes_branch rfl BitVec.ult_iff_lt, goes_branch rfl not_ult_iff, goes_branch rfl Iff.rfl,
      goes_branch rfl (by rw [Bool.not_eq_true'])⟩
  case loop =>
    by_cases h0 : s.reg a = 0
    · rw [exec_loop_zero s a off h0]
      exact Goes.next ⟨fun _ => movesOn_goOn s 1, fun h => absurd (h0.symm.trans h) (by decide),
        fun h => by rw [h0] at h; exact absurd h (by decide)⟩
    · by_cases h1 : s.reg a = 1
      · rw [exec_loop_one s a off h1]
        exact Goes.next ⟨fun h => absurd h h0, fun _ => writesReg_result s 1 a 0,
          fun h => by rw [h1] at h; exact absurd h (by decide)⟩
      · have more : 1 < (s.reg a).toNat := by
          have n0 : (s.reg a).toNat ≠ 0 := fun e => h0 (BitVec.eq_of_toNat_eq e)
          have n1 : (s.reg a).toNat ≠ 1 := fun e => h1 (BitVec.eq_of_toNat_eq e)
          omega
        have ha : a ≠ 0 := fun e => h0 (by rw [e]; rfl)
        obtain ⟨hr, hs, hb⟩ := lands_onMe s a (s.reg a - 1) (.ofInt 16 (s.me.pc.toNat + 4 * off.toInt))
        rw [exec_loop_more s a off more]
        exact Goes.next ⟨fun h => absurd h h0, fun h => absurd h h1, fun _ => ⟨hr.trans (if_neg ha), hs, hb⟩⟩
  case jal => rw [exec_jal]; exact Goes.next (lands_onMe s a _ _)
  case jr => rw [exec_jr s d a h h4]; exact Goes.next (lands_onMe s d _ _)
  case jrBad => rw [exec_jr_bad s d a h]; exact Goes.next (takesTrap_takeTrap s trap _ 0 _)

end Sys2Proof.Machine
end

section
/-! PROOFS. Fences and monitors (O5, O6): the state that refutes O5, and when MWAIT returns and MARM arms. -/

namespace Sys2Proof.Machine

/-! ### A start token that waits for the rail (R146, R275) -/

/-- A STREAM port of cluster 0 over the sixteen elements of the take's tensor; its one consumer is ARMED, and SCENE.GO has sent
it its start token, which is held until the rail has settled. -/
def heldTokenState : State :=
  { takes := [t32Take]
    clusters := [(0, {
      ctx := [(0, { take := 1, kstate := .run })]
      regions := [(1, { take := 1, rstate := .armed, token := true })]
      inp := [(0, { bound := some ⟨1, 0, .stream, 0, ⟨0, 0⟩, 0, 0, 0⟩, cons := [⟨1, 0, 0, false⟩] })] })] }

theorem heldTokenState_armed : ∀ y ∈ (heldTokenState.cluster heldTokenState.curCl).inp,
    ∀ c ∈ y.2.cons, (heldTokenState.region heldTokenState.curCl c.rid).rstate = .armed := by decide

/-- The reads of the port count as issued from the start token on, so FENCE.AR and FENCE.REL wait for them. -/
theorem heldTokenState_streams : heldTokenState.myStreams = true := by decide +kernel

/-- Refutes O5: it takes an ARMED consumer for one whose stream reads have not started, where a start token that is held for the
rail has issued them. -/
theorem not_fencesAndDrain : ¬ Obligations.FencesAndDrain := by
  intro h
  obtain ⟨-, -, -, noneLeft⟩ := h.1 heldTokenState .ar .cl 0
  exact Bool.false_ne_true ((noneLeft fun y hy => .inr (heldTokenState_armed y hy)).symm.trans heldTokenState_streams)

section
variable {s : State}

/-! ### Reports and waits (R173, R177) -/

theorem stays_again (s : State) : Stays s s.again := becomes_onMe s _

theorem storesOut_iff {c : CueCtx} : c.storesOut = true ↔ ∃ x ∈ c.posted, x.mx = none := by
  simp [CueCtx.storesOut, List.any_eq_true]

theorem pickAbort_none {f : WrAbort → Bool} {l : List WrAbort} (h : ∀ x ∈ l, f x = false) : pickAbort f l = none := by
  induction l with
  | nil => rfl
  | cons x l ih =>
    rw [pickAbort, h x List.mem_cons_self, ih fun y hy => h y (List.mem_cons_of_mem _ hy)]; rfl

theorem report_none {r : Report} (h : ∀ x ∈ s.me.aborts, r.covers x = false) : s.report r = none := by
  rw [State.report, pickAbort_none h]

theorem Quiet.storesOut (h : Quiet s) : s.me.storesOut = false :=
  Bool.eq_false_iff.2 fun hs => by
    obtain ⟨x, hx, hn⟩ := storesOut_iff.1 hs
    exact h.1 x hx hn

/-- A quiet context has no store abort to report. -/
theorem Quiet.report (h : Quiet s) : s.report .stores = none :=
  report_none fun x hx => by
    have := h.2 x hx
    rw [Report.covers, Option.isNone_eq_false_iff]
    exact Option.isSome_iff_ne_none.2 this

/-- A release has nothing to wait for and nothing to report in a quiet context without stream reads (R177). -/
theorem Quiet.release (h : Quiet s) (hs : s.myStreams = false) (rel : Bool) : s.release rel = none := by
  unfold State.release
  rw [h.storesOut, hs, h.report]
  cases rel <;> rfl

/-! ### MWAIT (R179) -/

theorem exec_mwait_waits (d : Reg) (sc : Scope) (a : Reg) (h : ∃ x ∈ s.me.posted, x.mx = none) :
    exec (.mwait d true sc a) s = .next s.again := by
  change execMwait d true sc a s = _
  simp [execMwait, storesOut_iff.2 h]

/-- MWAIT has nothing to wait for or to report before it looks at the monitor. -/
theorem mwait_ready {acq : Bool} (h : acq = false ∨ Quiet s) :
    (acq && s.me.storesOut) = false ∧ (if acq then s.report .stores else none) = none := by
  obtain rfl | h := h
  · exact ⟨rfl, rfl⟩
  · rw [h.storesOut, h.report, Bool.and_false, ite_self]; exact ⟨rfl, rfl⟩

theorem exec_mwait_returns {acq : Bool} {v : Word} (d : Reg) (sc : Scope) (a : Reg) (h : acq = false ∨ Quiet s)
    (hc : s.me.monCause = some v) : exec (.mwait d acq sc a) s = .next (s.result 1 d v) := by
  change execMwait d acq sc a s = _
  obtain ⟨now, clear⟩ := mwait_ready h
  simp [execMwait, now, clear, hc]

theorem exec_mwait_starts {acq : Bool} (d : Reg) (sc : Scope) (a : Reg) (h : acq = false ∨ Quiet s)
    (hc : s.me.monCause = none) :
    exec (.mwait d acq sc a) s = .next (s.onMe fun c => c.startWait (.mwait d acq sc)) := by
  change execMwait d acq sc a s = _
  obtain ⟨now, clear⟩ := mwait_ready h
  simp [execMwait, now, clear, hc]

theorem monCause_none {c : CueCtx} (h : c.mon = none) : c.monCause = some 1 := by rw [CueCtx.monCause, h]
theorem monCause_fired {c : CueCtx} {m : Mon} (h : c.mon = some m) (hf : m.fired = true) : c.monCause = some 0 := by
  rw [CueCtx.monCause, h]; exact if_pos hf
theorem monCause_armed {c : CueCtx} {m : Mon} (h : c.mon = some m) (hf : m.fired = false) : c.monCause = none := by
  rw [CueCtx.monCause, h]; exact if_neg (by rw [hf]; decide)

theorem exec_mwaitWake {cl k : Nat} {d : Reg} {acq : Bool} {sc : Scope} {v : Word} (hw : (s.ctx cl k).wait = some (.mwait d acq sc))
    (hc : (s.ctx cl k).monCause = some v) :
    exec (.mwaitWake cl k) s = .next (s.updCtx cl k fun c => c.endWait.setReg d v) := by
  change execMwaitWake cl k s = _
  rw [execMwaitWake, hw, hc]

/-- A context of which one register is written, too. -/
theorem setReg_eq_with (c : CueCtx) (d : Reg) (v : Word) : c.setReg d v = { c with s := (c.setReg d v).s } := by
  unfold CueCtx.setReg; split <;> rfl

/-! ### MARM (R178) -/

theorem at_zero (n : Nat) : at_ n 0 = .ofNat 64 n := rfl

/-- MARM of a location in a vault arms the monitor on it; elsewhere it traps. -/
theorem marmOp_goes {n : Nat} {m : MemOp} {sz : Size} {lit : Int} {t : Take} {tid off : Nat} {c : Coord}
    (ht : s.myTake = some t) (hf : s.form t m lit (sizeBytes sz) = .ok tid c off) :
    ((t.tensor tid).res = 0 → ∀ a, s.translate t (t.tensor tid) off false false false = .ok (.key a) →
      Becomes s (s.marmOp n m sz lit) s.curCl s.curK { s.me with
        mon := some ⟨a, sizeBytes sz, false⟩, pc := s.me.pc + BitVec.ofNat 16 (4 * n) }) ∧
    ((t.tensor tid).res ≠ 0 → CanTrap s 11 → TakesTrap s (s.marmOp n m sz lit) 11 (.ofNat 64 tid) 0 s.me.pc) := by
  refine ⟨fun hr a ha => ?_, fun hr trap => ?_⟩
  · have arms : s.marmOp n m sz lit = (s.onMe fun c => { c with mon := some ⟨a, sizeBytes sz, false⟩ }).goOn n := by
      simp [State.marmOp, ht, hf, hr, ha]
    rw [arms]
    have armed := becomes_onMe s fun c => { c with mon := some ⟨a, sizeBytes sz, false⟩ }
    have gone := armed.trans (becomes_onMe _ fun c => c.advance n)
    rwa [State.me_onMe] at gone
  · have traps : s.marmOp n m sz lit = s.trap codeMonResidence (at_ tid 0) := by simp [State.marmOp, ht, hf, hr]
    rw [traps]; exact takesTrap_takeTrap s trap _ 0 _

end

/-- Settles O6: MWAIT by the cause that the monitor gives, MARM by the residence of its tensor. -/
theorem monitor : Obligations.Monitor := by
  refine ⟨fun s d acq sc a => ⟨fun ha hp => ?waits, fun ready => ?returns, fun cl k v hw hm => ?wakes⟩, fun s m sz lit t => ?marm⟩
  case waits =>
    subst ha
    rw [exec_mwait_waits d sc a hp]; exact Goes.next (stays_again s)
  case returns =>
    refine ⟨fun hm => ?_, fun m hm hf => ?_, fun m hm hf => ?_⟩
    · exact goes_result (exec_mwait_returns d sc a ready (monCause_none hm)) rfl
    · exact goes_result (exec_mwait_returns d sc a ready (monCause_fired hm hf)) rfl
    · rw [exec_mwait_starts d sc a ready (monCause_armed hm hf)]; exact Goes.next (becomes_onMe s _)
  case wakes =>
    have cause : (s.ctx cl k).monCause = some v := by
      obtain ⟨hm, rfl⟩ | ⟨m, hm, hf, rfl⟩ := hm
      · exact monCause_none hm
      · exact monCause_fired hm hf
    rw [exec_mwaitWake hw cause]
    have woken := becomes_updCtx s cl k fun c => c.endWait.setReg d v
    refine Goes.next ⟨?_, fun r hr => ?_, ?_⟩
    · rw [woken.value, CueCtx.reg_setReg_same]
    · rw [woken.value, CueCtx.reg_setReg_other _ _ hr]; rfl
    · rw [setReg_eq_with] at woken
      rwa [State.ctx_updCtx_same]
  case marm =>
    simp only [List.forall_mem_cons, List.not_mem_nil, false_imp_iff, implies_true, and_true]
    refine ⟨fun tid c off ht hf => ?_, fun tid c off ht hf => ?_⟩
    · obtain ⟨arms, traps⟩ := marmOp_goes (n := 2) ht hf
      exact ⟨fun hr a ha => Goes.next (arms hr a ha), fun hr trap => Goes.next (traps hr trap)⟩
    · obtain ⟨arms, traps⟩ := marmOp_goes (n := 3) ht hf
      exact ⟨fun hr a ha => Goes.next (arms hr a ha), fun hr trap => Goes.next (traps hr trap)⟩

end Sys2Proof.Machine
end

section
/-! PROOFS. Tensor accesses of the cue contexts (O9): the coordinates and the address of an operand, and what an access comes to. -/

namespace Sys2Proof.Machine

/-! ### Words of two fields -/

/-- A field above one that lies below it. -/
theorem at_or_low (a : Nat) {b lo : Nat} (h : b < 2 ^ lo) : at_ a lo ||| at_ b 0 = .ofNat 64 (a * 2 ^ lo + b) := by
  rw [at_zero, at_, ← BitVec.ofNat_or, ← Nat.shiftLeft_add_eq_or_of_lt h, Nat.shiftLeft_eq]

theorem at_or (a b lo : Nat) : at_ a lo ||| at_ b 0 = .ofNat 64 (a * 2 ^ lo ||| b) := by
  rw [at_zero, at_, ← BitVec.ofNat_or, Nat.shiftLeft_eq]

theorem kindInfo_eq (h : HReg) (x : Handle) : kindInfo h x = .ofNat 64 (16 * x.kind + h.toNat) := by
  rw [kindInfo, at_or_low x.kind h.isLt, Nat.mul_comm]; rfl

section
variable {s : State} {t : Take} {m : MemOp} {lit : Int} {n : Nat} {tid : BitVec 12}

/-! ### Address formation (R172) -/

/-- Coordinate `i` of an operand: that of its register, for coordinate 0 with the literal. -/
def State.coordInt (s : State) (m : MemOp) (lit : Int) (i : Nat) : Int := if i = 0 then s.coordOf m 0 + lit else s.coordOf m i

theorem coordOf_eq (s : State) (m : MemOp) {i : Nat} (h : i < 4) : ((s.coordOf m i : Nat) : Int) =
    if i ≤ m.nc.toNat then (((s.reg ([m.c0, m.c1, m.c2, m.c3].getD i 0)).toNat % 2 ^ 32 : Nat) : Int) else 0 := by
  have register : coordReg m i = [m.c0, m.c1, m.c2, m.c3].getD i 0 := by
    match i, h with
    | 0, _ => rfl
    | 1, _ => rfl
    | 2, _ => rfl
    | 3, _ => rfl
  unfold State.coordOf
  rw [bits_31_0, register]
  split <;> rfl

/-- The coordinate that the model finds outside the extents. -/
def outsideExtent (s : State) (t : Take) (m : MemOp) (lit : Int) (tid : BitVec 12) : Option Nat :=
  (List.range 4).find? fun i => s.coordInt m lit i < 0 || ((t.tensor tid.toNat).ext i : Int) ≤ s.coordInt m lit i

/-- The place that the operand's coordinates name. -/
def State.coordsOf (s : State) (m : MemOp) (lit : Int) : Coord :=
  ⟨(s.coordInt m lit 0).toNat, (s.coordInt m lit 1).toNat, (s.coordInt m lit 2).toNat, (s.coordInt m lit 3).toNat⟩

theorem form_notTensor (h : ∀ tid, s.handle m.h ≠ .tensor tid) :
    s.form t m lit n = .trap codeHandleKind (kindInfo m.h (s.handle m.h)) := by
  unfold State.form
  split
  next tid ht => exact absurd ht (h tid)
  next => rfl

theorem form_outside {i : Nat} (h : s.handle m.h = .tensor tid) (ho : outsideExtent s t m lit tid = some i) :
    s.form t m lit n = .trap codeTensorRange (at_ (s.coordInt m lit i % 2 ^ 32).toNat 32 ||| at_ i 0) := by
  unfold State.form
  rw [h]
  dsimp only
  split
  next j hj =>
    obtain rfl : j = i := Option.some.inj (hj.symm.trans ho)
    rfl
  next hj => exact absurd (hj.symm.trans ho) (by simp)

theorem form_inside (h : s.handle m.h = .tensor tid) (hi : outsideExtent s t m lit tid = none) :
    s.form t m lit n = let off := (t.tensor tid.toNat).offset (s.coordsOf m lit)
      if off % n = 0 then .ok tid.toNat (s.coordsOf m lit) off else .trap codeMisaligned (at_ off 16 ||| at_ tid.toNat 0) := by
  unfold State.form
  rw [h]
  dsimp only
  split
  next j hj => exact absurd (hj.symm.trans hi) (by simp)
  next => rw [ite_not]; rfl

theorem outsideExtent_some {i : Nat} (hi : i < 4)
    (bad : s.coordInt m lit i < 0 ∨ ((t.tensor tid.toNat).ext i : Int) ≤ s.coordInt m lit i)
    (good : ∀ j < i, 0 ≤ s.coordInt m lit j ∧ s.coordInt m lit j < ((t.tensor tid.toNat).ext j : Int)) :
    outsideExtent s t m lit tid = some i := by
  refine List.find?_range_eq_some.2 ⟨by simpa using bad, List.mem_range.2 hi, fun j hj => ?_⟩
  have := good j hj
  simp; omega

theorem outsideExtent_none
    (good : ∀ i < 4, 0 ≤ s.coordInt m lit i ∧ s.coordInt m lit i < ((t.tensor tid.toNat).ext i : Int)) :
    outsideExtent s t m lit tid = none := by
  refine List.find?_eq_none.2 fun i hi => ?_
  have := good i (List.mem_range.1 hi)
  simp; omega

/-! ### What an access comes to (R280, R318, R319, R324) -/

variable {ten : Tensor} {off : Nat} {rd wr am : Bool}

theorem access_fault {c : Nat} (h : s.translate t ten off rd wr am = .fault c) : s.access t ten off rd wr am = .fault c := by
  rw [State.access, h]
theorem access_wait (h : s.translate t ten off rd wr am = .wait) : s.access t ten off rd wr am = .wait := by
  rw [State.access, h]
theorem access_soWaits {l : Loc} (h : s.translate t ten off rd wr am = .ok l) (so : s.soWaits t ten = true) :
    s.access t ten off rd wr am = .wait := by
  rw [State.access, h]; exact if_pos so
theorem access_at {l : Loc} (h : s.translate t ten off rd wr am = .ok l) (so : s.soWaits t ten = false) :
    s.access t ten off rd wr am = .at l := by
  rw [State.access, h]; exact if_neg (by rw [so]; decide)

/-- A plot that an access goes through has V. -/
theorem entryV_of_translate {l : Loc} (h : s.translate t ten off rd wr am = .ok l) : entryV (ten.entry (off / 65536)) = true := by
  unfold State.translate at h
  dsimp only at h
  split_ifs at h
  simp_all

theorem stalls_valid (h : entryV (ten.entry (off / 65536)) = true) : s.stalls t ten off = s := by simp [State.stalls, h]
theorem stalls_near (h : ten.res ≠ 3) : s.stalls t ten off = s := by simp [State.stalls, h]

/-- The take wants a new grant of a peer's plot that has no translation (R324). -/
theorem stalls_peer {tid : Nat} (h : ten.res = 3) (htid : ten.tid.toNat = tid) : s.stalls t ten off = { s with
    takes := s.takes.map fun y => if y.id = t.id ∧ (ten.entry (off / 65536)).getLsbD 63 = false ∧ (tid, off / 65536) ∉ y.want
      then { y with want := y.want ++ [(tid, off / 65536)] } else y } := by
  subst htid
  have invalid : entryV (ten.entry (off / 65536)) = (ten.entry (off / 65536)).getLsbD 63 := rfl
  cases hv : (ten.entry (off / 65536)).getLsbD 63
  · simp only [State.stalls, h, invalid, hv, State.updTake, decide_true, Bool.not_false, Bool.and_self, if_true]
    congr 1
    refine List.map_congr_left fun y _ => ?_
    by_cases hy : y.id = t.id
    · rw [if_pos hy]
      by_cases hw : (ten.tid.toNat, off / 65536) ∈ y.want
      · rw [if_pos (List.contains_iff_mem.2 hw), if_neg fun h => h.2.2 hw]
      · rw [if_neg (mt List.contains_iff_mem.1 hw), if_pos ⟨hy, trivial, hw⟩]
    · rw [if_neg hy, if_neg fun h => hy h.1]
  · rw [stalls_valid (invalid.trans hv)]
    simp

/-- An outcome is that of an access at which the current instruction waits, or ends with OUT-OF-LEASE. -/
structure AccessOutcome (s : State) (t : Take) (tid off : Nat) (rd wr am : Bool) (o : Out) : Prop where
  waits  : s.access t (t.tensor tid) off rd wr am = .wait → o = .next (s.stalls t (t.tensor tid) off).again
  faults : ∀ c, s.access t (t.tensor tid) off rd wr am = .fault c → o = .next (s.outOfLease t.id 0 c s.curCl s.curK tid off)

variable {c : Coord}

/-! ### The instructions that access a tensor (R172 to R178) -/

theorem load_trap {d : Reg} {u : Bool} {sz : Size} {code : Nat} {info : Word} (ht : s.myTake = some t)
    (hf : s.form t m lit (sizeBytes sz) = .trap code info) : s.load n d m u sz lit = s.trap code info := by
  simp [State.load, ht, hf]
theorem store_trap {v : Reg} {rel : Bool} {sz : Size} {code : Nat} {info : Word} (ht : s.myTake = some t)
    (hf : s.form t m lit (sizeBytes sz) = .trap code info) : s.store n m v rel sz lit = s.trap code info := by
  simp [State.store, ht, hf]
theorem amo_trap {d v x : Reg} {rel : Bool} {sz : Size} {op : AmoOp} {code : Nat} {info : Word} (ht : s.myTake = some t)
    (hf : s.form t m lit (sizeBytes sz) = .trap code info) : s.amo n d m v x rel sz op lit = s.trap code info := by
  simp [State.amo, ht, hf]
theorem marm_trap {sz : Size} {code : Nat} {info : Word} (ht : s.myTake = some t)
    (hf : s.form t m lit (sizeBytes sz) = .trap code info) : s.marmOp n m sz lit = s.trap code info := by
  simp [State.marmOp, ht, hf]

theorem load_formed {d : Reg} {u : Bool} {sz : Size} {tid : Nat} (ht : s.myTake = some t)
    (hf : s.form t m lit (sizeBytes sz) = .ok tid c off) : s.load n d m u sz lit = s.loadAt t n d u sz tid off := by
  simp [State.load, ht, hf]
theorem store_formed {v : Reg} {rel : Bool} {sz : Size} {tid : Nat} (ht : s.myTake = some t)
    (hf : s.form t m lit (sizeBytes sz) = .ok tid c off) (hr : s.release rel = none) :
    s.store n m v rel sz lit = s.storeAt t n (s.reg v) sz tid off := by
  simp [State.store, ht, hf, hr]
theorem amo_formed {d v x : Reg} {rel : Bool} {sz : Size} {op : AmoOp} {tid : Nat} (ht : s.myTake = some t)
    (hf : s.form t m lit (sizeBytes sz) = .ok tid c off) (hr : s.release rel = none)
    (hh : (t.tensor tid).res = 2 → amoHostOk op sz = true) :
    s.amo n d m v x rel sz op lit = s.amoAt t n d (s.reg v) (s.reg x) op sz tid off := by
  have performed : ((t.tensor tid).res = 2 && !amoHostOk op sz) = false := by
    by_cases h : (t.tensor tid).res = 2 <;> simp [h, hh]
  simp [State.amo, ht, hf, hr, performed]

variable {tid : Nat}

theorem loadAt_outcome (d : Reg) (u : Bool) (sz : Size) :
    AccessOutcome s t tid off true false false (.next (s.loadAt t n d u sz tid off)) :=
  ⟨fun h => by rw [State.loadAt, h], fun c h => by rw [State.loadAt, h]⟩
theorem storeAt_outcome (v : Word) (sz : Size) :
    AccessOutcome s t tid off false true false (.next (s.storeAt t n v sz tid off)) :=
  ⟨fun h => by rw [State.storeAt]; dsimp only; rw [h], fun c h => by rw [State.storeAt]; dsimp only; rw [h]⟩
theorem amoAt_outcome (d : Reg) (v x : Word) (op : AmoOp) (sz : Size) :
    AccessOutcome s t tid off false false true (.next (s.amoAt t n d v x op sz tid off)) :=
  ⟨fun h => by rw [State.amoAt, h], fun c h => by rw [State.amoAt, h]⟩

/-- An instruction that reads, writes or updates an element: it raises the trap of its address formation, and otherwise has the
outcome of its access. -/
structure AccessesTensor (s : State) (t : Take) (m : MemOp) (lit : Int) (n : Nat) (rd wr am : Bool) (i : Instr) : Prop where
  traps   : ∀ code info, s.form t m lit n = .trap code info → exec i s = .next (s.trap code info)
  outcome : ∀ tid c off, s.form t m lit n = .ok tid c off → Quiet s → s.myStreams = false → (t.tensor tid).res ≠ 2 →
    AccessOutcome s t tid off rd wr am (exec i s)

theorem load_accesses (ht : s.myTake = some t) {d : Reg} {u : Bool} {sz : Size} {i : Instr}
    (h : exec i s = .next (s.load n d m u sz lit)) : AccessesTensor s t m lit (sizeBytes sz) true false false i :=
  ⟨fun _ _ hf => by rw [h, load_trap ht hf], fun _ _ _ hf _ _ _ => by rw [h, load_formed ht hf]; exact loadAt_outcome d u sz⟩
theorem store_accesses (ht : s.myTake = some t) {v : Reg} {rel : Bool} {sz : Size} {i : Instr}
    (h : exec i s = .next (s.store n m v rel sz lit)) : AccessesTensor s t m lit (sizeBytes sz) false true false i :=
  ⟨fun _ _ hf => by rw [h, store_trap ht hf],
    fun _ _ _ hf hq hs _ => by rw [h, store_formed ht hf (hq.release hs rel)]; exact storeAt_outcome _ sz⟩
theorem amo_accesses (ht : s.myTake = some t) {d v x : Reg} {rel : Bool} {sz : Size} {op : AmoOp} {i : Instr}
    (h : exec i s = .next (s.amo n d m v x rel sz op lit)) : AccessesTensor s t m lit (sizeBytes sz) false false true i :=
  ⟨fun _ _ hf => by rw [h, amo_trap ht hf], fun _ _ _ hf hq hs hr => by
    rw [h, amo_formed ht hf (hq.release hs rel) fun h2 => absurd h2 hr]; exact amoAt_outcome d _ _ op sz⟩

/-- What O9 says of an instruction with outcome `o` that accesses a tensor, to read, to write or as an atomic. -/
def AccessClauses (s : State) (t : Take) (m : MemOp) (lit : Int) (n : Nat) (rd wr am : Bool) (o : Out) : Prop :=
  (∀ code info, s.form t m lit n = .trap code info → CanTrap s code → Goes o fun x => TakesTrap s x code info 0 s.me.pc) ∧
  ∀ tid c off, s.form t m lit n = .ok tid c off → Quiet s → s.myStreams = false → let ten := t.tensor tid
    let way := s.translate t ten off rd wr am
    (ten.res = 0 → (way = .wait → Goes o fun x => Stays s x) ∧
      ∀ cause, way = .fault cause → o = .next (s.outOfLease t.id 0 cause s.curCl s.curK tid off)) ∧
    ((rd || wr || am) = true → ten.res ≠ 2 → ∀ l, way = .ok l → s.soWaits t ten = true → Goes o fun x => Stays s x) ∧
    ((rd || wr || am) = true → ten.res = 3 → ten.tid.toNat = tid → way = .wait → Goes o fun x => ∃ z, Stays z x ∧ z = { s with
      takes := s.takes.map fun y => if y.id = t.id ∧ (ten.entry (off / 65536)).getLsbD 63 = false ∧ (tid, off / 65536) ∉ y.want
        then { y with want := y.want ++ [(tid, off / 65536)] } else y })

theorem AccessesTensor.clauses {i : Instr} (h : AccessesTensor s t m lit n rd wr am i) :
    AccessClauses s t m lit n rd wr am (exec i s) := by
  refine ⟨fun code info hf trap => ?_, fun tid c off hf hq hs => ⟨fun hr => ⟨fun hw => ?_, fun cause hc => ?_⟩, fun _ hr l hl so => ?_,
    fun _ hr htid hw => ?_⟩⟩
  · rw [h.traps code info hf]; exact Goes.next (takesTrap_takeTrap s trap _ 0 _)
  · rw [(h.outcome tid c off hf hq hs (by omega)).waits (access_wait hw), stalls_near (by omega)]
    exact Goes.next (stays_again s)
  · exact (h.outcome tid c off hf hq hs (by omega)).faults cause (access_fault hc)
  · rw [(h.outcome tid c off hf hq hs hr).waits (access_soWaits hl so), stalls_valid (entryV_of_translate hl)]
    exact Goes.next (stays_again s)
  · rw [(h.outcome tid c off hf hq hs (by omega)).waits (access_wait hw)]
    exact Goes.next ⟨_, stays_again _, stalls_peer hr htid⟩

/-- MARM has no place to wait for but that of a location in a vault. -/
theorem marmOp_waits {sz : Size} (ht : s.myTake = some t) (hf : s.form t m lit (sizeBytes sz) = .ok tid c off)
    (hr : (t.tensor tid).res = 0) (hw : s.translate t (t.tensor tid) off false false false = .wait) :
    s.marmOp n m sz lit = s.again := by
  simp [State.marmOp, ht, hf, hr, hw]
theorem marmOp_faults {sz : Size} {cause : Nat} (ht : s.myTake = some t) (hf : s.form t m lit (sizeBytes sz) = .ok tid c off)
    (hr : (t.tensor tid).res = 0) (hw : s.translate t (t.tensor tid) off false false false = .fault cause) :
    s.marmOp n m sz lit = s.outOfLease t.id 0 cause s.curCl s.curK tid off := by
  simp [State.marmOp, ht, hf, hr, hw]

theorem marm_clauses {sz : Size} (ht : s.myTake = some t) :
    AccessClauses s t m lit (sizeBytes sz) false false false (.next (s.marmOp n m sz lit)) := by
  refine ⟨fun code info hf trap => ?_, fun tid c off hf _ _ => ⟨fun hr => ⟨fun hw => ?_, fun cause hc => ?_⟩,
    fun h => absurd h (by decide), fun h => absurd h (by decide)⟩⟩
  · rw [marm_trap ht hf]; exact Goes.next (takesTrap_takeTrap s trap _ 0 _)
  · rw [marmOp_waits ht hf hr hw]; exact Goes.next (stays_again s)
  · rw [marmOp_faults ht hf hr hc]

/-- An access to an SO plot waits for every earlier access of its context, another one for those to SO plots (R280). -/
theorem soWaits_eq_false_iff (s : State) (t : Take) (ten : Tensor) : s.soWaits t ten = false ↔
    s.streamsLeft s.curCl t (decide (ten.kind ≠ 0)) = false ∧ s.copiesLeft s.curCl t (decide (ten.kind ≠ 0)) = false ∧
    (∀ x ∈ s.me.posted, x.mx = none → ten.kind ≠ 0 ∧ x.so = false) ∧
    ∀ i ∈ (s.mxOf s.curCl).queue, i.k = s.curK →
      i.op.reads (s.mxOf s.curCl) (fun tid => ten.kind == 0 || (t.tensor tid).kind == 0) = false := by
  by_cases h : ten.kind = 0
  · simp [State.soWaits, State.readsLeft, Tensor.isSo, h, CueCtx.storesOut, and_assoc]
  · have ordinary : (ten.kind == 0) = false := beq_eq_false_iff_ne.2 h
    simp [State.soWaits, State.readsLeft, Tensor.isSo, h, ordinary, and_assoc]

end

/-- Settles O9: the coordinates in order, the outcome of each access by its translation, and what an access waits for. -/
theorem addresses : Obligations.Addresses := by
  refine ⟨fun s t m lit n => ?formation, fun s d v w m ord u sz op sc lit t ht => ?accesses, soWaits_eq_false_iff⟩
  case formation =>
    intro x reg v
    have coord (i : Nat) (hi : i < 4) : v i = s.coordInt m lit i := by
      simp only [v, reg, State.coordInt]
      split
      next h => subst h; rw [coordOf_eq s m hi]
      next => rw [coordOf_eq s m hi]
    refine ⟨fun h => ?_, fun tid h => ⟨fun i hi bad good => ?_, fun good => ?_⟩⟩
    · rw [form_notTensor h, kindInfo_eq]; rfl
    · rw [coord i hi] at bad ⊢
      have outside : outsideExtent s t m lit tid = some i :=
        outsideExtent_some hi bad fun j hj => by rw [← coord j (by omega)]; exact good j hj
      rw [form_outside h outside, at_or_low _ (by omega)]; rfl
    · have inside : outsideExtent s t m lit tid = none := outsideExtent_none fun i hi => by rw [← coord i hi]; exact good i hi
      have place : (⟨(v 0).toNat, (v 1).toNat, (v 2).toNat, (v 3).toNat⟩ : Coord) = s.coordsOf m lit := by
        rw [coord 0 (by decide), coord 1 (by decide), coord 2 (by decide), coord 3 (by decide)]; rfl
      rw [form_inside h inside]; dsimp only; rw [at_or, place]; rfl
  case accesses =>
    have performs {i : Instr} {l : Int} {rd wr am : Bool} (h : AccessesTensor s t m l (sizeBytes sz) rd wr am i) :
        AccessClauses s t m l (sizeBytes sz) rd wr am (exec i s) := h.clauses
    have arms {i : Instr} {l : Int} {n : Nat} (h : exec i s = .next (s.marmOp n m sz l)) :
        AccessClauses s t m l (sizeBytes sz) false false false (exec i s) := h ▸ marm_clauses ht
    simp only [List.forall_mem_cons, List.not_mem_nil, false_imp_iff, implies_true, and_true]
    exact ⟨performs (load_accesses ht rfl), performs (load_accesses ht rfl), performs (store_accesses ht rfl),
      performs (store_accesses ht rfl), performs (amo_accesses ht rfl), performs (amo_accesses ht rfl), arms rfl, arms rfl⟩

end Sys2Proof.Machine
end

section
/-! PROOFS. Loads (O10): the word that bytes make, what the detection of an error leaves of the contexts, and a LD at its place. -/

namespace Sys2Proof.Machine

/-! ### Words and bytes (R173) -/

theorem ofBytes_lt (l : List Byte) : ofBytes l < 2 ^ (8 * l.length) := by
  induction l with
  | nil => exact Nat.one_pos
  | cons b l ih =>
    have := b.isLt
    rw [List.length_cons, Nat.mul_succ, Nat.pow_add, ofBytes]
    omega

/-- Sign extension of the low bits of a number. -/
theorem ofInt_sextN {w : Nat} (hw : 0 < w) (v : Nat) : ofInt (sextN w v) = (BitVec.ofNat w v).signExtend 64 := by
  have half : 2 ^ w = 2 * 2 ^ (w - 1) := by rw [← Nat.pow_succ', Nat.succ_eq_add_one, Nat.sub_add_cancel hw]
  have value : (BitVec.ofNat w v).toInt = sextN w v := by
    rw [BitVec.toInt_eq_toNat_cond, BitVec.toNat_ofNat, sextN]
    refine if_congr ?_ rfl rfl
    omega
  rw [BitVec.signExtend, value]; rfl

/-- The word that a load makes of the bytes it reads. -/
theorem loadWord_ofBytes (u : Bool) (sz : Size) {l : List Byte} (h : l.length = sizeBytes sz) : loadWord u sz (ofBytes l) =
    let v := BitVec.ofNat (8 * sizeBytes sz) (ofBytes l)
    if u then v.setWidth 64 else v.signExtend 64 := by
  have pos : 0 < 8 * sizeBytes sz := by cases sz <;> decide
  have short : ofBytes l < 2 ^ (8 * sizeBytes sz) := h ▸ ofBytes_lt l
  have fits : (BitVec.ofNat (8 * sizeBytes sz) (ofBytes l)).setWidth 64 = .ofNat 64 (ofBytes l) :=
    BitVec.eq_of_toNat_eq (by rw [BitVec.toNat_setWidth, BitVec.toNat_ofNat, BitVec.toNat_ofNat, Nat.mod_eq_of_lt short])
  cases u
  · exact ofInt_sextN pos _
  · exact fits.symm

section
variable (s : State)

/-! ### What the detection of an error leaves of the contexts (R265, R331) -/

/-- The contexts are as before but for their monitors, and the current one is the same. -/
structure SameContexts (s t : State) : Prop where
  curCl : t.curCl = s.curCl
  curK  : t.curK = s.curK
  ctx   : ∀ cl k, ∃ m, t.ctx cl k = { s.ctx cl k with mon := m }

theorem SameContexts.refl : SameContexts s s := ⟨rfl, rfl, fun _ _ => ⟨_, rfl⟩⟩

variable {s} in
theorem SameContexts.trans {t u : State} (h : SameContexts s t) (g : SameContexts t u) : SameContexts s u where
  curCl := g.curCl.trans h.curCl
  curK := g.curK.trans h.curK
  ctx cl k := by
    obtain ⟨m, hm⟩ := h.ctx cl k
    obtain ⟨n, hn⟩ := g.ctx cl k
    exact ⟨n, by rw [hn, hm]⟩

theorem sameContexts_of_clusters {t : State} (hc : t.clusters = s.clusters) (h1 : t.curCl = s.curCl) (h2 : t.curK = s.curK) :
    SameContexts s t :=
  ⟨h1, h2, fun cl k => ⟨(s.ctx cl k).mon, by rw [State.ctx, State.cluster, hc]; rfl⟩⟩

theorem ctx_noteErr (ue : Bool) (a n cl k : Nat) : (s.noteErr ue a n).ctx cl k = s.ctx cl k := by
  rw [State.ctx, State.cluster_noteErr]; split <;> rfl

theorem sameContexts_noteErr (ue : Bool) (a n : Nat) : SameContexts s (s.noteErr ue a n) where
  curCl := by have h := congrArg State.curCl (s.noteErr_rest ue a n); exact h
  curK := by have h := congrArg State.curK (s.noteErr_rest ue a n); exact h
  ctx cl k := ⟨_, ctx_noteErr s ue a n cl k⟩

theorem sameContexts_write (a : Nat) (l : List Byte) : SameContexts s (s.write a l) where
  curCl := by have h := congrArg State.curCl (s.write_rest a l); exact h
  curK := by have h := congrArg State.curK (s.write_rest a l); exact h
  ctx cl k := ⟨_, State.ctx_write s a l cl k⟩

theorem sameContexts_pokeRuns (r : List (Nat × Nat)) (l : List Byte) : SameContexts s (s.pokeRuns r l) := by
  induction r generalizing s l with
  | nil => exact .refl s
  | cons x r ih => exact (sameContexts_write s _ _).trans (ih _ _)

theorem sameContexts_refWrite (f : Nat) (r : Word) (o : Nat) (l : List Byte) : SameContexts s (s.refWrite f r o l) :=
  sameContexts_pokeRuns s _ l

theorem sameContexts_updFn (n : Nat) (g : Fn → Fn) : SameContexts s (s.updFn n g) := sameContexts_of_clusters s rfl rfl rfl
theorem sameContexts_updDie (n : Nat) (g : Die → Die) : SameContexts s (s.updDie n g) := sameContexts_of_clusters s rfl rfl rfl
theorem sameContexts_emit (m : OutMsg) : SameContexts s (s.emit m) := sameContexts_of_clusters s rfl rfl rfl

theorem sameContexts_msix (f v : Nat) : SameContexts s (s.msix f v) := by
  unfold State.msix
  split
  · exact .refl s
  · split
    · exact sameContexts_updFn s _ _
    · exact sameContexts_emit s _

theorem sameContexts_event (f : Nat) (w0 w1 w2 : Word) : SameContexts s (s.event f w0 w1 w2) := by
  unfold State.event
  dsimp only
  split
  · exact .refl s
  · split
    · exact sameContexts_updFn s _ _
    · split
      · exact sameContexts_updFn s _ _
      · exact ((sameContexts_refWrite s _ _ _ _).trans (sameContexts_updFn _ _ _)).trans (sameContexts_msix _ _ _)

theorem sameContexts_elog (d cl t : Nat) (i : Word) : SameContexts s (s.elog d cl t i) := by
  unfold State.elog
  dsimp only
  split
  · exact .refl s
  · split
    · exact .refl s
    · exact (sameContexts_refWrite s _ _ _ _).trans (sameContexts_updDie _ _ _)

theorem sameContexts_detectUe (d cl t : Nat) (i : Word) : SameContexts s (s.detectUe d cl t i) := by
  have logged := (sameContexts_emit s (.errorIrq d)).trans (sameContexts_elog _ d cl t i)
  unfold State.detectUe State.ueEvent
  split
  · exact logged.trans (sameContexts_event _ _ _ _ _)
  · exact logged

theorem sameContexts_uncorrectable (a n cl t : Nat) : SameContexts s (s.uncorrectable a n cl t) :=
  (sameContexts_noteErr s true a n).trans (sameContexts_detectUe _ _ _ _ _)

variable {s} in
/-- A context that may take a trap may take it after anything that leaves the takes and, but for monitors, the contexts. -/
theorem SameContexts.canTrap {t : State} {code : Nat} (h : SameContexts s t) (ht : t.takes = s.takes) (c : CanTrap s code) :
    CanTrap t code ∧ t.me.pc = s.me.pc := by
  obtain ⟨m, hm⟩ := h.ctx s.curCl s.curK
  have me : t.me = { s.me with mon := m } := by rw [State.me, h.curCl, h.curK]; exact hm
  obtain ⟨⟨x, hx, hact⟩, hk, hh⟩ := c
  refine ⟨⟨⟨x, ?_, hact⟩, by rw [me]; exact hk, by rw [me]; exact hh⟩, by rw [me]⟩
  rw [State.myTake, State.take?, ht, me]; exact hx

variable {s} in
/-- A trap after the detection of an uncorrectable error. -/
theorem takesTrap_uncorrectable {code : Nat} (a n cl take : Nat) (h : CanTrap s code) (info : Word) : let u := s.uncorrectable a n cl take
    TakesTrap u (u.trap code info) code info 0 s.me.pc := by
  intro u
  obtain ⟨trap, pc⟩ := (sameContexts_uncorrectable s a n cl take).canTrap (State.uncorrectable_takes s a n cl take) h
  rw [← pc]
  exact takesTrap_takeTrap u trap info 0 _

end

section
variable {s : State} {t : Take} {n tid off : Nat} {d : Reg} {u : Bool} {sz : Size}

/-! ### LD (R173) -/

theorem loadAt_reads {a : Nat} (h : s.access t (t.tensor tid) off true false false = .at (.key a))
    (good : s.readBad a (sizeBytes sz) = false) : s.loadAt t n d u sz tid off =
      (s.noteRead a (sizeBytes sz)).result n d (loadWord u sz (ofBytes (s.peek a (sizeBytes sz)))) := by
  simp [State.loadAt, h, State.read, good]

theorem loadAt_aborts {a : Nat} (h : s.access t (t.tensor tid) off true false false = .at (.key a))
    (bad : s.readBad a (sizeBytes sz) = true) : s.loadAt t n d u sz tid off =
      (s.uncorrectable a (sizeBytes sz) s.curCl t.id).trap codeDataAbort (at_ tid 0) := by
  simp [State.loadAt, h, State.read, bad]

theorem loadAt_asks {pkg lease o : Nat} (h : s.access t (t.tensor tid) off true false false = .at (.peer pkg lease o)) :
    s.loadAt t n d u sz tid off = (s.onMe fun c => { c with stall := some (.load n d sz u (.ofNat 12 tid) none off) }).sendMem
      pkg (.cueLoad s.curCl s.curK) lease o (.read (sizeBytes sz)) := by
  simp [State.loadAt, h]

theorem exec_loadReply {cl k np : Nat} {tid : BitVec 12} {bytes : List Byte} (hb : bytes.length = sizeBytes sz)
    (h : (s.ctx cl k).stall = some (.load np d sz u tid none off)) : exec (.loadReply cl k bytes) s =
      .next (s.updCtx cl k fun c => ({ c with stall := none }.setReg d (loadWord u sz (ofBytes bytes))).advance np) := by
  change execLoadReply cl k bytes s = _
  simp [execLoadReply, h, ← hb]

/-- The stalled load's reply: the register, the others, and the context but for them. -/
theorem loadReply_goes {cl k np : Nat} {tid : BitVec 12} {bytes : List Byte} (hb : bytes.length = sizeBytes sz)
    (h : (s.ctx cl k).stall = some (.load np d sz u tid none off)) : Goes (exec (.loadReply cl k bytes) s) fun x =>
      (x.ctx cl k).reg d = (if d = 0 then 0 else loadWord u sz (ofBytes bytes)) ∧
      (∀ r, r ≠ d → (x.ctx cl k).reg r = (s.ctx cl k).reg r) ∧
      Becomes s x cl k { s.ctx cl k with
        s := (x.ctx cl k).s, stall := none, pc := (s.ctx cl k).pc + BitVec.ofNat 16 (4 * np) } := by
  rw [exec_loadReply hb h]
  have replied := becomes_updCtx s cl k fun c =>
    ({ c with stall := none }.setReg d (loadWord u sz (ofBytes bytes))).advance np
  refine Goes.next ⟨?_, fun r hr => ?_, ?_⟩
  · rw [replied.value, CueCtx.reg_advance, CueCtx.reg_setReg_same]
  · rw [replied.value, CueCtx.reg_advance, CueCtx.reg_setReg_other _ _ hr]; rfl
  · rw [setReg_eq_with] at replied
    rwa [State.ctx_updCtx_same, CueCtx.advance, setReg_eq_with]

/-- A LD whose address is formed, where nothing is to come before it. -/
theorem loadAt_goes {i : Instr} (hi : exec i s = .next (s.loadAt t n d u sz tid off)) (so : s.soWaits t (t.tensor tid) = false) :
    (∀ a, s.translate t (t.tensor tid) off true false false = .ok (.key a) →
      (s.readBad a (sizeBytes sz) = false → Goes (exec i s) fun x =>
        WritesReg (s.noteRead a (sizeBytes sz)) x d (loadWord u sz (ofBytes (s.peek a (sizeBytes sz)))) n) ∧
      (s.readBad a (sizeBytes sz) = true → CanTrap s 9 → Goes (exec i s) fun x =>
        TakesTrap (s.uncorrectable a (sizeBytes sz) s.curCl t.id) x 9 (.ofNat 64 tid) 0 s.me.pc)) ∧
    ∀ pkg lease o, s.translate t (t.tensor tid) off true false false = .ok (.peer pkg lease o) →
      exec i s = .next ((s.onMe fun c => { c with stall := some (.load n d sz u (.ofNat 12 tid) none off) }).sendMem
        pkg (.cueLoad s.curCl s.curK) lease o (.read (sizeBytes sz))) := by
  rw [hi]
  refine ⟨fun a ha => ⟨fun good => ?_, fun bad trap => ?_⟩, fun pkg lease o hp => ?_⟩
  · rw [loadAt_reads (access_at ha so) good]; exact Goes.next (writesReg_result _ n d _)
  · rw [loadAt_aborts (access_at ha so) bad]; exact Goes.next (takesTrap_uncorrectable a _ _ _ trap _)
  · rw [loadAt_asks (access_at hp so)]

end

/-- Settles O10: a LD at its place by what the read gives, its reply by the stall that it completes. -/
theorem load : Obligations.Load := by
  intro s d m ord u sz sc lit t n word
  have words {l : List Byte} (h : l.length = n) : loadWord u sz (ofBytes l) = word l := loadWord_ofBytes u sz h
  refine ⟨?places, fun cl k np tid off bytes hb h => ?reply⟩
  case places =>
    simp only [List.forall_mem_cons, List.not_mem_nil, false_imp_iff, implies_true, and_true, ← words (s.length_peek _ n)]
    exact ⟨fun tid c off ht hf so => loadAt_goes (congrArg Host.Outcome.next (load_formed ht hf)) so,
      fun tid c off ht hf so => loadAt_goes (congrArg Host.Outcome.next (load_formed ht hf)) so⟩
  case reply =>
    rw [← words hb]; exact loadReply_goes hb h

end Sys2Proof.Machine
end

section
/-! PROOFS. The tables of a cluster after an update: contexts, regions, banks and ports read as before what another table's update
leaves alone. -/

namespace Sys2Proof.Machine

variable (s : State)

/-! ### An update of a cluster that leaves a table alone -/

section
variable {cl : Nat} {f : Cluster → Cluster}

theorem State.ctx_updCluster (h : (f (s.cluster cl)).ctx = (s.cluster cl).ctx) (c i : Nat) :
    (s.updCluster cl f).ctx c i = s.ctx c i := by
  rw [State.ctx, State.cluster_updCluster]
  split
  next e => rw [h, e]; rfl
  next => rfl
theorem State.region_updCluster (h : (f (s.cluster cl)).regions = (s.cluster cl).regions) (c i : Nat) :
    (s.updCluster cl f).region c i = s.region c i := by
  rw [State.region, State.cluster_updCluster]
  split
  next e => rw [h, e]; rfl
  next => rfl
theorem State.bank_updCluster (h : (f (s.cluster cl)).banks = (s.cluster cl).banks) (c i : Nat) :
    (s.updCluster cl f).bank c i = s.bank c i := by
  rw [State.bank, State.cluster_updCluster]
  split
  next e => rw [h, e]; rfl
  next => rfl
theorem State.inPort_updCluster (h : (f (s.cluster cl)).inp = (s.cluster cl).inp) (c i : Nat) :
    (s.updCluster cl f).inPort c i = s.inPort c i := by
  rw [State.inPort, State.cluster_updCluster]
  split
  next e => rw [h, e]; rfl
  next => rfl
theorem State.outPort_updCluster (h : (f (s.cluster cl)).outp = (s.cluster cl).outp) (c i : Nat) :
    (s.updCluster cl f).outPort c i = s.outPort c i := by
  rw [State.outPort, State.cluster_updCluster]
  split
  next e => rw [h, e]; rfl
  next => rfl

end

/-! ### The table that an update is of -/

section
variable {cl i c j : Nat}

theorem State.ctx_updCtx (f : CueCtx → CueCtx) :
    (s.updCtx cl i f).ctx c j = if c = cl ∧ j = i then f (s.ctx cl i) else s.ctx c j := by
  by_cases hc : c = cl
  · subst hc; simp [State.ctx, State.updCtx, tget_tupd]
  · simp [State.ctx, State.updCtx, State.cluster_updCluster_other s hc, hc]
theorem State.region_updRegion (f : Region → Region) :
    (s.updRegion cl i f).region c j = if c = cl ∧ j = i then f (s.region cl i) else s.region c j := by
  by_cases hc : c = cl
  · subst hc; simp [State.region, State.updRegion, tget_tupd]
  · simp [State.region, State.updRegion, State.cluster_updCluster_other s hc, hc]
theorem State.bank_updBank (f : Bank → Bank) :
    (s.updBank cl i f).bank c j = if c = cl ∧ j = i then f (s.bank cl i) else s.bank c j := by
  by_cases hc : c = cl
  · subst hc; simp [State.bank, State.updBank, tget_tupd]
  · simp [State.bank, State.updBank, State.cluster_updCluster_other s hc, hc]
theorem State.inPort_updIn (f : InPort → InPort) :
    (s.updIn cl i f).inPort c j = if c = cl ∧ j = i then f (s.inPort cl i) else s.inPort c j := by
  by_cases hc : c = cl
  · subst hc; simp [State.inPort, State.updIn, tget_tupd]
  · simp [State.inPort, State.updIn, State.cluster_updCluster_other s hc, hc]
theorem State.outPort_updOut (f : OutPort → OutPort) :
    (s.updOut cl i f).outPort c j = if c = cl ∧ j = i then f (s.outPort cl i) else s.outPort c j := by
  by_cases hc : c = cl
  · subst hc; simp [State.outPort, State.updOut, tget_tupd]
  · simp [State.outPort, State.updOut, State.cluster_updCluster_other s hc, hc]

/-! ### The other tables -/

@[simp] theorem State.ctx_updRegion (f : Region → Region) : (s.updRegion cl i f).ctx c j = s.ctx c j :=
  s.ctx_updCluster rfl c j
@[simp] theorem State.ctx_updBank (f : Bank → Bank) : (s.updBank cl i f).ctx c j = s.ctx c j :=
  s.ctx_updCluster rfl c j
@[simp] theorem State.ctx_updIn (f : InPort → InPort) : (s.updIn cl i f).ctx c j = s.ctx c j :=
  s.ctx_updCluster rfl c j
@[simp] theorem State.ctx_updOut (f : OutPort → OutPort) : (s.updOut cl i f).ctx c j = s.ctx c j :=
  s.ctx_updCluster rfl c j
@[simp] theorem State.region_updCtx (f : CueCtx → CueCtx) : (s.updCtx cl i f).region c j = s.region c j :=
  s.region_updCluster rfl c j
@[simp] theorem State.region_updBank (f : Bank → Bank) : (s.updBank cl i f).region c j = s.region c j :=
  s.region_updCluster rfl c j
@[simp] theorem State.region_updIn (f : InPort → InPort) : (s.updIn cl i f).region c j = s.region c j :=
  s.region_updCluster rfl c j
@[simp] theorem State.region_updOut (f : OutPort → OutPort) : (s.updOut cl i f).region c j = s.region c j :=
  s.region_updCluster rfl c j
@[simp] theorem State.bank_updCtx (f : CueCtx → CueCtx) : (s.updCtx cl i f).bank c j = s.bank c j :=
  s.bank_updCluster rfl c j
@[simp] theorem State.bank_updRegion (f : Region → Region) : (s.updRegion cl i f).bank c j = s.bank c j :=
  s.bank_updCluster rfl c j
@[simp] theorem State.bank_updIn (f : InPort → InPort) : (s.updIn cl i f).bank c j = s.bank c j :=
  s.bank_updCluster rfl c j
@[simp] theorem State.bank_updOut (f : OutPort → OutPort) : (s.updOut cl i f).bank c j = s.bank c j :=
  s.bank_updCluster rfl c j
@[simp] theorem State.inPort_updCtx (f : CueCtx → CueCtx) : (s.updCtx cl i f).inPort c j = s.inPort c j :=
  s.inPort_updCluster rfl c j
@[simp] theorem State.inPort_updRegion (f : Region → Region) : (s.updRegion cl i f).inPort c j = s.inPort c j :=
  s.inPort_updCluster rfl c j
@[simp] theorem State.inPort_updBank (f : Bank → Bank) : (s.updBank cl i f).inPort c j = s.inPort c j :=
  s.inPort_updCluster rfl c j
@[simp] theorem State.inPort_updOut (f : OutPort → OutPort) : (s.updOut cl i f).inPort c j = s.inPort c j :=
  s.inPort_updCluster rfl c j
@[simp] theorem State.outPort_updCtx (f : CueCtx → CueCtx) : (s.updCtx cl i f).outPort c j = s.outPort c j :=
  s.outPort_updCluster rfl c j
@[simp] theorem State.outPort_updRegion (f : Region → Region) : (s.updRegion cl i f).outPort c j = s.outPort c j :=
  s.outPort_updCluster rfl c j
@[simp] theorem State.outPort_updBank (f : Bank → Bank) : (s.updBank cl i f).outPort c j = s.outPort c j :=
  s.outPort_updCluster rfl c j
@[simp] theorem State.outPort_updIn (f : InPort → InPort) : (s.updIn cl i f).outPort c j = s.outPort c j :=
  s.outPort_updCluster rfl c j

end

end Sys2Proof.Machine
end

section
/-! PROOFS. Stores (O11): the bytes that the layout unit's check leaves, the plot that they lie in, and what streams keep. -/

namespace Sys2Proof.Machine

/-! ### Units of a tensor (R270, R271) -/

/-- The widths of the formats. -/
theorem width_fmtOf (c : BitVec 4) (x : BitVec 3) : (fmtOf c x).width ∈ [4, 6, 8, 16, 32, 64] := by
  revert c x; decide +kernel

/-- A format is of whole bytes, or packs elements of 4 or 6 bits into a token. -/
theorem Tensor.width_cases (t : Tensor) : (t.elemFmt.whole = true ∧ t.elemFmt.width = 8 * t.unit ∧ t.unit ∈ [1, 2, 4, 8]) ∨
    (t.elemFmt.whole = false ∧ t.unit = 8 ∧ t.elemFmt.perToken * t.elemFmt.width ≤ 64 ∧ t.elemFmt.width ≤ 64) := by
  have h := width_fmtOf t.fmt t.sub
  unfold Tensor.unit Tensor.elemFmt
  generalize fmtOf t.fmt t.sub = f at h ⊢
  simp only [List.mem_cons, List.not_mem_nil, or_false] at h
  obtain h | h | h | h | h | h := h <;> simp [Fmt.whole, Fmt.perToken, h]

theorem Tensor.unit_dvd (t : Tensor) : t.unit ∣ 8 := by
  obtain ⟨-, -, h⟩ | ⟨-, h, -⟩ := t.width_cases
  · simp only [List.mem_cons, List.not_mem_nil, or_false] at h
    obtain h | h | h | h := h <;> rw [h] <;> decide
  · rw [h]

theorem Tensor.unit_pos (t : Tensor) : 0 < t.unit := Nat.pos_of_dvd_of_pos t.unit_dvd (by decide)

/-- The elements of a unit lie in it. -/
theorem Tensor.elemsAt_fit (t : Tensor) (o : Nat) : ∀ x ∈ t.elemsAt o, x.2 + t.elemFmt.width ≤ 8 * t.unit := by
  have one : t.elemFmt.width ≤ 8 * t.unit := by obtain ⟨-, h, -⟩ | ⟨-, h, -, h'⟩ := t.width_cases <;> omega
  have keep (c : Coord) : ∀ x ∈ (if t.inExtents c then [(c, 0)] else []), x.2 + t.elemFmt.width ≤ 8 * t.unit := by
    intro x hx
    split at hx
    · obtain rfl := List.mem_singleton.1 hx; simpa using one
    · exact absurd hx List.not_mem_nil
  unfold Tensor.elemsAt
  dsimp only
  split
  · split
    next => exact keep _
    next packed =>
      obtain ⟨h, -⟩ | ⟨-, unit, fits, -⟩ := t.width_cases
      · exact absurd h packed
      · intro x hx
        obtain ⟨i, hi, hx⟩ := List.mem_filterMap.1 hx
        split at hx
        · cases hx
          have := Nat.mul_le_mul_right t.elemFmt.width (Nat.succ_le_of_lt (List.mem_range.1 hi))
          rw [Nat.succ_mul] at this
          dsimp only; omega
        · cases hx
  · exact keep _
  · exact keep _
  · exact keep _

/-! ### What the check leaves (R271, R272) -/

section
variable {t : Tensor}

/-- Checking the elements of a unit widens what is written, within the unit. -/
theorem checkUnit_within {uo a b : Nat} {l : List (Coord × Nat)} (fits : ∀ x ∈ l, x.2 + t.elemFmt.width ≤ 8 * t.unit) {r x : UnitAcc}
    (h : checkUnit t uo a b l r = some x) (lo : uo ≤ r.lo) (hi : r.hi ≤ uo + t.unit) :
    uo ≤ x.lo ∧ x.lo ≤ r.lo ∧ r.hi ≤ x.hi ∧ x.hi ≤ uo + t.unit := by
  induction l generalizing r with
  | nil => cases h; exact ⟨lo, Nat.le_refl _, Nat.le_refl _, hi⟩
  | cons y l ih =>
    obtain ⟨c, sb⟩ := y
    have fit : sb + t.elemFmt.width ≤ 8 * t.unit := fits (c, sb) List.mem_cons_self
    have rest : ∀ x ∈ l, x.2 + t.elemFmt.width ≤ 8 * t.unit := fun x hx => fits x (List.mem_cons_of_mem _ hx)
    unfold checkUnit at h
    dsimp only at h
    split at h
    · exact ih rest h lo hi
    · split at h
      · exact ih rest h lo hi
      · have flagged := ih rest h lo hi
        exact flagged
      · obtain ⟨h1, h2, h3, h4⟩ := ih rest h (by dsimp only; omega) (by dsimp only; omega)
        dsimp only at h2 h3
        exact ⟨h1, by omega, by omega, h4⟩
      · cases h

theorem length_toBytes (n v : Nat) : (toBytes n v).length = n := by
  induction n generalizing v with
  | zero => rfl
  | succ n ih => rw [toBytes, List.length_cons, ih]

/-- The bytes of a checked write up to the end of a unit: they begin at or before `a`, and reach beyond it. -/
structure WrittenTo (t : Tensor) (a uend : Nat) (c : Checked) : Prop where
  first : a / t.unit * t.unit ≤ c.off
  upto  : c.off ≤ a
  start : a < c.off + c.bytes.length
  stop  : c.off + c.bytes.length ≤ uend

/-- One unit more: the piece that it adds lies in it. -/
theorem checkUnits_cons {a uo : Nat} {bytes : List Byte} {old : Nat → Byte} {l : List Nat} {r c : Checked}
    (h : checkUnits t a bytes old (uo :: l) r = some c) :
    ∃ x : UnitAcc, ∃ r' : Checked, checkUnits t a bytes old l r' = some c ∧ uo ≤ x.lo ∧ x.lo ≤ max a uo ∧
      min (a + bytes.length) (uo + t.unit) ≤ x.hi ∧ x.hi ≤ uo + t.unit ∧
      r'.off = min r.off x.lo ∧ r'.bytes.length = r.bytes.length + (x.hi - x.lo) := by
  unfold checkUnits at h
  dsimp only at h
  split at h
  next => cases h
  next x hx =>
    obtain ⟨h1, h2, h3, h4⟩ := checkUnit_within (t.elemsAt_fit uo) hx (Nat.le_max_right _ _) (Nat.min_le_right _ _)
    refine ⟨x, _, h, h1, h2, h3, h4, rfl, ?_⟩
    rw [List.length_append, List.length_take, List.length_drop, length_toBytes]
    omega

/-- The units that follow the first are added one after the other. -/
theorem checkUnits_within {a k i : Nat} {bytes : List Byte} {old : Nat → Byte} {r c : Checked}
    (h : checkUnits t a bytes old ((List.range' i k).map (· * t.unit)) r = some c) (hi : a / t.unit < i)
    (hk : i + k ≤ (a + bytes.length - 1) / t.unit + 1) (w : WrittenTo t a (i * t.unit) r) :
    WrittenTo t a ((i + k) * t.unit) c := by
  induction k generalizing i r with
  | zero => cases h; exact w
  | succ k ih =>
    have pos := t.unit_pos
    have beyond : a < i * t.unit := by
      exact (Nat.div_lt_iff_lt_mul pos).1 hi
    have before : i * t.unit < a + bytes.length := by
      have := (Nat.le_div_iff_mul_le pos).1 (show i ≤ (a + bytes.length - 1) / t.unit by omega)
      omega
    rw [List.range'_succ, List.map_cons] at h
    obtain ⟨x, r', hc, h1, h2, h3, h4, hoff, hlen⟩ := checkUnits_cons h
    have next : (i + 1) * t.unit = i * t.unit + t.unit := Nat.succ_mul _ _
    have w' : WrittenTo t a ((i + 1) * t.unit) r' := by
      obtain ⟨f, g, s, e⟩ := w
      exact ⟨by omega, by omega, by omega, by omega⟩
    have := ih hc (by omega) (by omega) w'
    rwa [show i + 1 + k = i + (k + 1) by omega] at this

/-- A checked write of some bytes lies in the units that hold them. -/
theorem check_within {a : Nat} {bytes : List Byte} {old : Nat → Byte} {c : Checked} (h : t.check a bytes old = some c)
    (hn : bytes ≠ []) : WrittenTo t a (((a + bytes.length - 1) / t.unit + 1) * t.unit) c := by
  have pos := t.unit_pos
  have len : 0 < bytes.length := List.length_pos_iff.2 hn
  have low := Nat.div_mul_le_self a t.unit
  have high : a + bytes.length ≤ ((a + bytes.length - 1) / t.unit + 1) * t.unit := by
    have := (Nat.div_lt_iff_lt_mul pos).1 (Nat.lt_add_one ((a + bytes.length - 1) / t.unit))
    omega
  unfold Tensor.check at h
  split at h
  · cases h; exact ⟨low, Nat.le_refl _, by dsimp only; omega, high⟩
  · have ordered : a / t.unit ≤ (a + bytes.length - 1) / t.unit := Nat.div_le_div_right (by omega)
    have units : unitsOf t.unit a bytes.length = a / t.unit ::
        List.range' (a / t.unit + 1) ((a + bytes.length - 1) / t.unit - a / t.unit) := by
      rw [unitsOf, if_neg (by omega), List.range_eq_range', List.map_add_range', Nat.add_zero, List.range'_succ]
    have beyond : a < a / t.unit * t.unit + t.unit := Nat.lt_div_mul_add pos
    rw [units, List.map_cons] at h
    obtain ⟨x, r', hc, h1, h2, h3, h4, hoff, hlen⟩ := checkUnits_cons h
    have next : (a / t.unit + 1) * t.unit = a / t.unit * t.unit + t.unit := Nat.succ_mul _ _
    dsimp only [List.length_nil] at hoff hlen
    have := checkUnits_within hc (Nat.lt_succ_self _) (by omega)
      ⟨by omega, by omega, by omega, by omega⟩
    rwa [show a / t.unit + 1 + ((a + bytes.length - 1) / t.unit - a / t.unit) = (a + bytes.length - 1) / t.unit + 1 by omega] at this

end

/-! ### The plot of an access (R172, R316) -/

section
variable {s : State} {t : Take} {ten : Tensor} {off a : Nat} {rd wr am : Bool}

/-- A byte of a plot of this package stands at its offset in a frame of 65,536 bytes. -/
theorem frame_of_place {fn : Nat} {e : Word} (h : ten.place fn e off = .key a) : ∃ j, a = 65536 * j + off % 65536 := by
  unfold Tensor.place at h
  dsimp only at h
  generalize bits e 39 0 = fr at h
  split at h
  · have vault := Loc.key.inj h
    unfold vaultKey at vault
    exact ⟨fr / 2 ^ 9 % 256 * 2 ^ 9 + fr % 2 ^ 9, by omega⟩
  · have hbm := Loc.key.inj h
    unfold hbmKey at hbm
    exact ⟨2 ^ 17 + fr / 2 ^ 20 % 8 * 2 ^ 20 + fr % 2 ^ 20, by omega⟩
  · have host := Loc.key.inj h
    unfold hostKey at host
    exact ⟨2 ^ 48 * (64 + fn) + (bits ten.rloc 63 56 * 2 ^ 40 + fr) % 2 ^ 48, by omega⟩
  · cases h

theorem frame_of_translate (h : s.translate t ten off rd wr am = .ok (.key a)) : ∃ j, a = 65536 * j + off % 65536 := by
  unfold State.translate at h
  dsimp only at h
  split_ifs at h
  exact frame_of_place (Trans.ok.inj h)

theorem form_aligned {m : MemOp} {lit : Int} {n tid : Nat} {c : Coord} (h : s.form t m lit n = .ok tid c off) : off % n = 0 := by
  by_cases hx : ∃ x, s.handle m.h = .tensor x
  · obtain ⟨x, hx⟩ := hx
    cases ho : outsideExtent s t m lit x with
    | some i => rw [form_outside hx ho] at h; cases h
    | none =>
      rw [form_inside hx ho] at h
      dsimp only at h
      split at h
      · cases h; assumption
      · cases h
  · rw [form_notTensor fun x hx' => hx ⟨x, hx'⟩] at h; cases h

theorem roundUp_le {u m x : Nat} (hd : u ∣ m) (h : x < m) : (x / u + 1) * u ≤ m := by
  obtain ⟨k, rfl⟩ := hd
  rw [Nat.mul_comm u k]
  exact Nat.mul_le_mul_right u (Nat.div_lt_of_lt_mul h)

theorem le_roundDown {u m x : Nat} (hd : u ∣ m) (h : m ≤ x) : m ≤ x / u * u := by
  obtain ⟨k, rfl⟩ := hd
  rcases Nat.eq_zero_or_pos u with rfl | pos
  · simp
  · rw [Nat.mul_comm u k]
    exact Nat.mul_le_mul_right u ((Nat.le_div_iff_mul_le pos).2 (Nat.mul_comm u k ▸ h))

/-- What a checked write of `n` bytes writes lies in the frame of its place. -/
theorem checked_in_frame {n : Nat} {bytes : List Byte} {old : Nat → Byte} {c : Checked} (hc : ten.check off bytes old = some c)
    (hn : bytes.length = n) (pos : 0 < n) (dvd : n ∣ 65536) (aligned : off % n = 0)
    (h : s.translate t ten off rd wr am = .ok (.key a)) :
    (a + c.off - off + c.bytes.length - 1) / 2 ^ 25 = (a + c.off - off) / 2 ^ 25 := by
  obtain ⟨j, rfl⟩ := frame_of_translate h
  have w := check_within hc (List.ne_nil_of_length_pos (hn ▸ pos))
  rw [hn] at w
  obtain ⟨first, upto, start, stop⟩ := w
  have unit : ten.unit ∣ 65536 := ten.unit_dvd.trans (by decide)
  have low := le_roundDown (unit.mul_right (off / 65536)) (show 65536 * (off / 65536) ≤ off by omega)
  have bytesEnd := roundUp_le (dvd.mul_right (off / 65536 + 1)) (show off < 65536 * (off / 65536 + 1) by omega)
  have whole := Nat.div_mul_cancel (Nat.dvd_of_mod_eq_zero aligned)
  rw [Nat.succ_mul, whole] at bytesEnd
  have high := roundUp_le (unit.mul_right (off / 65536 + 1)) (show off + n - 1 < 65536 * (off / 65536 + 1) by omega)
  omega

end

/-! ### What streams keep (R275, R278) -/

section
variable (s : State) (cl off : Nat) (bytes : List Byte)

/-- Input ports `l` keep bytes of a tensor as they are before a store. -/
def State.keepOn (l : List Nat) : State := l.foldl (fun s p => s.updIn cl p fun x => x.keep off bytes) s

theorem keepOld_eq (take tid : Nat) : s.keepOld cl take tid off bytes = s.keepOn cl off bytes (s.streamPorts cl take tid) := rfl

theorem keepOn_cons (p : Nat) (l : List Nat) :
    s.keepOn cl off bytes (p :: l) = (s.updIn cl p fun x => x.keep off bytes).keepOn cl off bytes l := rfl

theorem keepOn_rest (l : List Nat) : { s.keepOn cl off bytes l with clusters := s.clusters } = s := by
  induction l generalizing s with
  | nil => rfl
  | cons p l ih =>
    have h := ih (s.updIn cl p fun x => x.keep off bytes)
    exact congrArg (fun u : State => { u with clusters := s.clusters }) h

theorem ctx_keepOn (l : List Nat) (c k : Nat) : (s.keepOn cl off bytes l).ctx c k = s.ctx c k := by
  induction l generalizing s with
  | nil => rfl
  | cons p l ih => rw [keepOn_cons, ih, State.ctx_updIn]

/-- A port has kept the bytes: each stands among those that it kept before, or has been added. -/
def Kept (was now : InPort) : Prop :=
  ∀ i (h : i < bytes.length), (∃ o, (off + i, o) ∈ was.old) ∨ (off + i, bytes[i]) ∈ now.old

theorem InPort.keep_kept (x : InPort) : Kept off bytes x (x.keep off bytes) := by
  intro i hi
  by_cases h : ∃ o, (off + i, o) ∈ x.old
  · exact .inl h
  · refine .inr (List.mem_append_right _ (List.mem_filter.2 ⟨List.mem_map.2 ⟨(bytes[i], i), ?_, rfl⟩, ?_⟩))
    · exact List.mem_zipIdx_iff_getElem?.2 (List.getElem?_eq_getElem hi)
    · rw [Bool.not_eq_true', List.any_eq_false]
      intro c hc
      rw [beq_iff_eq]
      exact fun e => h ⟨c.2, by rw [← show c.1 = off + i from e]; exact hc⟩

/-- A port that has been told to keep the bytes any number of times, from `was` on. -/
structure Keeping (was now : InPort) : Prop where
  rest : now = { was with old := now.old }
  mono : ∀ z ∈ was.old, z ∈ now.old
  kept : now.old = was.old ∨ Kept off bytes was now

variable {off bytes} in
theorem Keeping.keep {was now : InPort} (h : Keeping off bytes was now) :
    Keeping off bytes was (now.keep off bytes) ∧ Kept off bytes was (now.keep off bytes) := by
  have grows : ∀ z ∈ now.old, z ∈ (now.keep off bytes).old := fun z hz => List.mem_append_left _ hz
  have kept : Kept off bytes was (now.keep off bytes) := by
    intro i hi
    obtain same | kept := h.kept
    · rw [← same]; exact now.keep_kept off bytes i hi
    · exact (kept i hi).imp_right (grows _)
  refine ⟨⟨?_, fun z hz => grows z (h.mono z hz), .inr kept⟩, kept⟩
  exact congrArg (fun x : InPort => { x with old := (now.keep off bytes).old }) h.rest

/-- Every port is one that keeps the bytes, and those of the list have kept them. -/
theorem keepOn_inPorts (was : Nat → InPort) (l : List Nat) (h : ∀ q, Keeping off bytes (was q) (s.inPort cl q)) (q : Nat) :
    Keeping off bytes (was q) ((s.keepOn cl off bytes l).inPort cl q) ∧
      (q ∈ l ∨ Kept off bytes (was q) (s.inPort cl q) → Kept off bytes (was q) ((s.keepOn cl off bytes l).inPort cl q)) := by
  induction l generalizing s with
  | nil => exact ⟨h q, fun k => k.resolve_left List.not_mem_nil⟩
  | cons p l ih =>
    have step (j : Nat) : (s.updIn cl p fun x => x.keep off bytes).inPort cl j =
        if j = p then (s.inPort cl p).keep off bytes else s.inPort cl j := by rw [State.inPort_updIn]; simp
    rw [keepOn_cons]
    obtain ⟨keeping, kept⟩ := ih (s.updIn cl p fun x => x.keep off bytes) fun j => by
      rw [step]; split
      next e => subst e; exact (h j).keep.1
      next => exact h j
    refine ⟨keeping, fun k => kept ?_⟩
    rw [step]
    split
    next e => subst e; exact .inr (h q).keep.2
    next e => exact k.imp_left fun hq => (List.mem_cons.1 hq).resolve_left e

end

/-! ### ST (R173) -/

section
variable {s : State}

theorem myTake_id {t : Take} (h : s.myTake = some t) : t.id = s.me.take := by
  have := List.find?_some h
  exact beq_iff_eq.1 this

/-- The ports that stream a tensor are the same after a write of memory. -/
theorem streamPorts_write (a : Nat) (l : List Byte) (cl take tid : Nat) :
    (s.write a l).streamPorts cl take tid = s.streamPorts cl take tid := by
  unfold State.streamPorts State.consIssued State.consStarted State.region
  rw [State.cluster_write]

/-- Counting bound events changes the takes and nothing else, by the takes alone. -/
theorem boundEvents_rest (id tid : Nat) (l : List Coord) (s : State) :
    s.boundEvents id tid l = { s with takes := (s.boundEvents id tid l).takes } := by
  induction l generalizing s with
  | nil => rfl
  | cons c l ih => exact ih (s.boundEvent id tid c)

theorem boundEvents_takes {s t : State} (h : s.takes = t.takes) (id tid : Nat) (l : List Coord) :
    (s.boundEvents id tid l).takes = (t.boundEvents id tid l).takes := by
  induction l generalizing s t with
  | nil => exact h
  | cons c l ih => exact ih (by simp only [State.boundEvent, State.updTake, h])

variable {t : Take} {n tid off : Nat} {v : Word} {sz : Size}

theorem storeAt_local {a : Nat} (h : s.access t (t.tensor tid) off false true false = .at (.key a)) :
    s.storeAt t n v sz tid off = s.storeWrite t n v sz tid off (.key a) fun o => s.byte (a + o - off) := by
  simp [State.storeAt, h]

theorem storeWrite_traps {l : Loc} {old : Nat → Byte} (h : (t.tensor tid).check off (toBytes (sizeBytes sz) v.toNat) old = none) :
    s.storeWrite t n v sz tid off l old = s.trap codeBoundTrap (.ofNat 64 (v.toNat % 2 ^ (8 * sizeBytes sz))) := by
  simp [State.storeWrite, h]

/-- A store in this package: written, kept for the streams, its bound events counted. -/
theorem storeWrite_local {a : Nat} {old : Nat → Byte} {c : Checked} (ht : s.myTake = some t)
    (hc : (t.tensor tid).check off (toBytes (sizeBytes sz) v.toNat) old = some c)
    (good : s.writeBad (a + c.off - off) c.bytes.length = false) : s.storeWrite t n v sz tid off (.key a) old =
      ((((s.write (a + c.off - off) c.bytes).keepOn s.curCl c.off (s.peek (a + c.off - off) c.bytes.length)
        (s.streamPorts s.curCl t.id tid)).boundEvents t.id tid c.events).goOn n) := by
  simp [State.storeWrite, hc, State.postWrite, State.tryWrite, good, keepOld_eq, ← myTake_id ht, streamPorts_write]

/-- What a store leaves in memory, in the context and in the ports that stream its tensor. -/
theorem stored_state (b : Nat) (l : List Byte) (coff : Nat) (ports : List Nat) (id tid' : Nat) (ev : List Coord) :
    let x := (((s.write b l).keepOn s.curCl coff (s.peek b l.length) ports).boundEvents id tid' ev).goOn n
    (∀ i (h : i < l.length), x.byte (b + i) = l[i]) ∧ (∀ j, j < b ∨ b + l.length ≤ j → x.byte j = s.byte j) ∧
    (∀ r, x.reg r = s.reg r) ∧ x.me.pc = s.me.pc + BitVec.ofNat 16 (4 * n) ∧ x.me.fstat = s.me.fstat ∧
    (∀ q, x.inPort s.curCl q = { s.inPort s.curCl q with old := (x.inPort s.curCl q).old }) ∧
    ∀ q ∈ ports, ∀ i < l.length,
      (∃ o, (coff + i, o) ∈ (s.inPort s.curCl q).old) ∨ (coff + i, s.byte (b + i)) ∈ (x.inPort s.curCl q).old := by
  intro x
  let w := s.write b l
  let k := w.keepOn s.curCl coff (s.peek b l.length) ports
  have counted : k.boundEvents id tid' ev = { k with takes := (k.boundEvents id tid' ev).takes } := boundEvents_rest id tid' ev k
  have kRest : { k with clusters := w.clusters } = w := keepOn_rest w s.curCl coff (s.peek b l.length) ports
  have curCl : k.curCl = s.curCl :=
    (congrArg State.curCl kRest).trans (sameContexts_write s b l).curCl
  have curK : k.curK = s.curK := (congrArg State.curK kRest).trans (sameContexts_write s b l).curK
  have byte (j : Nat) : x.byte j = w.byte j := by
    have mem : (k.boundEvents id tid' ev).mem = w.mem := by
      have same := congrArg State.mem kRest
      rw [counted]; exact same
    exact congrArg (tget 0 · j) mem
  have me : x.me = (s.me.fireMon b l.length).advance n := by
    have before : (k.boundEvents id tid' ev).me = k.me := by rw [counted]; rfl
    rw [State.me_goOn, before, State.me, curCl, curK, ctx_keepOn, State.ctx_write]; rfl
  have inputs (q : Nat) : x.inPort s.curCl q = k.inPort s.curCl q := by
    have before : (k.boundEvents id tid' ev).inPort s.curCl q = k.inPort s.curCl q := by rw [counted]; rfl
    rw [← before]; exact State.inPort_updCtx _ _
  have written (q : Nat) : w.inPort s.curCl q = s.inPort s.curCl q := by
    rw [State.inPort, State.cluster_write]; rfl
  have keeps (q : Nat) := keepOn_inPorts w s.curCl coff (s.peek b l.length) (s.inPort s.curCl) ports
    (fun q => by rw [written]; exact ⟨rfl, fun _ h => h, .inl rfl⟩) q
  refine ⟨fun i h => ?_, fun j h => ?_, fun r => ?_, ?_, ?_, fun q => ?_, fun q hq i h => ?_⟩
  · rw [byte, State.write_byte, State.byte_poke_in]
  · rw [byte, State.write_byte]
    exact h.elim (fun h => State.byte_poke_before s h l) fun h => State.byte_poke_after s h
  · rw [State.reg, me]; rfl
  · rw [me]; rfl
  · rw [me]; rfl
  · rw [inputs]; exact (keeps q).1.rest
  · have len : i < (s.peek b l.length).length := by rw [State.length_peek]; exact h
    have held : (s.peek b l.length)[i] = s.byte (b + i) := by
      have := s.peek_getElem b l.length i h
      rw [List.getElem?_eq_getElem len] at this
      exact Option.some.inj this
    rw [inputs, ← held]
    exact (keeps q).2 (.inl hq) i len

theorem length_storeBytes (v : Word) (sz : Size) : (toBytes (sizeBytes sz) v.toNat).length = sizeBytes sz := length_toBytes _ _

theorem sizeBytes_pos (sz : Size) : 0 < sizeBytes sz := by cases sz <;> decide
theorem sizeBytes_dvd (sz : Size) : sizeBytes sz ∣ 65536 := by cases sz <;> decide

/-- A ST in this package whose address is formed, where nothing is to come before it. -/
theorem storeAt_local_goes {i : Instr} {a : Nat} (hi : exec i s = .next (s.storeAt t n v sz tid off)) (ht : s.myTake = some t)
    (aligned : off % sizeBytes sz = 0) (so : s.soWaits t (t.tensor tid) = false)
    (ha : s.translate t (t.tensor tid) off false true false = .ok (.key a)) :
    let bytes := toBytes (sizeBytes sz) v.toNat; let ten := t.tensor tid
    let chk := ten.check off bytes fun o => s.byte (a + o - off)
    (ten.act = 0 → chk = some ⟨off, bytes, []⟩) ∧
    (∀ ck, chk = some ck → s.writeBad (a + ck.off - off) ck.bytes.length = false → let b := a + ck.off - off
      (s.streamPorts s.curCl t.id tid = [] → ∃ y, Stores s y b ck.bytes ∧ Goes (exec i s) fun x =>
        ∃ z, z = { y with fresh := z.fresh, takes := (s.boundEvents t.id tid ck.events).takes } ∧ MovesOn z x n) ∧
      Goes (exec i s) fun x =>
        (∀ i (h : i < ck.bytes.length), x.byte (b + i) = ck.bytes[i]) ∧
        (∀ j, j < b ∨ b + ck.bytes.length ≤ j → x.byte j = s.byte j) ∧
        (∀ r, x.reg r = s.reg r) ∧ x.me.pc = s.me.pc + BitVec.ofNat 16 (4 * n) ∧ x.me.fstat = s.me.fstat ∧
        (∀ q, x.inPort s.curCl q = { s.inPort s.curCl q with old := (x.inPort s.curCl q).old }) ∧
        ∀ q ∈ s.streamPorts s.curCl t.id tid, ∀ i < ck.bytes.length,
          (∃ o, (ck.off + i, o) ∈ (s.inPort s.curCl q).old) ∨ (ck.off + i, s.byte (b + i)) ∈ (x.inPort s.curCl q).old) ∧
    (chk = none → CanTrap s 8 → Goes (exec i s) fun x =>
      TakesTrap s x 8 (.ofNat 64 (v.toNat % 2 ^ (8 * sizeBytes sz))) 0 s.me.pc) := by
  intro bytes ten chk
  rw [hi, storeAt_local (access_at ha so)]
  refine ⟨fun act => if_pos act, fun ck hck good => ?_, fun none trap => ?_⟩
  · dsimp only
    rw [storeWrite_local ht hck good]
    refine ⟨fun quiet => ?_, Goes.next (stored_state _ _ _ _ _ _ _)⟩
    have inFrame := checked_in_frame hck (length_storeBytes v sz) (sizeBytes_pos sz) (sizeBytes_dvd sz) aligned ha
    have same : (s.write (a + ck.off - off) ck.bytes).takes = s.takes := s.write_takes _ _
    have counted := boundEvents_rest t.id tid ck.events (s.write (a + ck.off - off) ck.bytes)
    rw [boundEvents_takes same] at counted
    have fresh (y z : State) (l : List Take) (h : z = { y with takes := l }) : z = { y with fresh := z.fresh, takes := l } := by
      subst h; rfl
    rw [quiet]
    exact ⟨s.write (a + ck.off - off) ck.bytes, stores_write s _ _ fun _ => inFrame,
      Goes.next ⟨_, fresh _ _ _ counted, movesOn_goOn _ n⟩⟩
  · rw [storeWrite_traps none]; exact Goes.next (takesTrap_takeTrap s trap _ 0 _)

/-! ### A ST to a peer's plot (R173, R271) -/

/-- A ST that covers units in part is not one of whole units. -/
theorem around_ne {ten : Tensor} {k : Nat} (pos : 0 < k) (h : off % ten.unit ≠ 0 ∨ k % ten.unit ≠ 0) :
    ten.around off k ≠ (off, k) := by
  intro e
  have first : off / ten.unit * ten.unit = off := (Prod.ext_iff.1 e).1
  have len : (off + k + ten.unit - 1) / ten.unit * ten.unit - off / ten.unit * ten.unit = k := (Prod.ext_iff.1 e).2
  have unit := ten.unit_pos
  have dvd : ten.unit ∣ off := ⟨_, by rw [Nat.mul_comm]; exact first.symm⟩
  have stop : ten.unit ∣ off + k := by
    rw [first] at len
    exact ⟨(off + k + ten.unit - 1) / ten.unit, by rw [Nat.mul_comm]; omega⟩
  exact h.elim (fun h => h (Nat.mod_eq_zero_of_dvd dvd)) fun h => h (Nat.mod_eq_zero_of_dvd ((Nat.dvd_add_right dvd).1 stop))

theorem storeAt_peer_goes {i : Instr} {pkg lease o : Nat} (hi : exec i s = .next (s.storeAt t n v sz tid off))
    (so : s.soWaits t (t.tensor tid) = false)
    (hp : s.translate t (t.tensor tid) off false true false = .ok (.peer pkg lease o)) : let ten := t.tensor tid; let k := sizeBytes sz
    (ten.act = 0 → s.streamPorts s.curCl t.id tid = [] → exec i s = .next (((s.onMe fun c => { c with
      posted := c.posted ++ [⟨pkg, tid, lease, none, ten.kind == 0⟩] }).sendMem pkg (.cueStore s.curCl s.curK tid) lease o
        (.write (toBytes k v.toNat))).onMe fun c => { c with pc := c.pc + BitVec.ofNat 16 (4 * n) })) ∧
    (ten.act ≠ 0 → (off % ten.unit ≠ 0 ∨ k % ten.unit ≠ 0) →
      let r := off / ten.unit * ten.unit; let len := (off + k + ten.unit - 1) / ten.unit * ten.unit - r
      exec i s = .next ((s.onMe fun c => { c with stall := some (.store n v sz (.ofNat 12 tid) off r len) }).sendMem
        pkg (.cueLoad s.curCl s.curK) lease (o + r - off) (.read len))) := by
  intro ten k
  have place : s.access t ten off false true false = .at (.peer pkg lease o) := access_at hp so
  rw [hi]
  refine ⟨fun act quiet => ?_, fun act part => ?_⟩
  · have posts : s.readsFirst t sz tid off = false := by
      have act' : (t.tensor tid).act = 0 := act
      simp [State.readsFirst, act', quiet]
    have unchecked : (t.tensor tid).check off (toBytes (sizeBytes sz) v.toNat) (fun _ => 0) =
        some ⟨off, toBytes (sizeBytes sz) v.toNat, []⟩ := if_pos act
    simp only [State.storeAt, place, posts, State.storeWrite, unchecked, State.postWrite, Bool.false_eq_true, if_false,
      Nat.add_sub_cancel, ten]
    rfl
  · have reads : s.readsFirst t sz tid off = true := by
      have act' : (t.tensor tid).act ≠ 0 := act
      have ne := around_ne (sizeBytes_pos sz) part
      simp [State.readsFirst, act', ne, ten]
    simp only [State.storeAt, place, reads, if_true, ten]
    rfl

end

/-- Settles O11: a ST in this package by its checked write and what the streams keep of it, one to a peer by whether it reads
first. -/
theorem store : Obligations.Store := by
  intro s m v ord sz sc lit t n
  have released (h : ord = .plain ∨ Quiet s ∧ s.myStreams = false) : s.release (ordRel ord) = none := by
    obtain rfl | ⟨quiet, streams⟩ := h
    · rfl
    · exact quiet.release streams _
  simp only [List.forall_mem_cons, List.not_mem_nil, false_imp_iff, implies_true, and_true]
  refine ⟨fun tid c off ht hf h so => ?_, fun tid c off ht hf h so => ?_⟩
  · have formed : exec (.st m v ord sz sc) s = .next (s.storeAt t 2 (s.reg v) sz tid off) :=
      congrArg Host.Outcome.next (store_formed ht hf (released h))
    exact ⟨fun a ha => storeAt_local_goes formed ht (form_aligned hf) so ha, fun pkg lease o hp => storeAt_peer_goes formed so hp⟩
  · have formed : exec (.st96 m v ord sz sc lit) s = .next (s.storeAt t 3 (s.reg v) sz tid off) :=
      congrArg Host.Outcome.next (store_formed ht hf (released h))
    exact ⟨fun a ha => storeAt_local_goes formed ht (form_aligned hf) so ha, fun pkg lease o hp => storeAt_peer_goes formed so hp⟩

end Sys2Proof.Machine
end

section
/-! PROOFS. Atomics (O12): the new value of an operation, its write in this package, and the flags of a FADD. -/

namespace Sys2Proof.Machine

/-! ### The new value (R174) -/

theorem sextN_eq_toInt {w : Nat} (hw : 0 < w) (o : BitVec w) : sextN w o.toNat = o.toInt := by
  have half : 2 ^ w = 2 * 2 ^ (w - 1) := by rw [← Nat.pow_succ', Nat.succ_eq_add_one, Nat.sub_add_cancel hw]
  rw [BitVec.toInt_eq_toNat_cond, sextN, Nat.mod_eq_of_lt o.isLt]
  exact if_congr (by omega) rfl rfl

section
variable {w : Nat} (o : BitVec w) (v x : Word)

theorem toNat_setWidth_word : v.toNat % 2 ^ w = (v.setWidth w).toNat := (BitVec.toNat_setWidth w v).symm

/-- The operations that always write an integer. -/
theorem amoApply_integer (hw : 0 < w) : let y := v.setWidth w
    ∀ p ∈ ([(.add, o + y), (.and, o &&& y), (.or, o ||| y), (.xor, o ^^^ y),
      (.min, if y.slt o then y else o), (.max, if o.slt y then y else o), (.minu, if y.ult o then y else o),
      (.maxu, if o.ult y then y else o), (.swap, y)] : List (AmoOp × BitVec w)),
    amoApply p.1 w o.toNat v.toNat x.toNat = p.2.toNat ∧ amoFadd p.1 = none ∧ p.1 ≠ .cas := by
  intro y
  have operand : v.toNat % 2 ^ w = y.toNat := toNat_setWidth_word v
  have pick (c : Prop) [Decidable c] (b : Bool) (p q : BitVec w) (e : c ↔ b = true) :
      (if c then p.toNat else q.toNat) = (if b = true then p else q).toNat := by
    rw [apply_ite BitVec.toNat]; exact if_congr e rfl rfl
  have signed (a b : BitVec w) : sextN w a.toNat < sextN w b.toNat ↔ a.slt b = true := by
    rw [sextN_eq_toInt hw, sextN_eq_toInt hw, BitVec.slt_iff_toInt_lt]
  have unsigned (a b : BitVec w) : a.toNat < b.toNat ↔ a.ult b = true := by rw [BitVec.ult_iff_toNat_lt]
  simp only [List.forall_mem_cons, List.not_mem_nil, false_imp_iff, implies_true, and_true, amoApply, operand, amoFadd,
    ne_eq, reduceCtorEq, not_false_eq_true]
  exact ⟨(BitVec.toNat_add o y).symm, (BitVec.toNat_and o y).symm, (BitVec.toNat_or o y).symm, (BitVec.toNat_xor o y).symm,
    pick _ _ _ _ (signed y o), pick _ _ _ _ (signed o y), pick _ _ _ _ (unsigned y o), pick _ _ _ _ (unsigned o y)⟩

end

/-- The additions of floats. -/
theorem amoFadd_mem {op : AmoOp} {sz : Size} {f : Fmt}
    (h : (op, sz, f) ∈ ([(.faddF32, .w, f32), (.faddF16, .h, f16), (.faddBf16, .h, bf16), (.faddT16, .h, t16)] :
      List (AmoOp × Size × Fmt))) : amoFadd op = some f ∧ f.width = 8 * sizeBytes sz ∧
      (∀ w o v, amoWrites op w o v = true) ∧ ∀ w o v x, amoApply op w o v x =
        (encodeVal f .rne false (addVal (decodeVal f o) (decodeVal f (v % 2 ^ w)) false)).code := by
  simp only [List.mem_cons, Prod.mk.injEq, List.not_mem_nil, or_false] at h
  obtain ⟨rfl, rfl, rfl⟩ | ⟨rfl, rfl, rfl⟩ | ⟨rfl, rfl, rfl⟩ | ⟨rfl, rfl, rfl⟩ := h
  all_goals exact ⟨rfl, rfl, fun _ _ _ => rfl, fun _ _ _ _ => rfl⟩

/-! ### A read and the write after it (R174, R264) -/

section
variable (s : State)

/-- Noting an error of a vault leaves what a write asks of memory. -/
theorem writeBad_noteErr (ue : Bool) (b k a n : Nat) : (s.noteErr ue b k).writeBad a n = s.writeBad a n := by
  have failed : (s.noteErr ue b k).bankFailed = s.bankFailed := by
    funext cl stripe j
    unfold State.bankFailed
    rw [State.cluster_noteErr]; split <;> rfl
  have err : (s.noteErr ue b k).err = s.err := by
    have h := congrArg State.errs (s.noteErr_rest ue b k)
    funext i
    exact congrArg (tget .none · i) h
  have hid : (s.noteErr ue b k).hid = s.hid := by have h := congrArg State.hid (s.noteErr_rest ue b k); exact h
  unfold State.writeBad State.stripeBad State.rebuilds State.symErr State.erased
  rw [failed, err, hid]

theorem writeBad_noteRead (b k a n : Nat) : (s.noteRead b k).writeBad a n = s.writeBad a n := by
  unfold State.noteRead; split
  · exact writeBad_noteErr s _ _ _ _ _
  · rfl

theorem sameContexts_noteRead (a n : Nat) : SameContexts s (s.noteRead a n) := by
  unfold State.noteRead; split
  · exact sameContexts_noteErr s _ _ _
  · exact .refl s

theorem streamPorts_noteRead (a n cl take tid : Nat) : (s.noteRead a n).streamPorts cl take tid = s.streamPorts cl take tid := by
  have shared (c : Nat) : ((s.noteRead a n).cluster c).inp = (s.cluster c).inp ∧
      ((s.noteRead a n).cluster c).regions = (s.cluster c).regions := by
    unfold State.noteRead; split
    · rw [State.cluster_noteErr]; split <;> exact ⟨rfl, rfl⟩
    · exact ⟨rfl, rfl⟩
  unfold State.streamPorts State.consIssued State.consStarted State.region
  rw [(shared cl).1, (shared cl).2]

/-- A context that keeps its register flags and PC: the contexts of a state after a read and a write. -/
theorem SameContexts.me {s t : State} (h : SameContexts s t) : ∃ m, t.me = { s.me with mon := m } := by
  rw [State.me, h.curCl, h.curK]; exact h.ctx _ _

end

/-! ### An AMO in this package (R174) -/

section
variable {s : State} {t : Take} {n tid off a : Nat} {d : Reg} {v x : Word} {op : AmoOp} {sz : Size}

theorem bits_pos (sz : Size) : 0 < 8 * sizeBytes sz := Nat.mul_pos (by decide) (sizeBytes_pos sz)

/-- The old element of an AMO. -/
theorem toNat_element (s : State) (a : Nat) (sz : Size) :
    (BitVec.ofNat (8 * sizeBytes sz) (ofBytes (s.peek a (sizeBytes sz)))).toNat = ofBytes (s.peek a (sizeBytes sz)) := by
  have short := ofBytes_lt (s.peek a (sizeBytes sz))
  rw [s.length_peek] at short
  rw [BitVec.toNat_ofNat, Nat.mod_eq_of_lt short]

/-- What an AMO whose element can be read and written comes to: it leaves `y` of memory, its flags and its result. -/
theorem amoAt_performs (ha : s.access t (t.tensor tid) off false false true = .at (.key a))
    (good : s.readBad a (sizeBytes sz) = false) (whole : s.writeBad a (sizeBytes sz) = false)
    (quiet : s.streamPorts s.curCl t.id tid = []) :
    let u := s.noteRead a (sizeBytes sz); let o := ofBytes (s.peek a (sizeBytes sz)); let w := 8 * sizeBytes sz
    let y := if amoWrites op w o v.toNat = true then u.write a (toBytes (sizeBytes sz) (amoApply op w o v.toNat x.toNat)) else u
    s.amoAt t n d v x op sz tid off = (y.amoFlags s.curCl s.curK op o v.toNat).result n d (loadWord false sz o) := by
  intro u o w y
  have read : s.read a (sizeBytes sz) s.curCl t.id = (u, some (s.peek a (sizeBytes sz))) := by
    rw [State.read, good]; rfl
  have wrote (l : List Byte) (hl : l.length = sizeBytes sz) : u.tryWrite a l = some (u.write a l) := by
    rw [State.tryWrite, hl, writeBad_noteRead, whole]; rfl
  have performed : s.amoLocal a op sz v x s.curCl t.id = (y, some o) := by
    rw [State.amoLocal, read]
    dsimp only
    by_cases hw : amoWrites op w o v.toNat = true
    · rw [if_pos hw, wrote _ (length_toBytes _ _), show y = _ from if_pos hw]
    · rw [if_neg hw, show y = _ from if_neg hw]
  have ports : y.streamPorts s.curCl t.id tid = [] := by
    rw [← quiet, ← streamPorts_noteRead s a (sizeBytes sz)]
    unfold y; split
    · exact streamPorts_write _ _ _ _ _
    · rfl
  have kept (l : List Byte) : y.keepOld s.curCl t.id tid off l = y := by
    rw [keepOld_eq, ports]; rfl
  rw [State.amoAt, ha]
  dsimp only
  rw [performed]
  exact congrArg (fun z : State => (z.amoFlags s.curCl s.curK op o v.toNat).result n d (loadWord false sz o)) (kept _)

/-- The write of an AMO lies in its frame. -/
theorem stores_amo (u : State) (l : List Byte) (hl : l.length = sizeBytes sz) (aligned : off % sizeBytes sz = 0)
    (ha : s.translate t (t.tensor tid) off false false true = .ok (.key a)) : Stores u (u.write a l) a l := by
  refine stores_write u a l fun _ => ?_
  obtain ⟨j, rfl⟩ := frame_of_translate ha
  have unit : sizeBytes sz ∣ 65536 := sizeBytes_dvd sz
  have pos := sizeBytes_pos sz
  have last := roundUp_le (unit.mul_right (off / 65536 + 1)) (show off < 65536 * (off / 65536 + 1) by omega)
  rw [Nat.succ_mul, Nat.div_mul_cancel (Nat.dvd_of_mod_eq_zero aligned)] at last
  rw [hl]
  omega

/-- A flag that an operation may set. -/
theorem becomes_setFstat (y : State) (cl k i : Nat) (on : Bool) : Becomes y (y.setFstat cl k i on) cl k
    { y.ctx cl k with fstat := ((y.setFstat cl k i on).ctx cl k).fstat } := by
  cases on
  · exact ⟨rfl, .refl y cl k⟩
  · have set := becomes_updCtx y cl k fun c => c.setFstat i
    refine ⟨?_, set.only⟩
    change (y.updCtx cl k _).ctx cl k = _
    rw [State.setFstat, if_pos rfl, set.value]; rfl

theorem getLsbD_setFstat (y : State) (cl k i : Nat) (on : Bool) {j : Nat} (hj : j < 3) :
    ((y.setFstat cl k i on).ctx cl k).fstat.getLsbD j = ((y.ctx cl k).fstat.getLsbD j || (j == i && on)) := by
  cases on
  · rw [Bool.and_false, Bool.or_false]; rfl
  · rw [Bool.and_true, State.setFstat, if_pos rfl, State.ctx_updCtx_same]
    exact getLsbD_setBit_true _ i hj

/-- The flags of a FADD. -/
theorem fstat_amoFlags {y : State} {f : Fmt} {o : Nat} (hf : amoFadd op = some f) :
    let y' := y.amoFlags y.curCl y.curK op o v.toNat; let p := v.toNat % 2 ^ f.width
    Becomes y y' y.curCl y.curK { y.me with fstat := y'.me.fstat } ∧
      ∀ i < 3, y'.me.fstat.getLsbD i = (y.me.fstat.getLsbD i ||
        (i == 1 && f.isIeee && addInvalid (decodeVal f o) (decodeVal f p)) ||
          (i == 2 && (addVal (decodeVal f o) (decodeVal f p) false).isNan)) := by
  intro y' p
  have flags : y' = (y.setFstat y.curCl y.curK 1 (faddFlags f o p).1).setFstat y.curCl y.curK 2 (faddFlags f o p).2 := by
    unfold y' State.amoFlags; rw [hf]
  have both := (becomes_setFstat y y.curCl y.curK 1 (faddFlags f o p).1).trans
    (becomes_setFstat _ y.curCl y.curK 2 (faddFlags f o p).2)
  have cur : y'.me = y'.ctx y.curCl y.curK := by rw [flags]; unfold State.setFstat; split <;> split <;> rfl
  rw [cur]
  rw [← flags, (becomes_setFstat y y.curCl y.curK 1 (faddFlags f o p).1).value] at both
  refine ⟨both, fun i hi => ?_⟩
  rw [flags, getLsbD_setFstat _ _ _ _ _ hi, getLsbD_setFstat _ _ _ _ _ hi, faddFlags, Bool.and_assoc]
  rfl

/-- An AMO whose address is formed, where nothing is to come before it. -/
theorem amoAt_goes {i : Instr} (hi : exec i s = .next (s.amoAt t n d v x op sz tid off)) (aligned : off % sizeBytes sz = 0)
    (so : s.soWaits t (t.tensor tid) = false) (ha : s.translate t (t.tensor tid) off false false true = .ok (.key a))
    (good : s.readBad a (sizeBytes sz) = false) (whole : s.writeBad a (sizeBytes sz) = false)
    (quiet : s.streamPorts s.curCl t.id tid = []) :
    let k := sizeBytes sz; let o := BitVec.ofNat (8 * k) (ofBytes (s.peek a k)); let p := v.setWidth (8 * k); let u := s.noteRead a k
    (∀ new, (op, new) ∈ ([(.add, o + p), (.and, o &&& p), (.or, o ||| p), (.xor, o ^^^ p),
        (.min, if p.slt o then p else o), (.max, if o.slt p then p else o), (.minu, if p.ult o then p else o),
        (.maxu, if o.ult p then p else o), (.swap, p)] : List (AmoOp × BitVec (8 * k))) →
      ∃ y, Stores u y a (toBytes k new.toNat) ∧ Goes (exec i s) fun z => WritesReg y z d (o.signExtend 64) n) ∧
    (op = .cas → o = p → ∃ y, Stores u y a (toBytes k (x.setWidth (8 * k)).toNat) ∧
      Goes (exec i s) fun z => WritesReg y z d (o.signExtend 64) n) ∧
    (op = .cas → o ≠ p → Goes (exec i s) fun z => WritesReg u z d (o.signExtend 64) n) ∧
    (∀ f, (op, sz, f) ∈ ([(.faddF32, .w, f32), (.faddF16, .h, f16), (.faddBf16, .h, bf16), (.faddT16, .h, t16)] :
        List (AmoOp × Size × Fmt)) →
      let sum := addVal (decodeVal f o.toNat) (decodeVal f p.toNat) false
      ∃ y, Stores u y a (toBytes k (encodeVal f .rne false sum).code) ∧ Goes (exec i s) fun z =>
        ∃ y', Becomes y y' s.curCl s.curK { y.me with fstat := y'.me.fstat } ∧
          (∀ i < 3, y'.me.fstat.getLsbD i = (s.me.fstat.getLsbD i ||
            (i == 1 && f.isIeee && addInvalid (decodeVal f o.toNat) (decodeVal f p.toNat)) || (i == 2 && sum.isNan))) ∧
          WritesReg y' z d (o.signExtend 64) n) := by
  intro k o p u
  have hk : (s.peek a k).length = k := s.length_peek a k
  have old : ofBytes (s.peek a k) = o.toNat := (toNat_element s a sz).symm
  have operand : v.toNat % 2 ^ (8 * k) = p.toNat := toNat_setWidth_word v
  have word : loadWord false sz o.toNat = o.signExtend 64 := by rw [← old]; exact loadWord_ofBytes false sz hk
  have performs := amoAt_performs (n := n) (d := d) (v := v) (x := x) (op := op) (access_at ha so) good whole quiet
  dsimp only at performs
  rw [old, word] at performs
  rw [hi, performs]
  have writes (h : amoWrites op (8 * k) o.toNat v.toNat = true) (y : State) : (if amoWrites op (8 * k) o.toNat v.toNat = true then
      u.write a (toBytes k (amoApply op (8 * k) o.toNat v.toNat x.toNat)) else y) = _ := if_pos h
  have plain (h : amoFadd op = none) (y : State) : y.amoFlags s.curCl s.curK op o.toNat v.toNat = y := by
    unfold State.amoFlags; rw [h]
  have stores (c : Nat) : Stores u (u.write a (toBytes k c)) a (toBytes k c) := stores_amo u _ (length_toBytes _ _) aligned ha
  refine ⟨fun new hn => ?integer, fun hc e => ?swapped, fun hc ne => ?kept, fun f hf => ?fadd⟩
  case integer =>
    obtain ⟨value, noFlag, notCas⟩ := amoApply_integer o v x (bits_pos sz) _ hn
    have always : amoWrites op (8 * k) o.toNat v.toNat = true := by unfold amoWrites; split; exacts [absurd rfl notCas, rfl]
    rw [writes always, plain noFlag, show amoApply op (8 * k) o.toNat v.toNat x.toNat = new.toNat from value]
    exact ⟨_, stores _, Goes.next (writesReg_result _ n d _)⟩
  case swapped =>
    subst hc
    have equal : amoWrites .cas (8 * k) o.toNat v.toNat = true := by
      rw [amoWrites, operand, e]; exact beq_self_eq_true _
    have value : amoApply .cas (8 * k) o.toNat v.toNat x.toNat = (x.setWidth (8 * k)).toNat := by
      rw [amoApply, operand, e, if_pos rfl]; exact toNat_setWidth_word x
    rw [writes equal, plain rfl, value]
    exact ⟨_, stores _, Goes.next (writesReg_result _ n d _)⟩
  case kept =>
    subst hc
    have differs : ¬ amoWrites .cas (8 * k) o.toNat v.toNat = true := by
      rw [amoWrites, operand, beq_iff_eq]; exact fun e => ne (BitVec.eq_of_toNat_eq e)
    rw [if_neg differs, plain rfl]
    exact Goes.next (writesReg_result _ n d _)
  case fadd =>
    obtain ⟨adds, width, always, value⟩ := amoFadd_mem hf
    rw [writes (always _ _ _), value, operand]
    refine ⟨_, stores _, ?_⟩
    set y := u.write a _
    have same : SameContexts s y := (sameContexts_noteRead s a k).trans (sameContexts_write u a _)
    obtain ⟨mon, me⟩ := same.me
    obtain ⟨becomes, bits⟩ := fstat_amoFlags (y := y) (v := v) (o := o.toNat) adds
    rw [same.curCl, same.curK] at becomes bits
    rw [width, operand, me] at bits
    exact Goes.next ⟨_, becomes, bits, writesReg_result _ n d _⟩

end

/-- R175: an operation that no host plot performs traps before its place is looked up. -/
theorem amo_unsupported {s : State} {t : Take} {i : Instr} {m : MemOp} {n tid off : Nat} {d v x : Reg} {rel : Bool} {op : AmoOp}
    {sz : Size} {lit : Int} {c : Coord} (hi : exec i s = .next (s.amo n d m v x rel sz op lit)) (ht : s.myTake = some t)
    (hf : s.form t m lit (sizeBytes sz) = .ok tid c off) (res : (t.tensor tid).res = 2) (hh : amoHostOk op sz = false)
    (trap : CanTrap s 10) : Goes (exec i s) fun z => TakesTrap s z 10 (.ofNat 64 tid) 0 s.me.pc := by
  have traps : s.amo n d m v x rel sz op lit = s.trap codeAmoUnsupported (at_ tid 0) := by
    simp [State.amo, ht, hf, res, hh]
  rw [hi, traps, at_zero]
  exact Goes.next (takesTrap_takeTrap s trap _ 0 _)

/-- Settles O12: an AMO in this package by the value that it writes, one on a host plot by the operation. -/
theorem atomics : Obligations.Atomics := by
  intro s d v w m ord sz op sc lit t n
  have released (h : ord = .plain ∨ ord = .acq ∨ Quiet s ∧ s.myStreams = false) : s.release (ordRel ord) = none := by
    obtain rfl | rfl | ⟨quiet, streams⟩ := h
    · rfl
    · rfl
    · exact quiet.release streams _
  have hosted : amoHostOk op sz = true ↔ op ∈ [AmoOp.add, .swap, .cas] ∧ sz ∈ [Size.w, .d] := by
    simp [amoHostOk, or_assoc]
  simp only [List.forall_mem_cons, List.not_mem_nil, false_imp_iff, implies_true, and_true]
  refine ⟨fun tid c off ht hf => ⟨fun a host h ha good whole so quiet => ?_, fun res not trap => ?_⟩,
    fun tid c off ht hf => ⟨fun a host h ha good whole so quiet => ?_, fun res not trap => ?_⟩⟩
  · exact amoAt_goes (congrArg Host.Outcome.next (amo_formed ht hf (released h) fun r => hosted.2 (host r))) (form_aligned hf) so
      ha good whole quiet
  · exact amo_unsupported rfl ht hf res (Bool.eq_false_iff.2 fun h => not (hosted.1 h)) trap
  · exact amoAt_goes (congrArg Host.Outcome.next (amo_formed ht hf (released h) fun r => hosted.2 (host r))) (form_aligned hf) so
      ha good whole quiet
  · exact amo_unsupported rfl ht hf res (Bool.eq_false_iff.2 fun h => not (hosted.1 h)) trap

end Sys2Proof.Machine
end

section
/-! PROOFS. Changes of one cluster's fabric: how they compose, and the update of one port, of one context, of all contexts. -/

namespace Sys2Proof.Machine

section
variable (s : State)

/-- All contexts of a cluster, each mapped. -/
theorem State.ctx_mapCtx (cl : Nat) (f : Nat → CueCtx → CueCtx) (hd : ∀ k, f k {} = {}) (c j : Nat) :
    (s.updCluster cl fun x => { x with ctx := tmap {} f x.ctx }).ctx c j = if c = cl then f j (s.ctx cl j) else s.ctx c j := by
  rw [State.ctx, State.cluster_updCluster]
  split
  · exact tget_tmap {} f hd _ j
  · rfl

/-! ### Only the fabric differs -/

variable {s}

theorem OnlyFabric.refl (cl : Nat) : OnlyFabric s s cl := ⟨.refl s cl, rfl⟩

theorem OnlyFabric.trans {t u : State} {cl : Nat} (h : OnlyFabric s t cl) (g : OnlyFabric t u cl) : OnlyFabric s u cl where
  outside := h.outside.trans g.outside
  shared := by
    have h := h.shared; have g := g.shared
    rw [← g] at h; exact h

/-- An update of a cluster that keeps what is not of its fabric. -/
theorem onlyFabric_updCluster (s : State) (cl : Nat) {f : Cluster → Cluster}
    (h : ∀ c, { f c with ctx := c.ctx, regions := c.regions, banks := c.banks, inp := c.inp, outp := c.outp } = c) :
    OnlyFabric s (s.updCluster cl f) cl where
  outside := onlyCluster_updCluster s cl f
  shared := by rw [State.cluster_updCluster_same]; exact h _

theorem OnlyCtx.fabric {t : State} {cl k : Nat} (h : OnlyCtx s t cl k) : OnlyFabric s t cl where
  outside := h.outside
  shared := by
    have ctx (a b : Cluster) (h : { a with ctx := b.ctx } = b) :
        { a with ctx := b.ctx, regions := b.regions, banks := b.banks, inp := b.inp, outp := b.outp } = b := by rw [← h]
    exact ctx _ _ h.shared

/-! ### Only one port and the contexts differ -/

section
variable {t u : State} {cl p : Nat} {out : Bool}

theorem OnlyPort.trans {f g : Nat → CueCtx → CueCtx} (h : OnlyPort s t cl out p f) (k : OnlyPort t u cl out p g) :
    OnlyPort s u cl out p fun j c => g j (f j c) where
  fabric := h.fabric.trans k.fabric
  regions r := (k.regions r).trans (h.regions r)
  banks n := (k.banks n).trans (h.banks n)
  inputs q hq := (k.inputs q hq).trans (h.inputs q hq)
  outputs q hq := (k.outputs q hq).trans (h.outputs q hq)
  contexts j := by rw [k.contexts, h.contexts]

theorem onlyPort_updIn (s : State) (cl p : Nat) (g : InPort → InPort) : OnlyPort s (s.updIn cl p g) cl false p fun _ c => c where
  fabric := onlyFabric_updCluster s cl fun _ => rfl
  regions r := s.region_updIn g
  banks n := s.bank_updIn g
  inputs q hq := by rw [State.inPort_updIn, if_neg]; simpa using hq
  outputs q hq := s.outPort_updIn g
  contexts j := s.ctx_updIn g

theorem onlyPort_updOut (s : State) (cl p : Nat) (g : OutPort → OutPort) : OnlyPort s (s.updOut cl p g) cl true p fun _ c => c where
  fabric := onlyFabric_updCluster s cl fun _ => rfl
  regions r := s.region_updOut g
  banks n := s.bank_updOut g
  inputs q hq := s.inPort_updOut g
  outputs q hq := by rw [State.outPort_updOut, if_neg]; simpa using hq
  contexts j := s.ctx_updOut g

theorem onlyPort_updCtx (s : State) (cl k : Nat) (out : Bool) (p : Nat) (f : CueCtx → CueCtx) :
    OnlyPort s (s.updCtx cl k f) cl out p fun j c => if j = k then f c else c where
  fabric := (becomes_updCtx s cl k f).only.fabric
  regions r := s.region_updCtx f
  banks n := s.bank_updCtx f
  inputs q hq := s.inPort_updCtx f
  outputs q hq := s.outPort_updCtx f
  contexts j := by
    rw [State.ctx_updCtx]
    by_cases h : j = k
    · rw [if_pos ⟨rfl, h⟩, if_pos h, h]
    · rw [if_neg fun e => h e.2, if_neg h]

theorem onlyPort_onMe (s : State) (out : Bool) (p : Nat) (f : CueCtx → CueCtx) :
    OnlyPort s (s.onMe f) s.curCl out p fun j c => if j = s.curK then f c else c := onlyPort_updCtx s _ _ out p f

theorem onlyPort_cmdDone (s : State) (cl : Nat) (out : Bool) (p : Nat) :
    OnlyPort s (s.cmdDone cl out p) cl out p fun _ c => lessWait out p c where
  fabric := onlyFabric_updCluster s cl fun _ => rfl
  regions r := s.region_updCluster rfl cl r
  banks n := s.bank_updCluster rfl cl n
  inputs q hq := s.inPort_updCluster rfl cl q
  outputs q hq := s.outPort_updCluster rfl cl q
  contexts j := by
    refine (s.ctx_mapCtx cl _ (fun _ => rfl) cl j).trans ((if_pos rfl).trans ?_)
    generalize s.ctx cl j = c
    have keep (w : Option Wait) (hw : c.wait = w) : c = { c with wait := w } := congrArg (fun w => { c with wait := w }) hw
    unfold lessWait
    rcases hw : c.wait with _ | w
    · exact keep _ hw
    · cases w
      case portWait o q n =>
        simp only [Bool.and_eq_true, decide_eq_true_eq, Option.map_some]
        split
        · rfl
        · exact keep _ hw
      all_goals exact keep _ hw

theorem OnlyPort.in_eq {f : Nat → CueCtx → CueCtx} (h : OnlyPort s t cl true p f) (q : Nat) : t.inPort cl q = s.inPort cl q :=
  h.inputs q (.inl rfl)
theorem OnlyPort.out_eq {f : Nat → CueCtx → CueCtx} (h : OnlyPort s t cl false p f) (q : Nat) : t.outPort cl q = s.outPort cl q :=
  h.outputs q (.inl rfl)

end

end

end Sys2Proof.Machine
end

section
/-! PROOFS. BIND and the waits of ports (O13, O15): a binding queued, one that takes effect at once, and the traps in their order. -/

namespace Sys2Proof.Machine

/-! ### Queued commands (R32, R181) -/

section
variable {s : State} {cl p : Nat}

theorem enqueue_in_behind {x : PortCmd} (h : (s.inPort cl p).cmds ≠ []) :
    s.enqueue cl false p x = s.updIn cl p fun q => { q with cmds := q.cmds ++ [x] } := by
  simp [State.enqueue, h]
theorem enqueue_out_behind {x : PortCmd} (h : (s.outPort cl p).cmds ≠ []) :
    s.enqueue cl true p x = s.updOut cl p fun q => { q with cmds := q.cmds ++ [x] } := by
  simp [State.enqueue, h]

/-- The consumers of a port do not depend on ports and contexts. -/
theorem consumersOf_congr {u : State} (hr : ∀ r, u.region cl r = s.region cl r) (hb : ∀ n, u.bank cl n = s.bank cl n) (t : Take) (lp : Nat) :
    u.consumersOf cl t lp = s.consumersOf cl t lp := by
  unfold State.consumersOf State.regionsOf State.readsPort
  simp only [hr, hb]

theorem enqueue_in_bind {b : Binding} {t : Take} (h : (s.inPort cl p).cmds = []) (ht : s.take? b.take = some t) :
    s.enqueue cl false p (.bind b) = ((s.updIn cl p fun q => { q with cmds := q.cmds ++ [.bind b] }).updIn cl p fun x => { x.cleared with
      cmds := [], bound := some b
      cons := (s.consumersOf cl t (t.logical cl false p)).map fun rid => ⟨rid, 0, 0, false⟩ }).cmdDone cl false p := by
  have queue : ((s.updIn cl p fun q => { q with cmds := q.cmds ++ [.bind b] }).inPort cl p).cmds = [.bind b] := by
    rw [State.inPort_updIn, if_pos ⟨rfl, rfl⟩, h]; rfl
  have take : (s.updIn cl p fun q => { q with cmds := q.cmds ++ [.bind b] }).take? b.take = some t := ht
  simp only [State.enqueue, h, State.inCmd, queue, take, List.isEmpty_nil, if_true, Bool.false_eq_true, if_false]
  rw [consumersOf_congr (fun r => s.region_updIn _) fun n => s.bank_updIn _]

theorem enqueue_out_bind {b : Binding} (h : (s.outPort cl p).cmds = []) :
    s.enqueue cl true p (.bind b) = ((s.updOut cl p fun q => { q with cmds := q.cmds ++ [.bind b] }).updOut cl p fun x => { x.cleared with
      cmds := [], bound := some b }).cmdDone cl true p := by
  have queue : ((s.updOut cl p fun q => { q with cmds := q.cmds ++ [.bind b] }).outPort cl p).cmds = [.bind b] := by
    rw [State.outPort_updOut, if_pos ⟨rfl, rfl⟩, h]; rfl
  simp only [State.enqueue, h, State.outCmd, queue, List.isEmpty_nil, if_true]

end

/-! ### BIND (R181) -/

section
variable {s : State} {a b : Reg} {pat : BitVec 6} {hd hs : HReg} {node : Node} {out : Bool} {port : BitVec 4} {t : Take}
  {tid : BitVec 12}

/-- Is the port bound after every command queued on it? -/
def State.willBound (s : State) (cl : Nat) (out : Bool) (p : Nat) : Bool :=
  if out then willBind (s.outPort cl p).bound.isSome (s.outPort cl p).cmds
  else willBind (s.inPort cl p).bound.isSome (s.inPort cl p).cmds

/-- BIND of a window pattern that is its own: the port is busy, or the binding is queued. -/
theorem exec_bind {w : Pattern} {p : Nat} (ht : s.myTake = some t) (src : s.handle hs = .tensor tid) (dst : s.handle hd = .empty)
    (hw : t.slate.pats[pat.toNat]? = some w) (hp : t.physical s.curCl out port = some p) (own : w.port = port) (dir : w.dir = out)
    (tensor : w.tid = tid) (kind : w.node = nodeCode node) : exec (.bind a b pat hd hs node out port) s =
      .next (if s.willBound s.curCl out p = true then s.trap codePortBusy (flag out 4 ||| at_ port.toNat 0)
      else ((s.onMe fun c => c.setHandle hd (.stream out node port tid)).enqueue s.curCl out p
        (.bind ⟨t.id, s.curK, node, tid, w, pat.toNat, (s.reg a).setWidth 32, (s.reg b).setWidth 32⟩)).goOn 2) := by
  change execBind a b pat hd hs node out port s = _
  rw [apply_ite Host.Outcome.next]
  simp [execBind, ht, src, dst, hw, hp, own, dir, tensor, kind, State.willBound]

theorem exec_bind_source (ht : s.myTake = some t) (src : ∀ tid, s.handle hs ≠ .tensor tid) :
    exec (.bind a b pat hd hs node out port) s = .next (s.trap codeHandleKind (kindInfo hs (s.handle hs))) := by
  change execBind a b pat hd hs node out port s = _
  rw [execBind, ht]
  dsimp only
  split
  next h _ => exact absurd h (src _)
  next h _ => exact absurd h (src _)
  next => rfl

theorem exec_bind_destination (ht : s.myTake = some t) (src : s.handle hs = .tensor tid) (dst : s.handle hd ≠ .empty) :
    exec (.bind a b pat hd hs node out port) s = .next (s.trap codeHandleKind (kindInfo hd (s.handle hd))) := by
  change execBind a b pat hd hs node out port s = _
  rw [execBind, ht, src]
  dsimp only
  split
  next h => exact absurd h dst
  next => rfl
  next h _ => exact absurd rfl (h _)

theorem exec_bind_absent (ht : s.myTake = some t) (src : s.handle hs = .tensor tid) (dst : s.handle hd = .empty)
    (no : ∀ w, t.slate.pats[pat.toNat]? = some w → w.port ≠ port ∨ w.dir ≠ out ∨ w.tid ≠ tid ∨ w.node ≠ nodeCode node) :
    exec (.bind a b pat hd hs node out port) s = .next (s.trap codePatternAbsent (at_ pat.toNat 0)) := by
  change execBind a b pat hd hs node out port s = _
  rw [execBind, ht, src, dst]
  dsimp only
  split
  next w p hw _ =>
    refine if_neg fun h => ?_
    simp only [Bool.and_eq_true, decide_eq_true_eq] at h
    obtain ⟨⟨⟨hport, hdir⟩, hnode⟩, htid⟩ := h
    obtain h | h | h | h := no w hw
    exacts [h hport, h hdir, h htid, h hnode]
  next => rfl

/-- What BIND does to its context: the handle is written, and it is past the instruction. -/
def CueCtx.binds (c : CueCtx) (hd : HReg) (v : Handle) : CueCtx := { c with h := c.h.set hd.toNat v, pc := c.pc + 8 }

theorem OnlyPort.of_eq {u v : State} {cl p : Nat} {o : Bool} {f g : Nat → CueCtx → CueCtx} (h : OnlyPort u v cl o p f)
    (e : ∀ j c, f j c = g j c) : OnlyPort u v cl o p g := by
  have : f = g := funext fun j => funext fun c => e j c
  exact this ▸ h

/-- The handle is written, the port has done its part, and the context is past the instruction. -/
theorem onlyPort_binds {s u w : State} {o : Bool} {p : Nat} {v : Handle} {f : CueCtx → CueCtx}
    (written : OnlyPort s u s.curCl o p fun j c => if j = s.curK then c.setHandle hd v else c)
    (queued : OnlyPort u w s.curCl o p fun _ c => f c) (hcl : w.curCl = s.curCl) (hk : w.curK = s.curK)
    (hf : ∀ c, f (c.advance 2) = (f c).advance 2) :
    OnlyPort s (w.goOn 2) s.curCl o p fun j c => f (if j = s.curK then c.binds hd v else c) := by
  have moved := onlyPort_onMe w o p fun c => c.advance 2
  rw [hcl, hk] at moved
  refine ((written.trans queued).trans moved).of_eq fun j c => ?_
  split
  · exact (hf _).symm
  · rfl

/-- The current context is as `goOn` leaves it; the ports are not touched. -/
theorem inPort_goOn (s : State) (n cl p : Nat) : (s.goOn n).inPort cl p = s.inPort cl p := s.inPort_updCtx _
theorem outPort_goOn (s : State) (n cl p : Nat) : (s.goOn n).outPort cl p = s.outPort cl p := s.outPort_updCtx _

theorem inPort_cmdDone (s : State) (cl q : Nat) (o : Bool) (p : Nat) : (s.cmdDone cl o p).inPort cl q = s.inPort cl q :=
  s.inPort_updCluster rfl cl q
theorem outPort_cmdDone (s : State) (cl q : Nat) (o : Bool) (p : Nat) : (s.cmdDone cl o p).outPort cl q = s.outPort cl q :=
  s.outPort_updCluster rfl cl q

end

section
variable {s u : State} {hd : HReg} {v : Handle} {p : Nat} {b : Binding}

/-- The handle of BIND has been written. -/
structure HandleSet (s u : State) (hd : HReg) (v : Handle) : Prop where
  port  : ∀ o p, OnlyPort s u s.curCl o p fun j c => if j = s.curK then c.setHandle hd v else c
  takes : u.takes = s.takes
  curCl : u.curCl = s.curCl
  curK  : u.curK = s.curK

theorem handleSet_onMe (s : State) (hd : HReg) (v : Handle) : HandleSet s (s.onMe fun c => c.setHandle hd v) hd v :=
  ⟨fun o p => onlyPort_onMe s o p _, rfl, rfl, rfl⟩

theorem bind_in_first {t : Take} (h : HandleSet s u hd v) (empty : (s.inPort s.curCl p).cmds = []) (take : s.take? b.take = some t) :
    let w := (u.enqueue s.curCl false p (.bind b)).goOn 2
    w.inPort s.curCl p = { phase := (s.inPort s.curCl p).phase, bound := some b
                           cons := (s.consumersOf s.curCl t (t.logical s.curCl false p)).map fun r => ⟨r, 0, 0, false⟩ } ∧
      OnlyPort s w s.curCl false p fun j c => lessWait false p (if j = s.curK then c.binds hd v else c) := by
  intro w
  have same := h.port true p
  have cons := consumersOf_congr same.regions same.banks t (t.logical s.curCl false p)
  have found : u.take? b.take = some t := by rw [← take, State.take?, h.takes]; rfl
  have eq := enqueue_in_bind ((congrArg InPort.cmds (same.in_eq p)).trans empty) found
  unfold w
  rw [eq, cons]
  refine ⟨?_, onlyPort_binds (h.port false p) (((onlyPort_updIn u s.curCl p _).trans (onlyPort_updIn _ s.curCl p _)).trans
    (onlyPort_cmdDone _ s.curCl false p)) h.curCl h.curK fun _ => rfl⟩
  rw [inPort_goOn, inPort_cmdDone, State.inPort_updIn, if_pos ⟨rfl, rfl⟩, State.inPort_updIn, if_pos ⟨rfl, rfl⟩, same.in_eq]
  rfl

theorem bind_in_behind (h : HandleSet s u hd v) (full : (s.inPort s.curCl p).cmds ≠ []) :
    let w := (u.enqueue s.curCl false p (.bind b)).goOn 2
    w.inPort s.curCl p = { s.inPort s.curCl p with cmds := (s.inPort s.curCl p).cmds ++ [.bind b] } ∧
      OnlyPort s w s.curCl false p fun j c => if j = s.curK then c.binds hd v else c := by
  intro w
  have port := (h.port true p).in_eq p
  unfold w
  rw [enqueue_in_behind (by rw [port]; exact full)]
  refine ⟨?_, onlyPort_binds (f := id) (h.port false p) (onlyPort_updIn u s.curCl p _) h.curCl h.curK fun _ => rfl⟩
  rw [inPort_goOn, State.inPort_updIn, if_pos ⟨rfl, rfl⟩, port]

theorem bind_out_first (h : HandleSet s u hd v) (empty : (s.outPort s.curCl p).cmds = []) :
    let w := (u.enqueue s.curCl true p (.bind b)).goOn 2
    w.outPort s.curCl p = { phase := (s.outPort s.curCl p).phase, bound := some b } ∧
      OnlyPort s w s.curCl true p fun j c => lessWait true p (if j = s.curK then c.binds hd v else c) := by
  intro w
  have port := (h.port false p).out_eq p
  unfold w
  rw [enqueue_out_bind (by rw [port]; exact empty)]
  refine ⟨?_, onlyPort_binds (h.port true p) (((onlyPort_updOut u s.curCl p _).trans (onlyPort_updOut _ s.curCl p _)).trans
    (onlyPort_cmdDone _ s.curCl true p)) h.curCl h.curK fun _ => rfl⟩
  rw [outPort_goOn, outPort_cmdDone, State.outPort_updOut, if_pos ⟨rfl, rfl⟩, State.outPort_updOut, if_pos ⟨rfl, rfl⟩, port]
  rfl

theorem bind_out_behind (h : HandleSet s u hd v) (full : (s.outPort s.curCl p).cmds ≠ []) :
    let w := (u.enqueue s.curCl true p (.bind b)).goOn 2
    w.outPort s.curCl p = { s.outPort s.curCl p with cmds := (s.outPort s.curCl p).cmds ++ [.bind b] } ∧
      OnlyPort s w s.curCl true p fun j c => if j = s.curK then c.binds hd v else c := by
  intro w
  have port := (h.port false p).out_eq p
  unfold w
  rw [enqueue_out_behind (by rw [port]; exact full)]
  refine ⟨?_, onlyPort_binds (f := id) (h.port true p) (onlyPort_updOut u s.curCl p _) h.curCl h.curK fun _ => rfl⟩
  rw [outPort_goOn, State.outPort_updOut, if_pos ⟨rfl, rfl⟩, port]

end

/-- Settles O13: the binding at the end of its queue, or in effect at once, and each trap by what stands in BIND's way. -/
theorem bindCommand : Obligations.BindCommand := by
  refine ⟨?binds, ?traps⟩
  case binds =>
    intro s a b pat hd hs node out port t tid w p ht src dst hw hp own dir tensor kind bd i o me queued bound
    have code : w.node = nodeCode node := by rw [kind]; cases node <;> rfl
    have bind (free : s.willBound s.curCl out p = false) := (exec_bind (a := a) (b := b) ht src dst hw hp own dir tensor code).trans
      (congrArg Host.Outcome.next (if_neg (Bool.eq_false_iff.1 free)))
    have take : s.take? bd.take = some t := by rw [← ht, State.myTake, ← myTake_id ht]
    have inFree (h : out = false) : s.willBound s.curCl out p = willBind i.bound.isSome i.cmds := by rw [h]; rfl
    have outFree (h : out = true) : s.willBound s.curCl out p = willBind o.bound.isSome o.cmds := by rw [h]; rfl
    refine ⟨fun h empty free => ?_, fun h full free => ?_, fun h empty free => ?_, fun h full free => ?_⟩
    · rw [bind (by rw [inFree h, empty, free]; rfl)]
      subst h; exact Goes.next (bind_in_first (handleSet_onMe ..) empty take)
    · rw [bind (by rw [inFree h, free])]
      subst h; exact Goes.next (bind_in_behind (handleSet_onMe ..) full)
    · rw [bind (by rw [outFree h, empty, free]; rfl)]
      subst h; exact Goes.next (bind_out_first (handleSet_onMe ..) empty)
    · rw [bind (by rw [outFree h, free])]
      subst h; exact Goes.next (bind_out_behind (handleSet_onMe ..) full)
  case traps =>
    intro s a b pat hd hs node out port t ht i
    have trapped {code : Nat} {info : Word} (trap : CanTrap s code) (u : State) (h : u = s.trap code info) :
        Goes (.next u : Out) fun u => TakesTrap s u code info 0 s.me.pc := by
      rw [h]; exact Goes.next (takesTrap_takeTrap s trap info 0 _)
    refine ⟨fun src trap => ?_, fun tid src => ⟨fun dst trap => ?_, fun dst no trap => ?_, fun w p dst hw hp own dir tensor kind busy trap => ?_⟩⟩
    · rw [exec_bind_source ht src, kindInfo_eq]; exact trapped trap _ rfl
    · rw [exec_bind_destination ht src dst, kindInfo_eq]; exact trapped trap _ rfl
    · rw [exec_bind_absent ht src dst fun w hw => (no w hw).imp_right (Or.imp_right (Or.imp_right fun h e => h (by rw [e]; cases node <;> rfl))),
        at_zero]
      exact trapped trap _ rfl
    · rw [exec_bind ht src dst hw hp own dir tensor (by rw [kind]; cases node <;> rfl), if_pos (show s.willBound _ _ _ = true from busy)]
      have info : flag out 4 ||| at_ port.toNat 0 = .ofNat 64 (if out then 16 + port.toNat else port.toNat) := by
        cases out
        · rw [at_zero]; exact BitVec.zero_or
        · exact at_or_low 1 port.isLt
      rw [info]; exact trapped trap _ rfl

/-! ### PORT.WAIT (R184) -/

section
variable {s : State} {out : Bool} {port : BitVec 4} {t : Take} {p : Nat}

theorem exec_portWait_elsewhere (ht : s.myTake = some t) (hp : t.physical s.curCl out port = none) :
    exec (.portWait out port) s = .next (s.goOn 1) := by
  change execPortWait out port s = _
  simp [execPortWait, ht, hp]

theorem exec_portWait (ht : s.myTake = some t) (hp : t.physical s.curCl out port = some p) :
    let n := if out then (s.outPort s.curCl p).cmds.length else (s.inPort s.curCl p).cmds.length
    exec (.portWait out port) s = .next (if n = 0 ∧ s.portEnded s.curCl out p = true then s.goOn 1
      else s.onMe fun c => c.startWait (.portWait out (BitVec.ofNat 4 p) n)) := by
  intro n
  change execPortWait out port s = _
  rw [apply_ite Host.Outcome.next]
  simp [execPortWait, ht, hp, n]

/-- A port that is unbound or stopped has ended. -/
theorem portEnded_of_unbound (cl : Nat) (h : if out then (s.outPort cl p).bound.isNone ∨ (s.outPort cl p).stop = true
    else (s.inPort cl p).bound.isNone) : s.portEnded cl out p = true := by
  cases out with
  | false =>
    have none := Option.isNone_iff_eq_none.1 (h : (s.inPort cl p).bound.isNone = true)
    simp [State.portEnded, State.inEnded, none]
  | true =>
    cases hb : (s.outPort cl p).bound with
    | none => simp [State.portEnded, State.outEnded, hb]
    | some b =>
      have stop : (s.outPort cl p).stop = true := by simpa [hb] using h
      simp [State.portEnded, State.outEnded, hb, stop]

theorem exec_portWaitWake {cl k : Nat} {q : BitVec 4} (hw : (s.ctx cl k).wait = some (.portWait out q 0))
    (ended : s.portEnded cl out q.toNat = true) : exec (.portWaitWake cl k) s = .next (s.updCtx cl k fun c => c.endWait) := by
  change execPortWaitWake cl k s = _
  simp [execPortWaitWake, hw, ended]

/-! ### MX.WAIT (R222) -/

theorem mxQuiet_iff {cl k : Nat} : s.mxQuiet cl k = true ↔
    (∀ i ∈ (s.mxOf cl).queue, i.k ≠ k) ∧ ∀ x ∈ (s.ctx cl k).posted, x.mx = none := by
  simp [State.mxQuiet]

theorem exec_mxWait_quiet (ht : s.myTake = some t) (holds : (s.mxOf s.curCl).holder = some t.id)
    (quiet : s.mxQuiet s.curCl s.curK = true) (none : s.report .mx = none) : exec .mxWait s = .next (s.goOn 1) := by
  change execMxWait s = _
  simp [execMxWait, ht, holds, quiet, none]

theorem exec_mxWait_waits (ht : s.myTake = some t) (holds : (s.mxOf s.curCl).holder = some t.id)
    (busy : s.mxQuiet s.curCl s.curK = false) : exec .mxWait s = .next (s.onMe fun c => c.startWait .mxWait) := by
  change execMxWait s = _
  simp [execMxWait, ht, holds, busy]

theorem exec_mxWaitWake {cl k : Nat} (hw : (s.ctx cl k).wait = some .mxWait) (quiet : s.mxQuiet cl k = true)
    (pend : (s.ctx cl k).pend = []) (none : pickAbort Report.mx.covers (s.ctx cl k).aborts = none) :
    exec (.mxWaitWake cl k) s = .next (s.updCtx cl k fun c => c.endWait) := by
  change execMxWaitWake cl k s = _
  simp [execMxWaitWake, hw, quiet, CueCtx.abandons, pend, none]

end

/-- Settles O15: both waits go on, wait and wake by whether what they wait for has come. -/
theorem waits : Obligations.Waits := by
  have storesOnly {l : List WrAbort} (h : ∀ x ∈ l, x.mx = none) : ∀ x ∈ l, Report.mx.covers x = false := fun x hx => by
    rw [Report.covers, h x hx]; rfl
  refine ⟨fun s out port t p ht => ⟨fun hp => ?_, ?_, fun cl k q hw ended => ?_⟩,
    fun s t ht holds => ?_⟩
  · rw [exec_portWait_elsewhere ht hp]; exact Goes.next (movesOn_goOn s 1)
  · intro hp n
    rw [exec_portWait ht hp]
    refine ⟨fun first unbound => ?_, fun first ended => ?_, fun behind => ?_⟩
    · rw [if_pos ⟨first, portEnded_of_unbound _ unbound⟩]; exact Goes.next (movesOn_goOn s 1)
    · rw [if_pos ⟨first, ended⟩]; exact Goes.next (movesOn_goOn s 1)
    · rw [if_neg fun h => behind.elim (fun b => b h.1) fun b => Bool.false_ne_true (b.symm.trans h.2)]
      exact Goes.next (becomes_onMe s _)
  · rw [exec_portWaitWake hw ended]; exact Goes.next (becomes_updCtx s cl k _)
  · intro quiet
    refine ⟨fun calm aborts => ?_, fun busy => ?_, fun cl k hw calm pend aborts => ?_⟩
    · rw [exec_mxWait_quiet ht holds (mxQuiet_iff.2 calm) (report_none (storesOnly aborts))]; exact Goes.next (movesOn_goOn s 1)
    · rw [exec_mxWait_waits ht holds (Bool.eq_false_iff.2 fun h => busy (mxQuiet_iff.1 h))]; exact Goes.next (becomes_onMe s _)
    · rw [exec_mxWaitWake hw (mxQuiet_iff.2 calm) pend (pickAbort_none (storesOnly aborts))]
      exact Goes.next (becomes_updCtx s cl k _)

end Sys2Proof.Machine
end

section
/-! PROOFS. Input ports (O16): the elements of a token as read, what a stream read waits for, and a token's way into the buffers. -/

namespace Sys2Proof.Machine

/-! ### The read of a token (R275) -/

section
variable {s : State} {cl p : Nat} {b : Binding} {t : Take} {ten : Tensor}

/-- The bytes from a key on, as the reads of a stream give them (R275). -/
def InPort.unitAt (x : InPort) (s : State) (off k n : Nat) : List Byte :=
  (List.range n).map fun i => ((x.old.find? fun y => y.1 == off + i).map (·.2)).getD (s.byte (k + i))

theorem seen_peek (x : InPort) (s : State) (off k n : Nat) : x.seen off (s.peek k n) = x.unitAt s off k n := by
  have bytes : (s.peek k n).zipIdx = (List.range n).map fun i => (s.byte (k + i), i) := by
    refine List.ext_getElem? fun i => ?_
    rw [List.getElem?_zipIdx, List.getElem?_map]
    by_cases h : i < n
    · rw [s.peek_getElem k n i h, List.getElem?_range h]; simp
    · rw [List.getElem?_eq_none (by rw [s.length_peek]; omega), List.getElem?_eq_none (by rw [List.length_range]; omega)]; rfl
  rw [InPort.seen, bytes, List.map_map]
  refine List.map_congr_left fun i _ => ?_
  dsimp only [Function.comp]
  cases x.old.find? fun y => y.1 == off + i <;> rfl

/-- Elements whose words are good are read as they stand. -/
theorem readCodes_good (seen : Nat → List Byte → List Byte) {l : List (Coord × Nat)}
    (h : ∀ y ∈ l, s.readBad y.2 ten.unit = false ∧ s.readCorrects y.2 ten.unit = false) (cl take : Nat) :
    s.readCodes ten cl take seen l = (s, some (l.map fun y => ten.codeIn y.1 (seen (ten.offset y.1) (s.peek y.2 ten.unit)))) := by
  induction l with
  | nil => rfl
  | cons y l ih =>
    obtain ⟨good, plain⟩ := h y List.mem_cons_self
    have read : s.read y.2 ten.unit cl take = (s, some (s.peek y.2 ten.unit)) := by
      rw [State.read, good, State.noteRead, plain]; rfl
    simp only [State.readCodes, read, ih fun z hz => h z (List.mem_cons_of_mem _ hz), List.map_cons]

theorem exec_inputPortRead (hb : (s.inPort cl p).bound = some b) (ht : s.take? b.take = some t) (active : t.active = true)
    (may : s.mayFetch cl p t b = true) : exec (.inputPortRead cl p) s = .next (s.fetchToken cl p t b) := by
  change execInputPortRead cl p s = _
  simp [execInputPortRead, hb, ht, active, may]

/-- A token all of whose elements are in this package and good is queued. -/
theorem fetchToken_reads {l : List (Coord × Nat)} (asked : (s.inPort cl p).asked = 0)
    (hl : let x := s.inPort cl p; let ten := t.tensor b.tid.toNat; let w := b.walk ten
      s.spread t ten true false false (((w.span x.got).drop x.part.length).map (b.coord ten w)) = .keys l)
    (good : ∀ y ∈ l, s.readBad y.2 (t.tensor b.tid.toNat).unit = false ∧ s.readCorrects y.2 (t.tensor b.tid.toNat).unit = false) :
    let x := s.inPort cl p; let ten := t.tensor b.tid.toNat
    s.fetchToken cl p t b = s.updIn cl p fun x' => x'.receive (tokenOf ten.elemFmt b.pat.pack
      (x.part ++ l.map fun y => ten.codeIn y.1 (x.unitAt s (ten.offset y.1) y.2 ten.unit))) := by
  intro x ten
  dsimp only at hl
  have codes := readCodes_good x.seen good cl t.id
  simp only [seen_peek] at codes
  have token : s.readToken cl p t b = (s.updIn cl p fun x' => x'.receive (tokenOf ten.elemFmt b.pat.pack
      (x.part ++ l.map fun y => ten.codeIn y.1 (x.unitAt s (ten.offset y.1) y.2 ten.unit))), .done) := by
    simp only [State.readToken, asked, hl, ne_eq, not_true_eq_false, if_false]
    rw [codes]
    rfl
  rw [State.fetchToken, token]

/-- What a read of a STREAM port waits for (R280). -/
theorem streamWaits_false (stream : b.node = .stream) {x : InPort} (h : s.streamWaits cl t b x = false) :
    let so := (t.tensor b.tid.toNat).kind == 0
    (∀ y ∈ (s.ctx cl b.k).posted, y.mx = none → so = false ∧ y.so = false) ∧ s.copiesLeft cl t (!so) = false ∧
    (∀ i ∈ (s.mxOf cl).queue, i.k = b.k → i.op.reads (s.mxOf cl) (fun tid => so || (t.tensor tid).kind == 0) = false) ∧
    ∀ y ∈ (s.cluster cl).inp, (∃ m, y.2.began = some m ∧ ∀ n, x.began = some n → m < n) →
      y.2.streams t.id (fun tid => so || (t.tensor tid).kind == 0) = true → s.readsOn t y.2 = false := by
  intro so
  rw [State.streamWaits, stream] at h
  simp only [beq_self_eq_true, Bool.true_and, Bool.or_eq_false_iff, List.any_eq_false] at h
  obtain ⟨⟨⟨posted, copies⟩, queue⟩, earlier⟩ := h
  refine ⟨fun y hy plain => ?_, copies, fun i hi mine => ?_, fun y hy ⟨m, hm, first⟩ streams => ?_⟩
  · simpa [so, plain, Tensor.isSo, and_comm] using posted y hy
  · simpa [so, mine, Tensor.isSo] using queue i hi
  · have before : y.2.before x = true := by
      rw [InPort.before, hm, Option.any_some]
      cases hx : x.began with
      | none => rfl
      | some n => exact decide_eq_true (first n hx)
    have := earlier y hy
    rw [before, Bool.and_true] at this
    exact Bool.eq_false_iff.2 fun on => this (by rw [on]; exact (Bool.and_true _).trans streams)

end

/-! ### Delivery (R182) -/

/-- A bank whose buffers that name the lane have taken a token. -/
def Bank.takesToken (k : Bank) (lp lane : Nat) (v : Word) : Bank := { k with
  a := if k.fillsA lp lane then k.a ++ [v] else k.a, b := if k.fillsB lp lane then k.b ++ [v] else k.b }

/-- An update of distinct places of a table, one after the other. -/
theorem tget_foldl_tupd {α β : Type} [DecidableEq α] (d : α) (f : α → α) (num : β → Nat) (l : List β) (h : (l.map num).Nodup) (t : Table α) (n : Nat) :
    tget d (l.foldl (fun t e => tupd d t (num e) f) t) n = if n ∈ l.map num then f (tget d t n) else tget d t n := by
  induction l generalizing t with
  | nil => rfl
  | cons e l ih =>
    rw [List.map_cons, List.nodup_cons] at h
    rw [List.foldl_cons, ih h.2, List.map_cons, tget_tupd]
    by_cases e' : n = num e
    · subst e'; rw [if_neg h.1, if_pos rfl, if_pos List.mem_cons_self]
    · rw [if_neg e']; simp [e']

section
variable {s : State} {cl p lp lane : Nat} {v : Word}

theorem bank_lanePush (g : Region) (h : (g.els.map g.bankNo).Nodup) (n : Nat) : (s.lanePush cl g lp lane v).bank cl n =
    if n ∈ g.els.map g.bankNo then (s.bank cl n).takesToken lp lane v else s.bank cl n := by
  rw [State.bank, State.lanePush, State.cluster_updCluster_same]
  exact tget_foldl_tupd ({} : Bank) (fun b => b.takesToken lp lane v) g.bankNo g.els h _ n

/-- The banks of the regions on a list. -/
def State.bankNos (s : State) (cl : Nat) (l : List Nat) : List Nat := l.flatMap fun r => (s.region cl r).els.map (s.region cl r).bankNo

/-- The token in every buffer of the regions on a list that names the lane. -/
def State.lanePushes (s : State) (cl : Nat) (l : List Nat) (lp lane : Nat) (v : Word) : State :=
  l.foldl (fun s rid => s.lanePush cl (s.region cl rid) lp lane v) s

theorem lanePushes_cons (r : Nat) (l : List Nat) : s.lanePushes cl (r :: l) lp lane v =
    (s.lanePush cl (s.region cl r) lp lane v).lanePushes cl l lp lane v := rfl

/-- A push changes the banks of its cluster and nothing else. -/
structure OnlyBanks (s t : State) (cl : Nat) : Prop where
  fabric  : OnlyFabric s t cl
  regions : ∀ c r, t.region c r = s.region c r
  inputs  : ∀ c q, t.inPort c q = s.inPort c q
  outputs : ∀ c q, t.outPort c q = s.outPort c q
  ctxs    : ∀ c j, t.ctx c j = s.ctx c j

theorem onlyBanks_lanePush (g : Region) : OnlyBanks s (s.lanePush cl g lp lane v) cl where
  fabric := onlyFabric_updCluster s cl fun _ => rfl
  regions c r := s.region_updCluster rfl c r
  inputs c q := s.inPort_updCluster rfl c q
  outputs c q := s.outPort_updCluster rfl c q
  ctxs c j := s.ctx_updCluster rfl c j

theorem OnlyBanks.trans {t u : State} (h : OnlyBanks s t cl) (g : OnlyBanks t u cl) : OnlyBanks s u cl where
  fabric := h.fabric.trans g.fabric
  regions c r := (g.regions c r).trans (h.regions c r)
  inputs c q := (g.inputs c q).trans (h.inputs c q)
  outputs c q := (g.outputs c q).trans (h.outputs c q)
  ctxs c j := (g.ctxs c j).trans (h.ctxs c j)

theorem onlyBanks_lanePushes (l : List Nat) (s : State) : OnlyBanks s (s.lanePushes cl l lp lane v) cl := by
  induction l generalizing s with
  | nil => exact ⟨.refl cl, fun _ _ => rfl, fun _ _ => rfl, fun _ _ => rfl, fun _ _ => rfl⟩
  | cons r l ih => exact (onlyBanks_lanePush _).trans (ih _)

theorem bank_lanePushes (l : List Nat) (s : State) (h : (s.bankNos cl l).Nodup) (n : Nat) :
    (s.lanePushes cl l lp lane v).bank cl n =
      if n ∈ s.bankNos cl l then (s.bank cl n).takesToken lp lane v else s.bank cl n := by
  induction l generalizing s with
  | nil => rfl
  | cons r l ih =>
    have rest : (s.lanePush cl (s.region cl r) lp lane v).bankNos cl l = s.bankNos cl l := by
      unfold State.bankNos; simp only [(onlyBanks_lanePush _).regions]
    obtain ⟨first, others, apart⟩ := List.nodup_append.1 (show ((s.region cl r).els.map (s.region cl r).bankNo ++ s.bankNos cl l).Nodup from h)
    rw [lanePushes_cons, ih _ (by rw [rest]; exact others), rest, bank_lanePush _ first]
    change _ = if n ∈ (s.region cl r).els.map (s.region cl r).bankNo ++ s.bankNos cl l then _ else _
    by_cases here : n ∈ (s.region cl r).els.map (s.region cl r).bankNo
    · have : n ∉ s.bankNos cl l := fun there => apart n here n there rfl
      rw [if_neg this, if_pos here, if_pos (List.mem_append_left _ here)]
    · simp only [List.mem_append, here, false_or, if_false]

/-- No region is behind: nothing is delivered again. -/
theorem redeliver_foldl (lanes : Nat) {l : List Consumer} (h : ∀ c ∈ l, (s.inPort cl p).pos ≤ c.rd) :
    l.foldl (fun s c => s.redeliver cl p lp lanes c) s = s := by
  induction l with
  | nil => rfl
  | cons c l ih =>
    have stays : s.redeliver cl p lp lanes c = s := by
      rw [State.redeliver]; exact if_neg (Nat.not_lt.2 (h c List.mem_cons_self))
    rw [List.foldl_cons, stays, ih fun d hd => h d (List.mem_cons_of_mem _ hd)]

theorem shared_own {x : InPort} (h : x.pulled = false ∨ x.cons = []) : s.shared x v = (v, s) := by
  unfold State.shared
  obtain h | h := h <;> simp [h]

/-- The port after a delivery. -/
def InPort.delivered (x : InPort) : InPort :=
  ({ x with pos := x.pos + 1, cons := x.cons.map fun (c : Consumer) => if c.rd = x.pos then { c with rd := c.rd + 1 } else c }).trim

theorem deliverNext_delivers {lanes : Nat} (due : (s.inPort cl p).pos < (s.inPort cl p).got)
    (can : s.canDeliver cl p lp ((s.inPort cl p).pos % lanes) = true)
    (own : (s.inPort cl p).pulled = false ∨ (s.inPort cl p).cons = []) :
    let x := s.inPort cl p; let lane := x.pos % lanes
    s.deliverNext cl p lp lanes =
      (s.lanePushes cl (s.laneCons cl p lp lane) lp lane (x.buf.getD (x.pos - x.base) 0)).updIn cl p InPort.delivered := by
  intro x lane
  simp only [State.deliverNext, due, can, shared_own own, decide_true, Bool.and_true, if_true]
  rfl

theorem exec_inputTokenArrival {b : Binding} {t : Take} (hb : (s.inPort cl p).bound = some b) (ht : s.take? b.take = some t)
    (active : t.active = true) (level : ∀ c ∈ (s.inPort cl p).cons, (s.inPort cl p).pos ≤ c.rd) :
    exec (.inputTokenArrival cl p) s = .next (s.deliverNext cl p (t.logical cl false p) b.pat.lanes) := by
  change execInputTokenArrival cl p s = _
  simp only [execInputTokenArrival, hb, ht, active, if_true, redeliver_foldl _ level]

end

/-- Settles O16: the read of the next token, what it waits for, and a delivery to distinct banks. -/
theorem inputPorts : Obligations.InputPorts := by
  intro s cl p b t hb ht active x ten w lp unit
  refine ⟨fun l may hl good => ?reads, fun may stream => ?waits, ?delivers⟩
  case reads =>
    have mayFetch := may
    simp only [State.mayFetch, Bool.and_eq_true, beq_iff_eq] at mayFetch
    obtain ⟨⟨⟨asked, -⟩, -⟩, -⟩ := mayFetch
    rw [exec_inputPortRead hb ht active may, fetchToken_reads asked hl good]
    refine Goes.next ⟨?_, onlyPort_updIn s cl p _⟩
    rw [State.inPort_updIn, if_pos ⟨rfl, rfl⟩]; rfl
  case waits =>
    have waits := may
    simp only [State.mayFetch, Bool.and_eq_true, Bool.not_eq_true'] at waits
    obtain ⟨⟨-, free⟩, -⟩ := waits
    exact streamWaits_false stream free
  case delivers =>
    intro lane rids nums level due can own apart
    rw [exec_inputTokenArrival hb ht active level, deliverNext_delivers due can own]
    set v := x.buf.getD (x.pos - x.base) 0
    have pushed : OnlyBanks s (s.lanePushes cl rids lp lane v) cl := onlyBanks_lanePushes rids s
    have port := onlyPort_updIn (s.lanePushes cl rids lp lane v) cl p InPort.delivered
    have own : ((s.lanePushes cl rids lp lane v).updIn cl p InPort.delivered).inPort cl p = x.delivered := by
      rw [State.inPort_updIn, if_pos ⟨rfl, rfl⟩, pushed.inputs]
    refine Goes.next ⟨fun n => ?_, ?_, ?_, ?_, fun q hq => ?_, fun q => ?_, fun r => ?_, fun j => ?_, pushed.fabric.trans port.fabric⟩
    · exact (port.banks n).trans (bank_lanePushes rids s apart n)
    · exact (congrArg InPort.pos own).trans rfl
    · exact (congrArg InPort.got own).trans rfl
    · exact (congrArg InPort.bound own).trans rfl
    · exact (port.inputs q (.inr hq)).trans (pushed.inputs cl q)
    · exact (port.out_eq q).trans (pushed.outputs cl q)
    · exact (port.regions r).trans (pushed.regions cl r)
    · exact (port.contexts j).trans (pushed.ctxs cl j)

end Sys2Proof.Machine
end

section
/-! PROOFS. Accumulator banks (O18): what a take and a free of a run of banks leave, and the lowest free run. -/

namespace Sys2Proof.Machine

/-! ### Runs of a table -/

theorem tget_filter {α : Type} (d : α) (q : Nat → Bool) (t : Table α) (k : Nat) :
    tget d (t.filter fun x => q x.1) k = if q k = true then tget d t k else d := by
  induction t with
  | nil => exact (ite_self d).symm
  | cons x t ih =>
    obtain ⟨j, v⟩ := x
    by_cases hq : q j = true
    · rw [List.filter_cons_of_pos (p := fun x : Nat × α => q x.1) hq]
      by_cases e : j = k
      · subst e; simp [tget, hq]
      · simp [tget, e, ih]
    · rw [List.filter_cons_of_neg (p := fun x : Nat × α => q x.1) hq, ih]
      by_cases e : j = k
      · subst e; simp [hq]
      · simp [tget, e]

/-- The entries of a run of numbers, each set to one value. -/
theorem tget_foldl_tput {α : Type} [DecidableEq α] (d v : α) (t : Table α) (i n k : Nat) :
    tget d ((List.range n).foldl (fun t j => tput d t (i + j) v) t) k = if i ≤ k ∧ k < i + n then v else tget d t k := by
  induction n with
  | zero => exact (if_neg (by omega)).symm
  | succ n ih =>
    rw [List.range_succ, List.foldl_append, List.foldl_cons, List.foldl_nil, tget_tput, ih]
    by_cases e : k = i + n
    · rw [if_pos e, if_pos (by omega)]
    · rw [if_neg e]; exact if_congr (by omega) rfl rfl

section
variable {s : State} {cl i n : Nat}

/-! ### ACC.TAKE (R189) -/

/-- The cluster after a run of banks has been given to an owner. -/
def Cluster.giveBanks (c : Cluster) (i n : Nat) (own : Option (Nat × Nat)) : Cluster := { c with
  acc := zeroBanks c.acc i n
  accBad := freshBanks c.accBad i n
  accOwn := (List.range n).foldl (fun t j => tput none t (i + j) own) c.accOwn }

theorem acc_zeroBanks (acc : Table (BitVec 32)) (i n w : Nat) :
    tget 0 (zeroBanks acc i n) w = if 512 * i ≤ w ∧ w < 512 * (i + n) then 0 else tget 0 acc w := by
  rw [zeroBanks, tget_filter 0 (fun w => w < 512 * i || 512 * (i + n) ≤ w)]
  by_cases h : 512 * i ≤ w ∧ w < 512 * (i + n)
  · rw [if_pos h, if_neg (by simp; omega)]
  · rw [if_neg h, if_pos (by simp; omega)]

theorem mem_freshBanks (bad : List Nat) (i n w : Nat) :
    w ∈ freshBanks bad i n ↔ w ∈ bad ∧ (w < 512 * i ∨ 512 * (i + n) ≤ w) := by
  simp [freshBanks]

/-- A run of banks is free, as ACC.TAKE looks for it. -/
theorem freeRun_at (c : Cluster) (n i : Nat) : (i + n ≤ 256 && (List.range n).all fun j => (c.bankOwner (i + j)).isNone) = true ↔
    i + n ≤ 256 ∧ ∀ j < n, c.bankOwner (i + j) = none := by
  simp

theorem freeRun_some {c : Cluster} (hi : i < 256) (free : i + n ≤ 256 ∧ ∀ j < n, c.bankOwner (i + j) = none)
    (first : ∀ j < i, ¬ (j + n ≤ 256 ∧ ∀ m < n, c.bankOwner (j + m) = none)) : freeRun c n = some i :=
  lowest_eq_some hi ((freeRun_at c n i).2 free) fun j hj => Bool.eq_false_iff.2 fun h => first j hj ((freeRun_at c n j).1 h)

theorem freeRun_none {c : Cluster} (no : ∀ i < 256, ¬ (i + n ≤ 256 ∧ ∀ m < n, c.bankOwner (i + m) = none)) : freeRun c n = none :=
  lowest_eq_none fun j hj => Bool.eq_false_iff.2 fun h => no j hj ((freeRun_at c n j).1 h)

theorem exec_accTake_takes {d : Reg} {n : BitVec 14} (h : freeRun (s.cluster s.curCl) n.toNat = some i) : exec (.accTake d n) s =
    .next ((s.updCluster s.curCl fun c => c.giveBanks i n.toNat (some (s.me.take, s.curK))).result 1 d (.ofNat 64 i)) := by
  change execAccTake d n s = _
  rw [execAccTake, h]; rfl

theorem exec_accTake_full {d : Reg} {n : BitVec 14} (h : freeRun (s.cluster s.curCl) n.toNat = none) :
    exec (.accTake d n) s = .next (s.result 1 d (.allOnes 64)) := by
  change execAccTake d n s = _
  rw [execAccTake, h]

/-! ### ACC.FREE (R190) -/

theorem bankOwner_freeBanks (s : State) (cl i n b : Nat) : ((s.freeBanks cl i n).cluster cl).bankOwner b =
    if i ≤ b ∧ b < i + n then none else (s.cluster cl).bankOwner b := by
  rw [State.freeBanks, State.cluster_updCluster_same]
  exact tget_foldl_tput none none _ i n b

theorem onlyCluster_freeBanks (s : State) (cl i n : Nat) : OnlyCluster s (s.freeBanks cl i n) cl := onlyCluster_updCluster s cl _

theorem shared_freeBanks (s : State) (cl i n : Nat) :
    { (s.freeBanks cl i n).cluster cl with accOwn := (s.cluster cl).accOwn } = s.cluster cl := by
  rw [State.freeBanks, State.cluster_updCluster_same]

theorem ctx_freeBanks (s : State) (cl i n c k : Nat) : (s.freeBanks cl i n).ctx c k = s.ctx c k := s.ctx_updCluster rfl c k

theorem holdsBank_iff {take k b : Nat} : s.holdsBank cl take k b = true ↔ b < 256 ∧ (s.cluster cl).bankOwner b = some (take, k) := by
  simp [State.holdsBank]

theorem foreignBank_none {take k first : Nat} (h : ∀ j < n, s.holdsBank cl take k (first + j) = true) :
    s.foreignBank cl take k first n = none := by
  rw [State.foreignBank, List.find?_eq_none]
  simpa using h

theorem foreignBank_some {take k first j : Nat} (hj : j < n) (foreign : s.holdsBank cl take k (first + j) = false)
    (before : ∀ m < j, s.holdsBank cl take k (first + m) = true) : s.foreignBank cl take k first n = some (first + j) := by
  rw [State.foreignBank, List.find?_map]
  have : (List.range n).find? ((fun b => !s.holdsBank cl take k b) ∘ (first + ·)) = some j := by
    rw [List.find?_range_eq_some]
    exact ⟨by simp [foreign], List.mem_range.2 hj, fun m hm => by simp [before m hm]⟩
  rw [this]; rfl

section
variable {a : Reg} {n : BitVec 14}

theorem exec_accFree_foreign {b : Nat} (h : s.foreignBank s.curCl s.me.take s.curK (s.reg a).toNat n.toNat = some b) :
    exec (.accFree a n) s = .next (s.trap codeAccForeign (.ofNat 64 b)) := by
  change execAccFree a n s = _
  rw [execAccFree, h]

theorem exec_accFree_own (h : s.foreignBank s.curCl s.me.take s.curK (s.reg a).toNat n.toNat = none) : exec (.accFree a n) s =
    .next (if s.banksBusy s.curCl (s.reg a).toNat n.toNat = true
      then s.onMe fun c => { c with stall := some (.accFree (s.reg a).toNat n.toNat) }
      else (s.freeBanks s.curCl (s.reg a).toNat n.toNat).goOn 1) := by
  change execAccFree a n s = _
  rw [execAccFree, h, apply_ite Host.Outcome.next]

end

theorem exec_accFreeComplete {k first m : Nat} (hs : (s.ctx cl k).stall = some (.accFree first m))
    (idle : s.banksBusy cl first m = false) : exec (.accFreeComplete cl k) s =
      .next ((s.freeBanks cl first m).updCtx cl k fun c => { c with stall := none }.advance 1) := by
  change execAccFreeComplete cl k s = _
  simp [execAccFreeComplete, hs, idle]

end

/-- Settles O18: the lowest free run is what ACC.TAKE finds; ACC.FREE frees, waits or traps by the banks it names. -/
theorem accumulatorBanks : Obligations.AccumulatorBanks := by
  intro s d a n cl own free
  refine ⟨fun i hi first lt => ?takes, fun no => ?full, ?frees, fun cl k first m hs idle => ?completes⟩
  case takes =>
    rw [exec_accTake_takes (freeRun_some lt hi first)]
    refine Goes.next ⟨_, fun b => ?_, fun w => ?_, fun w => ?_, onlyCluster_updCluster s _ _, ?_, writesReg_result _ 1 d _⟩
    · change Cluster.bankOwner _ b = _
      rw [State.cluster_updCluster_same]
      exact tget_foldl_tput none _ _ i n.toNat b
    all_goals rw [State.cluster_updCluster_same]
    · exact acc_zeroBanks _ i n.toNat w
    · exact mem_freshBanks _ i n.toNat w
    · rfl
  case full =>
    rw [exec_accTake_full (freeRun_none no)]; exact Goes.next (writesReg_result s 1 d _)
  case frees =>
    intro i
    refine ⟨fun mine => ?_, fun j hj foreign before trap => ?_⟩
    · rw [exec_accFree_own (foreignBank_none fun j hj => holdsBank_iff.2 (mine j hj))]
      refine ⟨fun idle => ?_, fun busy => ?_⟩
      · rw [if_neg (Bool.eq_false_iff.1 idle)]
        exact Goes.next ⟨_, bankOwner_freeBanks s _ _ _, onlyCluster_freeBanks s _ _ _, shared_freeBanks s _ _ _, movesOn_goOn _ 1⟩
      · rw [if_pos busy]; exact Goes.next (becomes_onMe s _)
    · have first := foreignBank_some hj (Bool.eq_false_iff.2 fun h => foreign (holdsBank_iff.1 h))
        fun m hm => holdsBank_iff.2 (before m hm)
      rw [exec_accFree_foreign first]
      exact Goes.next (takesTrap_takeTrap s trap _ 0 _)
  case completes =>
    rw [exec_accFreeComplete hs idle]
    refine Goes.next ⟨_, bankOwner_freeBanks s cl first m, onlyCluster_freeBanks s cl first m, shared_freeBanks s cl first m, ?_⟩
    have done := becomes_updCtx (s.freeBanks cl first m) cl k fun c => { c with stall := none }.advance 1
    rw [ctx_freeBanks] at done
    exact done

end Sys2Proof.Machine
end

section
/-! PROOFS. Halts and the ends of tiles (R186, R276): what the halt of one region does, of several, and what closing the output
ports of a take does. -/

namespace Sys2Proof.Machine

section
variable {s t u : State} {cl : Nat}

theorem OnlyFabric.curCl (h : OnlyFabric s t cl) : t.curCl = s.curCl := by
  have h := congrArg State.curCl h.outside.package.rest; exact h
theorem OnlyFabric.curK (h : OnlyFabric s t cl) : t.curK = s.curK := by
  have h := congrArg State.curK h.outside.package.rest; exact h

/-! ### The halt of one region (R186) -/

/-- An update of places of a table that is the same done twice. -/
theorem tget_foldl_tupd_twice {α β : Type} [DecidableEq α] (d : α) (f : α → α) (twice : ∀ a, f (f a) = f a) (num : β → Nat)
    (l : List β) (t : Table α) (n : Nat) :
    tget d (l.foldl (fun t e => tupd d t (num e) f) t) n = if n ∈ l.map num then f (tget d t n) else tget d t n := by
  induction l generalizing t with
  | nil => rfl
  | cons e l ih =>
    rw [List.foldl_cons, ih, List.map_cons, tget_tupd]
    by_cases here : n = num e
    · subst here
      rw [if_pos rfl, twice, ite_self, if_pos List.mem_cons_self]
    · simp only [List.mem_cons, here, false_or, if_false]

/-- A bank whose pending result is gone. -/
def Bank.drop (k : Bank) : Bank := { k with pend := none }

theorem bank_dropPend (s : State) (cl : Nat) (g : Region) (n : Nat) : (s.dropPend cl g).bank cl n =
    if n ∈ g.els.map g.bankNo then (s.bank cl n).drop else s.bank cl n := by
  rw [State.bank, State.dropPend, State.cluster_updCluster_same]
  exact tget_foldl_tupd_twice ({} : Bank) Bank.drop (fun _ => rfl) g.bankNo g.els _ n

theorem outPort_releaseTokens (s : State) (cl r p : Nat) : (s.releaseTokens cl r).outPort cl p = { s.outPort cl p with
    held := (s.outPort cl p).held.map fun y => if y.rid = some r then { y with rid := none } else y } := by
  rw [State.outPort, State.releaseTokens, State.cluster_updCluster_same]
  exact tget_tmap ({} : OutPort) (fun _ p => { p with
    held := p.held.map fun y => if y.rid = some r then { y with rid := none } else y }) (fun _ => rfl) _ p

theorem onlyFabric_updRegion (s : State) (cl r : Nat) (f : Region → Region) : OnlyFabric s (s.updRegion cl r f) cl :=
  onlyFabric_updCluster s cl fun _ => rfl
theorem onlyFabric_dropPend (s : State) (cl : Nat) (g : Region) : OnlyFabric s (s.dropPend cl g) cl :=
  onlyFabric_updCluster s cl fun _ => rfl
theorem onlyFabric_releaseTokens (s : State) (cl r : Nat) : OnlyFabric s (s.releaseTokens cl r) cl :=
  onlyFabric_updCluster s cl fun _ => rfl

/-- What the halt of regions leaves beside them: the contexts and what is not of the fabric. -/
structure HaltsOnly (s t : State) (cl : Nat) (l : List Nat) : Prop where
  halts  : Halts s t cl l
  fabric : OnlyFabric s t cl
  ctxs   : ∀ j, t.ctx cl j = s.ctx cl j

theorem haltsOnly_refl (s : State) (cl : Nat) : HaltsOnly s s cl [] where
  halts := by
    refine ⟨fun r => rfl, fun n => (if_neg ?_).symm, fun p => ?_, fun p => rfl⟩
    · rintro ⟨r, h, -⟩; cases h
    · have same (y : OutTok) : (if ∃ r ∈ ([] : List Nat), (s.region cl r).held = true ∧ y.rid = some r then { y with rid := none }
          else y) = y :=
        if_neg (by rintro ⟨r, h, -⟩; cases h)
      simp only [same, List.map_id']
  fabric := .refl cl
  ctxs _ := rfl

/-- A region that is asked to halt: its own halt. -/
theorem haltsOnly_askHalt {r : Nat} (live : (s.region cl r).rstate ≠ .halted) (there : (s.region cl r).rstate ≠ .idle) :
    HaltsOnly s (s.askHalt cl r) cl [r] := by
  by_cases held : (s.region cl r).held = true
  · have eq : s.askHalt cl r = ((s.updRegion cl r fun g => { g with rstate := .halted, arb := 0 }).dropPend cl (s.region cl r)).releaseTokens cl r := by
      simp [State.askHalt, State.haltRegion, live, there, held]
    rw [eq]
    set a := s.updRegion cl r fun g => { g with rstate := .halted, arb := 0 }
    have only {q : Nat → Prop} : (∃ x ∈ [r], (s.region cl x).held = true ∧ q x) ↔ q r := by simp [held]
    refine ⟨⟨fun j => ?_, fun n => ?_, fun p => ?_, fun p => ?_⟩, ?_, fun j => ?_⟩
    · have : ((a.dropPend cl (s.region cl r)).releaseTokens cl r).region cl j = a.region cl j :=
        (State.region_updCluster _ rfl cl j).trans (State.region_updCluster _ rfl cl j)
      rw [this, State.region_updRegion]
      by_cases e : j = r
      · subst e; simp [held]
      · simp [e]
    · have : ((a.dropPend cl (s.region cl r)).releaseTokens cl r).bank cl n = (a.dropPend cl (s.region cl r)).bank cl n :=
        State.bank_updCluster _ rfl cl n
      rw [this, bank_dropPend, State.bank_updRegion]
      simp only [only]; rfl
    · have : (a.dropPend cl (s.region cl r)).outPort cl p = s.outPort cl p :=
        (State.outPort_updCluster _ rfl cl p).trans (s.outPort_updRegion _)
      rw [outPort_releaseTokens, this]
      simp only [only]
    · exact ((State.inPort_updCluster _ rfl cl p).trans (State.inPort_updCluster _ rfl cl p)).trans (s.inPort_updRegion _)
    · exact ((onlyFabric_updRegion s cl r _).trans (onlyFabric_dropPend _ cl _)).trans (onlyFabric_releaseTokens _ cl r)
    · exact ((State.ctx_updCluster _ rfl cl j).trans (State.ctx_updCluster _ rfl cl j)).trans (s.ctx_updRegion _)
  · have eq : s.askHalt cl r = s.updRegion cl r fun g => { g with halting := true } := by
      simp [State.askHalt, live, held]
    rw [eq]
    have no {q : Nat → Prop} : ¬ ∃ x ∈ [r], (s.region cl x).held = true ∧ q x := by simp [held]
    refine ⟨⟨fun j => ?_, fun n => ?_, fun p => ?_, fun p => s.inPort_updRegion _⟩, onlyFabric_updCluster s cl fun _ => rfl,
      fun j => s.ctx_updRegion _⟩
    · rw [State.region_updRegion]
      by_cases e : j = r
      · subst e; simp [held]
      · simp [e]
    · rw [State.bank_updRegion, if_neg no]
    · have same (y : OutTok) : (if ∃ x ∈ [r], (s.region cl x).held = true ∧ y.rid = some x then { y with rid := none } else y) = y :=
        if_neg no
      rw [State.outPort_updRegion]
      simp only [same, List.map_id']

theorem haltsOnly_askHalt_halted {r : Nat} (halted : (s.region cl r).rstate = .halted) : HaltsOnly s (s.askHalt cl r) cl [] := by
  have : s.askHalt cl r = s := by simp [State.askHalt, halted]
  rw [this]; exact haltsOnly_refl s cl

/-! ### The halts of several regions -/

/-- Halts of regions that are apart, one after the other. -/
theorem HaltsOnly.trans {l m : List Nat} (h : HaltsOnly s t cl l) (g : HaltsOnly t u cl m) (apart : ∀ r ∈ m, r ∉ l) :
    HaltsOnly s u cl (l ++ m) := by
  have same {r : Nat} (hr : r ∈ m) : t.region cl r = s.region cl r := (h.halts.regions r).trans (if_neg (apart r hr))
  have either {q : Nat → Region → Prop} : (∃ r ∈ l ++ m, (s.region cl r).held = true ∧ q r (s.region cl r)) ↔
      (∃ r ∈ l, (s.region cl r).held = true ∧ q r (s.region cl r)) ∨ ∃ r ∈ m, (t.region cl r).held = true ∧ q r (t.region cl r) := by
    constructor
    · rintro ⟨r, hr, hq⟩
      obtain hr | hr := List.mem_append.1 hr
      · exact .inl ⟨r, hr, hq⟩
      · exact .inr ⟨r, hr, by rwa [same hr]⟩
    · rintro (⟨r, hr, hq⟩ | ⟨r, hr, hq⟩)
      · exact ⟨r, List.mem_append_left _ hr, hq⟩
      · exact ⟨r, List.mem_append_right _ hr, by rwa [same hr] at hq⟩
  refine ⟨⟨fun r => ?_, fun n => ?_, fun p => ?_, fun p => (g.halts.inputs p).trans (h.halts.inputs p)⟩, h.fabric.trans g.fabric,
    fun j => (g.ctxs j).trans (h.ctxs j)⟩
  · rw [g.halts.regions]
    by_cases hm : r ∈ m
    · rw [same hm]; dsimp only; rw [if_pos hm, if_pos (List.mem_append_right _ hm)]
    · dsimp only
      rw [if_neg hm, h.halts.regions]
      simp only [List.mem_append, hm, or_false]
  · rw [g.halts.banks, h.halts.banks]
    have split := either (q := fun _ x => n ∈ x.els.map x.bankNo)
    by_cases first : ∃ r ∈ l, (s.region cl r).held = true ∧ n ∈ (s.region cl r).els.map (s.region cl r).bankNo
    · rw [if_pos first, if_pos (split.2 (.inl first)), ite_self]
    · rw [if_neg first]; exact if_congr ⟨fun h => split.2 (.inr h), fun h => (split.1 h).resolve_left first⟩ rfl rfl
  · rw [g.halts.outputs, h.halts.outputs]
    simp only [List.map_map]
    refine congrArg (fun l => { s.outPort cl p with held := l }) (List.map_congr_left fun y _ => ?_)
    have split := either (q := fun r _ => y.rid = some r)
    dsimp only [Function.comp]
    by_cases first : ∃ r ∈ l, (s.region cl r).held = true ∧ y.rid = some r
    · simp only [if_pos first, if_pos (split.2 (.inl first))]; exact if_neg (by simp)
    · simp only [if_neg first]; exact if_congr ⟨fun h => split.2 (.inr h), fun h => (split.1 h).resolve_left first⟩ rfl rfl

/-- The same regions in another list. -/
theorem HaltsOnly.congr {l m : List Nat} (h : HaltsOnly s t cl l) (e : ∀ r, r ∈ l ↔ r ∈ m) : HaltsOnly s t cl m := by
  refine ⟨⟨fun r => ?_, fun n => ?_, fun p => ?_, h.halts.inputs⟩, h.fabric, h.ctxs⟩
  · rw [h.halts.regions]; simp only [e]
  · rw [h.halts.banks]; simp only [e]
  · rw [h.halts.outputs]; simp only [e]

/-! ### The ends of final tiles (R276) -/

/-- The output ports of a list, those that are bound. -/
def State.closeAll (s : State) (cl : Nat) (l : List Nat) : State :=
  l.foldl (fun s p => if (s.outPort cl p).bound.isSome then s.updOut cl p fun x => { x with closing := true } else s) s

theorem closePorts_eq (s : State) (cl : Nat) (t : Take) : s.closePorts cl t = s.closeAll cl (t.outPorts cl) := rfl

/-- Only output ports of the cluster differ. -/
structure OnlyOuts (s t : State) (cl : Nat) : Prop where
  fabric  : OnlyFabric s t cl
  regions : ∀ r, t.region cl r = s.region cl r
  banks   : ∀ n, t.bank cl n = s.bank cl n
  inputs  : ∀ p, t.inPort cl p = s.inPort cl p
  ctxs    : ∀ j, t.ctx cl j = s.ctx cl j

theorem onlyOuts_refl (s : State) (cl : Nat) : OnlyOuts s s cl := ⟨.refl cl, fun _ => rfl, fun _ => rfl, fun _ => rfl, fun _ => rfl⟩

theorem closeAll_cons (s : State) (cl p : Nat) (l : List Nat) : s.closeAll cl (p :: l) =
    (if (s.outPort cl p).bound.isSome then s.updOut cl p fun x => { x with closing := true } else s).closeAll cl l := rfl

theorem onlyOuts_closeAll (l : List Nat) (s : State) : OnlyOuts s (s.closeAll cl l) cl := by
  induction l generalizing s with
  | nil => exact onlyOuts_refl s cl
  | cons p l ih =>
    rw [closeAll_cons]
    split
    · have rest := ih (s.updOut cl p fun x => { x with closing := true })
      have port := onlyPort_updOut s cl p fun x => { x with closing := true }
      exact ⟨port.fabric.trans rest.fabric, fun r => (rest.regions r).trans (port.regions r), fun n => (rest.banks n).trans (port.banks n),
        fun q => (rest.inputs q).trans (port.in_eq q), fun j => (rest.ctxs j).trans (port.contexts j)⟩
    · exact ih s

theorem outPort_closeAll (l : List Nat) (s : State) (p : Nat) : (s.closeAll cl l).outPort cl p =
    if p ∈ l ∧ (s.outPort cl p).bound.isSome then { s.outPort cl p with closing := true } else s.outPort cl p := by
  induction l generalizing s with
  | nil => exact (if_neg (by simp)).symm
  | cons q l ih =>
    rw [closeAll_cons, ih]
    by_cases bound : (s.outPort cl q).bound.isSome = true
    · rw [if_pos bound, State.outPort_updOut]
      by_cases e : p = q
      · subst e; simp [bound]
      · simp [e]
    · rw [if_neg bound]
      by_cases e : p = q
      · subst e; simp [bound]
      · simp [e]

end
end Sys2Proof.Machine
end

section
/-! PROOFS. Splices (O20): the regions that a SPLICE halts and suspends. -/

namespace Sys2Proof.Machine

section
variable {s t u : State} {cl : Nat}

/-! ### A fold over the regions of a take -/

theorem regionsOf_eq (s : State) (cl take : Nat) : s.regionsOf cl take = ((List.range 64).filter fun r =>
    (s.region cl r).take == take && (s.region cl r).rstate != .idle).map fun r => (r, s.region cl r) := by
  rw [State.regionsOf, List.filter_map]; rfl

/-- The numbers of the regions of a take on a cluster. -/
def State.ridsOf (s : State) (cl take : Nat) : List Nat :=
  (List.range 64).filter fun r => (s.region cl r).take == take && (s.region cl r).rstate != .idle

theorem mem_ridsOf {take r : Nat} : r ∈ s.ridsOf cl take ↔ r < 64 ∧ (s.region cl r).take = take ∧ (s.region cl r).rstate ≠ .idle := by
  simp [State.ridsOf]

theorem nodup_ridsOf (take : Nat) : (s.ridsOf cl take).Nodup := List.nodup_range.filter _

/-- Regions of a cluster that change one by one, region `r` as `P` says; with them only the fabric differs, and of the
contexts and of what output ports are bound to nothing. -/
structure RegionsBecome (s t : State) (cl : Nat) (l : List Nat) (P : Region → Region → Prop) : Prop where
  inside : ∀ r ∈ l, P (s.region cl r) (t.region cl r)
  others : ∀ r, r ∉ l → t.region cl r = s.region cl r
  closed : ∀ p, (t.outPort cl p).closing = (s.outPort cl p).closing
  bound  : ∀ p, (t.outPort cl p).bound = (s.outPort cl p).bound
  ctxs   : ∀ j, t.ctx cl j = s.ctx cl j
  fabric : OnlyFabric s t cl

/-- A fold whose steps each change their own region. -/
theorem regionsBecome_foldl {P : Region → Region → Prop} (step : State → Nat × Region → State)
    (h : ∀ s r, (s.region cl r).rstate ≠ .idle → RegionsBecome s (step s (r, s.region cl r)) cl [r] P) (l : List Nat) (s : State)
    (nodup : l.Nodup) (live : ∀ r ∈ l, (s.region cl r).rstate ≠ .idle) :
    RegionsBecome s ((l.map fun r => (r, s.region cl r)).foldl step s) cl l P := by
  induction l generalizing s with
  | nil => exact ⟨fun r hr => absurd hr List.not_mem_nil, fun _ _ => rfl, fun _ => rfl, fun _ => rfl, fun _ => rfl, .refl cl⟩
  | cons r l ih =>
    obtain ⟨out, nodup⟩ := List.nodup_cons.1 nodup
    have first := h s r (live r List.mem_cons_self)
    have same {q : Nat} (hq : q ∈ l) : (step s (r, s.region cl r)).region cl q = s.region cl q :=
      first.others q fun e => out (List.mem_singleton.1 e ▸ hq)
    have entries : l.map (fun q => (q, s.region cl q)) = l.map fun q => (q, (step s (r, s.region cl r)).region cl q) :=
      List.map_congr_left fun q hq => by rw [same hq]
    have rest := ih (step s (r, s.region cl r)) nodup fun q hq => by rw [same hq]; exact live q (List.mem_cons_of_mem _ hq)
    rw [← entries] at rest
    rw [List.map_cons, List.foldl_cons]
    refine ⟨fun q hq => ?_, fun q hq => ?_, fun p => (rest.closed p).trans (first.closed p), fun p => (rest.bound p).trans (first.bound p),
      fun j => (rest.ctxs j).trans (first.ctxs j), first.fabric.trans rest.fabric⟩
    · obtain rfl | hq := List.mem_cons.1 hq
      · rw [rest.others _ out]; exact first.inside _ (List.mem_singleton.2 rfl)
      · rw [← same hq]; exact rest.inside q hq
    · rw [rest.others q fun h => hq (List.mem_cons_of_mem _ h), first.others q fun h => hq (List.mem_singleton.1 h ▸ List.mem_cons_self)]

/-! ### SPLICE (R187) -/

/-- What SPLICE makes of a region: one that continues is suspended, any other is asked to halt. -/
def splicedInto (nx : Scene) (g v : Region) : Prop :=
  ((nx.slate.continues g.rix).isSome → v.suspended = true ∧ v.rstate = g.rstate ∧ v.cnt = g.cnt ∧ v.iter = g.iter) ∧
  (nx.slate.continues g.rix = none → v = if g.rstate = .halted then g
    else if g.held then { g with rstate := .halted, arb := 0 } else { g with halting := true })

/-- A region after a restart point with shadow `sh` (R334). -/
def Region.checkpoint (g : Region) (sh : Table Bank) : Region :=
  { g with shadow := sh, rstamp := g.cnt, riter := g.iter, overAgain := false, lostOnce := false }

/-- A restart point changes the region, windows of input ports, and whether tokens are committable. -/
theorem restartPoint_eq (s : State) (cl r : Nat) : ∃ (sh : Table Bank) (inp : Table InPort → Table InPort), s.restartPoint cl r =
    ((s.updRegion cl r fun g => g.checkpoint sh).updCluster cl fun c => { c with inp := inp c.inp }).releaseTokens cl r :=
  ⟨_, _, rfl⟩

theorem regionsBecome_restartPoint (s : State) (cl r : Nat) :
    RegionsBecome s (s.restartPoint cl r) cl [r] fun g v => ∃ sh, v = g.checkpoint sh := by
  obtain ⟨sh, inp, eq⟩ := restartPoint_eq s cl r
  rw [eq]
  set a := s.updRegion cl r fun g => g.checkpoint sh
  set b := a.updCluster cl fun c => { c with inp := inp c.inp }
  have region (j : Nat) : (b.releaseTokens cl r).region cl j = if j = r then (s.region cl r).checkpoint sh else s.region cl j := by
    refine ((State.region_updCluster _ rfl cl j).trans (State.region_updCluster _ rfl cl j)).trans ?_
    rw [State.region_updRegion]; simp
  have port (p : Nat) : b.outPort cl p = s.outPort cl p := (State.outPort_updCluster _ rfl cl p).trans (s.outPort_updRegion _)
  have inputs : OnlyFabric a b cl := onlyFabric_updCluster a cl fun _ => rfl
  refine ⟨fun q hq => ⟨sh, ?_⟩, fun q hq => ?_, fun p => ?_, fun p => ?_, fun j => ?_,
    ((onlyFabric_updRegion s cl r _).trans inputs).trans (onlyFabric_releaseTokens b cl r)⟩
  · rw [List.mem_singleton.1 hq, region, if_pos rfl]
  · rw [region, if_neg fun e => hq (List.mem_singleton.2 e)]
  · rw [outPort_releaseTokens, port]
  · rw [outPort_releaseTokens, port]
  · exact ((State.ctx_updCluster _ rfl cl j).trans (State.ctx_updCluster _ rfl cl j)).trans (s.ctx_updRegion _)

theorem regionsBecome_updRegion (s : State) (cl r : Nat) (f : Region → Region) :
    RegionsBecome s (s.updRegion cl r f) cl [r] fun g v => v = f g := by
  refine ⟨fun q hq => ?_, fun q hq => ?_, fun p => ?_, fun p => ?_, fun j => s.ctx_updRegion _, onlyFabric_updRegion s cl r _⟩
  · rw [List.mem_singleton.1 hq, State.region_updRegion, if_pos ⟨rfl, rfl⟩]
  · rw [State.region_updRegion, if_neg fun e => hq (List.mem_singleton.2 e.2)]
  all_goals rw [State.outPort_updRegion]

/-- Two changes of the same regions. -/
theorem RegionsBecome.then {l : List Nat} {P Q R : Region → Region → Prop} (h : RegionsBecome s t cl l P) (g : RegionsBecome t u cl l Q)
    (e : ∀ a b c, P a b → Q b c → R a c) : RegionsBecome s u cl l R where
  inside r hr := e _ _ _ (h.inside r hr) (g.inside r hr)
  others r hr := (g.others r hr).trans (h.others r hr)
  closed p := (g.closed p).trans (h.closed p)
  bound p := (g.bound p).trans (h.bound p)
  ctxs j := (g.ctxs j).trans (h.ctxs j)
  fabric := h.fabric.trans g.fabric

theorem RegionsBecome.imp {l : List Nat} {P Q : Region → Region → Prop} (h : RegionsBecome s t cl l P)
    (e : ∀ r ∈ l, ∀ v, P (s.region cl r) v → Q (s.region cl r) v) : RegionsBecome s t cl l Q :=
  { h with inside := fun r hr => e r hr _ (h.inside r hr) }

theorem regionsBecome_suspendRegion (s : State) (cl r : Nat) : RegionsBecome s (s.suspendRegion cl r) cl [r] fun g v =>
    v.suspended = true ∧ v.rstate = g.rstate ∧ v.cnt = g.cnt ∧ v.iter = g.iter := by
  unfold State.suspendRegion
  split
  · refine (regionsBecome_restartPoint s cl r).then (regionsBecome_updRegion _ cl r _) ?_
    rintro g _ _ ⟨sh, rfl⟩ rfl
    exact ⟨rfl, rfl, rfl, rfl⟩
  · refine (regionsBecome_updRegion s cl r _).imp ?_
    rintro q hq _ rfl
    exact ⟨rfl, rfl, rfl, rfl⟩

/-- A region's halt, as a change of that region. -/
theorem regionsBecome_askHalt {r : Nat} (live : (s.region cl r).rstate ≠ .idle) : RegionsBecome s (s.askHalt cl r) cl [r] fun g v =>
    v = if g.rstate = .halted then g else if g.held then { g with rstate := .halted, arb := 0 } else { g with halting := true } := by
  have ports {w : State} {l : List Nat} (h : HaltsOnly s w cl l) (p : Nat) :
      (w.outPort cl p).closing = (s.outPort cl p).closing ∧ (w.outPort cl p).bound = (s.outPort cl p).bound := by
    rw [h.halts.outputs]; exact ⟨rfl, rfl⟩
  by_cases halted : (s.region cl r).rstate = .halted
  · have h := haltsOnly_askHalt_halted halted
    have same (q : Nat) : (s.askHalt cl r).region cl q = s.region cl q := (h.halts.regions q).trans (if_neg List.not_mem_nil)
    refine ⟨fun q hq => ?_, fun q _ => same q, fun p => (ports h p).1, fun p => (ports h p).2, h.ctxs, h.fabric⟩
    rw [same, List.mem_singleton.1 hq, if_pos halted]
  · have h := haltsOnly_askHalt halted live
    refine ⟨fun q hq => ?_, fun q hq => (h.halts.regions q).trans (if_neg hq), fun p => (ports h p).1, fun p => (ports h p).2, h.ctxs,
      h.fabric⟩
    refine ((h.halts.regions q).trans (if_pos hq)).trans ?_
    rw [List.mem_singleton.1 hq, if_neg halted]

/-- What SPLICE does to one region. -/
def State.spliceStop (nx : Scene) (cl : Nat) (s : State) (x : Nat × Region) : State :=
  if (nx.slate.continues x.2.rix).isSome then s.suspendRegion cl x.1 else s.askHalt cl x.1

theorem regionsBecome_spliceStop (nx : Scene) {r : Nat} (live : (s.region cl r).rstate ≠ .idle) :
    RegionsBecome s (s.spliceStop nx cl (r, s.region cl r)) cl [r] (splicedInto nx) := by
  unfold State.spliceStop
  dsimp only
  split
  next goes =>
    refine (regionsBecome_suspendRegion s cl r).imp fun q hq v h => ⟨fun _ => h, fun none => ?_⟩
    rw [List.mem_singleton.1 hq] at none
    rw [none] at goes; cases goes
  next ends =>
    refine (regionsBecome_askHalt live).imp fun q hq v h => ⟨fun goes => absurd ?_ ends, fun _ => h⟩
    rwa [List.mem_singleton.1 hq] at goes

theorem regionsBecome_splice (nx : Scene) (s : State) (cl take : Nat) :
    RegionsBecome s ((s.regionsOf cl take).foldl (State.spliceStop nx cl) s) cl (s.ridsOf cl take) (splicedInto nx) := by
  rw [regionsOf_eq]
  exact regionsBecome_foldl _ (fun _ _ live => regionsBecome_spliceStop nx live) _ s (nodup_ridsOf take) fun r hr => (mem_ridsOf.1 hr).2.2

theorem foldl_congr_step {α β : Type} {f g : β → α → β} (P : β → Prop) (keep : ∀ b a, P b → P (g b a)) (e : ∀ b a, P b → f b a = g b a)
    (l : List α) {b : β} (hb : P b) : l.foldl f b = l.foldl g b := by
  induction l generalizing b with
  | nil => rfl
  | cons a l ih => rw [List.foldl_cons, List.foldl_cons, e b a hb]; exact ih (keep b a hb)

theorem exec_splice {t : Take} {nx : Scene} (ht : s.myTake = some t) (hn : t.nextScene = some nx) : exec .splice s =
    .next ((((s.regionsOf s.curCl t.id).foldl (State.spliceStop nx s.curCl) s).closePorts s.curCl t).onMe fun c =>
      { c with stall := some .splice }) := by
  have cur (u : State) (x : Nat × Region) (h : u.curCl = s.curCl) : (u.spliceStop nx s.curCl x).curCl = s.curCl := by
    unfold State.spliceStop
    split
    · exact (regionsBecome_suspendRegion u s.curCl x.1).fabric.curCl.trans h
    · have same := congrArg State.curCl (onlyCluster_askHalt u s.curCl x.1).package.rest
      exact Eq.trans (b := u.curCl) same h
  change execSplice s = _
  simp only [execSplice, ht, hn]
  rw [foldl_congr_step (fun u => u.curCl = s.curCl) cur (fun u x h => by rw [← h]; rfl) _ rfl]

theorem exec_splice_last {t : Take} (ht : s.myTake = some t) (hn : t.nextScene = none) :
    exec .splice s = .next (s.trap codeSpliceLast 0) := by
  change execSplice s = _
  simp only [execSplice, ht, hn]

end

/-! ### The scene switch of one cluster (R187, R188) -/

section
variable {s t u : State} {cl : Nat}

/-- Only cluster `cl` differs, and of its contexts only handles; its failed banks are the same. -/
structure SceneLoads (s t : State) (cl : Nat) : Prop where
  rest   : { t with clusters := s.clusters } = s
  others : ∀ j, j ≠ cl → t.cluster j = s.cluster j
  vbfail : (t.cluster cl).vbfail = (s.cluster cl).vbfail
  ctxs   : ∀ k, ∃ h, t.ctx cl k = { s.ctx cl k with h := h }

theorem SceneLoads.refl (s : State) (cl : Nat) : SceneLoads s s cl := ⟨rfl, fun _ _ => rfl, rfl, fun _ => ⟨_, rfl⟩⟩

theorem SceneLoads.trans (h : SceneLoads s t cl) (g : SceneLoads t u cl) : SceneLoads s u cl where
  rest := by
    have first := h.rest
    rw [← g.rest] at first; exact first
  others j hj := (g.others j hj).trans (h.others j hj)
  vbfail := g.vbfail.trans h.vbfail
  ctxs k := by
    obtain ⟨a, ha⟩ := h.ctxs k
    obtain ⟨b, hb⟩ := g.ctxs k
    exact ⟨b, by rw [hb, ha]⟩

/-- An update that keeps contexts and failed banks. -/
theorem sceneLoads_updCluster (s : State) (cl : Nat) (f : Cluster → Cluster) (hc : ∀ c, (f c).ctx = c.ctx) (hv : ∀ c, (f c).vbfail = c.vbfail) :
    SceneLoads s (s.updCluster cl f) cl where
  rest := rfl
  others j hj := State.cluster_updCluster_other s hj f
  vbfail := by rw [State.cluster_updCluster_same]; exact hv _
  ctxs k := ⟨_, s.ctx_updCluster (hc _) cl k⟩

theorem sceneLoads_updIn (s : State) (cl q : Nat) (f : InPort → InPort) : SceneLoads s (s.updIn cl q f) cl :=
  sceneLoads_updCluster s cl _ (fun _ => rfl) fun _ => rfl
theorem sceneLoads_updOut (s : State) (cl q : Nat) (f : OutPort → OutPort) : SceneLoads s (s.updOut cl q f) cl :=
  sceneLoads_updCluster s cl _ (fun _ => rfl) fun _ => rfl
theorem sceneLoads_updRegion (s : State) (cl r : Nat) (f : Region → Region) : SceneLoads s (s.updRegion cl r f) cl :=
  sceneLoads_updCluster s cl _ (fun _ => rfl) fun _ => rfl

theorem sceneLoads_handles (s : State) (cl k : Nat) (f : Vector Handle 16 → Vector Handle 16) :
    SceneLoads s (s.updCtx cl k fun c => { c with h := f c.h }) cl where
  rest := rfl
  others j hj := State.cluster_updCluster_other s hj _
  vbfail := by rw [State.updCtx, State.cluster_updCluster_same]
  ctxs j := by
    rw [State.ctx_updCtx]
    split
    next e => exact ⟨_, by rw [e.2]⟩
    next => exact ⟨_, rfl⟩

theorem sceneLoads_foldl {α : Type} (f : State → α → State) (h : ∀ s x, SceneLoads s (f s x) cl) (l : List α) (s : State) :
    SceneLoads s (l.foldl f s) cl := by
  induction l generalizing s with
  | nil => exact .refl s cl
  | cons x l ih => exact (h s x).trans (ih _)

theorem sceneLoads_endBindings (s : State) (t : Take) (p : Place) (nx : Scene) : SceneLoads s (s.endBindings t p nx) p.cl := by
  refine .trans (sceneLoads_foldl _ (fun s q => ?_) _ s) (sceneLoads_foldl _ (fun s q => ?_) _ _)
  · split
    · split
      · exact .refl s _
      · exact (sceneLoads_updIn s p.cl q _).trans (sceneLoads_handles (s.updIn p.cl q InPort.cleared) p.cl _ _)
    · exact .refl s _
  · split
    · split
      · exact sceneLoads_updOut s p.cl q _
      · exact (sceneLoads_updOut s p.cl q _).trans (sceneLoads_handles (s.updOut p.cl q OutPort.cleared) p.cl _ _)
    · exact .refl s _

theorem sceneLoads_loadRegion (s : State) (cl : Nat) (t : Take) (lc : Nat) (p : Spot) : SceneLoads s (s.loadRegion cl t lc p) cl := by
  unfold State.loadRegion
  split
  · exact .refl s cl
  · dsimp only
    exact SceneLoads.trans (sceneLoads_updRegion s cl p.rid fun _ => _) (sceneLoads_updCluster _ cl _ (fun _ => rfl) fun _ => rfl)

theorem sceneLoads_loadRegions (s : State) (t : Take) (p : Place) (n : Nat) : SceneLoads s (s.loadRegions t p n) p.cl := by
  unfold State.loadRegions
  split
  · exact .refl s _
  · refine .trans (sceneLoads_foldl _ (fun s x => ?_) _ s) (sceneLoads_foldl _ (fun s x => sceneLoads_loadRegion s _ t p.lc x) _ _)
    split
    · exact sceneLoads_updRegion s p.cl x.1 _
    · exact sceneLoads_updCluster s _ _ (fun _ => rfl) fun _ => rfl

theorem sceneLoads_renewConsumers (s : State) (cl : Nat) (t : Take) : SceneLoads s (s.renewConsumers cl t) cl :=
  sceneLoads_updCluster s cl _ (fun _ => rfl) fun _ => rfl

/-- The cluster with its bindings, regions and consumers switched; its context and its code are still the old ones. -/
def State.switchFabric (s : State) (t : Take) (nx : Scene) (p : Place) : State :=
  ((s.endBindings t p nx).loadRegions t p (t.scene + 1)).renewConsumers p.cl { t with scene := t.scene + 1 }

/-- A context goes on at the entry of a scene. -/
def CueCtx.enter (c : CueCtx) (nx : Scene) : CueCtx := { c with stall := none, pc := nx.entry, vbin := nx.slate.vbin }

theorem switchScene_eq (s : State) (t : Take) (nx : Scene) (p : Place) : s.switchScene t nx p =
    ((s.switchFabric t nx p).updCtx p.cl p.k fun c => c.enter nx).loadSection p.cl p.k t nx := rfl

theorem sceneLoads_switchFabric (s : State) (t : Take) (nx : Scene) (p : Place) : SceneLoads s (s.switchFabric t nx p) p.cl :=
  ((sceneLoads_endBindings s t p nx).trans (sceneLoads_loadRegions _ t p _)).trans (sceneLoads_renewConsumers _ _ _)

/-! ### The code of the section (R188) -/

/-- Two states whose reads of memory meet the same errors, at the same places. -/
structure SameErrors (s t : State) : Prop where
  errs   : t.errs = s.errs
  hid    : t.hid = s.hid
  fns    : t.fns = s.fns
  vbfail : ∀ c, (t.cluster c).vbfail = (s.cluster c).vbfail

theorem SameErrors.refl (s : State) : SameErrors s s := ⟨rfl, rfl, rfl, fun _ => rfl⟩
theorem SameErrors.trans (h : SameErrors s t) (g : SameErrors t u) : SameErrors s u :=
  ⟨g.errs.trans h.errs, g.hid.trans h.hid, g.fns.trans h.fns, fun c => (g.vbfail c).trans (h.vbfail c)⟩

theorem SameErrors.erased (h : SameErrors s t) : t.erased = s.erased := by
  funext cl stripe j w
  unfold State.erased State.bankFailed State.err
  rw [h.vbfail, h.errs]

theorem SameErrors.readBad (h : SameErrors s t) (a n : Nat) : t.readBad a n = s.readBad a n := by
  unfold State.readBad State.stripeBad State.rebuilds State.symErr
  rw [h.erased, h.hid]
  unfold State.err
  rw [h.errs]

theorem SameErrors.readCorrects (h : SameErrors s t) (a n : Nat) : t.readCorrects a n = s.readCorrects a n := by
  unfold State.readCorrects State.goneSlices
  rw [h.erased]
  unfold State.err
  rw [h.errs]

theorem SameErrors.refRuns (h : SameErrors s t) (f : Nat) (r : Word) (off n : Nat) : t.refRuns f r off n = s.refRuns f r off n := by
  unfold State.refRuns State.fn
  rw [h.fns]

theorem SceneLoads.errors (h : SceneLoads s t cl) : SameErrors s t := by
  have errs := congrArg State.errs h.rest
  have hid := congrArg State.hid h.rest
  have fns := congrArg State.fns h.rest
  refine ⟨errs, hid, fns, fun c => ?_⟩
  by_cases e : c = cl
  · rw [e, h.vbfail]
  · rw [h.others c e]

/-- The runs of memory that the load of a section reads. -/
def sectionRuns (s : State) (cl k : Nat) (t : Take) (sc : Scene) : List (Nat × Nat) :=
  s.refRuns t.fn t.reel.ref sc.cueOff (min sc.cueLen (s.ctx cl k).wsize)

/-- Reads that meet no error and correct none. -/
def CleanRuns (s : State) (l : List (Nat × Nat)) : Prop := ∀ x ∈ l, s.readBad x.1 x.2 = false ∧ s.readCorrects x.1 x.2 = false

theorem SameErrors.cleanRuns (h : SameErrors s t) {l : List (Nat × Nat)} (c : CleanRuns s l) : CleanRuns t l := fun x hx => by
  rw [h.readBad, h.readCorrects]; exact c x hx

theorem readRuns_clean {l : List (Nat × Nat)} (h : CleanRuns s l) (cl take : Nat) :
    s.readRuns l cl take = (s, some (l.flatMap fun x => s.peek x.1 x.2)) := by
  have good : (l.find? fun x => s.readBad x.1 x.2) = none := List.find?_eq_none.2 fun x hx => by rw [(h x hx).1]; exact Bool.false_ne_true
  have plain (m : List (Nat × Nat)) (hm : ∀ x ∈ m, x ∈ l) : m.foldl (fun s x => s.noteRead x.1 x.2) s = s := by
    induction m with
    | nil => rfl
    | cons x m ih =>
      have : s.noteRead x.1 x.2 = s := by rw [State.noteRead, (h x (hm x List.mem_cons_self)).2]; rfl
      rw [List.foldl_cons, this, ih fun y hy => hm y (List.mem_cons_of_mem x hy)]
  rw [State.readRuns, good]
  dsimp only
  rw [plain l fun _ hx => hx]

theorem sameContexts_readRuns (s : State) (l : List (Nat × Nat)) (cl take : Nat) :
    SameContexts s (s.readRuns l cl take).1 ∧ (s.readRuns l cl take).1.takes = s.takes := by
  unfold State.readRuns
  split
  · exact ⟨sameContexts_uncorrectable s _ _ cl take, State.uncorrectable_takes s _ _ cl take⟩
  · clear * -
    induction l generalizing s with
    | nil => exact ⟨.refl s, rfl⟩
    | cons x l ih =>
      have takes : (s.noteRead x.1 x.2).takes = s.takes := by have h := congrArg State.takes (s.noteRead_rest x.1 x.2); exact h
      exact ⟨(sameContexts_noteRead s _ _).trans (ih _).1, (ih _).2.trans takes⟩

/-- An update of a cluster that keeps the contexts. -/
theorem sameContexts_updCluster (s : State) (cl : Nat) (f : Cluster → Cluster) (hc : ∀ c, (f c).ctx = c.ctx) :
    SameContexts s (s.updCluster cl f) := ⟨rfl, rfl, fun c k => ⟨_, s.ctx_updCluster (hc _) c k⟩⟩

theorem sameContexts_loadCode (s : State) (cl : Nat) (t : Take) (off a n : Nat) (ok : Bool) :
    SameContexts s (s.loadCode cl t off a n ok).1 ∧ (s.loadCode cl t off a n ok).1.takes = s.takes := by
  have read := sameContexts_readRuns s (s.refRuns t.fn t.reel.ref off n) cl t.id
  unfold State.loadCode State.refRead
  split
  next w b e =>
    rw [e] at read
    split
    · exact ⟨read.1.trans (sameContexts_updCluster w cl _ fun _ => rfl), read.2⟩
    · exact ⟨read.1.trans (sameContexts_updCluster w cl _ fun _ => rfl), read.2⟩
  next w e =>
    rw [e] at read
    exact ⟨read.1.trans (sameContexts_updCluster w cl _ fun _ => rfl), read.2⟩

theorem sceneLoads_loadCode {t : Take} {off n : Nat} (h : CleanRuns s (s.refRuns t.fn t.reel.ref off n)) (cl a : Nat) (ok : Bool) :
    SceneLoads s (s.loadCode cl t off a n ok).1 cl := by
  rw [State.loadCode, State.refRead, readRuns_clean h]
  dsimp only
  split
  · exact sceneLoads_updCluster s cl _ (fun _ => rfl) fun _ => rfl
  · exact sceneLoads_updCluster s cl _ (fun _ => rfl) fun _ => rfl

/-- The lines that no section or overlay fills become invalid, and the section is read. -/
theorem loadSection_eq (s : State) (cl k : Nat) (t : Take) (sc : Scene) : ∃ w a, (w = s ∨ ∃ first n, w = s.updCluster cl fun c =>
    c.setLines first n .invalid) ∧ s.loadSection cl k t sc = (w.loadCode cl t sc.cueOff a (min sc.cueLen (s.ctx cl k).wsize) true).1 := by
  refine ⟨_, _, ?_, rfl⟩
  split
  · exact .inr ⟨_, _, rfl⟩
  · exact .inl rfl

theorem sceneLoads_setLines (s : State) (cl first n : Nat) (st : LineSt) : SceneLoads s (s.updCluster cl fun c => c.setLines first n st) cl :=
  sceneLoads_updCluster s cl _ (fun _ => rfl) fun _ => rfl

theorem sameContexts_loadSection (s : State) (cl k : Nat) (t : Take) (sc : Scene) :
    SameContexts s (s.loadSection cl k t sc) ∧ (s.loadSection cl k t sc).takes = s.takes := by
  obtain ⟨w, a, hw, eq⟩ := loadSection_eq s cl k t sc
  have code := sameContexts_loadCode w cl t sc.cueOff a (min sc.cueLen (s.ctx cl k).wsize) true
  rw [eq]
  obtain rfl | ⟨first, n, rfl⟩ := hw
  · exact code
  · exact ⟨(sameContexts_updCluster s cl (fun c => c.setLines first n .invalid) fun _ => rfl).trans code.1, code.2⟩

theorem sceneLoads_loadSection {t : Take} {sc : Scene} {k : Nat} (h : CleanRuns s (sectionRuns s cl k t sc)) :
    SceneLoads s (s.loadSection cl k t sc) cl := by
  obtain ⟨w, a, hw, eq⟩ := loadSection_eq s cl k t sc
  rw [eq]
  obtain rfl | ⟨first, n, rfl⟩ := hw
  · exact sceneLoads_loadCode h cl a true
  · have lines := sceneLoads_setLines s cl first n .invalid
    refine lines.trans (sceneLoads_loadCode ?_ cl a true)
    rw [lines.errors.refRuns]
    exact lines.errors.cleanRuns h

/-! ### The switch of all clusters (R187) -/

/-- The context has gone on at the entry of the scene. -/
def CueCtx.entered (nx : Scene) (c : CueCtx) : Prop := c.pc = nx.entry ∧ c.stall = none ∧ c.vbin = nx.slate.vbin

/-- Contexts keep their registers, and those that have entered the scene stay so; the takes are as before. -/
structure Switching (nx : Scene) (s t : State) : Prop where
  takes : t.takes = s.takes
  keeps : ∀ c k, (t.ctx c k).s = (s.ctx c k).s ∧ (t.ctx c k).p = (s.ctx c k).p ∧ (t.ctx c k).kstate = (s.ctx c k).kstate
  stays : ∀ c k, (s.ctx c k).entered nx → (t.ctx c k).entered nx

theorem Switching.refl (nx : Scene) (s : State) : Switching nx s s := ⟨rfl, fun _ _ => ⟨rfl, rfl, rfl⟩, fun _ _ h => h⟩
theorem Switching.trans {nx : Scene} (h : Switching nx s t) (g : Switching nx t u) : Switching nx s u where
  takes := g.takes.trans h.takes
  keeps c k := by rw [(g.keeps c k).1, (g.keeps c k).2.1, (g.keeps c k).2.2]; exact h.keeps c k
  stays c k e := g.stays c k (h.stays c k e)

/-- Contexts that differ in handles and monitors alone. -/
theorem switching_of_ctx {nx : Scene} (takes : t.takes = s.takes) (h : ∀ c k, ∃ hd m, t.ctx c k = { s.ctx c k with h := hd, mon := m }) :
    Switching nx s t where
  takes := takes
  keeps c k := by obtain ⟨hd, m, e⟩ := h c k; rw [e]; exact ⟨rfl, rfl, rfl⟩
  stays c k i := by obtain ⟨hd, m, e⟩ := h c k; rw [e]; exact i

theorem SceneLoads.ctx_all (h : SceneLoads s t cl) (c k : Nat) : ∃ hd, t.ctx c k = { s.ctx c k with h := hd } := by
  by_cases e : c = cl
  · rw [e]; exact h.ctxs k
  · exact ⟨(s.ctx c k).h, by rw [State.ctx, h.others c e]; rfl⟩

theorem SceneLoads.switching {nx : Scene} (h : SceneLoads s t cl) : Switching nx s t :=
  switching_of_ctx (by have e := congrArg State.takes h.rest; exact e) fun c k => by
    obtain ⟨hd, e⟩ := h.ctx_all c k
    exact ⟨hd, (s.ctx c k).mon, by rw [e]⟩

theorem switching_enter (nx : Scene) (s : State) (cl k : Nat) : Switching nx s (s.updCtx cl k fun c => c.enter nx) where
  takes := rfl
  keeps c j := by
    rw [State.ctx_updCtx]; split
    next e => rw [e.1, e.2]; exact ⟨rfl, rfl, rfl⟩
    next => exact ⟨rfl, rfl, rfl⟩
  stays c j i := by
    rw [State.ctx_updCtx]; split
    · exact ⟨rfl, rfl, rfl⟩
    · exact i

theorem switching_switchScene (t : Take) (nx : Scene) (p : Place) (s : State) :
    Switching nx s (s.switchScene t nx p) ∧ ((s.switchScene t nx p).ctx p.cl p.k).entered nx := by
  rw [switchScene_eq]
  set w := (s.switchFabric t nx p).updCtx p.cl p.k fun c => c.enter nx with hw
  obtain ⟨same, takes⟩ := sameContexts_loadSection w p.cl p.k t nx
  have code : Switching nx w (w.loadSection p.cl p.k t nx) := switching_of_ctx takes fun c k => by
    obtain ⟨m, e⟩ := same.ctx c k
    exact ⟨(w.ctx c k).h, m, by rw [e]⟩
  have entered : (w.ctx p.cl p.k).entered nx := by rw [hw, State.ctx_updCtx_same]; exact ⟨rfl, rfl, rfl⟩
  exact ⟨((sceneLoads_switchFabric s t nx p).switching.trans (switching_enter nx _ p.cl p.k)).trans code, code.stays _ _ entered⟩

/-- The scene switch on a list of places. -/
def State.switchAll (s : State) (t : Take) (nx : Scene) (l : List Place) : State := l.foldl (fun s p => s.switchScene t nx p) s

theorem switching_switchAll (t : Take) (nx : Scene) (l : List Place) (s : State) :
    Switching nx s (s.switchAll t nx l) ∧ ∀ p ∈ l, ((s.switchAll t nx l).ctx p.cl p.k).entered nx := by
  induction l generalizing s with
  | nil => exact ⟨.refl nx s, fun p hp => absurd hp List.not_mem_nil⟩
  | cons q l ih =>
    obtain ⟨first, there⟩ := switching_switchScene t nx q s
    obtain ⟨rest, others⟩ := ih (s.switchScene t nx q)
    refine ⟨first.trans rest, fun p hp => ?_⟩
    obtain rfl | hp := List.mem_cons.1 hp
    · exact rest.stays _ _ there
    · exact others p hp

/-! ### The clusters that hold no place (R187) -/

/-- Only clusters on a list differ, reads meet the same errors, and the windows are the same. -/
structure LoadsOn (s t : State) (l : List Nat) : Prop where
  others : ∀ c, c ∉ l → t.cluster c = s.cluster c
  errors : SameErrors s t
  wsize  : ∀ c k, (t.ctx c k).wsize = (s.ctx c k).wsize

theorem LoadsOn.trans {l m : List Nat} (h : LoadsOn s t l) (g : LoadsOn t u m) : LoadsOn s u (l ++ m) where
  others c hc := (g.others c fun i => hc (List.mem_append_right _ i)).trans (h.others c fun i => hc (List.mem_append_left _ i))
  errors := h.errors.trans g.errors
  wsize c k := (g.wsize c k).trans (h.wsize c k)

theorem SceneLoads.loadsOn (h : SceneLoads s t cl) : LoadsOn s t [cl] where
  others c hc := h.others c fun e => hc (List.mem_singleton.2 e)
  errors := h.errors
  wsize c k := by obtain ⟨hd, e⟩ := h.ctx_all c k; rw [e]

theorem loadsOn_enter (nx : Scene) (s : State) (cl k : Nat) : LoadsOn s (s.updCtx cl k fun c => c.enter nx) [cl] where
  others c hc := State.cluster_updCluster_other s (fun e => hc (List.mem_singleton.2 e)) _
  errors := ⟨rfl, rfl, rfl, fun c => by rw [State.updCtx, State.cluster_updCluster]; split <;> simp_all⟩
  wsize c j := by
    rw [State.ctx_updCtx]; split
    next e => rw [e.1, e.2]; rfl
    next => rfl

theorem LoadsOn.sectionRuns {l : List Nat} (h : LoadsOn s t l) (cl k : Nat) (x : Take) (sc : Scene) :
    sectionRuns t cl k x sc = sectionRuns s cl k x sc := by
  unfold Machine.sectionRuns
  rw [h.wsize, h.errors.refRuns]

theorem loadsOn_switchScene {t : Take} {nx : Scene} {p : Place} (h : CleanRuns s (sectionRuns s p.cl p.k t nx)) :
    LoadsOn s (s.switchScene t nx p) [p.cl] := by
  rw [switchScene_eq]
  have fabric := (sceneLoads_switchFabric s t nx p).loadsOn.trans (loadsOn_enter nx _ p.cl p.k)
  have clean := fabric.errors.cleanRuns h
  rw [← fabric.sectionRuns] at clean
  have all := fabric.trans (sceneLoads_loadSection clean).loadsOn
  exact { all with others := fun c hc => all.others c fun i => hc (by simpa using i) }

theorem loadsOn_switchAll {t : Take} {nx : Scene} (l : List Place) (s : State) (h : ∀ p ∈ l, CleanRuns s (sectionRuns s p.cl p.k t nx)) :
    LoadsOn s (s.switchAll t nx l) (l.map (·.cl)) := by
  induction l generalizing s with
  | nil => exact ⟨fun _ _ => rfl, .refl s, fun _ _ => rfl⟩
  | cons q l ih =>
    have first := loadsOn_switchScene (h q List.mem_cons_self)
    refine first.trans (ih (s.switchScene t nx q) fun p hp => ?_)
    rw [first.sectionRuns]
    exact first.errors.cleanRuns (h p (List.mem_cons_of_mem q hp))

/-! ### The rails (R146) -/

/-- The contexts and the takes are as before. -/
structure SameCues (s t : State) : Prop where
  takes : t.takes = s.takes
  ctxs  : ∀ c, (t.cluster c).ctx = (s.cluster c).ctx

theorem SameCues.trans (h : SameCues s t) (g : SameCues t u) : SameCues s u :=
  ⟨g.takes.trans h.takes, fun c => (g.ctxs c).trans (h.ctxs c)⟩

theorem sameCues_raiseFloor (s old : State) (cl : Nat) (isNew : Region → Bool) : SameCues s (s.raiseFloor old cl isNew) := by
  unfold State.raiseFloor
  dsimp only
  split
  · refine ⟨rfl, fun c => ?_⟩
    rw [State.railWaits, State.cluster_updCluster]
    split
    next e => rw [e]; rfl
    next => rfl
  · exact ⟨rfl, fun _ => rfl⟩

theorem sameCues_raiseFloors {old : State} (isNew : Region → Bool) (l : List Place) (s : State) :
    SameCues s (l.foldl (fun n p => n.raiseFloor old p.cl isNew) s) := by
  induction l generalizing s with
  | nil => exact ⟨rfl, fun _ => rfl⟩
  | cons p l ih => exact (sameCues_raiseFloor s old p.cl isNew).trans (ih _)

theorem exec_spliceComplete {id : Nat} {t : Take} {nx : Scene} (ht : s.take? id = some t) (active : t.active = true)
    (hn : t.nextScene = some nx) (ready : ∀ p ∈ t.places, s.spliceReady t p = true ∧ (s.ctx p.cl p.k).aborts = []) :
    exec (.spliceComplete id) s = .next (t.places.foldl (fun n p => n.raiseFloor s p.cl fun g => g.take == t.id && g.rstate == .armed)
      ((s.switchAll t nx t.places).updTake id fun t => { t with scene := t.scene + 1 })) := by
  have quiet : (t.places.find? fun p => s.spliceReady t p && !(s.ctx p.cl p.k).aborts.isEmpty) = none :=
    List.find?_eq_none.2 fun p hp => by simp [(ready p hp).2]
  have all : (t.places.all fun p => s.spliceReady t p) = true := List.all_eq_true.2 fun p hp => (ready p hp).1
  change execSpliceComplete id s = _
  simp only [execSpliceComplete, ht, active, quiet, hn, all, Bool.not_true, Bool.false_eq_true, if_false, if_true]
  rfl

theorem take?_id {j : Nat} {x : Take} (h : s.take? j = some x) : x.id = j := by
  have := List.find?_some h
  exact beq_iff_eq.1 this

/-- A take's update, as lookups see it. -/
theorem take?_updTake {id : Nat} {f : Take → Take} (hf : ∀ x, (f x).id = x.id) (j : Nat) :
    (s.updTake id f).take? j = (s.take? j).map fun x => if x.id = id then f x else x := by
  rw [State.take?, State.updTake, List.find?_map]
  have : ((fun t : Take => t.id == j) ∘ fun t => if t.id = id then f t else t) = fun t => t.id == j := by
    funext t
    simp only [Function.comp]
    split
    · rw [hf]
    · rfl
  rw [this]; rfl

theorem take?_updTake_same {id : Nat} {t : Take} {f : Take → Take} (hf : ∀ x, (f x).id = x.id) (h : s.take? id = some t) :
    (s.updTake id f).take? id = some (f t) := by
  rw [take?_updTake hf, h, Option.map_some, if_pos (take?_id h)]
theorem take?_updTake_other {id j : Nat} {f : Take → Take} (hf : ∀ x, (f x).id = x.id) (h : j ≠ id) :
    (s.updTake id f).take? j = s.take? j := by
  rw [take?_updTake hf]
  cases e : s.take? j with
  | none => rfl
  | some x => rw [Option.map_some, if_neg fun i => h ((take?_id e).symm.trans i)]

end

/-- Settles O20: the regions that a SPLICE stops, one by one, and the switch of each cluster, which leaves the others alone. -/
theorem splices : Obligations.Splices := by
  refine ⟨fun s t ht => ?issue, fun s id t nx ht active hn ready => ?completes⟩
  case issue =>
    intro cl
    refine ⟨fun nx hn => ?_, fun last trap => ?_⟩
    · have stopped := regionsBecome_splice nx s cl t.id
      have closed := onlyOuts_closeAll (cl := cl) (t.outPorts cl) ((s.regionsOf cl t.id).foldl (State.spliceStop nx cl) s)
      have ports := outPort_closeAll (cl := cl) (t.outPorts cl) ((s.regionsOf cl t.id).foldl (State.spliceStop nx cl) s)
      rw [exec_splice ht hn, closePorts_eq]
      generalize (s.regionsOf cl t.id).foldl (State.spliceStop nx cl) s = y at *
      have fabric := stopped.fabric.trans closed.fabric
      have stalls := onlyPort_onMe (y.closeAll cl (t.outPorts cl)) false 0 fun c => { c with stall := some .splice }
      rw [fabric.curCl, fabric.curK] at stalls
      have region (r : Nat) := (stalls.regions r).trans (closed.regions r)
      refine Goes.next ⟨fun r => ?_, fun p => ?_, fun j => ?_, fabric.trans stalls.fabric⟩
      · intro g v mine
        have same : v = y.region cl r := region r
        rw [same]
        exact ⟨fun m => (stopped.inside r (mem_ridsOf.2 m)).1, fun m => (stopped.inside r (mem_ridsOf.2 m)).2,
          fun m => stopped.others r fun h => m (mem_ridsOf.1 h)⟩
      · refine (congrArg OutPort.closing ((stalls.out_eq p).trans (ports p))).trans ?_
        rw [stopped.bound]
        split
        next h => simp [h.1, h.2]
        next h =>
          rw [stopped.closed]
          cases (s.outPort cl p).closing
          · simpa using h
          · rfl
      · refine (stalls.contexts j).trans ?_
        rw [closed.ctxs, stopped.ctxs]
        split
        next e => rw [e]; rfl
        next => rfl
    · rw [exec_splice_last ht last]; exact Goes.next (takesTrap_takeTrap s trap 0 0 _)
  case completes =>
    rw [exec_spliceComplete ht active hn ready]
    obtain ⟨switched, entered⟩ := switching_switchAll t nx t.places s
    set n := s.switchAll t nx t.places
    set m := n.updTake id fun t => { t with scene := t.scene + 1 } with hm
    have rails := sameCues_raiseFloors (old := s) (fun g => g.take == t.id && g.rstate == .armed) t.places m
    set u := t.places.foldl (fun n p => n.raiseFloor s p.cl fun g => g.take == t.id && g.rstate == .armed) m
    have ctx (c k : Nat) : u.ctx c k = n.ctx c k := by rw [State.ctx, rails.ctxs]; rfl
    have take (j : Nat) : u.take? j = m.take? j := by rw [State.take?, rails.takes]; rfl
    have old (j : Nat) : n.take? j = s.take? j := by rw [State.take?, switched.takes]; rfl
    refine Goes.next ⟨?_, fun j hj => ?_, fun p hp => ?_, fun cl hcl clean => ?_⟩
    · rw [take, hm, take?_updTake_same (f := fun t => { t with scene := t.scene + 1 }) (fun _ => rfl) ((old id).trans ht)]; rfl
    · rw [take, hm, take?_updTake_other (f := fun t => { t with scene := t.scene + 1 }) (fun _ => rfl) hj, old]
    · rw [ctx]
      obtain ⟨pc, stall, vbin⟩ := entered p hp
      exact ⟨pc, stall, vbin, switched.keeps p.cl p.k⟩
    · have loads := loadsOn_switchAll (nx := nx) t.places s clean
      rw [rails.ctxs]
      change (n.cluster cl).ctx = _
      rw [loads.others cl fun h => ?_]
      obtain ⟨p, hp, e⟩ := List.mem_map.1 h
      exact hcl p hp e

end Sys2Proof.Machine
end

section
/-! PROOFS. Overlays (O21): the lines and the code of an overlay's place, the start and the end of a fetch, and the wait for it. -/

namespace Sys2Proof.Machine

/-! ### Entries of a table set one after the other -/

/-- Entries set to one value. -/
theorem tget_foldl_tput_const {α β : Type} [DecidableEq α] (d v : α) (num : β → Nat) (l : List β) (t : Table α) (k : Nat) :
    tget d (l.foldl (fun t e => tput d t (num e) v) t) k = if k ∈ l.map num then v else tget d t k :=
  tget_foldl_tupd_twice d (fun _ => v) (fun _ => rfl) num l t k

theorem tget_foldl_tput_out {α β : Type} [DecidableEq α] (d : α) (num : β → Nat) (val : β → α) (l : List β) (t : Table α) {k : Nat}
    (h : k ∉ l.map num) : tget d (l.foldl (fun t e => tput d t (num e) (val e)) t) k = tget d t k := by
  induction l generalizing t with
  | nil => rfl
  | cons e l ih =>
    rw [List.map_cons, List.mem_cons, not_or] at h
    rw [List.foldl_cons, ih _ h.2, tget_tput, if_neg h.1]

/-- Entries of distinct numbers: each has its value. -/
theorem tget_foldl_tput_mem {α β : Type} [DecidableEq α] (d : α) (num : β → Nat) (val : β → α) (l : List β) (t : Table α)
    (apart : (l.map num).Nodup) {e : β} (h : e ∈ l) : tget d (l.foldl (fun t e => tput d t (num e) (val e)) t) (num e) = val e := by
  induction l generalizing t with
  | nil => cases h
  | cons x l ih =>
    rw [List.map_cons, List.nodup_cons] at apart
    rw [List.foldl_cons]
    obtain rfl | h := List.mem_cons.1 h
    · rw [tget_foldl_tput_out d num val l _ apart.1, tget_tput, if_pos rfl]
    · exact ih _ apart.2 h

/-! ### Lines and code (R164, R188) -/

section
variable {s : State} {cl k : Nat} {c : Cluster}

/-- The lines of the scratchpad that a range touches. -/
def linesOf (a n : Nat) : List Nat := (unitsOf 64 a n).map (· % 1024)

theorem lines_setLines (c : Cluster) (a n : Nat) (st : LineSt) (i : Nat) :
    tget .valid (c.setLines a n st).lines i = if i ∈ linesOf a n then st else tget .valid c.lines i :=
  tget_foldl_tput_const .valid st (· % 1024) (unitsOf 64 a n) c.lines i

/-- Code no longer than the scratchpad stands in it, byte by byte. -/
theorem scratch_putCode (c : Cluster) (a : Nat) {bytes : List Byte} (fits : bytes.length ≤ 65536) (i : Nat) (h : i < bytes.length) :
    tget 0 (c.putCode a bytes).scratch ((a + i) % 65536) = bytes[i] := by
  have numbers : bytes.zipIdx.map (fun x : Byte × Nat => (a + x.2) % 65536) = (List.range bytes.length).map fun i => (a + i) % 65536 := by
    rw [show (fun x : Byte × Nat => (a + x.2) % 65536) = (fun i => (a + i) % 65536) ∘ Prod.snd from rfl, ← List.map_map,
      List.zipIdx_map_snd, List.range_eq_range']
  have apart : (bytes.zipIdx.map fun x : Byte × Nat => (a + x.2) % 65536).Nodup := by
    rw [numbers]
    refine List.nodup_range.map_on fun x hx y hy e => ?_
    have := List.mem_range.1 hx; have := List.mem_range.1 hy
    omega
  exact tget_foldl_tput_mem 0 (fun x : Byte × Nat => (a + x.2) % 65536) Prod.fst _ c.scratch apart
    (List.mem_zipIdx_iff_getElem?.2 (List.getElem?_eq_getElem h) : (bytes[i], i) ∈ bytes.zipIdx)

/-! ### The bytes of an object that a reference names (R292) -/

theorem length_flatMap_peek (s : State) (l : List (Nat × Nat)) :
    (l.flatMap fun x => s.peek x.1 x.2).length = (l.map (·.2)).sum := by
  simp [List.length_flatMap, s.length_peek]

theorem sum_poolRuns (f : Fn) (k o n : Nat) : ((f.poolRuns o n k).map (·.2)).sum ≤ n := by
  induction k generalizing o n with
  | zero => exact Nat.zero_le n
  | succ k ih =>
    unfold Fn.poolRuns
    dsimp only
    split
    · split
      next h =>
        have := ih (o + min n (2 ^ (f.psz.toNat - 3) - o % 2 ^ (f.psz.toNat - 3))) (n - min n (2 ^ (f.psz.toNat - 3) - o % 2 ^ (f.psz.toNat - 3)))
        rw [List.map_cons, List.sum_cons]; omega
      next => simp
    · exact Nat.zero_le n

theorem length_refPeek (s : State) (f : Nat) (r : Word) (off n : Nat) : (s.refPeek f r off n).length ≤ n := by
  rw [State.refPeek, length_flatMap_peek, State.refRuns]
  split
  · simp
  · exact sum_poolRuns _ _ _ _

theorem refRuns_not_vault {f : Nat} {r : Word} {off n : Nat} {x : Nat × Nat} (h : x ∈ s.refRuns f r off n) : isVault x.1 = false := by
  unfold State.refRuns at h
  split at h
  · rw [List.mem_singleton.1 h]
    exact decide_eq_false (by unfold hostKey; omega)
  · exact poolRuns_not_vault h

/-- A read of an object without an uncorrectable word delivers its bytes and changes nothing: no vault records a correction. -/
theorem refRead_good {f : Nat} {r : Word} {off n : Nat} (good : ∀ x ∈ s.refRuns f r off n, s.readBad x.1 x.2 = false) (cl take : Nat) :
    s.refRead f r off n cl take = (s, some (s.refPeek f r off n)) := by
  have found : ((s.refRuns f r off n).find? fun x => s.readBad x.1 x.2) = none :=
    List.find?_eq_none.2 fun x hx => by rw [good x hx]; exact Bool.false_ne_true
  have plain (m : List (Nat × Nat)) (hm : ∀ x ∈ m, isVault x.1 = false) : m.foldl (fun s x => s.noteRead x.1 x.2) s = s := by
    induction m with
    | nil => rfl
    | cons x m ih =>
      have : s.noteRead x.1 x.2 = s := by
        unfold State.noteRead State.noteErr
        rw [hm x List.mem_cons_self]; exact ite_self s
      rw [List.foldl_cons, this, ih fun y hy => hm y (List.mem_cons_of_mem x hy)]
  rw [State.refRead, State.readRuns, found]
  dsimp only
  rw [plain _ fun x hx => refRuns_not_vault hx]; rfl

/-! ### OVL.FETCH (R188) -/

section
variable {n : BitVec 14} {t : Take} {o : Overlay}

theorem overlay_n {m : Nat} (h : t.reel.overlay m = some o) : o.n = m := by
  have := List.find?_some h
  exact beq_iff_eq.1 this

theorem exec_ovlFetch (ht : s.myTake = some t) (ho : t.reel.overlay n.toNat = some o) : exec (.ovlFetch n) s = .next
    (if tget .never s.me.ovl n.toNat = .fetching then
      s.onMe fun c => { c with ovlAgain := if c.ovlAgain.contains n.toNat then c.ovlAgain else c.ovlAgain ++ [n.toNat] }.advance 1
    else (s.startFetch s.curCl s.curK o).goOn 1) := by
  change execOvlFetch n s = _
  rw [apply_ite Host.Outcome.next]
  simp only [execOvlFetch, ht, ho]

theorem exec_ovlFetch_absent (ht : s.myTake = some t) (ho : t.reel.overlay n.toNat = none) :
    exec (.ovlFetch n) s = .next (s.trap codeOvlAbsent (n.setWidth 64)) := by
  change execOvlFetch n s = _
  simp only [execOvlFetch, ht, ho]

/-- Only lines, scratchpad bytes and contexts of a cluster differ. -/
structure OnlyCode (s u : State) (cl : Nat) : Prop where
  shared : { u.cluster cl with ctx := (s.cluster cl).ctx, lines := (s.cluster cl).lines, scratch := (s.cluster cl).scratch } = s.cluster cl
  only   : OnlyCluster s u cl

/-- An update of a cluster, and then of a context of it. -/
theorem cluster_updCluster_updCtx (s : State) (cl k : Nat) (f : Cluster → Cluster) (g : CueCtx → CueCtx) :
    ((s.updCluster cl f).updCtx cl k g).cluster cl = { f (s.cluster cl) with ctx := tupd {} (f (s.cluster cl)).ctx k g } := by
  rw [State.updCtx, State.cluster_updCluster_same, State.cluster_updCluster_same]

theorem startFetch_goes (s : State) (o : Overlay) : let cl := s.curCl; let me := s.me; let u := (s.startFetch cl s.curK o).goOn 1
    (∀ i, tget .valid (u.cluster cl).lines i =
      if i ∈ linesOf (me.wbase.toNat + o.woff) o.len then .filling else tget .valid (s.cluster cl).lines i) ∧
    (∀ j, u.ctx cl j = if j = s.curK then { me with pc := me.pc + 4, ovl := tput .never me.ovl o.n .fetching } else s.ctx cl j) ∧
    { u.cluster cl with ctx := (s.cluster cl).ctx, lines := (s.cluster cl).lines } = s.cluster cl ∧ OnlyCluster s u cl := by
  intro cl me u
  have value : u.cluster cl = { (s.cluster cl).setLines (me.wbase.toNat + o.woff) o.len .filling with
      ctx := tupd {} (tupd {} (s.cluster cl).ctx s.curK fun c => { c with ovl := tput .never c.ovl o.n .fetching }) s.curK fun c =>
        c.advance 1 } := by
    change ((((s.updCluster cl fun c => c.setLines (me.wbase.toNat + o.woff) o.len .filling).updCtx cl s.curK fun c =>
      { c with ovl := tput .never c.ovl o.n .fetching }).updCtx cl s.curK fun c => c.advance 1).cluster cl) = _
    rw [State.updCtx, State.cluster_updCluster_same, cluster_updCluster_updCtx]; rfl
  refine ⟨fun i => ?_, fun j => ?_, ?_, ?_⟩
  · rw [value]; exact lines_setLines _ _ _ _ i
  · rw [State.ctx, value, tget_tupd, tget_tupd_same]
    split
    · rfl
    next h => exact tget_tupd_other ({} : CueCtx) _ _ h
  · rw [value]; rfl
  · exact ((onlyCluster_updCluster s cl fun c => c.setLines (me.wbase.toNat + o.woff) o.len .filling).trans
      (onlyCluster_updCluster _ cl _)).trans (onlyCluster_updCluster _ cl _)

end

/-! ### The end of a fetch (R188, R337) -/

/-- A cluster into whose scratchpad the code of a range has come, or whose lines have failed. -/
def Cluster.fetched (c : Cluster) (a n : Nat) (bytes : List Byte) (ok : Bool) : Cluster :=
  if ok then (c.putCode a bytes).setLines a n .valid else c.setLines a n .invalid

theorem lines_fetched (c : Cluster) (a n : Nat) (bytes : List Byte) (ok : Bool) (i : Nat) :
    tget .valid (c.fetched a n bytes ok).lines i = if i ∈ linesOf a n then (if ok then .valid else .invalid) else tget .valid c.lines i := by
  cases ok
  · exact lines_setLines _ a n _ i
  · exact lines_setLines _ a n _ i

theorem ctx_fetched (c : Cluster) (a n : Nat) (bytes : List Byte) (ok : Bool) : (c.fetched a n bytes ok).ctx = c.ctx := by
  cases ok <;> rfl

theorem fetched_rest (c : Cluster) (a n : Nat) (bytes : List Byte) (ok : Bool) (x : Table CueCtx) :
    { c.fetched a n bytes ok with ctx := x, lines := c.lines, scratch := c.scratch } = { c with ctx := x } := by
  cases ok <;> rfl

/-- The state of an overlay when its fetch has ended. -/
def CueCtx.fetchEnds (c : CueCtx) (n : Nat) (ok : Bool) : CueCtx := { c with ovl := tput .never c.ovl n (if ok then .ok else .failed) }

theorem endFetch_eq {t : Take} {o : Overlay} (ht : s.take? (s.ctx cl k).take = some t) (ho : t.reel.overlay o.n = some o)
    (fetching : tget .never (s.ctx cl k).ovl o.n = .fetching) (once : o.n ∉ (s.ctx cl k).ovlAgain)
    (good : ∀ x ∈ s.refRuns t.fn t.reel.ref o.off o.len, s.readBad x.1 x.2 = false) (ok : Bool) : s.endFetch cl k o.n ok =
      (s.updCluster cl fun c => c.fetched ((s.ctx cl k).wbase.toNat + o.woff) o.len (s.refPeek t.fn t.reel.ref o.off o.len) ok).updCtx cl k
        fun c => c.fetchEnds o.n ok := by
  have again : (s.ctx cl k).ovlAgain.contains o.n = false := by simpa using once
  unfold State.endFetch
  simp only [ht, ho, fetching, ne_eq, not_true_eq_false, if_false, again, Bool.false_eq_true, State.loadCode, refRead_good good cl t.id]
  cases ok <;> rfl

/-- A fetch that ends while no other of its overlay is asked for. -/
theorem endFetch_goes {t : Take} {o : Overlay} (ht : s.take? (s.ctx cl k).take = some t) (ho : t.reel.overlay o.n = some o)
    (fetching : tget .never (s.ctx cl k).ovl o.n = .fetching) (once : o.n ∉ (s.ctx cl k).ovlAgain)
    (good : ∀ x ∈ s.refRuns t.fn t.reel.ref o.off o.len, s.readBad x.1 x.2 = false) (fits : o.len ≤ 65536) (ok : Bool) :
    let c := s.ctx cl k; let u := s.endFetch cl k o.n ok; let code := s.refPeek t.fn t.reel.ref o.off o.len
    (∀ i, tget .valid (u.cluster cl).lines i = if i ∈ linesOf (c.wbase.toNat + o.woff) o.len
      then (if ok then .valid else .invalid) else tget .valid (s.cluster cl).lines i) ∧
    (ok = true → ∀ i (h : i < code.length), i < o.len →
      tget 0 (u.cluster cl).scratch ((c.wbase.toNat + o.woff + i) % 65536) = code[i]) ∧
    (ok = false → (u.cluster cl).scratch = (s.cluster cl).scratch) ∧
    (∀ j, u.ctx cl j = if j = k then c.fetchEnds o.n ok else s.ctx cl j) ∧
    { u.cluster cl with ctx := (s.cluster cl).ctx, lines := (s.cluster cl).lines, scratch := (s.cluster cl).scratch } = s.cluster cl ∧
    OnlyCluster s u cl := by
  intro c u code
  have eq : u = _ := endFetch_eq ht ho fetching once good ok
  have value : u.cluster cl = { (s.cluster cl).fetched (c.wbase.toNat + o.woff) o.len code ok with
      ctx := tupd {} (s.cluster cl).ctx k fun c => c.fetchEnds o.n ok } := by
    rw [eq, cluster_updCluster_updCtx, ctx_fetched]
  refine ⟨fun i => ?_, ?_, ?_, fun j => ?_, ?_, ?_⟩
  · rw [value]; exact lines_fetched _ _ _ _ _ i
  · rintro rfl i h -
    rw [value]
    exact scratch_putCode (s.cluster cl) _ ((length_refPeek ..).trans fits) i h
  · rintro rfl
    rw [value]; rfl
  · rw [State.ctx, value, tget_tupd]; rfl
  · rw [value]; exact fetched_rest _ _ _ _ _ _
  · rw [eq]; exact (onlyCluster_updCluster s cl _).trans (onlyCluster_updCluster _ cl _)

/-! ### OVL.WAIT (R188) -/

section
variable {n : BitVec 14}

theorem exec_ovlWait_done (h : tget .never s.me.ovl n.toNat = .never ∨ tget .never s.me.ovl n.toNat = .ok) :
    exec (.ovlWait n) s = .next (s.goOn 1) := by
  change execOvlWait n s = _
  obtain h | h := h <;> simp only [execOvlWait, h]

theorem exec_ovlWait_fetching (h : tget .never s.me.ovl n.toNat = .fetching) :
    exec (.ovlWait n) s = .next (s.onMe fun c => c.startWait (.ovlWait n.toNat)) := by
  change execOvlWait n s = _
  simp only [execOvlWait, h]

theorem exec_ovlWait_failed (h : tget .never s.me.ovl n.toNat = .failed) :
    exec (.ovlWait n) s = .next (s.trap codeOvlAbort (n.setWidth 64)) := by
  change execOvlWait n s = _
  simp only [execOvlWait, h]

theorem exec_ovlWaitWake_done {m : Nat} (hw : (s.ctx cl k).wait = some (.ovlWait m))
    (h : tget .never (s.ctx cl k).ovl m = .never ∨ tget .never (s.ctx cl k).ovl m = .ok) :
    exec (.ovlWaitWake cl k) s = .next (s.updCtx cl k fun c => c.endWait) := by
  change execOvlWaitWake cl k s = _
  obtain h | h := h <;> simp only [execOvlWaitWake, hw, h]

theorem exec_ovlWaitWake_failed {m : Nat} (hw : (s.ctx cl k).wait = some (.ovlWait m)) (h : tget .never (s.ctx cl k).ovl m = .failed) :
    exec (.ovlWaitWake cl k) s = .next ((s.updCtx cl k fun c => { c with
      wait := none, kstate := if c.handler then .trap else .run, handler := false }).takeTrap
        cl k codeOvlAbort (.ofNat 64 m) 0 (s.ctx cl k).pc) := by
  change execOvlWaitWake cl k s = _
  simp only [execOvlWaitWake, hw, h]

/-- The wait of a context that is in no handler ends with OVL-ABORT. -/
theorem trapsAt_ovlWake {t : Take} (ht : s.take? (s.ctx cl k).take = some t) (act : t.act 18 = 1) (out : (s.ctx cl k).handler = false)
    (info : Word) : TrapsAt s ((s.updCtx cl k fun c => { c with
      wait := none, kstate := if c.handler then .trap else .run, handler := false }).takeTrap
        cl k codeOvlAbort info 0 (s.ctx cl k).pc) cl k 18 info 0 (s.ctx cl k).pc := by
  have wakes := becomes_updCtx s cl k fun c => { c with wait := none, kstate := if c.handler then .trap else .run, handler := false }
  set w := s.updCtx cl k fun c => { c with wait := none, kstate := if c.handler then .trap else .run, handler := false }
  have value := wakes.value
  rw [out] at value
  have traps := trapsAt_takeTrap (s := w) (cl := cl) (k := k) (code := 18) (t := t) (by rw [value]; exact ht) act
    (by rw [value]; exact fun h => by cases h) (by rw [value]) info 0 (s.ctx cl k).pc
  refine ⟨traps.value.trans ?_, wakes.only.trans traps.only⟩
  rw [value, ← out]

end

end

/-- Settles O21: the start and the end of a fetch by the cluster they leave, OVL.WAIT by the state of its overlay. -/
theorem overlays : Obligations.Overlays := by
  refine ⟨fun s n t ht => ?fetch, fun s cl k t o => ?ends⟩
  case fetch =>
    intro cl me
    refine ⟨fun o ho => ⟨fun idle => ?_, fun fetching => ?_⟩, fun absent trap => ?_⟩
    · rw [exec_ovlFetch ht ho, if_neg idle]; exact Goes.next (startFetch_goes s o)
    · rw [exec_ovlFetch ht ho, if_pos fetching]
      simp only [List.contains_iff_mem]
      exact Goes.next (becomes_onMe s _)
    · rw [exec_ovlFetch_absent ht absent]; exact Goes.next (takesTrap_takeTrap s trap _ 0 _)
  case ends =>
    intro c
    refine ⟨fun ht ho fetching once => ?_, fun n => ?_, fun n hw => ⟨fun done => ?_, fun failed ht act out => ?_⟩⟩
    · intro lines code good goods fits ok
      exact Goes.next (endFetch_goes ht ho fetching once goods fits ok)
    · refine ⟨fun done => ?_, fun fetching => ?_, fun failed trap => ?_⟩
      · rw [exec_ovlWait_done done]; exact Goes.next (movesOn_goOn s 1)
      · rw [exec_ovlWait_fetching fetching]; exact Goes.next (becomes_onMe s _)
      · rw [exec_ovlWait_failed failed]; exact Goes.next (takesTrap_takeTrap s trap _ 0 _)
    · rw [exec_ovlWaitWake_done hw done]; exact Goes.next (becomes_updCtx s cl k _)
    · rw [exec_ovlWaitWake_failed hw failed]; exact Goes.next (trapsAt_ovlWake ht act out _)

end Sys2Proof.Machine
end

section
/-! PROOFS. The end of a context (O22): EXIT's halts, the banks that it frees, and what of the take it changes. -/

namespace Sys2Proof.Machine

section
variable {s u : State} {cl k : Nat}

/-! ### EXIT (R195) -/

/-- The halts of regions, one after the other. -/
theorem haltsOnly_foldl (l : List Nat) (s : State) (nodup : l.Nodup)
    (live : ∀ r ∈ l, (s.region cl r).rstate ≠ .halted ∧ (s.region cl r).rstate ≠ .idle) :
    HaltsOnly s (l.foldl (fun s r => s.askHalt cl r) s) cl l := by
  induction l generalizing s with
  | nil => exact haltsOnly_refl s cl
  | cons r l ih =>
    obtain ⟨out, nodup⟩ := List.nodup_cons.1 nodup
    have first := haltsOnly_askHalt (live r List.mem_cons_self).1 (live r List.mem_cons_self).2
    have same {q : Nat} (hq : q ∈ l) : (s.askHalt cl r).region cl q = s.region cl q :=
      (first.halts.regions q).trans (if_neg fun e => out ((List.mem_singleton.1 e : q = r) ▸ hq))
    exact first.trans (ih (s.askHalt cl r) nodup fun q hq => by rw [same hq]; exact live q (List.mem_cons_of_mem r hq))
      fun q hq e => out ((List.mem_singleton.1 e : q = r) ▸ hq)

/-- Regions that are halted already stay as they are. -/
theorem foldl_askHalt_filter (l : List Nat) (s : State) (nodup : l.Nodup) (live : ∀ r ∈ l, (s.region cl r).rstate ≠ .idle) :
    l.foldl (fun s r => s.askHalt cl r) s =
      (l.filter fun r => (s.region cl r).rstate != .halted).foldl (fun s r => s.askHalt cl r) s := by
  induction l generalizing s with
  | nil => rfl
  | cons r l ih =>
    obtain ⟨out, nodup⟩ := List.nodup_cons.1 nodup
    have changes := regionsBecome_askHalt (live r List.mem_cons_self)
    have same {q : Nat} (hq : q ∈ l) : (s.askHalt cl r).region cl q = s.region cl q :=
      changes.others q fun e => out (List.mem_singleton.1 e ▸ hq)
    have rest := ih (s.askHalt cl r) nodup fun q hq => by rw [same hq]; exact live q (List.mem_cons_of_mem r hq)
    have filter : l.filter (fun q => ((s.askHalt cl r).region cl q).rstate != .halted) = l.filter fun q => (s.region cl q).rstate != .halted :=
      List.filter_congr fun q hq => by rw [same hq]
    rw [List.foldl_cons, rest, filter]
    by_cases halted : (s.region cl r).rstate = .halted
    · have stays : s.askHalt cl r = s := by simp [State.askHalt, halted]
      rw [stays, List.filter_cons_of_neg (by simp [halted])]
    · rw [List.filter_cons_of_pos (by simpa using halted)]; rfl

theorem haltsOnly_haltRegions (s : State) (cl take : Nat) :
    HaltsOnly s (s.haltRegions cl take fun _ => true) cl (liveRegions s cl take fun _ => true) := by
  have numbers : s.haltRegions cl take (fun _ => true) = (s.ridsOf cl take).foldl (fun s r => s.askHalt cl r) s := by
    rw [State.haltRegions, regionsOf_eq, List.foldl_map]; rfl
  have live : ((s.ridsOf cl take).filter fun r => (s.region cl r).rstate != .halted) = liveRegions s cl take fun _ => true := by
    rw [State.ridsOf, List.filter_filter, liveRegions]
    refine List.filter_congr fun r _ => ?_
    dsimp only
    rw [Bool.and_true, Bool.and_comm]
  rw [numbers, foldl_askHalt_filter _ s (nodup_ridsOf take) fun r hr => (mem_ridsOf.1 hr).2.2, live]
  refine haltsOnly_foldl _ s (List.nodup_range.filter _) fun r hr => ?_
  have := (List.mem_filter.1 hr).2
  simp only [Bool.and_eq_true, bne_iff_ne, ne_eq, beq_iff_eq, Bool.and_true] at this
  exact ⟨this.2, this.1.2⟩

theorem exec_exit {a : Reg} {t : Take} (ht : s.myTake = some t) : exec (.exit a) s =
    .next (((s.haltRegions s.curCl t.id fun _ => true).closePorts s.curCl t).onMe fun c =>
      { c with stall := some (.exit ((s.reg a).setWidth 32) none) }) := by
  change execExit a s = _
  simp only [execExit, ht]

/-! ### The end of a context (R195) -/

/-- Banks freed one by one. -/
theorem bankOwner_freeEach (l : List Nat) (s : State) (b : Nat) : ((l.foldl (fun s b => s.freeBanks cl b 1) s).cluster cl).bankOwner b =
    if b ∈ l then none else (s.cluster cl).bankOwner b := by
  induction l generalizing s with
  | nil => exact (if_neg List.not_mem_nil).symm
  | cons x l ih =>
    rw [List.foldl_cons, ih, bankOwner_freeBanks]
    by_cases e : b = x
    · rw [if_pos (show x ≤ b ∧ b < x + 1 by omega), ite_self, if_pos (e ▸ List.mem_cons_self)]
    · rw [if_neg (show ¬ (x ≤ b ∧ b < x + 1) by omega)]
      simp only [List.mem_cons, e, false_or]

/-- Only the owners of a cluster's banks differ. -/
structure OnlyOwners (s u : State) (cl : Nat) : Prop where
  shared : { u.cluster cl with accOwn := (s.cluster cl).accOwn } = s.cluster cl
  others : ∀ j, j ≠ cl → u.cluster j = s.cluster j
  rest   : { u with clusters := s.clusters } = s

theorem onlyOwners_freeEach (l : List Nat) (s : State) : OnlyOwners s (l.foldl (fun s b => s.freeBanks cl b 1) s) cl := by
  induction l generalizing s with
  | nil => exact ⟨rfl, fun _ _ => rfl, rfl⟩
  | cons x l ih =>
    have rest := ih (s.freeBanks cl x 1)
    refine ⟨?_, fun j hj => (rest.others j hj).trans ((onlyCluster_freeBanks s cl x 1).others j hj),
      (congrArg (fun w : State => { w with clusters := s.clusters }) rest.rest :)⟩
    have first := shared_freeBanks s cl x 1
    rw [← rest.shared] at first; exact first

theorem mem_heldBanks {take b : Nat} : b ∈ s.heldBanks cl take k ↔ b < 256 ∧ (s.cluster cl).bankOwner b = some (take, k) := by
  rw [State.heldBanks, List.mem_filter, List.mem_range, holdsBank_iff]
  exact ⟨fun h => h.2, fun h => ⟨h.1, h⟩⟩

/-- A take whose fault record notes a leak of banks or not. -/
theorem noteLeak_take {id n : Nat} {t : Take} (ht : s.take? id = some t) : ∃ fr, (s.noteLeak id n).take? id = some { t with fr := fr } ∧
    (fr.leak = true ↔ t.fr.leak = true ∨ n ≠ 0) ∧ (∀ j, j ≠ id → (s.noteLeak id n).take? j = s.take? j) ∧
    (s.noteLeak id n).clusters = s.clusters ∧ (s.noteLeak id n).mem = s.mem := by
  unfold State.noteLeak
  split
  next h => exact ⟨t.fr, ht, by simp [h], fun _ _ => rfl, rfl, rfl⟩
  next h =>
    dsimp only
    refine ⟨_, take?_updTake_same (f := fun t => { t with fr := { t.fr with
      leak := true, lbanks := if t.fr.lbanks.toNat + n < 512 then t.fr.lbanks + BitVec.ofNat 9 n else s.freeVal.1.setWidth 9 } })
        (fun _ => rfl) ht, by simp [h], fun j hj => ?_, rfl, rfl⟩
    exact take?_updTake_other (s := s.freeVal.2) (fun _ => rfl) hj

/-- The take ends with its last context. -/
theorem endIfExited_take {id : Nat} {t : Take} (ht : s.take? id = some t) (running : t.st = .running) (calm : t.why = []) :
    (s.endIfExited id).take? id = some (if t.exits.length = t.places.length ∧ t.xabort = false then { t with st := .ending, why := [] } else t) ∧
    (∀ j, j ≠ id → (s.endIfExited id).take? j = s.take? j) ∧ (s.endIfExited id).clusters = s.clusters ∧ (s.endIfExited id).mem = s.mem := by
  unfold State.endIfExited
  simp only [ht, running, calm]
  by_cases ends : t.exits.length = t.places.length ∧ t.xabort = false
  · rw [if_pos ends, if_pos (by simp [ends.1, ends.2])]
    exact ⟨take?_updTake_same (f := fun t => { t with st := .ending, why := [] }) (fun _ => rfl) ht,
      fun j hj => take?_updTake_other (s := s) (fun _ => rfl) hj, rfl, rfl⟩
  · rw [if_neg ends, if_neg (by simpa [and_comm] using ends)]
    exact ⟨ht, fun _ _ => rfl, rfl, rfl⟩

theorem exec_exitComplete {t : Take} {status : BitVec 32} {ents : Option (List Nat)} (ht : s.take? (s.ctx cl k).take = some t)
    (active : t.active = true) (hs : (s.ctx cl k).stall = some (.exit status ents)) (ports : s.portsDone cl t = true)
    (done : s.entsDone cl t.id (ents.getD (s.writingEnts cl t fun _ => true)) = true) (queue : ∀ i ∈ (s.mxOf cl).queue, i.k ≠ k)
    (posted : (s.ctx cl k).posted = []) (aborts : (s.ctx cl k).aborts = []) :
    exec (.exitComplete cl k) s = .next (s.finishExit cl k t.id status) := by
  have idle : ((s.mxOf cl).queue.all fun i => i.k != k) = true := List.all_eq_true.2 fun i hi => bne_iff_ne.2 (queue i hi)
  change execExitComplete cl k s = _
  simp [execExitComplete, ht, hs, active, ports, done, idle, posted, State.endReport, aborts, pickAbort]

theorem OnlyOwners.ctx (h : OnlyOwners s u cl) (c j : Nat) : u.ctx c j = s.ctx c j := by
  have same : (u.cluster c).ctx = (s.cluster c).ctx := by
    by_cases e : c = cl
    · rw [e]; have h := congrArg Cluster.ctx h.shared; exact h
    · rw [h.others c e]
  rw [State.ctx, same]; rfl

/-- EXIT's last part, for a context without a pending trap. -/
theorem finishExit_goes {t : Take} {status : BitVec 32} (ht : s.take? t.id = some t) (running : t.st = .running) (calm : t.why = [])
    (pend : (s.ctx cl k).pend = []) : let c := s.ctx cl k; let u := s.finishExit cl k t.id status
    u.ctx cl k = { c with stall := none, kstate := .exited } ∧ (∀ j, j ≠ k → u.ctx cl j = s.ctx cl j) ∧
      (∀ b < 256, (u.cluster cl).bankOwner b = if (s.cluster cl).bankOwner b = some (t.id, k) then none else (s.cluster cl).bankOwner b) ∧
      (∃ v, u.take? t.id = some v ∧ v.exits = t.exits ++ [(cl, status)] ∧
        v.st = (if t.exits.length + 1 = t.places.length ∧ t.xabort = false then .ending else .running) ∧
        (v.fr.leak = true ↔ t.fr.leak = true ∨ ∃ b < 256, (s.cluster cl).bankOwner b = some (t.id, k))) ∧
      (∀ j, j ≠ t.id → u.take? j = s.take? j) ∧ (∀ x, u.byte x = s.byte x) ∧
      { u.cluster cl with ctx := (s.cluster cl).ctx, accOwn := (s.cluster cl).accOwn } = s.cluster cl ∧
      ∀ j, j ≠ cl → u.cluster j = s.cluster j := by
  intro c u
  set banks := s.heldBanks cl t.id k with hbanks
  have owners := onlyOwners_freeEach (cl := cl) banks s
  have owner := bankOwner_freeEach (cl := cl) banks s
  set f := banks.foldl (fun s b => s.freeBanks cl b 1) s
  have takes : f.takes = s.takes := by have h := congrArg State.takes owners.rest; exact h
  have mem : f.mem = s.mem := by have h := congrArg State.mem owners.rest; exact h
  obtain ⟨fr, found, leak, others, clusters, memory⟩ := noteLeak_take (s := f) (id := t.id) (n := banks.length) (t := t)
    (by rw [State.take?, takes]; exact ht)
  set g := f.noteLeak t.id banks.length
  have gcl (j : Nat) : g.cluster j = f.cluster j := by rw [State.cluster, clusters]; rfl
  have ctx (i j : Nat) : g.ctx i j = s.ctx i j := by rw [← owners.ctx, State.ctx, gcl]; rfl
  have ended := becomes_updCtx g cl k fun c => { c with stall := none, kstate := .exited, pend := [] }
  set h := g.updCtx cl k fun c => { c with stall := none, kstate := .exited, pend := [] }
  have noted := take?_updTake_same (s := h) (f := fun t => { t with exits := t.exits ++ [(cl, status)] }) (fun _ => rfl) found
  obtain ⟨last, beside, same, bytes⟩ := endIfExited_take noted running calm
  have eq : u = (h.updTake t.id fun t => { t with exits := t.exits ++ [(cl, status)] }).endIfExited t.id := by
    have none : (g.ctx cl k).pend = [] := by rw [ctx]; exact pend
    change State.endIfExited (List.foldl _ _ (g.ctx cl k).pend) t.id = _
    rw [none]; rfl
  rw [← eq] at last beside same bytes
  have cluster (j : Nat) : u.cluster j = h.cluster j := by rw [State.cluster, same]; rfl
  have final (j : Nat) : u.ctx cl j = h.ctx cl j := by rw [State.ctx, cluster]; rfl
  have held (b : Nat) : b ∈ banks ↔ b < 256 ∧ (s.cluster cl).bankOwner b = some (t.id, k) := mem_heldBanks
  have some (h : banks.length ≠ 0) : ∃ b, b ∈ banks := List.exists_mem_of_length_pos (Nat.pos_of_ne_zero h)
  refine ⟨?_, fun j hj => ?_, fun b hb => ?_, ⟨_, last, ?_, ?_, ?_⟩, fun j hj => ?_, fun x => ?_, ?_, fun j hj => ?_⟩
  · rw [final, ended.value, ctx, ← pend]
  · rw [final, ended.only.contexts j hj, ctx]
  · have shared := congrArg Cluster.accOwn ended.only.shared
    have here : (u.cluster cl).bankOwner b = (f.cluster cl).bankOwner b := by
      rw [cluster, Cluster.bankOwner, Cluster.bankOwner, ← gcl]
      exact congrArg (fun t => tget none t b) shared
    rw [here, owner]
    exact if_congr ((held b).trans (and_iff_right hb)) rfl rfl
  · split <;> rfl
  · rw [List.length_append]; split <;> simp_all
  · have same : fr.leak = true ↔ t.fr.leak = true ∨ ∃ b < 256, (s.cluster cl).bankOwner b = .some (t.id, k) := by
      rw [leak]
      refine or_congr_right ⟨fun h => ?_, fun ⟨b, hb⟩ h => ?_⟩
      · obtain ⟨b, hb⟩ := some h; exact ⟨b, (held b).1 hb⟩
      · exact List.not_mem_nil (List.length_eq_zero_iff.1 h ▸ (held b).2 hb)
    split <;> exact same
  · have kept := take?_updTake_other (s := h) (f := fun t => { t with exits := t.exits ++ [(cl, status)] }) (fun _ => rfl) hj
    refine (beside j hj).trans (kept.trans ((others j hj).trans ?_))
    rw [State.take?, takes]; rfl
  · rw [State.byte, bytes]; exact congrArg (fun m => tget 0 m x) (memory.trans mem)
  · have outer := ended.only.shared
    have inner := owners.shared
    have table : (f.cluster cl).ctx = (s.cluster cl).ctx := by have h := congrArg Cluster.ctx inner; exact h
    rw [gcl] at outer
    rw [← outer] at inner
    rw [cluster, ← table]; exact inner
  · rw [cluster, ended.only.outside.others j hj, gcl]; exact owners.others j hj

end

/-- Settles O22: EXIT's halts and closed ports; the end of a context by the banks, the take and the context that it leaves. -/
theorem exit : Obligations.Exit := by
  intro s a t
  refine ⟨fun ht => ?issue, fun cl k status ents => ?ends⟩
  case issue =>
    intro cl
    have halted := haltsOnly_haltRegions s cl t.id
    have closed := onlyOuts_closeAll (cl := cl) (t.outPorts cl) (s.haltRegions cl t.id fun _ => true)
    have ports := outPort_closeAll (cl := cl) (t.outPorts cl) (s.haltRegions cl t.id fun _ => true)
    rw [exec_exit ht, closePorts_eq]
    generalize (s.haltRegions cl t.id fun _ => true) = y at *
    have fabric := halted.fabric.trans closed.fabric
    have stalls := onlyPort_onMe (y.closeAll cl (t.outPorts cl)) false 0 fun c => { c with stall := some (.exit ((s.reg a).setWidth 32) none) }
    rw [fabric.curCl, fabric.curK] at stalls
    refine Goes.next ⟨y, halted.halts, fun r => (stalls.regions r).trans (closed.regions r), fun n => (stalls.banks n).trans (closed.banks n),
      fun p => ?_, fun p => ?_, fun j => ?_, fabric.trans stalls.fabric⟩
    · exact (State.inPort_updCtx _ _).trans ((closed.inputs p).trans (halted.halts.inputs p))
    · have bound : (y.outPort cl p).bound = (s.outPort cl p).bound := by rw [halted.halts.outputs]
      refine ((stalls.out_eq p).trans (ports p)).trans ?_
      rw [bound]
    · refine (stalls.contexts j).trans ?_
      rw [closed.ctxs, halted.ctxs]
      split
      next e => rw [e]; rfl
      next => rfl
  case ends =>
    intro c ht unasked hs ports done queue posted aborts pend
    obtain ⟨active, calm⟩ : t.active = true ∧ t.why = [] := by simpa [Take.unasked] using unasked
    have running : t.st = .running := by simp [Take.active] at active; exact active.1
    rw [exec_exitComplete ht active hs ports done queue posted aborts]
    exact Goes.next (finishExit_goes ((take?_id ht).symm ▸ ht) running calm pend)

end Sys2Proof.Machine
end

section
/-! PROOFS. Submission (O44): what the detection of an error leaves alone, reads that meet none, the choice of a take's
identifier, and the acceptance of launch records. -/

namespace Sys2Proof.Machine

section
variable {s t u : State}

/-! ### What the detection of an error leaves alone (R265, R331) -/

/-- Memory, the functions and dies, and of the clusters VERR and the contexts may differ, and messages may have been sent; the
rest of the package is as before. -/
structure Reports (s t : State) : Prop where
  shared : ∀ c, { t.cluster c with ctx := (s.cluster c).ctx, verr := (s.cluster c).verr } = s.cluster c
  outbox : ∃ l, t.outbox = s.outbox ++ l
  rest   : { t with mem := s.mem, errs := s.errs, hid := s.hid, clusters := s.clusters, fns := s.fns, dies := s.dies,
                    outbox := s.outbox } = s

theorem Reports.refl (s : State) : Reports s s := ⟨fun _ => rfl, ⟨[], (List.append_nil _).symm⟩, rfl⟩

theorem Reports.trans (h : Reports s t) (g : Reports t u) : Reports s u where
  shared c := (congrArg (fun x : Cluster => { x with ctx := (s.cluster c).ctx, verr := (s.cluster c).verr }) (g.shared c)).trans (h.shared c)
  outbox := by
    obtain ⟨l, hl⟩ := h.outbox
    obtain ⟨m, hm⟩ := g.outbox
    exact ⟨l ++ m, by rw [hm, hl, List.append_assoc]⟩
  rest := (congrArg (fun x : State => { x with
    mem := s.mem, errs := s.errs, hid := s.hid, clusters := s.clusters, fns := s.fns, dies := s.dies, outbox := s.outbox }) g.rest).trans h.rest

theorem Reports.takes (h : Reports s t) : t.takes = s.takes := by
  have same := congrArg State.takes h.rest; exact same
theorem Reports.frecs (h : Reports s t) : t.frecs = s.frecs := by
  have same := congrArg State.frecs h.rest; exact same
theorem Reports.reqs (h : Reports s t) : t.reqs = s.reqs := by
  have same := congrArg State.reqs h.rest; exact same
theorem Reports.agenda (h : Reports s t) : t.agenda = s.agenda := by
  have same := congrArg State.agenda h.rest; exact same
theorem Reports.take? (h : Reports s t) (id : Nat) : t.take? id = s.take? id := by
  have same := congrArg (fun x : State => x.take? id) h.rest; exact same

theorem Reports.copyOf (h : Reports s t) (cl id : Nat) : t.copyOf cl id = s.copyOf cl id := by
  have same := congrArg (fun c : Cluster => (tget none c.copy id).getD {}) (h.shared cl)
  exact same

/-- A step that sends nothing. -/
theorem Reports.of_rest (hc : ∀ c, { t.cluster c with ctx := (s.cluster c).ctx, verr := (s.cluster c).verr } = s.cluster c)
    (h : { t with mem := s.mem, errs := s.errs, hid := s.hid, clusters := s.clusters, fns := s.fns, dies := s.dies } = s) :
    Reports s t := by
  have sent : t.outbox = s.outbox := by have same := congrArg State.outbox h; exact same
  exact ⟨hc, ⟨[], by rw [sent, List.append_nil]⟩, by rw [← sent]; exact h⟩

variable (s)

theorem reports_noteErr (ue : Bool) (a n : Nat) : Reports s (s.noteErr ue a n) := by
  refine .of_rest (fun c => ?_) (by unfold State.noteErr; split <;> rfl)
  rw [State.cluster_noteErr]
  split <;> rfl

theorem reports_noteRead (a n : Nat) : Reports s (s.noteRead a n) := by
  unfold State.noteRead
  split
  · exact reports_noteErr s _ _ _
  · exact .refl s

theorem reports_write (a : Nat) (l : List Byte) : Reports s (s.write a l) :=
  .of_rest (fun c => by rw [State.cluster_write]) (congrArg (fun x : State => { x with fns := s.fns, dies := s.dies }) (s.write_rest a l))

theorem reports_pokeRuns (r : List (Nat × Nat)) (l : List Byte) : Reports s (s.pokeRuns r l) := by
  induction r generalizing s l with
  | nil => exact .refl s
  | cons x r ih => exact (reports_write s _ _).trans (ih _ _)

theorem reports_refWrite (f : Nat) (r : Word) (o : Nat) (l : List Byte) : Reports s (s.refWrite f r o l) := reports_pokeRuns s _ l
theorem reports_updFn (n : Nat) (g : Fn → Fn) : Reports s (s.updFn n g) := .of_rest (fun _ => rfl) rfl
theorem reports_updDie (n : Nat) (g : Die → Die) : Reports s (s.updDie n g) := .of_rest (fun _ => rfl) rfl
theorem reports_emit (m : OutMsg) : Reports s (s.emit m) := ⟨fun _ => rfl, ⟨[m], rfl⟩, rfl⟩

theorem reports_msix (f v : Nat) : Reports s (s.msix f v) := by
  unfold State.msix
  split
  · exact .refl s
  · split
    · exact reports_updFn s _ _
    · exact reports_emit s _

theorem reports_event (f : Nat) (w0 w1 w2 : Word) : Reports s (s.event f w0 w1 w2) := by
  unfold State.event
  dsimp only
  split
  · exact .refl s
  · split
    · exact reports_updFn s _ _
    · split
      · exact reports_updFn s _ _
      · exact ((reports_refWrite s _ _ _ _).trans (reports_updFn _ _ _)).trans (reports_msix _ _ _)

theorem reports_elog (d cl t : Nat) (i : Word) : Reports s (s.elog d cl t i) := by
  unfold State.elog
  dsimp only
  split
  · exact .refl s
  · split
    · exact .refl s
    · exact (reports_refWrite s _ _ _ _).trans (reports_updDie _ _ _)

theorem reports_ueEvent (cl t : Nat) (i : Word) : Reports s (s.ueEvent cl t i) := by
  unfold State.ueEvent
  split
  · exact reports_event s _ _ _ _
  · exact .refl s

/-- After the error interrupt. -/
theorem reports_log (d cl t : Nat) (i : Word) : Reports (s.errorIrq d) (s.detectUe d cl t i) :=
  (reports_elog _ d cl t i).trans (reports_ueEvent _ cl t i)

theorem reports_uncorrectable (a n cl t : Nat) : Reports s (s.uncorrectable a n cl t) :=
  ((reports_noteErr s true a n).trans (reports_emit _ (.errorIrq (errDie a)))).trans (reports_log _ _ _ _ _)

/-! ### The stage manager's reads (R265, R295) -/

/-- The reads of the stage manager keep the takes and the fault records. -/
theorem seen_takes (cl id : Nat) (v : State) (l : List (Nat × Nat)) :
    (s.seen cl id v l).1.takes = s.takes ∧ (s.seen cl id v l).1.frecs = s.frecs := by
  induction l generalizing s v with
  | nil => exact ⟨rfl, rfl⟩
  | cons x l ih =>
    unfold State.seen
    split
    · have bad := reports_uncorrectable s x.1 x.2 cl id
      exact ⟨(ih _ _).1.trans bad.takes, (ih _ _).2.trans bad.frecs⟩
    · have good := reports_noteRead s x.1 x.2
      exact ⟨(ih _ _).1.trans good.takes, (ih _ _).2.trans good.frecs⟩

theorem readRecord_takes (fn : Nat) (x : Submit) :
    (s.readRecord fn x).1.takes = s.takes ∧ (s.readRecord fn x).1.frecs = s.frecs := by
  unfold State.readRecord
  dsimp only
  split <;> simp only [(seen_takes _ _ _ _ _).1, (seen_takes _ _ _ _ _).2, and_self]

/-- No word of memory is in error and no bank is marked failed. -/
structure Faultless (s : State) : Prop where
  errs  : s.errs = []
  banks : ∀ c, (s.cluster c).vbfail = 0

variable {s}

theorem Faultless.err (h : Faultless s) (i : Nat) : s.err i = .none := by rw [State.err, h.errs]; rfl

theorem Faultless.erased (h : Faultless s) (cl stripe j w : Nat) : s.erased cl stripe j w = false := by
  rw [State.erased, State.bankFailed, h.banks, h.err]
  simp [maskBit]

theorem Faultless.rebuilds (h : Faultless s) (cl stripe : Nat) : s.rebuilds cl stripe = true := by
  simp [State.rebuilds, h.erased]

theorem Faultless.readBad (h : Faultless s) (a n : Nat) : s.readBad a n = false := by
  simp [State.readBad, State.stripeBad, h.rebuilds, h.err]

theorem Faultless.readCorrects (h : Faultless s) (a n : Nat) : s.readCorrects a n = false := by
  simp [State.readCorrects, State.goneSlices, h.erased, h.err]

theorem Faultless.seen (h : Faultless s) (cl id : Nat) (v : State) (l : List (Nat × Nat)) : s.seen cl id v l = (s, v) :=
  seen_good s cl id v l fun x _ => ⟨h.readBad x.1 x.2, h.readCorrects x.1 x.2⟩

theorem Faultless.readRecord (h : Faultless s) (fn : Nat) (x : Submit) : s.readRecord fn x = (s, s) := by
  simp [State.readRecord, h.seen]

/-! ### The identifier of a take (R296, R338) -/

/-- The numbers that no new take may have. -/
def State.usedIds (s : State) : List Nat := 0 :: (s.takes.map (·.id) ++ s.frecs.map (·.take))

/-- The candidates, as many as distinct numbers allow, are more than the numbers in use. -/
theorem candidates_nodup (v n : Nat) (h : n ≤ 2 ^ 32) : ((List.range n).map fun i => (v + i) % 2 ^ 32).Nodup := by
  refine List.Nodup.map_on (fun i hi j hj e => ?_) List.nodup_range
  have := List.mem_range.1 hi
  have := List.mem_range.1 hj
  omega

theorem newId_fresh (h : s.takes.length + s.frecs.length + 2 ≤ 2 ^ 32) : s.newId.1 < 2 ^ 32 ∧ s.newId.1 ∉ s.usedIds := by
  have chosen : s.newId.1 = (((List.range (s.takes.length + s.frecs.length + 2)).map
      fun i => (s.freeVal.1.toNat + i) % 2 ^ 32).find? fun m => decide (m ∉ s.usedIds)).getD 1 := by
    unfold State.newId
    dsimp only
    congr 2
    funext m
    rw [Bool.eq_iff_iff]
    simp [State.usedIds, and_assoc]
  rw [chosen]
  cases found : List.find? _ _ with
  | some m =>
    obtain ⟨i, -, e⟩ := List.mem_map.1 (List.mem_of_find?_eq_some found)
    exact ⟨e ▸ Nat.mod_lt _ (by decide), of_decide_eq_true (List.find?_some (p := fun m => decide (m ∉ s.usedIds)) found)⟩
  | none =>
    have used : ((List.range (s.takes.length + s.frecs.length + 2)).map fun i => (s.freeVal.1.toNat + i) % 2 ^ 32) ⊆ s.usedIds :=
      fun m hm => by simpa using List.find?_eq_none.1 found m hm
    have few := ((candidates_nodup s.freeVal.1.toNat _ h).subperm used).length_le
    simp [State.usedIds] at few

theorem checkAll_queued {fn : Nat} {w : Nat → Word} {cap : BitVec 2} {full : Bool} {x : Take} (h : s.checkAll fn w cap full = .ok x) :
    x.st = .queued := by
  unfold State.checkAll at h
  dsimp only at h
  split at h
  · cases h
  · split at h
    · cases h
    · split at h
      · cases h
      · split at h
        case h_6 =>
          split at h
          · cases h
          · split at h
            · cases h
            · cases h; rfl
        all_goals cases h

/-! ### The acceptance of a record (R191, R295, R296) -/

variable {fn : Nat} {x : Submit} {rest : List Submit}

/-- What the stage manager makes of a record: the machine when it has read it, and what it has seen. -/
theorem submit_absent (h : s.submitOk fn x = false) : s.submit fn x = (s, 0) := by
  simp [State.submit, h]

theorem submit_refused {r : Refused} (h : s.submitOk fn x = true)
    (hr : (s.readRecord fn x).2.checkAll fn ((s.readRecord fn x).2.recordWord fn x) x.cap x.full = .error r) :
    (s.submit fn x).1 = (s.readRecord fn x).1.complete fn (parseHeader ((s.readRecord fn x).2.recordWord fn x)).cmpl
      (parseHeader ((s.readRecord fn x).2.recordWord fn x)).vec.toNat (completion 2 r.code r.index 0) 0 r.detail 0 := by
  simp [State.submit, h, hr]

/-- The take that is accepted, added with its new identifier. -/
def State.accepts (s : State) (x : Take) : State := { s.newId.2 with takes := s.takes ++ [{ x with id := s.newId.1 }] }

theorem submit_accepted {k : Take} (h : s.submitOk fn x = true)
    (hr : (s.readRecord fn x).2.checkAll fn ((s.readRecord fn x).2.recordWord fn x) x.cap x.full = .ok k) :
    (s.submit fn x).1 = ((s.readRecord fn x).1.accepts k).complete fn
      (parseHeader ((s.readRecord fn x).2.recordWord fn x)).cmpl
      (parseHeader ((s.readRecord fn x).2.recordWord fn x)).vec.toNat (completion 1 0 0 (s.readRecord fn x).1.newId.1) 0 0 0 := by
  simp only [State.submit, h, hr]; rfl

/-- The machine when the oldest record is taken from a function's queue. -/
def State.dequeued (s : State) (fn : Nat) (rest : List Submit) : State := s.updFn fn fun f => { f with queue := rest }

theorem onlyFn_dequeued (s : State) (fn : Nat) (rest : List Submit) :
    OnlyFn s (s.dequeued fn rest) fn { s.fn fn with queue := rest } := onlyFn_updFn s fn _

/-- The references that LAUNCH ignores (R294), in the numbers of their bits. -/
theorem launch_bad_iff (ref : Word) :
    (decide (2 ≤ bits ref 1 0) || decide (bits ref 7 2 ≠ 0)) = true ↔ 2 ≤ ref.toNat % 4 ∨ ref.toNat / 4 % 64 ≠ 0 := by
  rw [Bool.or_eq_true, decide_eq_true_iff, decide_eq_true_iff]
  simp [bits]

theorem exec_recordAccept (hd : (s.die (linkDie fn)).st = .reduced ∨ (s.die (linkDie fn)).st = .full)
    (hq : (s.fn fn).queue = x :: rest) (hx : x.spawn = none) :
    exec (.recordAccept fn) s = .next ((s.dequeued fn rest).submit fn x).1 := by
  change execRecordAccept fn s = _
  simp [execRecordAccept, State.dequeued, hq, hx, hd]

theorem exec_spawnReply {t' : Take} {cl k : Nat} {d : Reg} (ht : s.take? (s.ctx cl k).take = some t') (hs : (s.ctx cl k).stall = some (.spawn d))
    (hq : (s.fn t'.fn).queue = x :: rest) (hx : x.spawn = some (cl, k)) :
    let r := (s.dequeued t'.fn rest).submit t'.fn x
    exec (.spawnReply cl k) s =
      .next (r.1.updCtx cl k fun c => ({ c with stall := none }.setReg d (BitVec.ofNat 64 r.2)).advance 1) := by
  change execSpawnReply cl k s = _
  simp [execSpawnReply, State.dequeued, ht, hs, hq, hx]

theorem exec_takeSpawn {k : Take} {d b : Reg} {h : HReg} {tid off a : Nat} {c : Coord} (ht : s.myTake = some k)
    (hf : s.form k { h := h, nc := 0, c0 := b, c1 := 0, c2 := 0, c3 := 0 } 0 1 = .ok tid c off)
    (ha : s.translate k (k.tensor tid) off true false false = .ok (.key a)) :
    exec (.takeSpawn d h b) s = .next ((s.onMe fun c => { c with stall := some (.spawn d) }).updFn k.fn fun f => { f with
      queue := f.queue ++ [⟨0, some a, some (s.curCl, s.curK), s.me.prio, decide (64 ≤ s.qdepth k.fn)⟩] }) := by
  change execTakeSpawn d h b s = _
  have prio : (s.onMe fun c => { c with stall := some (.spawn d) }).me.prio = s.me.prio := by
    have stalled := congrArg CueCtx.prio (becomes_onMe s fun c => { c with stall := some (.spawn d) }).value
    exact stalled
  simp only [execTakeSpawn, ht, hf, ha]
  rw [prio]; rfl

/-- The completion record that is written, with its interrupt. -/
theorem complete_stores {ref : Word} {vec a : Nat} {w0 w1 w2 w3 : Word} (h0 : ref ≠ 0) (hr : s.resets fn = false)
    (ha : s.refKey fn ref = some a) : ∃ y,
    Stores s y a (wordBytes w0 ++ wordBytes w1 ++ wordBytes w2 ++ wordBytes w3) ∧ s.complete fn ref vec w0 w1 w2 w3 = y.msix fn vec := by
  have outside : isVault a = false := by
    unfold State.refKey at ha
    split at ha
    · cases ha
    · split at ha
      · cases ha
        exact decide_eq_false (by unfold hostKey; omega)
      · split at ha
        · exact poolKey_not_vault ha
        · cases ha
  refine ⟨s.writeWords a [w0, w1, w2, w3], ?_, by rw [State.complete, if_neg (by rw [hr, Bool.or_false]; exact fun e => h0 (of_decide_eq_true e)), ha]⟩
  have written := stores_write s a (wordBytes w0 ++ wordBytes w1 ++ wordBytes w2 ++ wordBytes w3) fun v => by
    rw [outside] at v; cases v
  simpa [State.writeWords, List.append_assoc] using written

/-- Settles O44: the queue of a function, and the stage manager's acceptance of its oldest record. -/
theorem submission : Obligations.Submission := by
  unfold Obligations.Submission
  refine ⟨fun s d b h t => ⟨?_, ?_⟩, fun s fn ref => ?_⟩
  · intro tid c off a ht hf ha
    rw [exec_takeSpawn ht hf ha]
    exact Goes.next ⟨_, becomes_onMe s _, onlyFn_updFn _ _ _⟩
  · intro cl k x rest c ht hs hq hx
    rw [exec_spawnReply ht hs hq hx]
    refine Goes.next ⟨_, onlyFn_dequeued s _ _, ?_⟩
    intro z v
    have replied := becomes_updCtx z cl k fun c => ({ c with stall := none }.setReg d v).advance 1
    refine ⟨?_, fun r hr => ?_, ?_⟩
    · rw [replied.value, CueCtx.reg_advance, CueCtx.reg_setReg_same]
    · rw [replied.value, CueCtx.reg_advance, CueCtx.reg_setReg_other _ _ hr]; rfl
    · rw [setReg_eq_with] at replied
      rwa [State.ctx_updCtx_same, CueCtx.advance, setReg_eq_with]
  intro f
  have launches : exec (.launch fn ref) s = execLaunch fn ref s := rfl
  refine ⟨fun hr => ?_, fun hr bad => ?_, fun hr low mid => ?_, fun x rest hd hq hx => ?_, fun vec w0 w1 w2 w3 a h0 hr ha => complete_stores h0 hr ha⟩
  · rw [launches]; simp [execLaunch, hr]
  · rw [launches, execLaunch, if_neg (by simp [hr]), if_pos ((launch_bad_iff ref).2 bad)]
    exact Goes.next (onlyFn_updFn s _ _)
  · rw [launches, execLaunch, if_neg (by simp [hr]), if_neg (mt (launch_bad_iff ref).1 (by omega))]
    exact Goes.next (onlyFn_updFn s _ _)
  · rw [exec_recordAccept hd hq hx]
    refine Goes.next ⟨_, onlyFn_dequeued s _ _, ?_⟩
    intro m seen w h
    refine ⟨fun errs banks => ?_, fun no => by rw [submit_absent no], fun r ok hr => submit_refused ok hr, fun t ok ht few => ?_⟩
    · have clean : Faultless (s.dequeued fn rest) := ⟨errs, banks⟩
      exact Prod.mk.inj (clean.readRecord fn x)
    · obtain ⟨takes, frecs⟩ := readRecord_takes (s.dequeued fn rest) fn x
      have same : m.takes = s.takes := takes
      have kept : m.frecs = s.frecs := frecs
      obtain ⟨small, fresh⟩ := newId_fresh (s := m) (by rw [same, kept]; exact few)
      obtain ⟨nonzero, others⟩ := not_or.1 (mt List.mem_cons.2 fresh)
      obtain ⟨noTake, noRecord⟩ := not_or.1 (mt List.mem_append.2 others)
      rw [same] at noTake
      rw [kept] at noRecord
      refine ⟨m.accepts t, m.newId.1, nonzero, small, fun k hk e => noTake (List.mem_map.2 ⟨k, hk, e⟩),
        fun r hr e => noRecord (List.mem_map.2 ⟨r, hr, e⟩), ?_, checkAll_queued ht, rfl, submit_accepted ok ht⟩
      rw [State.accepts, same]

end

end Sys2Proof.Machine
end

section
/-! PROOFS. Abort completions (O52): the event of an error, and how each requester fares. -/

namespace Sys2Proof.Machine

/-! ### The fields of an information word -/

/-- A field above what the lower bits hold. -/
theorem at_or_word (a lo : Nat) {v : Nat} (h : v < 2 ^ lo) : at_ a lo ||| .ofNat 64 v = .ofNat 64 (a * 2 ^ lo + v) := by
  rw [at_, ← BitVec.ofNat_or, ← Nat.shiftLeft_add_eq_or_of_lt h, Nat.shiftLeft_eq]

/-- The word of a UE event (R333) that names cluster and take. -/
theorem ueWord (cl id : Nat) :
    at_ 1 56 ||| at_ (cl % 256) 40 ||| at_ (id % 2 ^ 32) 0 = .ofNat 64 (2 ^ 56 + cl % 256 * 2 ^ 40 + id % 2 ^ 32) := by
  rw [BitVec.or_assoc, at_or_low _ (by omega), at_or_word _ _ (by omega)]
  exact congrArg (BitVec.ofNat 64) (by omega)

/-- The information of a DATA-ABORT at an output port (R276). -/
theorem portInfo (seq : Nat) {lp tid : Nat} (low : lp < 2 ^ 4) (ht : tid < 2 ^ 12) :
    at_ (seq % 65536) 32 ||| flag true 63 ||| flag true 62 ||| at_ lp 16 ||| at_ tid 0 =
      .ofNat 64 (2 ^ 63 + 2 ^ 62 + seq % 2 ^ 16 * 2 ^ 32 + lp * 2 ^ 16 + tid) := by
  have top : flag true 63 = at_ 1 63 := rfl
  have next : flag true 62 = at_ 1 62 := rfl
  have order : at_ (seq % 65536) 32 ||| at_ 1 63 ||| at_ 1 62 ||| at_ lp 16 ||| at_ tid 0 =
      at_ 1 63 ||| (at_ 1 62 ||| (at_ (seq % 65536) 32 ||| (at_ lp 16 ||| at_ tid 0))) := by
    simp only [BitVec.or_assoc]
    rw [← BitVec.or_assoc, BitVec.or_comm (at_ (seq % 65536) 32), BitVec.or_assoc, ← BitVec.or_assoc (at_ (seq % 65536) 32),
      BitVec.or_comm (at_ (seq % 65536) 32), BitVec.or_assoc]
  rw [top, next, order, at_or_low _ (by omega), at_or_word _ _ (by omega), at_or_word _ _ (by omega), at_or_word _ _ (by omega)]
  exact congrArg (BitVec.ofNat 64) (by omega)

/-- The information of a trap of a matrix interval without nibble and group (R224). -/
theorem intervalInfo_row (i : MxItem) {tid : Nat} (row : Nat) (ht : tid < 2 ^ 12) : intervalInfo i tid row 0 0 =
    .ofNat 64 (tid * 2 ^ 43 + row % 2 ^ 8 * 2 ^ 25 + i.next % 2 ^ 9 * 2 ^ 16 + i.pc.toNat) := by
  have low : i.pc.toNat < 2 ^ 16 := i.pc.isLt
  simp only [intervalInfo, BitVec.or_assoc]
  rw [at_or_low _ low, at_or_word _ _ (by omega), at_or_word _ _ (by omega), at_or_word _ _ (by omega), at_or_word _ _ (by omega)]
  exact congrArg (BitVec.ofNat 64) (by omega)

section
variable {s t u : State} {cl k : Nat}

/-! ### The event of an error (R265, R331, R333) -/

theorem elog_none {d : Nat} (h : (s.die d).elogbase = 0) (cl id : Nat) (w : Word) : s.elog d cl id w = s := by
  simp [State.elog, h]

/-- Without an error log, an error of a take that is no longer there leaves its interrupt alone. -/
theorem detectReq_gone {rq : Requester} (h : (s.die (reqCl rq / 64)).elogbase = 0) (ht : s.take? (s.reqTake rq) = none) (w : Word) :
    s.detectReq rq w = s.errorIrq (reqCl rq / 64) := by
  have none : (s.errorIrq (reqCl rq / 64)).take? (s.reqTake rq) = none := ht
  rw [State.detectReq, State.detectUe, dieOf, elog_none (s := s.errorIrq _) h, State.ueEvent, none]

/-- Without an error log, an error of a take is its interrupt and the event in the ring of the take's function. -/
theorem detectReq_event {rq : Requester} {x : Take} (h : (s.die (reqCl rq / 64)).elogbase = 0)
    (ht : s.take? (s.reqTake rq) = some x) (w : Word) : s.detectReq rq w = (s.errorIrq (reqCl rq / 64)).event x.fn
      (.ofNat 64 (2 ^ 56 + reqCl rq % 256 * 2 ^ 40 + x.id % 2 ^ 32)) w 0 := by
  have there : (s.errorIrq (reqCl rq / 64)).take? (s.reqTake rq) = some x := ht
  rw [State.detectReq, State.detectUe, dieOf, elog_none (s := s.errorIrq _) h, State.ueEvent, there]
  dsimp only
  rw [take?_id ht]
  rw [ueWord]

theorem event_lost {n : Nat} {w0 w1 w2 : Word} (hr : s.resets n = false)
    (h : (s.fn n).evbase = 0 ∨ ((s.fn n).evhead - (s.fn n).evtail).toNat = 16 * 2 ^ (s.fn n).esz.toNat) :
    OnlyFn s (s.event n w0 w1 w2) n { s.fn n with lost := true, lcnt := satInc (s.fn n).lcnt } := by
  rw [State.event, if_neg (by simp [hr]), if_pos (by simpa using h)]
  exact onlyFn_updFn s n _

/-- An event that is written in one run of memory, at the head of the ring. -/
theorem event_written {n a b : Nat} {w0 w1 w2 : Word} (hr : s.resets n = false) (base : (s.fn n).evbase ≠ 0)
    (room : ¬ ((s.fn n).evhead - (s.fn n).evtail).toNat = 16 * 2 ^ (s.fn n).esz.toNat) (hb : s.refKey n (s.fn n).evbase = some b)
    (run : s.refRuns n (s.fn n).evbase (32 * ((s.fn n).evhead.toNat % (16 * 2 ^ (s.fn n).esz.toNat))) 32 = [(a, 32)]) :
    ∃ y z, Stores s y a (wordBytes w0 ++ wordBytes w1 ++ wordBytes w2 ++ wordBytes 0) ∧
      OnlyFn y z n { s.fn n with evhead := (s.fn n).evhead + 1 } ∧ s.event n w0 w1 w2 = z.msix n (s.fn n).evvec.toNat := by
  have four : (wordBytes w0 ++ wordBytes w1 ++ wordBytes w2 ++ wordBytes 0).length = 32 := by
    simp [wordBytes, length_toBytes]
  have outside : isVault a = false := refRuns_not_vault (run ▸ List.mem_singleton.2 rfl : (a, 32) ∈ _)
  have written : s.refWrite n (s.fn n).evbase (32 * ((s.fn n).evhead.toNat % (16 * 2 ^ (s.fn n).esz.toNat)))
      (wordBytes w0 ++ wordBytes w1 ++ wordBytes w2 ++ wordBytes 0) =
      s.write a (wordBytes w0 ++ wordBytes w1 ++ wordBytes w2 ++ wordBytes 0) := by
    rw [State.refWrite, four, run]
    exact congrArg (s.write a) (List.take_of_length_le four.le)
  refine ⟨_, (s.write a (wordBytes w0 ++ wordBytes w1 ++ wordBytes w2 ++ wordBytes 0)).updFn n fun f => { f with evhead := f.evhead + 1 },
    stores_write s a _ fun v => (by rw [outside] at v; cases v), ?_, ?_⟩
  · have advanced := onlyFn_updFn (s.write a (wordBytes w0 ++ wordBytes w1 ++ wordBytes w2 ++ wordBytes 0)) n
      fun f => { f with evhead := f.evhead + 1 }
    have same : (s.write a (wordBytes w0 ++ wordBytes w1 ++ wordBytes w2 ++ wordBytes 0)).fn n = s.fn n := by
      have rest := congrArg (fun x : State => x.fn n) (s.write_rest a (wordBytes w0 ++ wordBytes w1 ++ wordBytes w2 ++ wordBytes 0))
      exact rest
    rwa [same] at advanced
  · rw [State.event, if_neg (by simp [hr]), if_neg (by
      rw [Bool.or_eq_true, decide_eq_true_iff, decide_eq_true_iff]; exact not_or.2 ⟨base, room⟩), hb]
    dsimp only
    rw [written]

/-! ### The cue contexts' requests (R173, R265) -/

/-- What the requester of a load is told. -/
theorem loadInfo (amo : Bool) (tid : BitVec 12) :
    flag amo 63 ||| at_ tid.toNat 0 = .ofNat 64 ((if amo then 2 ^ 63 else 0) + tid.toNat) := by
  have low : tid.toNat < 2 ^ 12 := tid.isLt
  cases amo
  · rw [at_zero]; simp [flag]
  · exact at_or_low 1 (by omega)

theorem abortLoad_load {n : Nat} {d : Reg} {sz : Size} {w : Bool} {tid : BitVec 12} {amo : Option (AmoOp × Word)} {off : Nat}
    (h : (s.ctx cl k).stall = some (.load n d sz w tid amo off)) (can : CanTrap { s with curCl := cl, curK := k } 9) :
    TrapsAt s (s.abortReq false (.cueLoad cl k)) cl k 9 (.ofNat 64 ((if amo = none then 0 else 2 ^ 63) + tid.toNat)) 0 (s.ctx cl k).pc := by
  obtain ⟨⟨x, hx, act⟩, calm, noHandler⟩ := can
  have awake := becomes_updCtx s cl k fun c => { c with stall := none }
  have trapped := trapsAt_takeTrap (s := s.updCtx cl k fun c => { c with stall := none }) (cl := cl) (k := k) (code := 9)
    (by rw [awake.value]; exact hx) act (by rw [awake.value]; exact calm) (by rw [awake.value]; exact noHandler)
    (flag amo.isSome 63 ||| at_ tid.toNat 0) 0 (s.ctx cl k).pc
  have all := awake.trans trapped
  have info : (if amo.isSome then 2 ^ 63 else 0) = if amo = none then 0 else 2 ^ 63 := by cases amo <;> rfl
  rw [awake.value] at all
  rw [State.abortReq, State.abortLoad, h, ← info, ← loadInfo]
  exact all

theorem abortLoad_store {n : Nat} {v : Word} {sz : Size} {tid : BitVec 12} {off base len : Nat}
    (h : (s.ctx cl k).stall = some (.store n v sz tid off base len)) : Becomes s (s.abortReq false (.cueLoad cl k)) cl k
      { s.ctx cl k with
        stall := none, aborts := (s.ctx cl k).aborts ++ [⟨tid, none⟩], pc := (s.ctx cl k).pc + .ofNat 16 (4 * n) } := by
  have resumed := becomes_updCtx s cl k fun c => { c with stall := none, aborts := c.aborts ++ [(⟨tid, none⟩ : WrAbort)] }.advance n
  rw [State.abortReq, State.abortLoad, h]
  exact resumed

/-- The first posted write of the description is dropped. -/
theorem dropPosted_append (q : Posted → Bool) {l r : List Posted} {p : Posted} (hp : q p = true) (hl : ∀ x ∈ l, q x = false) :
    dropPosted q (l ++ p :: r) = l ++ r := by
  induction l with
  | nil => simp [dropPosted, hp]
  | cons x l ih =>
    rw [List.cons_append, dropPosted, hl x List.mem_cons_self, ih fun y hy => hl y (List.mem_cons_of_mem x hy)]; rfl

theorem abortStore_posted {l r : List Posted} {p : Posted} (h : (s.ctx cl k).posted = l ++ p :: r)
    (first : ∀ x ∈ l, ¬ (x.tid = p.tid ∧ x.mx = p.mx)) : Becomes s (s.abortStore cl k p.tid p.mx) cl k
      { s.ctx cl k with posted := l ++ r, aborts := (s.ctx cl k).aborts ++ [⟨.ofNat 12 p.tid, p.mx⟩] } := by
  have kept := becomes_updCtx s cl k fun c => { c with
    posted := dropPosted (fun x => x.tid == p.tid && x.mx == p.mx) c.posted
    aborts := c.aborts ++ [(⟨.ofNat 12 p.tid, p.mx⟩ : WrAbort)] }
  rw [h, dropPosted_append _ (by simp) fun x hx => by simpa using first x hx] at kept
  exact kept

/-! ### The replay of a region (R331, R335) -/

section
variable {α β : Type} [DecidableEq α]

/-- Entries that none of a list of updates concerns are as before. -/
theorem tget_foldl_tupd_out (d : α) (num : β → Nat) (f : β → α → α) (l : List β) (t : Table α) {n : Nat} (h : ∀ x ∈ l, n ≠ num x) :
    tget d (l.foldl (fun t x => tupd d t (num x) (f x)) t) n = tget d t n := by
  induction l generalizing t with
  | nil => rfl
  | cons x l ih =>
    exact (ih _ fun y hy => h y (List.mem_cons_of_mem x hy)).trans (tget_tupd_other d t (f x) (h x List.mem_cons_self))

/-- Of updates that may be made twice, each in its own entry. -/
theorem tget_foldl_tupd_in (d : α) (num : β → Nat) (inj : ∀ x y, num x = num y → x = y) (f : β → α → α)
    (twice : ∀ x a, f x (f x a) = f x a) (l : List β) (t : Table α) {x : β} (hx : x ∈ l) :
    tget d (l.foldl (fun t x => tupd d t (num x) (f x)) t) (num x) = f x (tget d t (num x)) := by
  classical
  induction l generalizing t with
  | nil => cases hx
  | cons y l ih =>
    by_cases later : x ∈ l
    · refine (ih (tupd d t (num y) (f y)) later).trans ?_
      by_cases same : x = y
      · rw [same, tget_tupd_same, twice]
      · rw [tget_tupd_other d t (f y) (mt (inj x y) same)]
    · obtain rfl := (List.mem_cons.1 hx).resolve_right later
      exact (tget_foldl_tupd_out d num f l _ fun z hz e => later (by rwa [inj x z e])).trans (tget_tupd_same d t _ (f x))

end

/-- A consumer is given tokens again from its checkpoint on. -/
def Consumer.rewound (rid : Nat) (x : Consumer) : Consumer := if x.rid = rid then { x with rd := x.rptr } else x

def InPort.rewound (rid : Nat) (p : InPort) : InPort := { p with cons := p.cons.map (Consumer.rewound rid) }

/-- The tokens that a region has sent since its checkpoint are withdrawn. -/
def OutPort.withdrawn (rid : Nat) (p : OutPort) : OutPort :=
  match p.held.find? fun t => t.rid == some rid with
  | some x => { p with held := p.held.filter (fun t => t.rid != some rid), nacc := x.elem }
  | none => p

theorem OutPort.withdrawn_none {rid : Nat} {p : OutPort} (h : ∀ y ∈ p.held, y.rid ≠ some rid) : p.withdrawn rid = p := by
  rw [OutPort.withdrawn, List.find?_eq_none.2 (by simpa using h)]

theorem OutPort.withdrawn_some {rid : Nat} {p : OutPort} {l r : List OutTok} {y : OutTok} (h : p.held = l ++ y :: r)
    (hl : ∀ z ∈ l, z.rid ≠ some rid) (hy : y.rid = some rid) :
    p.withdrawn rid = { p with held := l ++ r.filter fun z => z.rid != some rid, nacc := y.elem } := by
  have found : (l ++ y :: r).find? (fun t => t.rid == some rid) = some y := by
    rw [List.find?_append, List.find?_eq_none.2 (by simpa using hl)]
    simp [hy]
  have left : l.filter (fun z => z.rid != some rid) = l := List.filter_eq_self.2 (by simpa using hl)
  rw [OutPort.withdrawn, h, found]
  simp [left, hy]

/-- The fabric of a cluster when region `rid`, that is `g`, is back at its checkpoint. -/
def Cluster.rolledBack (g : Region) (rid : Nat) (c : Cluster) : Cluster := { c with
  banks := g.els.foldl (fun b e => tupd {} b (g.bankNo e) fun x => x.restored (tget {} g.shadow e)) c.banks
  outp := if g.fresh then c.outp else tmap {} (fun _ (p : OutPort) => p.withdrawn rid) c.outp
  inp := tmap {} (fun _ (p : InPort) => p.rewound rid) c.inp }

/-- The region that goes on from its checkpoint, at once. -/
def Region.backOn (g : Region) : Region := { g with
  rstate := if g.rstate = .frozen then .frozen else .run, was := if g.rstate = .frozen then some .run else g.was
  settleFor := false || g.settleFor, cnt := g.rstamp, iter := g.riter, moved := false, held := false }

/-- The machine when a running region is back at its checkpoint. -/
def State.rewound (s : State) (cl rid : Nat) : State :=
  ((s.updRegion cl rid fun g => { g with lostOnce := true }).updCluster cl
    (Cluster.rolledBack (s.region cl rid) rid)).updRegion cl rid Region.backOn

/-- A replay of a running region that has lost nothing (R331, R335). -/
theorem replay_run {rid : Nat} (run : (s.region cl rid).rstate = .run) (rail : (s.region cl rid).settleFor = false)
    (once : (s.region cl rid).lostOnce = false) (kept : s.lostPort cl rid = none) : s.replay cl rid false =
      (s.rewound cl rid).updTake (s.region cl rid).take fun t => { t with fr := { t.fr with replays := satInc t.fr.replays } } := by
  have marked : (s.updRegion cl rid fun g => { g with lostOnce := true }).region cl rid = { s.region cl rid with lostOnce := true } :=
    s.region_updRegion_same cl rid _
  have window : (s.updRegion cl rid fun g => { g with lostOnce := true }).lostPort cl rid = none := by
    rw [State.lostPort, State.updRegion, State.cluster_updCluster_same]; exact kept
  have playing : (s.region cl rid).running = .run := by simp [Region.running, Region.thaw, run]
  unfold State.replay
  simp only [once, playing, window, Bool.and_false, Bool.false_eq_true, if_false, ne_eq, not_true, State.rollBack, marked, rail]
  rfl

section
variable {rid : Nat}

theorem cluster_rewound (j : Nat) (h : j ≠ cl) : (s.rewound cl rid).cluster j = s.cluster j :=
  (State.cluster_updCluster_other _ h _).trans ((State.cluster_updCluster_other _ h _).trans (State.cluster_updCluster_other _ h _))

theorem onlyFabric_rolledBack (s : State) (cl : Nat) (g : Region) (r : Nat) :
    OnlyFabric s (s.updCluster cl (Cluster.rolledBack g r)) cl := onlyFabric_updCluster s cl fun _ => rfl

theorem onlyFabric_rewound (s : State) (cl rid : Nat) : OnlyFabric s (s.rewound cl rid) cl :=
  ((onlyFabric_updRegion s cl rid _).trans (onlyFabric_rolledBack _ cl (s.region cl rid) rid)).trans (onlyFabric_updRegion _ cl rid _)

theorem region_rewound (run : (s.region cl rid).rstate = .run) (rail : (s.region cl rid).settleFor = false) :
    (s.rewound cl rid).region cl rid = { s.region cl rid with
      rstate := .run, settleFor := false, cnt := (s.region cl rid).rstamp, iter := (s.region cl rid).riter
      moved := false, held := false, lostOnce := true } := by
  rw [State.rewound, State.region_updRegion_same, State.region_updCluster _ rfl, State.region_updRegion_same]
  simp [Region.backOn, run, rail]

theorem region_rewound_other {j : Nat} (h : j ≠ rid) : (s.rewound cl rid).region cl j = s.region cl j := by
  rw [State.rewound, State.region_updRegion, if_neg (by simp [h]), State.region_updCluster _ rfl, State.region_updRegion, if_neg (by simp [h])]

theorem cluster_rewound_fabric : (s.rewound cl rid).cluster cl =
    { (s.cluster cl).rolledBack (s.region cl rid) rid with regions := ((s.rewound cl rid).cluster cl).regions } := by
  simp only [State.rewound, State.updRegion, State.cluster_updCluster_same]
  rfl

theorem bankNo_inj (g : Region) (x y : Nat) (h : g.bankNo x = g.bankNo y) : x = y := by
  unfold Region.bankNo at h; omega

theorem bank_rewound_in {e : Nat} (h : e ∈ (s.region cl rid).els) :
    (s.rewound cl rid).bank cl ((s.region cl rid).bankNo e) =
      (s.bank cl ((s.region cl rid).bankNo e)).restored (tget {} (s.region cl rid).shadow e) := by
  rw [State.bank, cluster_rewound_fabric]
  exact tget_foldl_tupd_in ({} : Bank) (s.region cl rid).bankNo (bankNo_inj _)
    (fun e x => x.restored (tget {} (s.region cl rid).shadow e)) (fun _ _ => rfl) _ _ h

theorem bank_rewound_out {n : Nat} (h : ∀ e ∈ (s.region cl rid).els, n ≠ (s.region cl rid).bankNo e) :
    (s.rewound cl rid).bank cl n = s.bank cl n := by
  rw [State.bank, cluster_rewound_fabric]
  exact tget_foldl_tupd_out ({} : Bank) (s.region cl rid).bankNo (fun e x => x.restored (tget {} (s.region cl rid).shadow e)) _ _ h

theorem inPort_rewound (p : Nat) : (s.rewound cl rid).inPort cl p = (s.inPort cl p).rewound rid := by
  rw [State.inPort, cluster_rewound_fabric]
  exact tget_tmap ({} : InPort) (fun _ p => p.rewound rid) (fun _ => rfl) _ p

theorem outPort_rewound (p : Nat) : (s.rewound cl rid).outPort cl p =
    if (s.region cl rid).fresh then s.outPort cl p else (s.outPort cl p).withdrawn rid := by
  rw [State.outPort, cluster_rewound_fabric]
  dsimp only [Cluster.rolledBack]
  split
  · rfl
  · exact tget_tmap ({} : OutPort) (fun _ p => p.withdrawn rid) (fun _ => rfl) _ p

end

/-- What is noted of a take leaves the fabric of every cluster. -/
theorem updTake_fabric {w : State} {id : Nat} {f : Take → Take} (h : u = w.updTake id f) :
    u.region = w.region ∧ u.bank = w.bank ∧ u.inPort = w.inPort ∧ u.outPort = w.outPort := by
  subst h
  exact ⟨rfl, rfl, rfl, rfl⟩

theorem updTake_back {w : State} {id : Nat} {f : Take → Take} (h : u = w.updTake id f) (same : w.takes = s.takes) :
    { u with takes := s.takes } = w := by
  subst h
  rw [← same]; rfl

/-! ### The streams, the matrix engine and the copy engine (R224, R240, R276) -/

theorem staleReqs_givesUp (s : State) (rq : Requester) : (s.staleReqs fun r => r.rq == rq) = s.givesUp rq := by
  simp [State.staleReqs, State.givesUp]

/-- A trap from the fabric is held for the context of the take (R328). -/
theorem fabricTrap_held {id : Nat} {x : Take} (p : Pend) (hx : s.take? id = some x) (hk : s.ctxOf cl id = some k)
    (alive : (s.ctx cl k).kstate ≠ .exited) : s.fabricTrap cl id p = s.updCtx cl k fun c => { c with pend := c.pend ++ [p] } := by
  simp [State.fabricTrap, hx, hk, alive]

theorem inAbort_bound {p : Nat} {b : Binding} {x : Take} (hb : (s.inPort cl p).bound = some b) (hx : s.take? b.take = some x) :
    s.inAbort cl p = (s.laneCons cl p (x.logical cl false p) ((s.inPort cl p).got % b.pat.lanes)).foldl
      (fun u rid => u.replay cl rid false)
      ((s.updIn cl p fun x => { x with part := [], asked := 0, mxAsk := false }).givesUp (.inPort cl p)) := by
  rw [State.inAbort, hb]
  dsimp only
  rw [hx]
  dsimp only
  rw [State.staleIn, staleReqs_givesUp]

/-- A context of a take on a cluster is found among that cluster's contexts. -/
theorem ctxOf_congr (h : ∀ j, t.ctx cl j = s.ctx cl j) (id : Nat) : t.ctxOf cl id = s.ctxOf cl id := by
  unfold State.ctxOf
  simp only [h]

theorem logical_lt (x : Take) (cl : Nat) (out : Bool) (p : Nat) : x.logical cl out p < 2 ^ 4 := by
  unfold Take.logical
  split
  · exact BitVec.isLt _
  · decide

/-- A held token's abort completion stops its port, and the context that issued the BIND has DATA-ABORT (R265, R276). -/
theorem outReply_abort {p : Nat} {b : Binding} {x : Take} {w : Option (AmoOp × Word)} {rest : List (Option (AmoOp × Word))}
    {h : OutTok} {held : List OutTok}
    (hb : (s.outPort cl p).bound = some b) (hw : (s.outPort cl p).wait = w :: rest) (hh : (s.outPort cl p).held = h :: held)
    (hx : s.take? b.take = some x) (hk : s.ctxOf cl x.id = some k) (alive : (s.ctx cl k).kstate ≠ .exited) :
    s.outReply cl p .abort = ((s.updOut cl p fun o => { o with stop := true, wait := [], tile := 0 }).givesUp (.outPort cl p)).updCtx cl k
      fun c => { c with pend := c.pend ++ [⟨9, .ofNat 64 (2 ^ 63 + 2 ^ 62 + h.elem % 2 ^ 16 * 2 ^ 32 +
        x.logical cl true p * 2 ^ 16 + b.tid.toNat), 0⟩] } := by
  have same : (s.outPort cl p).wait.isEmpty = false := by rw [hw]; rfl
  have stopped : ((s.updOut cl p fun o => { o with stop := true, wait := [], tile := 0 }).givesUp (.outPort cl p)).ctxOf cl x.id = some k :=
    (ctxOf_congr (fun j => s.ctx_updOut _) x.id).trans hk
  have there : s.take? x.id = some x := (take?_id hx).symm ▸ hx
  rw [State.outReply]
  simp only [hb, hx, same, hh, Bool.false_eq_true, if_false, List.headD_cons, State.stopPort]
  rw [portInfo h.elem (logical_lt x cl true p) b.tid.isLt, staleReqs_givesUp]
  exact fabricTrap_held _ there stopped (by
    have unchanged := s.ctx_updOut (cl := cl) (i := p) (c := cl) (j := k) fun o => { o with stop := true, wait := [], tile := 0 }
    exact fun e => alive ((congrArg CueCtx.kstate unchanged.symm).trans e))

theorem onlyPort_outReply {p : Nat} {x : CueCtx → CueCtx} :
    OnlyPort (s.givesUp (.outPort cl p))
      (((s.updOut cl p fun o => { o with stop := true, wait := [], tile := 0 }).givesUp (.outPort cl p)).updCtx cl k x) cl true p
      fun j y => if j = k then x y else y :=
  (onlyPort_updOut (s.givesUp (.outPort cl p)) cl p _).trans (onlyPort_updCtx _ cl k true p x)

/-- The read that an abort completion is for is the first that waits for data of its tensor. -/
theorem find_waits {l r : List MxRead} {tid row : Nat} (h : ∀ x ∈ l, ¬ (x.tid = tid ∧ x.val = none)) :
    (l ++ ⟨tid, row, none⟩ :: r).find? (fun x => x.waits tid) = some ⟨tid, row, none⟩ := by
  rw [List.find?_append, List.find?_eq_none.2 fun x hx => by simpa [MxRead.waits] using h x hx]
  simp [MxRead.waits]

theorem ctx_mxDiscard (s : State) (cl j : Nat) : (s.mxDiscard cl).ctx cl j = s.ctx cl j :=
  State.ctx_updCluster s (f := fun c => { c with mx := { c.mx with queue := [] } }) rfl cl j

theorem mxAbort_read {x : Take} {i : MxItem} {rest : List MxItem} {row tid : Nat} {l r : List MxRead}
    (held : (s.mxOf cl).holder = some x.id) (hx : s.take? x.id = some x) (hq : (s.mxOf cl).queue = i :: rest)
    (hr : i.reads = l ++ ⟨tid, row, none⟩ :: r) (first : ∀ x ∈ l, ¬ (x.tid = tid ∧ x.val = none)) (small : tid < 2 ^ 12)
    (hk : s.ctxOf cl x.id = some k) (alive : (s.ctx cl k).kstate ≠ .exited) :
    s.mxAbort cl tid = (s.mxDiscard cl).updCtx cl k fun c => { c with pend := c.pend ++ [⟨35,
      .ofNat 64 (tid * 2 ^ 43 + row % 2 ^ 8 * 2 ^ 25 + i.next % 2 ^ 9 * 2 ^ 16 + i.pc.toNat), 0⟩] } := by
  have holder : (s.mxOf cl).holder.bind s.take? = some x := by rw [held]; exact hx
  have same := ctx_mxDiscard s cl
  rw [State.mxAbort, holder, hq]
  dsimp only
  rw [hr, find_waits first]
  dsimp only
  rw [State.mxStop, intervalInfo_row i row small]
  exact fabricTrap_held _ hx ((ctxOf_congr same x.id).trans hk) (by rwa [same])

/-- What the engine's queue leaves behind it: the requests that are given up, and one context's trap. -/
theorem mxDiscard_frame (f : CueCtx → CueCtx) :
    let u := (s.mxDiscard cl).updCtx cl k f
    u.mxOf cl = { s.mxOf cl with queue := [] } ∧ OnlyCluster s { u with reqs := s.reqs } cl ∧
    u.reqs = (s.reqs.map fun r => match r.rq with
      | .matrix c _ => if c = cl then { r with stale := true } else r
      | _ => r) ∧
    (∀ j, u.ctx cl j = if j = k then f (s.ctx cl k) else s.ctx cl j) ∧
    { u.cluster cl with ctx := (s.cluster cl).ctx, mx := (s.cluster cl).mx } = s.cluster cl := by
  intro u
  have same := ctx_mxDiscard s cl
  have inside : u.cluster cl =
      { s.cluster cl with mx := { s.mxOf cl with queue := [] }, ctx := tupd {} (s.cluster cl).ctx k f } := by
    have set := State.cluster_updCluster_same (s.mxDiscard cl) cl fun c => { c with ctx := tupd {} c.ctx k f }
    have queue := State.cluster_updCluster_same s cl fun c => { c with mx := { c.mx with queue := [] } }
    have drained : (s.mxDiscard cl).cluster cl = { s.cluster cl with mx := { s.mxOf cl with queue := [] } } := queue
    rw [drained] at set
    exact set
  refine ⟨?_, ?_, ?_, fun j => ?_, ?_⟩
  · rw [State.mxOf, inside]
  · exact (onlyCluster_updCluster s cl fun c => { c with mx := { c.mx with queue := [] } }).trans
      (onlyCluster_updCluster _ cl fun c => { c with ctx := tupd {} c.ctx k f })
  · refine List.map_congr_left fun r _ => ?_
    obtain ⟨pkg, rq⟩ := r
    cases rq <;> simp
  · rw [State.ctx_updCtx, same, same]; simp
  · rw [inside]

/-- An update of one entry of a copy engine. -/
theorem onlyEntry_updEnt (s : State) (cl id e : Nat) (f : CopyEnt → CopyEnt) :
    OnlyEntry s (s.updEnt cl id e f) cl id e (f (tget {} (s.copyOf cl id).ents e)) := by
  have inside : (s.updEnt cl id e f).copyOf cl id = { s.copyOf cl id with ents := tupd {} (s.copyOf cl id).ents e f } := by
    rw [State.copyOf, State.updEnt, State.updCopy, State.cluster_updCluster_same]
    dsimp only
    rw [tget_tput_same]; rfl
  refine ⟨by rw [inside, tget_tupd_same], fun j hj => by rw [inside, tget_tupd_other _ _ _ hj], by rw [inside], rfl, fun j hj => ?_, ?_, ?_⟩
  · rw [State.copyOf, State.updEnt, State.updCopy, State.cluster_updCluster_same]
    dsimp only
    rw [tget_tput_other _ _ _ hj]; rfl
  · rw [State.updEnt, State.updCopy, State.cluster_updCluster_same]
  · exact onlyCluster_updCluster s cl _

theorem copyReply_abort {x : Take} {w : Sched} {e : Nat} (hx : s.take? x.id = some x) (hw : x.sched[e]? = some w)
    (fin : (tget {} (s.copyOf cl x.id).ents e).fin = none) (stamp : (tget {} (s.copyOf cl x.id).ents e).stamp = none) :
    OnlyEntry s (s.copyReply cl x.id e false .abort) cl x.id e
      { tget {} (s.copyOf cl x.id).ents e with fin := some 1, asked := 0, vals := [] } := by
  have replied := onlyEntry_updEnt s cl x.id e fun y => y.reply (flowOf x w y.opr y.slots.length) false .abort
  have ended : (tget {} (s.copyOf cl x.id).ents e).reply (flowOf x w (tget {} (s.copyOf cl x.id).ents e).opr
      (tget {} (s.copyOf cl x.id).ents e).slots.length) false .abort =
      { tget {} (s.copyOf cl x.id).ents e with fin := some 1, asked := 0, vals := [] } := by
    generalize tget {} (s.copyOf cl x.id).ents e = y at *
    simp [CopyEnt.reply, stamp, CopyEnt.finish, fin, ecAbort]
  rw [State.copyReply, hx]
  dsimp only
  rw [hw]
  exact ended ▸ replied

end

/-- Settles O52: the detection of an error, the event, and the fate of each requester. -/
theorem abortCompletions : Obligations.AbortCompletions := by
  unfold Obligations.AbortCompletions
  refine ⟨fun s rq => ?_, fun s n w0 w1 w2 hr => ?_, fun s cl k => ?_⟩
  · intro cl d irq
    have logged : Reports irq d := reports_log s (dieOf cl) cl (s.reqTake rq) (.ofNat 64 (2 ^ 63))
    obtain ⟨l, hl⟩ := logged.outbox
    exact ⟨rfl, ⟨l, hl.trans (List.append_assoc _ _ _)⟩, logged.takes, logged.reqs, logged.agenda,
      fun no => ⟨fun gone => detectReq_gone no gone _, fun t ht => detectReq_event no ht _⟩⟩
  · exact ⟨event_lost hr, fun a b base room hb run => event_written hr base room hb run⟩
  intro c
  refine ⟨fun n d sz u tid amo off h can => abortLoad_load h can, fun n v sz tid off base len h => abortLoad_store h,
    fun l p r h first => ?_, fun rid => ⟨fun active => ?_, fun run rail once kept => ?_⟩,
    fun p b t hb ht ask => ?_, fun p b t w rest x held => ?_,
    fun t i rest row tid l r => ?_, fun t w e => ?_, fun n => rfl⟩
  case refine_1 =>
    have kept := abortStore_posted h first
    cases hp : p.mx with
    | none => rw [hp] at kept; exact kept
    | some q => rw [hp] at kept; exact kept
  case refine_2 => rw [State.abortReq, State.replyAbort, if_pos active]
  case refine_3 =>
    intro u
    have rolled : u = _ := replay_run run rail once kept
    obtain ⟨regions, banks, inputs, outputs⟩ := updTake_fabric rolled
    rw [regions, banks, inputs, outputs]
    refine ⟨region_rewound run rail, fun j hj => region_rewound_other hj, fun e he => bank_rewound_in he,
      fun n hn => bank_rewound_out hn, inPort_rewound, fun p hp => ?_, fun p l y r fresh hl first hy => ?_, ?_, ?_⟩
    · refine (outPort_rewound p).trans ?_
      split
      next => rfl
      next old => exact OutPort.withdrawn_none (hp.resolve_left old)
    · refine (outPort_rewound p).trans ?_
      rw [fresh]
      exact OutPort.withdrawn_some hl first hy
    · exact congrArg State.takes rolled
    · have fabric := onlyFabric_rewound s cl rid
      have kept : (s.rewound cl rid).takes = s.takes := rfl
      rwa [← updTake_back rolled kept] at fabric
  case refine_4 =>
    rw [State.abortReq, State.portAbort]
    simp only [ask, Bool.false_eq_true, if_false]
    exact inAbort_bound hb ht
  case refine_5 =>
    intro o hb hw hh ht hk alive u
    have stopped : u = _ := outReply_abort hb hw hh ht hk alive
    rw [stopped]
    refine ⟨?_, onlyPort_outReply⟩
    rw [State.outPort_updCtx]
    exact State.outPort_updOut_same s cl p _
  case refine_6 =>
    intro m held ht hq hr first small hk alive u
    have stopped : u = _ := mxAbort_read held ht hq hr first small hk alive
    rw [stopped]
    exact mxDiscard_frame _
  case refine_7 =>
    intro x ht hw active fin stamp
    exact copyReply_abort ht hw fin stamp

end Sys2Proof.Machine
end

section
/-! PROOFS. The ends of takes (O54): CANCEL, TAKECTL and FREL, and what the steps of R309 leave of the contexts, the takes and
the copy engines. -/

namespace Sys2Proof.Machine

section
variable {s t u : State}

/-! ### The answers of CANCEL, TAKECTL and FREL (R308, R329, R332) -/

/-- What a step makes of a take, and nothing else. -/
theorem onlyTake_updTake {id : Nat} {x : Take} {f : Take → Take} (hf : ∀ x, (f x).id = x.id) (h : s.take? id = some x) :
    OnlyTake s (s.updTake id f) id (f x) :=
  ⟨take?_updTake_same hf h, fun _ hj => take?_updTake_other hf hj, rfl⟩

/-- A take that is asked to freeze. -/
theorem onlyTake_askFreeze {id : Nat} {x : Take} (w : Why) (h : s.take? id = some x) (st : x.st = .running ∨ x.st = .frozen) :
    OnlyTake s (s.askFreeze id w) id { x with why := x.why ++ [w] } := by
  have asked := onlyTake_updTake (f := fun t => if t.st = .running || t.st = .frozen then { t with why := t.why ++ [w] } else t)
    (fun y => by split <;> rfl) h
  rwa [if_pos (by simpa using st)] at asked

/-- A saved take that is ended without restore: its clean-up follows. -/
theorem onlyTake_abortSaved {id : Nat} {x : Take} (code : Nat) (h : s.take? id = some x) :
    OnlyTake { s with agenda := s.agenda ++ [.dev (.takeEnd id)] } (s.abortSaved id code) id
      { x with code := .ofNat 8 code, stopped := false, st := .ending, why := [] } := by
  have coded := take?_updTake_same (f := fun t => { t with code := .ofNat 8 code, stopped := false }) (fun _ => rfl) h
  refine ⟨take?_updTake_same (f := fun t => { t with st := .ending, why := [] }) (fun _ => rfl) coded, fun j hj => ?_, rfl⟩
  exact (take?_updTake_other (f := fun t => { t with st := .ending, why := [] }) (fun _ => rfl) hj).trans
    (take?_updTake_other (f := fun t => { t with code := .ofNat 8 code, stopped := false }) (fun _ => rfl) hj)

theorem take?_dropTake (s : State) (x : Take) (j : Nat) : (s.dropTake x).take? j = if j = x.id then none else s.take? j := by
  have dropped : (s.dropTake x).take? j = (s.takes.filter fun u => u.id != x.id).find? fun u => u.id == j := rfl
  rw [dropped, List.find?_filter]
  split
  next e => exact List.find?_eq_none.2 fun u _ => by simp [e]
  next e =>
    refine congrArg (fun q => List.find? q s.takes) (funext fun u => ?_)
    by_cases hu : u.id = j <;> simp [hu, e]

theorem rplots_dropTake (s : State) (x : Take) (y : RPlot) :
    y ∈ (s.dropTake x).rplots ↔ y ∈ s.rplots ∧ y.frame ∉ x.hbmFrames := by
  simp [State.dropTake]

theorem onlyFn_dropTake (s : State) (x : Take) :
    OnlyFn { s with takes := (s.dropTake x).takes, pleases := (s.dropTake x).pleases, rplots := (s.dropTake x).rplots }
      (s.dropTake x) x.fn { s.fn x.fn with lsuse := (s.fn x.fn).lsuse - .ofNat 32 x.leaseCount } :=
  ⟨s.fn_updFn_same x.fn fun f => { f with lsuse := f.lsuse - .ofNat 32 x.leaseCount },
   fun _ hj => s.fn_updFn_other hj fun f => { f with lsuse := f.lsuse - .ofNat 32 x.leaseCount }, rfl⟩

/-- A take that TAKECTL does not find stopped in the function. -/
theorem stoppedTake_none {fn id : Nat} {x : Take} (h : s.take? id = some x) (no : x.fn ≠ fn ∨ x.st ≠ .saved ∨ x.stopped = false) :
    s.stoppedTake fn id = none := by
  rw [State.stoppedTake, h]
  exact if_neg (by simpa [and_assoc, imp_iff_not_or] using no)

theorem stoppedTake_some {id : Nat} {x : Take} (h : s.take? id = some x) (saved : x.st = .saved) (stopped : x.stopped = true) :
    s.stoppedTake x.fn id = some x := by
  rw [State.stoppedTake, h]
  exact if_pos (by simp [saved, stopped])

/-! ### What the clean-up leaves of the contexts (R309) -/

/-- The registers that a context shows outlive its take, and a context that is released stays so. -/
structure Settles (s t : State) : Prop where
  regs : ∀ cl k, (t.ctx cl k).s = (s.ctx cl k).s
  prds : ∀ cl k, (t.ctx cl k).p = (s.ctx cl k).p
  hnds : ∀ cl k, (t.ctx cl k).h = (s.ctx cl k).h
  pc   : ∀ cl k, (t.ctx cl k).pc = (s.ctx cl k).pc
  idle : ∀ cl k, (s.ctx cl k).kstate = .idle → (s.ctx cl k).take = 0 → (t.ctx cl k).kstate = .idle ∧ (t.ctx cl k).take = 0

theorem Settles.refl (s : State) : Settles s s := ⟨fun _ _ => rfl, fun _ _ => rfl, fun _ _ => rfl, fun _ _ => rfl, fun _ _ h g => ⟨h, g⟩⟩

theorem Settles.trans (h : Settles s t) (g : Settles t u) : Settles s u where
  regs cl k := (g.regs cl k).trans (h.regs cl k)
  prds cl k := (g.prds cl k).trans (h.prds cl k)
  hnds cl k := (g.hnds cl k).trans (h.hnds cl k)
  pc cl k := (g.pc cl k).trans (h.pc cl k)
  idle cl k i z := g.idle cl k (h.idle cl k i z).1 (h.idle cl k i z).2

theorem Settles.foldl {α : Type} {f : State → α → State} (h : ∀ s x, Settles s (f s x)) (l : List α) (s : State) :
    Settles s (l.foldl f s) := by
  induction l generalizing s with
  | nil => exact .refl s
  | cons x l ih => exact (h s x).trans (ih _)

/-- Contexts that are as before, or released. -/
theorem settles_of_cases (h : ∀ cl k, (∃ m, t.ctx cl k = { s.ctx cl k with mon := m }) ∨ t.ctx cl k = (s.ctx cl k).released) :
    Settles s t := by
  have case (cl k : Nat) : (t.ctx cl k).s = (s.ctx cl k).s ∧ (t.ctx cl k).p = (s.ctx cl k).p ∧ (t.ctx cl k).h = (s.ctx cl k).h ∧
      (t.ctx cl k).pc = (s.ctx cl k).pc ∧
      ((s.ctx cl k).kstate = .idle → (s.ctx cl k).take = 0 → (t.ctx cl k).kstate = .idle ∧ (t.ctx cl k).take = 0) := by
    obtain ⟨m, e⟩ | e := h cl k <;> rw [e]
    · exact ⟨rfl, rfl, rfl, rfl, fun i z => ⟨i, z⟩⟩
    · exact ⟨rfl, rfl, rfl, rfl, fun _ _ => ⟨rfl, rfl⟩⟩
  exact ⟨fun cl k => (case cl k).1, fun cl k => (case cl k).2.1, fun cl k => (case cl k).2.2.1, fun cl k => (case cl k).2.2.2.1,
    fun cl k => (case cl k).2.2.2.2⟩

theorem SameContexts.settles (h : SameContexts s t) : Settles s t := settles_of_cases fun cl k => .inl (h.ctx cl k)

theorem settles_of_ctx (h : ∀ cl k, t.ctx cl k = s.ctx cl k) : Settles s t :=
  settles_of_cases fun cl k => .inl ⟨(s.ctx cl k).mon, h cl k⟩

/-- An update of a cluster that keeps its contexts. -/
theorem settles_updCluster (s : State) (cl : Nat) {f : Cluster → Cluster} (h : ∀ c, (f c).ctx = c.ctx) : Settles s (s.updCluster cl f) :=
  settles_of_ctx fun c k => State.ctx_updCluster s (h _) c k

theorem settles_release (s : State) (cl k : Nat) : Settles s (s.updCtx cl k CueCtx.released) :=
  settles_of_cases fun c j => by
    rw [State.ctx_updCtx]
    split
    next e => obtain ⟨rfl, rfl⟩ := e; exact .inr rfl
    next => exact .inl ⟨_, rfl⟩

/-! ### The steps of the clean-up (R309) -/

theorem settles_updZone (s : State) (cl n : Nat) (f : Zone → Zone) : Settles s (s.updZone cl n f) :=
  settles_updCluster s cl (f := fun c => { c with zones := tupd {} c.zones n f }) fun _ => rfl

theorem tryWrite_cases (s : State) (a : Nat) (l : List Byte) : s.tryWrite a l = some (s.write a l) ∨ s.tryWrite a l = none := by
  unfold State.tryWrite
  split
  · exact .inr rfl
  · exact .inl rfl

/-- The zone when its status word has been written, or the write has met an error. -/
def State.zswTried (s : State) (cl n key : Nat) (w : Word) : Option State → State
  | some s => s.updZone cl n fun z => { z with word := w }
  | none => (s.uncorrectable key 8 cl (s.zone cl n).owner).updZone cl n fun z => { z with word := w ||| flag true 59 }

theorem writeZsw_eq (s : State) (cl n : Nat) (w : Word) : s.writeZsw cl n w =
    s.zswTried cl n (vaultKey cl (s.zone cl n).zsw.toNat) w
      (s.tryWrite (vaultKey cl (s.zone cl n).zsw.toNat) (wordBytes (w &&& ~~~ flag true 59))) := rfl

theorem settles_writeZsw (s : State) (cl n : Nat) (w : Word) : Settles s (s.writeZsw cl n w) := by
  rw [writeZsw_eq]
  generalize vaultKey cl (s.zone cl n).zsw.toNat = a
  obtain e | e := tryWrite_cases s a (wordBytes (w &&& ~~~ flag true 59)) <;> rw [e]
  · exact (sameContexts_write s _ _).settles.trans (settles_updZone _ cl n _)
  · exact (sameContexts_uncorrectable s a 8 cl _).settles.trans (settles_updZone _ cl n _)

theorem settles_endZone (s : State) (cl n : Nat) (final : Bool) : Settles s (s.endZone cl n final) := by
  unfold State.endZone
  refine Settles.trans ?_ (settles_updZone _ cl n _)
  split
  · exact settles_writeZsw s cl n 0
  · exact .refl s

theorem settles_endZones (s : State) (own : Nat → Bool) (final : Bool) : Settles s (s.endZones own final) := by
  unfold State.endZones
  refine Settles.foldl (fun s c => Settles.foldl (fun s z => ?_) c.2.zones s) s.clusters s
  split
  · exact settles_endZone s _ _ _
  · exact .refl s

theorem settles_freeEach (s : State) (cl : Nat) (l : List Nat) : Settles s (l.foldl (fun s b => s.freeBanks cl b 1) s) :=
  Settles.foldl (fun s b => settles_of_ctx (ctx_freeBanks s cl b 1)) l s

theorem settles_unloadRegion (s : State) (cl r : Nat) : Settles s (s.unloadRegion cl r) := by
  unfold State.unloadRegion
  exact settles_of_ctx fun c k => State.ctx_updCluster s rfl c k

/-- What of a place is released before its context is. -/
def State.emptyPlace (s : State) (x : Take) (p : Place) : State :=
  let s := ((List.range 256).filter fun b => s.holdsBank p.cl x.id p.k b).foldl (fun s b => s.freeBanks p.cl b 1) s
  let s := (s.regionsOf p.cl x.id).foldl (fun s x => s.unloadRegion p.cl x.1) s
  s.updCluster p.cl fun c => { c with
    inp := p.inMap.foldl (fun l m => tdel m.2.toNat l) c.inp
    outp := p.outMap.foldl (fun l m => tdel m.2.toNat l) c.outp
    mx := if c.mx.holder = some x.id then {} else c.mx
    copy := tput none c.copy x.id none }

theorem releasePlace_eq (s : State) (x : Take) (f : CueCtx → CueCtx) (p : Place) :
    s.releasePlace x f p = (s.emptyPlace x p).updCtx p.cl p.k f := rfl

theorem settles_unloadAll (s : State) (cl : Nat) (l : List (Nat × Region)) :
    Settles s (l.foldl (fun s x => s.unloadRegion cl x.1) s) :=
  Settles.foldl (fun s x => settles_unloadRegion s cl x.1) l s

theorem settles_emptyPlace (s : State) (x : Take) (p : Place) : Settles s (s.emptyPlace x p) := by
  have freed := settles_freeEach s p.cl ((List.range 256).filter fun b => s.holdsBank p.cl x.id p.k b)
  unfold State.emptyPlace
  dsimp only
  generalize ((List.range 256).filter fun b => s.holdsBank p.cl x.id p.k b).foldl (fun s b => s.freeBanks p.cl b 1) s = y at *
  exact (freed.trans (settles_unloadAll y p.cl _)).trans (settles_of_ctx fun c k => State.ctx_updCluster _ rfl c k)

theorem settles_releasePlace (s : State) (x : Take) (p : Place) : Settles s (s.releasePlace x CueCtx.released p) :=
  (settles_emptyPlace s x p).trans (settles_release _ p.cl p.k)

/-- The context of every place is released. -/
theorem releasePlaces_idle (x : Take) (l : List Place) (s : State) {p : Place} (hp : p ∈ l) :
    ((l.foldl (fun s p => s.releasePlace x CueCtx.released p) s).ctx p.cl p.k).kstate = .idle ∧
      ((l.foldl (fun s p => s.releasePlace x CueCtx.released p) s).ctx p.cl p.k).take = 0 := by
  induction l generalizing s with
  | nil => cases hp
  | cons q l ih =>
    obtain rfl | later := List.mem_cons.1 hp
    · have first : (s.releasePlace x CueCtx.released p).ctx p.cl p.k = ((s.emptyPlace x p).ctx p.cl p.k).released :=
        State.ctx_updCtx_same _ _ _ _
      exact (Settles.foldl (settles_releasePlace · x ·) l (s.releasePlace x CueCtx.released p)).idle p.cl p.k
        (by rw [first]; rfl) (by rw [first]; rfl)
    · exact ih _ later

theorem settles_leaveCluster (s : State) (cl : Nat) : Settles s ((s.clearHz cl).retarget (pairOf cl)) := by
  unfold State.clearHz
  split
  · exact settles_of_ctx fun _ _ => rfl
  · exact (settles_updCluster s cl (f := fun c => { c with hzctl := 0 }) fun _ => rfl).trans (settles_of_ctx fun _ _ => rfl)

/-- The end of the release of a take's clusters. -/
theorem settles_leaveClusters (s : State) (id : Nat) (l : List Place) :
    Settles s (l.foldl (fun s p => (s.clearHz p.cl).retarget (pairOf p.cl)) (s.updTake id fun t => { t with places := [] })) :=
  (settles_of_ctx fun _ _ => rfl : Settles s (s.updTake id fun t => { t with places := [] })).trans
    (Settles.foldl (fun s p => settles_leaveCluster s p.cl) l _)

theorem settles_releaseClusters (s : State) (x : Take) : Settles s (s.releaseClusters x CueCtx.released) :=
  (Settles.foldl (settles_releasePlace · x ·) x.places s).trans (settles_leaveClusters _ x.id x.places)

theorem releaseClusters_idle (s : State) {x : Take} {p : Place} (hp : p ∈ x.places) :
    ((s.releaseClusters x CueCtx.released).ctx p.cl p.k).kstate = .idle ∧ ((s.releaseClusters x CueCtx.released).ctx p.cl p.k).take = 0 :=
  (settles_leaveClusters _ x.id x.places).idle p.cl p.k (releasePlaces_idle x x.places s hp).1 (releasePlaces_idle x x.places s hp).2

theorem settles_clearSaved (s : State) (id : Nat) : Settles s (s.clearSaved id CueCtx.released) := by
  refine settles_of_cases fun cl k => ?_
  have cleared : (s.clearSaved id CueCtx.released).ctx cl k =
      if (s.ctx cl k).kstate = .saved && (s.ctx cl k).take = id then (s.ctx cl k).released else s.ctx cl k := by
    have outer := tget_tmap ({} : Cluster) (fun _ c => { c with
      ctx := tmap {} (fun _ (x : CueCtx) => if x.kstate = .saved && x.take = id then x.released else x) c.ctx }) (fun _ => rfl) s.clusters cl
    rw [State.ctx, State.cluster, State.clearSaved, outer]
    exact tget_tmap ({} : CueCtx) (fun _ x => if x.kstate = .saved && x.take = id then x.released else x) (fun _ => rfl) _ k
  rw [cleared]
  split
  · exact .inr rfl
  · exact .inl ⟨_, rfl⟩

/-! ### The end of a take, but for its completion record (R309) -/

/-- What a take's end makes of its code and fault record: a stamp that was out of its lease has ended it (R241, R319), and a take
that has exited has no fault. -/
def Take.ended (x : Take) : Take :=
  let t := if x.xabort then { x with code := 2 } else x
  if t.code = 0 then { t with fr := { t.fr with fcode := 0 } } else t

theorem ended_eq (x : Take) : ∃ f, x.ended = { x with code := if x.xabort then 2 else x.code, fr := f } := by
  have calm (y : Take) : ∃ f, (if y.code = 0 then { y with fr := { y.fr with fcode := 0 } } else y) = { y with fr := f } := by
    split
    · exact ⟨_, rfl⟩
    · exact ⟨y.fr, rfl⟩
  unfold Take.ended
  split
  · exact calm { x with code := 2 }
  · exact calm x

/-- The take is gone, and its fault record written. -/
def State.retired (s : State) (id : Nat) (x : Take) (shares : List Share) : State :=
  let record := x.record (shares.map fun y => { y with copy := s.copyOf y.cl id })
  let s := s.endZones (fun o => o == id) true
  let s := (s.releaseClusters x CueCtx.released).clearSaved id CueCtx.released
  let s := shares.foldl (fun s y => s.updCluster y.cl fun c => { c with copy := tput none c.copy id none }) s
  let r := (s.dropTake x).freeVal
  if x.frec = 0 then r.2 else r.2.writeWords x.frec record

/-- The free value that stands for an energy beyond 48 bits. -/
def State.energyFree (s : State) (id : Nat) (x : Take) (shares : List Share) : Word :=
  let s := s.endZones (fun o => o == id) true
  let s := (s.releaseClusters x CueCtx.released).clearSaved id CueCtx.released
  let s := shares.foldl (fun s y => s.updCluster y.cl fun c => { c with copy := tput none c.copy id none }) s
  (s.dropTake x).freeVal.1

theorem finishTake_eq (s : State) (x : Take) (shares : List Share) : s.finishTake x shares =
    if x.ended.code = 0 then (s.retired x.id x.ended shares).complete x.ended.fn x.ended.hdr.cmpl x.ended.hdr.vec.toNat
      (completion 3 0 0 x.id) ((exitStatus x.ended.exits).setWidth 64) (if x.ended.fr.eventful then x.ended.frecRef else 0)
      (energyWord (s.energyFree x.id x.ended shares) shares)
    else (s.retired x.id x.ended shares).complete x.ended.fn x.ended.hdr.cmpl x.ended.hdr.vec.toNat
      (completion 5 x.ended.code.toNat 0 x.id) 0 (if x.ended.fr.eventful then x.ended.frecRef else 0)
      (energyWord (s.energyFree x.id x.ended shares) shares) := rfl

theorem settles_dropCopies (s : State) (id : Nat) (l : List Share) :
    Settles s (l.foldl (fun s y => s.updCluster y.cl fun c => { c with copy := tput none c.copy id none }) s) :=
  Settles.foldl (fun s _ => settles_of_ctx fun c k => State.ctx_updCluster s rfl c k) l s

/-- The machine when the take is gone and its record written: registers, contexts and takes. -/
theorem retired_goes (s : State) (id : Nat) (x : Take) (shares : List Share) : (s.retired id x shares).take? x.id = none ∧
    Settles s (s.retired id x shares) ∧ ∀ p ∈ x.places, ((s.retired id x shares).ctx p.cl p.k).kstate = .idle ∧
      ((s.retired id x shares).ctx p.cl p.k).take = 0 := by
  unfold State.retired
  generalize x.record (shares.map fun y => { y with copy := s.copyOf y.cl id }) = record
  dsimp only
  have zones := settles_endZones s (fun o => o == id) true
  generalize s.endZones (fun o => o == id) true = a at *
  have left := settles_releaseClusters a x
  have idle (p : Place) (hp : p ∈ x.places) := releaseClusters_idle a hp
  generalize a.releaseClusters x CueCtx.released = b at *
  have later := (settles_clearSaved b id).trans (settles_dropCopies _ id shares)
  generalize shares.foldl (fun s y => s.updCluster y.cl fun c => { c with copy := tput none c.copy id none })
    (b.clearSaved id CueCtx.released) = c at *
  have gone : (c.dropTake x).freeVal.2.take? x.id = none := (take?_dropTake c x x.id).trans (if_pos rfl)
  have dropped : Settles c (c.dropTake x).freeVal.2 := settles_of_ctx fun _ _ => rfl
  generalize (c.dropTake x).freeVal.2 = d at *
  have last : Settles b (if x.frec = 0 then d else d.writeWords x.frec record) := by
    refine (later.trans dropped).trans ?_
    split
    · exact .refl d
    · exact (sameContexts_write d _ _).settles
  refine ⟨?_, (zones.trans left).trans last, fun p hp => last.idle p.cl p.k (idle p hp).1 (idle p hp).2⟩
  split
  · exact gone
  · have same : (d.writeWords x.frec record).takes = d.takes := d.write_takes _ _
    rw [State.take?, same]; exact gone

theorem energyWord_sum (free : Word) (l : List Share) (small : (l.foldl (fun n x => n + x.ctx.ecnt.toNat) 0) < 2 ^ 48)
    (exact' : ∀ x ∈ l, x.ctx.esat = false) : energyWord free l = .ofNat 64 (l.foldl (fun n x => n + x.ctx.ecnt.toNat) 0) := by
  have calm : (l.any fun x => x.ctx.esat) = false := List.any_eq_false.2 fun x hx => by simp [exact' x hx]
  unfold energyWord
  dsimp only
  rw [calm, if_pos small]
  exact BitVec.zero_or

/-- The status of a take none of whose contexts has one. -/
theorem exitStatus_none {l : List (Nat × BitVec 32)} (h : ∀ x ∈ l, x.2 = 0) : exitStatus l = 0 := by
  have none : ((List.range 256).findSome? fun cl => l.findSome? fun x => if x.1 = cl && x.2 ≠ 0 then some x.2 else none) = none :=
    List.findSome?_eq_none_iff.2 fun cl _ => List.findSome?_eq_none_iff.2 fun x hx => by simp [h x hx]
  rw [exitStatus, none]

/-- The status of a take: that of the lowest cluster that has one. -/
theorem exitStatus_lowest {l : List (Nat × BitVec 32)} {x : Nat × BitVec 32} (hx : x ∈ l) (nodup : (l.map (·.1)).Nodup) (small : x.1 < 256)
    (some' : x.2 ≠ 0) (low : ∀ y ∈ l, y.2 ≠ 0 → x.1 ≤ y.1) : exitStatus l = x.2 := by
  have here : (l.findSome? fun y => if y.1 = x.1 && y.2 ≠ 0 then some y.2 else none) = some x.2 := by
    obtain ⟨a, b, rfl⟩ := List.append_of_mem hx
    rw [List.findSome?_append, List.findSome?_eq_none_iff.2 fun y hy => ?_]
    · rw [Option.none_or, List.findSome?_cons]
      simp only [decide_true, Bool.true_and, some', ne_eq, not_false_eq_true, if_true]
    · have apart : y.1 ≠ x.1 := fun e => by
        rw [List.map_append, List.map_cons, List.nodup_append] at nodup
        exact nodup.2.2 y.1 (List.mem_map_of_mem hy) x.1 List.mem_cons_self e
      simp [apart]
  have below (cl : Nat) (hcl : cl < x.1) : (l.findSome? fun y => if y.1 = cl && y.2 ≠ 0 then some y.2 else none) = none := by
    refine List.findSome?_eq_none_iff.2 fun y hy => if_neg fun h => ?_
    obtain ⟨e, n⟩ := Bool.and_eq_true_iff.1 h
    exact absurd (low y hy (of_decide_eq_true n)) (by rw [of_decide_eq_true e]; omega)
  have cut : List.range 256 = List.range x.1 ++ (x.1 :: (List.range (255 - x.1)).map (x.1 + 1 + ·)) := by
    rw [show (256 : Nat) = x.1 + (1 + (255 - x.1)) by omega, List.range_add, List.range_add]
    simp [Function.comp_def, Nat.add_assoc]
  have found : ((List.range 256).findSome? fun cl => l.findSome? fun y => if y.1 = cl && y.2 ≠ 0 then some y.2 else none) = some x.2 := by
    rw [cut, List.findSome?_append, List.findSome?_eq_none_iff.2 fun cl hcl => below cl (List.mem_range.1 hcl), Option.none_or,
      List.findSome?_cons, here]
  rw [exitStatus, found]

/-! ### What comes before that end: banks, entries and reservations (R257, R309) -/

/-- The takes and the contexts are as before. -/
structure KeepsUsers (s t : State) : Prop where
  takes : t.takes = s.takes
  ctx   : ∀ cl k, t.ctx cl k = s.ctx cl k

theorem KeepsUsers.refl (s : State) : KeepsUsers s s := ⟨rfl, fun _ _ => rfl⟩
theorem KeepsUsers.trans (h : KeepsUsers s t) (g : KeepsUsers t u) : KeepsUsers s u :=
  ⟨g.takes.trans h.takes, fun cl k => (g.ctx cl k).trans (h.ctx cl k)⟩
theorem KeepsUsers.foldl {α : Type} {f : State → α → State} (h : ∀ s x, KeepsUsers s (f s x)) (l : List α) (s : State) :
    KeepsUsers s (l.foldl f s) := by
  induction l generalizing s with
  | nil => exact .refl s
  | cons x l ih => exact (h s x).trans (ih _)

/-- The clusters and the takes are as before. -/
structure OnlySends (s t : State) : Prop where
  clusters : t.clusters = s.clusters
  takes    : t.takes = s.takes

theorem OnlySends.refl (s : State) : OnlySends s s := ⟨rfl, rfl⟩
theorem OnlySends.trans (h : OnlySends s t) (g : OnlySends t u) : OnlySends s u := ⟨g.clusters.trans h.clusters, g.takes.trans h.takes⟩
theorem OnlySends.foldl {α : Type} {f : State → α → State} (h : ∀ s x, OnlySends s (f s x)) (l : List α) (s : State) :
    OnlySends s (l.foldl f s) := by
  induction l generalizing s with
  | nil => exact .refl s
  | cons x l ih => exact (h s x).trans (ih _)
theorem OnlySends.users (h : OnlySends s t) : KeepsUsers s t := ⟨h.takes, fun cl k => by rw [State.ctx, State.cluster, h.clusters]; rfl⟩
theorem OnlySends.copyOf (h : OnlySends s t) (cl id : Nat) : t.copyOf cl id = s.copyOf cl id := by
  rw [State.copyOf, State.cluster, h.clusters]; rfl

theorem onlySends_pinPort (s : State) (pkg cls : Nat) : OnlySends s (s.pinPort pkg cls).2 := by
  unfold State.pinPort
  split
  · exact .refl s
  · dsimp only
    split
    · exact ⟨rfl, rfl⟩
    · exact .refl s

theorem onlySends_sendFlit (s : State) (p pkg cls : Nat) (y : Payload) : OnlySends s (s.sendFlit p pkg cls y) := ⟨rfl, rfl⟩

theorem onlySends_send (s : State) (pkg cls : Nat) (m : LinkMsg) : OnlySends s (s.send pkg cls m) := by
  have pinned := onlySends_pinPort s pkg cls
  unfold State.send
  split
  next y e => rw [e] at pinned; exact pinned
  next p y e =>
    rw [e] at pinned
    exact pinned.trans (OnlySends.foldl (fun s x => onlySends_sendFlit s p pkg cls x) _ y)

theorem onlySends_sendRelease (s : State) (r : Rsv) (snd : Sender) : OnlySends s (s.sendRelease r snd) := by
  unfold State.sendRelease
  split
  · exact ⟨rfl, rfl⟩
  · exact onlySends_send s _ _ _

theorem onlySends_reqs (s : State) (l : List Req) : OnlySends s { s with reqs := l } := ⟨rfl, rfl⟩

theorem onlySends_sendMem (s : State) (pkg : Nat) (rq : Requester) (lease off : Nat) (req : MemReq) :
    OnlySends s (s.sendMem pkg rq lease off req) := by
  unfold State.sendMem
  exact (onlySends_reqs s _).trans (onlySends_send _ _ _ _)

theorem copyOf_updCopy (s : State) (cl id c j : Nat) (f : CopyEng → CopyEng) :
    (s.updCopy cl id f).copyOf c j = if c = cl ∧ j = id then f (s.copyOf c j) else s.copyOf c j := by
  rw [State.copyOf, State.updCopy, State.cluster_updCluster]
  by_cases hc : c = cl
  · subst hc
    rw [if_pos rfl]
    dsimp only
    rw [tget_tput]
    by_cases hj : j = id
    · subst hj; rw [if_pos rfl, if_pos ⟨rfl, rfl⟩]; rfl
    · rw [if_neg hj, if_neg fun h => hj h.2]; rfl
  · rw [if_neg hc, if_neg fun h => hc h.1]; rfl

theorem keepsUsers_updCopy (s : State) (cl id : Nat) (f : CopyEng → CopyEng) : KeepsUsers s (s.updCopy cl id f) :=
  ⟨rfl, fun c k => State.ctx_updCluster s rfl c k⟩

theorem keepsUsers_freeBanks (s : State) (cl i n : Nat) : KeepsUsers s (s.freeBanks cl i n) := ⟨rfl, ctx_freeBanks s cl i n⟩

theorem copyOf_freeBanks (s : State) (cl i n c id : Nat) : (s.freeBanks cl i n).copyOf c id = s.copyOf c id := by
  rw [State.copyOf, State.freeBanks, State.cluster_updCluster]
  split
  next e => rw [e]; rfl
  next => rfl

theorem copyOf_foldl {α : Type} {f : State → α → State} (h : ∀ s x cl id, (f s x).copyOf cl id = s.copyOf cl id) (l : List α) (s : State)
    (cl id : Nat) : (l.foldl f s).copyOf cl id = s.copyOf cl id := by
  induction l generalizing s with
  | nil => rfl
  | cons x l ih => exact (ih _).trans (h s x cl id)

theorem keepsUsers_freeHeld (s : State) (x : Take) : KeepsUsers s (s.freeHeld x) := by
  unfold State.freeHeld
  exact KeepsUsers.foldl (fun s p => KeepsUsers.foldl (fun s b => keepsUsers_freeBanks s p.cl b 1) _ s) x.places s

theorem copyOf_freeHeld (s : State) (x : Take) (cl id : Nat) : (s.freeHeld x).copyOf cl id = s.copyOf cl id := by
  unfold State.freeHeld
  exact copyOf_foldl (fun s p cl id => copyOf_foldl (fun s b => copyOf_freeBanks s p.cl b 1) _ s cl id) x.places s cl id

/-- No entry is ACTIVE, and no stamp waits for its acknowledgement. -/
def CopyEng.rests (c : CopyEng) : Prop := ∀ e ∈ c.ents, e.2.st ≠ .active ∧ e.2.stamp = none

theorem activeEnts_rests {cl id : Nat} (h : (s.copyOf cl id).rests) : s.activeEnts cl id = [] := by
  rw [State.activeEnts, List.filter_eq_nil_iff.2 fun e he => ?_]
  · rfl
  · simpa [CopyEnt.active] using (h e he).1

theorem unfinished_rests {cl id : Nat} (h : (s.copyOf cl id).rests) : s.unfinished id cl = false :=
  List.any_eq_false.2 fun e he => by simp [CopyEnt.active, (h e he).1, (h e he).2]

theorem endFinished_rests {x : Take} {cl : Nat} (h : (s.copyOf cl x.id).rests) : s.endFinished x cl = s := by
  rw [State.endFinished, activeEnts_rests h]; rfl

/-- Where no entry is ACTIVE, only the reservations of the engine are released. -/
theorem endCopy_rests {x : Take} {cl : Nat} (h : (s.copyOf cl x.id).rests) : KeepsUsers s (s.endCopy x cl) ∧
    ∀ c, (s.endCopy x cl).copyOf c x.id = if c = cl then { s.copyOf c x.id with rsvs := [] } else s.copyOf c x.id := by
  unfold State.endCopy
  rw [activeEnts_rests h]
  simp only [List.foldl_nil]
  have sent : OnlySends s ((s.copyOf cl x.id).rsvs.foldl (fun s r => s.sendRelease r (s.sender cl x.fn)) s) :=
    OnlySends.foldl (fun s r => onlySends_sendRelease s r _) _ s
  refine ⟨sent.users.trans (keepsUsers_updCopy _ _ _ _), fun c => ?_⟩
  refine (copyOf_updCopy _ _ _ _ _ _).trans ?_
  rw [sent.copyOf c x.id]
  simp only [and_true]

theorem endCopies_rests {x : Take} (l : List Nat) (s : State) (h : ∀ cl ∈ l, (s.copyOf cl x.id).rests) :
    KeepsUsers s (l.foldl (fun s cl => s.endCopy x cl) s) ∧
    ∀ c, (s.copyOf c x.id).rests → ((l.foldl (fun s cl => s.endCopy x cl) s).copyOf c x.id).rests := by
  induction l generalizing s with
  | nil => exact ⟨.refl s, fun _ h => h⟩
  | cons cl l ih =>
    obtain ⟨users, copies⟩ := endCopy_rests (h cl List.mem_cons_self)
    have kept (c : Nat) (rest : (s.copyOf c x.id).rests) : ((s.endCopy x cl).copyOf c x.id).rests := by
      rw [copies]
      split
      · exact rest
      · exact rest
    obtain ⟨users', copies'⟩ := ih (s.endCopy x cl) fun c hc => kept c (h c (List.mem_cons_of_mem cl hc))
    exact ⟨users.trans users', fun c rest => copies' c (kept c rest)⟩

/-- The engines of a saved take stand at their clusters again. -/
theorem copyBack_rests {x : Take} (l : List Share) (s : State) (h : ∀ y ∈ l, y.copy.rests) (cl : Nat)
    (hcl : (s.copyOf cl x.id).rests ∨ ∃ y ∈ l, y.cl = cl) :
    ((l.foldl (fun s y => s.updCopy y.cl x.id fun _ => y.copy) s).copyOf cl x.id).rests := by
  induction l generalizing s with
  | nil => exact hcl.resolve_right fun ⟨y, hy, _⟩ => by cases hy
  | cons y l ih =>
    refine ih _ (fun z hz => h z (List.mem_cons_of_mem y hz)) ?_
    rw [copyOf_updCopy]
    by_cases here : cl = y.cl
    · rw [if_pos ⟨here, rfl⟩]; exact .inl (h y List.mem_cons_self)
    · rw [if_neg fun e => here e.1]
      refine hcl.imp_right fun ⟨z, hz, e⟩ => ?_
      obtain rfl | later := List.mem_cons.1 hz
      · exact absurd e.symm here
      · exact ⟨z, later, e⟩

theorem keepsUsers_copyBack (s : State) (x : Take) : KeepsUsers s (s.copyBack x) := by
  unfold State.copyBack
  split
  · exact KeepsUsers.foldl (fun s (y : Share) => keepsUsers_updCopy s y.cl x.id _) _ s
  · exact .refl s

/-- The start of the end of a take whose entries have ended: its own note that it has started apart, the takes and contexts are as
before, and the engines rest. -/
theorem unwind_rests {x : Take} (h : ∀ y ∈ s.shares x, y.copy.rests) : let homes := (s.shares x).map (·.cl)
    ∃ a : State, s.unwind x homes = a.updTake x.id (fun t => { t with unwound := true }) ∧ KeepsUsers s a ∧
      ∀ cl ∈ homes, (a.copyOf cl x.id).rests := by
  intro homes
  have freed := keepsUsers_freeHeld s x
  have back (cl : Nat) (hcl : cl ∈ homes) : (((s.freeHeld x).copyBack x).copyOf cl x.id).rests := by
    obtain ⟨y, hy, e⟩ := List.mem_map.1 hcl
    unfold State.copyBack
    split
    next l hl =>
      have image : s.shares x = l := by rw [State.shares, hl]
      rw [image] at h hy
      exact copyBack_rests l _ h cl (.inr ⟨y, hy, e⟩)
    next hl =>
      have placed : s.shares x = x.places.map (s.share x) := by rw [State.shares, hl]
      rw [placed] at h hy
      obtain ⟨p, hp, rfl⟩ := List.mem_map.1 hy
      rw [copyOf_freeHeld, ← e]
      exact h _ (List.mem_map_of_mem hp)
  obtain ⟨users, copies⟩ := endCopies_rests homes ((s.freeHeld x).copyBack x) back
  exact ⟨_, rfl, (freed.trans (keepsUsers_copyBack _ x)).trans users, fun cl hcl => copies cl (back cl hcl)⟩

theorem reports_detectUe (s : State) (d cl id : Nat) (i : Word) : Reports s (s.detectUe d cl id i) :=
  (reports_emit s (.errorIrq d)).trans (reports_log s d cl id i)

/-! ### The end of an entry, as the other clusters see it (R240, R241) -/

/-- The same takes are alive, and the copy engines of the other clusters are as before. -/
structure OtherEngines (s t : State) (cl : Nat) : Prop where
  ids    : t.takes.map (·.id) = s.takes.map (·.id)
  copies : ∀ c, c ≠ cl → ∀ id, t.copyOf c id = s.copyOf c id

theorem OtherEngines.refl (s : State) (cl : Nat) : OtherEngines s s cl := ⟨rfl, fun _ _ _ => rfl⟩
theorem OtherEngines.trans {cl : Nat} (h : OtherEngines s t cl) (g : OtherEngines t u cl) : OtherEngines s u cl :=
  ⟨g.ids.trans h.ids, fun c hc id => (g.copies c hc id).trans (h.copies c hc id)⟩

theorem OtherEngines.foldl {α : Type} {cl : Nat} {f : State → α → State} (h : ∀ s x, OtherEngines s (f s x) cl) (l : List α) (s : State) :
    OtherEngines s (l.foldl f s) cl := by
  induction l generalizing s with
  | nil => exact .refl s cl
  | cons x l ih => exact (h s x).trans (ih _)

theorem OtherEngines.alive {cl id : Nat} (h : OtherEngines s t cl) (alive : (s.take? id).isSome) : (t.take? id).isSome := by
  have iff (s : State) : (s.take? id).isSome = true ↔ id ∈ s.takes.map (·.id) := by
    rw [State.take?, List.find?_isSome]; simp
  rw [iff, h.ids, ← iff]; exact alive

theorem Reports.engines (h : Reports s t) (cl : Nat) : OtherEngines s t cl := ⟨by rw [h.takes], fun c _ id => h.copyOf c id⟩
theorem OnlySends.engines (h : OnlySends s t) (cl : Nat) : OtherEngines s t cl := ⟨by rw [h.takes], fun c _ id => h.copyOf c id⟩

theorem engines_updTake (s : State) (cl id : Nat) {f : Take → Take} (hf : ∀ x, (f x).id = x.id) : OtherEngines s (s.updTake id f) cl := by
  refine ⟨?_, fun _ _ _ => rfl⟩
  rw [State.updTake, List.map_map]
  refine List.map_congr_left fun x _ => ?_
  dsimp only [Function.comp]
  split
  · exact hf x
  · rfl

theorem engines_updCluster (s : State) (cl : Nat) (f : Cluster → Cluster) : OtherEngines s (s.updCluster cl f) cl :=
  ⟨rfl, fun c hc id => by rw [State.copyOf, State.cluster_updCluster_other s hc]; rfl⟩

theorem engines_updEnt (s : State) (cl id e : Nat) (f : CopyEnt → CopyEnt) : OtherEngines s (s.updEnt cl id e f) cl :=
  engines_updCluster s cl _

theorem engines_outOfLease (s : State) (cl id src cause unit tid off : Nat) :
    OtherEngines s (s.outOfLease id src cause cl unit tid off) cl := by
  unfold State.outOfLease
  dsimp only
  split
  · exact .refl s cl
  · split
    · exact engines_updTake s cl id fun _ => rfl
    · split
      · exact engines_updTake s cl id fun _ => rfl
      · exact .refl s cl

theorem engines_stalls (s : State) (cl : Nat) (x : Take) (ten : Tensor) (off : Nat) : OtherEngines s (s.stalls x ten off) cl := by
  unfold State.stalls
  dsimp only
  split
  · exact engines_updTake s cl x.id fun _ => rfl
  · exact .refl s cl

theorem engines_stamp (s : State) (cl : Nat) (x : Take) (e : Nat) (w : Sched) (err : Bool) : OtherEngines s (s.stamp cl x e w err).1 cl := by
  have counted (f : CopyEng → CopyEng) : OtherEngines s (s.updCopy cl x.id f) cl := engines_updCluster s cl _
  have lost (s : State) := engines_updEnt s cl x.id e fun y => { y with st := .error, ecode := ecAbort }
  unfold State.stamp
  dsimp only
  split
  next c _ => exact (counted _).trans (engines_outOfLease _ cl x.id 5 c e w.stid w.stoff)
  next => exact .refl s cl
  next => exact ((counted _).trans (lost _)).trans ((reports_detectUe _ (dieOf cl) cl x.id linkInfo).engines cl)
  next a _ =>
    split
    next y hy =>
      unfold State.tryWrite at hy
      split at hy
      · cases hy
      · cases hy
        exact (counted _).trans ((reports_write _ _ _).engines cl)
    next => exact ((counted _).trans ((reports_uncorrectable _ _ _ _ _).engines cl)).trans (lost _)
  next p lease o _ =>
    exact ((counted _).trans (engines_updEnt _ cl x.id e _)).trans ((onlySends_sendMem _ _ _ _ _ _).engines cl)

theorem engines_freeSlots (s : State) (cl : Nat) (y : CopyEnt) (f : Flow) (ok : Bool) : OtherEngines s (s.freeSlots cl y f ok) cl := by
  unfold State.freeSlots
  refine OtherEngines.foldl (fun s z => ?_) y.slots.zipIdx s
  split
  · exact engines_updCluster s cl _
  · exact .refl s cl

theorem engines_endEntry (s : State) (cl : Nat) (x : Take) (e : Nat) (w : Sched) (code : BitVec 4) :
    OtherEngines s (s.endEntry cl x e w code) cl := by
  have ended := engines_updEnt s cl x.id e fun y =>
    { y with st := if code = 0 then .done else .error, ecode := code, fin := none, obuf := 0, obits := 0, asked := 0, vals := [] }
  unfold State.endEntry
  dsimp only
  generalize s.updEnt cl x.id e _ = a at *
  have freed (b : Bool) (y : CopyEnt) (f : Flow) (ok : Bool) : OtherEngines s (if b then a.freeSlots cl y f ok else a) cl := by
    split
    · exact ended.trans (engines_freeSlots a cl y f ok)
    · exact ended
  split
  · have stamped := engines_stamp (if w.src.kind = 3 && w.src.free then a.freeSlots cl (tget {} (s.copyOf cl x.id).ents e)
        (flowOf x w (tget {} (s.copyOf cl x.id).ents e).opr (tget {} (s.copyOf cl x.id).ents e).slots.length) (code = 0) else a)
      cl x e w (code ≠ 0)
    split
    next y hy => rw [hy] at stamped; exact (freed _ _ _ _).trans stamped
    next => exact engines_stalls s cl x _ _
  · exact freed _ _ _ _

theorem engines_endFinished (s : State) (x : Take) (cl : Nat) : OtherEngines s (s.endFinished x cl) cl := by
  unfold State.endFinished
  refine OtherEngines.foldl (fun s e => ?_) (s.activeEnts cl x.id) s
  dsimp only
  split
  · split
    · exact engines_endEntry s cl x e _ _
    · exact .refl s cl
  · exact .refl s cl

/-- The only entry of an engine waits for its writes. -/
def CopyEng.awaits (c : CopyEng) : Prop :=
  ∃ e : Nat × CopyEnt, c.ents = [e] ∧ e.2.st = .active ∧ e.2.fin.isSome = true ∧ e.2.posted ≠ []

theorem endFinished_awaits {x : Take} {cl : Nat} (h : (s.copyOf cl x.id).awaits) : s.endFinished x cl = s := by
  obtain ⟨⟨n, e⟩, ents, active, fin, posted⟩ := h
  have here : s.activeEnts cl x.id = [n] := by
    have busy : e.active = true := by rw [CopyEnt.active]; exact beq_iff_eq.2 active
    rw [State.activeEnts, ents, List.filter_cons, if_pos busy]; rfl
  have entry : tget {} (s.copyOf cl x.id).ents n = e := by rw [ents]; simp [tget]
  have waiting : e.posted.isEmpty = false := by simpa using posted
  rw [State.endFinished, here, List.foldl_cons, List.foldl_nil, entry]
  dsimp only
  simp only [waiting, Bool.false_eq_true, if_false]
  split
  · rfl
  · rfl

/-- The ends of the entries of other clusters leave such an engine, and the take, as they were. -/
theorem endAll_awaits {x : Take} {cl : Nat} (l : List Nat) (s : State) (h : (s.copyOf cl x.id).awaits) :
    ((l.foldl (fun s c => s.endFinished x c) s).copyOf cl x.id).awaits ∧
    ∀ id, (s.take? id).isSome → ((l.foldl (fun s c => s.endFinished x c) s).take? id).isSome := by
  induction l generalizing s with
  | nil => exact ⟨h, fun _ h => h⟩
  | cons c l ih =>
    have step := engines_endFinished s x c
    have kept : ((s.endFinished x c).copyOf cl x.id).awaits := by
      by_cases here : cl = c
      · subst here; rw [endFinished_awaits h]; exact h
      · rw [step.copies cl here]; exact h
    obtain ⟨rest, alive⟩ := ih _ kept
    exact ⟨rest, fun id hid => alive id (step.alive hid)⟩

end

/-! ### TAKE_END (R309) -/

section
variable {s : State} {id : Nat} {x : Take}

/-- A take whose engine waits for writes stays. -/
theorem takeEnd_stays (hx : s.take? id = some x) (un : x.unwound = true) {y : Share} (hy : y ∈ s.shares x)
    (h : (s.copyOf y.cl id).awaits) : Goes (exec (.takeEnd id) s) fun u => ∃ v, u.take? id = some v := by
  obtain rfl := take?_id hx
  change Goes (execTakeEnd x.id s) _
  rw [execTakeEnd, hx]
  dsimp only
  split
  · exact Goes.next ⟨x, hx⟩
  · obtain ⟨waits, alive⟩ := endAll_awaits ((s.shares x).map (·.cl)) s h
    obtain ⟨e, ents, active, fin, -⟩ := waits
    have open' : (((s.shares x).map (·.cl)).any (State.unfinished (((s.shares x).map (·.cl)).foldl (fun s cl => s.endFinished x cl) s) x.id)) = true := by
      refine List.any_eq_true.2 ⟨y.cl, List.mem_map_of_mem hy, ?_⟩
      rw [State.unfinished, ents]
      simp [CopyEnt.active, active, fin]
    rw [if_pos open']
    exact Goes.next (Option.isSome_iff_exists.1 (alive x.id (by rw [hx]; rfl)))

/-- Where the engines rest nothing is left to end. -/
theorem endAll_rests (l : List Nat) (s : State) (h : ∀ cl ∈ l, (s.copyOf cl x.id).rests) :
    l.foldl (fun s cl => s.endFinished x cl) s = s ∧ l.any (s.unfinished x.id) = false := by
  refine ⟨?_, List.any_eq_false.2 fun cl hcl => by simp [unfinished_rests (h cl hcl)]⟩
  induction l with
  | nil => rfl
  | cons cl l ih =>
    rw [List.foldl_cons, endFinished_rests (h cl List.mem_cons_self)]
    exact ih fun c hc => h c (List.mem_cons_of_mem cl hc)

/-- A take whose engines rest ends: of the machine before the last steps, only the takes' note and the contexts' registers matter. -/
theorem takeEnd_finishes (hx : s.take? id = some x) (st : x.st = .ending) (calm : s.resets x.fn = false)
    (fresh : x.unwound = false → ∀ y ∈ s.shares x, y.copy.rests)
    (begun : x.unwound = true → ∀ y ∈ s.shares x, (s.copyOf y.cl id).rests) :
    ∃ a : State, Settles s a ∧ exec (.takeEnd id) s = .next (a.finishTake { x with unwound := true } (s.shares x)) := by
  obtain rfl := take?_id hx
  have start : ∃ b : State, (if x.unwound then s else s.unwind x ((s.shares x).map (·.cl))) = b ∧ Settles s b ∧
      b.take? x.id = some { x with unwound := true } ∧ ∀ cl ∈ (s.shares x).map (·.cl), (b.copyOf cl x.id).rests := by
    cases un : x.unwound with
    | true =>
      refine ⟨s, rfl, .refl s, by rw [hx, ← un], fun cl hcl => ?_⟩
      obtain ⟨y, hy, rfl⟩ := List.mem_map.1 hcl
      exact begun un y hy
    | false =>
      obtain ⟨a, e, users, rests⟩ := unwind_rests (fresh un)
      refine ⟨_, rfl, ?_, ?_, fun cl hcl => ?_⟩
      · rw [e]; exact (settles_of_ctx users.ctx).trans (settles_of_ctx fun _ _ => rfl)
      · have alive : a.take? x.id = some x := by rw [State.take?, users.takes]; exact hx
        rw [e]; exact take?_updTake_same (f := fun t => { t with unwound := true }) (fun _ => rfl) alive
      · rw [e]; exact rests cl hcl
  obtain ⟨b, e, settles, alive, rests⟩ := start
  obtain ⟨same, none⟩ := endAll_rests ((s.shares x).map (·.cl)) b rests
  refine ⟨b, settles, ?_⟩
  change execTakeEnd x.id s = _
  rw [execTakeEnd, hx]
  dsimp only
  rw [if_neg (by simp [st, calm]), e, same, if_neg (by simp [none]), alive, Option.getD_some]

/-- The completion record of a take that ends (R195, R296, R309). -/
theorem finishTake_goes (a : State) (x : Take) (l : List Share) : ∃ (z : State) (w d e : Word),
    z.take? x.id = none ∧ Settles a z ∧ (∀ p ∈ x.places, (z.ctx p.cl p.k).kstate = .idle ∧ (z.ctx p.cl p.k).take = 0) ∧
    (let code := if x.xabort then 2 else x.code.toNat
     (code = 0 → a.finishTake x l = z.complete x.fn x.hdr.cmpl x.hdr.vec.toNat (completion 3 0 0 x.id) w d e) ∧
     (code ≠ 0 → a.finishTake x l = z.complete x.fn x.hdr.cmpl x.hdr.vec.toNat (completion 5 code 0 x.id) 0 d e)) ∧
    w = (exitStatus x.exits).setWidth 64 ∧ (d = 0 ∨ d = x.frecRef) ∧ ∃ free, e = energyWord free l := by
  obtain ⟨f, hf⟩ := ended_eq x
  obtain ⟨gone, settles, idle⟩ := retired_goes a x.id x.ended l
  have number : x.ended.code.toNat = if x.xabort then 2 else x.code.toNat := by rw [hf]; cases x.xabort <;> rfl
  have zero : x.ended.code = 0 ↔ (if x.xabort then 2 else x.code.toNat) = 0 := by
    rw [← number, ← BitVec.toNat_inj]; rfl
  refine ⟨a.retired x.id x.ended l, _, if x.ended.fr.eventful then x.ended.frecRef else 0, energyWord (a.energyFree x.id x.ended l) l,
    ?_, settles, ?_, ⟨fun h => ?_, fun h => ?_⟩, rfl, ?_, _, rfl⟩
  · rw [hf] at gone ⊢; exact gone
  · rw [hf] at idle ⊢; exact idle
  · rw [finishTake_eq, if_pos (zero.2 h)]
    rw [hf]
  · rw [finishTake_eq, if_neg (mt zero.1 h), number]
    rw [hf]
  · split
    · right; rw [hf]
    · exact .inl rfl

end

/-- Settles O54: CANCEL, TAKECTL, FREL and the end of a take. -/
theorem takeEnds : Obligations.TakeEnds := by
  unfold Obligations.TakeEnds
  intro s fn id f answer ending y go
  have cancel : go = execCancel fn id s := rfl
  refine ⟨fun hr => ?_, fun hr who => ?_, fun none => ?_, fun t ht => ⟨?_, fun own => ⟨fun hr st => ?_, fun hr st => ?_, fun hr st => ?_, fun st stopped => ?_⟩,
    fun no => ?_, fun hr => ?_, fun x hx e he st un only active fin posted => ?_, fun st calm fresh begun => ?_⟩⟩
  case refine_1 => rw [cancel]; simp [execCancel, hr]
  case refine_2 =>
    rw [cancel, execCancel, if_neg (by simp [hr])]
    obtain none | ⟨t, ht, other | ended⟩ := who
    · rw [none]; exact Goes.next (onlyFn_updFn s fn _)
    · rw [ht]
      dsimp only
      rw [if_pos other]; exact Goes.next (onlyFn_updFn s fn _)
    · rw [ht]
      dsimp only
      rw [ended]
      split <;> exact Goes.next (onlyFn_updFn s fn _)
  case refine_3 =>
    change Goes (execFrel fn id s) _
    rw [execFrel, none]
    exact Goes.next rfl
  case refine_4 =>
    change execFrel fn id s = _
    rw [execFrel, ht]; rfl
  case refine_5 =>
    obtain rfl := own
    obtain rfl := take?_id ht
    have drops : go = .next ((((s.dropTake t).complete t.fn t.hdr.cmpl t.hdr.vec.toNat (completion 4 0 0 t.id) 0 0 0)).updFn t.fn
        fun f => { f with ctake := .ofNat 32 t.id, cres := 1 }) := by
      rw [cancel, execCancel, if_neg (by simp [hr]), ht]
      dsimp only
      rw [if_neg (by simp)]
      obtain st | st := st <;> rw [st]
    rw [drops]
    exact Goes.next ⟨s.dropTake t, _, (take?_dropTake s t t.id).trans (if_pos rfl), fun j hj => (take?_dropTake s t j).trans (if_neg hj), rfl,
      rplots_dropTake s t, onlyFn_dropTake s t, rfl, onlyFn_updFn _ t.fn _⟩
  case refine_6 =>
    obtain rfl := own
    have asks : go = .next ((s.askFreeze id (.abort 1)).updFn t.fn fun f => { f with ctake := .ofNat 32 id, cres := 2 }) := by
      rw [cancel, execCancel, if_neg (by simp [hr]), ht]
      dsimp only
      rw [if_neg (by simp)]
      obtain st | st := st <;> rw [st]
    rw [asks]
    exact Goes.next ⟨_, onlyTake_askFreeze (.abort 1) ht st, onlyFn_updFn (s.askFreeze id (.abort 1)) t.fn _⟩
  case refine_7 =>
    obtain rfl := own
    have ends : go = .next ((s.abortSaved id 1).updFn t.fn fun f => { f with ctake := .ofNat 32 id, cres := 2 }) := by
      rw [cancel, execCancel, if_neg (by simp [hr]), ht]
      dsimp only
      rw [if_neg (by simp), st]
    rw [ends]
    exact Goes.next ⟨_, onlyTake_abortSaved 1 ht, onlyFn_updFn (s.abortSaved id 1) t.fn _⟩
  case refine_8 =>
    obtain rfl := own
    have found := stoppedTake_some ht st stopped
    refine ⟨?_, fun no => ?_, fun yes => ?_⟩
    · change Goes (execTakectlAbort t.fn id s) _
      rw [execTakectlAbort, found]
      exact Goes.next (onlyTake_abortSaved 2 ht)
    · change Goes (execTakectlResume t.fn id s) _
      rw [execTakectlResume, found]
      dsimp only
      rw [if_pos no]
      exact Goes.next (onlyTake_abortSaved 2 ht)
    · change Goes (execTakectlResume t.fn id s) _
      rw [execTakectlResume, found]
      dsimp only
      rw [if_neg (by simp [yes])]
      exact Goes.next (onlyTake_updTake (f := fun t => { t with stopped := false, since := s.cycle }) (fun _ => rfl) ht)
  case refine_9 =>
    have absent := stoppedTake_none ht no
    refine ⟨?_, ?_⟩
    · change execTakectlResume fn id s = _
      rw [execTakectlResume, absent]
    · change execTakectlAbort fn id s = _
      rw [execTakectlAbort, absent]
  case refine_10 =>
    change execTakeEnd id s = _
    rw [execTakeEnd, ht]
    dsimp only
    rw [if_pos (by simp [hr])]
  case refine_11 =>
    refine takeEnd_stays ht un hx ⟨e, ?_, active, fin, posted⟩
    obtain ⟨one, hone⟩ := List.length_eq_one_iff.1 ((List.length_map _).symm.trans (congrArg List.length only))
    rw [hone] at he ⊢
    rw [List.mem_singleton.1 he]
  case refine_12 =>
    obtain ⟨a, before, ends⟩ := takeEnd_finishes ht st calm fresh begun
    obtain ⟨z, w, d, e, gone, after, idle, ⟨zero, other⟩, hw, hd, free, he⟩ := finishTake_goes a { t with unwound := true } (s.shares t)
    obtain rfl := take?_id ht
    have settles := before.trans after
    rw [ends]
    refine Goes.next ⟨z, w, d, e, gone, fun p hp => ?_, ⟨zero, other⟩, fun none => ?_, fun x hx nodup small some low => ?_, hd, ?_⟩
    · exact ⟨(idle p hp).1, (idle p hp).2, settles.regs _ _, settles.prds _ _, settles.hnds _ _, settles.pc _ _⟩
    · rw [hw, exitStatus_none none]; rfl
    · rw [hw, exitStatus_lowest hx nodup small some low]
    · intro sum small calm
      rw [he, energyWord_sum free _ small calm]

end Sys2Proof.Machine
end

section
/-! PROOFS. The links (O60): its clause on RESEND_REQUEST looks for the flits that wait in all that the port table lists before the
step, where the step looks after its count of failures has put one entry in place of all that the table lists for the port. Of a
table that lists a port twice, which is not in canonical form (`Table.wf`) but which `State` admits, the two differ. -/

namespace Sys2Proof.Machine

/-- A package whose port table lists port 0 twice. The port reads the first entry, whose queue is empty; the entry behind it holds
flit 0 of package 0, class 0, which stands in the retry buffer. -/
def doubledPort : State := { State.reset with
  svports := [(0, {}), (0, { sendq := [⟨0, 0, 0, ⟨.mgmt [], 0, 1⟩⟩] })]
  pins := [(0, { port := some 0, retry := [(0, ⟨.mgmt [], 0, 1⟩)] })] }

/-- A request to send again from flit 1 on replaces both entries of port 0, and sends nothing. -/
theorem doubledPort_resend : exec (.resendRequest 0 0 0 1) doubledPort =
    .next (doubledPort.flitFails 0 (failIx true (pinIx 0 0) 1) SvPort.sendFailed fun s => s.resendFrom 0 0 1) := rfl

theorem doubledPort_sendq : ((doubledPort.flitFails 0 (failIx true (pinIx 0 0) 1) SvPort.sendFailed fun s =>
    s.resendFrom 0 0 1).svport 0).sendq = [] := by decide +kernel

/-- Refutes O60: on `doubledPort` the clause on RESEND_REQUEST has flit 0 sent again, as one that waits in a port, and the model
sends nothing. It turns on the second entry for port 0: the statement asks nothing of the port table. -/
theorem not_links : ¬ Obligations.Links := by
  intro h
  obtain ⟨-, resend, -⟩ := h.1 doubledPort
  obtain ⟨-, again⟩ := resend 0 0 0 1 0 rfl
  obtain ⟨u, e, -, ports, -⟩ := again (by decide)
  have here := congrArg (fun q : SvPort => q.sendq.length) (ports 0)
  rw [doubledPort_resend] at e
  obtain rfl := Host.Outcome.next.inj e
  simp only [doubledPort_sendq] at here
  exact absurd here (by decide +kernel)

end Sys2Proof.Machine
end
